-- ==== Sys2Proof/Word.lean ====
section
/-!
DEFINITION. Word.lean: the word type, the lane list and the sorted finite map that State is built from.
-/
namespace Sys2Proof

/-- A 32-bit register or local-store word. -/
abbrev Word := BitVec 32

/-- One byte. -/
abbrev Byte := BitVec 8

/-- A set of lanes of one group: bit n stands for lane n (R26). -/
abbrev Mask := BitVec 32

/-- Bit `n` of a lane set. -/
def Mask.has (m : Mask) (n : Nat) : Bool := m.getLsbD n

/-- The list of the 32 values of `f`, lane 0 first. -/
def tab32 {α : Type} (f : Nat → α) : List α := (List.range 32).map f

/-- The lanes of a set, in increasing number. -/
def Mask.lanes (m : Mask) : List Nat := (List.range 32).filter m.has

/-- The set of the lanes that `p` holds for. -/
def Mask.of (p : Nat → Bool) : Mask :=
  (List.range 32).foldl (fun a n => if p n then a ||| (1#32 <<< n) else a) 0#32

/-- A finite map from numbers, held as a list of pairs with strictly rising keys. -/
abbrev AMap (α : Type) := List (Nat × α)

namespace AMap

/-- The value held under `k`. -/
def find {α : Type} : AMap α → Nat → Option α
  | [], _ => none
  | (j, a) :: m, k => if j = k then some a else if k < j then none else find m k

/-- The value held under `k`, or `d`. -/
def findD {α : Type} (m : AMap α) (k : Nat) (d : α) : α := (m.find k).getD d

/-- `m` with `a` held under `k`. -/
def put {α : Type} : AMap α → Nat → α → AMap α
  | [], k, a => [(k, a)]
  | (j, b) :: m, k, a =>
    if k < j then (k, a) :: (j, b) :: m else if j = k then (k, a) :: m else (j, b) :: put m k a

/-- `m` with nothing held under `k`. -/
def del {α : Type} : AMap α → Nat → AMap α
  | [], _ => []
  | (j, b) :: m, k => if k < j then (j, b) :: m else if j = k then m else (j, b) :: del m k

/-- Every key is above `k`, and the keys rise strictly. -/
def above {α : Type} : AMap α → Nat → Bool
  | [], _ => true
  | (j, _) :: m, k => decide (k < j) && above m j

/-- The keys rise strictly. -/
def wf {α : Type} : AMap α → Bool
  | [] => true
  | (j, _) :: m => above m j

/-- The values, in the order of their keys. -/
def vals {α : Type} (m : AMap α) : List α := m.map Prod.snd

/-- The keys, rising. -/
def keys {α : Type} (m : AMap α) : List Nat := m.map Prod.fst

/-- `m` with the value under `k`, if any, changed by `f`. -/
def upd {α : Type} (m : AMap α) (k : Nat) (f : α → α) : AMap α :=
  match m.find k with
  | some a => m.put k (f a)
  | none => m

/-- `m` with every value changed by `f`. -/
def mapVal {α : Type} (m : AMap α) (f : α → α) : AMap α := m.map fun p => (p.1, f p.2)

/-- `m` with the pairs that `p` holds for. -/
def keep {α : Type} (m : AMap α) (p : Nat → α → Bool) : AMap α := m.filter fun q => p q.1 q.2

end AMap

/-- The list `l` with entry `n` set to `a`; a list too short is filled up with `d`. -/
def setAt {α : Type} (d : α) : List α → Nat → α → List α
  | [], 0, a => [a]
  | [], n + 1, a => d :: setAt d [] n a
  | _ :: l, 0, a => a :: l
  | b :: l, n + 1, a => b :: setAt d l n a

/-- A number in its place in a rising list that holds it once. -/
def insertNat (a : Nat) : List Nat → List Nat
  | [] => [a]
  | b :: l => if a < b then a :: b :: l else if a = b then b :: l else b :: insertNat a l

/-- The numbers of a list, rising, each once. -/
def sortNat (l : List Nat) : List Nat := l.foldr insertNat []

/-- The `n` low bytes of `x`, least significant first (R3). -/
def leBytes : Nat → Nat → List Byte
  | 0, _ => []
  | n + 1, x => BitVec.ofNat 8 x :: leBytes n (x / 256)

/-- The number whose bytes, least significant first, are `l` (R3). -/
def leNat : List Byte → Nat
  | [] => 0
  | b :: l => b.toNat + 256 * leNat l

/-- The bits `[hi:lo]` of `x`, as a number. -/
def bitsOf (x hi lo : Nat) : Nat := x / 2 ^ lo % 2 ^ (hi + 1 - lo)

/-- The quotient of `a` by `b`, rounded up. -/
def ceilDiv (a b : Nat) : Nat := (a + b - 1) / b

end Sys2Proof
end

