-- ==== Sys2Proof/Syntax.lean ====
section
/-!
DEFINITION. Syntax.lean: the fields of an instruction word (Table 14.3) as data, and Instr, with one constructor
for each row of the opcode table: the 101 instructions and the 127 further steps of the machine and of its environment.
-/
namespace Sys2Proof

/-- Guard codes (Table 14.4). -/
inductive Cc where
  | al | eq | ne | lt | ge | le | gt | lo | hs | ls | hi | mi | pl | vs | vc | nv
  deriving DecidableEq, Repr

/-- A guard (R327): none, per lane on `c`n, or for the whole group on `f`n. -/
inductive Guard where
  | al
  | lane (reg : BitVec 2) (cc : Cc)
  | uni (reg : BitVec 2) (cc : Cc)
  deriving DecidableEq, Repr

/-- The hint field (Table 14.5). -/
structure Hint where
  stall : BitVec 4
  yield : Bool
  wmask : BitVec 6
  sbs   : BitVec 3
  lhu   : Bool
  lhm   : BitVec 4
  ocap  : Bool
  ocsel : BitVec 3
  deriving DecidableEq, Repr

/-- What every instruction but `MOVL` carries beside its operation: its guard and its hints. -/
structure Head where
  guard : Guard
  hint  : Hint
  deriving DecidableEq, Repr

/-- Register classes (Table 4.1), in the order of their codes. -/
inductive Cls where
  | v | s | q | o | cf | z | ta | imm
  deriving DecidableEq, Repr

/-- A source field: dead mark, class and index (R325, R326). -/
structure Src where
  dead : Bool
  cls  : Cls
  idx  : BitVec 8
  deriving DecidableEq, Repr

/-- A destination field: no-write-back bit, class and index (R81). -/
structure Dst where
  nwb : Bool
  cls : Cls
  idx : BitVec 8
  deriving DecidableEq, Repr

/-- A source B that can be the 24-bit immediate of the I format (R329). -/
inductive Opnd where
  | reg (s : Src)
  | imm (i : BitVec 24)
  deriving DecidableEq, Repr

/-- Integer types (`TYPE` of Table 14.9). -/
inductive ITy where
  | s32 | n32 | s64 | n64
  deriving DecidableEq, Repr

/-- Multiply modes (R405). -/
inductive MulMode where
  | lo | hi | wide
  deriving DecidableEq, Repr

/-- Bitwise operations of `LOP3` (Table 14.9). -/
inductive Lop where
  | and | or | xor | andn | orn | xnor | x | y
  deriving DecidableEq, Repr

/-- Modes of `SHFL` (R449). -/
inductive ShflMode where
  | idx | up | down | xor
  deriving DecidableEq, Repr

/-- Modes of `VOTE` (R468). -/
inductive VoteMode where
  | all | any | uni | ballot
  deriving DecidableEq, Repr

/-- Operations of `LRED` and `LSCAN` (R422). -/
inductive LaneOp where
  | add | min | max | umin | umax | and | or | xor | fadd | fmin | fmax
  deriving DecidableEq, Repr

/-- Rounding fields (`RND` of Table 14.9): `dyn` uses `FPMODE`.`RM`. -/
inductive Rnd where
  | dyn | rn | rz | ru | rd
  deriving DecidableEq, Repr

/-- Functions of `FFN` (Table 16.7). -/
inductive FfnOp where
  | rcp | rsq | ex2 | lg2 | sin | cos | tanh | sigm
  deriving DecidableEq, Repr

/-- Element types of `CVT` (Table 14.9). -/
inductive CvtTy where
  | f32 | f16 | bf16 | e5m2 | e4m3 | e2m1 | s8 | n8 | s16 | n16 | s32 | n32 | s64 | n64 | mx
  deriving DecidableEq, Repr

/-- Element types of `DOT4` (R382). -/
inductive DotTy where
  | e4m3 | e5m2 | s8 | n8
  deriving DecidableEq, Repr

/-- Access widths (Table 14.9a). -/
inductive Width where
  | n8 | s8 | n16 | s16 | w32 | w64 | w128
  deriving DecidableEq, Repr

/-- Orders (`ORD` of Table 14.7). -/
inductive Ord where
  | none | acq | rel | ar | acqRmt
  deriving DecidableEq, Repr

/-- Scopes (Table 8.1, coded as `SCOPE` of Table 14.7). -/
inductive Scope where
  | grp | team | die | dev | cell | sys
  deriving DecidableEq, Repr

/-- The memory control field (Table 14.7). -/
structure Mc where
  ord   : Ord
  scope : Scope
  ofs   : BitVec 6
  deriving DecidableEq, Repr

/-- Atomic operations (Table 14.9b). -/
inductive Aop where
  | add | and | or | xor | min | max | umin | umax | exch | fadd | fmin | fmax
  deriving DecidableEq, Repr

/-- Addend types of `XADD` (R471). -/
inductive XTy where
  | f32 | f16 | bf16
  deriving DecidableEq, Repr

/-- Directions of `CPY` (R373). -/
inductive CpyDir where
  | gl | lg | gg | ll
  deriving DecidableEq, Repr

/-- Kinds of `COLL` (R369). -/
inductive CollKind where
  | bcast | reduce | allreduce | allgather | redscat
  deriving DecidableEq, Repr

/-- Reductions of `COLL` (R369). -/
inductive CollOp where
  | fadd | fmin | fmax | iadd | bfadd
  deriving DecidableEq, Repr

/-- Engine counter classes (Table 7.3). -/
inductive CtrCls where
  | cpy | mtx | gth | col | svc
  deriving DecidableEq, Repr

/-- Kinds of `TLBI` (R460). -/
inductive TlbiKind where
  | pg | ctx | all
  deriving DecidableEq, Repr

/-- The agents that a home's directory tracks (R207, R211), by package number. -/
inductive Agent where
  | rdc (pkg die : Nat)
  | hub (pkg : Nat)
  | host (pkg : Nat)
  deriving DecidableEq, Repr

/-- The agent that sends a request, and the time stamp that the request carries (R219). -/
structure Sender where
  agent : Agent
  stamp : Nat
  deriving DecidableEq, Repr

/-- A 64-byte sector as data on the move: its bytes, its payload when poisoned, and whether its end-to-end CRC holds (R216, R250). -/
structure SectorData where
  bytes  : List Byte
  poison : Option Word
  crcOk  : Bool
  deriving DecidableEq, Repr

/-- An agent's answer to a snoop (R207, R210). -/
inductive SnoopAnswer where
  | notHeld
  | clean
  | dirty (d : SectorData)
  | writtenBack
  deriving DecidableEq, Repr

/-- The units that stop for a halt (Table 12.4) and the covered units of a strike (R292, Table 13.11). -/
inductive StopUnit where
  | rod (frame rod : Nat)
  | matrix (frame : Nat)
  | copy (frame : Nat)
  | gather (frame : Nat)
  | coll (frame : Nat)
  | fabric (die : Nat)
  deriving DecidableEq, Repr

/-- Where a strike falls (Table 13.11, STRIKE). -/
inductive StrikeUnit where
  | rod | helper | matrix | engine | router | cache | localStore | dram
  deriving DecidableEq, Repr

/-- The reply of a home on another package (Table 9.5): shared or exclusive data, write ownership with or without data, a refusal, the
completion of a home-side write, the old bytes of an atomic operation or the bytes of an uncacheable read. -/
inductive RspKind where
  | shared | exclusive | owner | refused | done
  deriving DecidableEq, Repr

/-- A reply as it arrives: what it answers (a sector, or a lane), its kind, its data. -/
structure Rsp where
  key  : Nat
  kind : RspKind
  data : Option SectorData
  deriving DecidableEq, Repr

/-- An operation whose home answers: with a message of another package, or, with none, here. -/
structure Answered where
  id  : Nat
  rsp : Option Rsp
  deriving DecidableEq, Repr

/-- A home-side atomic operation of another package (R183, R192, Table 9.5). -/
inductive AtomKind where
  | atom (op : Aop) (w64 : Bool)
  | acas (w64 : Bool)
  | xadd (ty : XTy)
  | xrd (clr : Bool)
  deriving DecidableEq, Repr

/-- The request of it: agent, address, operand registers with their poison, stamp. -/
structure ExtAtomic where
  who   : Agent
  kind  : AtomKind
  pa    : Nat
  dat   : List (Word × Bool)
  stamp : Nat
  deriving DecidableEq, Repr

/-- What the home's atomic unit performs: the operation of a number, or the request of another agent under that number. -/
structure HomeAtomic where
  id  : Nat
  ext : Option ExtAtomic
  deriving DecidableEq, Repr

/-- What an error-correcting code or a parity check finds (R252, R297, Table 13.1): a corrected error, or one that it cannot correct in a
register of a group, in a word of a team's local store, tile or accumulator, or in a sector that a place of Table 11.2 holds. -/
inductive Ecc where
  | corrected
  | vreg (gid n lane : Nat)
  | ureg (gid n : Nat)
  | word (team w : Nat)
  | tile (team n w : Nat)
  | acc (team n w : Nat)
  | sector (orig sec : Nat)
  | view (key sec : Nat)
  deriving DecidableEq, Repr

/-- How a strike ends (R292, R297): the strikes that follow it while the unit does its work again, and what a check finds where it fell. -/
structure StrikeEnd where
  restarts : Nat
  ecc      : Option Ecc
  deriving DecidableEq, Repr

/-- The links of the package that train and fail: fabric port 0-15, twin port 0-1, host link 0-1, expander link 0-3 (Table 1.3). -/
inductive Link where
  | expander (n : Nat)
  | fabric (n : Nat)
  | twin (n : Nat)
  | host (n : Nat)
  deriving DecidableEq, Repr

/-- The images of module flash as the boot ROM reads them (R309): readable, each signature good, its hash. -/
structure BootImages where
  readable : Bool
  sigsOk   : Bool
  identity : Bool
  hashes   : List (BitVec 256)
  deriving DecidableEq, Repr

/-- The key of a digest exchange (R307). -/
structure TwinKey where
  rcb     : Nat
  vpath   : BitVec 16
  ordinal : Nat
  sstep   : BitVec 32
  deriving DecidableEq, Repr

/-- Every step of the opcode table. The first 101 constructors are the instructions of Table 14.10, with the fields
of their words; the others are steps of the machine's own units and of its environment, with the data the step brings. -/
inductive Instr where
  -- move
  | nop (h : Head)
  | mov (h : Head) (d : Dst) (a : Opnd)
  | movl (n : Hint) (d : Dst) (imm : Word)
  | unify (h : Head) (d : Dst) (a : Src)
  -- integer and bit
  | iadd (h : Head) (ty : ITy) (sat : Bool) (d : Dst) (a : Src) (b : Opnd)
  | isub (h : Head) (ty : ITy) (sat : Bool) (d : Dst) (a : Src) (b : Opnd)
  | imul (h : Head) (ty : ITy) (sat : Bool) (m : MulMode) (d : Dst) (a : Src) (b : Opnd)
  | imad (h : Head) (ty : ITy) (sat : Bool) (m : MulMode) (d : Dst) (a b c : Src)
  | imin (h : Head) (ty : ITy) (d : Dst) (a : Src) (b : Opnd)
  | imax (h : Head) (ty : ITy) (d : Dst) (a : Src) (b : Opnd)
  | iabs (h : Head) (ty : ITy) (sat : Bool) (d : Dst) (a : Src)
  | lea (h : Head) (ty : ITy) (k : BitVec 2) (d : Dst) (a : Src) (b : Opnd)
  | lop3 (h : Head) (op1 op2 : Lop) (d : Dst) (a b c : Src)
  | shl (h : Head) (w64 : Bool) (d : Dst) (a : Src) (b : Opnd)
  | shr (h : Head) (w64 arith : Bool) (d : Dst) (a : Src) (b : Opnd)
  | shf (h : Head) (right : Bool) (d : Dst) (a b c : Src)
  | popc (h : Head) (w64 : Bool) (d : Dst) (a : Src)
  | clz (h : Head) (w64 : Bool) (d : Dst) (a : Src)
  | brev (h : Head) (w64 : Bool) (d : Dst) (a : Src)
  | bfx (h : Head) (signed : Bool) (d : Dst) (a b : Src)
  | bfi (h : Head) (d : Dst) (a b c : Src)
  | bil (h : Head) (three : Bool) (d : Dst) (a b c : Src)
  | bdil (h : Head) (three : Bool) (d : Dst) (a b : Src)
  | prmt (h : Head) (d : Dst) (a b c : Src)
  | cmp (h : Head) (ty : ITy) (d : Dst) (a : Src) (b : Opnd)
  | sel (h : Head) (cc : Cc) (d : Dst) (a b c : Src)
  -- lane
  | shfl (h : Head) (m : ShflMode) (d : Dst) (a b c : Src)
  | vote (h : Head) (m : VoteMode) (d : Dst) (a : Src)
  | lred (h : Head) (op : LaneOp) (d : Dst) (a : Src)
  | lscan (h : Head) (op : LaneOp) (excl : Bool) (d : Dst) (a : Src)
  -- floating point
  | fadd (h : Head) (neg sat : Bool) (rnd : Rnd) (d : Dst) (a b : Src)
  | fmul (h : Head) (neg sat : Bool) (rnd : Rnd) (d : Dst) (a b : Src)
  | ffma (h : Head) (neg sat : Bool) (rnd : Rnd) (d : Dst) (a b c : Src)
  | fmin (h : Head) (d : Dst) (a b : Src)
  | fmax (h : Head) (d : Dst) (a b : Src)
  | fcmp (h : Head) (d : Dst) (a b : Src)
  | fclass (h : Head) (d : Dst) (a : Src)
  | frnd (h : Head) (sat : Bool) (rnd : Rnd) (d : Dst) (a : Src)
  | fscale (h : Head) (sat : Bool) (rnd : Rnd) (d : Dst) (a b : Src)
  | ffn (h : Head) (f : FfnOp) (d : Dst) (a : Src)
  | fdiv (h : Head) (sat : Bool) (rnd : Rnd) (d : Dst) (a b : Src)
  | fsqrt (h : Head) (sat : Bool) (rnd : Rnd) (d : Dst) (a : Src)
  | cvt (h : Head) (sat : Bool) (rnd : Rnd) (dst src : CvtTy) (d : Dst) (a : Src)
  | pfma (h : Head) (bf neg sat : Bool) (rnd : Rnd) (d : Dst) (a b c : Src)
  | dot4 (h : Head) (ta tb : DotTy) (d : Dst) (a b c : Src)
  | fdot2 (h : Head) (bf neg sat : Bool) (rnd : Rnd) (d : Dst) (a b c : Src)
  -- matrix
  | mma (h : Head) (d : Dst) (a b : Src)
  | tldb (h : Head) (d : Dst) (a : Src)
  | azro (h : Head) (d : Dst)
  | ald (h : Head) (d : Dst) (a : Src)
  | ast (h : Head) (a b : Src)
  | ard (h : Head) (d : Dst) (a b : Src)
  | mfence (h : Head)
  -- memory
  | ld (h : Head) (ls : Bool) (w : Width) (d : Dst) (a : Src) (mc : Mc)
  | st (h : Head) (ls : Bool) (w : Width) (a b : Src) (mc : Mc)
  | ldc (h : Head) (w : Width) (d : Dst) (a : Src) (mc : Mc)
  | ldv (h : Head) (d : Dst) (a b : Src) (k : BitVec 4)
  | ldwf (h : Head) (d : Dst) (a : Src) (mc : Mc)
  | ldtk (h : Head) (d : Dst) (a : Src) (mc : Mc)
  | stwe (h : Head) (a b : Src) (mc : Mc)
  | feset (h : Head) (z full : Bool) (a b : Src)
  | fence (h : Head) (ord : Ord) (scope : Scope)
  | pfence (h : Head) (scope : Scope)
  | atom (h : Head) (ls : Bool) (op : Aop) (w64 : Bool) (d : Dst) (a b : Src) (mc : Mc)
  | acas (h : Head) (ls w64 : Bool) (d : Dst) (a b : Src) (mc : Mc)
  | red (h : Head) (ls : Bool) (op : Aop) (w64 : Bool) (a b : Src) (mc : Mc)
  | xadd (h : Head) (ty : XTy) (a b : Src) (mc : Mc)
  | xrd (h : Head) (clr : Bool) (d : Dst) (a : Src) (mc : Mc)
  -- engines
  | cpy (h : Head) (dir : CpyDir) (d : Dst) (a b c : Src)
  | tld (h : Head) (mcast : Bool) (d : Dst) (a b c : Src)
  | tst (h : Head) (d : Dst) (a b c : Src)
  | gath (h : Head) (d : Dst) (a b c : Src)
  | scat (h : Head) (d : Dst) (a b c : Src)
  | coll (h : Head) (kind : CollKind) (rop : CollOp) (d : Dst) (a b c : Src)
  | waitc (h : Head) (k : CtrCls) (a : Src)
  | cntr (h : Head) (k : CtrCls) (d : Dst)
  -- control
  | bra (h : Head) (off : BitVec 24)
  | brd (h : Head) (d : Dst) (meet : BitVec 12) (off : BitVec 24)
  | brx (h : Head) (a : Src)
  | call (h : Head) (d : Dst) (off : BitVec 24)
  | ret (h : Head) (a : Src)
  | meet (h : Head) (a : Src)
  | exit (h : Head)
  | bar (h : Head) (n : BitVec 3)
  | sstep (h : Head)
  | sleep (h : Head) (a : Src)
  -- worlds, poison, tasks
  | forkw (h : Head) (d : Dst) (a b : Src)
  | choose (h : Head) (d : Dst) (a b : Src)
  | wdrop (h : Head) (a : Src)
  | pclr (h : Head) (d : Dst) (a b : Src)
  | ptst (h : Head) (d : Dst) (a : Src)
  | pset (h : Head) (d : Dst) (a : Src)
  | launch (h : Head) (d : Dst) (a : Src)
  -- system
  | trap (h : Head) (code : BitVec 12)
  | svc (h : Head) (n : BitVec 12) (a b : Src)
  | rtt (h : Head)
  | csrr (h : Head) (d : Dst) (csr : BitVec 12)
  | csrw (h : Head) (csr : BitVec 12) (a : Src)
  | cresz (h : Head) (d : Dst) (a : Src)
  | cflush (h : Head) (inv : Bool) (a b : Src)
  | tlbi (h : Head) (k : TlbiKind) (a b : Src)
  -- queues, nodes and teams
  | kickRegisterWrite (func queue : Nat) (v : BitVec 64)
  | nodePacket (queue : Nat)
  | qfencePacket (queue : Nat)
  | qfenceComplete (queue : Nat)
  | teamReservation (ctx : Nat)
  | headBackfillLimit (ctx : Nat)
  | teamStart (team : Nat)
  | swapHeldGroup (gid : Nat)
  | swapResidenceExpiry (gid : Nat)
  | swapOutranked (rod : Nat)
  | groupRetire (gid : Nat)
  | nodeCommitting (node : Nat)
  | nodeDone (node : Nat)
  -- operations that end
  | fewaitTimeout (gid : Nat)
  | engineDelivery (id n : Nat)
  | engineComplete (id : Nat)
  | multicastRequest (id slice : Nat)
  | mergeWindowExpiry (entry : Nat)
  | matrixOpStart (frame : Nat)
  | matrixOpComplete (id : Nat)
  | barrierRelease (team bar : Nat)
  | sstepArrive (gid : Nat)
  | superstepRelease (node : Nat)
  | sleepExpiry (gid : Nat)
  | waitcSatisfied (gid : Nat)
  | loadReturn (id : Nat)
  | atomicReturn (id : Nat)
  | redAck (id : Nat)
  | creszComplete (id : Nat)
  | cflushComplete (id : Nat)
  | launchRetire (id : Nat)
  | forkwRetire (id : Nat)
  | chooseRetire (id : Nat)
  | wdropRetire (id : Nat)
  | rivalComplete (node : Nat)
  | storeBufferSend (id : Nat)
  -- homes, directory, beads
  | readShared (a : Sender) (guarded : Bool) (sec : Nat)
  | readForOwnership (a : Sender) (sec : Nat)
  | upgrade (a : Sender) (sec : Nat)
  | writeBack (a : Sender) (sec : Nat) (d : SectorData)
  | cleanEviction (a : Sender) (sec : Nat)
  | uncacheableRead (a : Sender) (pa len : Nat)
  | uncacheableWrite (a : Sender) (pa : Nat) (bytes : List Byte) (poison : Option Word)
  | homeSideAtomic (id : HomeAtomic)
  | invalidate (a : Agent) (sec : Nat) (ans : SnoopAnswer)
  | downgrade (a : Agent) (sec : Nat) (ans : SnoopAnswer)
  | backInvalidate (sec : Nat) (ans : SnoopAnswer)
  | transientRequest (frame sec : Nat) (write : Bool)
  | transientRetry (frame sec : Nat)
  | persistentRequest (frame sec : Nat)
  | beadEviction (frame sec : Nat)
  | swmEviction (place sec : Nat)
  -- fabric and cells
  | requestLost (id : Nat)
  | linkReplayExhausted (l : Link)
  | heartbeatSend
  | heartbeatLoss (pkg : Nat)
  | cellDownMessage (cell : Nat)
  | peerSweepComplete (cell home : Nat)
  | cellfail (pkg : Nat) (planes : Bool)
  | celldnWrite (k : Nat) (v : Word)
  | cellraWrite (k : Nat) (v : Word)
  -- host
  | hostMemWrite (tc pa : Nat) (bytes : List Byte)
  | hostMemRead (pa len : Nat)
  | hostSnoop (sec : Nat) (inv : Bool)
  | warmRestart (link : Nat)
  | hgcmdClear (pages : Word)
  | hostgoneClearComplete
  -- fault queue, home commands, views
  | fqcmdReplay (part : Nat) (seq : Word)
  | fqcmdCancel (part : Nat) (seq : Word)
  | fqcmdDeferredApply (part : Nat) (seq : Word)
  | replayReissue (part : Nat) (seq : Word)
  | faultBufferDrain (part : Nat)
  | mark (size : BitVec 2)
  | markComplete
  | release (size : BitVec 2)
  | swopen (size : BitVec 2)
  | swclose (size : BitVec 2)
  | vwcmdResume (part view : Nat)
  | vwcmdFail (part view : Nat)
  -- halts and pre-emption
  | haltLineArrival (ctx : Nat) (u : StopUnit)
  | haltComplete (ctx : Nat)
  | drain (ctx : Nat)
  | drainComplete (ctx : Nat)
  | drainDeadlineExpiry (ctx : Nat)
  | cut (ctx : Nat)
  | cutSave (ctx : Nat)
  | cutDeadlineExpiry (ctx : Nat)
  | restore (ctx : Nat) (parts : BitVec 16)
  | reset (ctx : Nat)
  -- services
  | svcBatchArrival (id : Nat)
  | svcReply (id : Nat) (status : Word) (data : List Byte)
  -- reliability, checkpoints, twin
  | strike (u : StrikeUnit) (frame n : Nat) (restarts : StrikeEnd)
  | katInject (rod : Nat) (op : Nat) (bad : Option Nat)
  | matrixKatPass (frame quadrant : Nat)
  | ckptSave (desc : Nat)
  | ckptLoad (desc : Nat)
  | ckptShardDone
  | twinWriteMirror (pa : Nat) (bytes : List Byte)
  | twinKickMirror (queue : Nat) (v : BitVec 64)
  | twinDigestArrival (key : TwinKey) (digest : BitVec 64)
  | twinDigestTimeout (key : TwinKey)
  | twinLinkDown
  -- bring-up and attestation
  | railOutOfTolerance
  | railsGood (im : BootImages)
  | bringupComplete
  | configurationRequest
  | mctpFirmwareUpdate (msg : List Byte)
  | getVersion
  | getCapabilities
  | negotiateAlgorithms (offer : List Byte)
  | getDigests
  | getCertificate (slot ofs len : Nat)
  | challenge (nonce : BitVec 256)
  | getMeasurements (index : Nat) (nonce : BitVec 256)
  -- system registers
  | partcfgWrite (n : Nat) (v : BitVec 64)
  | scrubComplete (n : Nat)
  | functionLevelReset (func : Nat)
  | eqlostWrite (v : Word)
  | eventBufferDrain
  | systemCsrWrite (off size : Nat) (v : BitVec 64)
  -- links and messages
  | linkUp (l : Link)
  | linkLevelReplay (l : Link)
  | grant (id : Answered)
  | heartbeat (pkg plane : Nat)
  | rollbackMirror (key : TwinKey)
  | tlbiComplete (gid : Nat)
  | fesetComplete (id : Nat)
  deriving DecidableEq, Repr

end Sys2Proof
end

