-- ==== Sys2Proof/Machine/State.lean ====
section
/-!
DEFINITION. State.lean: the state of one cell package as plain data, the reasons a step can stop, and the state right
after cold reset.
-/
namespace Sys2Proof.Machine

/-- A 32-bit element (R250): its value, or its payload when it is poisoned. -/
structure Elem where
  val : Word
  poi : Bool
  deriving DecidableEq, Repr

/-- One lane of a condition register, or a uniform flag register (R77, R82): S, Z, C, O in bits 3 to 0, the poison bit
and the payload. -/
structure FlagE where
  fl  : BitVec 4
  poi : Bool
  pay : Word
  deriving DecidableEq, Repr

/-- One lane of a latch or of an operand-cache entry (R89, R91). -/
structure LatchE where
  val   : Word
  poi   : Bool
  valid : Bool
  deriving DecidableEq, Repr

/-- The lanes of one register, lane 0 first. -/
abbrev Lanes := List Elem

/-- Run states of a thread (R25). -/
inductive TState where
  | run | held | ejected | exited
  deriving DecidableEq, Repr

/-- Why a thread is parked: it holds a fault before its region's closing instruction (R241); a lookup of a store, atomic
or fetch failed (R235), with the fault record; the group lost a store (R221); its view is full, with the address of the write's lowest lane (R259). -/
inductive Park where
  | region
  | lookup (rec : Nat)
  | lost
  | viewFull (adr : Nat)
  deriving DecidableEq, Repr

/-- A fault that a thread holds (R241): the record, the PC of the load, its place in the issue order, the payload of its origin entry. -/
structure HeldFault where
  fr  : Nat
  pc  : BitVec 57
  seq : Nat
  pay : Word
  deriving DecidableEq, Repr

/-- A trap that a thread which was parked takes before its next issue: after CANCEL (R221, R244) or FAIL (R259). `all` says that it is
its group's, which takes it once. -/
structure Doom where
  cause : BitVec 4
  info  : BitVec 64
  all   : Bool
  deriving DecidableEq, Repr

/-- One thread of a group (R25, Table 12.8); `age` counts the issues that it has spent outside Active (R34), `nmr`
is the MR that its `MEET` gives a HELD thread at release (R40), and `doom` the trap that awaits it. -/
structure Thread where
  pc     : BitVec 57
  mr     : Word
  nmr    : Word
  st     : TState
  inT    : Bool
  faults : List HeldFault
  park   : Option Park
  age    : Nat
  doom   : Option Doom
  deriving DecidableEq, Repr

/-- What a result in flight does at its clock (R85 to R92). -/
inductive PendKind where
  /-- Write of vector register `n` in the lanes of `m`. -/
  | wv (n : Nat) (m : Mask) (x : Lanes)
  /-- Write of a uniform register. -/
  | ws (n : Nat) (e : Elem)
  /-- Write of condition register `n`. -/
  | wc (n : Nat) (m : Mask) (x : List FlagE)
  /-- Write of a uniform flag register. -/
  | wf (n : Nat) (e : FlagE)
  /-- Write of the bits `sel` of the flags of uniform flag register `n`; its poison stays. -/
  | wfBits (n : Nat) (sel val : BitVec 4)
  /-- Push into the latch chain under the hold mask of the issue (R89). -/
  | push (hm : BitVec 4) (m : Mask) (x : Lanes)
  /-- The same for a result from the return path, which is pushed behind a reserved result of its clock (R73). -/
  | ret (hm : BitVec 4) (m : Mask) (x : Lanes)
  /-- Write of operand-cache entry `n` (R91). -/
  | ocap (n : Nat) (m : Mask) (x : Lanes)
  /-- Vector register `n` becomes uniform zero (R92). -/
  | dead (n : Nat)
  /-- Flags raised in `FPFLG` (R106). -/
  | flg (bits : BitVec 6)
  /-- Scoreboard `n` clears (R86). -/
  | sb (n : Nat)
  /-- The threads of `m` hold a fault from now on (R241). -/
  | hold (m : Mask) (f : HeldFault)
  deriving DecidableEq, Repr

/-- A result in flight and its clock. -/
structure Pend where
  clk  : Nat
  kind : PendKind
  deriving DecidableEq, Repr

/-- What holds a group's issue as a long-latency dependence (R68), beside its scoreboards. -/
inductive Hold where
  | none
  /-- `WAITC` (R162): class, bound, its address, its Active set. -/
  | waitc (cls : CtrCls) (n : Nat) (pc : BitVec 57) (m : Mask)
  /-- Full/empty wait of an operation, since a clock (R158). -/
  | fewait (op since : Nat)
  /-- `SSTEP`, arrived or still draining (R179). -/
  | sstep (arrived : Bool)
  | sleep (til : Nat)
  /-- An operation that holds the group until it retires (R261) or whose ordering must be met (R193, R194, R460). -/
  | op (id : Nat)
  /-- A fatal fault of the group: it issues nothing more (R276). -/
  | dead
  deriving DecidableEq, Repr

/-- A trap deferred to a `WAITC` (R246, R260, R290): the class, the age of its operation, cause and `TADDR`. -/
structure Deferred where
  cls   : CtrCls
  age   : Nat
  cause : BitVec 4
  info  : BitVec 64
  deriving DecidableEq, Repr

/-- One operation counted in an engine counter (R161): its number, and whether it has completed. -/
structure Counted where
  op   : Nat
  cls  : CtrCls
  done : Bool
  deriving DecidableEq, Repr

/-- A register that a rewind covers (R98): vector, uniform, condition, uniform flag, latch, operand-cache entry. -/
inductive RegName where
  | v (n : Nat)
  | s (n : Nat)
  | c (n : Nat)
  | f (n : Nat)
  | q (n : Nat)
  | o (n : Nat)
  deriving DecidableEq, Repr

/-- Elements written at a clock, kept 48 clocks for a rewind that fails (R293). -/
structure WLog where
  clk : Nat
  reg : RegName
  m   : Mask
  deriving DecidableEq, Repr

/-- The group CSRs of Table 14.8 but `NODE`, which its node gives. -/
structure GCsr where
  stale  : Bool
  tmode  : Bool
  sidx   : BitVec 18
  tvec   : BitVec 57
  tcause : BitVec 4
  tpc    : BitVec 57
  taddr  : BitVec 64
  fpflg  : BitVec 6
  rm     : BitVec 2
  ftz    : Bool
  ejth   : Nat
  chk    : Bool
  prio   : Nat
  vid    : Nat
  deriving DecidableEq, Repr

/-- A fault that was replayed (R243): the instruction to be run again, its threads, and `RCNT` of the record replayed. -/
structure Replay where
  pc   : BitVec 57
  m    : Mask
  rcnt : Nat
  deriving DecidableEq, Repr

/-- A group or continuation as it stood before one of its issues, for 48 clocks (R98, R107, R292): the clock, the threads, the
registers, the results in flight, the CSRs and the scoreboards. -/
structure Past where
  clk      : Nat
  threads  : List Thread
  v        : AMap Lanes
  s        : AMap Elem
  c        : AMap (List FlagE)
  f        : AMap FlagE
  q        : AMap (List LatchE)
  o        : AMap (List LatchE)
  hm       : BitVec 4
  pend     : List Pend
  sb       : BitVec 6
  sbFar    : BitVec 6
  ready    : Nat
  last     : Option Nat
  z8       : Option Word
  csr      : GCsr
  resume   : Mask
  resuming : Bool
  deriving DecidableEq, Repr

/-- One group, or one helper continuation (`cont` names its group and lane, R35). -/
structure Group where
  team     : Nat
  idx      : Nat
  frame    : Nat
  rod      : Nat
  cont     : Option (Nat × Nat)
  threads  : List Thread
  v        : AMap Lanes
  s        : AMap Elem
  c        : AMap (List FlagE)
  f        : AMap FlagE
  q        : AMap (List LatchE)
  o        : AMap (List LatchE)
  hm       : BitVec 4
  pend     : List Pend
  sb       : BitVec 6
  /-- Scoreboards set by a load or atomic beyond the local store (R68). -/
  sbFar    : BitVec 6
  /-- Earliest clock of the next issue (R67). -/
  ready    : Nat
  /-- Clock of the last issue. -/
  last     : Option Nat
  counted  : List Counted
  join     : Nat
  joinAddr : Word
  z8       : Option Word
  csr      : GCsr
  resume   : Mask
  /-- The next issue at `TPC` runs for the resume mask alone (R158). -/
  resuming : Bool
  deferred : List Deferred
  /-- Records of the group's lost stores not yet resolved (R221). -/
  lost     : List Nat
  hold     : Hold
  /-- The next matrix operation carries the `MFENCE` mark (R143). -/
  mfence   : Bool
  /-- Place in the issue order of its last release fence, behind which writes follow the earlier reads (R186). -/
  fenced   : Nat
  /-- In the active set since a clock; `none` in the pending set (R67). -/
  active   : Option Nat
  /-- Clock of the end of a swap that brings the group in (R69). -/
  swapEnd  : Nat
  /-- Clock since which a pending group has been ready, or an active one held (R69). -/
  since    : Nat
  /-- The group issued an instruction with `YIELD` and has not been swapped since. -/
  yielded  : Bool
  /-- First write after a `.REL` or `.AR` fence at GRP or TEAM scope marks its sector (R191). -/
  markNext : Bool
  wlog     : List WLog
  /-- The rewind log (R292): the group before each issue of the last 48 clocks that a rewind does again, oldest first. -/
  past     : List Past
  /-- Replies written to the group so far (R289). -/
  rseq     : Nat
  replays  : List Replay
  deriving DecidableEq, Repr

/-- A local-store word (R156) and the operations queued at it, each with its lane (R157). -/
structure LWord where
  val  : Word
  poi  : Bool
  full : Bool
  wait : List (Nat × Nat)
  deriving DecidableEq, Repr

/-- A team barrier (R178): the groups that have arrived with the scoreboard that each named, and the parity of the
generation. -/
structure Barrier where
  arrived : List (Nat × BitVec 3)
  parity  : Bool
  deriving DecidableEq, Repr

/-- A resident team: node, index (R28), frame, groups, local store, barriers, tiles and accumulators, all sparse with the
values of team start as defaults (R28). -/
structure Team where
  node    : Nat
  index   : Nat
  frame   : Nat
  vframe  : Nat
  started : Bool
  groups  : List Nat
  lgr     : Nat
  /-- Store granules of the team's allocation on its frame; granule 0 is the first of way 15. -/
  gran    : List Nat
  /-- Clock of the team's start, and the clock before which its groups do not issue (R66). -/
  startAt : Nat
  issueAt : Nat
  vgr     : Nat
  sgr     : Nat
  nbar    : Nat
  ntile   : Nat
  nacc    : Nat
  words   : AMap LWord
  bars    : AMap Barrier
  tiles   : AMap (AMap Elem)
  accs    : AMap (AMap Elem)
  deriving DecidableEq, Repr

/-- A latch clock reserved by an instruction issued in clock `issued`, with the clocks and banks of its register writes (R73). -/
structure Slot where
  clk    : Nat
  issued : Nat
  writes : List (Nat × Nat)
  deriving DecidableEq, Repr

/-- A result of an operation on the return path (R73): its latch clock, the clocks and banks of its register writes, and what it does
in its group or continuation. -/
structure Ret where
  clk    : Nat
  op     : Nat
  dest   : Nat
  issued : Nat
  writes : List (Nat × Nat)
  pend   : List Pend
  deriving DecidableEq, Repr

/-- Scheduled bank reads (bank, clock), reserved latch clocks (R71 to R73), results on the return path, and operations held in the store
buffer (R456). -/
structure Rod where
  reads : List (Nat × Nat)
  slots : List Slot
  rets  : List Ret
  store : List Nat
  deriving DecidableEq, Repr

/-- A matrix operation in the queue or running (R138, R139): its mark, its start and completion, whether it acts on its accumulator only
at its completion, and what it may still read as it stood before: the local store before each write since its issue (R145), its tile and
its accumulator before each change since its start (R142). -/
structure MxOp where
  op     : Nat
  rod    : Nat
  mark   : Bool
  start  : Option Nat
  finish : Nat
  late   : Bool
  words  : List (AMap LWord)
  tiles  : List (AMap Elem)
  accs   : List (AMap Elem)
  deriving DecidableEq, Repr

/-- What a translation gives (Table 10.2). -/
structure Page where
  va   : Nat
  size : BitVec 2
  pa   : Nat
  w    : Bool
  x    : Bool
  grd  : Bool
  trn  : Bool
  uc   : Bool
  swm  : Bool
  deriving DecidableEq, Repr

/-- A TLB entry, tagged by context (R233). -/
structure TlbE where
  ctx  : Nat
  page : Page
  deriving DecidableEq, Repr

/-- A walk-cache entry (R233): context, level, VA prefix, address of the next table. -/
structure WalkE where
  ctx   : Nat
  level : Nat
  va    : Nat
  next  : Nat
  deriving DecidableEq, Repr

/-- One lane's access (R180): lane, virtual address or local-store offset, page, data elements, whether it has been
performed, and what it read. -/
structure Acc where
  lane : Nat
  adr  : Nat
  page : Option Page
  dat  : Lanes
  done : Bool
  res  : Lanes
  deriving DecidableEq, Repr

/-- Bytes of an engine command withheld on one 64 KiB page region (R246): record, an address, their number; `wr` for its writes,
and `gone` once they have been cancelled. A load keeps the records of its failing pages here. -/
structure Withheld where
  fr   : Nat
  va   : Nat
  size : Nat
  wr   : Bool
  gone : Bool
  deriving DecidableEq, Repr

/-- One sector of an engine command that is still to be delivered (R164, R166, R246). `key` numbers the 64 bytes of a command into the
local store, the virtual sector that a command into global memory writes, or the one that a merged `TLD.MC` reads. `first` is the first
segment that it comes from (for a merged sector 1 once its engine fetches it by itself), and `only` limits it to the reads (2 × region)
or writes (2 × region + 1) of one 64 KiB region after a REPLAY. It lists the global sectors that it reads and
writes. `parked` is set while a home holds it (R166), and `full` while its view has no room for it (R259). -/
structure Piece where
  key    : Nat
  first  : Nat
  only   : Option Nat
  reads  : List Acc
  write  : Option Acc
  parked : Bool
  full   : Bool
  deriving DecidableEq, Repr

/-- Where an operation stands. -/
inductive OpState where
  /-- In the store buffer until its clock (R292). -/
  | buffered (til : Nat)
  /-- Waits for the operations in `after` (`STWE`, `FENCE`, `PFENCE`, `TLBI`, `LAUNCH`). -/
  | waiting
  /-- Sent, or a load under way: its accesses can be performed. -/
  | sent
  /-- Parked at a home under MARK or SWOPEN (R248, R249), or waiting for SWCLOSE. -/
  | parkedHome
  /-- All accesses performed; the result or acknowledgement is on its way. -/
  | performed
  /-- Withdrawn, lost or cancelled. -/
  | lost
  deriving DecidableEq, Repr

/-- How a request beyond the die stands (R219, R248): under way, stopped by a MARK, answered, refused, declared lost. -/
inductive AskSt where
  | pending | stopped | got | refused | lost
  deriving DecidableEq, Repr

/-- A request beyond the die: what it asks for (a sector, or 2^60 and more for the place of an uncacheable or home-side access), how it
stands, and the clock of its send (of a stopped one the clocks that had passed). -/
structure Ask where
  key  : Nat
  st   : AskSt
  sent : Nat
  deriving DecidableEq, Repr

/-- An operation in progress: a memory access, an engine or matrix command, a service call, a world operation. It keeps
the instruction with the operand values read at its issue, in field and register order (as R287 saves them). -/
structure Op where
  ins    : Instr
  gid    : Nat
  /-- The group or continuation that receives the results. -/
  dest   : Nat
  team   : Nat
  frame  : Nat
  part   : Nat
  ctx    : Nat
  view   : Nat
  pc     : BitVec 57
  issued : Nat
  /-- Place in the issue order of the package. -/
  seq    : Nat
  mask   : Mask
  accs   : List Acc
  vals   : Lanes
  hm     : BitVec 4
  st     : OpState
  /-- Operations that must be performed first (R186). -/
  after  : List Nat
  /-- Next segment of an engine command (R283); 1 for a write that marks its sectors (R191); the Active set of a full/empty
  operation. -/
  seg    : Nat
  moved  : Nat
  held   : List Withheld
  /-- Sectors of an engine command under way. -/
  parts  : List Piece
  /-- Lowest escaping address of an engine write (R260); of a `COLL` under way, the contribution of lowest rank (R370). -/
  escape : Option Nat
  /-- `FDOM` of its node (R50). -/
  fdom   : Nat
  /-- Best and worst clocks of a load, from its issue or from the access that it waits for (R6). -/
  pair   : Nat × Nat
  /-- The frame's own threads see its writes before they are performed (R189). -/
  early  : Bool
  /-- The lowest poisoned place that an engine command has written in a sector, with its payload (R254). -/
  lows   : List (Nat × Nat × Word)
  /-- Its requests that have left the die and wait (R219). -/
  asked  : List Ask
  /-- Clock at which its requests were sent (R219); while a home holds them under MARK, the clocks that had then passed (R248). -/
  sentAt : Nat
  deriving DecidableEq, Repr

/-- Decoded fields of a region control block (Table 2.6). -/
structure Rcb where
  kernel : Nat
  args   : Nat
  parent : Nat
  succ   : Nat
  nsucc  : Nat
  nteam  : Nat
  grps   : Nat
  vgr    : Nat
  sgr    : Nat
  lgr    : Nat
  nbar   : Nat
  ntile  : Nat
  nacc   : Nat
  bframe : Nat
  blocal : Nat
  bview  : Nat
  bmem   : Nat
  prio   : Nat
  fdom   : Nat
  guarded : Bool
  idem   : Bool
  paired : Bool
  carve  : Bool
  gang   : Bool
  ovr    : BitVec 10
  pbase  : Nat
  psize  : Nat
  deriving DecidableEq, Repr

/-- States of a node (`STATE` of Table 2.6), and COMPLETE of a rival (R263). -/
inductive NState where
  | waiting | ready | running | joining | committing | done | failed | cancelled | complete
  deriving DecidableEq, Repr

/-- The completion signal of a NODE packet (R55, R56). -/
structure Signal where
  va    : Nat
  val   : BitVec 64
  irq   : Bool
  vec   : Nat
  func  : Nat
  queue : Nat
  index : Nat
  deriving DecidableEq, Repr

/-- A registered node or rival (R46 to R51, R59, R263); `eff` holds its effective fields (R48). -/
structure Node where
  ctx     : Nat
  rcbva   : Nat
  eff     : Rcb
  st      : NState
  req     : Nat
  tdone   : Nat
  /-- Teams started so far. -/
  tnext   : Nat
  parent  : Option Nat
  view    : Nat
  /-- View in which the device reaches the RCB and the successor list (log entry 7). -/
  rcbView : Nat
  /-- Own private view of a guarded node (R267). -/
  priv    : Option Nat
  escaped : Bool
  /-- Fork slot and rival index (R263). -/
  rival   : Option (Nat × Nat)
  order   : Nat
  /-- Its place in the order in which the nodes became READY (R65). -/
  readyAt : Nat
  queue   : Option Nat
  sig     : Option Signal
  /-- Groups arrived at the superstep in progress (R179), and supersteps ended. -/
  sarrive : List Nat
  sstep   : Nat
  /-- Digest of the writes of the superstep (R306). -/
  digest  : BitVec 64
  /-- The commit waits for overflow space (R259). -/
  waits   : Bool
  deriving DecidableEq, Repr

/-- Life of a context (R275 to R284). -/
inductive CtxRun where
  | resident | draining | cutting | halting | cut | halted
  deriving DecidableEq, Repr

/-- A context: number, partitions, state, free `SIDX` bookkeeping, placement (R65), cause of a halt, and the units that
have stopped (R276). -/
structure Ctx where
  num      : Nat
  parts    : List Nat
  run      : CtxRun
  sidx     : List Nat
  lastFrame : Option Nat
  /-- The node whose next team is the head, and since when it fits nowhere (R65). -/
  headAt   : Option (Nat × Nat)
  /-- The head team, as its node and index, once it has waited 20 µs and until it starts (R65). -/
  limit    : Option (Nat × Nat)
  /-- The queue that the lead processor visited last, and the earliest clock of its next visit (R58). -/
  turn     : Nat
  visitAt  : Nat
  stopped  : List StopUnit
  stops    : Nat
  stopLost : Bool
  nparts   : Nat
  /-- Nodes registered so far. -/
  regs     : Nat
  deriving DecidableEq, Repr

/-- Device-side state of a queue (R55, R58): nodes registered from it, a QFENCE that holds it, and whether its turn of the lead processor's
round is due. -/
structure Queue where
  nodes : List Nat
  fence : Option Signal
  due   : Bool
  deriving DecidableEq, Repr

/-- A sector as a place holds it: bytes, poison, dirtiness, and the way that it lies in (R10, R12). -/
structure Sector where
  bytes  : List Byte
  poison : Option Word
  dirty  : Bool
  way    : Nat
  deriving DecidableEq, Repr

/-- A sector copy of a view (R198): its data, whether the parent's value changed since (R199), its place in the overflow area, in
sectors, where it lies there (R258), and the node whose write made it (R49). -/
structure VSec where
  bytes    : List Byte
  poison   : Option Word
  changed  : Bool
  slot     : Option Nat
  owner    : Nat
  deriving DecidableEq, Repr

/-- A live view (R257, R258); `commit` lists the sectors that a commit under way has still to write in the parent (R199). -/
structure View where
  part    : Nat
  id      : Nat
  parent  : Nat
  depth   : Nat
  escaped : Bool
  node    : Option Nat
  commit  : Option (List Nat)
  secs    : AMap VSec
  deriving DecidableEq, Repr

/-- A fork slot of a partition (R262, R263): the issuing node, the view of the issuer, and the partition that names the views. -/
structure Fork where
  live   : Bool
  vpart  : Nat
  gen    : BitVec 22
  issuer : Nat
  view   : Nat
  rivals : List Nat
  views  : List Nat
  deriving DecidableEq, Repr

/-- A fault record, kept while it is OPEN (R238, R242). -/
structure FRec where
  part    : Nat
  va      : Nat
  pc      : BitVec 57
  kind    : Nat
  cause   : Nat
  pgsz    : Nat
  frame   : Nat
  gslot   : Nat
  fdom    : Nat
  vid     : Nat
  rcnt    : Nat
  refault : Bool
  reissue : Bool
  status  : Nat
  seq     : BitVec 32
  payload : Word
  lmask   : Mask
  ctx     : Nat
  team    : Nat
  aux     : BitVec 64
  gid     : Nat
  op      : Nat
  /-- Command held until the threads park (R242): 1 REPLAY, 2 CANCEL; or applied, its re-issue to come: 3 REPLAY, 4 CANCEL. A record
  that waits for room in the ring carries its key here. -/
  cmd     : Option Nat
  /-- An address of each page whose lookup failed (R243). -/
  pages   : List Nat
  deriving DecidableEq, Repr

/-- The beads of one sector on one die (R203 to R206): frames with beads and their counts; the die agent has the rest of the 64, and the
owner bead unless a frame is named. -/
structure Beads where
  hold  : AMap Nat
  owner : Option Nat
  deriving DecidableEq, Repr

/-- Directory states (R207). -/
inductive DirSt where
  | i | s | e | m
  deriving DecidableEq, Repr

/-- A sector in the directory (R208): its state and the agents that hold it. -/
structure DirSec where
  st      : DirSt
  holders : List Agent
  deriving DecidableEq, Repr

/-- The directory entry of a 256-byte line (R207, R211): its four sectors, and in coarse form the mask of groups of eight cells; 0 in
precise form. -/
structure Dir where
  secs   : List DirSec
  groups : Word
  deriving DecidableEq, Repr

/-- A request that waits at a home for its sector (R207, R210, R248, R249). -/
structure Waiting where
  who : Agent
  req : Instr
  op  : Option Nat
  deriving DecidableEq, Repr

/-- A transaction in progress at a home: the request, and the agents whose answers are awaited. -/
structure Trans where
  cur   : Option Waiting
  await : List Agent
  queue : List Waiting
  deriving DecidableEq, Repr

/-- An outstanding bead request (R205, R206): a persistent one with its place in the order of arrival, and whether it is active. -/
structure BeadReq where
  write   : Bool
  tries   : Nat
  persist : Bool
  since   : Nat
  active  : Bool
  deriving DecidableEq, Repr

/-- A region of the fabric physical map: base, size, the package and die of its home (die 4 is the hub, die 6 host
memory), and the home offset of its base (R483; log entry 2). -/
structure Region where
  base : Nat
  size : Nat
  pkg  : Nat
  die  : Nat
  ofs  : Nat
  deriving DecidableEq, Repr

/-- Power states (R24, R309, R310). -/
inductive Power where
  | held | bringup | up | recovery
  deriving DecidableEq, Repr

/-- A message that leaves the package, with its bytes. Those of the fabric name the port that they take (R217). -/
inductive OutMsg where
  | msix (func vec : Nat)
  | heartbeat (plane : Nat) (time : Nat)
  /-- A request of this package to a home of package `pkg`, for operation `id` (Table 9.5); `m` is the step that it is there. -/
  | request (port pkg id : Nat) (m : Instr)
  /-- An invalidate or downgrade snoop of a sector to an agent (R207, R227). -/
  | snoop (port : Nat) (a : Agent) (sec : Nat) (inv : Bool)
  /-- An agent's answer to a snoop of its home, package `pkg` (R210). -/
  | answer (port pkg : Nat) (a : Agent) (sec : Nat) (ans : SnoopAnswer)
  | cellDown (plane cell : Nat)
  | hostWrite (pa : Nat) (bytes : List Byte)
  | twinWrite (pa : Nat) (bytes : List Byte)
  | twinKick (queue : Nat) (v : BitVec 64)
  | twinDigest (key : TwinKey) (digest : BitVec 64)
  | twinRollback (key : TwinKey)
  | twinReply (addr : Nat) (v : Word)
  /-- A grant, refusal or completion that brings no sector; `port` is 16 towards the host. -/
  | reply (port : Nat) (bytes : List Byte)
  /-- Data, with the poison bit, the view and the end-to-end CRC of a sector (R216). -/
  | readData (port view : Nat) (bytes : List Byte) (poison : Bool) (crc : Word)
  deriving DecidableEq, Repr

/-- Memory: the listed bytes of the fabric physical space, the poisoned sectors with their payloads, and the sectors of
host memory marked HOSTGONE (R250, R228). -/
structure Mem where
  cells : List Host.Cell
  bad   : AMap Word
  hgone : List Nat
  deriving DecidableEq, Repr

/-- A multicast merge entry of a home slice (R175, R473): the sectors of its stream in address order, how many have left, the
commands that have joined with the number of sectors that left before each, and the re-sends made. -/
structure Merge where
  slice  : Nat
  key    : List Word
  opened : Nat
  ops    : List (Nat × Nat)
  secs   : List Nat
  sent   : Nat
  resent : Nat
  /-- Clock of the last sector that left, and the number that had left before it. -/
  clk    : Nat
  early  : Nat
  deriving DecidableEq, Repr

/-- A link's state (R215, R304). -/
inductive LinkSt where
  | down | up
  deriving DecidableEq, Repr

/-- A marked range or a switch window at the homes (R247 to R249). -/
structure MigRange where
  src    : Nat
  size   : Nat
  window : Bool
  parked : List Waiting
  done   : AMap Sector
  deriving DecidableEq, Repr

/-- A pre-emption command in progress (R279 to R284): its code (5: a cut that a warm restart makes), the context, the clock at which a
RESET ends, and the result that a CUT will have. -/
structure Preempt where
  op    : Nat
  ctx   : Nat
  due   : Nat
  esc   : Nat
  deriving DecidableEq, Repr

/-- A saved context, kept beside the bytes that R285 to R287 write (log entry 70); `parts` were its partitions. -/
structure Saved where
  ctx    : Nat
  parts  : List Nat
  views  : List (Nat × View)
  forks  : List (Nat × Fork)
  teams  : List (Nat × Team)
  groups : List (Nat × Group)
  ops    : List (Nat × Op)
  mx     : List MxOp
  recs   : List (Nat × FRec)
  deriving DecidableEq, Repr

/-- Checkpoint command in progress (R299 to R303): the next shard, their number, the fabric time of the SAVE, the digests so far. -/
structure Ckpt where
  load  : Bool
  desc  : Nat
  ctx   : Nat
  shard : Nat
  total : Nat
  time  : Nat
  digests : List Byte
  deriving DecidableEq, Repr

/-- Twin link state (R305 to R308): digests awaited and received, mirrored steps not yet performed. -/
structure Twin where
  mine   : List (TwinKey × BitVec 64)
  theirs : List (TwinKey × BitVec 64)
  deriving DecidableEq, Repr

/-- Attestation session (R311): messages so far and the algorithms chosen. -/
structure Spdm where
  version : Bool
  caps    : Bool
  algs    : Bool
  trans   : List Byte
  deriving DecidableEq, Repr

/-- Why a step stops with a fault. -/
inductive Fault where
  /-- An instruction constructor was run by `exec` with no issuing group in `cur`. Raised by every instruction meaning;
  safe: on the hardware an instruction issues only from a group. -/
  | noIssuer
  deriving DecidableEq, Repr

/-- Why a step is refused. -/
inductive Refusal where
  /-- The instruction has no meaning yet. Raised by `exec`'s arms; safe. -/
  | notModelled (mnemonic : String)
  deriving DecidableEq, Repr

/-- The machine. The fields from `agenda` to `ids` are the model's own: which step comes next (log entry 3), and the
counters of free values and of fresh numbers (log entries 3 and 4). -/
structure State where
  now    : Nat
  ftOff  : Nat
  power  : Power
  agenda : List Instr
  timers : List (Nat × Instr)
  turns  : List Nat
  cur    : Nat
  free   : Nat
  ids    : Nat
  outbox : List OutMsg
  mem    : Mem
  sys    : AMap (BitVec 64)
  regions : List Region
  groups : AMap Group
  teams  : AMap Team
  nodes  : AMap Node
  ctxs   : AMap Ctx
  queues : AMap Queue
  rods   : AMap Rod
  mxq    : AMap (List MxOp)
  ops    : AMap Op
  ways   : AMap Nat
  spare  : AMap Nat
  orig   : AMap (BitVec 19)
  tlb    : AMap (List TlbE)
  walk   : AMap (List WalkE)
  ccache : AMap (AMap Sector)
  views  : AMap View
  forks  : AMap Fork
  recs   : AMap FRec
  waitRec : AMap (List FRec)
  waitEv : List (List Byte)
  l1     : AMap (AMap Sector)
  marks  : AMap (List Nat)
  beads  : AMap Beads
  breqs  : AMap BeadReq
  dir    : AMap Dir
  trans  : AMap Trans
  rdc    : AMap (AMap Sector)
  l2     : AMap (AMap Nat)
  merge  : AMap Merge
  ports  : AMap LinkSt
  seen   : AMap Nat
  mig    : List MigRange
  pre    : List Preempt
  saved  : AMap Saved
  ck     : AMap Ckpt
  twin   : Twin
  spdm   : Spdm
  fwq    : List (List Byte)
  measure : List (BitVec 256)
  idKeyOk : Bool
  kat    : Bool
  deriving DecidableEq, Repr

/-- The machine right after cold reset (R24, R309): held, nothing resident, memory with nothing listed, every system CSR
at its reset value (none listed). -/
def State.reset : State where
  now := 0
  ftOff := 0
  power := .held
  agenda := []
  timers := []
  turns := []
  cur := 0
  free := 0
  ids := 0
  outbox := []
  mem := ⟨[], [], []⟩
  sys := []
  regions := [⟨0, 2 ^ 37, 0, 0, 0⟩, ⟨2 ^ 37, 2 ^ 37, 0, 1, 2 ^ 37⟩, ⟨2 * 2 ^ 37, 2 ^ 37, 0, 2, 2 * 2 ^ 37⟩,
    ⟨3 * 2 ^ 37, 2 ^ 37, 0, 3, 3 * 2 ^ 37⟩, ⟨2 ^ 39, 2 ^ 44, 0, 4, 2 ^ 39⟩, ⟨2 ^ 51, 2 ^ 51, 0, 6, 0⟩]
  groups := []
  teams := []
  nodes := []
  ctxs := []
  queues := []
  rods := []
  mxq := []
  ops := []
  ways := []
  spare := []
  orig := []
  tlb := []
  walk := []
  ccache := []
  views := []
  forks := []
  recs := []
  waitRec := []
  waitEv := []
  l1 := []
  marks := []
  beads := []
  breqs := []
  dir := []
  trans := []
  rdc := []
  l2 := []
  merge := []
  ports := []
  seen := []
  mig := []
  pre := []
  saved := []
  ck := []
  twin := ⟨[], []⟩
  spdm := ⟨false, false, false, []⟩
  fwq := []
  measure := []
  idKeyOk := false
  kat := false

end Sys2Proof.Machine
end

