-- ==== Sys2Proof/Machine/Flags.lean ====
section
/-!
DEFINITION. Flags.lean: guard conditions (R327, Table 14.4) and the flags that `CMP` and `FCMP` compute (R367, R387).
-/
namespace Sys2Proof.Machine

/-- Flag S of a flag nibble (R80). -/
def flS (f : BitVec 4) : Bool := f.getLsbD 3
/-- Flag Z of a flag nibble. -/
def flZ (f : BitVec 4) : Bool := f.getLsbD 2
/-- Flag C of a flag nibble. -/
def flC (f : BitVec 4) : Bool := f.getLsbD 1
/-- Flag O of a flag nibble. -/
def flO (f : BitVec 4) : Bool := f.getLsbD 0

/-- The flag nibble of S, Z, C and O. -/
def flags (s z c o : Bool) : BitVec 4 := BitVec.ofBool s ++ BitVec.ofBool z ++ BitVec.ofBool c ++ BitVec.ofBool o

/-- Whether a condition is true of flags (Table 14.4). -/
def evalCc (cc : Cc) (f : BitVec 4) : Bool :=
  match cc with
  | .al => true
  | .eq => flZ f
  | .ne => !flZ f
  | .lt => flS f != flO f
  | .ge => flS f == flO f
  | .le => flZ f || flS f != flO f
  | .gt => !flZ f && flS f == flO f
  | .lo => !flC f
  | .hs => flC f
  | .ls => !flC f || flZ f
  | .hi => flC f && !flZ f
  | .mi => flS f
  | .pl => !flS f
  | .vs => flO f
  | .vc => !flO f
  | .nv => false

/-- The flags of a comparison of `w`-bit integers (R367). -/
def cmpFlags {w : Nat} (a b : BitVec w) : BitVec 4 :=
  let d := a - b
  flags d.msb (d == 0#w) (decide (b.toNat ≤ a.toNat)) (a.msb != b.msb && d.msb != a.msb)

/-- Flags of A < B (Table 16.3). -/
def fcmpLess : BitVec 4 := flags true false false false
/-- Flags of A = B (Table 16.3). -/
def fcmpEqual : BitVec 4 := flags false true true false
/-- Flags of A > B (Table 16.3). -/
def fcmpGreater : BitVec 4 := flags false false true false
/-- Flags of unordered operands (Table 16.3). -/
def fcmpUnordered : BitVec 4 := flags false false true true

end Sys2Proof.Machine
end

