-- ==== Sys2Proof/Machine/Fp.lean ====
section
/-!
DEFINITION. Fp.lean: the floating-point formats and their exact arithmetic with one rounding (R100, R101, R108 to R118).
-/
namespace Sys2Proof.Machine

/-- How a format marks a NaN (Table 5.1). -/
inductive NanKind where
  | ieee | allOnes | none
  deriving DecidableEq, Repr

/-- A format (Table 5.1): exponent bits, mantissa bits, bias, largest finite code, NaNs, infinity, canonical NaN. -/
structure Fmt where
  eb   : Nat
  mb   : Nat
  bias : Nat
  max  : Nat
  nan  : NanKind
  inf  : Bool
  qnan : Nat
  deriving DecidableEq, Repr

/-- F32. -/
def f32 : Fmt := ⟨8, 23, 127, 0x7F7FFFFF, .ieee, true, 0x7FC00000⟩
/-- F16. -/
def f16 : Fmt := ⟨5, 10, 15, 0x7BFF, .ieee, true, 0x7E00⟩
/-- BF16. -/
def bf16 : Fmt := ⟨8, 7, 127, 0x7F7F, .ieee, true, 0x7FC0⟩
/-- E5M2. -/
def e5m2 : Fmt := ⟨5, 2, 15, 0x7B, .ieee, true, 0x7E⟩
/-- E4M3. -/
def e4m3 : Fmt := ⟨4, 3, 7, 0x7E, .allOnes, false, 0x7F⟩
/-- E2M1; it has no NaN, and a NaN converted to it is +0 (Table 5.5). -/
def e2m1 : Fmt := ⟨2, 1, 1, 0x7, .none, false, 0⟩

/-- A floating-point value: NaN (signalling or not), infinity, or ± `m` × 2^`e` (a zero keeps its sign). -/
inductive Num where
  | nan (sig : Bool)
  | inf (neg : Bool)
  | fin (neg : Bool) (m : Nat) (e : Int)
  deriving DecidableEq, Repr

/-- Width of a format in bits. -/
def Fmt.width (f : Fmt) : Nat := 1 + f.eb + f.mb

/-- Exponent of the least mantissa bit of the subnormal and of the smallest normal values. -/
def Fmt.qmin (f : Fmt) : Int := 1 - (f.bias : Int) - f.mb

/-- Whether a code is subnormal (R100). -/
def Fmt.subnormal (f : Fmt) (x : Nat) : Bool := bitsOf x (f.eb + f.mb - 1) f.mb = 0 && x % 2 ^ f.mb ≠ 0

/-- Whether a code's sign bit is set. -/
def Fmt.neg (f : Fmt) (x : Nat) : Bool := x.testBit (f.eb + f.mb)

/-- The value of a code (Table 5.1). -/
def Fmt.num (f : Fmt) (x : Nat) : Num :=
  let s := f.neg x
  let e := bitsOf x (f.eb + f.mb - 1) f.mb
  let m := x % 2 ^ f.mb
  let top := 2 ^ f.eb - 1
  if f.nan = .ieee && e = top then (if m = 0 then .inf s else .nan (m < 2 ^ (f.mb - 1)))
  else if f.nan = .allOnes && e = top && m = 2 ^ f.mb - 1 then .nan false
  else if e = 0 then .fin s m f.qmin
  else .fin s (m + 2 ^ f.mb) (f.qmin + e - 1)

/-- Rounding modes (R108). -/
inductive RM where
  | rn | rz | ru | rd
  deriving DecidableEq, Repr

/-- `FPFLG` flag `NV` (Table 5.3). -/
def flNV : BitVec 6 := 1
/-- `FPFLG` flag `DZ`. -/
def flDZ : BitVec 6 := 2
/-- `FPFLG` flag `OF`. -/
def flOF : BitVec 6 := 4
/-- `FPFLG` flag `UF`. -/
def flUF : BitVec 6 := 8
/-- `FPFLG` flag `NX`. -/
def flNX : BitVec 6 := 16
/-- `FPFLG` flag `DN`. -/
def flDN : BitVec 6 := 32

/-- Number of bits of a number. -/
def bitLen (n : Nat) : Nat := if n = 0 then 0 else Nat.log2 n + 1

/-- `m` × 2^`e` as a multiple of 2^`q`, rounded (R108): the multiple, and whether it is inexact. -/
def roundAt (r : RM) (neg : Bool) (m : Nat) (e q : Int) : Nat × Bool :=
  if q ≤ e then (m * 2 ^ (e - q).toNat, false)
  else
    let k := min (q - e).toNat (bitLen m + 2)
    let a := m / 2 ^ k
    let b := m % 2 ^ k
    let up := match r with
      | .rn => decide (2 ^ k < 2 * b) || (2 * b = 2 ^ k && a % 2 = 1)
      | .rz => false
      | .ru => b ≠ 0 && !neg
      | .rd => b ≠ 0 && neg
    (if up then a + 1 else a, b ≠ 0)

/-- The sign bit of a code. -/
def Fmt.sign (f : Fmt) (neg : Bool) : Nat := if neg then 2 ^ (f.eb + f.mb) else 0

/-- Overflow (R111): the code that replaces the result. -/
def Fmt.overflow (f : Fmt) (r : RM) (sat neg : Bool) : Nat :=
  let toInf := f.inf && !sat && (match r with | .rn => true | .rz => false | .ru => !neg | .rd => neg)
  f.sign neg + (if toInf then (2 ^ f.eb - 1) * 2 ^ f.mb else f.max)

/-- An infinite result (R112): kept, or under `.SAT` and in formats without infinity the largest finite value, with `OF`. -/
def Fmt.infinite (f : Fmt) (sat neg : Bool) : Nat × BitVec 6 :=
  if f.inf && !sat then (f.sign neg + (2 ^ f.eb - 1) * 2 ^ f.mb, 0#6) else (f.sign neg + f.max, flOF)

/-- ± `m` × 2^`e` rounded once to a format (R108, R110 to R112), with the flags raised; under `ftz` a tiny result is a
zero of its sign and raises `UF` and `NX` (R116). -/
def Fmt.round (f : Fmt) (r : RM) (sat ftz neg : Bool) (m : Nat) (e : Int) : Nat × BitVec 6 :=
  if m = 0 then (f.sign neg, 0#6)
  else
    let E : Int := ((bitLen m : Nat) : Int) - 1 + e
    let emin : Int := f.qmin + f.mb
    let u := roundAt r neg m e (E - (f.mb : Int))
    let tiny := E < emin && !(E + 1 = emin && u.1 = 2 ^ (f.mb + 1))
    let q : Int := Max.max (E - (f.mb : Int)) f.qmin
    let v := roundAt r neg m e q
    let code := ((q - f.qmin).toNat) * 2 ^ f.mb + v.1
    if tiny && ftz then (f.sign neg, flUF ||| flNX)
    else if f.max < code then (f.overflow r sat neg, flOF ||| flNX)
    else (f.sign neg + code, if v.2 then (if tiny then flUF ||| flNX else flNX) else 0#6)

/-- A value as a code of a format, rounded once; a NaN gives the canonical NaN (R113) and no flag here. -/
def Fmt.code (f : Fmt) (r : RM) (sat ftz : Bool) (x : Num) : Nat × BitVec 6 :=
  match x with
  | .nan _ => (f.qnan, 0#6)
  | .inf n => f.infinite sat n
  | .fin n m e => f.round r sat ftz n m e

/-- Whether a value is a NaN. -/
def Num.isNan : Num → Bool
  | .nan _ => true
  | _ => false

/-- Whether a value is a signalling NaN. -/
def Num.isSig : Num → Bool
  | .nan s => s
  | _ => false

/-- Whether a value is an infinity. -/
def Num.isInf : Num → Bool
  | .inf _ => true
  | _ => false

/-- The sign of a value. -/
def Num.neg : Num → Bool
  | .nan _ => false
  | .inf n => n
  | .fin n _ _ => n

/-- A value with the opposite sign (`NEG`, R384). -/
def Num.negate : Num → Num
  | .nan s => .nan s
  | .inf n => .inf !n
  | .fin n m e => .fin (!n) m e

/-- Whether a value is a zero. -/
def Num.isZero : Num → Bool
  | .fin _ m _ => m = 0
  | _ => false

/-- A finite value as an integer multiple of 2^`q`, for `q` at or below its exponent. -/
def Num.at (x : Num) (q : Int) : Int :=
  match x with
  | .fin n m e => (if n then -1 else 1) * (m * 2 ^ (e - q).toNat : Nat)
  | _ => 0

/-- The exponent of a finite value. -/
def Num.exp : Num → Int
  | .fin _ _ e => e
  | _ => 0

/-- The exact sum of finite values, with the sign of an exact zero (R109): the common sign of zeros that share one, else
−0 under RD and +0 otherwise. -/
def sumFin (r : RM) (l : List Num) : Num :=
  let q : Int := l.foldl (fun a x => if x.isZero then a else min a x.exp) (0 : Int)
  let n : Int := l.foldl (fun a x => if x.isZero then a else a + x.at q) (0 : Int)
  if n = 0 then
    let neg := if l.all Num.neg && l.all Num.isZero then true
      else if l.all (fun x => !x.neg) then false else r = .rd
    .fin neg 0 0
  else .fin (n < 0) n.natAbs q

/-- A product (R114): 0 × ∞ is invalid, told by `none`. A NaN operand makes the product a NaN. -/
def mulNum (a b : Num) : Option Num :=
  match a, b with
  | .nan _, _ => some (.nan false)
  | _, .nan _ => some (.nan false)
  | .inf s, .inf t => some (.inf (s != t))
  | .inf s, .fin t m _ => if m = 0 then none else some (.inf (s != t))
  | .fin s m _, .inf t => if m = 0 then none else some (.inf (s != t))
  | .fin s m e, .fin t n d => some (.fin (s != t) (m * n) (e + d))

/-- The sum of terms, each a product or an addend, with `NV` when it is invalid (R113, R114): a term that is none is
0 × ∞. Beside a NaN, 0 × ∞ raises `NV` and ∞ − ∞ does not: the model's choice (DESIGN CHOICE, log entry 90). -/
def sumNum (r : RM) (l : List (Option Num)) : Num × BitVec 6 :=
  if l.any Option.isNone then (.nan false, flNV)
  else
    let l := l.filterMap id
    if l.any Num.isNan then (.nan false, 0#6)
    else
      let infs := l.filter Num.isInf
      match infs with
      | [] => (sumFin r l, 0#6)
      | a :: rest => if rest.all fun b => b.neg = a.neg then (a, 0#6) else (.nan false, flNV)

/-- `NV` for signalling operands (R114). -/
def sigNV (l : List Num) : BitVec 6 := if l.any Num.isSig then flNV else 0#6

/-- An operand of a flush-class instruction (R116): under `FTZ` a subnormal is a zero of its sign and raises `DN`. -/
def flush (f : Fmt) (ftz : Bool) (x : Nat) : Nat × BitVec 6 :=
  if ftz && f.subnormal x then (f.sign (f.neg x), flDN) else (x, 0#6)

/-- A fused sum of products and addends of a flush-class instruction, with one rounding (R108 to R116). The operands
are already flushed; `ops` are all operand values. -/
def fused (f : Fmt) (r : RM) (sat ftz : Bool) (ops : List Num) (terms : List (Option Num)) : Nat × BitVec 6 :=
  let s := sumNum r terms
  let c := f.code r sat ftz s.1
  (c.1, c.2 ||| s.2 ||| sigNV ops)

/-- The order of R115 and R128 on codes that are no NaNs: −0 lies below +0. -/
def Fmt.key (f : Fmt) (x : Nat) : Int :=
  let m : Int := (x % 2 ^ (f.eb + f.mb) : Nat)
  if f.neg x then -m - 1 else m

/-- The lesser (`mn`) or greater of two codes, NaNs as R115 and R128 give. -/
def Fmt.pick (f : Fmt) (mn : Bool) (a b : Nat) : Nat :=
  match (f.num a).isNan, (f.num b).isNan with
  | true, true => f.qnan
  | true, false => b
  | false, true => a
  | false, false => if (f.key a ≤ f.key b) = mn then a else b

/-- Integer square root by bits, from bit `n` − 1 down. -/
def isqrtFrom (x : Nat) : Nat → Nat → Nat
  | 0, r => r
  | n + 1, r => isqrtFrom x n (if (r + 2 ^ n) * (r + 2 ^ n) ≤ x then r + 2 ^ n else r)

/-- Integer square root. -/
def isqrt (x : Nat) : Nat := isqrtFrom x (bitLen x / 2 + 1) 0

/-- Quotient of two finite nonzero values, exact but for a sticky last bit. -/
def divFin (s t : Bool) (m n : Nat) (e d : Int) : Num :=
  let a := m * 2 ^ 64
  .fin (s != t) (2 * (a / n) + (if a % n = 0 then 0 else 1)) (e - d - 65)

/-- Root of a positive finite value, exact but for a sticky last bit. -/
def sqrtFin (m : Nat) (e : Int) : Num :=
  let m2 := if e % 2 = 0 then m else 2 * m
  let e2 := if e % 2 = 0 then e else e - 1
  let x := m2 * 2 ^ 80
  let r := isqrt x
  .fin false (2 * r + (if r * r = x then 0 else 1)) (e2 / 2 - 41)

/-- A quotient with its flags before rounding (Table 16.4). -/
def divNum (a b : Num) : Num × BitVec 6 :=
  match a, b with
  | .nan _, _ => (.nan false, 0#6)
  | _, .nan _ => (.nan false, 0#6)
  | .inf _, .inf _ => (.nan false, flNV)
  | .inf s, .fin t _ _ => (.inf (s != t), 0#6)
  | .fin s _ _, .inf t => (.fin (s != t) 0 0, 0#6)
  | .fin s m e, .fin t n d =>
    if n = 0 then (if m = 0 then (.nan false, flNV) else (.inf (s != t), flDZ))
    else if m = 0 then (.fin (s != t) 0 0, 0#6)
    else (divFin s t m n e d, 0#6)

/-- A square root with its flags before rounding (Table 16.4). -/
def sqrtNum (a : Num) : Num × BitVec 6 :=
  match a with
  | .nan _ => (.nan false, 0#6)
  | .inf n => if n then (.nan false, flNV) else (.inf false, 0#6)
  | .fin s m e => if m = 0 then (a, 0#6) else if s then (.nan false, flNV) else (sqrtFin m e, 0#6)

/-- A finite value rounded to an integer (R108, R398): magnitude, and whether it is inexact. -/
def roundInt (r : RM) (neg : Bool) (m : Nat) (e : Int) : Nat × Bool := roundAt r neg m e 0

/-- A conversion to an integer type of range [`lo`, `hi`] (R118). -/
def toInt (r : RM) (lo hi : Int) (x : Num) : Int × BitVec 6 :=
  match x with
  | .nan _ => (0, flNV)
  | .inf n => (if n then lo else hi, flNV)
  | .fin s m e =>
    if 80 < (bitLen m : Int) + e then (if s then lo else hi, flNV)
    else
      let v := roundInt r s m e
      let i : Int := if s then -(v.1 : Int) else v.1
      if i < lo then (lo, flNV) else if hi < i then (hi, flNV) else (i, if v.2 then flNX else 0#6)

/-- An integer as a value. -/
def ofInt (i : Int) : Num := .fin (i < 0) i.natAbs 0

end Sys2Proof.Machine
end

