-- ==== Sys2Proof/Machine/Legal.lean ====
section
/-!
DEFINITION. Legal.lean: which fields an instruction reads and writes (its operand forms), and the encodings that raise
`ILLOP` before any other check (R339), whatever the guard.
-/
namespace Sys2Proof

/-- One source operand: its slot (0 FD, 1 FA, 2 FB, 3 FC), how many registers it spans, of which number its index must
be a multiple, and the classes the form accepts. -/
structure Use where
  slot : Nat
  span : Nat
  mult : Nat
  ok   : List Cls
  src  : Src
  deriving DecidableEq, Repr

/-- The destination of a form: registers spanned, alignment of the index, accepted classes. -/
structure DstUse where
  span : Nat
  mult : Nat
  ok   : List Cls
  dst  : Dst
  deriving DecidableEq, Repr

/-- The guard and the hints of an instruction word; none for the other steps. `MOVL` has no guard (R432). -/
def Instr.head : Instr → Option Head
  | .nop h | .mov h .. | .unify h .. | .iadd h .. | .isub h .. | .imul h .. | .imad h .. | .imin h .. | .imax h ..
  | .iabs h .. | .lea h .. | .lop3 h .. | .shl h .. | .shr h .. | .shf h .. | .popc h .. | .clz h .. | .brev h ..
  | .bfx h .. | .bfi h .. | .bil h .. | .bdil h .. | .prmt h .. | .cmp h .. | .sel h .. | .shfl h .. | .vote h ..
  | .lred h .. | .lscan h .. | .fadd h .. | .fmul h .. | .ffma h .. | .fmin h .. | .fmax h .. | .fcmp h ..
  | .fclass h .. | .frnd h .. | .fscale h .. | .ffn h .. | .fdiv h .. | .fsqrt h .. | .cvt h .. | .pfma h ..
  | .dot4 h .. | .fdot2 h .. | .mma h .. | .tldb h .. | .azro h .. | .ald h .. | .ast h .. | .ard h .. | .mfence h
  | .ld h .. | .st h .. | .ldc h .. | .ldv h .. | .ldwf h .. | .ldtk h .. | .stwe h .. | .feset h .. | .fence h ..
  | .pfence h .. | .atom h .. | .acas h .. | .red h .. | .xadd h .. | .xrd h .. | .cpy h .. | .tld h .. | .tst h ..
  | .gath h .. | .scat h .. | .coll h .. | .waitc h .. | .cntr h .. | .bra h .. | .brd h .. | .brx h .. | .call h ..
  | .ret h .. | .meet h .. | .exit h | .bar h .. | .sstep h | .sleep h .. | .forkw h .. | .choose h .. | .wdrop h ..
  | .pclr h .. | .ptst h .. | .pset h .. | .launch h .. | .trap h .. | .svc h .. | .rtt h | .csrr h .. | .csrw h ..
  | .cresz h .. | .cflush h .. | .tlbi h .. => some h
  | .movl n _ _ => some ⟨.al, n⟩
  | _ => none

/-- Whether the step is one of the 101 instruction words of Table 14.10. -/
def Instr.isWord (i : Instr) : Bool := i.head.isSome

/-- Every source class but tiles and accumulators (R77, R80). -/
def clsGen : List Cls := [.v, .s, .q, .o, .cf, .z, .imm]

/-- Uniform register or immediate (R43). -/
def clsUni : List Cls := [.s, .imm]

/-- One 32-bit source of a slot. -/
def one (slot : Nat) (ok : List Cls) (s : Src) : Use := ⟨slot, 1, 1, ok, s⟩

/-- A 64-bit source: an even pair of class 0 or 1, or a class-7 immediate (R103). -/
def pair (slot : Nat) (s : Src) : Use := ⟨slot, 2, 2, [.v, .s, .imm], s⟩

/-- A 64-bit source that must be a register pair. -/
def pairR (slot : Nat) (s : Src) : Use := ⟨slot, 2, 2, [.v, .s], s⟩

/-- A source of either width that accepts any class (R381). -/
def gen (w64 : Bool) (slot : Nat) (s : Src) : Use := if w64 then pair slot s else one slot clsGen s

/-- A source B that may be the immediate of the I format. -/
def genO (w64 : Bool) : Opnd → List Use
  | .reg s => [gen w64 2 s]
  | .imm _ => []

/-- Whether the type has 64 bits. -/
def ITy.wide : ITy → Bool
  | .s32 | .n32 => false
  | .s64 | .n64 => true

/-- Whether the type is signed. -/
def ITy.signed : ITy → Bool
  | .s32 | .s64 => true
  | .n32 | .n64 => false

/-- Bytes of an access (Table 14.9a). -/
def Width.bytes : Width → Nat
  | .n8 | .s8 => 1
  | .n16 | .s16 => 2
  | .w32 => 4
  | .w64 => 8
  | .w128 => 16

/-- Registers of an access (Table 14.9a). -/
def Width.regs : Width → Nat
  | .w64 => 2
  | .w128 => 4
  | _ => 1

/-- Bits of an element type of `CVT`. -/
def CvtTy.bits : CvtTy → Nat
  | .f32 | .s32 | .n32 => 32
  | .f16 | .bf16 | .s16 | .n16 => 16
  | .e5m2 | .e4m3 | .s8 | .n8 => 8
  | .e2m1 | .mx => 4
  | .s64 | .n64 => 64

/-- Elements that one `CVT` converts (R379). -/
def cvtCount (dst src : CvtTy) : Nat := max 1 (32 / min src.bits dst.bits)

/-- Registers that the source or the destination of a `CVT` spans (R379); the MX form takes single registers (R380). -/
def cvtSpan (dst src t : CvtTy) : Nat := if dst = .mx then 1 else max 1 (cvtCount dst src * t.bits / 32)

/-- The address operand of a memory instruction (R332). -/
def addrUse (ls : Bool) (s : Src) : Use := if ls then one 1 [.v, .s, .imm] s else pairR 1 s

/-- Width in bits of the group CSRs (Table 14.8): 64 for `TVEC`, `TPC`, `TADDR` and `NODE`. -/
def csrWide (n : BitVec 12) : Bool := n = 1#12 || n = 3#12 || n = 4#12 || n = 0xB#12

/-- The source operands that an instruction reads as registers or class-7 immediates, by its entry. -/
def Instr.uses : Instr → List Use
  | .mov _ _ (.reg a) => [one 1 clsGen a]
  | .unify _ _ a => [one 1 [.v, .q, .o] a]
  | .iadd _ ty _ _ a b | .isub _ ty _ _ a b | .imul _ ty _ _ _ a b | .imin _ ty _ a b | .imax _ ty _ a b
  | .cmp _ ty _ a b => gen ty.wide 1 a :: genO ty.wide b
  | .imad _ ty _ m _ a b c => [gen ty.wide 1 a, gen ty.wide 2 b, gen (ty.wide || m = .wide) 3 c]
  | .iabs _ ty _ _ a => [gen ty.wide 1 a]
  | .lea _ ty _ _ a b => one 1 clsGen a :: genO ty.wide b
  | .lop3 _ _ op2 _ a b c => one 1 clsGen a :: one 2 clsGen b :: if op2 = .x then [] else [one 3 clsGen c]
  | .shl _ w _ a b | .shr _ w _ _ a b => gen w 1 a :: genO false b
  | .popc _ w _ a => [if w then pairR 1 a else one 1 clsGen a]
  | .clz _ w _ a | .brev _ w _ a => [gen w 1 a]
  | .bfx _ _ _ a b | .bdil _ _ _ a b | .fadd _ _ _ _ _ a b | .fmul _ _ _ _ _ a b | .fmin _ _ a b | .fmax _ _ a b
  | .fcmp _ _ a b | .fscale _ _ _ _ a b | .fdiv _ _ _ _ a b | .pclr _ _ a b => [one 1 clsGen a, one 2 clsGen b]
  | .shf _ _ _ a b c | .bfi _ _ a b c | .prmt _ _ a b c | .shfl _ _ _ a b c | .ffma _ _ _ _ _ a b c
  | .pfma _ _ _ _ _ _ a b c | .dot4 _ _ _ _ a b c | .fdot2 _ _ _ _ _ _ a b c =>
    [one 1 clsGen a, one 2 clsGen b, one 3 clsGen c]
  | .bil _ three _ a b c => one 1 clsGen a :: one 2 clsGen b :: if three then [one 3 clsGen c] else []
  | .sel _ _ _ a b c => [one 1 clsGen a, one 2 clsGen b, one 3 [.cf] c]
  | .vote _ _ _ a | .lred _ _ _ a | .lscan _ _ _ _ a | .fclass _ _ a | .frnd _ _ _ _ a | .ffn _ _ _ a
  | .fsqrt _ _ _ _ a | .ptst _ _ a | .pset _ _ a => [one 1 clsGen a]
  | .cvt _ _ _ dst src _ a =>
    let k := cvtSpan dst src src
    [⟨1, k, k, if dst = .mx then [.v] else if k = 1 then clsGen else [.v, .s], a⟩]
  | .mma _ _ a b => [⟨1, 4, 4, [.s], a⟩, one 2 [.ta] b]
  | .tldb _ _ a | .ald _ _ a => [one 1 clsUni a]
  | .ast _ a b => [one 1 clsUni a, one 2 [.ta] b]
  | .ard _ _ a b => [one 1 [.ta] a, one 2 clsUni b]
  | .ld _ ls _ _ a _ => [addrUse ls a]
  | .st _ ls w a b _ =>
    [addrUse ls a, if w.regs = 1 then one 2 clsGen b else ⟨2, w.regs, w.regs, [.v, .s], b⟩]
  | .ldc _ _ _ a _ | .xrd _ _ _ a _ => [pairR 1 a]
  | .ldv _ _ a b _ => [pairR 1 a, one 2 [.s] b]
  | .ldwf _ _ a _ | .ldtk _ _ a _ => [addrUse true a]
  | .stwe _ a b _ => [addrUse true a, one 2 clsGen b]
  | .feset _ _ _ a b => [one 1 clsUni a, one 2 clsUni b]
  | .atom _ ls _ w _ a b _ => [addrUse ls a, gen w 2 b]
  | .acas _ ls w _ a b _ => [addrUse ls a, if w then ⟨2, 4, 4, [.v, .s], b⟩ else ⟨2, 2, 1, [.v, .s], b⟩]
  | .red _ ls _ w a b _ => [addrUse ls a, if w then pairR 2 b else one 2 clsGen b]
  | .xadd _ _ a b _ => [pairR 1 a, one 2 clsGen b]
  | .cpy _ dir d a b c =>
    let loc (slot : Nat) (s : Src) := one slot clsUni s
    let glo (slot : Nat) (s : Src) : Use := ⟨slot, 2, 2, [.s], s⟩
    let fd : Src := ⟨false, d.cls, d.idx⟩
    [if dir = .gl || dir = .ll then loc 0 fd else glo 0 fd, if dir = .lg || dir = .ll then loc 1 a else glo 1 a,
     loc 2 b, loc 3 c]
  | .tld _ mc d a b c =>
    [one 0 clsUni ⟨false, d.cls, d.idx⟩, ⟨1, 16, 16, [.s], a⟩, one 2 [.s] b, if mc then ⟨3, 2, 1, [.s], c⟩ else one 3 clsUni c]
  | .tst _ d a b c => [one 0 clsUni ⟨false, d.cls, d.idx⟩, ⟨1, 16, 16, [.s], a⟩, one 2 [.s] b, one 3 clsUni c]
  | .gath _ d a b c | .scat _ d a b c =>
    [one 0 clsUni ⟨false, d.cls, d.idx⟩, ⟨1, 4, 4, [.s], a⟩, one 2 clsUni b, one 3 clsUni c]
  | .coll _ _ _ d a b c =>
    [one 0 clsUni ⟨false, d.cls, d.idx⟩, ⟨1, 8, 8, [.s], a⟩, one 2 clsUni b, one 3 clsUni c]
  | .waitc _ _ a | .sleep _ a | .cresz _ _ a => [one 1 clsUni a]
  | .brx _ a | .launch _ _ a => [⟨1, 2, 2, [.s], a⟩]
  | .ret _ a => [pairR 1 a]
  | .meet _ a => [one 1 [.v, .s, .imm] a]
  | .forkw _ _ a b => [one 1 clsUni a, ⟨2, 2, 2, [.s], b⟩]
  | .choose _ _ a b => [one 1 [.s] a, one 2 clsUni b]
  | .wdrop _ a => [one 1 [.s] a]
  | .svc _ _ a b => [one 1 [.v, .s, .imm] a, one 2 clsUni b]
  | .csrw _ n a => [if csrWide n then ⟨1, 2, 2, clsUni, a⟩ else one 1 clsUni a]
  | .cflush _ _ a b => [⟨1, 2, 2, [.s], a⟩, one 2 clsUni b]
  | .tlbi _ .pg a b => [⟨1, 2, 2, [.s], a⟩, one 2 clsUni b]
  | .tlbi _ .ctx _ b => [one 2 clsUni b]
  | _ => []

/-- A destination of one register of classes `v` or `s`. -/
def dvs (d : Dst) : DstUse := ⟨1, 1, [.v, .s], d⟩

/-- A destination of one or two registers of classes `v` or `s`. -/
def dvsW (w64 : Bool) (d : Dst) : DstUse := if w64 then ⟨2, 2, [.v, .s], d⟩ else dvs d

/-- The destination that an instruction writes, by its entry. -/
def Instr.dst? : Instr → Option DstUse
  | .mov _ d _ | .ptst _ d _ | .pclr _ d _ _ => some ⟨1, 1, [.v, .s, .cf], d⟩
  | .movl _ d _ | .lop3 _ _ _ d _ _ _ | .shf _ _ d _ _ _ | .popc _ _ d _ | .clz _ _ d _ | .bfx _ _ d _ _
  | .bfi _ d _ _ _ | .bil _ _ d _ _ _ | .bdil _ _ d _ _ | .prmt _ d _ _ _ | .vote _ _ d _ | .lred _ _ d _
  | .fadd _ _ _ _ d _ _ | .fmul _ _ _ _ d _ _ | .ffma _ _ _ _ d _ _ _ | .fmin _ d _ _ | .fmax _ d _ _ | .fclass _ d _
  | .frnd _ _ _ d _ | .fscale _ _ _ d _ _ | .ffn _ _ d _ | .fdiv _ _ _ d _ _ | .fsqrt _ _ _ d _
  | .pfma _ _ _ _ _ d _ _ _ | .dot4 _ _ _ d _ _ _ | .fdot2 _ _ _ _ _ d _ _ _ | .pset _ d _ => some (dvs d)
  | .iadd _ ty _ d _ _ | .isub _ ty _ d _ _ | .imin _ ty d _ _ | .imax _ ty d _ _ | .iabs _ ty _ d _
  | .lea _ ty _ d _ _ => some (dvsW ty.wide d)
  | .imul _ ty _ m d _ _ | .imad _ ty _ m d _ _ _ => some (dvsW (ty.wide || m = .wide) d)
  | .shl _ w d _ _ | .shr _ w _ d _ _ | .brev _ w d _ => some (dvsW w d)
  | .cmp _ _ d _ _ | .fcmp _ d _ _ => some ⟨1, 1, [.cf], d⟩
  | .sel _ _ d _ _ _ | .shfl _ _ d _ _ _ | .lscan _ _ _ d _ | .ard _ d _ _ | .ldv _ d _ _ _ | .ldwf _ d _ _
  | .ldtk _ d _ _ | .xrd _ _ d _ _ | .brd _ d _ _ => some ⟨1, 1, [.v], d⟩
  | .unify _ d _ | .cntr _ _ d | .forkw _ d _ _ | .choose _ d _ _ | .launch _ d _ | .cresz _ d _ =>
    some ⟨1, 1, [.s], d⟩
  | .cvt _ _ _ dst src d _ =>
    let k := cvtSpan dst src dst
    some ⟨k, k, if dst = .mx then [.v] else [.v, .s], d⟩
  | .mma _ d _ _ | .tldb _ d _ | .azro _ d | .ald _ d _ => some ⟨1, 1, [.ta], d⟩
  | .ld _ _ w d a _ | .ldc _ w d a _ =>
    some ⟨w.regs, w.regs, if a.cls = .s || a.cls = .imm then [.v, .s] else [.v], d⟩
  | .atom _ _ _ w d _ _ _ | .acas _ _ w d _ _ _ => some ⟨if w then 2 else 1, if w then 2 else 1, [.v], d⟩
  | .call _ d _ => some ⟨2, 2, [.v, .s], d⟩
  | .csrr _ d n => some (dvsW (csrWide n) d)
  | _ => none

/-- Number of indices of a class (Table 4.1). -/
def Cls.count : Cls → Nat
  | .v | .imm => 256
  | .s => 128
  | .q => 4
  | .o | .cf => 8
  | .z => 12
  | .ta => 64

/-- An index that its class has (R77). -/
def idxOk (c : Cls) (span mult n : Nat) : Bool :=
  match c with
  | .imm => true
  | .ta => n < 16 || (32 ≤ n && n < 64)
  | c => n % mult = 0 && n + span ≤ c.count

/-- A legal source operand (R77, R80, R92). -/
def Use.legal (u : Use) : Bool :=
  u.ok.contains u.src.cls && idxOk u.src.cls u.span u.mult u.src.idx.toNat
    && (!u.src.dead || u.src.cls = .v || u.src.cls = .o)

/-- A legal destination (R80, R81): with no write-back, class and index are 0. -/
def DstUse.legal (u : DstUse) : Bool :=
  if u.dst.nwb then u.dst.cls = .v && u.dst.idx = 0#8 && !u.ok.contains .ta
  else u.ok.contains u.dst.cls && idxOk u.dst.cls u.span u.mult u.dst.idx.toNat

/-- A source whose value is the same in every lane (R83): uniform register, uniform flag, special register other than
`z0`, immediate. -/
def Src.uniform (s : Src) : Bool :=
  match s.cls with
  | .s | .imm => true
  | .cf => 4 ≤ s.idx.toNat
  | .z => s.idx ≠ 0#8
  | _ => false

/-- Whether the destination is a uniform register or a uniform flag register. -/
def Dst.uniform (d : Dst) : Bool := !d.nwb && (d.cls = .s || (d.cls = .cf && 4 ≤ d.idx.toNat))

/-- Whether the destination is a uniform flag register. -/
def Dst.isF (d : Dst) : Bool := !d.nwb && d.cls = .cf && 4 ≤ d.idx.toNat

/-- Whether the instruction writes a uniform register or flag. -/
def Instr.writesUniform (i : Instr) : Bool :=
  match i.dst? with
  | some u => u.dst.uniform
  | none => false

/-- Whether the instruction runs on the uniform datapath (R83): its destination and all its sources are uniform. -/
def Instr.onUniform (i : Instr) : Bool := i.writesUniform && i.uses.all fun u => u.src.uniform

/-- Whether the instruction has a vector result (R81, R89, R91): it can write a vector register, and its destination is
of class 0 or `_`. -/
def Instr.vecResult (i : Instr) : Bool :=
  match i.dst? with
  | some u => u.ok.contains .v && u.dst.cls = .v
  | none => false

/-- The rules for uniform destinations: `z0` is no source of one (R83), a uniform flag needs uniform sources (R80), and
`MOV` into a uniform register needs a uniform source (R430). -/
def Instr.uniformOk (i : Instr) : Bool :=
  match i.dst? with
  | some u =>
    (!u.dst.uniform || i.uses.all fun w => !(w.src.cls = .z && w.src.idx = 0#8))
      && (!u.dst.isF || i.uses.all fun w => w.src.uniform)
  | none => true

/-- The branches, fences and `RTT` that accept no lane-condition guard (R335, R390, R435, R444). -/
def Instr.noLaneGuard : Instr → Bool
  | .bra .. | .call .. | .brx .. | .ret .. | .fence .. | .pfence .. | .rtt _ => true
  | _ => false

/-- A legal guard (R327): code AL has no register. -/
def Guard.legal : Guard → Bool
  | .al => true
  | .lane _ cc => cc ≠ .al
  | .uni _ cc => cc ≠ .al

/-- Whether the guard is evaluated per lane. -/
def Guard.perLane : Guard → Bool
  | .lane .. => true
  | _ => false

/-- Legal hints (R328, R339). -/
def Hint.legal (n : Hint) : Bool := n.sbs ≠ 7#3 && (n.lhu || n.lhm = 0#4) && (n.ocap || n.ocsel = 0#3)

/-- An order and scope that R182 accepts, among the orders of an instruction. -/
def Mc.legal (m : Mc) (acc : List Ord) : Bool :=
  match m.ord with
  | .none => m.scope = .grp
  | .acqRmt => acc.contains .acqRmt && (m.scope = .die || m.scope = .dev)
  | o => acc.contains o

/-- Orders of the atomics that return a value. -/
def ordAtom : List Ord := [.acq, .rel, .ar, .acqRmt]

/-- No order on a local-store access (R332). -/
def ordIf (ls : Bool) (l : List Ord) : List Ord := if ls then [] else l

/-- An unused source field. -/
def srcZero : Src := ⟨false, .v, 0#8⟩

/-- Whether the atomic operation is one of floating point. -/
def Aop.float : Aop → Bool
  | .fadd | .fmin | .fmax => true
  | _ => false

/-- Whether the element type of `DOT4` is one of floating point. -/
def DotTy.float : DotTy → Bool
  | .e4m3 | .e5m2 => true
  | .s8 | .n8 => false

/-- Multiply modes (R405). -/
def mulOk (ty : ITy) (sat : Bool) (m : MulMode) : Bool := (!sat || m = .lo) && !(m = .wide && ty.wide)

/-- What an entry demands beyond its operand classes. -/
def Instr.formOk : Instr → Bool
  | .mov _ d (.reg a) => !d.uniform || a.uniform
  | .imul _ ty sat m _ _ _ => mulOk ty sat m
  | .imad _ ty sat m _ _ _ _ => mulOk ty sat m
  | .iabs _ ty _ _ _ => ty.signed
  | .lop3 _ _ op2 _ _ _ c => op2 ≠ .x || c = srcZero
  | .bil _ three _ _ _ c => three || c = srcZero
  | .sel _ _ _ _ _ c => c.idx.toNat < 4
  | .cvt _ _ _ dst src _ _ =>
    src ≠ .mx && dst ≠ src && (dst ≠ .mx || src = .f32 || src = .f16 || src = .bf16)
      && cvtSpan dst src src ≤ 8 && cvtSpan dst src dst ≤ 8
  | .dot4 _ ta tb _ _ _ _ => ta.float = tb.float
  | .mma _ d _ b => 32 ≤ d.idx.toNat && b.idx.toNat < 16
  | .tldb _ d _ => d.idx.toNat < 16
  | .azro _ d => 32 ≤ d.idx.toNat
  | .ald _ d _ => 32 ≤ d.idx.toNat
  | .ast _ _ b => 32 ≤ b.idx.toNat
  | .ard _ _ a _ => 32 ≤ a.idx.toNat
  | .ld _ ls _ _ _ mc => mc.legal (ordIf ls [.acq, .acqRmt])
  | .st _ ls w _ _ mc => w ≠ .s8 && w ≠ .s16 && mc.legal (ordIf ls [.rel])
  | .ldc _ _ _ _ mc | .ldwf _ _ _ mc | .ldtk _ _ _ mc | .stwe _ _ _ mc => mc.legal []
  | .fence _ ord _ => ord = .acq || ord = .rel || ord = .ar
  | .atom _ ls op w _ _ _ mc => (!w || !op.float) && mc.legal (ordIf ls ordAtom)
  | .acas _ ls _ _ _ _ mc => mc.legal (ordIf ls ordAtom)
  | .red _ ls op w _ _ mc => op ≠ .exch && (!w || !op.float) && mc.legal (ordIf ls [.rel])
  | .xadd _ _ _ _ mc => mc.legal [.rel]
  | .xrd _ _ _ _ mc => mc.legal [.acq]
  | .cpy _ _ d _ _ _ | .tld _ _ d _ _ _ | .tst _ d _ _ _ | .gath _ d _ _ _ | .scat _ d _ _ _
  | .coll _ _ _ d _ _ _ => !d.nwb
  | .csrr _ _ n => n.toNat < 0xC || 0x100 ≤ n.toNat
  | .csrw _ n _ => n ≠ 2#12 && n ≠ 4#12 && n ≠ 0xB#12 && (n.toNat < 0xC || 0x100 ≤ n.toNat)
  | .tlbi _ .ctx a _ => a = srcZero
  | .tlbi _ .all a b => a = srcZero && b = srcZero
  | _ => true

/-- Whether an instruction's encoding passes every check of R339; the other steps of the machine have no encoding. -/
def Instr.legal (i : Instr) : Bool :=
  match i.head with
  | none => true
  | some h =>
    h.guard.legal && !(i.noLaneGuard && h.guard.perLane) && h.hint.legal && (!h.hint.ocap || i.vecResult)
      && i.uses.all Use.legal && i.dst?.all DstUse.legal && i.uniformOk && i.formOk

/-- The closing instructions (R239). -/
def Instr.closing : Instr → Bool
  | .st .. | .stwe .. | .ldtk .. | .feset .. | .atom .. | .acas .. | .red .. | .xadd .. | .xrd .. | .bra .. | .brd ..
  | .brx .. | .call .. | .ret .. | .meet .. | .exit .. | .fence .. | .pfence .. | .mfence .. | .bar .. | .sstep ..
  | .cpy .. | .tld .. | .tst .. | .gath .. | .scat .. | .coll .. | .waitc .. | .cntr .. | .mma .. | .tldb .. | .azro ..
  | .ald .. | .ast .. | .ard .. | .forkw .. | .choose .. | .wdrop .. | .launch .. | .svc .. | .trap .. | .rtt ..
  | .csrw .. | .cresz .. | .cflush .. | .tlbi .. => true
  | _ => false

/-- The instructions that a continuation executes on a helper core (R36). -/
def Instr.onHelper : Instr → Bool
  | .nop .. | .mov .. | .movl .. | .ptst .. | .pset .. | .pclr .. | .iadd .. | .isub .. | .imul .. | .imad .. | .imin ..
  | .imax .. | .iabs .. | .lea .. | .lop3 .. | .shl .. | .shr .. | .shf .. | .popc .. | .clz .. | .brev .. | .bfx ..
  | .bfi .. | .bil .. | .bdil .. | .prmt .. | .cmp .. | .sel .. | .fadd .. | .fmul .. | .ffma .. | .fmin .. | .fmax ..
  | .fcmp .. | .fclass .. | .frnd .. | .fscale .. | .ffn .. | .fdiv .. | .fsqrt .. | .cvt .. | .pfma .. | .dot4 ..
  | .fdot2 .. | .shfl .. | .vote .. | .lred .. | .lscan .. | .ld .. | .ldc .. | .ldv .. | .ldwf .. | .ldtk .. | .st ..
  | .stwe .. | .atom .. | .acas .. | .red .. | .xadd .. | .xrd .. | .fence .. | .pfence .. | .bra .. | .brd .. | .brx ..
  | .call .. | .ret .. | .meet .. | .exit .. => true
  | _ => false

/-- The vector-register reads of an instruction: slot, span index, register. -/
def Instr.vreads (i : Instr) : List (Nat × Nat × Nat) :=
  i.uses.flatMap fun u =>
    if u.src.cls = .v then (List.range u.span).map fun k => (u.slot, k, u.src.idx.toNat + k) else []

/-- The scoreboard that an instruction names in `SBS`. -/
def Instr.sbs (i : Instr) : Option Nat :=
  match i.head with
  | some h => if h.hint.sbs = 0#3 then none else some (h.hint.sbs.toNat - 1)
  | none => none

/-- The hints of an instruction word. -/
def Instr.hint (i : Instr) : Hint :=
  match i.head with
  | some h => h.hint
  | none => ⟨0#4, false, 0#6, 0#3, false, 0#4, false, 0#3⟩

/-- The guard of an instruction word. -/
def Instr.guard (i : Instr) : Guard :=
  match i.head with
  | some h => h.guard
  | none => .al

/-- The instructions of fixed latency, whose result goes into registers from the rod's own pipes (R73, R87). -/
def Instr.fixed : Instr → Bool
  | .mov .. | .movl .. | .unify .. | .iadd .. | .isub .. | .imul .. | .imad .. | .imin .. | .imax .. | .iabs .. | .lea ..
  | .lop3 .. | .shl .. | .shr .. | .shf .. | .popc .. | .clz .. | .brev .. | .bfx .. | .bfi .. | .bil .. | .bdil ..
  | .prmt .. | .cmp .. | .sel .. | .shfl .. | .vote .. | .lred .. | .lscan .. | .fadd .. | .fmul .. | .ffma .. | .fmin ..
  | .fmax .. | .fcmp .. | .fclass .. | .frnd .. | .fscale .. | .ffn .. | .fdiv .. | .fsqrt .. | .cvt .. | .pfma ..
  | .dot4 .. | .fdot2 .. | .cntr .. | .brd .. | .call .. | .pclr .. | .ptst .. | .pset .. | .csrr .. => true
  | _ => false

/-- Whether an instruction acts with no Active, guard-true lane (R87): one of fixed latency; an `MMA` is checked under R137. -/
def Instr.actsIdle (i : Instr) : Bool :=
  match i with
  | .mma .. => true
  | _ => i.fixed

/-- Best latency of an instruction of fixed latency, on the vector datapath (the entries of chapters 15 to 18). -/
def Instr.best : Instr → Nat
  | .shfl .. | .vote .. => 8
  | .lred .. => 12
  | .lscan .. | .ffn .. => 14
  | .fadd .. | .fmul .. | .ffma .. | .fmin .. | .fmax .. | .fcmp .. | .fclass .. | .frnd .. | .fscale .. | .pfma ..
  | .dot4 .. | .fdot2 .. => 5
  | .fdiv .. | .fsqrt .. => 26
  | .cvt .. => 6
  | _ => 4

/-- Best latency on the uniform datapath (R74, R379, R381); the worst is 4 clocks more. -/
def Instr.ubest (i : Instr) : Nat := if i.best = 4 || i.best = 6 then 2 else i.best

/-- The loads and atomics that return values through the return path (R68, R73). -/
def Instr.returns : Instr → Bool
  | .ld .. | .ldc .. | .ldv .. | .ldwf .. | .ldtk .. | .atom .. | .acas .. | .xrd .. | .ard .. => true
  | _ => false

/-- The instructions whose entry names an event that clears the scoreboard of `SBS`, or that are counted in Table 7.3; the
others ignore `SBS` (R328). -/
def Instr.usesSb (i : Instr) : Bool :=
  i.fixed || i.returns ||
    match i with
    | .red .. | .xadd .. | .bar .. | .feset .. | .cresz .. | .cflush .. | .mma .. | .tldb .. | .azro .. | .ald .. | .ast ..
    | .cpy .. | .tld .. | .tst .. | .gath .. | .scat .. | .coll .. | .svc .. | .launch .. | .forkw .. | .choose ..
    | .wdrop .. => true
    | _ => false

/-- A scoreboard set by a load or atomic beyond the local store is a long-latency dependence (R68). -/
def Instr.far : Instr → Bool
  | .ld _ ls .. | .atom _ ls .. | .acas _ ls .. | .red _ ls .. => !ls
  | .ldc .. | .ldv .. | .xadd .. | .xrd .. => true
  | _ => false

/-- The instructions before which a group with a lost store parks (R221). -/
def Instr.parksOnLost : Instr → Bool
  | .st _ _ _ _ _ mc => mc.ord ≠ .none
  | .fence _ ord _ => ord ≠ .none
  | .pfence .. | .bar .. | .sstep .. | .atom .. | .acas .. | .red .. | .xadd .. | .xrd .. | .exit .. | .stwe ..
  | .launch .. => true
  | _ => false

/-- The engine counter class that counts an instruction (Table 7.3). -/
def Instr.counter : Instr → Option CtrCls
  | .cpy .. | .tld .. | .tst .. => some .cpy
  | .mma .. | .tldb .. | .azro .. | .ald .. | .ast .. | .ard .. => some .mtx
  | .gath .. | .scat .. => some .gth
  | .coll .. => some .col
  | .svc .. | .launch .. | .forkw .. | .choose .. | .wdrop .. => some .svc
  | _ => none

end Sys2Proof
end

