-- ==== Sys2Proof/WellFormed.lean ====
section
/-!
DEFINITION. WellFormed.lean: the well-formed instructions, those whose encoding raises no `ILLOP` (R339).
-/
namespace Sys2Proof

/-- A well-formed instruction word: one of the 101 instructions, with an encoding that passes every check of R339. -/
def Instr.wf (i : Instr) : Bool := i.isWord && i.legal

end Sys2Proof
end

