-- ==== Sys2Proof/Decode.lean ====
section
/-!
DEFINITION. Decode.lean: the instruction word between its 96 bits and Instr (R325 to R337): the decoder, which rejects by
name, and the encoder.
-/
namespace Sys2Proof

/-- Why a word is no instruction; each raises `ILLOP` (R339). `truncated` stands for fewer than 12 bytes. -/
inductive DecErr where
  | truncated | opcode | modifier | guard | hint | unused | form
  deriving DecidableEq, Repr

/-- The fields of Table 14.3; `grd` is [80:73], with the reserved bit [73] last, and `fd` is [72:61]. -/
structure Raw where
  op  : BitVec 9
  mod : BitVec 6
  grd : BitVec 8
  fd  : BitVec 12
  fa  : BitVec 12
  fb  : BitVec 12
  fc  : BitVec 12
  hnt : BitVec 25
  deriving DecidableEq, Repr

/-- The fields of a word (Table 14.3). -/
def Raw.ofWord (w : BitVec 96) : Raw :=
  ⟨w.extractLsb' 87 9, w.extractLsb' 81 6, w.extractLsb' 73 8, w.extractLsb' 61 12, w.extractLsb' 49 12,
    w.extractLsb' 37 12, w.extractLsb' 25 12, w.extractLsb' 0 25⟩

/-- The word that has the fields (Table 14.3). -/
def Raw.word (r : Raw) : BitVec 96 := r.op ++ r.mod ++ r.grd ++ r.fd ++ r.fa ++ r.fb ++ r.fc ++ r.hnt

/-- Code of a register class (Table 4.1). -/
def Cls.enc : Cls → BitVec 3
  | .v => 0
  | .s => 1
  | .q => 2
  | .o => 3
  | .cf => 4
  | .z => 5
  | .ta => 6
  | .imm => 7

/-- A register class (Table 4.1) of a code. -/
def Cls.dec (b : BitVec 3) : Cls :=
  match b.toNat with
  | 0 => .v
  | 1 => .s
  | 2 => .q
  | 3 => .o
  | 4 => .cf
  | 5 => .z
  | 6 => .ta
  | _ => .imm

/-- Code of a guard condition (Table 14.4). -/
def Cc.enc : Cc → BitVec 4
  | .al => 0
  | .eq => 1
  | .ne => 2
  | .lt => 3
  | .ge => 4
  | .le => 5
  | .gt => 6
  | .lo => 7
  | .hs => 8
  | .ls => 9
  | .hi => 10
  | .mi => 11
  | .pl => 12
  | .vs => 13
  | .vc => 14
  | .nv => 15

/-- A guard condition (Table 14.4) of a code. -/
def Cc.dec (b : BitVec 4) : Cc :=
  match b.toNat with
  | 0 => .al
  | 1 => .eq
  | 2 => .ne
  | 3 => .lt
  | 4 => .ge
  | 5 => .le
  | 6 => .gt
  | 7 => .lo
  | 8 => .hs
  | 9 => .ls
  | 10 => .hi
  | 11 => .mi
  | 12 => .pl
  | 13 => .vs
  | 14 => .vc
  | _ => .nv

/-- Code of an integer type (Table 14.9). -/
def ITy.enc : ITy → BitVec 2
  | .s32 => 0
  | .n32 => 1
  | .s64 => 2
  | .n64 => 3

/-- An integer type (Table 14.9) of a code. -/
def ITy.dec (b : BitVec 2) : ITy :=
  match b.toNat with
  | 0 => .s32
  | 1 => .n32
  | 2 => .s64
  | _ => .n64

/-- Code of a multiply mode (R405). -/
def MulMode.enc : MulMode → BitVec 2
  | .lo => 0
  | .hi => 1
  | .wide => 2

/-- A multiply mode (R405) of a code. -/
def MulMode.dec (b : BitVec 2) : Except DecErr MulMode :=
  match b.toNat with
  | 0 => .ok .lo
  | 1 => .ok .hi
  | 2 => .ok .wide
  | _ => .error .modifier

/-- Code of a bitwise operation (R421). -/
def Lop.enc : Lop → BitVec 3
  | .and => 0
  | .or => 1
  | .xor => 2
  | .andn => 3
  | .orn => 4
  | .xnor => 5
  | .x => 6
  | .y => 7

/-- A bitwise operation (R421) of a code. -/
def Lop.dec (b : BitVec 3) : Lop :=
  match b.toNat with
  | 0 => .and
  | 1 => .or
  | 2 => .xor
  | 3 => .andn
  | 4 => .orn
  | 5 => .xnor
  | 6 => .x
  | _ => .y

/-- Code of a shuffle mode (R449). -/
def ShflMode.enc : ShflMode → BitVec 2
  | .idx => 0
  | .up => 1
  | .down => 2
  | .xor => 3

/-- A shuffle mode (R449) of a code. -/
def ShflMode.dec (b : BitVec 2) : ShflMode :=
  match b.toNat with
  | 0 => .idx
  | 1 => .up
  | 2 => .down
  | _ => .xor

/-- Code of a vote mode (R468). -/
def VoteMode.enc : VoteMode → BitVec 2
  | .all => 0
  | .any => 1
  | .uni => 2
  | .ballot => 3

/-- A vote mode (R468) of a code. -/
def VoteMode.dec (b : BitVec 2) : VoteMode :=
  match b.toNat with
  | 0 => .all
  | 1 => .any
  | 2 => .uni
  | _ => .ballot

/-- Code of a lane operation (R422). -/
def LaneOp.enc : LaneOp → BitVec 4
  | .add => 0
  | .min => 1
  | .max => 2
  | .umin => 3
  | .umax => 4
  | .and => 5
  | .or => 6
  | .xor => 7
  | .fadd => 8
  | .fmin => 9
  | .fmax => 10

/-- A lane operation (R422) of a code. -/
def LaneOp.dec (b : BitVec 4) : Except DecErr LaneOp :=
  match b.toNat with
  | 0 => .ok .add
  | 1 => .ok .min
  | 2 => .ok .max
  | 3 => .ok .umin
  | 4 => .ok .umax
  | 5 => .ok .and
  | 6 => .ok .or
  | 7 => .ok .xor
  | 8 => .ok .fadd
  | 9 => .ok .fmin
  | 10 => .ok .fmax
  | _ => .error .modifier

/-- Code of a rounding field (Table 14.9). -/
def Rnd.enc : Rnd → BitVec 3
  | .dyn => 0
  | .rn => 1
  | .rz => 2
  | .ru => 3
  | .rd => 4

/-- A rounding field (Table 14.9) of a code. -/
def Rnd.dec (b : BitVec 3) : Except DecErr Rnd :=
  match b.toNat with
  | 0 => .ok .dyn
  | 1 => .ok .rn
  | 2 => .ok .rz
  | 3 => .ok .ru
  | 4 => .ok .rd
  | _ => .error .modifier

/-- Code of a function of `FFN` (Table 16.7). -/
def FfnOp.enc : FfnOp → BitVec 4
  | .rcp => 0
  | .rsq => 1
  | .ex2 => 2
  | .lg2 => 3
  | .sin => 4
  | .cos => 5
  | .tanh => 6
  | .sigm => 7

/-- A function of `FFN` (Table 16.7) of a code. -/
def FfnOp.dec (b : BitVec 4) : Except DecErr FfnOp :=
  match b.toNat with
  | 0 => .ok .rcp
  | 1 => .ok .rsq
  | 2 => .ok .ex2
  | 3 => .ok .lg2
  | 4 => .ok .sin
  | 5 => .ok .cos
  | 6 => .ok .tanh
  | 7 => .ok .sigm
  | _ => .error .modifier

/-- Code of an element type of `CVT` (Table 14.9). -/
def CvtTy.enc : CvtTy → BitVec 4
  | .f32 => 0
  | .f16 => 1
  | .bf16 => 2
  | .e5m2 => 3
  | .e4m3 => 4
  | .e2m1 => 5
  | .s8 => 6
  | .n8 => 7
  | .s16 => 8
  | .n16 => 9
  | .s32 => 10
  | .n32 => 11
  | .s64 => 12
  | .n64 => 13
  | .mx => 14

/-- An element type of `CVT` (Table 14.9) of a code. -/
def CvtTy.dec (b : BitVec 4) : Except DecErr CvtTy :=
  match b.toNat with
  | 0 => .ok .f32
  | 1 => .ok .f16
  | 2 => .ok .bf16
  | 3 => .ok .e5m2
  | 4 => .ok .e4m3
  | 5 => .ok .e2m1
  | 6 => .ok .s8
  | 7 => .ok .n8
  | 8 => .ok .s16
  | 9 => .ok .n16
  | 10 => .ok .s32
  | 11 => .ok .n32
  | 12 => .ok .s64
  | 13 => .ok .n64
  | 14 => .ok .mx
  | _ => .error .modifier

/-- Code of an element type of `DOT4` (R382). -/
def DotTy.enc : DotTy → BitVec 2
  | .e4m3 => 0
  | .e5m2 => 1
  | .s8 => 2
  | .n8 => 3

/-- An element type of `DOT4` (R382) of a code. -/
def DotTy.dec (b : BitVec 2) : DotTy :=
  match b.toNat with
  | 0 => .e4m3
  | 1 => .e5m2
  | 2 => .s8
  | _ => .n8

/-- Code of an access width (Table 14.9a). -/
def Width.enc : Width → BitVec 3
  | .n8 => 0
  | .s8 => 1
  | .n16 => 2
  | .s16 => 3
  | .w32 => 4
  | .w64 => 5
  | .w128 => 6

/-- An access width (Table 14.9a) of a code. -/
def Width.dec (b : BitVec 3) : Except DecErr Width :=
  match b.toNat with
  | 0 => .ok .n8
  | 1 => .ok .s8
  | 2 => .ok .n16
  | 3 => .ok .s16
  | 4 => .ok .w32
  | 5 => .ok .w64
  | 6 => .ok .w128
  | _ => .error .modifier

/-- Code of an order (Table 14.7). -/
def Ord.enc : Ord → BitVec 3
  | .none => 0
  | .acq => 1
  | .rel => 2
  | .ar => 3
  | .acqRmt => 4

/-- An order (Table 14.7) of a code. -/
def Ord.dec (b : BitVec 3) : Except DecErr Ord :=
  match b.toNat with
  | 0 => .ok .none
  | 1 => .ok .acq
  | 2 => .ok .rel
  | 3 => .ok .ar
  | 4 => .ok .acqRmt
  | _ => .error .modifier

/-- Code of a scope (Table 14.7). -/
def Scope.enc : Scope → BitVec 3
  | .grp => 0
  | .team => 1
  | .die => 2
  | .dev => 3
  | .cell => 4
  | .sys => 5

/-- A scope (Table 14.7) of a code. -/
def Scope.dec (b : BitVec 3) : Except DecErr Scope :=
  match b.toNat with
  | 0 => .ok .grp
  | 1 => .ok .team
  | 2 => .ok .die
  | 3 => .ok .dev
  | 4 => .ok .cell
  | 5 => .ok .sys
  | _ => .error .modifier

/-- Code of an atomic operation (Table 14.9b). -/
def Aop.enc : Aop → BitVec 4
  | .add => 0
  | .and => 1
  | .or => 2
  | .xor => 3
  | .min => 4
  | .max => 5
  | .umin => 6
  | .umax => 7
  | .exch => 8
  | .fadd => 9
  | .fmin => 10
  | .fmax => 11

/-- An atomic operation (Table 14.9b) of a code. -/
def Aop.dec (b : BitVec 4) : Except DecErr Aop :=
  match b.toNat with
  | 0 => .ok .add
  | 1 => .ok .and
  | 2 => .ok .or
  | 3 => .ok .xor
  | 4 => .ok .min
  | 5 => .ok .max
  | 6 => .ok .umin
  | 7 => .ok .umax
  | 8 => .ok .exch
  | 9 => .ok .fadd
  | 10 => .ok .fmin
  | 11 => .ok .fmax
  | _ => .error .modifier

/-- Code of an addend type of `XADD` (R471). -/
def XTy.enc : XTy → BitVec 2
  | .f32 => 0
  | .f16 => 1
  | .bf16 => 2

/-- An addend type of `XADD` (R471) of a code. -/
def XTy.dec (b : BitVec 2) : Except DecErr XTy :=
  match b.toNat with
  | 0 => .ok .f32
  | 1 => .ok .f16
  | 2 => .ok .bf16
  | _ => .error .modifier

/-- Code of a direction of `CPY` (R373). -/
def CpyDir.enc : CpyDir → BitVec 2
  | .gl => 0
  | .lg => 1
  | .gg => 2
  | .ll => 3

/-- A direction of `CPY` (R373) of a code. -/
def CpyDir.dec (b : BitVec 2) : CpyDir :=
  match b.toNat with
  | 0 => .gl
  | 1 => .lg
  | 2 => .gg
  | _ => .ll

/-- Code of a kind of `COLL` (R369). -/
def CollKind.enc : CollKind → BitVec 3
  | .bcast => 0
  | .reduce => 1
  | .allreduce => 2
  | .allgather => 3
  | .redscat => 4

/-- A kind of `COLL` (R369) of a code. -/
def CollKind.dec (b : BitVec 3) : Except DecErr CollKind :=
  match b.toNat with
  | 0 => .ok .bcast
  | 1 => .ok .reduce
  | 2 => .ok .allreduce
  | 3 => .ok .allgather
  | 4 => .ok .redscat
  | _ => .error .modifier

/-- Code of a reduction of `COLL` (R369). -/
def CollOp.enc : CollOp → BitVec 3
  | .fadd => 0
  | .fmin => 1
  | .fmax => 2
  | .iadd => 3
  | .bfadd => 4

/-- A reduction of `COLL` (R369) of a code. -/
def CollOp.dec (b : BitVec 3) : Except DecErr CollOp :=
  match b.toNat with
  | 0 => .ok .fadd
  | 1 => .ok .fmin
  | 2 => .ok .fmax
  | 3 => .ok .iadd
  | 4 => .ok .bfadd
  | _ => .error .modifier

/-- Code of a counter class (Table 7.3). -/
def CtrCls.enc : CtrCls → BitVec 3
  | .cpy => 0
  | .mtx => 1
  | .gth => 2
  | .col => 3
  | .svc => 4

/-- A counter class (Table 7.3) of a code. -/
def CtrCls.dec (b : BitVec 3) : Except DecErr CtrCls :=
  match b.toNat with
  | 0 => .ok .cpy
  | 1 => .ok .mtx
  | 2 => .ok .gth
  | 3 => .ok .col
  | 4 => .ok .svc
  | _ => .error .modifier

/-- Code of a kind of `TLBI` (R460). -/
def TlbiKind.enc : TlbiKind → BitVec 2
  | .pg => 0
  | .ctx => 1
  | .all => 2

/-- A kind of `TLBI` (R460) of a code. -/
def TlbiKind.dec (b : BitVec 2) : Except DecErr TlbiKind :=
  match b.toNat with
  | 0 => .ok .pg
  | 1 => .ok .ctx
  | 2 => .ok .all
  | _ => .error .modifier

/-- A source field (R325): dead mark, class, index. -/
def Src.enc (s : Src) : BitVec 12 := BitVec.ofBool s.dead ++ s.cls.enc ++ s.idx

/-- The source that a field holds. -/
def Src.dec (b : BitVec 12) : Src := ⟨b.getLsbD 11, Cls.dec (b.extractLsb' 8 3), b.extractLsb' 0 8⟩

/-- A destination field (R325): no-write-back bit, class, index. -/
def Dst.enc (d : Dst) : BitVec 12 := BitVec.ofBool d.nwb ++ d.cls.enc ++ d.idx

/-- The destination that a field holds. -/
def Dst.dec (b : BitVec 12) : Dst := ⟨b.getLsbD 11, Cls.dec (b.extractLsb' 8 3), b.extractLsb' 0 8⟩

/-- The guard field (R325, R327): register, condition, U, and the reserved bit. -/
def Guard.enc : Guard → BitVec 8
  | .al => 0#8
  | .lane r cc => r ++ cc.enc ++ 0#1 ++ 0#1
  | .uni r cc => r ++ cc.enc ++ 1#1 ++ 0#1

/-- The guard that a field holds; with AL the register and U are 0 (R327), and [73] is reserved. -/
def Guard.dec (b : BitVec 8) : Except DecErr Guard :=
  let r := b.extractLsb' 6 2
  let cc := Cc.dec (b.extractLsb' 2 4)
  if b.getLsbD 0 then .error .guard
  else if cc = .al then (if b = 0#8 then .ok .al else .error .guard)
  else if b.getLsbD 1 then .ok (.uni r cc)
  else .ok (.lane r cc)

/-- The hint field (Table 14.5). -/
def Hint.enc (n : Hint) : BitVec 25 :=
  n.stall ++ BitVec.ofBool n.yield ++ n.wmask ++ n.sbs ++ BitVec.ofBool n.lhu ++ n.lhm ++ BitVec.ofBool n.ocap
    ++ n.ocsel ++ 0#2

/-- The hints that a field holds; [1:0] is reserved. -/
def Hint.dec (b : BitVec 25) : Except DecErr Hint :=
  if b.extractLsb' 0 2 = 0#2 then
    .ok ⟨b.extractLsb' 21 4, b.getLsbD 20, b.extractLsb' 14 6, b.extractLsb' 11 3, b.getLsbD 10, b.extractLsb' 6 4,
      b.getLsbD 5, b.extractLsb' 2 3⟩
  else .error .hint

/-- The memory control field (Table 14.7). -/
def Mc.enc (m : Mc) : BitVec 12 := m.ord.enc ++ m.scope.enc ++ m.ofs

/-- The memory control that a field holds. -/
def Mc.dec (b : BitVec 12) : Except DecErr Mc := do
  let o ← Ord.dec (b.extractLsb' 9 3)
  let s ← Scope.dec (b.extractLsb' 6 3)
  pure ⟨o, s, b.extractLsb' 0 6⟩

/-- Goes on if `b` holds. -/
def req (b : Bool) (e : DecErr) : Except DecErr Unit := if b then .ok () else .error e

/-- The guard and the hints of a word. -/
def Raw.head (r : Raw) : Except DecErr Head := do
  let g ← Guard.dec r.grd
  let n ← Hint.dec r.hnt
  pure ⟨g, n⟩

/-- An unused source field is 0 (R326). -/
def zeroF (b : BitVec 12) : Except DecErr Unit := req (b = 0#12) .unused

/-- The modifier bits of a mask are 0 (R334). -/
def zeroM (b : BitVec 6) (m : BitVec 6) : Except DecErr Unit := req (b &&& m = 0#6) .modifier

/-- FD of an instruction without a destination: `0x800` or `0x000` (R326). -/
def noDst (b : BitVec 12) : Except DecErr Unit := req (b = 0x800#12 || b = 0#12) .unused

/-- Source B of an instruction with an I form (R329): by `MOD`[5], the immediate in FB and FC, or FB with FC = 0. -/
def Raw.opnd (r : Raw) : Except DecErr Opnd :=
  if r.mod.getLsbD 5 then .ok (.imm (r.fb ++ r.fc))
  else if r.fc = 0#12 then .ok (.reg (Src.dec r.fb)) else .error .unused

/-- `MOD`[5] of an operand B. -/
def Opnd.iBit : Opnd → BitVec 1
  | .reg _ => 0#1
  | .imm _ => 1#1

/-- FB of an operand B. -/
def Opnd.fb : Opnd → BitVec 12
  | .reg s => s.enc
  | .imm i => i.extractLsb' 12 12

/-- FC of an operand B. -/
def Opnd.fc : Opnd → BitVec 12
  | .reg _ => 0#12
  | .imm i => i.extractLsb' 0 12

/-- Decoding of the move instructions (Table 14.10), given OP. -/
def decMove (op : Nat) (r : Raw) : Except DecErr Instr :=
  match op with
  | 0x0 => do
    req (r.mod = 0#6) .modifier
    let h ← r.head
    noDst r.fd
    zeroF r.fa
    zeroF r.fb
    zeroF r.fc
    pure (.nop h)
  | 0x1 => do
    zeroM r.mod 0x1F#6
    let h ← r.head
    let d := Dst.dec r.fd
    if r.mod.getLsbD 5 then
      zeroF r.fa
      pure (.mov h d (.imm (r.fb ++ r.fc)))
    else
      zeroF r.fb
      zeroF r.fc
      pure (.mov h d (.reg (Src.dec r.fa)))
  | 0x2 => do
    req (r.mod = 0#6) .modifier
    let n ← Hint.dec r.hnt
    zeroF r.fa
    pure (.movl n (Dst.dec r.fd) (r.grd ++ r.fb ++ r.fc))
  | 0x3 => do
    req (r.mod = 0#6) .modifier
    let h ← r.head
    let d := Dst.dec r.fd
    let a := Src.dec r.fa
    zeroF r.fb
    zeroF r.fc
    pure (.unify h d a)
  | _ => .error .opcode

/-- Decoding of the integer and bit instructions (Table 14.10), given OP. -/
def decInt (op : Nat) (r : Raw) : Except DecErr Instr :=
  match op with
  | 0x8 => do
    zeroM r.mod 0x3#6
    let b ← r.opnd
    let ty := ITy.dec (r.mod.extractLsb' 3 2)
    let sat := r.mod.getLsbD 2
    let h ← r.head
    let d := Dst.dec r.fd
    let a := Src.dec r.fa
    pure (.iadd h ty sat d a b)
  | 0x9 => do
    zeroM r.mod 0x3#6
    let b ← r.opnd
    let ty := ITy.dec (r.mod.extractLsb' 3 2)
    let sat := r.mod.getLsbD 2
    let h ← r.head
    let d := Dst.dec r.fd
    let a := Src.dec r.fa
    pure (.isub h ty sat d a b)
  | 0xa => do
    let b ← r.opnd
    let ty := ITy.dec (r.mod.extractLsb' 3 2)
    let sat := r.mod.getLsbD 2
    let m ← MulMode.dec (r.mod.extractLsb' 0 2)
    let h ← r.head
    let d := Dst.dec r.fd
    let a := Src.dec r.fa
    pure (.imul h ty sat m d a b)
  | 0xb => do
    zeroM r.mod 0x20#6
    let ty := ITy.dec (r.mod.extractLsb' 3 2)
    let sat := r.mod.getLsbD 2
    let m ← MulMode.dec (r.mod.extractLsb' 0 2)
    let h ← r.head
    let d := Dst.dec r.fd
    let a := Src.dec r.fa
    let b := Src.dec r.fb
    let c := Src.dec r.fc
    pure (.imad h ty sat m d a b c)
  | 0xc => do
    zeroM r.mod 0x7#6
    let b ← r.opnd
    let ty := ITy.dec (r.mod.extractLsb' 3 2)
    let h ← r.head
    let d := Dst.dec r.fd
    let a := Src.dec r.fa
    pure (.imin h ty d a b)
  | 0xd => do
    zeroM r.mod 0x7#6
    let b ← r.opnd
    let ty := ITy.dec (r.mod.extractLsb' 3 2)
    let h ← r.head
    let d := Dst.dec r.fd
    let a := Src.dec r.fa
    pure (.imax h ty d a b)
  | 0xe => do
    zeroM r.mod 0x23#6
    let ty := ITy.dec (r.mod.extractLsb' 3 2)
    let sat := r.mod.getLsbD 2
    let h ← r.head
    let d := Dst.dec r.fd
    let a := Src.dec r.fa
    zeroF r.fb
    zeroF r.fc
    pure (.iabs h ty sat d a)
  | 0xf => do
    zeroM r.mod 0x4#6
    let b ← r.opnd
    let ty := ITy.dec (r.mod.extractLsb' 3 2)
    let k := r.mod.extractLsb' 0 2
    let h ← r.head
    let d := Dst.dec r.fd
    let a := Src.dec r.fa
    pure (.lea h ty k d a b)
  | 0x10 => do
    let op1 := Lop.dec (r.mod.extractLsb' 3 3)
    let op2 := Lop.dec (r.mod.extractLsb' 0 3)
    let h ← r.head
    let d := Dst.dec r.fd
    let a := Src.dec r.fa
    let b := Src.dec r.fb
    let c := Src.dec r.fc
    pure (.lop3 h op1 op2 d a b c)
  | 0x11 => do
    zeroM r.mod 0xf#6
    let b ← r.opnd
    let w64 := r.mod.getLsbD 4
    let h ← r.head
    let d := Dst.dec r.fd
    let a := Src.dec r.fa
    pure (.shl h w64 d a b)
  | 0x12 => do
    zeroM r.mod 0xe#6
    let b ← r.opnd
    let w64 := r.mod.getLsbD 4
    let arith := r.mod.getLsbD 0
    let h ← r.head
    let d := Dst.dec r.fd
    let a := Src.dec r.fa
    pure (.shr h w64 arith d a b)
  | 0x13 => do
    zeroM r.mod 0x3e#6
    let right := r.mod.getLsbD 0
    let h ← r.head
    let d := Dst.dec r.fd
    let a := Src.dec r.fa
    let b := Src.dec r.fb
    let c := Src.dec r.fc
    pure (.shf h right d a b c)
  | 0x14 => do
    zeroM r.mod 0x2f#6
    let w64 := r.mod.getLsbD 4
    let h ← r.head
    let d := Dst.dec r.fd
    let a := Src.dec r.fa
    zeroF r.fb
    zeroF r.fc
    pure (.popc h w64 d a)
  | 0x15 => do
    zeroM r.mod 0x2f#6
    let w64 := r.mod.getLsbD 4
    let h ← r.head
    let d := Dst.dec r.fd
    let a := Src.dec r.fa
    zeroF r.fb
    zeroF r.fc
    pure (.clz h w64 d a)
  | 0x16 => do
    zeroM r.mod 0x2f#6
    let w64 := r.mod.getLsbD 4
    let h ← r.head
    let d := Dst.dec r.fd
    let a := Src.dec r.fa
    zeroF r.fb
    zeroF r.fc
    pure (.brev h w64 d a)
  | 0x17 => do
    zeroM r.mod 0x3e#6
    let signed := r.mod.getLsbD 0
    let h ← r.head
    let d := Dst.dec r.fd
    let a := Src.dec r.fa
    let b := Src.dec r.fb
    zeroF r.fc
    pure (.bfx h signed d a b)
  | 0x18 => do
    req (r.mod = 0#6) .modifier
    let h ← r.head
    let d := Dst.dec r.fd
    let a := Src.dec r.fa
    let b := Src.dec r.fb
    let c := Src.dec r.fc
    pure (.bfi h d a b c)
  | 0x19 => do
    zeroM r.mod 0x3e#6
    let three := r.mod.getLsbD 0
    let h ← r.head
    let d := Dst.dec r.fd
    let a := Src.dec r.fa
    let b := Src.dec r.fb
    let c := Src.dec r.fc
    pure (.bil h three d a b c)
  | 0x1a => do
    zeroM r.mod 0x3e#6
    let three := r.mod.getLsbD 0
    let h ← r.head
    let d := Dst.dec r.fd
    let a := Src.dec r.fa
    let b := Src.dec r.fb
    zeroF r.fc
    pure (.bdil h three d a b)
  | 0x1b => do
    req (r.mod = 0#6) .modifier
    let h ← r.head
    let d := Dst.dec r.fd
    let a := Src.dec r.fa
    let b := Src.dec r.fb
    let c := Src.dec r.fc
    pure (.prmt h d a b c)
  | 0x1c => do
    zeroM r.mod 0x7#6
    let b ← r.opnd
    let ty := ITy.dec (r.mod.extractLsb' 3 2)
    let h ← r.head
    let d := Dst.dec r.fd
    let a := Src.dec r.fa
    pure (.cmp h ty d a b)
  | 0x1d => do
    zeroM r.mod 0x30#6
    let cc := Cc.dec (r.mod.extractLsb' 0 4)
    let h ← r.head
    let d := Dst.dec r.fd
    let a := Src.dec r.fa
    let b := Src.dec r.fb
    let c := Src.dec r.fc
    pure (.sel h cc d a b c)
  | _ => .error .opcode

/-- Decoding of the lane instructions (Table 14.10), given OP. -/
def decLane (op : Nat) (r : Raw) : Except DecErr Instr :=
  match op with
  | 0x20 => do
    zeroM r.mod 0x3c#6
    let m := ShflMode.dec (r.mod.extractLsb' 0 2)
    let h ← r.head
    let d := Dst.dec r.fd
    let a := Src.dec r.fa
    let b := Src.dec r.fb
    let c := Src.dec r.fc
    pure (.shfl h m d a b c)
  | 0x21 => do
    zeroM r.mod 0x3c#6
    let m := VoteMode.dec (r.mod.extractLsb' 0 2)
    let h ← r.head
    let d := Dst.dec r.fd
    let a := Src.dec r.fa
    zeroF r.fb
    zeroF r.fc
    pure (.vote h m d a)
  | 0x22 => do
    zeroM r.mod 0x21#6
    let op ← LaneOp.dec (r.mod.extractLsb' 1 4)
    let h ← r.head
    let d := Dst.dec r.fd
    let a := Src.dec r.fa
    zeroF r.fb
    zeroF r.fc
    pure (.lred h op d a)
  | 0x23 => do
    zeroM r.mod 0x20#6
    let op ← LaneOp.dec (r.mod.extractLsb' 1 4)
    let excl := r.mod.getLsbD 0
    let h ← r.head
    let d := Dst.dec r.fd
    let a := Src.dec r.fa
    zeroF r.fb
    zeroF r.fc
    pure (.lscan h op excl d a)
  | _ => .error .opcode

/-- Decoding of the floating-point instructions (Table 14.10), given OP. -/
def decFloat (op : Nat) (r : Raw) : Except DecErr Instr :=
  match op with
  | 0x40 => do
    zeroM r.mod 0x20#6
    let neg := r.mod.getLsbD 4
    let sat := r.mod.getLsbD 3
    let rnd ← Rnd.dec (r.mod.extractLsb' 0 3)
    let h ← r.head
    let d := Dst.dec r.fd
    let a := Src.dec r.fa
    let b := Src.dec r.fb
    zeroF r.fc
    pure (.fadd h neg sat rnd d a b)
  | 0x41 => do
    zeroM r.mod 0x20#6
    let neg := r.mod.getLsbD 4
    let sat := r.mod.getLsbD 3
    let rnd ← Rnd.dec (r.mod.extractLsb' 0 3)
    let h ← r.head
    let d := Dst.dec r.fd
    let a := Src.dec r.fa
    let b := Src.dec r.fb
    zeroF r.fc
    pure (.fmul h neg sat rnd d a b)
  | 0x42 => do
    zeroM r.mod 0x20#6
    let neg := r.mod.getLsbD 4
    let sat := r.mod.getLsbD 3
    let rnd ← Rnd.dec (r.mod.extractLsb' 0 3)
    let h ← r.head
    let d := Dst.dec r.fd
    let a := Src.dec r.fa
    let b := Src.dec r.fb
    let c := Src.dec r.fc
    pure (.ffma h neg sat rnd d a b c)
  | 0x43 => do
    req (r.mod = 0#6) .modifier
    let h ← r.head
    let d := Dst.dec r.fd
    let a := Src.dec r.fa
    let b := Src.dec r.fb
    zeroF r.fc
    pure (.fmin h d a b)
  | 0x44 => do
    req (r.mod = 0#6) .modifier
    let h ← r.head
    let d := Dst.dec r.fd
    let a := Src.dec r.fa
    let b := Src.dec r.fb
    zeroF r.fc
    pure (.fmax h d a b)
  | 0x45 => do
    req (r.mod = 0#6) .modifier
    let h ← r.head
    let d := Dst.dec r.fd
    let a := Src.dec r.fa
    let b := Src.dec r.fb
    zeroF r.fc
    pure (.fcmp h d a b)
  | 0x46 => do
    req (r.mod = 0#6) .modifier
    let h ← r.head
    let d := Dst.dec r.fd
    let a := Src.dec r.fa
    zeroF r.fb
    zeroF r.fc
    pure (.fclass h d a)
  | 0x47 => do
    zeroM r.mod 0x30#6
    let sat := r.mod.getLsbD 3
    let rnd ← Rnd.dec (r.mod.extractLsb' 0 3)
    let h ← r.head
    let d := Dst.dec r.fd
    let a := Src.dec r.fa
    zeroF r.fb
    zeroF r.fc
    pure (.frnd h sat rnd d a)
  | 0x48 => do
    zeroM r.mod 0x30#6
    let sat := r.mod.getLsbD 3
    let rnd ← Rnd.dec (r.mod.extractLsb' 0 3)
    let h ← r.head
    let d := Dst.dec r.fd
    let a := Src.dec r.fa
    let b := Src.dec r.fb
    zeroF r.fc
    pure (.fscale h sat rnd d a b)
  | 0x49 => do
    zeroM r.mod 0x30#6
    let f ← FfnOp.dec (r.mod.extractLsb' 0 4)
    let h ← r.head
    let d := Dst.dec r.fd
    let a := Src.dec r.fa
    zeroF r.fb
    zeroF r.fc
    pure (.ffn h f d a)
  | 0x4a => do
    zeroM r.mod 0x30#6
    let sat := r.mod.getLsbD 3
    let rnd ← Rnd.dec (r.mod.extractLsb' 0 3)
    let h ← r.head
    let d := Dst.dec r.fd
    let a := Src.dec r.fa
    let b := Src.dec r.fb
    zeroF r.fc
    pure (.fdiv h sat rnd d a b)
  | 0x4b => do
    zeroM r.mod 0x30#6
    let sat := r.mod.getLsbD 3
    let rnd ← Rnd.dec (r.mod.extractLsb' 0 3)
    let h ← r.head
    let d := Dst.dec r.fd
    let a := Src.dec r.fa
    zeroF r.fb
    zeroF r.fc
    pure (.fsqrt h sat rnd d a)
  | 0x4c => do
    zeroM r.mod 0x30#6
    let sat := r.mod.getLsbD 3
    let rnd ← Rnd.dec (r.mod.extractLsb' 0 3)
    let h ← r.head
    let d := Dst.dec r.fd
    let a := Src.dec r.fa
    zeroF r.fb
    req (r.fc.extractLsb' 8 4 = 7#4) .modifier
    let dst ← CvtTy.dec (r.fc.extractLsb' 4 4)
    let src ← CvtTy.dec (r.fc.extractLsb' 0 4)
    pure (.cvt h sat rnd dst src d a)
  | 0x4d => do
    let bf := r.mod.getLsbD 5
    let neg := r.mod.getLsbD 4
    let sat := r.mod.getLsbD 3
    let rnd ← Rnd.dec (r.mod.extractLsb' 0 3)
    let h ← r.head
    let d := Dst.dec r.fd
    let a := Src.dec r.fa
    let b := Src.dec r.fb
    let c := Src.dec r.fc
    pure (.pfma h bf neg sat rnd d a b c)
  | 0x4e => do
    zeroM r.mod 0x3#6
    let ta := DotTy.dec (r.mod.extractLsb' 4 2)
    let tb := DotTy.dec (r.mod.extractLsb' 2 2)
    let h ← r.head
    let d := Dst.dec r.fd
    let a := Src.dec r.fa
    let b := Src.dec r.fb
    let c := Src.dec r.fc
    pure (.dot4 h ta tb d a b c)
  | 0x4f => do
    let bf := r.mod.getLsbD 5
    let neg := r.mod.getLsbD 4
    let sat := r.mod.getLsbD 3
    let rnd ← Rnd.dec (r.mod.extractLsb' 0 3)
    let h ← r.head
    let d := Dst.dec r.fd
    let a := Src.dec r.fa
    let b := Src.dec r.fb
    let c := Src.dec r.fc
    pure (.fdot2 h bf neg sat rnd d a b c)
  | _ => .error .opcode

/-- Decoding of the matrix instructions (Table 14.10), given OP. -/
def decMatrix (op : Nat) (r : Raw) : Except DecErr Instr :=
  match op with
  | 0x60 => do
    req (r.mod = 0#6) .modifier
    let h ← r.head
    let d := Dst.dec r.fd
    let a := Src.dec r.fa
    let b := Src.dec r.fb
    zeroF r.fc
    pure (.mma h d a b)
  | 0x61 => do
    req (r.mod = 0#6) .modifier
    let h ← r.head
    let d := Dst.dec r.fd
    let a := Src.dec r.fa
    zeroF r.fb
    zeroF r.fc
    pure (.tldb h d a)
  | 0x62 => do
    req (r.mod = 0#6) .modifier
    let h ← r.head
    let d := Dst.dec r.fd
    zeroF r.fa
    zeroF r.fb
    zeroF r.fc
    pure (.azro h d)
  | 0x63 => do
    req (r.mod = 0#6) .modifier
    let h ← r.head
    let d := Dst.dec r.fd
    let a := Src.dec r.fa
    zeroF r.fb
    zeroF r.fc
    pure (.ald h d a)
  | 0x64 => do
    req (r.mod = 0#6) .modifier
    let h ← r.head
    noDst r.fd
    let a := Src.dec r.fa
    let b := Src.dec r.fb
    zeroF r.fc
    pure (.ast h a b)
  | 0x65 => do
    req (r.mod = 0#6) .modifier
    let h ← r.head
    let d := Dst.dec r.fd
    let a := Src.dec r.fa
    let b := Src.dec r.fb
    zeroF r.fc
    pure (.ard h d a b)
  | 0x66 => do
    req (r.mod = 0#6) .modifier
    let h ← r.head
    noDst r.fd
    zeroF r.fa
    zeroF r.fb
    zeroF r.fc
    pure (.mfence h)
  | _ => .error .opcode

/-- Decoding of the memory instructions (Table 14.10), given OP. -/
def decMem (op : Nat) (r : Raw) : Except DecErr Instr :=
  match op with
  | 0x80 => do
    zeroM r.mod 0x3#6
    let ls := r.mod.getLsbD 5
    let w ← Width.dec (r.mod.extractLsb' 2 3)
    let h ← r.head
    let d := Dst.dec r.fd
    let a := Src.dec r.fa
    zeroF r.fb
    let mc ← Mc.dec r.fc
    pure (.ld h ls w d a mc)
  | 0x81 => do
    zeroM r.mod 0x3#6
    let ls := r.mod.getLsbD 5
    let w ← Width.dec (r.mod.extractLsb' 2 3)
    let h ← r.head
    noDst r.fd
    let a := Src.dec r.fa
    let b := Src.dec r.fb
    let mc ← Mc.dec r.fc
    pure (.st h ls w a b mc)
  | 0x82 => do
    zeroM r.mod 0x23#6
    let w ← Width.dec (r.mod.extractLsb' 2 3)
    let h ← r.head
    let d := Dst.dec r.fd
    let a := Src.dec r.fa
    zeroF r.fb
    let mc ← Mc.dec r.fc
    pure (.ldc h w d a mc)
  | 0x83 => do
    req (r.mod = 0x10#6) .modifier
    let h ← r.head
    let d := Dst.dec r.fd
    let a := Src.dec r.fa
    let b := Src.dec r.fb
    req (r.fc.extractLsb' 4 8 = 0#8) .unused
    let k := r.fc.extractLsb' 0 4
    pure (.ldv h d a b k)
  | 0x84 => do
    req (r.mod = 0x30#6) .modifier
    let h ← r.head
    let d := Dst.dec r.fd
    let a := Src.dec r.fa
    zeroF r.fb
    let mc ← Mc.dec r.fc
    pure (.ldwf h d a mc)
  | 0x85 => do
    req (r.mod = 0x30#6) .modifier
    let h ← r.head
    let d := Dst.dec r.fd
    let a := Src.dec r.fa
    zeroF r.fb
    let mc ← Mc.dec r.fc
    pure (.ldtk h d a mc)
  | 0x86 => do
    req (r.mod = 0x30#6) .modifier
    let h ← r.head
    noDst r.fd
    let a := Src.dec r.fa
    let b := Src.dec r.fb
    let mc ← Mc.dec r.fc
    pure (.stwe h a b mc)
  | 0x87 => do
    req (r.mod.extractLsb' 3 3 = 4#3) .modifier
    let z := r.mod.getLsbD 2
    req (r.mod.extractLsb' 0 2 = 1#2 || r.mod.extractLsb' 0 2 = 2#2) .modifier
    let full := r.mod.getLsbD 0
    let h ← r.head
    noDst r.fd
    let a := Src.dec r.fa
    let b := Src.dec r.fb
    zeroF r.fc
    pure (.feset h z full a b)
  | 0x88 => do
    let ord ← Ord.dec (r.mod.extractLsb' 3 3)
    let scope ← Scope.dec (r.mod.extractLsb' 0 3)
    let h ← r.head
    noDst r.fd
    zeroF r.fa
    zeroF r.fb
    zeroF r.fc
    pure (.fence h ord scope)
  | 0x89 => do
    zeroM r.mod 0x38#6
    let scope ← Scope.dec (r.mod.extractLsb' 0 3)
    let h ← r.head
    noDst r.fd
    zeroF r.fa
    zeroF r.fb
    zeroF r.fc
    pure (.pfence h scope)
  | 0x8a => do
    let ls := r.mod.getLsbD 5
    let op ← Aop.dec (r.mod.extractLsb' 1 4)
    let w64 := r.mod.getLsbD 0
    let h ← r.head
    let d := Dst.dec r.fd
    let a := Src.dec r.fa
    let b := Src.dec r.fb
    let mc ← Mc.dec r.fc
    pure (.atom h ls op w64 d a b mc)
  | 0x8b => do
    zeroM r.mod 0x1e#6
    let ls := r.mod.getLsbD 5
    let w64 := r.mod.getLsbD 0
    let h ← r.head
    let d := Dst.dec r.fd
    let a := Src.dec r.fa
    let b := Src.dec r.fb
    let mc ← Mc.dec r.fc
    pure (.acas h ls w64 d a b mc)
  | 0x8c => do
    let ls := r.mod.getLsbD 5
    let op ← Aop.dec (r.mod.extractLsb' 1 4)
    let w64 := r.mod.getLsbD 0
    let h ← r.head
    noDst r.fd
    let a := Src.dec r.fa
    let b := Src.dec r.fb
    let mc ← Mc.dec r.fc
    pure (.red h ls op w64 a b mc)
  | 0x8d => do
    zeroM r.mod 0x3c#6
    let ty ← XTy.dec (r.mod.extractLsb' 0 2)
    let h ← r.head
    noDst r.fd
    let a := Src.dec r.fa
    let b := Src.dec r.fb
    let mc ← Mc.dec r.fc
    pure (.xadd h ty a b mc)
  | 0x8e => do
    zeroM r.mod 0x3e#6
    let clr := r.mod.getLsbD 0
    let h ← r.head
    let d := Dst.dec r.fd
    let a := Src.dec r.fa
    zeroF r.fb
    let mc ← Mc.dec r.fc
    pure (.xrd h clr d a mc)
  | _ => .error .opcode

/-- Decoding of the engine instructions (Table 14.10), given OP. -/
def decEngine (op : Nat) (r : Raw) : Except DecErr Instr :=
  match op with
  | 0xa0 => do
    zeroM r.mod 0x3c#6
    let dir := CpyDir.dec (r.mod.extractLsb' 0 2)
    let h ← r.head
    let d := Dst.dec r.fd
    let a := Src.dec r.fa
    let b := Src.dec r.fb
    let c := Src.dec r.fc
    pure (.cpy h dir d a b c)
  | 0xa1 => do
    zeroM r.mod 0x3e#6
    let mcast := r.mod.getLsbD 0
    let h ← r.head
    let d := Dst.dec r.fd
    let a := Src.dec r.fa
    let b := Src.dec r.fb
    let c := Src.dec r.fc
    pure (.tld h mcast d a b c)
  | 0xa2 => do
    req (r.mod = 0#6) .modifier
    let h ← r.head
    let d := Dst.dec r.fd
    let a := Src.dec r.fa
    let b := Src.dec r.fb
    let c := Src.dec r.fc
    pure (.tst h d a b c)
  | 0xa3 => do
    req (r.mod = 0#6) .modifier
    let h ← r.head
    let d := Dst.dec r.fd
    let a := Src.dec r.fa
    let b := Src.dec r.fb
    let c := Src.dec r.fc
    pure (.gath h d a b c)
  | 0xa4 => do
    req (r.mod = 0#6) .modifier
    let h ← r.head
    let d := Dst.dec r.fd
    let a := Src.dec r.fa
    let b := Src.dec r.fb
    let c := Src.dec r.fc
    pure (.scat h d a b c)
  | 0xa5 => do
    let kind ← CollKind.dec (r.mod.extractLsb' 3 3)
    let rop ← CollOp.dec (r.mod.extractLsb' 0 3)
    let h ← r.head
    let d := Dst.dec r.fd
    let a := Src.dec r.fa
    let b := Src.dec r.fb
    let c := Src.dec r.fc
    pure (.coll h kind rop d a b c)
  | 0xa6 => do
    zeroM r.mod 0x38#6
    let k ← CtrCls.dec (r.mod.extractLsb' 0 3)
    let h ← r.head
    noDst r.fd
    let a := Src.dec r.fa
    zeroF r.fb
    zeroF r.fc
    pure (.waitc h k a)
  | 0xa7 => do
    zeroM r.mod 0x38#6
    let k ← CtrCls.dec (r.mod.extractLsb' 0 3)
    let h ← r.head
    let d := Dst.dec r.fd
    zeroF r.fa
    zeroF r.fb
    zeroF r.fc
    pure (.cntr h k d)
  | _ => .error .opcode

/-- Decoding of the control instructions (Table 14.10), given OP. -/
def decControl (op : Nat) (r : Raw) : Except DecErr Instr :=
  match op with
  | 0xc0 => do
    req (r.mod = 0#6) .modifier
    let h ← r.head
    noDst r.fd
    zeroF r.fa
    let off := r.fb ++ r.fc
    pure (.bra h off)
  | 0xc1 => do
    req (r.mod = 0#6) .modifier
    let h ← r.head
    let d := Dst.dec r.fd
    let meet := r.fa
    let off := r.fb ++ r.fc
    pure (.brd h d meet off)
  | 0xc2 => do
    req (r.mod = 0#6) .modifier
    let h ← r.head
    noDst r.fd
    let a := Src.dec r.fa
    zeroF r.fb
    zeroF r.fc
    pure (.brx h a)
  | 0xc3 => do
    req (r.mod = 0#6) .modifier
    let h ← r.head
    let d := Dst.dec r.fd
    zeroF r.fa
    let off := r.fb ++ r.fc
    pure (.call h d off)
  | 0xc4 => do
    req (r.mod = 0#6) .modifier
    let h ← r.head
    noDst r.fd
    let a := Src.dec r.fa
    zeroF r.fb
    zeroF r.fc
    pure (.ret h a)
  | 0xc5 => do
    req (r.mod = 0#6) .modifier
    let h ← r.head
    noDst r.fd
    let a := Src.dec r.fa
    zeroF r.fb
    zeroF r.fc
    pure (.meet h a)
  | 0xc6 => do
    req (r.mod = 0#6) .modifier
    let h ← r.head
    noDst r.fd
    zeroF r.fa
    zeroF r.fb
    zeroF r.fc
    pure (.exit h)
  | 0xc7 => do
    zeroM r.mod 0x38#6
    let n := r.mod.extractLsb' 0 3
    let h ← r.head
    noDst r.fd
    zeroF r.fa
    zeroF r.fb
    zeroF r.fc
    pure (.bar h n)
  | 0xc8 => do
    req (r.mod = 0#6) .modifier
    let h ← r.head
    noDst r.fd
    zeroF r.fa
    zeroF r.fb
    zeroF r.fc
    pure (.sstep h)
  | 0xc9 => do
    req (r.mod = 0#6) .modifier
    let h ← r.head
    noDst r.fd
    let a := Src.dec r.fa
    zeroF r.fb
    zeroF r.fc
    pure (.sleep h a)
  | _ => .error .opcode

/-- Decoding of the world, poison and task instructions (Table 14.10), given OP. -/
def decWorld (op : Nat) (r : Raw) : Except DecErr Instr :=
  match op with
  | 0xe0 => do
    req (r.mod = 0#6) .modifier
    let h ← r.head
    let d := Dst.dec r.fd
    let a := Src.dec r.fa
    let b := Src.dec r.fb
    zeroF r.fc
    pure (.forkw h d a b)
  | 0xe1 => do
    req (r.mod = 0#6) .modifier
    let h ← r.head
    let d := Dst.dec r.fd
    let a := Src.dec r.fa
    let b := Src.dec r.fb
    zeroF r.fc
    pure (.choose h d a b)
  | 0xe2 => do
    req (r.mod = 0#6) .modifier
    let h ← r.head
    noDst r.fd
    let a := Src.dec r.fa
    zeroF r.fb
    zeroF r.fc
    pure (.wdrop h a)
  | 0xe3 => do
    req (r.mod = 0#6) .modifier
    let h ← r.head
    let d := Dst.dec r.fd
    let a := Src.dec r.fa
    let b := Src.dec r.fb
    zeroF r.fc
    pure (.pclr h d a b)
  | 0xe4 => do
    req (r.mod = 0#6) .modifier
    let h ← r.head
    let d := Dst.dec r.fd
    let a := Src.dec r.fa
    zeroF r.fb
    zeroF r.fc
    pure (.ptst h d a)
  | 0xe5 => do
    req (r.mod = 0#6) .modifier
    let h ← r.head
    let d := Dst.dec r.fd
    let a := Src.dec r.fa
    zeroF r.fb
    zeroF r.fc
    pure (.pset h d a)
  | 0xe6 => do
    req (r.mod = 0#6) .modifier
    let h ← r.head
    let d := Dst.dec r.fd
    let a := Src.dec r.fa
    zeroF r.fb
    zeroF r.fc
    pure (.launch h d a)
  | _ => .error .opcode

/-- Decoding of the system instructions (Table 14.10), given OP. -/
def decSystem (op : Nat) (r : Raw) : Except DecErr Instr :=
  match op with
  | 0x100 => do
    req (r.mod = 0#6) .modifier
    let h ← r.head
    noDst r.fd
    zeroF r.fa
    zeroF r.fb
    let code := r.fc
    pure (.trap h code)
  | 0x101 => do
    req (r.mod = 0#6) .modifier
    let h ← r.head
    noDst r.fd
    let a := Src.dec r.fa
    let b := Src.dec r.fb
    let n := r.fc
    pure (.svc h n a b)
  | 0x102 => do
    req (r.mod = 0#6) .modifier
    let h ← r.head
    noDst r.fd
    zeroF r.fa
    zeroF r.fb
    zeroF r.fc
    pure (.rtt h)
  | 0x103 => do
    req (r.mod = 0#6) .modifier
    let h ← r.head
    let d := Dst.dec r.fd
    zeroF r.fa
    zeroF r.fb
    let csr := r.fc
    pure (.csrr h d csr)
  | 0x104 => do
    req (r.mod = 0#6) .modifier
    let h ← r.head
    noDst r.fd
    let a := Src.dec r.fa
    zeroF r.fb
    let csr := r.fc
    pure (.csrw h csr a)
  | 0x105 => do
    req (r.mod = 0#6) .modifier
    let h ← r.head
    let d := Dst.dec r.fd
    let a := Src.dec r.fa
    zeroF r.fb
    zeroF r.fc
    pure (.cresz h d a)
  | 0x106 => do
    zeroM r.mod 0x3e#6
    let inv := r.mod.getLsbD 0
    let h ← r.head
    noDst r.fd
    let a := Src.dec r.fa
    let b := Src.dec r.fb
    zeroF r.fc
    pure (.cflush h inv a b)
  | 0x107 => do
    zeroM r.mod 0x3c#6
    let k ← TlbiKind.dec (r.mod.extractLsb' 0 2)
    let h ← r.head
    noDst r.fd
    let a := Src.dec r.fa
    let b := Src.dec r.fb
    zeroF r.fc
    pure (.tlbi h k a b)
  | _ => .error .opcode

/-- The instruction that a word's fields hold, before the checks of its form (Table 14.10). -/
def decodeRaw (r : Raw) : Except DecErr Instr :=
  let op := r.op.toNat
  if op < 0x4 then decMove op r
  else if op < 0x1e then decInt op r
  else if op < 0x24 then decLane op r
  else if op < 0x50 then decFloat op r
  else if op < 0x67 then decMatrix op r
  else if op < 0x8f then decMem op r
  else if op < 0xa8 then decEngine op r
  else if op < 0xca then decControl op r
  else if op < 0xe7 then decWorld op r
  else if op < 0x108 then decSystem op r
  else .error .opcode

/-- The fields of an instruction's word (Tables 14.3 to 14.10); an instruction without a destination has FD `0x800`. The
other steps have no word. -/
def encodeRaw : Instr → Option Raw
  | .nop h =>
    some ⟨0x000, 0#6, h.guard.enc, 0x800#12, 0#12, 0#12, 0#12, h.hint.enc⟩
  | .mov h d (.reg a) => some ⟨0x001, 0#6, h.guard.enc, d.enc, a.enc, 0#12, 0#12, h.hint.enc⟩
  | .mov h d (.imm i) =>
    some ⟨0x001, 0x20#6, h.guard.enc, d.enc, 0#12, i.extractLsb' 12 12, i.extractLsb' 0 12, h.hint.enc⟩
  | .movl n d imm =>
    some ⟨0x002, 0#6, imm.extractLsb' 24 8, d.enc, 0#12, imm.extractLsb' 12 12, imm.extractLsb' 0 12, n.enc⟩
  | .unify h d a =>
    some ⟨0x003, 0#6, h.guard.enc, d.enc, a.enc, 0#12, 0#12, h.hint.enc⟩
  | .iadd h ty sat d a b =>
    some ⟨0x008, b.iBit ++ ty.enc ++ BitVec.ofBool sat ++ 0#2, h.guard.enc, d.enc, a.enc, b.fb, b.fc, h.hint.enc⟩
  | .isub h ty sat d a b =>
    some ⟨0x009, b.iBit ++ ty.enc ++ BitVec.ofBool sat ++ 0#2, h.guard.enc, d.enc, a.enc, b.fb, b.fc, h.hint.enc⟩
  | .imul h ty sat m d a b =>
    some ⟨0x00a, b.iBit ++ ty.enc ++ BitVec.ofBool sat ++ m.enc, h.guard.enc, d.enc, a.enc, b.fb, b.fc, h.hint.enc⟩
  | .imad h ty sat m d a b c =>
    some ⟨0x00b, 0#1 ++ ty.enc ++ BitVec.ofBool sat ++ m.enc, h.guard.enc, d.enc, a.enc, b.enc, c.enc, h.hint.enc⟩
  | .imin h ty d a b =>
    some ⟨0x00c, b.iBit ++ ty.enc ++ 0#3, h.guard.enc, d.enc, a.enc, b.fb, b.fc, h.hint.enc⟩
  | .imax h ty d a b =>
    some ⟨0x00d, b.iBit ++ ty.enc ++ 0#3, h.guard.enc, d.enc, a.enc, b.fb, b.fc, h.hint.enc⟩
  | .iabs h ty sat d a =>
    some ⟨0x00e, 0#1 ++ ty.enc ++ BitVec.ofBool sat ++ 0#2, h.guard.enc, d.enc, a.enc, 0#12, 0#12, h.hint.enc⟩
  | .lea h ty k d a b =>
    some ⟨0x00f, b.iBit ++ ty.enc ++ 0#1 ++ k, h.guard.enc, d.enc, a.enc, b.fb, b.fc, h.hint.enc⟩
  | .lop3 h op1 op2 d a b c =>
    some ⟨0x010, op1.enc ++ op2.enc, h.guard.enc, d.enc, a.enc, b.enc, c.enc, h.hint.enc⟩
  | .shl h w64 d a b =>
    some ⟨0x011, b.iBit ++ BitVec.ofBool w64 ++ 0#4, h.guard.enc, d.enc, a.enc, b.fb, b.fc, h.hint.enc⟩
  | .shr h w64 arith d a b =>
    some ⟨0x012, b.iBit ++ BitVec.ofBool w64 ++ 0#3 ++ BitVec.ofBool arith, h.guard.enc, d.enc, a.enc, b.fb, b.fc, h.hint.enc⟩
  | .shf h right d a b c =>
    some ⟨0x013, 0#5 ++ BitVec.ofBool right, h.guard.enc, d.enc, a.enc, b.enc, c.enc, h.hint.enc⟩
  | .popc h w64 d a =>
    some ⟨0x014, 0#1 ++ BitVec.ofBool w64 ++ 0#4, h.guard.enc, d.enc, a.enc, 0#12, 0#12, h.hint.enc⟩
  | .clz h w64 d a =>
    some ⟨0x015, 0#1 ++ BitVec.ofBool w64 ++ 0#4, h.guard.enc, d.enc, a.enc, 0#12, 0#12, h.hint.enc⟩
  | .brev h w64 d a =>
    some ⟨0x016, 0#1 ++ BitVec.ofBool w64 ++ 0#4, h.guard.enc, d.enc, a.enc, 0#12, 0#12, h.hint.enc⟩
  | .bfx h signed d a b =>
    some ⟨0x017, 0#5 ++ BitVec.ofBool signed, h.guard.enc, d.enc, a.enc, b.enc, 0#12, h.hint.enc⟩
  | .bfi h d a b c =>
    some ⟨0x018, 0#6, h.guard.enc, d.enc, a.enc, b.enc, c.enc, h.hint.enc⟩
  | .bil h three d a b c =>
    some ⟨0x019, 0#5 ++ BitVec.ofBool three, h.guard.enc, d.enc, a.enc, b.enc, c.enc, h.hint.enc⟩
  | .bdil h three d a b =>
    some ⟨0x01a, 0#5 ++ BitVec.ofBool three, h.guard.enc, d.enc, a.enc, b.enc, 0#12, h.hint.enc⟩
  | .prmt h d a b c =>
    some ⟨0x01b, 0#6, h.guard.enc, d.enc, a.enc, b.enc, c.enc, h.hint.enc⟩
  | .cmp h ty d a b =>
    some ⟨0x01c, b.iBit ++ ty.enc ++ 0#3, h.guard.enc, d.enc, a.enc, b.fb, b.fc, h.hint.enc⟩
  | .sel h cc d a b c =>
    some ⟨0x01d, 0#2 ++ cc.enc, h.guard.enc, d.enc, a.enc, b.enc, c.enc, h.hint.enc⟩
  | .shfl h m d a b c =>
    some ⟨0x020, 0#4 ++ m.enc, h.guard.enc, d.enc, a.enc, b.enc, c.enc, h.hint.enc⟩
  | .vote h m d a =>
    some ⟨0x021, 0#4 ++ m.enc, h.guard.enc, d.enc, a.enc, 0#12, 0#12, h.hint.enc⟩
  | .lred h op d a =>
    some ⟨0x022, 0#1 ++ op.enc ++ 0#1, h.guard.enc, d.enc, a.enc, 0#12, 0#12, h.hint.enc⟩
  | .lscan h op excl d a =>
    some ⟨0x023, 0#1 ++ op.enc ++ BitVec.ofBool excl, h.guard.enc, d.enc, a.enc, 0#12, 0#12, h.hint.enc⟩
  | .fadd h neg sat rnd d a b =>
    some ⟨0x040, 0#1 ++ BitVec.ofBool neg ++ BitVec.ofBool sat ++ rnd.enc, h.guard.enc, d.enc, a.enc, b.enc, 0#12, h.hint.enc⟩
  | .fmul h neg sat rnd d a b =>
    some ⟨0x041, 0#1 ++ BitVec.ofBool neg ++ BitVec.ofBool sat ++ rnd.enc, h.guard.enc, d.enc, a.enc, b.enc, 0#12, h.hint.enc⟩
  | .ffma h neg sat rnd d a b c =>
    some ⟨0x042, 0#1 ++ BitVec.ofBool neg ++ BitVec.ofBool sat ++ rnd.enc, h.guard.enc, d.enc, a.enc, b.enc, c.enc, h.hint.enc⟩
  | .fmin h d a b =>
    some ⟨0x043, 0#6, h.guard.enc, d.enc, a.enc, b.enc, 0#12, h.hint.enc⟩
  | .fmax h d a b =>
    some ⟨0x044, 0#6, h.guard.enc, d.enc, a.enc, b.enc, 0#12, h.hint.enc⟩
  | .fcmp h d a b =>
    some ⟨0x045, 0#6, h.guard.enc, d.enc, a.enc, b.enc, 0#12, h.hint.enc⟩
  | .fclass h d a =>
    some ⟨0x046, 0#6, h.guard.enc, d.enc, a.enc, 0#12, 0#12, h.hint.enc⟩
  | .frnd h sat rnd d a =>
    some ⟨0x047, 0#2 ++ BitVec.ofBool sat ++ rnd.enc, h.guard.enc, d.enc, a.enc, 0#12, 0#12, h.hint.enc⟩
  | .fscale h sat rnd d a b =>
    some ⟨0x048, 0#2 ++ BitVec.ofBool sat ++ rnd.enc, h.guard.enc, d.enc, a.enc, b.enc, 0#12, h.hint.enc⟩
  | .ffn h f d a =>
    some ⟨0x049, 0#2 ++ f.enc, h.guard.enc, d.enc, a.enc, 0#12, 0#12, h.hint.enc⟩
  | .fdiv h sat rnd d a b =>
    some ⟨0x04a, 0#2 ++ BitVec.ofBool sat ++ rnd.enc, h.guard.enc, d.enc, a.enc, b.enc, 0#12, h.hint.enc⟩
  | .fsqrt h sat rnd d a =>
    some ⟨0x04b, 0#2 ++ BitVec.ofBool sat ++ rnd.enc, h.guard.enc, d.enc, a.enc, 0#12, 0#12, h.hint.enc⟩
  | .cvt h sat rnd dst src d a =>
    some ⟨0x04c, 0#2 ++ BitVec.ofBool sat ++ rnd.enc, h.guard.enc, d.enc, a.enc, 0#12, (7#4 ++ dst.enc ++ src.enc), h.hint.enc⟩
  | .pfma h bf neg sat rnd d a b c =>
    some ⟨0x04d, BitVec.ofBool bf ++ BitVec.ofBool neg ++ BitVec.ofBool sat ++ rnd.enc, h.guard.enc, d.enc, a.enc, b.enc, c.enc, h.hint.enc⟩
  | .dot4 h ta tb d a b c =>
    some ⟨0x04e, ta.enc ++ tb.enc ++ 0#2, h.guard.enc, d.enc, a.enc, b.enc, c.enc, h.hint.enc⟩
  | .fdot2 h bf neg sat rnd d a b c =>
    some ⟨0x04f, BitVec.ofBool bf ++ BitVec.ofBool neg ++ BitVec.ofBool sat ++ rnd.enc, h.guard.enc, d.enc, a.enc, b.enc, c.enc, h.hint.enc⟩
  | .mma h d a b =>
    some ⟨0x060, 0#6, h.guard.enc, d.enc, a.enc, b.enc, 0#12, h.hint.enc⟩
  | .tldb h d a =>
    some ⟨0x061, 0#6, h.guard.enc, d.enc, a.enc, 0#12, 0#12, h.hint.enc⟩
  | .azro h d =>
    some ⟨0x062, 0#6, h.guard.enc, d.enc, 0#12, 0#12, 0#12, h.hint.enc⟩
  | .ald h d a =>
    some ⟨0x063, 0#6, h.guard.enc, d.enc, a.enc, 0#12, 0#12, h.hint.enc⟩
  | .ast h a b =>
    some ⟨0x064, 0#6, h.guard.enc, 0x800#12, a.enc, b.enc, 0#12, h.hint.enc⟩
  | .ard h d a b =>
    some ⟨0x065, 0#6, h.guard.enc, d.enc, a.enc, b.enc, 0#12, h.hint.enc⟩
  | .mfence h =>
    some ⟨0x066, 0#6, h.guard.enc, 0x800#12, 0#12, 0#12, 0#12, h.hint.enc⟩
  | .ld h ls w d a mc =>
    some ⟨0x080, BitVec.ofBool ls ++ w.enc ++ 0#2, h.guard.enc, d.enc, a.enc, 0#12, mc.enc, h.hint.enc⟩
  | .st h ls w a b mc =>
    some ⟨0x081, BitVec.ofBool ls ++ w.enc ++ 0#2, h.guard.enc, 0x800#12, a.enc, b.enc, mc.enc, h.hint.enc⟩
  | .ldc h w d a mc =>
    some ⟨0x082, 0#1 ++ w.enc ++ 0#2, h.guard.enc, d.enc, a.enc, 0#12, mc.enc, h.hint.enc⟩
  | .ldv h d a b k =>
    some ⟨0x083, 0x10#6, h.guard.enc, d.enc, a.enc, b.enc, (0#8 ++ k), h.hint.enc⟩
  | .ldwf h d a mc =>
    some ⟨0x084, 0x30#6, h.guard.enc, d.enc, a.enc, 0#12, mc.enc, h.hint.enc⟩
  | .ldtk h d a mc =>
    some ⟨0x085, 0x30#6, h.guard.enc, d.enc, a.enc, 0#12, mc.enc, h.hint.enc⟩
  | .stwe h a b mc =>
    some ⟨0x086, 0x30#6, h.guard.enc, 0x800#12, a.enc, b.enc, mc.enc, h.hint.enc⟩
  | .feset h z full a b =>
    some ⟨0x087, 4#3 ++ BitVec.ofBool z ++ (if full then 1#2 else 2#2), h.guard.enc, 0x800#12, a.enc, b.enc, 0#12, h.hint.enc⟩
  | .fence h ord scope =>
    some ⟨0x088, ord.enc ++ scope.enc, h.guard.enc, 0x800#12, 0#12, 0#12, 0#12, h.hint.enc⟩
  | .pfence h scope =>
    some ⟨0x089, 0#3 ++ scope.enc, h.guard.enc, 0x800#12, 0#12, 0#12, 0#12, h.hint.enc⟩
  | .atom h ls op w64 d a b mc =>
    some ⟨0x08a, BitVec.ofBool ls ++ op.enc ++ BitVec.ofBool w64, h.guard.enc, d.enc, a.enc, b.enc, mc.enc, h.hint.enc⟩
  | .acas h ls w64 d a b mc =>
    some ⟨0x08b, BitVec.ofBool ls ++ 0#4 ++ BitVec.ofBool w64, h.guard.enc, d.enc, a.enc, b.enc, mc.enc, h.hint.enc⟩
  | .red h ls op w64 a b mc =>
    some ⟨0x08c, BitVec.ofBool ls ++ op.enc ++ BitVec.ofBool w64, h.guard.enc, 0x800#12, a.enc, b.enc, mc.enc, h.hint.enc⟩
  | .xadd h ty a b mc =>
    some ⟨0x08d, 0#4 ++ ty.enc, h.guard.enc, 0x800#12, a.enc, b.enc, mc.enc, h.hint.enc⟩
  | .xrd h clr d a mc =>
    some ⟨0x08e, 0#5 ++ BitVec.ofBool clr, h.guard.enc, d.enc, a.enc, 0#12, mc.enc, h.hint.enc⟩
  | .cpy h dir d a b c =>
    some ⟨0x0a0, 0#4 ++ dir.enc, h.guard.enc, d.enc, a.enc, b.enc, c.enc, h.hint.enc⟩
  | .tld h mcast d a b c =>
    some ⟨0x0a1, 0#5 ++ BitVec.ofBool mcast, h.guard.enc, d.enc, a.enc, b.enc, c.enc, h.hint.enc⟩
  | .tst h d a b c =>
    some ⟨0x0a2, 0#6, h.guard.enc, d.enc, a.enc, b.enc, c.enc, h.hint.enc⟩
  | .gath h d a b c =>
    some ⟨0x0a3, 0#6, h.guard.enc, d.enc, a.enc, b.enc, c.enc, h.hint.enc⟩
  | .scat h d a b c =>
    some ⟨0x0a4, 0#6, h.guard.enc, d.enc, a.enc, b.enc, c.enc, h.hint.enc⟩
  | .coll h kind rop d a b c =>
    some ⟨0x0a5, kind.enc ++ rop.enc, h.guard.enc, d.enc, a.enc, b.enc, c.enc, h.hint.enc⟩
  | .waitc h k a =>
    some ⟨0x0a6, 0#3 ++ k.enc, h.guard.enc, 0x800#12, a.enc, 0#12, 0#12, h.hint.enc⟩
  | .cntr h k d =>
    some ⟨0x0a7, 0#3 ++ k.enc, h.guard.enc, d.enc, 0#12, 0#12, 0#12, h.hint.enc⟩
  | .bra h off =>
    some ⟨0x0c0, 0#6, h.guard.enc, 0x800#12, 0#12, (off.extractLsb' 12 12), (off.extractLsb' 0 12), h.hint.enc⟩
  | .brd h d meet off =>
    some ⟨0x0c1, 0#6, h.guard.enc, d.enc, meet, (off.extractLsb' 12 12), (off.extractLsb' 0 12), h.hint.enc⟩
  | .brx h a =>
    some ⟨0x0c2, 0#6, h.guard.enc, 0x800#12, a.enc, 0#12, 0#12, h.hint.enc⟩
  | .call h d off =>
    some ⟨0x0c3, 0#6, h.guard.enc, d.enc, 0#12, (off.extractLsb' 12 12), (off.extractLsb' 0 12), h.hint.enc⟩
  | .ret h a =>
    some ⟨0x0c4, 0#6, h.guard.enc, 0x800#12, a.enc, 0#12, 0#12, h.hint.enc⟩
  | .meet h a =>
    some ⟨0x0c5, 0#6, h.guard.enc, 0x800#12, a.enc, 0#12, 0#12, h.hint.enc⟩
  | .exit h =>
    some ⟨0x0c6, 0#6, h.guard.enc, 0x800#12, 0#12, 0#12, 0#12, h.hint.enc⟩
  | .bar h n =>
    some ⟨0x0c7, 0#3 ++ n, h.guard.enc, 0x800#12, 0#12, 0#12, 0#12, h.hint.enc⟩
  | .sstep h =>
    some ⟨0x0c8, 0#6, h.guard.enc, 0x800#12, 0#12, 0#12, 0#12, h.hint.enc⟩
  | .sleep h a =>
    some ⟨0x0c9, 0#6, h.guard.enc, 0x800#12, a.enc, 0#12, 0#12, h.hint.enc⟩
  | .forkw h d a b =>
    some ⟨0x0e0, 0#6, h.guard.enc, d.enc, a.enc, b.enc, 0#12, h.hint.enc⟩
  | .choose h d a b =>
    some ⟨0x0e1, 0#6, h.guard.enc, d.enc, a.enc, b.enc, 0#12, h.hint.enc⟩
  | .wdrop h a =>
    some ⟨0x0e2, 0#6, h.guard.enc, 0x800#12, a.enc, 0#12, 0#12, h.hint.enc⟩
  | .pclr h d a b =>
    some ⟨0x0e3, 0#6, h.guard.enc, d.enc, a.enc, b.enc, 0#12, h.hint.enc⟩
  | .ptst h d a =>
    some ⟨0x0e4, 0#6, h.guard.enc, d.enc, a.enc, 0#12, 0#12, h.hint.enc⟩
  | .pset h d a =>
    some ⟨0x0e5, 0#6, h.guard.enc, d.enc, a.enc, 0#12, 0#12, h.hint.enc⟩
  | .launch h d a =>
    some ⟨0x0e6, 0#6, h.guard.enc, d.enc, a.enc, 0#12, 0#12, h.hint.enc⟩
  | .trap h code =>
    some ⟨0x100, 0#6, h.guard.enc, 0x800#12, 0#12, 0#12, code, h.hint.enc⟩
  | .svc h n a b =>
    some ⟨0x101, 0#6, h.guard.enc, 0x800#12, a.enc, b.enc, n, h.hint.enc⟩
  | .rtt h =>
    some ⟨0x102, 0#6, h.guard.enc, 0x800#12, 0#12, 0#12, 0#12, h.hint.enc⟩
  | .csrr h d csr =>
    some ⟨0x103, 0#6, h.guard.enc, d.enc, 0#12, 0#12, csr, h.hint.enc⟩
  | .csrw h csr a =>
    some ⟨0x104, 0#6, h.guard.enc, 0x800#12, a.enc, 0#12, csr, h.hint.enc⟩
  | .cresz h d a =>
    some ⟨0x105, 0#6, h.guard.enc, d.enc, a.enc, 0#12, 0#12, h.hint.enc⟩
  | .cflush h inv a b =>
    some ⟨0x106, 0#5 ++ BitVec.ofBool inv, h.guard.enc, 0x800#12, a.enc, b.enc, 0#12, h.hint.enc⟩
  | .tlbi h k a b =>
    some ⟨0x107, 0#4 ++ k.enc, h.guard.enc, 0x800#12, a.enc, b.enc, 0#12, h.hint.enc⟩
  | _ => none

/-- The instruction that a 96-bit word is, or the reason why it raises `ILLOP`. -/
def decodeWord (w : BitVec 96) : Except DecErr Instr := do
  let i ← decodeRaw (Raw.ofWord w)
  req i.legal .form
  pure i

/-- The instruction at the head of a list of bytes, and the bytes after it (R325: 12 bytes, little-endian). -/
def decode (l : List Byte) : Except DecErr (Instr × List Byte) :=
  if l.length < 12 then .error .truncated
  else do
    let i ← decodeWord (BitVec.ofNat 96 (leNat (l.take 12)))
    pure (i, l.drop 12)

/-- The 96-bit word of an instruction. -/
def encodeWord (i : Instr) : Option (BitVec 96) := (encodeRaw i).map Raw.word

/-- The 12 bytes of an instruction as memory holds them (R325). -/
def encode (i : Instr) : Option (List Byte) := (encodeWord i).map fun w => leBytes 12 w.toNat

/-- What the decoder reads from an instruction whose bits are `w`, bit 0 the least significant bit of the first byte. -/
def decodeTableWord (_nbits w : Nat) : Option Instr :=
  match decode (leBytes 12 w) with
  | .ok (i, _) => some i
  | .error _ => none

end Sys2Proof
end

