-- ==== Sys2Proof/Config.lean ====
section
/-!
DEFINITION. Config.lean: what the spec leaves open, as constants without a body (free values), and the published sizes of
the package. Nothing can be proved of the value of an opaque constant.
-/
namespace Sys2Proof.Config

/-- Clocks past a best figure, taken modulo the width of the published pair (R6; log entry 4). -/
opaque jitter : Nat → Nat

/-- A byte that the spec calls undefined (R250, R374; log entry 4). -/
opaque anyByte : Nat → Byte

/-- A word that the spec calls undefined or leaves unstated (log entry 4). -/
opaque anyWord : Nat → Word

/-- A choice that the spec leaves to the device, such as which TLB entry is replaced (R233; log entry 4). -/
opaque pick : Nat → Nat

/-- The BAR 0 offset that the firmware's register map gives a `CSRR`/`CSRW` number in kernel mode; the spec leaves the map
to the firmware (R333; log entry 4). -/
opaque firmwareCsr : BitVec 12 → Nat

/-- Whether a service of the cell firmware's table is view-safe (R459; log entry 4). -/
opaque viewSafe : Nat → Bool

/-- The home slice that serves a sector; the spec gives no map (R175; log entry 4). -/
opaque slice : Nat → Nat

/-- Byte of a poisoned sector that the spec calls undefined: which sector write, which byte (R250; log entry 4). -/
opaque poisonByte : Nat → Nat → Byte

/-- Which of a die's four fabric ports takes the requests for a 256-byte line; the spec gives no map (R217; log entry 82). -/
opaque linePort : Nat → Nat

/-- The end-to-end CRC of a sector; the spec gives no polynomial (R216; log entry 4). -/
opaque sectorCrc : List Byte → Word

/-- Bytes of the LPDDR-6 (0) and of the expander on link k (k + 1) that are populated from the start of their range (R483; log entry 2). -/
opaque populated : Nat → Nat

/-- Byte `n` of the signature that the device's identity key gives for a message (R301, R311; log entry 75). -/
opaque signature : List Byte → Nat → Byte

/-- Whether a trusted key list holds a key with a hash, under which a signature of a message is good: list, hash, message, signature
(R302; log entry 75). -/
opaque trusted : List Byte → List Byte → List Byte → List Byte → Bool

/-- Byte `n` of the SHA-256 of the public key of the device identity (R301; log entry 75). -/
opaque keyHash : Nat → Byte

/-- Byte `n` of the device's certificate chain, and the number of its bytes (R311; log entry 75). -/
opaque certByte : Nat → Byte

/-- The bytes of the device's certificate chain (R311; log entry 75). -/
opaque certBytes : Nat

/-- The SHA-256 of the boot ROM (R311; log entry 75). -/
opaque romHash : BitVec 256

/-- Rods of a frame (R10). -/
def rods : Nat := 16

/-- Group slots of a rod (R63). -/
def slotsPerRod : Nat := 64

/-- Groups in the active set of a rod (R67). -/
def activeSlots : Nat := 8

/-- Entries of a rod's store buffer (R456). -/
def storeEntries : Nat := 64

/-- Matrix queue entries of a rod (R138). -/
def mxEntries : Nat := 4

/-- Continuation slots of a helper core (R32). -/
def helperSlots : Nat := 32

/-- Key of the first helper continuation among the groups; group slots of frames lie below it. -/
def contBase : Nat := 2 ^ 20

end Sys2Proof.Config
end

