-- ==== Sys2Proof/Machine/Act.lean ====
section
/-!
DEFINITION. Act.lean: the primitive changes of State, and how a meaning is made of them. Every step of the machine is a
list of acts applied in order, so what holds after every act holds after every step.
-/
namespace Sys2Proof.Machine

/-- One primitive change of State: a field set, an entry of a map put (`some`) or removed (`none`), one byte of memory
stored, one sector poisoned or made clean. -/
inductive Act where
  | now (x : Nat)
  | ftOff (x : Nat)
  | power (x : Power)
  | agenda (x : List Instr)
  | timers (x : List (Nat × Instr))
  | turns (x : List Nat)
  | cur (x : Nat)
  | free (x : Nat)
  | ids (x : Nat)
  | outbox (x : List OutMsg)
  | regions (x : List Region)
  | waitEv (x : List (List Byte))
  | mig (x : List MigRange)
  | pre (x : List Preempt)
  | twin (x : Twin)
  | spdm (x : Spdm)
  | fwq (x : List (List Byte))
  | measure (x : List (BitVec 256))
  | idKeyOk (x : Bool)
  | kat (x : Bool)
  | hgone (x : List Nat)
  | byte (a : Nat) (b : Byte)
  | bad (sec : Nat) (x : Option Word)
  | group (k : Nat) (x : Option Group)
  | team (k : Nat) (x : Option Team)
  | node (k : Nat) (x : Option Node)
  | ctx (k : Nat) (x : Option Ctx)
  | queue (k : Nat) (x : Option Queue)
  | rod (k : Nat) (x : Option Rod)
  | mx (k : Nat) (x : Option (List MxOp))
  | op (k : Nat) (x : Option Op)
  | ways (k : Nat) (x : Option Nat)
  | spare (k : Nat) (x : Option Nat)
  | orig (k : Nat) (x : Option (BitVec 19))
  | tlb (k : Nat) (x : Option (List TlbE))
  | walk (k : Nat) (x : Option (List WalkE))
  | ccache (k : Nat) (x : Option (AMap Sector))
  | view (k : Nat) (x : Option View)
  | fork (k : Nat) (x : Option Fork)
  | fr (k : Nat) (x : Option FRec)
  | waitRec (k : Nat) (x : Option (List FRec))
  | l1 (k : Nat) (x : Option (AMap Sector))
  | marks (k : Nat) (x : Option (List Nat))
  | beads (k : Nat) (x : Option Beads)
  | breq (k : Nat) (x : Option BeadReq)
  | dir (k : Nat) (x : Option Dir)
  | trans (k : Nat) (x : Option Trans)
  | rdc (k : Nat) (x : Option (AMap Sector))
  | l2 (k : Nat) (x : Option (AMap Nat))
  | merge (k : Nat) (x : Option Merge)
  | port (k : Nat) (x : Option LinkSt)
  | seen (k : Nat) (x : Option Nat)
  | saved (k : Nat) (x : Option Saved)
  | ck (k : Nat) (x : Option Ckpt)
  | sys (k : Nat) (x : Option (BitVec 64))
  deriving DecidableEq, Repr

/-- `m` with `k` put or removed. -/
def setO {α : Type} (m : AMap α) (k : Nat) : Option α → AMap α
  | some a => m.put k a
  | none => m.del k

/-- Memory with the byte `b` at `a`. An unlisted byte reads 0, so writing 0 removes the entry (log entry 5). -/
def Mem.setByte (m : Mem) (a : Nat) (b : Byte) : Mem :=
  { m with cells := setO m.cells a (if b = 0#8 then none else some b) }

/-- The byte of memory at `a`. -/
def Mem.byte (m : Mem) (a : Nat) : Byte := AMap.findD m.cells a 0#8

/-- The canonical form of memory: addresses rise strictly, and no entry equals what an unlisted address reads as. -/
def Mem.wf (m : Mem) : Bool := AMap.wf m.cells && m.cells.all fun c => c.2 ≠ 0#8

/-- The state after one act. -/
def State.apply (s : State) : Act → State
  | .now x => { s with now := x }
  | .ftOff x => { s with ftOff := x }
  | .power x => { s with power := x }
  | .agenda x => { s with agenda := x }
  | .timers x => { s with timers := x }
  | .turns x => { s with turns := x }
  | .cur x => { s with cur := x }
  | .free x => { s with free := x }
  | .ids x => { s with ids := x }
  | .outbox x => { s with outbox := x }
  | .regions x => { s with regions := x }
  | .waitEv x => { s with waitEv := x }
  | .mig x => { s with mig := x }
  | .pre x => { s with pre := x }
  | .twin x => { s with twin := x }
  | .spdm x => { s with spdm := x }
  | .fwq x => { s with fwq := x }
  | .measure x => { s with measure := x }
  | .idKeyOk x => { s with idKeyOk := x }
  | .kat x => { s with kat := x }
  | .hgone x => { s with mem := { s.mem with hgone := x } }
  | .byte a b => { s with mem := s.mem.setByte a b }
  | .bad k x => { s with mem := { s.mem with bad := setO s.mem.bad k x } }
  | .group k x => { s with groups := setO s.groups k x }
  | .team k x => { s with teams := setO s.teams k x }
  | .node k x => { s with nodes := setO s.nodes k x }
  | .ctx k x => { s with ctxs := setO s.ctxs k x }
  | .queue k x => { s with queues := setO s.queues k x }
  | .rod k x => { s with rods := setO s.rods k x }
  | .mx k x => { s with mxq := setO s.mxq k x }
  | .op k x => { s with ops := setO s.ops k x }
  | .ways k x => { s with ways := setO s.ways k x }
  | .spare k x => { s with spare := setO s.spare k x }
  | .orig k x => { s with orig := setO s.orig k x }
  | .tlb k x => { s with tlb := setO s.tlb k x }
  | .walk k x => { s with walk := setO s.walk k x }
  | .ccache k x => { s with ccache := setO s.ccache k x }
  | .view k x => { s with views := setO s.views k x }
  | .fork k x => { s with forks := setO s.forks k x }
  | .fr k x => { s with recs := setO s.recs k x }
  | .waitRec k x => { s with waitRec := setO s.waitRec k x }
  | .l1 k x => { s with l1 := setO s.l1 k x }
  | .marks k x => { s with marks := setO s.marks k x }
  | .beads k x => { s with beads := setO s.beads k x }
  | .breq k x => { s with breqs := setO s.breqs k x }
  | .dir k x => { s with dir := setO s.dir k x }
  | .trans k x => { s with trans := setO s.trans k x }
  | .rdc k x => { s with rdc := setO s.rdc k x }
  | .l2 k x => { s with l2 := setO s.l2 k x }
  | .merge k x => { s with merge := setO s.merge k x }
  | .port k x => { s with ports := setO s.ports k x }
  | .seen k x => { s with seen := setO s.seen k x }
  | .saved k x => { s with saved := setO s.saved k x }
  | .ck k x => { s with ck := setO s.ck k x }
  | .sys k x => { s with sys := setO s.sys k x }

/-- The state after a list of acts, in order. -/
def State.run (s : State) (l : List Act) : State := l.foldl State.apply s

/-- An effect: the acts that it makes of a state. -/
abbrev Eff := State → List Act

/-- No effect. -/
def skip : Eff := fun _ => []

/-- One act. -/
def act (a : Act) : Eff := fun _ => [a]

/-- `a`, then `b` on the state that `a` leaves. -/
def andThen (a b : Eff) : Eff := fun s =>
  let l := a s
  l ++ b (s.run l)

/-- Effects in order. -/
def seqs : List Eff → Eff
  | [] => skip
  | a :: l => andThen a (seqs l)

/-- `f` of every entry of `l`, in order. -/
def each {α : Type} (l : List α) (f : α → Eff) : Eff := seqs (l.map f)

/-- `e` if `b` holds. -/
def when (b : Bool) (e : Eff) : Eff := if b then e else skip

/-- An effect that depends on the state. -/
def on (f : State → Eff) : Eff := fun s => f s s

/-- `f` of what an option holds. -/
def onSome {α : Type} (o : Option α) (f : α → Eff) : Eff :=
  match o with
  | some a => f a
  | none => skip

/-- The next state that the effect `e` makes of `s`. -/
def fire (s : State) (e : Eff) : Host.Outcome State Fault Refusal := .next (s.run (e s))

/-- A step that comes from outside the package: while the device is held in reset it does nothing (R24). -/
def outside (s : State) (e : Eff) : Host.Outcome State Fault Refusal := fire s (when (s.power ≠ .held) e)

/-- A fresh number, which `f` uses. -/
def fresh (f : Nat → Eff) : Eff := fun s => .ids (s.ids + 1) :: f s.ids (s.apply (.ids (s.ids + 1)))

/-- A free value's number, which `f` uses (log entry 4). -/
def freely (f : Nat → Eff) : Eff := fun s => .free (s.free + 1) :: f s.free (s.apply (.free (s.free + 1)))

/-- `groups` entry `k`, if there is one, changed by `f`. -/
def upGroup (k : Nat) (f : Group → Group) : Eff := fun s =>
  match s.groups.find k with
  | some x => [.group k (some (f x))]
  | none => []

/-- `teams` entry `k`, if there is one, changed by `f`. -/
def upTeam (k : Nat) (f : Team → Team) : Eff := fun s =>
  match s.teams.find k with
  | some x => [.team k (some (f x))]
  | none => []

/-- `nodes` entry `k`, if there is one, changed by `f`. -/
def upNode (k : Nat) (f : Node → Node) : Eff := fun s =>
  match s.nodes.find k with
  | some x => [.node k (some (f x))]
  | none => []

/-- `ctxs` entry `k`, if there is one, changed by `f`. -/
def upCtx (k : Nat) (f : Ctx → Ctx) : Eff := fun s =>
  match s.ctxs.find k with
  | some x => [.ctx k (some (f x))]
  | none => []

/-- `queues` entry `k`, if there is one, changed by `f`. -/
def upQueue (k : Nat) (f : Queue → Queue) : Eff := fun s =>
  match s.queues.find k with
  | some x => [.queue k (some (f x))]
  | none => []

/-- `rods` entry `k`, if there is one, changed by `f`. -/
def upRod (k : Nat) (f : Rod → Rod) : Eff := fun s =>
  match s.rods.find k with
  | some x => [.rod k (some (f x))]
  | none => []

/-- `mxq` entry `k`, if there is one, changed by `f`. -/
def upMx (k : Nat) (f : List MxOp → List MxOp) : Eff := fun s =>
  match s.mxq.find k with
  | some x => [.mx k (some (f x))]
  | none => []

/-- `ops` entry `k`, if there is one, changed by `f`. -/
def upOp (k : Nat) (f : Op → Op) : Eff := fun s =>
  match s.ops.find k with
  | some x => [.op k (some (f x))]
  | none => []

/-- `ways` entry `k`, if there is one, changed by `f`. -/
def upWays (k : Nat) (f : Nat → Nat) : Eff := fun s =>
  match s.ways.find k with
  | some x => [.ways k (some (f x))]
  | none => []

/-- `spare` entry `k`, if there is one, changed by `f`. -/
def upSpare (k : Nat) (f : Nat → Nat) : Eff := fun s =>
  match s.spare.find k with
  | some x => [.spare k (some (f x))]
  | none => []

/-- `orig` entry `k`, if there is one, changed by `f`. -/
def upOrig (k : Nat) (f : BitVec 19 → BitVec 19) : Eff := fun s =>
  match s.orig.find k with
  | some x => [.orig k (some (f x))]
  | none => []

/-- `tlb` entry `k`, if there is one, changed by `f`. -/
def upTlb (k : Nat) (f : List TlbE → List TlbE) : Eff := fun s =>
  match s.tlb.find k with
  | some x => [.tlb k (some (f x))]
  | none => []

/-- `walk` entry `k`, if there is one, changed by `f`. -/
def upWalk (k : Nat) (f : List WalkE → List WalkE) : Eff := fun s =>
  match s.walk.find k with
  | some x => [.walk k (some (f x))]
  | none => []

/-- `ccache` entry `k`, if there is one, changed by `f`. -/
def upCcache (k : Nat) (f : AMap Sector → AMap Sector) : Eff := fun s =>
  match s.ccache.find k with
  | some x => [.ccache k (some (f x))]
  | none => []

/-- `views` entry `k`, if there is one, changed by `f`. -/
def upView (k : Nat) (f : View → View) : Eff := fun s =>
  match s.views.find k with
  | some x => [.view k (some (f x))]
  | none => []

/-- `forks` entry `k`, if there is one, changed by `f`. -/
def upFork (k : Nat) (f : Fork → Fork) : Eff := fun s =>
  match s.forks.find k with
  | some x => [.fork k (some (f x))]
  | none => []

/-- `recs` entry `k`, if there is one, changed by `f`. -/
def upFr (k : Nat) (f : FRec → FRec) : Eff := fun s =>
  match s.recs.find k with
  | some x => [.fr k (some (f x))]
  | none => []

/-- `waitRec` entry `k`, if there is one, changed by `f`. -/
def upWaitRec (k : Nat) (f : List FRec → List FRec) : Eff := fun s =>
  match s.waitRec.find k with
  | some x => [.waitRec k (some (f x))]
  | none => []

/-- `l1` entry `k`, if there is one, changed by `f`. -/
def upL1 (k : Nat) (f : AMap Sector → AMap Sector) : Eff := fun s =>
  match s.l1.find k with
  | some x => [.l1 k (some (f x))]
  | none => []

/-- `marks` entry `k`, if there is one, changed by `f`. -/
def upMarks (k : Nat) (f : List Nat → List Nat) : Eff := fun s =>
  match s.marks.find k with
  | some x => [.marks k (some (f x))]
  | none => []

/-- `beads` entry `k`, if there is one, changed by `f`. -/
def upBeads (k : Nat) (f : Beads → Beads) : Eff := fun s =>
  match s.beads.find k with
  | some x => [.beads k (some (f x))]
  | none => []

/-- `breqs` entry `k`, if there is one, changed by `f`. -/
def upBreq (k : Nat) (f : BeadReq → BeadReq) : Eff := fun s =>
  match s.breqs.find k with
  | some x => [.breq k (some (f x))]
  | none => []

/-- `dir` entry `k`, if there is one, changed by `f`. -/
def upDir (k : Nat) (f : Dir → Dir) : Eff := fun s =>
  match s.dir.find k with
  | some x => [.dir k (some (f x))]
  | none => []

/-- `trans` entry `k`, if there is one, changed by `f`. -/
def upTrans (k : Nat) (f : Trans → Trans) : Eff := fun s =>
  match s.trans.find k with
  | some x => [.trans k (some (f x))]
  | none => []

/-- `rdc` entry `k`, if there is one, changed by `f`. -/
def upRdc (k : Nat) (f : AMap Sector → AMap Sector) : Eff := fun s =>
  match s.rdc.find k with
  | some x => [.rdc k (some (f x))]
  | none => []

/-- `l2` entry `k`, if there is one, changed by `f`. -/
def upL2 (k : Nat) (f : AMap Nat → AMap Nat) : Eff := fun s =>
  match s.l2.find k with
  | some x => [.l2 k (some (f x))]
  | none => []

/-- `merge` entry `k`, if there is one, changed by `f`. -/
def upMerge (k : Nat) (f : Merge → Merge) : Eff := fun s =>
  match s.merge.find k with
  | some x => [.merge k (some (f x))]
  | none => []

/-- `ports` entry `k`, if there is one, changed by `f`. -/
def upPort (k : Nat) (f : LinkSt → LinkSt) : Eff := fun s =>
  match s.ports.find k with
  | some x => [.port k (some (f x))]
  | none => []

/-- `seen` entry `k`, if there is one, changed by `f`. -/
def upSeen (k : Nat) (f : Nat → Nat) : Eff := fun s =>
  match s.seen.find k with
  | some x => [.seen k (some (f x))]
  | none => []

/-- `saved` entry `k`, if there is one, changed by `f`. -/
def upSaved (k : Nat) (f : Saved → Saved) : Eff := fun s =>
  match s.saved.find k with
  | some x => [.saved k (some (f x))]
  | none => []

/-- `ck` entry `k`, if there is one, changed by `f`. -/
def upCk (k : Nat) (f : Ckpt → Ckpt) : Eff := fun s =>
  match s.ck.find k with
  | some x => [.ck k (some (f x))]
  | none => []

/-- `sys` entry `k`, if there is one, changed by `f`. -/
def upSys (k : Nat) (f : BitVec 64 → BitVec 64) : Eff := fun s =>
  match s.sys.find k with
  | some x => [.sys k (some (f x))]
  | none => []

end Sys2Proof.Machine
end

