-- ==== Sys2Proof/Machine/Csr.lean ====
section
/-!
DEFINITION. Csr.lean: the system CSRs at their offsets in BAR 0 (Table 13.8), with their reset values and fields, and what they say of the
packages of the shared space: numbers, cells, which are gone and which can be reached (R212, R217, R222, R223).
-/
namespace Sys2Proof.Machine

/-- Offset of `QTBASE`. -/
def offQTBASE : Nat := 0x00
/-- Offset of `FWTBASE`. -/
def offFWTBASE : Nat := 0x08
/-- Offset of `POTBASE`. -/
def offPOTBASE : Nat := 0x10
/-- Offset of `TOUT`. -/
def offTOUT : Nat := 0x18
/-- Offset of `CELLCFG`. -/
def offCELLCFG : Nat := 0x20
/-- Offset of `DRAINDL`. -/
def offDRAINDL : Nat := 0x28
/-- Offset of `CUTDL`. -/
def offCUTDL : Nat := 0x30
/-- Offset of `PCMD`. -/
def offPCMD : Nat := 0x38
/-- Offset of `VWCMD`. -/
def offVWCMD : Nat := 0x40
/-- Offset of `CKCMD`. -/
def offCKCMD : Nat := 0x48
/-- Offset of `TKLBASE`. -/
def offTKLBASE : Nat := 0x50
/-- Offset of `TWINCFG`. -/
def offTWINCFG : Nat := 0x58
/-- Offset of `MIGSRC`. -/
def offMIGSRC : Nat := 0x60
/-- Offset of `MIGDST`. -/
def offMIGDST : Nat := 0x68
/-- Offset of `MIGCTL`. -/
def offMIGCTL : Nat := 0x70
/-- Offset of `HGBASE`. -/
def offHGBASE : Nat := 0x78
/-- Offset of `HGCMD`. -/
def offHGCMD : Nat := 0x80
/-- Offset of `EQBASE`. -/
def offEQBASE : Nat := 0x88
/-- Offset of `EQCTL`. -/
def offEQCTL : Nat := 0x90
/-- Offset of `EQWR`. -/
def offEQWR : Nat := 0x98
/-- Offset of `EQRD`. -/
def offEQRD : Nat := 0xA0
/-- Offset of `EQLOST`. -/
def offEQLOST : Nat := 0xA8
/-- Offset of `CELLDN`k. -/
def offCELLDN (k : Nat) : Nat := 0x100 + 8 * k
/-- Offset of `CELLRA`k. -/
def offCELLRA (k : Nat) : Nat := 0x140 + 8 * k
/-- Offset of partition n's block. -/
def offPart (n : Nat) : Nat := 0x100000 + 0x10000 * n
/-- Offset of `PARTCFG`n. -/
def offPARTCFG (n : Nat) : Nat := offPart n
/-- Offset of `XLBASE` of partition n. -/
def offXLBASE (n : Nat) : Nat := offPart n + 0x08
/-- Offset of `CSABASE` of partition n. -/
def offCSABASE (n : Nat) : Nat := offPart n + 0x10
/-- Offset of `VOABASE` of partition n. -/
def offVOABASE (n : Nat) : Nat := offPart n + 0x18
/-- Offset of `VOASIZE` of partition n. -/
def offVOASIZE (n : Nat) : Nat := offPart n + 0x20
/-- Offset of `FQBASE` of partition n. -/
def offFQBASE (n : Nat) : Nat := offPart n + 0x28
/-- Offset of `FQCTL` of partition n. -/
def offFQCTL (n : Nat) : Nat := offPart n + 0x30
/-- Offset of `FQWR` of partition n. -/
def offFQWR (n : Nat) : Nat := offPart n + 0x38
/-- Offset of `FQRD` of partition n. -/
def offFQRD (n : Nat) : Nat := offPart n + 0x40
/-- Offset of `FQCMD` of partition n. -/
def offFQCMD (n : Nat) : Nat := offPart n + 0x48
/-- Offset of `FQSTAT` of partition n. -/
def offFQSTAT (n : Nat) : Nat := offPart n + 0x50
/-- Offset of `ERRCNT`n of die d. -/
def offERRCNT (d n : Nat) : Nat := 0x200000 + 0x1000 * d + 8 * n
/-- Offset of `ERRTHR`n of die d. -/
def offERRTHR (d n : Nat) : Nat := 0x200000 + 0x1000 * d + 0x40 + 8 * n
/-- Offset of slot k of `LANEFLAG` of frame f. -/
def offLANEFLAG (f k : Nat) : Nat := 0x400000 + 0x100 * f + 8 * k
/-- Offset of slot k of `REPLIST` of frame f. -/
def offREPLIST (f k : Nat) : Nat := 0x400000 + 0x100 * f + 0x40 + 8 * k

/-- The block offset of an address in the partition blocks, if it lies in one. -/
def partBlock (off : Nat) : Option (Nat × Nat) :=
  if 0x100000 ≤ off && off < 0x200000 then some ((off - 0x100000) / 0x10000, (off - 0x100000) % 0x10000) else none

/-- Width in bits of the system CSR at an offset; 0 where Table 13.8 assigns none. -/
def sysWidth (off : Nat) : Nat :=
  if off % 8 ≠ 0 then 0
  else match partBlock off with
    | some (_, b) =>
      if b = 0 || b = 8 || b = 0x10 || b = 0x18 || b = 0x28 || b = 0x48 then 64
      else if b = 0x20 || b = 0x30 || b = 0x38 || b = 0x40 || b = 0x50 then 32 else 0
    | none =>
      if off ≤ 0x10 || off = 0x38 || off = 0x48 || off = 0x50 || off = 0x60 || off = 0x68 || (0x78 ≤ off && off ≤ 0x88) then 64
      else if off ≤ 0xA8 then 32
      else if 0x100 ≤ off && off < 0x180 then 32
      else if 0x200000 ≤ off && off < 0x204000 && (off - 0x200000) % 0x1000 < 0x80 then 32
      else if 0x400000 ≤ off && off < 0x410000 && (off - 0x400000) % 0x100 < 0x80 then 64
      else 0

/-- Reset value of the system CSR at an offset: the stated ones, and 0 where the spec states 0 or none (log entry 6). -/
def sysReset (off : Nat) : BitVec 64 :=
  if off = offTOUT then 1000#64
  else if off = offCELLCFG then 10#64 <<< 16
  else if off = offDRAINDL then 200#64
  else if off = offCUTDL then 100#64
  else if off = offEQCTL then 6#64
  else match partBlock off with
    | some (_, b) => if b = 0 then 100#64 <<< 28 ||| 23#64 <<< 44 else if b = 0x30 then 6#64 else 0#64
    | none => 0#64

/-- The value of a system CSR. -/
def State.csr (s : State) (off : Nat) : BitVec 64 := s.sys.findD off (sysReset off)

/-- Bits `[hi:lo]` of a system CSR. -/
def State.csrBits (s : State) (off hi lo : Nat) : Nat := bitsOf (s.csr off).toNat hi lo

/-- A system CSR set to a value. -/
def setCsr (off : Nat) (v : BitVec 64) : Eff := act (.sys off (some v))

/-- `v` with bits `[hi:lo]` replaced by `x`. -/
def putBits (v : BitVec 64) (hi lo x : Nat) : BitVec 64 :=
  let m : BitVec 64 := (BitVec.ofNat 64 (2 ^ (hi + 1 - lo) - 1)) <<< lo
  (v &&& ~~~ m) ||| ((BitVec.ofNat 64 x <<< lo) &&& m)

/-- Bits `[hi:lo]` of a system CSR set to `x`. -/
def setCsrBits (off hi lo x : Nat) : Eff := on fun s => setCsr off (putBits (s.csr off) hi lo x)

/-- `EN` of a partition (Table 13.7). -/
def State.partEn (s : State) (n : Nat) : Bool := s.csrBits (offPARTCFG n) 0 0 = 1
/-- `FUNC` of a partition. -/
def State.partFunc (s : State) (n : Nat) : Nat := s.csrBits (offPARTCFG n) 7 1
/-- `CTX` of a partition. -/
def State.partCtx (s : State) (n : Nat) : Nat := s.csrBits (offPARTCFG n) 23 8
/-- `NSTORE` of a partition. -/
def State.partStore (s : State) (n : Nat) : Nat := s.csrBits (offPARTCFG n) 27 24
/-- The full/empty timeout of a partition in clocks (R158): `FETMO` × 10 µs. -/
def State.fetmo (s : State) (n : Nat) : Nat := s.csrBits (offPARTCFG n) 41 28 * 10000
/-- `PAIRED` of a partition. -/
def State.partPaired (s : State) (n : Nat) : Bool := s.csrBits (offPARTCFG n) 43 43 = 1
/-- The priority ceiling of a partition (R62). -/
def State.pceil (s : State) (n : Nat) : Nat := s.csrBits (offPARTCFG n) 48 44

/-- Fabric time in ns (R219, R316). -/
def State.ftime (s : State) : Nat := s.now + s.ftOff

/-- The package's own number (R212). -/
def State.ownPkg (s : State) : Nat := s.csrBits offCELLCFG 9 2

/-- The cell of a package (R212). -/
def State.cellOf (s : State) (pkg : Nat) : Nat := pkg / 2 ^ s.csrBits offCELLCFG 1 0

/-- Whether a cell has been declared dead (R222, R225). -/
def State.deadCell (s : State) (cell : Nat) : Bool := s.csrBits (offCELLDN (cell / 32)) (cell % 32) (cell % 32) = 1

/-- Key under which `seen` lists the packages of the own cell that are lost (R223). -/
def lostKey (pkg : Nat) : Nat := 2 ^ 22 + pkg

/-- Whether a package is gone: its cell is dead (R225), or it is a lost package of the own cell (R223). -/
def State.gonePkg (s : State) (pkg : Nat) : Bool := s.deadCell (s.cellOf pkg) || (s.seen.find (lostKey pkg)).isSome

/-- Key of a link among the ports. -/
def linkKey : Link → Nat
  | .fabric n => n % 16
  | .twin n => 16 + n % 2
  | .host n => 18 + n % 2
  | .expander n => 20 + n % 4

/-- Whether a port is up. -/
def State.portUp (s : State) (k : Nat) : Bool := s.ports.find k = some .up

/-- Fabric ports that are up. -/
def State.upPlanes (s : State) : List Nat := (List.range 16).filter s.portUp

/-- Whether requests reach a package (R217, R225): it is not gone, and a port is up. -/
def State.reachable (s : State) (pkg : Nat) : Bool := pkg = s.ownPkg || (!s.gonePkg pkg && s.upPlanes ≠ [])

/-- The port of a die's messages for a sector (R217): of the die's four ports the one that its line's address chooses (log entry 82), else the
next of the package in increasing number, beginning again at 0, that is up; 16 with none up. -/
def State.portFor (s : State) (die sec : Nat) : Nat :=
  let p := 4 * die + Config.linePort (sec / 4) % 4
  (((List.range 16).map fun k => (p + k) % 16).find? s.portUp).getD 16

end Sys2Proof.Machine
end

