-- ==== Sys2Proof/Machine/Memory.lean ====
section
/-!
DEFINITION. Memory.lean: bytes and sectors of the fabric physical space, the homes, and the sector copies of views (R152,
R198 to R200, R250, R254, R257, R483).
-/
namespace Sys2Proof.Machine

/-- The sector of a byte address (R7: 64 bytes). -/
def secOf (a : Nat) : Nat := a / 64

/-- `n` bytes of memory from `a`. -/
def Mem.bytes (m : Mem) (a n : Nat) : List Byte := (List.range n).map fun k => m.byte (a + k)

/-- The number that `n` bytes from `a` hold, little-endian (R3). -/
def Mem.num (m : Mem) (a n : Nat) : Nat := leNat (m.bytes a n)

/-- The block of the fabric physical space in which another package's memory lies, 4 TiB for each package from 2^50 on (log entry 2). -/
def State.otherPkg (s : State) (a : Nat) : Option Region :=
  let p := (a - 2 ^ 50) / 2 ^ 42
  let ofs := (a - 2 ^ 50) % 2 ^ 42
  let base := 2 ^ 50 + 2 ^ 42 * p
  if a < 2 ^ 50 || 2 ^ 51 ≤ a || p = s.ownPkg then none
  else if ofs < 2 ^ 39 then some ⟨base + ofs / 2 ^ 37 * 2 ^ 37, 2 ^ 37, p, ofs / 2 ^ 37, ofs / 2 ^ 37 * 2 ^ 37⟩
  else some ⟨base + 2 ^ 39, 2 ^ 42 - 2 ^ 39, p, 4, 2 ^ 39⟩

/-- The region that maps a physical address. -/
def State.region (s : State) (a : Nat) : Option Region :=
  match s.regions.find? fun r => r.base ≤ a && a < r.base + r.size with
  | some r => some r
  | none => s.otherPkg a

/-- The home offset of a physical address in its region (R483). -/
def Region.homeOfs (r : Region) (a : Nat) : Nat := a - r.base + r.ofs

/-- Expander memory: far-memory offsets of 2 TiB or more (R483). -/
def Region.expander (r : Region) (a : Nat) : Bool := r.die = 4 && 2 ^ 39 + 2 ^ 41 ≤ r.homeOfs a

/-- The device that a far-memory offset belongs to, and the offset within its range (R483): 0 the LPDDR-6 of the module, k + 1 the expander
on link k. -/
def farDevice (f : Nat) : Nat × Nat := if f < 2 ^ 41 then (0, f) else ((f - 2 ^ 41) / (7 * 2 ^ 39) + 1, (f - 2 ^ 41) % (7 * 2 ^ 39))

/-- Whether no device populates an address of the far memory homed here (R483). -/
def Region.absent (r : Region) (a : Nat) : Bool :=
  r.die = 4 && (let d := farDevice (r.homeOfs a - 2 ^ 39); 4 < d.1 || Config.populated d.1 ≤ d.2)

/-- Host memory (R260). -/
def Region.host (r : Region) : Bool := r.die = 6

/-- The channel of its die's bonded DRAM that holds the line at a home offset (R11, R484): 16 for each partition, line by line. -/
def channelOf (h : Nat) : Nat := 16 * (h % 2 ^ 37 / 2 ^ 35) + h / 256 % 16

/-- The partition whose channels hold a home offset of the bonded DRAM (R484): its 32 GiB are the lines of 16 channels of 2 GiB. -/
def channelPart (h : Nat) : Nat := 4 * (h / 2 ^ 37) + channelOf h / 16

/-- Key of a view among the views of the package: 256 × partition + ID (R257). -/
def viewKey (part id : Nat) : Nat := 256 * part + id

/-- The tag of a cache line in a view (R257): two views of one address are two lines. -/
def lineTag (part id sec : Nat) : Nat := sec + 2 ^ 46 * (if id = 0 then 0 else viewKey part id)

/-- The sector of a tagged line. -/
def secAt (line : Nat) : Nat := line % 2 ^ 46

/-- The view key of a tagged line; 0 for the base view. -/
def viewAt (line : Nat) : Nat := line / 2 ^ 46

/-- The data of a sector in the base view. -/
def State.baseSector (s : State) (sec : Nat) : Sector := ⟨s.mem.bytes (64 * sec) 64, s.mem.bad.find sec, false, 0⟩

/-- The data that view `id` of partition `part` reads for a sector (R198): its copy, or what its parent resolves to. The
first argument bounds the depth, at most 4 (R257). -/
def State.sectorIn (s : State) (part : Nat) : Nat → Nat → Nat → Sector
  | 0, _, sec => s.baseSector sec
  | n + 1, id, sec =>
    if id = 0 then s.baseSector sec
    else match s.views.find (viewKey part id) with
      | none => s.baseSector sec
      | some v =>
        match v.secs.find sec with
        | some c => ⟨c.bytes, c.poison, false, 0⟩
        | none => s.sectorIn part n v.parent sec

/-- The data that a view reads for a sector. -/
def State.sector (s : State) (part id sec : Nat) : Sector := s.sectorIn part 5 id sec

/-- Whether view `id` reads sector `sec` from view `tgt` (R199): `tgt` is reached before any other holder. -/
def State.readsThrough (s : State) (part tgt sec : Nat) : Nat → Nat → Bool
  | 0, _ => false
  | n + 1, id =>
    id = tgt ||
      (id ≠ 0 && match s.views.find (viewKey part id) with
        | none => false
        | some v => (v.secs.find sec).isNone && s.readsThrough part tgt sec n v.parent)

/-- The views whose copy of `sec` was taken from a value that a write in view `tgt` changes are marked (R199). A write in
the base view reaches the views of every partition. -/
def markChanged (part tgt sec : Nat) : Eff := on fun s =>
  each s.views fun kv =>
    let v := kv.2
    match v.secs.find sec with
    | some c =>
      if (tgt = 0 || v.part = part) && v.id ≠ tgt && s.readsThrough v.part tgt sec 5 v.parent then
        act (.view kv.1 (some { v with secs := v.secs.put sec { c with changed := true } }))
      else skip
    | none => skip

/-- The bytes of memory from `a` become `l`. -/
def putBytes : Nat → List Byte → Eff
  | _, [] => skip
  | a, b :: l => fun s => .byte a b :: putBytes (a + 1) l s

/-- The poison of a sector after one operation has written `full` (all 64 bytes) or part of it (R254): a poisoned write
poisons it, a whole clean write cleans it, any other write leaves it. -/
def poisonAfter (old : Option Word) (full : Bool) (p : Option Word) : Option Word :=
  match p with
  | some w => some w
  | none => if full then none else old

/-- The bytes of a sector that a poisoned write leaves (R250): the payload, and 60 undefined bytes. -/
def poisonBytes (w : Word) (n : Nat) : List Byte := leBytes 4 w.toNat ++ (List.range 60).map (Config.poisonByte n)

/-- The bytes of a sector after one operation has written `l` at `ofs` (R250, R254): `p` its poison, `old` that of before. A clean write
that leaves a sector poisoned leaves the payload, and undefined bytes behind it. -/
def bytesAfter (x : List Byte) (old : Option Word) (ofs : Nat) (l : List Byte) (full : Bool) (p : Option Word) (n : Nat) : List Byte :=
  match p with
  | some w => poisonBytes w n
  | none => if old.isSome && !full then x else x.take ofs ++ l ++ x.drop (ofs + l.length)

/-- Sector copies of a partition's views that the ways of one home L2 hold: 4 ways of 16 MiB in all (R16, R258). -/
def viewWays : Nat := 2 ^ 18

/-- The home die of a sector. -/
def State.dieOfSec (s : State) (sec : Nat) : Nat := (s.region (64 * sec)).elim 0 Region.die

/-- The copies of a partition's views in the ways of a home L2: view key, sector, copy (R258). -/
def State.waysUsed (s : State) (part die : Nat) : List (Nat × Nat × VSec) :=
  (s.views.filter fun kv => kv.2.part = part).flatMap fun kv =>
    (kv.2.secs.filter fun c => c.2.slot.isNone && s.dieOfSec c.1 = die).map fun c => (kv.1, c.1, c.2)

/-- Whether a new sector copy of a partition's views finds the ways of its home full (R258). -/
def State.viewSpills (s : State) (part sec : Nat) : Bool := viewWays ≤ (s.waysUsed part (s.dieOfSec sec)).length

/-- The first free number from `lo` on among `n`, from a place that the device chooses (log entry 4). -/
def freeId (used : List Nat) (lo n pick : Nat) : Option Nat :=
  ((List.range (used.length + 1)).map fun k => lo + (pick + k) % n).find? fun x => !used.contains x

/-- The sectors that a partition's view overflow area holds (R258): `VOASIZE` in MiB, at least 256. -/
def State.overflowSize (s : State) (part : Nat) : Nat := max 256 (s.csr (offVOASIZE part)).toNat * 16384

/-- The places of a partition's overflow area that are taken. -/
def State.slotsUsed (s : State) (part : Nat) : List Nat :=
  (s.views.filter fun kv => kv.2.part = part).flatMap fun kv => kv.2.secs.filterMap fun c => c.2.slot

/-- A view holds a sector copy; one in the overflow area lies in memory there (R258). -/
def putCopy (part id sec : Nat) (c : VSec) : Eff := on fun s =>
  onSome (s.views.find (viewKey part id)) fun v =>
    andThen (act (.view (viewKey part id) (some { v with secs := v.secs.put sec c })))
      (onSome c.slot fun k => putBytes (s.csrBits (offVOABASE part) 51 0 + 64 * k) c.bytes)

/-- A view takes a copy of a sector for a write of node `who` (R198, R258). With the ways of its home full, this copy or another of the
node's there, as the device chooses, moves to a free place of the overflow area. -/
def takeCopy (who part id sec : Nat) : Eff := on fun s =>
  let x := s.sector part id sec
  let new : VSec := ⟨x.bytes, x.poison, false, none, who⟩
  if !s.viewSpills part sec then putCopy part id sec new
  else freely fun n => on fun s =>
    let k := freeId (s.slotsUsed part) 0 (s.overflowSize part) (Config.pick n)
    let l := (s.waysUsed part (s.dieOfSec sec)).filter fun q => q.2.2.owner = who
    match l[Config.pick n % (l.length + 1)]? with
    | some (v, y, c) => andThen (putCopy part (v % 256) y { c with slot := k }) (putCopy part id sec new)
    | none => putCopy part id sec { new with slot := k }

/-- One operation writes in the base view, number `n` naming the undefined bytes of a poisoned sector. -/
def writeBase (sec ofs : Nat) (l : List Byte) (full : Bool) (p : Option Word) (n : Nat) : Eff := on fun s =>
  let old := s.mem.bad.find sec
  seqs [markChanged 0 0 sec,
    if p.isNone && (old.isNone || full) then putBytes (64 * sec + ofs) l
    else putBytes (64 * sec) (bytesAfter (s.mem.bytes (64 * sec) 64) old ofs l full p n),
    act (.bad sec (poisonAfter old full p))]

/-- One operation of node `who` writes in a view that holds or takes a copy. -/
def writeCopy (who part id sec ofs : Nat) (l : List Byte) (full : Bool) (p : Option Word) (n : Nat) : Eff := on fun s =>
  seqs [markChanged part id sec,
    when (((s.views.find (viewKey part id)).bind fun v => v.secs.find sec).isNone) (takeCopy who part id sec),
    on fun s => onSome ((s.views.find (viewKey part id)).bind fun v => v.secs.find sec) fun c =>
      putCopy part id sec { c with bytes := bytesAfter c.bytes c.poison ofs l full p n, poison := poisonAfter c.poison full p }]

/-- One operation of node `who` writes bytes at offset `ofs` of sector `sec` in a view (R198, R250, R254); `full` says that the operation
covers the whole sector with clean data. A view takes its copy first. -/
def writeSectorBy (who : Option Nat) (part id sec ofs : Nat) (l : List Byte) (full : Bool) (p : Option Word) : Eff := on fun s =>
  let go (n : Nat) : Eff :=
    if id = 0 then writeBase sec ofs l full p n
    else onSome (s.views.find (viewKey part id)) fun v => writeCopy (who.getD (v.node.getD 0)) part id sec ofs l full p n
  match p with
  | some _ => freely go
  | none => go 0

/-- The same for a write that no node's instruction makes. -/
def writeSector (part id sec ofs : Nat) (l : List Byte) (full : Bool) (p : Option Word) : Eff := writeSectorBy none part id sec ofs l full p

/-- Bytes of a list that lie in one sector from `a` on, with the rest: pieces (sector, offset, bytes). -/
def pieces : Nat → Nat → List Byte → List (Nat × Nat × List Byte)
  | 0, _, _ => []
  | n + 1, a, l =>
    if l.isEmpty then []
    else
      let k := 64 - a % 64
      (a / 64, a % 64, l.take k) :: pieces n (a + k) (l.drop k)

/-- The pieces of a list of bytes at `a`, sector by sector. -/
def sectorPieces (a : Nat) (l : List Byte) : List (Nat × Nat × List Byte) := pieces (l.length / 64 + 2) a l

/-- One operation writes the bytes `l` from physical address `a` in a view, with or without poison. -/
def writeBytesBy (who : Option Nat) (part id a : Nat) (l : List Byte) (p : Option Word) : Eff :=
  each (sectorPieces a l) fun q => writeSectorBy who part id q.1 q.2.1 q.2.2 (q.2.2.length = 64 && p.isNone) p

/-- The same for a write that no node's instruction makes. -/
def writeBytes (part id a : Nat) (l : List Byte) (p : Option Word) : Eff := writeBytesBy none part id a l p

/-- The device writes the bytes `l` at a physical address, in the base view. -/
def devWrite (a : Nat) (l : List Byte) : Eff := writeBytes 0 0 a l none

/-- Bytes `[a, a + n)` as a view reads them, and the payload of the first poisoned sector among them. -/
def State.readBytes (s : State) (part id a n : Nat) : List Byte × Option Word :=
  let secs := (List.range (secOf (a + n - 1) + 1 - secOf a)).map fun k => s.sector part id (secOf a + k)
  let all := secs.flatMap Sector.bytes
  ((all.drop (a % 64)).take n, secs.findSome? Sector.poison)

/-- The number that `n` bytes at `a` hold in a view. -/
def State.readNum (s : State) (part id a n : Nat) : Nat := leNat (s.readBytes part id a n).1

end Sys2Proof.Machine
end

