-- ==== Sys2Proof/Machine/Report.lean ====
section
/-!
DEFINITION. Report.lean: what the device writes of its own accord into its rings and tables: events (R316 to R318), fault
records (R237, R238), poison origin entries (R250 to R252).
-/
namespace Sys2Proof.Machine

/-- Partition of a physical frame (R16, R19). -/
def partOf (frame : Nat) : Nat := frame / 16

/-- Compute die of a physical frame (R19). -/
def dieOf (frame : Nat) : Nat := if frame < 256 then frame / 64 else frame - 256

/-- A message leaves the package. -/
def out (m : OutMsg) : Eff := on fun s => act (.outbox (s.outbox ++ [m]))

/-- An MSI-X message (R56, R237, R316). -/
def msix (func vec : Nat) : Eff := out (.msix func vec)

/-- `n` bytes of a number. -/
def num (n x : Nat) : List Byte := leBytes n x

/-- The bytes of an event record (Table 13.10). -/
def eventBytes (ty die part ctx time a0 a1 a2 a3 : Nat) (data : List Byte) : List Byte :=
  num 8 (ty + die * 2 ^ 8 + part * 2 ^ 16 + ctx * 2 ^ 32) ++ num 8 time ++ num 8 a0 ++ num 8 a1 ++ num 8 a2 ++ num 8 a3
    ++ num 80 0 ++ (data ++ num 128 0).take 128

/-- Writes one record into the event ring, with its MSI-X message (R316). -/
def eventPut (b : List Byte) : Eff := on fun s =>
  let wr := (s.csr offEQWR).toNat
  let n := s.csrBits offEQCTL 4 0
  seqs [devWrite (s.csrBits offEQBASE 51 12 * 4096 + 256 * (wr % 2 ^ n)) b, setCsr offEQWR (BitVec.ofNat 64 ((wr + 1) % 2 ^ 32)),
    when (s.csrBits offEQCTL 6 6 = 1) (msix 0 (s.csrBits offEQCTL 17 7))]

/-- Whether the event ring is full (R316). -/
def State.eventFull (s : State) : Bool :=
  ((s.csr offEQWR).toNat + 2 ^ 32 - (s.csr offEQRD).toNat) % 2 ^ 32 = 2 ^ s.csrBits offEQCTL 4 0

/-- One more event lost, saturating (R316). -/
def eventLost : Eff := on fun s => setCsr offEQLOST (BitVec.ofNat 64 (min (2 ^ 32 - 1) ((s.csr offEQLOST).toNat + 1)))

/-- Reports an event (R316): written, buffered behind a full ring, or dropped and counted. -/
def event (ty die part ctx a0 a1 a2 a3 : Nat) (data : List Byte) : Eff := on fun s =>
  let b := eventBytes ty die part ctx s.ftime a0 a1 a2 a3 data
  if s.csrBits offEQCTL 5 5 = 0 then eventLost
  else if s.eventFull || !s.waitEv.isEmpty then
    if s.waitEv.length < 256 then act (.waitEv (s.waitEv ++ [b])) else eventLost
  else eventPut b

/-- No partition, in an event (Table 13.10). -/
def noPart : Nat := 0xFF

/-- An error counter of a die goes up by `n`, saturating, with the CKPTADVISE event when it passes its threshold (R298). -/
def countErr (die cls n : Nat) : Eff := on fun s =>
  let old := (s.csr (offERRCNT die cls)).toNat
  let new := min (2 ^ 32 - 1) (old + n)
  let thr := (s.csr (offERRTHR die cls)).toNat
  andThen (setCsr (offERRCNT die cls) (BitVec.ofNat 64 new))
    (when (thr ≠ 0 && old < thr && thr ≤ new) (event 9 die noPart 0 cls new 0 0 []))

/-- The bytes of a fault record (Table 10.5), with its sequence number. -/
def FRec.bytes (r : FRec) (seq : BitVec 32) : List Byte :=
  num 8 r.va ++ num 8 r.pc.toNat
    ++ num 8 (r.kind + r.cause * 2 ^ 4 + r.pgsz * 2 ^ 8 + r.frame * 2 ^ 10 + r.gslot * 2 ^ 18 + r.fdom * 2 ^ 28
      + r.vid * 2 ^ 36 + r.rcnt * 2 ^ 44 + r.refault.toNat * 2 ^ 48 + (if 8 ≤ r.rcnt then 1 else 0) * 2 ^ 49
      + r.reissue.toNat * 2 ^ 50 + r.status * 2 ^ 51)
    ++ num 4 seq.toNat ++ num 4 r.payload.toNat ++ num 4 r.lmask.toNat ++ num 8 (r.ctx + r.team * 2 ^ 16)
    ++ num 8 r.aux.toNat ++ num 12 0

/-- Whether a partition's fault ring is full (R237). -/
def State.faultFull (s : State) (p : Nat) : Bool :=
  ((s.csr (offFQWR p)).toNat + 2 ^ 32 - (s.csr (offFQRD p)).toNat) % 2 ^ 32 = 2 ^ s.csrBits (offFQCTL p) 4 0

/-- Whether a partition's buffer of 64 records is full (R237). -/
def State.faultBufFull (s : State) (p : Nat) : Bool := 64 ≤ (s.waitRec.findD p []).length

/-- Writes a record into the ring under number `WR`, with its MSI-X message, and keeps it under `key` while it can be
acted on (R237, R242). -/
def recPut (key : Nat) (r : FRec) : Eff := on fun s =>
  let p := r.part
  let wr := (s.csr (offFQWR p)).toNat
  let seq := BitVec.ofNat 32 wr
  seqs [devWrite (s.csrBits (offFQBASE p) 51 0 + 64 * (wr % 2 ^ s.csrBits (offFQCTL p) 4 0)) (r.bytes seq),
    setCsr (offFQWR p) (BitVec.ofNat 64 ((wr + 1) % 2 ^ 32)),
    when (r.status = 0) (act (.fr key (some { r with seq := seq }))),
    when (s.csrBits (offFQCTL p) 6 6 = 1) (msix (s.partFunc p) (s.csrBits (offFQCTL p) 17 7))]

/-- Keeps a record in the buffer behind a full ring; its number is given when it is written (R237). The record's `aux`
and the other fields stand as they are; the copy's `cmd` carries the key. -/
def recWait (key : Nat) (r : FRec) : Eff := on fun s =>
  seqs [act (.waitRec r.part (some (s.waitRec.findD r.part [] ++ [{ r with cmd := some key }]))),
    when (r.status = 0) (act (.fr key (some r)))]

/-- Writes a fault record, or queues it behind a full ring, and passes on its key (R237). The caller has made sure that
the queue is enabled. -/
def record (r : FRec) (f : Nat → Eff) : Eff := fresh fun key => on fun s =>
  if s.faultFull r.part || !(s.waitRec.findD r.part []).isEmpty then andThen (recWait key r) (f key)
  else andThen (recPut key r) (f key)

/-- Whether a partition's fault queue is enabled (R237). -/
def State.faultOn (s : State) (p : Nat) : Bool := s.csrBits (offFQCTL p) 5 5 = 1

/-- Causes of poison (Table 11.1). -/
inductive PCause where
  | data | page | pagex | timeout | peerlost | hostgone | conflict | soft | viewgone
  deriving DecidableEq, Repr

/-- Code of a cause. -/
def PCause.code : PCause → BitVec 4
  | .data => 1 | .page => 2 | .pagex => 3 | .timeout => 4 | .peerlost => 5 | .hostgone => 6 | .conflict => 7 | .soft => 8
  | .viewgone => 9

/-- The cause code of a payload. -/
def causeOf (w : Word) : BitVec 4 := w.extractLsb' 28 4

/-- The payload of Table 11.1: `tab` is the physical frame, or 256 + the die of a service frame (R251). -/
def payload (c : BitVec 4) (tab : Nat) (seq : BitVec 19) : Word :=
  let f := if tab < 256 then tab else 64 * (tab - 256)
  c ++ BitVec.ofNat 8 f ++ BitVec.ofBool (256 ≤ tab) ++ seq

/-- What an origin entry says beside its number and time (Table 11.2). -/
structure Origin where
  cause : PCause
  tab   : Nat
  orig  : Nat
  addr  : Nat
  pc    : BitVec 57
  fdom  : Nat
  vid   : Nat
  gslot : Nat
  deriving DecidableEq, Repr

/-- Takes a new origin entry and passes on its payload (R251, R252). -/
def origin (o : Origin) (f : Word → Eff) : Eff := on fun s =>
  let seq := s.orig.findD o.tab 0#19
  let b := num 12 (seq.toNat + (if 256 ≤ o.tab then 2 ^ 19 else 0) + o.cause.code.toNat * 2 ^ 20 + o.orig * 2 ^ 24 + o.addr * 2 ^ 32)
    ++ num 8 o.pc.toNat ++ num 4 (o.fdom + o.vid * 2 ^ 8 + o.gslot * 2 ^ 16) ++ num 8 s.ftime
  seqs [devWrite ((s.csr offPOTBASE).toNat + 32768 * o.tab + 32 * (seq.toNat % 1024)) b, act (.orig o.tab (some (seq + 1#19))),
    when (o.cause = .data) (countErr (if o.tab < 256 then dieOf o.tab else o.tab % 4) 1 1), f (payload o.cause.code o.tab seq)]

/-- The origin table of the service frame of a home: of D0 for the hub (R252). -/
def svcTab (die : Nat) : Nat := if die < 4 then 256 + die else 256

/-- A delay inside a published pair (R6): best, plus a free value up to the width of the pair (log entry 4). -/
def delay (best worst n : Nat) : Nat := best + Config.jitter n % (worst - best + 1)

/-- Step `i` is to occur inside a published pair of clocks from now (log entry 3). -/
def later (best worst : Nat) (i : Instr) : Eff := freely fun n => on fun s =>
  act (.timers (s.timers ++ [(s.now + delay best worst n, i)]))

/-- Step `i` is to occur `d` clocks from now. -/
def after (d : Nat) (i : Instr) : Eff := on fun s => act (.timers (s.timers ++ [(s.now + d, i)]))

/-- Step `i` is to occur next (log entry 3). -/
def soon (i : Instr) : Eff := on fun s => act (.agenda (s.agenda ++ [i]))

end Sys2Proof.Machine
end

