-- ==== Sys2Proof/Machine/Ops.lean ====
section
/-!
DEFINITION. Ops.lean: the named operations on groups: results that land, the choice of the group PC, taking a trap and
returning from one, fatal faults.
-/
namespace Sys2Proof.Machine

/-- One lane of a register; a lane not listed holds 0. -/
def lane (x : Lanes) (n : Nat) : Elem := x.getD n ⟨0#32, false⟩

/-- A clear flag lane (R28). -/
def flag0 : FlagE := ⟨0#4, false, 0#32⟩

/-- An invalid latch lane; it reads 0 (R95). -/
def latch0 : LatchE := ⟨0#32, false, false⟩

/-- A register whose 32 lanes hold one value. -/
def uniform (e : Elem) : Lanes := tab32 fun _ => e

/-- Uniform zero (R28, R92). -/
def zeroLanes : Lanes := uniform ⟨0#32, false⟩

/-- `new` in the lanes of `m`, `old` in the others. -/
def merge {α : Type} (d : α) (m : Mask) (new old : List α) : List α :=
  tab32 fun n => if m.has n then new.getD n d else old.getD n d

/-- A vector register's lanes, before the results in flight; a register not listed holds uniform zero. -/
def Group.vreg (g : Group) (n : Nat) : Lanes := g.v.findD n zeroLanes
/-- A uniform register. -/
def Group.sreg (g : Group) (n : Nat) : Elem := g.s.findD n ⟨0#32, false⟩
/-- A condition register. -/
def Group.creg (g : Group) (n : Nat) : List FlagE := g.c.findD n []
/-- A uniform flag register. -/
def Group.freg (g : Group) (n : Nat) : FlagE := g.f.findD n flag0
/-- A latch. -/
def Group.latch (g : Group) (n : Nat) : List LatchE := g.q.findD n []
/-- An operand-cache entry. -/
def Group.ocache (g : Group) (n : Nat) : List LatchE := g.o.findD n []

/-- Vector register `n` written in the lanes of `m` (R85). -/
def Group.setV (g : Group) (n : Nat) (m : Mask) (x : Lanes) : Group :=
  { g with v := g.v.put n (merge ⟨0#32, false⟩ m x (g.vreg n)) }

/-- A push into the latch chain (R89): the unheld latches shift, the lowest takes the result; lanes outside `m` become
invalid there. -/
def Group.pushLatch (g : Group) (hm : BitVec 4) (m : Mask) (x : Lanes) : Group :=
  let u := (List.range 4).filter fun n => !hm.getLsbD n
  let fresh := tab32 fun n => if m.has n then (⟨(lane x n).val, (lane x n).poi, true⟩ : LatchE) else latch0
  let new := fresh :: u.map g.latch
  { g with q := (u.zip new).foldl (fun q p => q.put p.1 p.2) g.q }

/-- The write of an operand-cache entry (R91). -/
def Group.setO (g : Group) (n : Nat) (m : Mask) (x : Lanes) : Group :=
  { g with o := g.o.put n (tab32 fun k =>
      if m.has k then ⟨(lane x k).val, (lane x k).poi, true⟩ else (g.ocache n).getD k latch0) }

/-- A thread at an address, as if never started elsewhere. -/
def thread0 : Thread := ⟨0#57, 0xFFFFFFFF#32, 0xFFFFFFFF#32, .exited, false, [], none, 0, none⟩

/-- Thread (lane) `n` of a group. -/
def Group.th (g : Group) (n : Nat) : Thread := g.threads.getD n thread0

/-- The group with the threads of `m` changed. -/
def Group.mapTh (g : Group) (m : Mask) (f : Nat → Thread → Thread) : Group :=
  { g with threads := tab32 fun n => if m.has n then f n (g.th n) else g.th n }

/-- A result lands. -/
def Group.land (g : Group) : PendKind → Group
  | .wv n m x => g.setV n m x
  | .ws n e => { g with s := g.s.put n e }
  | .wc n m x => { g with c := g.c.put n (merge flag0 m x (g.creg n)) }
  | .wf n e => { g with f := g.f.put n e }
  | .wfBits n sel val => { g with f := g.f.put n { g.freg n with fl := ((g.freg n).fl &&& ~~~ sel) ||| (val &&& sel) } }
  | .push hm m x | .ret hm m x => g.pushLatch hm m x
  | .ocap n m x => g.setO n m x
  | .dead n => { g with v := g.v.del n }
  | .flg b => { g with csr := { g.csr with fpflg := g.csr.fpflg ||| b } }
  | .sb n => { g with sb := g.sb &&& ~~~ (1#6 <<< n), sbFar := g.sbFar &&& ~~~ (1#6 <<< n) }
  | .hold m f => g.mapTh m fun _ th => if th.faults.any fun x => x.fr = f.fr then th else { th with faults := th.faults ++ [f] }

/-- The elements that a result writes when it lands, for the 48 clocks of R293: registers and lanes. A push writes every latch that
shifts. -/
def Group.written (g : Group) (clk : Nat) : PendKind → List WLog
  | .wv n m _ => [⟨clk, .v n, m⟩]
  | .ws n _ => [⟨clk, .s n, 1#32⟩]
  | .wc n m _ => [⟨clk, .c n, m⟩]
  | .wf n _ | .wfBits n _ _ => [⟨clk, .f n, 1#32⟩]
  | .push hm _ _ | .ret hm _ _ => ((List.range 4).filter fun n => !hm.getLsbD n).map fun n => ⟨clk, .q n, 0xFFFFFFFF#32⟩
  | .ocap n m _ => [⟨clk, .o n, m⟩]
  | .dead n => [⟨clk, .v n, if (g.v.find n).isSome then 0xFFFFFFFF#32 else 0#32⟩]
  | _ => []

/-- A result lands, and is noted for the rewind log (R292, R293). -/
def Group.landed (g : Group) (p : Pend) : Group := { g.land p.kind with wlog := g.wlog ++ g.written p.clk p.kind }

/-- The group with every result whose clock is at or before `t` landed, in the order of their clocks (R85). -/
def Group.upTo (g : Group) (t : Nat) : Group :=
  let now := g.pend.filter fun p => p.clk ≤ t
  now.foldl Group.landed { g with pend := g.pend.filter fun p => t < p.clk }

/-- A vector register as a bank read in clock `t` finds it (R85): with the writes in flight that fall at or before `t`. -/
def Group.vAt (g : Group) (n t : Nat) : Lanes :=
  g.pend.foldl (fun x p =>
    if t < p.clk then x
    else match p.kind with
      | .wv k m y => if k = n then merge ⟨0#32, false⟩ m y x else x
      | .dead k => if k = n then zeroLanes else x
      | _ => x) (g.vreg n)

/-- Whether a result comes from the return path. -/
def PendKind.isRet : PendKind → Bool
  | .ret .. => true
  | _ => false

/-- Whether it is the zeroing of a dead register. -/
def PendKind.isDead : PendKind → Bool
  | .dead _ => true
  | _ => false

/-- A result in flight takes its place behind those of its clock and of earlier ones; one from the return path stays behind
the reserved results of its clock (R73), and a dead register's zero comes before the writes of its clock, which replace it (R92). -/
def addPend : List Pend → Pend → List Pend
  | [], p => [p]
  | a :: l, p =>
    if p.clk < a.clk || (p.clk = a.clk && (p.kind.isDead || (a.kind.isRet && !p.kind.isRet))) then p :: a :: l else a :: addPend l p

/-- The group with results in flight added. -/
def Group.pends (g : Group) (l : List Pend) : Group := { g with pend := l.foldl addPend g.pend }

/-- The threads that can be Active: RUN, not parked, and in trap mode in the trap set (R26, R241, R270). -/
def Group.runnable (g : Group) : Mask :=
  Mask.of fun n => (g.th n).st = .run && (g.th n).park.isNone && (!g.csr.tmode || (g.th n).inT)

/-- The runnable threads at an address. -/
def Group.atPc (g : Group) (pc : BitVec 57) : Mask := Mask.of fun n => g.runnable.has n && (g.th n).pc = pc

/-- The number of lanes of a set. -/
def countOf (m : Mask) : Nat := m.lanes.length

/-- Of two addresses, the one that rule R34 prefers: held by more threads, then the lower. -/
def Group.better (g : Group) (a b : BitVec 57) : BitVec 57 :=
  let na := countOf (g.atPc a)
  let nb := countOf (g.atPc b)
  if nb < na ∨ (na = nb ∧ a.toNat ≤ b.toNat) then a else b

/-- The group PC (R26, R34): none when no thread can be Active. A thread outside Active for 256 issues has its way. -/
def Group.pc? (g : Group) : Option (BitVec 57) :=
  let l := g.runnable.lanes
  let old := (l.filter fun n => 256 ≤ (g.th n).age).map fun n => (g.th n).pc
  match old with
  | p :: ps => some (ps.foldl (fun a b => if b.toNat < a.toNat then b else a) p)
  | [] =>
    match (l.map fun n => (g.th n).pc).eraseDups with
    | p :: ps => some (ps.foldl g.better p)
    | [] => none

/-- The ages of R34 after an issue with Active set `a`. -/
def Group.aged (g : Group) (a : Mask) : Group :=
  { g with threads := tab32 fun n =>
      { g.th n with age := if a.has n || (g.th n).st ≠ .run then 0 else (g.th n).age + 1 } }

/-- Trap causes (Table 12.2). -/
inductive Trap where
  | illop | illconv | poison | pagex | misalign | priv | alloc | stale | worldesc | viewfull | fewait | svcerr | brk
  deriving DecidableEq, Repr

/-- The trap of a code of Table 12.2, of those that come late (R221, R244, R246, R259, R260, R290). -/
def trapOf (c : BitVec 4) : Trap :=
  match c.toNat with
  | 3 => .poison
  | 4 => .pagex
  | 9 => .worldesc
  | 12 => .svcerr
  | _ => .viewfull

/-- Code of a trap cause (Table 12.2). -/
def Trap.code : Trap → BitVec 4
  | .illop => 1 | .illconv => 2 | .poison => 3 | .pagex => 4 | .misalign => 5 | .priv => 6 | .alloc => 7 | .stale => 8
  | .worldesc => 9 | .viewfull => 10 | .fewait => 11 | .svcerr => 12 | .brk => 13

/-- The units of a partition that a halt line stops (Table 12.3): its frames' rods, matrix units and engines, and the
fabric requests of its die. -/
def partUnits (p : Nat) : List StopUnit :=
  ((List.range 16).flatMap fun k =>
    let f := 16 * p + k
    (List.range 16).map (fun r => StopUnit.rod f r) ++ [.matrix f, .copy f, .gather f, .coll f]) ++ [.fabric (p / 4)]

/-- The units of a context's partitions, each once. -/
def Ctx.units (c : Ctx) : List StopUnit := (c.parts.flatMap partUnits).eraseDups

/-- A fatal fault of a context (R275): the HALT event, and the halt line, which reaches every unit within 20 / 200
clocks. A line that is already up is not raised again (log entry 10). -/
def fatal (ctx : Nat) (code reason frame gslot : Nat) (tpc info : Nat) : Eff := on fun s =>
  match s.ctxs.find ctx with
  | none => skip
  | some c =>
    if c.run = .halting || c.run = .halted then skip
    else seqs [act (.ctx ctx (some { c with run := .halting, stopped := [] })),
      event 1 4 (c.parts.headD noPart) ctx (code + reason * 2 ^ 8 + frame * 2 ^ 16 + gslot * 2 ^ 32) tpc info 0 [],
      each c.units fun u => later 20 200 (.haltLineArrival ctx u)]

/-- The matrix operations of a team under way keep the local store as it stands, before it is written (R145). -/
def noteWords (tk : Nat) : Eff := on fun s => onSome (s.teams.find tk) fun t => each s.mxq fun kv =>
  let mine (q : MxOp) : Bool := (s.ops.find q.op).elim false fun o => o.team = tk
  when (kv.2.any mine) (act (.mx kv.1 (some (kv.2.map fun q => if mine q then { q with words := q.words ++ [t.words] } else q))))

/-- A write of a team's local store. -/
def upWords (tk : Nat) (f : Team → Team) : Eff := andThen (noteWords tk) (upTeam tk f)

/-- The context of a group. -/
def State.ctxOf (s : State) (g : Group) : Nat :=
  match s.teams.find g.team with
  | some t => (s.nodes.find t.node).elim 0 Node.ctx
  | none => 0

/-- The fault domain of a group's node (R50). -/
def State.fdomOf (s : State) (g : Group) : Nat :=
  match s.teams.find g.team with
  | some t => (s.nodes.find t.node).elim 0 fun n => n.eff.fdom
  | none => 0

/-- The group slot of a group key (R238). -/
def gslotOf (gid : Nat) : Nat := gid % 1024

/-- A group's fault that no handler absorbs (R274, R275): the group issues nothing more (R276). -/
def groupFatal (gid : Nat) (code reason : Nat) (tpc : BitVec 57) (info : BitVec 64) : Eff := on fun s =>
  match s.groups.find gid with
  | none => skip
  | some g =>
    seqs [upGroup gid fun g => { g with hold := .dead },
      fatal (s.ctxOf g) code reason g.frame (gslotOf gid) tpc.toNat info.toNat]

/-- TAKING A TRAP (R270, R272, R274): the trap set is `T`; `TCAUSE`, `TPC`, `TADDR` are written, `TMODE` becomes 1, and
every thread of `T` goes to `TVEC`. In trap mode, or with no handler, the trap is a fatal fault. The handler's first
instruction issues 12 / 20 clocks later. What holds the group's issue stays. -/
def takeTrap (gid : Nat) (cause : Trap) (info : BitVec 64) (tpc : BitVec 57) (T : Mask) : Eff := on fun s =>
  match s.groups.find gid with
  | none => skip
  | some g =>
    if g.csr.tmode || g.csr.tvec = 0#57 then groupFatal gid cause.code.toNat 0 tpc info
    else freely fun n => upGroup gid fun g =>
      { g with
        threads := tab32 fun k =>
          if T.has k then { g.th k with pc := g.csr.tvec, st := .run, inT := true, park := none }
          else { g.th k with inT := false }
        csr := { g.csr with tmode := true, tcause := cause.code, tpc := tpc, taddr := info }
        past := []
        ready := s.now + delay 12 20 n }

/-- THE RETURN FROM A TRAP (R273): every thread of the trap set that is not EXITED goes to RUN at `TPC`, and `TMODE`
clears; after `FEWAIT` the instruction there runs for the resume mask alone (R158). Issue goes on in 4 / 12 clocks. -/
def returnTrap (gid : Nat) : Eff := on fun s => freely fun n => upGroup gid fun g =>
  { g with
    threads := tab32 fun k =>
      let th := g.th k
      if th.inT && th.st ≠ .exited then { th with pc := g.csr.tpc, st := .run, inT := false } else { th with inT := false }
    csr := { g.csr with tmode := false }
    resuming := g.csr.tcause = Trap.fewait.code
    past := []
    ready := s.now + delay 4 12 n }

/-- The latches and the operand cache become invalid (R97). -/
def Group.invalidate (g : Group) : Group := { g with q := [], o := [] }

/-- The return of a continuation (R37): its lane's vector and condition registers are written back, the lane's latches
and operand-cache entries become invalid (R97), the thread takes state `st` at `pc`, and the join counter decrements. That its reads of `z7`
do not count as the group's for `z8` is the model's choice (DESIGN CHOICE, log entry 89). -/
def Group.rejoin (g k : Group) (ln : Nat) (st : TState) (pc : BitVec 57) : Group :=
  let m : Mask := 1#32 <<< ln
  let vs := (g.v.keys ++ k.v.keys).eraseDups
  let cs := (g.c.keys ++ k.c.keys).eraseDups
  let inv (x : AMap (List LatchE)) := x.mapVal fun l => merge latch0 m [] l
  let th := k.th ln
  { g with
    v := vs.foldl (fun v n => v.put n (merge ⟨0#32, false⟩ m (k.vreg n) (g.vreg n))) g.v
    c := cs.foldl (fun c n => c.put n (merge flag0 m (k.creg n) (g.creg n))) g.c
    q := inv g.q
    o := inv g.o
    threads := tab32 fun n => if n = ln then { th with st := st, pc := pc, inT := false, age := 0 } else g.th n
    past := []
    join := g.join - 1
    joinAddr := if g.join ≤ 1 then 0xFFFFFFFF#32 else g.joinAddr }

/-- The threads HELD at meeting point `x`. -/
def Group.heldAt (g : Group) (x : BitVec 57) : Mask := Mask.of fun n => (g.th n).st = .held && (g.th n).pc = x

/-- Whether the threads HELD at meeting point `x`, whose `MR` value is `off`, are to be released (R40). -/
def Group.met (g : Group) (x : BitVec 57) (off : Word) : Bool :=
  let held := g.heldAt x
  held ≠ 0#32 && ((List.range 32).all fun n => (g.th n).mr ≠ off || held.has n || (g.th n).st = .exited) && (g.join = 0 || g.joinAddr ≠ off)

/-- Release of the threads HELD at meeting point `x` (R40): each goes to RUN behind the `MEET` with the MR that its `MEET` supplied, and
the latches and the operand cache become invalid (R97). The group issues no earlier than `t`. -/
def Group.release (g : Group) (x : BitVec 57) (t : Nat) : Group :=
  { (g.mapTh (g.heldAt x) fun _ th => { th with st := .run, pc := x + 12, mr := th.nmr }).invalidate with
    hm := 0#4, ready := max g.ready t, past := [] }

end Sys2Proof.Machine
end

