-- ==== Sys2Proof/Machine/Translate.lean ====
section
/-!
DEFINITION. Translate.lean: page tables, TLBs and walk caches (R230 to R235).
-/
namespace Sys2Proof.Machine

/-- What an access needs of a page (Table 10.3). -/
inductive Need where
  | read | write | exec
  deriving DecidableEq, Repr

/-- Why a lookup fails: `CAUSE` and `PGSZ` of the fault record (Table 10.5). -/
structure Miss where
  cause : Nat
  pgsz  : Nat
  deriving DecidableEq, Repr

/-- Lowest VA bit indexed at a level (Table 10.1). -/
def levelShift : Nat → Nat
  | 0 => 16
  | 1 => 21
  | 2 => 30
  | 3 => 39
  | _ => 48

/-- Number of entries of a table of a level (Table 10.1). -/
def levelEntries (l : Nat) : Nat := if l = 0 then 32 else 512

/-- Bytes that a leaf of a level maps (Table 10.1). -/
def levelBytes (l : Nat) : Nat := 2 ^ levelShift l

/-- Code of the page size of a leaf of a level (Table 10.5). -/
def sizeCode (l : Nat) : BitVec 2 := if l = 0 then 0 else if l = 1 then 1 else 2

/-- Bytes of a page. -/
def Page.bytes (p : Page) : Nat := if p.size = 0 then 2 ^ 16 else if p.size = 1 then 2 ^ 21 else 2 ^ 30

/-- Whether a page maps an address. -/
def Page.maps (p : Page) (va : Nat) : Bool := p.va ≤ va && va < p.va + p.bytes

/-- The physical address of an address that the page maps. -/
def Page.paOf (p : Page) (va : Nat) : Nat := p.pa + (va - p.va)

/-- A bad entry (R231), at a level, read from a sector that is poisoned or not. -/
def badPte (level : Nat) (e : Nat) (poisoned : Bool) : Bool :=
  let leaf := bitsOf e 1 1 = 1
  poisoned || bitsOf e 63 52 ≠ 0
    || (leaf && (level = 4 || level = 3)) || (!leaf && level = 0)
    || (!leaf && bitsOf e 7 2 ≠ 0)
    || (leaf && (bitsOf e 51 8 * 256) % levelBytes level ≠ 0)
    || (bitsOf e 6 6 = 1 && bitsOf e 7 7 = 1)

/-- The page that a leaf entry maps (Table 10.2). -/
def pageOf (level va e : Nat) : Page :=
  ⟨va / levelBytes level * levelBytes level, sizeCode level, bitsOf e 51 8 * 256, bitsOf e 2 2 = 1, bitsOf e 3 3 = 1,
    bitsOf e 4 4 = 1, bitsOf e 5 5 = 1, bitsOf e 6 6 = 1, bitsOf e 7 7 = 1⟩

/-- Whether the link to the device behind an address of this package works: a host link for host memory, the expander link for expander
memory (R14, R483). -/
def State.linkFor (s : State) (r : Region) (pa : Nat) : Bool :=
  if r.host then s.portUp 18 || s.portUp 19 else !(r.expander pa) || s.portUp (19 + (farDevice (r.homeOfs pa - 2 ^ 39)).1)

/-- Whether a host-memory sector is marked HOSTGONE (R228). -/
def State.hostGone (s : State) (pa : Nat) : Bool := s.mem.hgone.contains (secOf pa)

/-- Why an access of the device itself to a physical address gets no answer, as a cause of Table 10.5 (R219, R225): 8 its home is gone, 4 no
home answers. Homes on other packages do not answer the lead processor (log entry 83). -/
def State.unanswered (s : State) (pa : Nat) : Option Nat :=
  match s.region pa with
  | none => some 4
  | some r => if s.gonePkg r.pkg then some 8 else if r.pkg ≠ s.ownPkg || !s.linkFor r pa then some 4 else none

/-- Bytes that the device itself reads at a physical address in a view, or why it cannot, as a cause of Table 10.5: 6 poison, which an absent
address and a HOSTGONE mark give as well (R228, R483). -/
def State.deviceBytes (s : State) (part view pa n : Nat) : Except Nat (List Byte) :=
  match s.unanswered pa with
  | some c => .error c
  | none =>
    let r := s.readBytes part view pa n
    if r.2.isSome || s.hostGone pa || (s.region pa).elim false (fun x => x.absent pa) then .error 6 else .ok r.1

/-- A walk from a table at a level down (Table 10.1): the page or the failure, and the walk-cache entries to be filled. A table that gives no
answer is read as a poisoned one.
The walk cache of die `die` supplies the next table where it has an entry (R233). -/
def State.walkFrom (s : State) (die ctx va : Nat) : Nat → Nat → Except Miss Page × List WalkE
  | level, table =>
    let key := va / levelBytes level
    match (s.walk.findD die []).find? fun w => w.ctx = ctx && w.level = level && w.va = key with
    | some w =>
      match level with
      | 0 => (.error ⟨3, 3⟩, [])
      | l + 1 => s.walkFrom die ctx va l w.next
    | none =>
      let r := (s.deviceBytes 0 0 (table + 8 * (key % levelEntries level)) 8).toOption
      let e := leNat (r.getD [])
      if bitsOf e 0 0 = 0 && r.isSome then (.error ⟨0, if level = 0 then 0 else 3⟩, [])
      else if badPte level e r.isNone then
        (.error ⟨3, if r.isSome && bitsOf e 1 1 = 1 && level ≤ 2 then (sizeCode level).toNat else 3⟩, [])
      else if bitsOf e 1 1 = 1 then (.ok (pageOf level va e), [])
      else match level with
        | 0 => (.error ⟨3, 3⟩, [])
        | l + 1 =>
          let q := s.walkFrom die ctx va l (bitsOf e 51 8 * 256)
          (q.1, ⟨ctx, level, key, bitsOf e 51 8 * 256⟩ :: q.2)

/-- The level-4 table of a context, from `XLBASE` of its first partition (R230). -/
def State.xlbase (s : State) (ctx : Nat) : Nat :=
  match s.ctxs.find ctx with
  | some c => s.csrBits (offXLBASE (c.parts.headD 0)) 51 0
  | none => 0

/-- The TLB entry of a frame for an address (R233). -/
def State.tlbHit (s : State) (frame ctx va : Nat) : Option Page :=
  ((s.tlb.findD frame []).find? fun e => e.ctx = ctx && e.page.maps va).map TlbE.page

/-- The page of an address, whatever the access: from the TLB or by a walk (R234); an address with a bit above [56:0]
fails as NOTMAP (R332). -/
def State.findPage (s : State) (frame ctx va : Nat) : Except Miss Page :=
  if 2 ^ 57 ≤ va then .error ⟨0, 3⟩
  else match s.tlbHit frame ctx va with
    | some p => .ok p
    | none => (s.walkFrom (dieOf frame) ctx va 4 (s.xlbase ctx)).1

/-- The outcome of a lookup for an access (R235, Table 10.3). -/
def State.lookup (s : State) (frame ctx va : Nat) (n : Need) : Except Miss Page :=
  match s.findPage frame ctx va with
  | .error m => .error m
  | .ok p =>
    match n with
    | .read => .ok p
    | .write => if p.w then .ok p else .error ⟨1, p.size.toNat⟩
    | .exec => if p.x then .ok p else .error ⟨2, p.size.toNat⟩

/-- A TLB of 2,048 entries takes one more; a full one gives up an entry of the device's choice (R233, log entry 4). -/
def addTlb (l : List TlbE) (e : TlbE) (n : Nat) : List TlbE :=
  if l.length < 2048 then l ++ [e] else l.eraseIdx (Config.pick n % 2048) ++ [e]

/-- The fills of the TLB of a frame and of the walk cache of its die that a lookup makes (R233). -/
def fillTlb (frame ctx va : Nat) : Eff := on fun s =>
  if 2 ^ 57 ≤ va || (s.tlbHit frame ctx va).isSome then skip
  else
    let die := dieOf frame
    let q := s.walkFrom die ctx va 4 (s.xlbase ctx)
    andThen (act (.walk die (some (s.walk.findD die [] ++ q.2))))
      (match q.1 with
      | .ok p => freely fun n => act (.tlb frame (some (addTlb (s.tlb.findD frame []) ⟨ctx, p⟩ n)))
      | .error _ => skip)

/-- Whether a walk-cache entry lies on the walk path of an address (R243). -/
def WalkE.onPath (w : WalkE) (ctx va : Nat) : Bool := w.ctx = ctx && w.va = va / levelBytes w.level

/-- Removes from every TLB and walk cache the entries that `pt` and `pw` name (R233, R460). -/
def dropTranslations (pt : TlbE → Bool) (pw : WalkE → Bool) : Eff := on fun s =>
  andThen (each s.tlb fun kv => act (.tlb kv.1 (some (kv.2.filter fun e => !pt e))))
    (each s.walk fun kv => act (.walk kv.1 (some (kv.2.filter fun e => !pw e))))

/-- The translations of a context that leaves its partitions go with it (R233). -/
def forgetCtx (ctx : Nat) : Eff := dropTranslations (fun e => e.ctx = ctx) (fun w => w.ctx = ctx)

/-- Bytes of the page on which a lookup fails: of the leaf that was reached, else of a 64 KiB region (R234, Table 10.5). -/
def Miss.bytes (x : Miss) : Nat := if x.pgsz = 1 then 2 ^ 21 else if x.pgsz = 2 then 2 ^ 30 else 2 ^ 16

/-- Removes every entry on the walk path of an address of a context (R243). -/
def dropPath (ctx va : Nat) : Eff :=
  dropTranslations (fun e => e.ctx = ctx && e.page.maps va) (fun w => w.onPath ctx va)

/-- A read of `n` bytes at a virtual address through a context's translation, as the device makes it for its own structures (R54, R59,
R60): the bytes, or why they cannot be read, as a cause of Table 10.5. `wr` asks for a page that permits writes. -/
def State.deviceRead (s : State) (frame ctx part view va n : Nat) (wr : Bool) : Except Nat (List Byte) :=
  match s.lookup frame ctx va (if wr then .write else .read) with
  | .error m => .error m.cause
  | .ok p => s.deviceBytes part view (p.paOf va) n

/-- The same without the reason. -/
def State.readVa (s : State) (frame ctx part view va n : Nat) (wr : Bool) : Option (List Byte) :=
  (s.deviceRead frame ctx part view va n wr).toOption

/-- Whether the firewall permits a write request from a cell to memory homed on this package (R213, R214). Memory homed
elsewhere is judged by its own home. -/
def State.fwOk (s : State) (pa cell : Nat) : Bool :=
  match s.region pa with
  | none => false
  | some r =>
    if r.host || r.pkg ≠ s.ownPkg then true
    else
      let e := s.mem.num ((s.csr offFWTBASE).toNat + 8 * (r.homeOfs pa / 2 ^ 21)) 8
      let own := s.cellOf s.ownPkg
      match bitsOf e 1 0 with
      | 0 => true
      | 1 => cell = own
      | 2 => cell = own || (List.range 4).any fun k => bitsOf e (8 * k + 15) (8 * k + 8) = cell
      | _ => false

/-- Where the device itself can write at a virtual address (R56, R59, R60): the physical address, or why it cannot, as a cause of Table
10.5: a failed lookup, no answer, or a refusal by the firewall. -/
def State.deviceWrite (s : State) (frame ctx va : Nat) : Except Nat Nat :=
  match s.lookup frame ctx va .write with
  | .error m => .error m.cause
  | .ok p =>
    let pa := p.paOf va
    match s.unanswered pa with
    | some c => .error c
    | none => if s.fwOk pa (s.cellOf s.ownPkg) && !(s.region pa).elim false (fun x => x.absent pa) then .ok pa else .error 5

/-- A write of bytes at a virtual address by the device itself, for node `who` (R59); `bad` is what follows when it cannot be performed,
with the cause. -/
def writeVa (who : Option Nat) (frame ctx part view va : Nat) (l : List Byte) (bad : Nat → Eff) : Eff := on fun s =>
  match s.deviceWrite frame ctx va with
  | .error c => bad c
  | .ok pa => writeBytesBy who part view pa l none

end Sys2Proof.Machine
end

