-- ==== Sys2Proof/Machine/Nodes.lean ====
section
/-!
DEFINITION. Nodes.lean: region control blocks, the states of nodes, completion signals, and the ways in which groups,
teams, views and nodes end (R46 to R51, R55 to R61, R213, R214, R263 to R269).
-/
namespace Sys2Proof.Machine

/-- Lead partition of a context (R57); its number also names the space of the context's views (log entry 7). -/
def State.lead (s : State) (ctx : Nat) : Nat := (s.ctxs.find ctx).elim 0 fun c => c.parts.headD 0

/-- The frame whose TLB serves the lead processor's own accesses (log entry 7). -/
def State.leadFrame (s : State) (ctx : Nat) : Nat := 16 * s.lead ctx

/-- The view that a node's teams run in (R51, R267, R409); it is settled when the first team is placed (DEDUCED, log entry 84). -/
def Node.runView (n : Node) : Nat := n.priv.getD n.view

/-- The fields of a region control block from its 256 bytes (Table 2.6). -/
def Rcb.ofBytes (l : List Byte) : Rcb :=
  let x := leNat l
  { kernel := bitsOf x 63 0, args := bitsOf x 127 64, parent := bitsOf x 191 128, succ := bitsOf x 255 192,
    nsucc := bitsOf x 271 256, nteam := bitsOf x 367 320, grps := bitsOf x 388 384, vgr := bitsOf x 394 389,
    sgr := bitsOf x 398 395, lgr := bitsOf x 408 399, nbar := bitsOf x 412 409, ntile := bitsOf x 417 413,
    nacc := bitsOf x 423 418, bframe := bitsOf x 456 448, blocal := bitsOf x 466 457, bview := bitsOf x 474 467,
    bmem := bitsOf x 490 475, prio := bitsOf x 516 512, fdom := bitsOf x 524 517, guarded := bitsOf x 525 525 = 1,
    idem := bitsOf x 526 526 = 1, paired := bitsOf x 527 527 = 1, carve := bitsOf x 528 528 = 1,
    gang := bitsOf x 529 529 = 1, ovr := BitVec.ofNat 10 (bitsOf x 553 544), pbase := bitsOf x 639 576,
    psize := bitsOf x 703 640 }

/-- The reserved fields of a region control block are 0, and `STATE` holds none of its reserved values 8 to 15 (R47). -/
def rcbReserved (l : List Byte) : Bool :=
  let x := leNat l
  [(63, 57), (127, 121), (287, 272), (383, 368), (447, 424), (511, 491), (543, 530), (575, 554), (707, 707), (1023, 758)].all
    fun r => bitsOf x r.1 r.2 = 0

/-- The ranges of a region control block's own fields (Table 2.6). -/
def Rcb.ranges (r : Rcb) : Bool :=
  r.kernel % 4 = 0 && 1 ≤ r.nteam && r.vgr ≤ 42 && r.sgr ≤ 8 && r.lgr ≤ 512 && r.nbar ≤ 8 && r.ntile ≤ 16
    && r.nacc ≤ 32 && r.prio ≤ 23 && r.blocal ≤ 512 && 1 ≤ r.bframe && r.bframe ≤ 256

/-- Code of a node state in the RCB (Table 2.6); COMPLETE of a rival is never written. -/
def NState.code : NState → Nat
  | .waiting => 0 | .ready => 1 | .running => 2 | .joining => 3 | .committing => 4 | .done => 5 | .failed => 6
  | .cancelled => 7 | .complete => 3

/-- A node that is DONE, FAILED or CANCELLED. -/
def NState.finished : NState → Bool
  | .done | .failed | .cancelled => true
  | _ => false

/-- A NODEIO event (R318). -/
def nodeIo (n : Node) (va access cause : Nat) : Eff := on fun s =>
  event 19 4 (s.lead n.ctx) n.ctx n.rcbva va (access + cause * 2 ^ 8)
    (n.sig.elim 0 fun g => g.queue + g.index % 2 ^ 32 * 2 ^ 32) []

/-- The device writes `STATE`, `REQ` and `TDONE` of a node's RCB (R59); a rival's are never written (R263), and a write
that cannot be performed is dropped and reported. -/
def rcbWrite (nk : Nat) : Eff := on fun s =>
  match s.nodes.find nk with
  | none => skip
  | some n =>
    if n.rival.isSome then skip
    else writeVa (some nk) (s.leadFrame n.ctx) n.ctx (s.lead n.ctx) n.rcbView (n.rcbva + 88)
      (num 7 (n.st.code + n.req % 4 * 2 ^ 4 + n.tdone % 2 ^ 48 * 2 ^ 6)) fun c => nodeIo n (n.rcbva + 88) 1 c

/-- A node takes a state, in the device and in its RCB. -/
def setState (nk : Nat) (st : NState) : Eff := andThen (upNode nk fun n => { n with st := st }) (rcbWrite nk)

/-- The completion signal (R56): `SIGVAL` for DONE, its complement otherwise; a store that cannot be performed is dropped and reported by
`io`. Then the MSI-X message. -/
def sendSignal (ctx view : Nat) (g : Signal) (ok : Bool) (io : Nat → Eff) : Eff := on fun s =>
  let v := if ok then g.val else ~~~ g.val
  andThen (when (g.va ≠ 0) (writeVa none (s.leadFrame ctx) ctx (s.lead ctx) view g.va (num 8 v.toNat) io))
    (when g.irq (msix g.func g.vec))

/-- The signal of a node that has finished. -/
def nodeSignal (n : Node) (ok : Bool) : Eff :=
  onSome n.sig fun g => sendSignal n.ctx 0 g ok fun c => nodeIo n g.va 3 c

/-- Removes operations, their places in store buffers and matrix queues, and the records of engine commands and lost stores among them,
which become STALE (R245). -/
def dropOps (p : Op → Bool) : Eff := on fun s =>
  let gone := (s.ops.filter fun kv => p kv.2).map Prod.fst
  seqs [each gone fun k => act (.op k none),
    each s.recs fun kv => when ((kv.2.kind = 4 || kv.2.kind = 5 || kv.2.kind = 7) && gone.contains kv.2.op) (act (.fr kv.1 none)),
    each s.rods fun kv => act (.rod kv.1 (some { kv.2 with store := kv.2.store.filter fun k => !gone.contains k })),
    each s.mxq fun kv => act (.mx kv.1 (some (kv.2.filter fun m => !gone.contains m.op)))]

/-- Number under which the operations and records of a group go on once it has retired; the slot part stays (R238). -/
def retiredGid (gid : Nat) : Nat := gid + 2 ^ 31

/-- A group ends at once: its continuations, operations and faults with it (R245, R268); its `SIDX` is free again. What a group that has
retired from the slot has left behind stays. -/
def dropGroup (gid : Nat) : Eff := on fun s =>
  match s.groups.find gid with
  | none => skip
  | some g =>
    seqs [dropOps fun o => o.gid = gid,
      each s.groups fun kv => when (kv.2.cont.map Prod.fst = some gid) (act (.group kv.1 none)),
      each s.recs fun kv => when (kv.2.gid = gid) (act (.fr kv.1 none)),
      upCtx (s.ctxOf g) fun c => { c with sidx := c.sidx.filter fun x => x ≠ g.csr.sidx.toNat },
      act (.group gid none)]

/-- A team ends at once and releases its reservation (R45, R278). -/
def dropTeam (tk : Nat) : Eff := on fun s =>
  match s.teams.find tk with
  | none => skip
  | some t => seqs [each t.groups dropGroup, dropOps fun o => o.team = tk, act (.team tk none)]

/-- The teams of a node. -/
def State.teamsOf (s : State) (nk : Nat) : List Nat := (s.teams.filter fun kv => kv.2.node = nk).map Prod.fst

/-- The registered nodes below a node, within `n` links (R46). -/
def State.below (s : State) : Nat → Nat → List Nat
  | 0, _ => []
  | n + 1, nk =>
    let kids := (s.nodes.filter fun kv => kv.2.parent = some nk).map Prod.fst
    kids ++ kids.flatMap (s.below n)

/-- The descendants of a node. -/
def State.descendants (s : State) (nk : Nat) : List Nat := s.below s.nodes.length nk

/-- A node with its ancestors that are registered. -/
def State.ancestry (s : State) : Nat → Nat → List Nat
  | 0, _ => []
  | n + 1, nk => nk :: ((s.nodes.find nk).bind Node.parent).elim [] (s.ancestry n)

/-- An operation's team field once its team has retired: it names the node. -/
def retiredTeam (nk : Nat) : Nat := 2 ^ 40 + nk

/-- What a node has under way stops: its teams, and what its retired teams have left (R264, R268). -/
def stopNode (nk : Nat) : Eff := on fun s => andThen (each (s.teamsOf nk) dropTeam) (dropOps fun o => o.team = retiredTeam nk)

/-- A node is stopped and removed without a state, signal or effect on its successors (R264, R265). -/
def removeNode (nk : Nat) : Eff := andThen (stopNode nk) (act (.node nk none))

/-- Each `CHOOSE` that waits looks again (R264): a rival has finished, or the fork is gone. -/
def chooseAgain : Eff := on fun s =>
  each s.ops fun kv => match kv.2.ins with
    | .choose .. => when (kv.2.st = .waiting) (soon (.chooseRetire kv.1))
    | _ => skip

/-- Every cache line, bead record and directory entry that is tagged with a view goes (R257, R265). -/
def forgetView (part id : Nat) : Eff := on fun s =>
  let mine (line : Nat) : Bool := viewAt line = viewKey part id
  seqs [each s.l1 fun kv => when (kv.2.any fun x => mine x.1) (act (.l1 kv.1 (some (kv.2.keep fun k _ => !mine k)))),
    each s.rdc fun kv => when (kv.2.any fun x => mine x.1) (act (.rdc kv.1 (some (kv.2.keep fun k _ => !mine k)))),
    each s.l2 fun kv => when (kv.2.any fun x => mine x.1) (act (.l2 kv.1 (some (kv.2.keep fun k _ => !mine k)))),
    each s.beads fun kv => when (mine (kv.1 / 4)) (act (.beads kv.1 none)),
    each s.dir fun kv => when (mine (4 * kv.1)) (act (.dir kv.1 none))]

/-- The views nested in a view, itself included (R265). -/
def State.viewsUnder (s : State) (part id : Nat) : List Nat :=
  let kids (l : List Nat) := (s.views.filter fun kv => kv.2.part = part && l.contains kv.2.parent && kv.2.parent ≠ 0).map fun kv => kv.2.id
  let l1 := kids [id]
  let l2 := kids l1
  let l3 := kids l2
  (id :: (l1 ++ l2 ++ l3)).eraseDups

/-- Drops a view (R265): with the views nested in it, the nodes that run in them, the forks issued there, and every
constant-cache line tagged with them. A guarded node whose own private view is dropped stays (R267, R268, R278). -/
def dropView (part id : Nat) : Eff := on fun s =>
  let vs := s.viewsUnder part id
  let ns := (s.nodes.filter fun kv => s.lead kv.2.ctx = part && vs.contains kv.2.view).map Prod.fst
  seqs [each ns removeNode,
    each s.forks fun kv => when (kv.2.live && kv.2.vpart = part && vs.contains kv.2.view)
      (act (.fork kv.1 (some { kv.2 with live := false, gen := kv.2.gen + 1, rivals := [], views := [] }))),
    each vs fun v => andThen (act (.view (viewKey part v) none)) (forgetView part v),
    chooseAgain,
    each s.ccache fun kv => act (.ccache kv.1 (some (kv.2.keep fun k _ => !(k % 4096 / 256 = part && vs.contains (k % 256)))))]

/-- Ends a fork (R264): every rival is stopped and removed, all its views are dropped, and its slot is free. -/
def dropFork (fk : Nat) : Eff := on fun s =>
  match s.forks.find fk with
  | none => skip
  | some f =>
    seqs [each f.rivals fun nk => andThen (on fun s => each (s.descendants nk) removeNode) (removeNode nk),
      each f.views fun v => dropView f.vpart v,
      act (.fork fk (some { f with live := false, gen := f.gen + 1#22, rivals := [], views := [] })),
      chooseAgain]

/-- The live forks that a node has issued. -/
def State.forksOf (s : State) (nk : Nat) : List Nat := (s.forks.filter fun kv => kv.2.live && kv.2.issuer = nk).map Prod.fst

/-- A node that may now leave JOINING is looked at again (R46). -/
def checkJoin (p : Option Nat) : Eff := onSome p fun nk => on fun s =>
  match s.nodes.find nk with
  | some n => when (n.st = .joining)
      (soon (if n.eff.guarded then .nodeCommitting nk else if n.rival.isSome then .rivalComplete nk else .nodeDone nk))
  | none => skip

/-- What follows when a node has finished: its parent, its queue's fence, and the teams that can now start. -/
def afterFinish (n : Node) : Eff :=
  seqs [checkJoin n.parent, onSome n.queue fun q => soon (.qfenceComplete q), soon (.teamReservation n.ctx)]

/-- The registered, unfinished node of a context with an RCB address (R59). -/
def State.nodeAt (s : State) (ctx va : Nat) : Option Nat :=
  (s.nodes.find? fun kv => kv.2.ctx = ctx && kv.2.rcbva = va && !kv.2.st.finished && kv.2.rival.isNone).map Prod.fst

/-- Entry `k` of a node's successor list (R60). -/
def State.succAt (s : State) (n : Node) (k : Nat) : Except Nat Nat :=
  (s.deviceRead (s.leadFrame n.ctx) n.ctx (s.lead n.ctx) n.rcbView (n.eff.succ + 8 * k) 8 false).map leNat

/-- Cancels a node's WAITING and READY successors, and theirs in turn (R61), within `fuel` links. -/
def cancelSucc : Nat → Nat → Eff
  | 0, _ => skip
  | fuel + 1, nk => on fun s =>
    match s.nodes.find nk with
    | none => skip
    | some n =>
      each (List.range n.eff.nsucc) fun k => on fun s =>
        match (s.succAt n k).toOption.bind (s.nodeAt n.ctx) with
        | none => skip
        | some m =>
          match s.nodes.find m with
          | none => skip
          | some x =>
            when (x.st = .waiting || x.st = .ready)
              (seqs [setState m .cancelled, nodeSignal x false, cancelSucc fuel m, afterFinish x])

/-- A node goes to FAILED or CANCELLED (R61). -/
def failNode (nk : Nat) (st : NState) : Eff := on fun s =>
  match s.nodes.find nk with
  | none => skip
  | some n => seqs [setState nk st, when n.rival.isNone (nodeSignal n false), when n.rival.isNone (cancelSucc s.nodes.length nk),
      when n.rival.isSome chooseAgain, afterFinish n]

/-- A WAITING node becomes READY, behind those that were READY before it (R60, R65). -/
def becomesReady (nk ctx : Nat) : Eff := fresh fun k =>
  seqs [upNode nk fun x => { x with readyAt := k }, setState nk .ready, soon (.teamReservation ctx)]

/-- One successor's dependence count is decremented, and the successor READY when it comes to 0 in state WAITING, as one operation at the
home of its RCB (R60); an entry or an RCB that cannot be reached is skipped and reported. A successor that is not registered has the state that
its RCB holds. -/
def decrement (n : Node) (k : Nat) : Eff := on fun s =>
  match s.succAt n k with
  | .error c => nodeIo n (n.eff.succ + 8 * k) 2 c
  | .ok va =>
    let at_ (a len : Nat) := s.deviceRead (s.leadFrame n.ctx) n.ctx (s.lead n.ctx) n.rcbView a len true
    match at_ (va + 36) 4, at_ (va + 88) 8, s.deviceWrite (s.leadFrame n.ctx) n.ctx (va + 36) with
    | .ok d, .ok st, .ok pa =>
      let c := leNat d
      if c = 0 then event 10 4 (s.lead n.ctx) n.ctx va n.rcbva 0 0 []
      else
        andThen (writeBytesBy none (s.lead n.ctx) n.rcbView pa (num 4 (c - 1)) none)
          (when (c = 1) (match s.nodeAt n.ctx va with
          | some m => when ((s.nodes.find m).elim false fun x => x.st = .waiting) (becomesReady m n.ctx)
          | none => when (bitsOf (leNat st) 3 0 = 0)
              (writeVa none (s.leadFrame n.ctx) n.ctx (s.lead n.ctx) n.rcbView (va + 88) (num 1 (leNat st % 256 / 16 * 16 + NState.code .ready))
                fun c => nodeIo n (va + 88) 1 c)))
    | .error e, _, _ | _, .error e, _ | _, _, .error e => nodeIo n va 2 e

/-- A node becomes DONE (R46, R56, R60). -/
def doneNode (nk : Nat) : Eff := on fun s =>
  match s.nodes.find nk with
  | none => skip
  | some n =>
    seqs [setState nk .done, each (List.range n.eff.nsucc) (decrement n), nodeSignal n true, afterFinish n]

/-- Whether the poison rule of guarded and idempotent nodes lets a node be rolled back (R268, R269): its `REQ` is below 3
and its view, or itself, is not ESCAPED. -/
def State.canRollBack (s : State) (n : Node) : Bool :=
  n.req < 3 && !(if n.eff.guarded then
      (n.priv.bind fun v => s.views.find (viewKey (s.lead n.ctx) v)).elim false View.escaped
    else n.escaped)

/-- `VPATH` of a view (R306): 4 bits for each nesting level, the rival index or 15 for a private view. -/
def State.vpathIn (s : State) (part : Nat) : Nat → Nat → Nat
  | 0, _ => 0
  | n + 1, id =>
    if id = 0 then 0
    else match s.views.find (viewKey part id) with
      | none => 0
      | some v =>
        let x := (v.node.bind fun k => s.nodes.find k).elim 15 fun k => if k.priv = some id then 15 else k.rival.elim 15 Prod.snd
        x % 16 * 2 ^ (4 * (v.depth - 1)) + s.vpathIn part n v.parent

/-- `VPATH` of a view. -/
def State.vpath (s : State) (part id : Nat) : Nat := s.vpathIn part 5 id

/-- A guarded or idempotent node is rolled back and queued again (R268, R269, R481), with its ROLLBACK report. That `TDONE` starts again
from 0 is the model's reading (DEDUCED, log entry 85). -/
def rollBackHere (nk : Nat) (pay : Word) : Eff := fresh fun k => on fun s =>
  match s.nodes.find nk with
  | none => skip
  | some n =>
    seqs [stopNode nk, each (s.descendants nk) removeNode, each (s.forksOf nk) dropFork,
      onSome n.priv (dropView (s.lead n.ctx)),
      act (.node nk (some { n with req := n.req + 1, st := .ready, tnext := 0, tdone := 0, priv := none, readyAt := k,
                                   sarrive := [], sstep := 0, escaped := false, digest := 0#64, waits := false })),
      rcbWrite nk,
      countErr (s.lead n.ctx / 4 % 4) 7 1,
      event 5 4 (s.lead n.ctx) n.ctx n.rcbva pay.toNat (n.req + 1)
        (match n.rival with
        | some (_, i) => 2 + i * 2 ^ 8
        | none => if n.eff.guarded then 0 else 1) [],
      soon (.teamReservation n.ctx)]

/-- The key of a node's digest exchange (R307). -/
def State.twinKey (s : State) (n : Node) (sstep : BitVec 32) : TwinKey :=
  ⟨n.rcbva, BitVec.ofNat 16 (s.vpath (s.lead n.ctx) n.runView), n.order, sstep⟩

/-- A node is rolled back; that of a paired node is mirrored to the twin (R307). -/
def rollBack (nk : Nat) (pay : Word) : Eff := on fun s =>
  andThen (onSome (s.nodes.find nk) fun n => when n.eff.paired (out (.twinRollback (s.twinKey n 0xFFFFFFFF#32)))) (rollBackHere nk pay)

end Sys2Proof.Machine
end

