-- ==== Sys2Proof/Machine/Operands.lean ====
section
/-!
DEFINITION. Operands.lean: an instruction at its issue: the lanes it acts on, the bank clocks of its vector reads (R71),
its operand values (R77, R82, R83, R103), and the results that it sends on their way (R73, R80, R85 to R92).
-/
namespace Sys2Proof.Machine

/-- One vector-register read: its slot, which register of the span, and its bank clock (R71). -/
structure ReadAt where
  slot : Nat
  k    : Nat
  clk  : Nat
  deriving DecidableEq, Repr

/-- An instruction at its issue: the group (results up to now landed), its team and node, the clock, the group PC, the
Active set (R26), the Active and guard-true lanes, the payloads of a poisoned lane guard (R253), the vector reads, the
clock in which collection is complete, and the rod's reservations. -/
structure Iss where
  gid   : Nat
  g     : Group
  tm    : Team
  nk    : Nat
  nd    : Option Node
  t     : Nat
  clk64 : BitVec 64
  depth : Nat
  pc    : BitVec 57
  act   : Mask
  on    : Mask
  gpoi  : List (Option Word)
  reads : List ReadAt
  coll  : Nat
  rod   : Rod
  free  : Nat
  deriving DecidableEq, Repr

/-- The rod key of a frame and a rod. -/
def rodKey (frame rod : Nat) : Nat := 16 * frame + rod

/-- First clock at or after `t` in which bank `b` serves no read yet, within `fuel` clocks (R71). -/
def freeClock (l : List (Nat × Nat)) (b : Nat) : Nat → Nat → Nat
  | 0, t => t
  | fuel + 1, t => if l.contains (b, t) then freeClock l b fuel (t + 1) else t

/-- The bank clocks of a list of reads (slot, span index, register), taken in order (R71). -/
def schedule (t : Nat) : List (Nat × Nat) → List (Nat × Nat × Nat) → List ReadAt
  | _, [] => []
  | l, (slot, k, r) :: rest =>
    let c := freeClock l (r % 6) (l.length + 1) (t + 1)
    ⟨slot, k, c⟩ :: schedule t ((r % 6, c) :: l) rest

/-- The clock of a vector read. -/
def Iss.readClk (c : Iss) (slot k : Nat) : Nat :=
  ((c.reads.find? fun r => r.slot = slot && r.k = k).map ReadAt.clk).getD c.t

/-- An element with a value and no poison. -/
def clean (w : Word) : Elem := ⟨w, false⟩

/-- A condition or flag register lane read as a value (R82). -/
def FlagE.elem (f : FlagE) : Elem := if f.poi then ⟨f.pay, true⟩ else clean (f.fl.zeroExtend 32)

/-- A latch or operand-cache lane read as a value: an invalid lane reads 0, not poisoned (R95). -/
def LatchE.elem (l : LatchE) : Elem := if l.valid then ⟨l.val, l.poi⟩ else clean 0#32

/-- The special registers (Table 2.3), lane by lane. -/
def Iss.special (c : Iss) (n : Nat) : Lanes :=
  match n with
  | 0 => tab32 fun k => clean (BitVec.ofNat 32 k)
  | 1 => uniform (clean (BitVec.ofNat 32 c.g.idx))
  | 2 => uniform (clean (BitVec.ofNat 32 c.tm.index))
  | 3 => uniform (clean (BitVec.ofNat 32 (c.tm.index / 2 ^ 32)))
  | 4 => uniform (clean (BitVec.ofNat 32 c.tm.vframe))
  | 5 => uniform (clean (BitVec.ofNat 32 c.g.rod))
  | 6 => uniform (clean (BitVec.ofNat 32 (min (2 ^ 32 - 1) (c.nd.elim 0 fun n => n.eff.nteam))))
  | 7 => uniform (clean (c.clk64.extractLsb' 0 32))
  | 8 => uniform (clean (c.g.z8.getD (c.clk64.extractLsb' 32 32)))
  | 9 => uniform (clean c.act)
  | 10 => uniform (clean (BitVec.ofNat 32 (c.nd.elim 0 fun n => n.rival.elim 0 Prod.snd)))
  | _ => uniform (clean (BitVec.ofNat 32 c.depth))

/-- The 32 lanes of register `k` of a source's span (R77, R83, R103). -/
def Iss.srcK (c : Iss) (slot : Nat) (s : Src) (k : Nat) : Lanes :=
  let n := s.idx.toNat + k
  match s.cls with
  | .v => c.g.vAt n (c.readClk slot k)
  | .s => uniform (c.g.sreg n)
  | .q => tab32 fun L => ((c.g.latch n).getD L latch0).elem
  | .o => tab32 fun L => ((c.g.ocache n).getD L latch0).elem
  | .cf => if n < 4 then tab32 fun L => ((c.g.creg n).getD L flag0).elem else uniform (c.g.freg (n - 4)).elem
  | .z => c.special n
  | .ta => zeroLanes
  | .imm => uniform (clean (if k = 0 then s.idx.signExtend 32 else if s.idx.msb then 0xFFFFFFFF#32 else 0#32))

/-- The 32 lanes of a 32-bit source. -/
def Iss.src (c : Iss) (slot : Nat) (s : Src) : Lanes := c.srcK slot s 0

/-- A uniform source read as one element. -/
def Iss.uni (c : Iss) (slot : Nat) (s : Src) (k : Nat) : Elem := lane (c.srcK slot s k) 0

/-- Lane `L` of a 64-bit source: its value, and its payload when a half is poisoned, the even half's first (R103). -/
def Iss.pairAt (c : Iss) (slot : Nat) (s : Src) (L : Nat) : BitVec 64 × Option Word :=
  let lo := lane (c.srcK slot s 0) L
  let hi := lane (c.srcK slot s 1) L
  (hi.val ++ lo.val, if lo.poi then some lo.val else if hi.poi then some hi.val else none)

/-- Lane `L` of a source of either width, as a 64-bit pattern with its payload. -/
def Iss.atW (c : Iss) (w64 : Bool) (slot : Nat) (s : Src) (L : Nat) : BitVec 64 × Option Word :=
  if w64 then c.pairAt slot s L
  else
    let e := lane (c.src slot s) L
    (e.val.zeroExtend 64, if e.poi then some e.val else none)

/-- Lane `L` of operand B, with the 24-bit immediate sign-extended (R330). -/
def Iss.opndAt (c : Iss) (w64 : Bool) (o : Opnd) (L : Nat) : BitVec 64 × Option Word :=
  match o with
  | .reg s => c.atW w64 2 s L
  | .imm i => (if w64 then i.signExtend 64 else (i.signExtend 32).zeroExtend 64, none)

/-- Lane `L` of a 32-bit source: value and payload. -/
def Iss.at32 (c : Iss) (slot : Nat) (s : Src) (L : Nat) : Word × Option Word :=
  let e := lane (c.src slot s) L
  (e.val, if e.poi then some e.val else none)

/-- The first payload of a list of sources (R253). -/
def firstPoison : List (Option Word) → Option Word
  | [] => none
  | some w :: _ => some w
  | none :: l => firstPoison l

/-- What an instruction makes for one lane: the registers of its result, its poison, the `FPFLG` flags that it raises.
For a class-4 destination the flags stand in bits [3:0] (R80). -/
structure LaneOut where
  vals : List Word
  poi  : Option Word
  flg  : BitVec 6
  deriving DecidableEq, Repr

/-- A result of one 32-bit register, with no flag. -/
def out32 (w : Word) (p : Option Word) : LaneOut := ⟨[w], p, 0#6⟩

/-- A result in a pair, even register first (R103), or in one register. -/
def outW (w64 : Bool) (x : BitVec 64) (p : Option Word) : LaneOut :=
  ⟨if w64 then [x.extractLsb' 0 32, x.extractLsb' 32 32] else [x.extractLsb' 0 32], p, 0#6⟩

/-- Register `k` of a lane's result as an element: the payload in its place when poisoned (R250). -/
def LaneOut.elem (o : LaneOut) (k : Nat) : Elem :=
  match o.poi with
  | some w => ⟨w, true⟩
  | none => clean (o.vals.getD k 0#32)

/-- A lane's result as flags: clear, with the payload, when poisoned (Table 11.4). -/
def LaneOut.flag (o : LaneOut) : FlagE :=
  match o.poi with
  | some w => ⟨0#4, true, w⟩
  | none => ⟨(o.vals.getD 0 0#32).extractLsb' 0 4, false, 0#32⟩

/-- A lane's result with the poison of the guard behind that of the sources (R253). -/
def Iss.guarded (c : Iss) (o : LaneOut) (L : Nat) : LaneOut :=
  match o.poi, c.gpoi.getD L none with
  | none, some w => { o with poi := some w }
  | _, _ => o

/-- The flags that the lanes of a set raise: those of lanes whose result is not poisoned (R106). -/
def raised (m : Mask) (f : Nat → LaneOut) : BitVec 6 :=
  m.lanes.foldl (fun b n => if (f n).poi.isNone then b ||| (f n).flg else b) 0#6

/-- The one value that a uniform destination receives from the lanes of a set: their common result; a value that the
lanes do not share is stated by no rule and is free (log entry 8). -/
def common (m : Mask) (f : Nat → LaneOut) (n : Nat) : LaneOut :=
  match m.lanes with
  | [] => out32 0#32 none
  | a :: l => if l.all fun b => f b = f a then f a else ⟨(f a).vals.map fun _ => Config.anyWord n, none, (f a).flg⟩

/-- First latch clock at or after `t` that the rod has not reserved, within `fuel` clocks (R73). -/
def freeSlot (l : List Slot) : Nat → Nat → Nat
  | 0, t => t
  | fuel + 1, t => if l.any fun p => p.clk = t then freeSlot l fuel (t + 1) else t

/-- The clocks and banks of the register writes of a result that enters the latch chain in clock `L` (R73, R93, R379). -/
def regWrites (d : Dst) (span L : Nat) : List (Nat × Nat) :=
  if d.nwb || d.cls ≠ .v then [] else (List.range span).map fun k => (if k < 6 then L + 2 else L + 3, (d.idx.toNat + k) % 6)

/-- The clearing of the scoreboard that an instruction names, in clock `t`. -/
def sbAt (i : Instr) (t : Nat) : List Pend :=
  match i.sbs with
  | some n => [⟨t, .sb n⟩]
  | none => []

/-- The results in flight of a vector result that enters the latch chain in clock `L` (R85, R89, R91): the push under the
hold mask now in force (of a pair, its even register: DEDUCED, log entry 76), the operand-cache entry, and the register writes at `L` + 2; registers 6 and 7 of a span share a
bank with 0 and 1 and are written one clock later (R379). -/
def vecPends (i : Instr) (d : Dst) (span : Nat) (hm : BitVec 4) (m : Mask) (L : Nat) (x : Nat → Lanes) : List Pend :=
  let h := (i.head.getD ⟨.al, ⟨0, false, 0, 0, false, 0, false, 0⟩⟩).hint
  [⟨L, .push hm m (x 0)⟩] ++ (if h.ocap then [⟨L, .ocap h.ocsel.toNat m (x 0)⟩] else [])
    ++ (if d.nwb then [] else (List.range span).map fun k => ⟨if k < 6 then L + 2 else L + 3, .wv (d.idx.toNat + k) m (x k)⟩)

/-- A result on the return path `d` clocks later. -/
def Ret.shift (d : Nat) (r : Ret) : Ret :=
  { r with clk := r.clk + d, writes := r.writes.map fun p => (p.1 + d, p.2), pend := r.pend.map fun p => { p with clk := p.clk + d } }

/-- A returned result in the first clock, from its own on, that no other returned result has, and in which its registers' banks take
no other write (R73), within `fuel` clocks. -/
def placeRet (w : List (Nat × Nat)) (before : List Ret) : Nat → Ret → Ret
  | 0, r => r
  | fuel + 1, r =>
    if (before.any fun q => q.clk = r.clk) || r.writes.any w.contains then placeRet w before fuel (r.shift 1) else r

/-- The results on the return path, each in its place: the older ones first (R73). -/
def placeRets (w : List (Nat × Nat)) (l : List Ret) : List Ret :=
  l.foldl (fun before r => before ++ [placeRet w before (l.length + w.length + 1) r]) []

/-- A result that comes to a rod's return path, in its place behind those that are there. -/
def State.placed (s : State) (key : Nat) (me : Ret) : Ret :=
  let r := (s.rods.find key).getD ⟨[], [], [], []⟩
  let w := r.slots.flatMap Slot.writes
  placeRet w r.rets (r.rets.length + w.length + 1) me

/-- Of results in flight, one that is there is exchanged for another. -/
def replacePend (p q : Pend) (l : List Pend) : List Pend := if l.contains p then addPend (l.erase p) q else l

/-- A returned result of a group moves to another clock. -/
def Group.moveRet (g : Group) (a b : Ret) : Group :=
  let go (l : List Pend) := (a.pend.zip b.pend).foldl (fun l p => replacePend p.1 p.2 l) l
  { g with pend := go g.pend, past := g.past.map fun x => { x with pend := go x.pend } }

/-- The returned results of a rod take their places anew, whenever a reserved result is added (R73). -/
def settleRets (key : Nat) : Eff := on fun s => onSome (s.rods.find key) fun r =>
  let new := placeRets (r.slots.flatMap Slot.writes) r.rets
  when (new ≠ r.rets)
    (seqs [act (.rod key (some { r with rets := new })),
      each (r.rets.zip new) fun p => when (p.1 ≠ p.2) (on fun s => each s.groups fun kv =>
        when (kv.1 = p.1.dest || kv.2.cont.map Prod.fst = some p.1.dest) (upGroup kv.1 fun g => g.moveRet p.1 p.2))])

/-- The clock in which the last of some results in flight has come, none before `L`. -/
def lastClk (L : Nat) (l : List Pend) : Nat := l.foldl (fun m p => max m p.clk) L

/-- Results in flight go to a group; a continuation issues nothing more until they have come, its register writes among them (R35). -/
def Group.takes (g : Group) (l : List Pend) (L : Nat) : Group :=
  { g.pends l with ready := if g.cont.isSome then max g.ready (lastClk L l) else g.ready }

/-- The clock in which collection and execution of a fixed-latency instruction end, before any other use of its latch clock (R72). -/
def Iss.nominal (c : Iss) (i : Instr) : Nat := c.coll + (i.best - 1)

/-- The latch clock of a vector result (R73). -/
def Iss.latchClk (c : Iss) (i : Instr) : Nat :=
  if c.g.cont.isSome then c.t + i.best else freeSlot c.rod.slots (c.rod.slots.length + 1) (c.nominal i)

/-- The clock of a result that goes to no latch: on the uniform datapath it takes up to 4 clocks more than the best figure (R74). -/
def Iss.plainClk (c : Iss) (i : Instr) (n : Nat) : Nat :=
  if i.onUniform then c.t + delay i.ubest (i.ubest + 4) n else if c.g.cont.isSome then c.t + i.best else c.nominal i

/-- Register `k` of what the lanes make. -/
def Iss.lanesOf (c : Iss) (f : Nat → LaneOut) (k : Nat) : Lanes := tab32 fun n => if c.on.has n then (f n).elem k else clean 0#32

/-- The faults that threads of a group hold or are about to hold, each once (R241). -/
def Group.heldFaults (g : Group) : List HeldFault :=
  (g.threads.flatMap Thread.faults ++ g.pend.filterMap fun p =>
    match p.kind with
    | .hold _ f => some f
    | _ => none).eraseDups

/-- The lanes of `m` that come to hold a fault by what they receive (R241): its PAGE poison, among the payloads that `pays` lists. -/
def Group.newHolds (g : Group) (m : Mask) (pays : Nat → List Word) : List PendKind :=
  g.heldFaults.filterMap fun f =>
    let r : Mask := m &&& Mask.of fun n => (pays n).contains f.pay && !(g.th n).faults.any fun x => x.fr = f.fr
    if r = 0#32 then none else some (.hold r f)

/-- The faults that lanes come to hold by a result, in clock `L` (R241). -/
def Iss.holds (c : Iss) (f : Nat → LaneOut) (L : Nat) : List Pend :=
  (c.g.newHolds c.on fun n => (f n).poi.toList).map fun k => ⟨L, k⟩

/-- What a vector result in flight does, latch clock `L` (R73, R85, R86, R106). -/
def Iss.vecResults (c : Iss) (i : Instr) (u : DstUse) (f : Nat → LaneOut) (hm : BitVec 4) (L : Nat) : List Pend :=
  vecPends i u.dst u.span hm c.on L (c.lanesOf f) ++ [⟨L, .flg (raised c.on f)⟩] ++ c.holds f L
    ++ sbAt i (if u.span = 8 && !u.dst.nwb then L + 2 else L + 1)

/-- The register writes of a result for a uniform or condition register (R80); `n` numbers a free value. -/
def Iss.plainWrites (c : Iss) (u : DstUse) (f : Nat → LaneOut) (n : Nat) : List PendKind :=
  if u.dst.nwb || c.on = 0#32 then []
  else match u.dst.cls with
    | .s => (List.range u.span).map fun k => .ws (u.dst.idx.toNat + k) ((common c.on f n).elem k)
    | .cf =>
      if u.dst.idx.toNat < 4 then [.wc u.dst.idx.toNat c.on (tab32 fun n => (f n).flag)]
      else [.wf (u.dst.idx.toNat - 4) (common c.on f n).flag]
    | _ => []

/-- What a result for a uniform or condition register in flight does in clock `L` (R80, R86, R106). -/
def Iss.plainResults (c : Iss) (i : Instr) (u : DstUse) (f : Nat → LaneOut) (n L : Nat) : List Pend :=
  (c.plainWrites u f n).map (fun k => ⟨L, k⟩) ++ [⟨L, .flg (raised c.on f)⟩] ++ c.holds f L ++ sbAt i (L + 1)

/-- The flags that a continuation raises reach its group in the clock of the result (R107). -/
def Iss.flagsUp (c : Iss) (L : Nat) (b : BitVec 6) : Eff :=
  onSome c.g.cont fun p => upGroup p.1 fun g => g.pends [⟨L, .flg b⟩]

/-- A fixed-latency result on its way (R73, R80, R85, R86). `useGuard` says whether the guard's poison reaches the result (R253). -/
def Iss.putG (c : Iss) (i : Instr) (useGuard : Bool) (f0 : Nat → LaneOut) : Eff :=
  match i.dst? with
  | none => skip
  | some u =>
    let f := fun L => if useGuard then c.guarded (f0 L) L else f0 L
    if i.vecResult then
      seqs [when c.g.cont.isNone (andThen (upRod (rodKey c.g.frame c.g.rod) fun r =>
            { r with slots := r.slots ++ [⟨c.latchClk i, c.t, regWrites u.dst u.span (c.latchClk i)⟩] })
          (settleRets (rodKey c.g.frame c.g.rod))),
        c.flagsUp (c.latchClk i) (raised c.on f),
        upGroup c.gid fun g => g.takes (c.vecResults i u f g.hm (c.latchClk i)) (c.latchClk i)]
    else freely fun n => andThen (c.flagsUp (c.plainClk i n) (raised c.on f))
      (upGroup c.gid fun g => g.takes (c.plainResults i u f n (c.plainClk i n)) (c.plainClk i n))

/-- A fixed-latency result of the classes of R253. -/
def Iss.put (c : Iss) (i : Instr) (f : Nat → LaneOut) : Eff := c.putG i true f

end Sys2Proof.Machine
end

