-- ==== Sys2Proof/Machine/LsWords.lean ====
section
/-!
DEFINITION. LsWords.lean: the full/empty words of the local store and the operations queued at them (R156 to R159, R417, R457).
-/
namespace Sys2Proof.Machine

/-- Local-store word `k` of a team; a word not listed is empty, clean and 0 (R28). -/
def Team.word (t : Team) (k : Nat) : LWord := t.words.findD k ⟨0#32, false, false, []⟩

/-- The end of an operation on full/empty words whose lanes have all been performed: the group goes on, and a load's result is on
its way (R158, R417, R457). -/
def wordsDone (id : Nat) (o : Op) : Eff := on fun s =>
  let free (d : Nat) := upGroup o.dest fun g =>
    match g.hold with
    | .fewait k _ => if k = id then { g with hold := .none, ready := max g.ready (s.now + d) } else g
    | _ => g
  match o.ins with
  | .stwe .. => freely fun n => seqs [upOp id fun o => { o with st := .performed }, free (delay 24 40 n), soon (.grant ⟨id, none⟩)]
  | _ => seqs [upOp id fun o => { o with st := .performed }, free 1,
      upGroup o.dest fun g => if g.cont.isSome then { g with hold := .op id } else g,
      later 17 33 (.loadReturn id)]

/-- One queued operation is performed at its word (Table 7.1): `l` is its lane. -/
def performWord (tk k id l : Nat) : Eff := on fun s =>
  match s.teams.find tk, s.ops.find id with
  | some t, some o =>
    let w := t.word k
    let e : Elem := ⟨w.val, w.poi⟩
    let dat := ((o.accs.find? fun a => a.lane = l).bind fun a => a.dat.head?).getD (clean 0#32)
    let w2 : LWord := match o.ins with
      | .stwe .. => { w with val := dat.val, poi := false, full := true }
      | .ldtk .. => { w with full := false }
      | _ => w
    let got (a : Acc) : Lanes := match o.ins with
      | .stwe .. => []
      | _ => match a.dat with
        | g :: _ => if g.poi && !e.poi then [g] else [e]
        | [] => [e]
    let accs := o.accs.map fun a => if a.lane = l then { a with done := true, res := got a } else a
    seqs [upWords tk fun t => { t with words := t.words.put k { w2 with wait := w2.wait.erase (id, l) } },
      upOp id fun o => { o with accs := accs },
      when (accs.all Acc.done) (wordsDone id { o with accs := accs })]
  | _, _ => skip

/-- The first operation queued at a word that the word can serve (R157): a load when it is full, a store when it is empty. -/
def nextAt (s : State) (w : LWord) : Option (Nat × Nat) :=
  w.wait.find? fun p => match (s.ops.find p.1).map Op.ins with
    | some (.stwe ..) => !w.full
    | some _ => w.full
    | none => false

/-- A word serves its queue (R157), at most `n` operations. -/
def serve (tk k : Nat) : Nat → Eff
  | 0 => skip
  | n + 1 => on fun s =>
    match (s.teams.find tk).map fun t => t.word k with
    | none => skip
    | some w =>
      match nextAt s w with
      | none => skip
      | some p => andThen (performWord tk k p.1 p.2) (serve tk k n)

/-- A word serves its queue. -/
def serveWord (tk k : Nat) : Eff := on fun s => serve tk k ((s.teams.find tk).elim 0 fun t => (t.word k).wait.length)

/-- One word of a `FESET` (Table 7.1). -/
def setWord (tk k : Nat) (z full : Bool) : Eff :=
  andThen (upWords tk fun t =>
      let w := t.word k
      { t with words := t.words.put k { w with val := if z then 0#32 else w.val, poi := w.poi && !z, full := full } })
    (serveWord tk k)

/-- The words of a `FESET`: their first and their number, kept as its operand values (R159). -/
def fesetRun (o : Op) : Nat × Nat := ((o.vals.getD 0 (clean 0#32)).val.toNat / 4, (o.vals.getD 1 (clean 0#32)).val.toNat)

/-- The words of a `FESET` up to the `n`-th are changed, one by one (R159); with its last word it has been performed. -/
def fesetTo (id n : Nat) : Eff := on fun s => onSome (s.ops.find id) fun o =>
  match o.ins with
  | .feset _ z full _ _ =>
    let r := fesetRun o
    andThen (upOp id fun o => { o with seg := max o.seg n, st := if r.2 ≤ n then .performed else o.st })
      (each (List.range (n - o.seg)) fun k => setWord o.team (r.1 + o.seg + k) z full)
  | _ => skip

/-- Whether an instruction is a `FESET`. -/
def isFeset : Instr → Bool
  | .feset .. => true
  | _ => false

/-- The `FESET`s of a group that are under way. -/
def State.fesetsOf (s : State) (gid : Nat) : List (Nat × Op) := s.ops.filter fun kv => kv.2.gid = gid && kv.2.st = .sent && isFeset kv.2.ins

/-- A group's next access to the local store comes behind every word of its `FESET`s (R185, R393): what they have not changed yet is
changed before it. -/
def finishFesets (gid : Nat) : Eff := on fun s => each (s.fesetsOf gid) fun kv => fesetTo kv.1 (fesetRun kv.2).2

end Sys2Proof.Machine
end

