-- ==== Sys2Proof/Machine/Issue.lean ====
section
/-!
DEFINITION. Issue.lean: what every instruction shares at issue: guard, checks in their order, parking, hand-back of
continuations, hints, dead marks (R26, R36, R84, R87, R92, R95, R221, R241, R253, R255, R328, R338, R339).
-/
namespace Sys2Proof.Machine

/-- Whether an instruction is an access on the GEN path to the local store (Table 7.2). -/
def genLocal : Instr → Bool
  | .ld _ ls .. | .st _ ls .. | .atom _ ls .. | .acas _ ls .. | .red _ ls .. => ls
  | .ldwf .. | .ldtk .. | .stwe .. | .feset .. => true
  | _ => false

/-- What a meaning answers at issue. -/
inductive Res where
  /-- A precise trap at the instruction (R270). -/
  | trap (cause : Trap) (info : BitVec 64)
  /-- A trap with a `TPC` of its own (R466). -/
  | trapAt (cause : Trap) (info : BitVec 64) (tpc : BitVec 57)
  /-- The instruction issues and has this effect. -/
  | done (e : Eff)
  /-- The instruction does not issue; only this happens (parking, roll-back, fatal fault). -/
  | stop (e : Eff)
  /-- A continuation hands its thread back (R36). -/
  | back

/-- The lanes of a set in which a condition register is poisoned, with the payloads (R253). -/
def guardPoison (g : Group) (gd : Guard) : List (Option Word) :=
  match gd with
  | .lane r _ => tab32 fun n =>
    let f := (g.creg r.toNat).getD n flag0
    if f.poi then some f.pay else none
  | _ => []

/-- Whether a lane's guard is true; a poisoned condition makes it true (R253). -/
def guardTrue (g : Group) (gd : Guard) (n : Nat) : Bool :=
  match gd with
  | .al => true
  | .lane r cc =>
    let f := (g.creg r.toNat).getD n flag0
    f.poi || evalCc cc f.fl
  | .uni r cc => (g.freg r.toNat).poi || evalCc cc (g.freg r.toNat).fl

/-- Whether an unpoisoned uniform guard is false, so that the instruction is skipped (R327). -/
def skipped (g : Group) (gd : Guard) : Bool :=
  match gd with
  | .uni r cc => !(g.freg r.toNat).poi && !evalCc cc (g.freg r.toNat).fl
  | _ => false

/-- The payload of a poisoned uniform guard (R255). -/
def uniPoison (g : Group) (gd : Guard) : Option Word :=
  match gd with
  | .uni r _ => if (g.freg r.toNat).poi then some (g.freg r.toNat).pay else none
  | _ => none

/-- Whether the group runs in kernel mode: cell firmware on a service frame (R333). -/
def Group.kernel (g : Group) : Bool := 256 ≤ g.frame

/-- The view depth of a group (R257). -/
def State.depthOf (s : State) (g : Group) : Nat :=
  if g.csr.vid = 0 then 0 else (s.views.find (viewKey (s.lead (s.ctxOf g)) g.csr.vid)).elim 0 View.depth

/-- Whether an issue with Active set `a` is the one that runs for the resume mask alone (R158). -/
def Group.resumes (g : Group) (a : Mask) : Bool := g.resuming && (a &&& g.resume) ≠ 0#32

/-- An instruction at its issue from a group: Active set `a` at `pc`. -/
def issOf (s : State) (gid : Nat) (g : Group) (i : Instr) (pc : BitVec 57) (a : Mask) : Iss :=
  let tm := (s.teams.find g.team).getD ⟨0, 0, 0, 0, false, [], 0, [], 0, 0, 0, 0, 0, 0, 0, [], [], [], []⟩
  let rod := (s.rods.find (rodKey g.frame g.rod)).getD ⟨[], [], [], []⟩
  let reads := if g.cont.isSome then i.vreads.map fun r => ⟨r.1, r.2.1, s.now⟩ else schedule s.now rod.reads i.vreads
  let on : Mask := if g.resumes a then a &&& g.resume else a &&& Mask.of fun n => guardTrue g i.guard n
  let z7 := i.uses.any fun u => u.src.cls = .z && u.src.idx = 7#8
  let clk := BitVec.ofNat 64 s.now
  { gid := gid, g := if z7 then { g with z8 := some (clk.extractLsb' 32 32) } else g, tm := tm, nk := tm.node,
    nd := s.nodes.find tm.node, t := s.now, clk64 := clk, depth := s.depthOf g, pc := pc, act := a, on := on,
    gpoi := guardPoison g i.guard, reads := reads,
    coll := reads.foldl (fun m r => max m r.clk) (s.now + 1), rod := rod, free := s.free }

/-- `TADDR` of an operand field that fails `ALLOC` or `STALE` (R84): the field and its slot. -/
def fieldInfo (slot : Nat) (f : BitVec 12) : BitVec 64 := (f.zeroExtend 64) ||| (BitVec.ofNat 64 slot <<< 12)

/-- The code of a register class. -/
def clsCode : Cls → BitVec 3
  | .v => 0 | .s => 1 | .q => 2 | .o => 3 | .cf => 4 | .z => 5 | .ta => 6 | .imm => 7

/-- The 12 bits of a source field (R325). -/
def srcField (s : Src) : BitVec 12 := BitVec.ofBool s.dead ++ clsCode s.cls ++ s.idx

/-- The 12 bits of a destination field (R325). -/
def dstField (d : Dst) : BitVec 12 := BitVec.ofBool d.nwb ++ clsCode d.cls ++ d.idx

/-- Whether registers lie beyond a team's allocation (R77). -/
def beyond (t : Team) (c : Cls) (idx span : Nat) : Bool :=
  match c with
  | .v => 6 * t.vgr < idx + span
  | .s => 16 * t.sgr < idx + span
  | .ta => if idx < 32 then t.ntile ≤ idx else t.nacc + 32 ≤ idx
  | _ => false

/-- The `ALLOC` check of R84, in the order FD, FA, FB, FC, with its `TADDR`; for `BAR`, the barrier index (R78). -/
def allocFail (t : Team) (i : Instr) : Option (BitVec 64) :=
  let d := match i.dst? with
    | some u => if !u.dst.nwb && beyond t u.dst.cls u.dst.idx.toNat u.span then some (fieldInfo 0 (dstField u.dst)) else none
    | none => none
  match d with
  | some x => some x
  | none =>
    match i.uses.find? fun u => beyond t u.src.cls u.src.idx.toNat u.span with
    | some u => some (fieldInfo u.slot (srcField u.src))
    | none =>
      match i with
      | .bar _ n => if t.nbar ≤ n.toNat then some (n.zeroExtend 64) else none
      | _ => none

/-- The first field that reads an invalid latch or operand-cache lane in an Active, guard-true lane (R95). -/
def staleField (c : Iss) (i : Instr) : Option Use :=
  i.uses.find? fun u =>
    match u.src.cls with
    | .q => c.on.lanes.any fun n => !((c.g.latch u.src.idx.toNat).getD n latch0).valid
    | .o => c.on.lanes.any fun n => !((c.g.ocache u.src.idx.toNat).getD n latch0).valid
    | _ => false

/-- Whether the instruction is privileged where it issues (R338). -/
def privFail (c : Iss) (i : Instr) : Bool :=
  match i with
  | .rtt _ => !c.g.csr.tmode
  | .tlbi .. => !c.g.kernel
  | .csrw _ n _ => n = 0xA#12 || (0x100 ≤ n.toNat && !c.g.kernel)
  | .cresz .. => !(c.nd.elim false fun n => n.eff.carve)
  | _ => false

/-- `TADDR` of consumed poison (R255): payload, lane, slot. -/
def poisonInfo (slot ln : Nat) (pay : Word) : BitVec 64 :=
  pay.zeroExtend 64 ||| (BitVec.ofNat 64 ln <<< 32) ||| (BitVec.ofNat 64 slot <<< 37)

/-- CONSUMPTION of a poisoned element (R255): a trap, `PAGEX` for that cause; a roll-back in a guarded or idempotent node
whose poison is DATA, or a fatal fault where R268 and R269 make it one. -/
def consume (c : Iss) (s : State) (slot ln : Nat) (pay : Word) : Res :=
  let info := poisonInfo slot ln pay
  if causeOf pay = PCause.pagex.code then .trap .pagex info
  else match c.nd with
    | some n =>
      if causeOf pay = PCause.data.code && (n.eff.guarded || n.eff.idem) then
        if s.canRollBack n then .stop (rollBack c.nk pay)
        else .stop (groupFatal c.gid Trap.poison.code.toNat 1 c.pc info)
      else .trap .poison info
    | none => .trap .poison info

/-- The payload of lane `L` of a source of any span, its lowest poisoned register's (R103). -/
def Iss.poisonAt (c : Iss) (u : Use) (L : Nat) : Option Word :=
  firstPoison ((List.range u.span).map fun k =>
    let e := lane (c.srcK u.slot u.src k) L
    if e.poi then some e.val else none)

/-- The first poisoned element among the operands of the slots in `slots`, in an Active, guard-true lane (R255): slot,
lane, payload. -/
def Iss.poisoned (c : Iss) (i : Instr) (slots : List Nat) : Option (Nat × Nat × Word) :=
  (i.uses.filter fun u => slots.contains u.slot).findSome? fun u =>
    c.on.lanes.findSome? fun L => (c.poisonAt u L).map fun w => (u.slot, L, w)

/-- The first Active lane whose lane-condition guard is poisoned (R255). -/
def Iss.guardPoisoned (c : Iss) : Option (Nat × Nat × Word) :=
  c.act.lanes.findSome? fun L => (c.gpoi.getD L none).map fun w => (4, L, w)

/-- Goes on with `k` unless an operand of `slots`, or with `gd` the guard, is poisoned and consumed (R255). -/
def consuming (c : Iss) (s : State) (i : Instr) (slots : List Nat) (gd : Bool) (k : Res) : Res :=
  match c.poisoned i slots with
  | some (a, b, w) => consume c s a b w
  | none =>
    match if gd then c.guardPoisoned else none with
    | some (a, b, w) => consume c s a b w
    | none => k

/-- The dead marks of an instruction (R92): registers that become uniform zero after their last read, operand-cache
entries that become invalid. A continuation ignores them. -/
def deadMarks (c : Iss) (i : Instr) (g : Group) : Group :=
  if g.cont.isSome then g
  else
    let vs := i.uses.flatMap fun u =>
      if u.src.dead && u.src.cls = .v then
        (List.range u.span).map fun k =>
          let r := u.src.idx.toNat + k
          let last := (i.vreads.zip c.reads).foldl (fun m p => if p.1.2.2 = r then max m p.2.clk else m) c.t
          (⟨last + 1, .dead r⟩ : Pend)
      else []
    let os := i.uses.filterMap fun u => if u.src.dead && u.src.cls = .o then some u.src.idx.toNat else none
    { g.pends vs with o := os.foldl (fun o n => o.del n) g.o }

/-- The group after an issue (R67, R87, R90, R92): hints, ages, the PC of the Active threads. -/
def issued (c : Iss) (i : Instr) (slip : Nat) : Group :=
  let h := i.hint
  let g := c.g.aged c.act
  let g := g.mapTh c.act fun _ th => { th with pc := c.pc + 12 }
  { g with
    ready := c.t + 1 + h.stall.toNat + (if g.cont.isSome then Config.jitter slip % 9 else 0)
    last := some c.t
    hm := if h.lhu then h.lhm else g.hm
    yielded := h.yield
    replays := g.replays.filter fun r => !(r.pc = c.pc && (r.m &&& c.act) ≠ 0#32)
    resume := if c.g.resumes c.act then 0#32 else g.resume
    resuming := g.resuming && !c.g.resumes c.act }

/-- Whether a rewind does an issue again (R292): instructions that change registers and PCs alone, loads, and what the store buffer
holds; the effect of any other instruction has left the group's registers and stands (log entry 77). -/
def redone (i : Instr) : Bool :=
  i.fixed || match i with
    | .bra .. | .brd .. | .brx .. | .call .. | .ret .. | .ld .. | .ldc .. | .ldv .. | .xadd .. | .xrd ..
    | .cpy .. | .tld .. | .tst .. | .gath .. | .scat .. | .coll .. => true
    | .st _ ls .. | .atom _ ls .. | .acas _ ls .. | .red _ ls .. => !ls
    | _ => false

/-- A group as the rewind log keeps it before an issue in clock `t` (R98, R107, R292). -/
def Group.toPast (g : Group) (t : Nat) : Past :=
  { clk := t, threads := g.threads, v := g.v, s := g.s, c := g.c, f := g.f, q := g.q, o := g.o, hm := g.hm, pend := g.pend,
    sb := g.sb, sbFar := g.sbFar, ready := g.ready, last := g.last, z8 := g.z8, csr := g.csr, resume := g.resume,
    resuming := g.resuming }

/-- A group's rewind log once an instruction issues in clock `t`: 48 clocks long, and empty behind one that is not done again. -/
def Group.logged (g old : Group) (i : Instr) (t : Nat) : Group :=
  { g with past := if redone i then (g.past.filter fun x => t < x.clk + 48) ++ [old.toPast t] else [] }

/-- The scoreboard set at an issue that is not skipped (R86). -/
def setsSb (i : Instr) (g : Group) : Group :=
  match if i.usesSb then i.sbs else none with
  | none => g
  | some n => { g with sb := g.sb ||| 1#6 <<< n, sbFar := if i.far then g.sbFar ||| 1#6 <<< n else g.sbFar &&& ~~~ (1#6 <<< n) }

/-- The kernel entry address of a group's node, modulo 2^32 (R25). -/
def State.entryOf (s : State) (g : Group) : Word :=
  match s.teams.find g.team with
  | some t => (s.nodes.find t.node).elim 0#32 fun n => BitVec.ofNat 32 n.eff.kernel
  | none => 0#32

/-- An address as an `MR` value: its byte offset from the kernel entry, modulo 2^32 (R25). -/
def mrOf (entry : Word) (pc : BitVec 57) : Word := pc.setWidth 32 - entry

/-- Releases every meeting point of a group whose condition R40 now meets; issue goes on in 4 / 12 clocks (R426). The point `here` at which
threads have just arrived is released in the issue of the arrival, before the others are looked at (DEDUCED, log entry 98). -/
def meetCheck (gid : Nat) (here : Option (BitVec 57)) : Eff := on fun s =>
  match s.groups.find gid with
  | none => skip
  | some g =>
    let e := s.entryOf g
    let points (g : Group) := (((List.range 32).filterMap fun n => if (g.th n).st = .held then some (g.th n).pc else none).eraseDups).filter
      fun x => g.met x (mrOf e x)
    when (!(points g).isEmpty) (freely fun n =>
      let go (g : Group) (l : List (BitVec 57)) := l.foldl (fun g x => g.release x (s.now + delay 4 12 n)) g
      let h := go g ((points g).filter fun x => some x = here)
      act (.group gid (some (go h (points h)))))

/-- A continuation hands its thread back, at the instruction that it does not execute (R36, R37). -/
def handBack (gid : Nat) (pc : BitVec 57) : Eff := on fun s =>
  match s.groups.find gid with
  | none => skip
  | some k =>
    match k.cont with
    | none => skip
    | some (parent, ln) =>
      seqs [upGroup parent fun g => { (g.upTo s.now).rejoin (k.upTo (s.now + 64)) ln .run pc with replays := g.replays ++ k.replays },
        each s.recs fun kv => when (kv.2.gid = gid) (act (.fr kv.1 (some { kv.2 with gid := parent }))),
        act (.group gid none), meetCheck parent none]

/-- The commands held for a group's regions are looked at again (R242). -/
def heldCommands (gid : Nat) : Eff := on fun s =>
  each s.recs fun kv =>
    when (kv.2.gid = gid && (kv.2.cmd = some 1 || kv.2.cmd = some 2)) (soon (.fqcmdDeferredApply kv.2.part kv.2.seq))

/-- Threads park (R235, R241, R221, R259). -/
def park (gid : Nat) (m : Mask) (p : Park) : Eff :=
  andThen (upGroup gid fun g => { g.mapTh m fun _ th => { th with park := some p } with past := [] }) (heldCommands gid)

/-- The group once an instruction that is not skipped has issued: hints, scoreboard, dead marks, `STALE` (R86, R90, R92, R96); the
scoreboard of one that acts in no lane clears by itself (R87). -/
def afterIssue (c : Iss) (i : Instr) (n : Nat) : Group :=
  let g := deadMarks c i (setsSb i (issued c i n))
  let g := { g with csr := { g.csr with stale := g.csr.stale || (staleField c i).isSome } }
  if c.on = 0#32 && !i.fixed && i.usesSb then g.pends (sbAt i (c.t + 2)) else g

/-- An `SSTEP` in a node without `GANG`, which is `ILLOP` (R30, R454). -/
def needsGang (c : Iss) : Instr → Bool
  | .sstep _ => !(c.nd.elim false fun n => n.eff.gang)
  | _ => false

/-- What follows from a meaning's answer. -/
def answer (c : Iss) (i : Instr) (r : Res) : Eff :=
  let cont := c.g.cont.isSome
  match r with
  | .trap k info => if cont then handBack c.gid c.pc else takeTrap c.gid k info c.pc c.act
  | .trapAt k info tpc => if cont then handBack c.gid c.pc else takeTrap c.gid k info tpc c.act
  | .back => handBack c.gid c.pc
  | .stop e => e
  | .done e => freely fun n =>
    let g := (afterIssue c i n).logged c.g i c.t
    seqs [act (.group c.gid (some g)),
      onSome c.g.cont fun p => when ((staleField c i).isSome) (upGroup p.1 fun g => { g with csr := { g.csr with stale := true } }),
      when (!cont) (upRod (rodKey g.frame g.rod) fun r =>
        { r with reads := r.reads ++ (i.vreads.zip c.reads).map fun p => (p.1.2.2 % 6, p.2.clk) }),
      e]

/-- The checks of an instruction whose guard does not skip it, in their order, then its own meaning (R84, R338). An
instruction that is not of fixed latency and finds no Active, guard-true lane does nothing more (R87); an `MMA` is still
checked under R137. -/
def checked (c : Iss) (s : State) (i : Instr) (body : Iss → State → Res) : Res :=
  if privFail c i then .trap .priv 0#64
  else match allocFail c.tm i with
    | some info => .trap .alloc info
    | none =>
      match staleField c i, c.g.csr.chk with
      | some u, true => .trap .stale (fieldInfo u.slot (srcField u.src))
      | _, _ =>
        match uniPoison c.g i.guard with
        | some w => consume c s 4 (c.act.lanes.headD 0) w
        | none =>
          if c.on = 0#32 && !i.actsIdle then .done skip
          else body c s

/-- The payloads of the operands and of the guard of lane `L` of an instruction. -/
def Iss.paysAt (c : Iss) (i : Instr) (L : Nat) : List Word :=
  i.uses.filterMap (fun u => c.poisonAt u L) ++ (c.gpoi.getD L none).toList ++ (uniPoison c.g i.guard).toList

/-- The threads of an issue that hold a fault before a closing instruction, and park there (R241), those to which the PAGE poison of
another thread's fault has come among them; the group with the faults that they hold. -/
def holders (c : Iss) (i : Instr) : Group × Mask :=
  if i.closing then
    let g := (c.g.newHolds c.act (c.paysAt i)).foldl Group.land c.g
    (g, c.act &&& Mask.of fun n => (g.th n).faults ≠ [])
  else (c.g, 0#32)

/-- The trap that awaits a thread of `a` (R221, R244, R259). -/
def doomed (g : Group) (a : Mask) : Option Doom := a.lanes.findSome? fun n => (g.th n).doom

/-- The group once a trap that awaited threads of `a` is taken; one that was the whole group's awaits no other thread. -/
def Group.undoom (g : Group) (a : Mask) (d : Doom) : Group :=
  { g with threads := tab32 fun n => if a.has n || (d.all && (g.th n).doom = some d) then { g.th n with doom := none } else g.th n }

/-- The trap that awaits threads of `a` at `pc` is taken (R221, R244, R259); a continuation hands its thread back. -/
def takeDoom (gid : Nat) (g : Group) (a : Mask) (pc : BitVec 57) (d : Doom) : Eff :=
  if g.cont.isSome then handBack gid pc
  else andThen (upGroup gid fun g => g.undoom a d) (takeTrap gid (trapOf d.cause) d.info pc a)

/-- THE ISSUE of an instruction by group `gid` (R67, R84): results due by now land; a trap that awaits a thread is taken before it (R221,
R244, R259); an illegal encoding traps; a false uniform guard skips it, with the effects of its hints alone; threads that hold a fault
park before a closing instruction, and a group with a lost store parks (R221, R241); then the checks and the meaning. -/
def issueEff (gid : Nat) (g0 : Group) (i : Instr) (body : Iss → State → Res) : Eff :=
 andThen (when (genLocal i) (finishFesets ((g0.cont.map Prod.fst).getD gid))) <| on fun s =>
  let g := ((s.groups.find gid).getD g0).upTo s.now
  match g.pc? with
  | none => skip
  | some pc =>
    let a := g.atPc pc
    let c := issOf s gid g i pc a
    andThen (act (.group gid (some g)))
      (match doomed g a with
      | some d => takeDoom gid g a pc d
      | none =>
      if !i.legal || needsGang c i then answer c i (.trap .illop 0#64)
      else if g.cont.isSome && !i.onHelper then answer c i .back
      else if skipped g i.guard then freely fun n => act (.group gid (some { issued c i n with z8 := g.z8 }))
      else if g.cont.isSome && i.writesUniform then answer c i .back
      else if g.lost ≠ [] && i.parksOnLost then park gid a .lost
      else
        let h := holders c i
        let f := h.2
        let a2 := a &&& ~~~ f
        let c2 := issOf s gid (if f = 0#32 then g else h.1.mapTh f fun _ th => { th with park := some .region }) i pc a2
        andThen (when (f ≠ 0#32) (andThen (act (.group gid (some { h.1 with z8 := g.z8 }))) (park gid f .region)))
          (if a2 = 0#32 then skip else on fun s => answer c2 i (checked c2 s i body)))

/-- The meaning of an instruction word: its issue by the group in `cur`. -/
def issue (i : Instr) (s : State) (body : Iss → State → Res) : Host.Outcome State Fault Refusal :=
  match s.groups.find s.cur with
  | none => .fault .noIssuer
  | some g => fire s (issueEff s.cur g i body)

/-- The meaning of an instruction whose result is of fixed latency: what each lane makes (R253, R381). -/
def alu (i : Instr) (s : State) (f : Iss → Nat → LaneOut) : Host.Outcome State Fault Refusal :=
  issue i s fun c _ => .done (c.put i (f c))

end Sys2Proof.Machine
end

