-- ==== Sys2Proof/Machine/Faults.lean ====
section
/-!
DEFINITION. Faults.lean: failed page lookups of loads, stores, atomics and fetches: their records, their origin entries and
the parking of threads (R235 to R238, R241 to R244).
-/
namespace Sys2Proof.Machine

/-- `RCNT` of a fault met again after a REPLAY (R243): one above that of the replayed record. -/
def Group.again (g : Group) (pc : BitVec 57) (m : Mask) : Option Nat :=
  (g.replays.find? fun r => r.pc = pc && (r.m &&& m) ≠ 0#32).map fun r => r.rcnt + 1

/-- The record of a fault of group `gid` at `pc` (Table 10.5). -/
def recOf (s : State) (gid : Nat) (g : Group) (pc : BitVec 57) (kind : Nat) (x : Miss) (va : Nat) (m : Mask)
    (pay : Word) : FRec :=
  let r := g.again pc m
  { part := partOf g.frame, va := va % 2 ^ 57, pc := pc, kind := kind, cause := x.cause, pgsz := x.pgsz, frame := g.frame,
    gslot := gslotOf gid, fdom := s.fdomOf g, vid := g.csr.vid, rcnt := r.getD 0, refault := r.isSome, reissue := false,
    status := 0, seq := 0#32, payload := pay, lmask := m, ctx := s.ctxOf g,
    team := (s.teams.find g.team).elim 0 Team.index, aux := 0#64, gid := gid, op := 0, cmd := none, pages := [va % 2 ^ 57] }

/-- A record written, or with the fault queue disabled a fatal fault of the context (R237, R275); its key is passed on. -/
def fault (r : FRec) (f : Nat → Eff) : Eff := on fun s =>
  if s.faultOn r.part then record r f
  else fresh fun k => andThen (fatal r.ctx 0 2 r.frame r.gslot r.pc.toNat r.va) (f k)

/-- A lookup that failed for the lanes of `m`, the lowest of which accesses `va`. -/
structure Failed where
  va   : Nat
  miss : Miss
  m    : Mask
  deriving DecidableEq, Repr

/-- The 64 KiB-aligned regions that a list of accesses (lane, address) touches, in increasing order (R234). -/
def regionsOf (l : List (Nat × Nat)) : List Nat := sortNat (l.map fun p => p.2 / 65536)

/-- The regions of a list of accesses whose lookup fails, in increasing address order (R234, R235). -/
def badRegions (s : State) (frame ctx : Nat) (n : Need) (l : List (Nat × Nat)) : List (Nat × Miss) :=
  (regionsOf l).filterMap fun r =>
    match s.lookup frame ctx (65536 * r) n with
    | .ok _ => none
    | .error x => some (r, x)

/-- The page on which the lookup of a region fails: its size and its number. -/
def badPage (p : Nat × Miss) : Nat × Nat := (p.2.bytes, 65536 * p.1 / p.2.bytes)

/-- The failed lookups of a list of accesses, in increasing address order: all lanes in one page share one lookup and one outcome
(R234, R235). -/
def failedOf (s : State) (frame ctx : Nat) (n : Need) (l : List (Nat × Nat)) : List Failed :=
  let bad := badRegions s frame ctx n l
  ((bad.map badPage).eraseDups).filterMap fun k =>
    let here := bad.filter fun p => badPage p = k
    let ls := l.filter fun q => here.any fun p => p.1 = q.2 / 65536
    match here, ls with
    | p :: _, q :: _ => some ⟨q.2, p.2, Mask.of fun n => ls.any fun a => a.1 = n⟩
    | _, _ => none

/-- The fills of TLB and walk cache by the lookups of a list of accesses (R233). -/
def fillFor (frame ctx : Nat) (l : List (Nat × Nat)) : Eff :=
  each (regionsOf l) fun r =>
    match l.find? fun p => p.2 / 65536 = r with
    | some p => fillTlb frame ctx p.2
    | none => skip

/-- Every failing page of a load takes an origin entry and writes a record (R236); `k` receives lanes, payload and record of
each. -/
def loadFaults (gid : Nat) (g : Group) (pc : BitVec 57) : List Failed → List (Mask × Word × Nat) →
    (List (Mask × Word × Nat) → Eff) → Eff
  | [], acc, k => k acc
  | x :: l, acc, k => on fun s =>
    origin ⟨.page, g.frame, 0, x.va % 2 ^ 57, pc, s.fdomOf g, g.csr.vid, gslotOf gid⟩ fun w => on fun s =>
      fault (recOf s gid g pc 0 x.miss x.va x.m w) fun key => loadFaults gid g pc l (acc ++ [(x.m, w, key)]) k

/-- The threads of a store, atomic or fetch whose lookups failed park at it, with one record (R235, R242). -/
def parkFault (gid : Nat) (a : Mask) (pc : BitVec 57) (kind : Nat) (l : List Failed) : Eff := on fun s =>
  match s.groups.find gid, l with
  | some g, x :: _ =>
    let m : Mask := l.foldl (fun m y => m ||| y.m) 0#32
    let low := (l.find? fun y => Mask.has y.m (Mask.lanes m |>.headD 0)).getD x
    seqs [upGroup gid fun g => { g with replays := g.replays.filter fun r => !(r.pc = pc && (r.m &&& a) ≠ 0#32) },
      fault { recOf s gid g pc kind low.miss low.va m 0#32 with pages := l.map fun y => y.va % 2 ^ 57 } fun key => park gid a (.lookup key)]
  | _, _ => skip

/-- A fetch failure (R235): the threads park; in trap mode it is fatal (R275). A continuation is handed back (R36). -/
def fetchFault (gid : Nat) (a : Mask) (pc : BitVec 57) (va : Nat) (x : Miss) : Eff := on fun s =>
  match s.groups.find gid with
  | none => skip
  | some g =>
    if g.cont.isSome then handBack gid pc
    else if g.csr.tmode then groupFatal gid 0 6 pc (BitVec.ofNat 64 va)
    else parkFault gid a pc 3 [⟨va, x, a⟩]

end Sys2Proof.Machine
end

