-- ==== Sys2Proof/Machine/Count.lean ====
section
/-!
DEFINITION. Count.lean: engine counters, scoreboards cleared by operations, and the retirement that operations wait for
(R45, R86, R161, R162, R178, R179).
-/
namespace Sys2Proof.Machine

/-- An operation counts in its class from its issue (R161). -/
def countIn (gid id : Nat) (k : CtrCls) : Eff := upGroup gid fun g => { g with counted := g.counted ++ [⟨id, k, false⟩] }

/-- A counter's value (R161). -/
def Group.counter (g : Group) (k : CtrCls) : Nat := (g.counted.filter fun c => c.cls = k).length

/-- The counted operations after retirement: an operation retires when it is done, and not before an older one of its
class. -/
def retireCounted : List CtrCls → List Counted → List Counted
  | _, [] => []
  | open_, c :: l =>
    if c.done && !open_.contains c.cls then retireCounted open_ l else c :: retireCounted (c.cls :: open_) l

/-- Results in flight of an operation issued in clock `t`, and the same in what the rewind log keeps of later clocks, since the
operation is not done again there. -/
def Group.receives (g : Group) (t : Nat) (l : List Pend) : Group :=
  { g.pends l with past := g.past.map fun x => if t < x.clk then { x with pend := l.foldl addPend x.pend } else x }

/-- Results in flight of an operation issued in clock `t` go to a group, and to its continuations, which copied its registers before the
results came (R35). -/
def deliver (gid t : Nat) (l : List Pend) : Eff := on fun s =>
  andThen (upGroup gid fun g => g.receives t l)
    (if gid < Config.contBase then
      each s.groups fun kv => when (kv.2.cont.map Prod.fst = some gid) (act (.group kv.1 (some (kv.2.receives t l))))
    else skip)

/-- The scoreboard that an operation names clears in the clock after now (R161). -/
def clearSb (o : Op) : Eff := on fun s => deliver o.dest o.issued (sbAt o.ins (s.now + 1))

/-- Whether a group can retire (R45). -/
def Group.finished (g : Group) : Bool :=
  g.cont.isNone && (List.range 32).all (fun n => (g.th n).st = .exited) && g.join = 0 && g.counted.isEmpty

/-- A group that can retire does so next. -/
def retireCheck (gid : Nat) : Eff := on fun s =>
  match s.groups.find gid with
  | some g => when g.finished (soon (.groupRetire gid))
  | none => skip

/-- A group that drains before `SSTEP` is looked at again (R179). -/
def sstepCheck (gid : Nat) : Eff := on fun s =>
  match s.groups.find gid with
  | some g => when (g.hold = .sstep false) (soon (.sstepArrive gid))
  | none => skip

/-- Operation `id` of a group retires as soon as the older ones of its class have (R161): counters, a `WAITC` that this
satisfies (R162), an `SSTEP` that drains (R179), the group's retirement (R45). -/
def retireOp (gid id : Nat) : Eff :=
  seqs [upGroup gid fun g => { g with
      counted := retireCounted [] (g.counted.map fun c => if c.op = id then { c with done := true } else c) },
    on fun s =>
      match s.groups.find gid with
      | some g =>
        match g.hold with
        | .waitc k n _ _ => when (g.counter k ≤ n) (later 2 6 (.waitcSatisfied gid))
        | _ => skip
      | none => skip,
    sstepCheck gid, retireCheck gid]

/-- A trap deferred to the next `WAITC` of a class that finds operation `id` retired (R246, R260, R290). -/
def defer (gid id : Nat) (k : CtrCls) (cause : Trap) (info : BitVec 64) : Eff :=
  upGroup gid fun g => { g with deferred := g.deferred ++ [⟨k, id, cause.code, info⟩] }

/-- The oldest deferred trap of a class whose operation has retired. -/
def Group.deferredOf (g : Group) (k : CtrCls) : Option Deferred :=
  (g.deferred.filter fun d => d.cls = k && !g.counted.any fun c => c.op = d.age).foldl (fun m d =>
    match m with
    | some x => if d.age < x.age then some d else some x
    | none => some d) none

end Sys2Proof.Machine
end

