-- ==== Sys2Proof/Machine/Coherence.lean ====
section
/-!
DEFINITION. Coherence.lean: beads on a die (R203 to R206), the home directory and its transactions (R207 to R211), the firewall at the home
(R213, R214), messages of the fabric (R216, R217, R219), snoops (R210, R227), evictions (R204, R232), what L1s, RDCs and L2s hold (R10,
R12, R16). The memory and the views hold the current value of every sector; the records here say who may read and write it. A cache line is
named by its sector and its view (R257).
-/
namespace Sys2Proof.Machine

/-- Key of the bead record of a line on a die. -/
def beadKey (die line : Nat) : Nat := 4 * line + die

/-- The beads of a line on a die; all lie at the die agent unless recorded (R203). -/
def State.beadsOf (s : State) (die line : Nat) : Beads := s.beads.findD (beadKey die line) ⟨[], none⟩

/-- The number of beads that the frames hold. -/
def Beads.out (b : Beads) : Nat := (b.hold.map Prod.snd).sum

/-- The beads of a holder: a frame, or the die agent with the rest of the 64. -/
def Beads.at_ (b : Beads) : Option Nat → Nat
  | some f => b.hold.findD f 0
  | none => 64 - b.out

/-- The store ways of a frame (R154): those that `CRESZ` has set, else those of its partition's configuration. -/
def State.storeWays (s : State) (frame : Nat) : Nat := s.ways.findD frame (s.partStore (partOf frame))

/-- The fabric time until which a request sent in clock `t` may be performed (R219). -/
def State.stampAt (s : State) (t : Nat) : Nat := t + s.ftOff + s.csrBits offTOUT 16 0 * 1000

/-- That of a request sent now. -/
def State.stampNow (s : State) : Nat := s.stampAt s.now

/-- The home of a line: package and die (R483). -/
def State.homeOf (s : State) (line : Nat) : Option Region := s.region (64 * secAt line)

/-- Whether a line is homed on this package. -/
def State.ownHome (s : State) (line : Nat) : Bool := (s.homeOf line).elim false fun r => r.pkg = s.ownPkg

/-- The data of a line, in its view. -/
def State.lineData (s : State) (line : Nat) : Sector := s.sector (viewAt line / 256) (viewAt line % 256) (secAt line)

/-- The range of a home command that covers an address. -/
def State.migAt (s : State) (pa : Nat) (window : Bool) : Option MigRange :=
  s.mig.find? fun m => m.window = window && m.src ≤ pa && pa < m.src + m.size

/-- Changes the record of a home command's range. -/
def upMig (src : Nat) (window : Bool) (f : MigRange → MigRange) : Eff := on fun s =>
  act (.mig (s.mig.map fun m => if m.src = src && m.window = window then f m else m))

/-- CONFLICT poison of a sector made at its home (R199, R249), with its report; `view` is the view committed, or none for a
mode switch. -/
def conflict (part id sec view : Nat) : Eff := on fun s =>
  let die := (s.homeOf sec).elim 0 Region.die
  origin ⟨.conflict, svcTab die, 2, 64 * sec, 0#57, 0, id, 0⟩ fun w =>
    andThen (writeSector part id sec 0 [] false (some w))
      (event 11 (if die < 4 then die else 4) noPart 0 (64 * sec) w.toNat (if view = 0 then 1 else 0) view [])

/-- A write-back of a sector of an `SWM` page (R231, R232, R249): in a switch window the first is written, one of other data
poisons the sector; outside a window it is written. -/
def swmWriteBack (sec : Nat) (d : SectorData) : Eff := on fun s =>
  let put := writeSector 0 0 sec 0 d.bytes (d.poison.isNone && d.bytes.length = 64) d.poison
  match s.migAt (64 * sec) true with
  | none => put
  | some m =>
    match m.done.find sec with
    | none => andThen put (upMig m.src true fun m => { m with done := m.done.put sec ⟨d.bytes, d.poison, false, 0⟩ })
    | some x => if x.bytes = d.bytes && x.poison = d.poison then skip else conflict 0 0 sec 0

/-- A frame gives up the beads of a sector that it had marked (R191): the releases at GRP or TEAM scope, and what precedes them, are
performed now, and the mark clears; that this comes only later, the mark staying, is a free choice (Table 8.7 allows a plain acquire to
gain nothing from the mark; log entry 26). -/
def promote (frame sec : Nat) : Eff := on fun s =>
  when ((s.marks.findD frame []).contains sec) <| freely fun f =>
    let l := s.ops.filter fun kv => kv.2.early && kv.2.frame = frame && kv.2.st = .sent
    if Config.pick f % 2 = 1 && l ≠ [] then skip
    else andThen (upMarks frame fun m => m.filter fun x => x ≠ sec) (each l fun kv => soon (.grant ⟨kv.1, none⟩))

/-- A frame's L1 gives up a line. -/
def dropL1 (frame line : Nat) : Eff := andThen (promote frame line) (upL1 frame fun m => m.del line)

/-- The beads of a frame for a line return to the die agent, the owner bead with the data (R204). -/
def dropBeads (frame line : Nat) : Eff := on fun s =>
  let k := beadKey (dieOf frame) line
  let b := s.beadsOf (dieOf frame) line
  let h := b.hold.del frame
  when ((b.hold.find frame).isSome)
    (act (.beads k (if h = [] then none else some ⟨h, if b.owner = some frame then none else b.owner⟩)))

/-- The partition among whose RDC ways a die holds a line (R16), and the line there. -/
def State.inRdc (s : State) (die line : Nat) : Option (Nat × Sector) :=
  (List.range 4).findSome? fun k => ((s.rdc.findD (4 * die + k) []).find line).map fun x => (4 * die + k, x)

/-- A die's RDC gives up a line. -/
def dropRdc (die line : Nat) : Eff := on fun s => onSome (s.inRdc die line) fun p => upRdc p.1 fun m => m.del line

/-- A write-back of a dirty `SWM` sector by a frame or an RDC (R231, R232) goes to its home by way of the die agent, whose copy takes it; to
a home on another package it is a message. -/
def swmBack (die sec : Nat) (x : Sector) : Eff := on fun s =>
  let d : SectorData := ⟨x.bytes, x.poison, true⟩
  seqs [swmWriteBack sec d,
    when (!s.ownHome sec) (out (.request (s.portFor die sec) ((s.homeOf sec).elim 0 Region.pkg) 0 (.writeBack ⟨.rdc s.ownPkg die, s.stampNow⟩ sec d))),
    onSome (s.inRdc die sec) fun p => upRdc p.1 fun m => m.put sec { p.2 with bytes := x.bytes, poison := x.poison, dirty := false }]

/-- A sector leaves a frame's L1 (R155, R204, R231): a dirty one of an `SWM` page is written back; the beads of a coherent one go to the
die agent. -/
def evictL1 (frame line : Nat) : Eff := on fun s =>
  onSome ((s.l1.findD frame []).find line) fun x =>
    seqs [when (x.dirty && (((s.beadsOf (dieOf frame) line).hold.find frame).isNone)) (swmBack (dieOf frame) line x),
      dropL1 frame line, dropBeads frame line]

/-- Sectors that one way of a frame's L1 holds (R10). -/
def wayL1 : Nat := 2048

/-- Sectors that one way of an L2 or RDC holds (R12: 4 MiB). -/
def wayL2 : Nat := 65536

/-- Ways of each L2 and RDC that a partition holds (R16). -/
def partWays : Nat := 4

/-- A sector enters a frame's L1 (R154), in the way that holds it or in one of those that serve as L1, chosen freely, as is the sector
that a full way gives up (log entry 37). -/
def putL1 (frame line : Nat) (x : Sector) : Eff := on fun s =>
  match (s.l1.findD frame []).find line with
  | some y => upL1 frame fun m => m.put line { x with way := y.way }
  | none => freely fun f =>
    let w := Config.pick f % (16 - s.storeWays frame)
    let l := ((s.l1.findD frame []).filter fun kv => kv.2.way = w).map Prod.fst
    andThen (when (wayL1 ≤ l.length) (evictL1 frame (l.getD (Config.pick f / 16 % l.length) line)))
      (on fun s => act (.l1 frame (some ((s.l1.findD frame []).put line { x with way := w }))))

/-- A frame's L1 holds a coherent line, dirty or clean. -/
def fillL1 (frame line : Nat) (dirty : Bool) : Eff := on fun s =>
  putL1 frame line { s.lineData line with dirty := dirty || ((s.l1.findD frame []).find line).elim false Sector.dirty }

/-- The home L2 of a line holds it, among the ways of the partition that reaches it (R12, R16, R17); a full way gives up a line of the
device's choice (log entry 37). The L2 decides clocks alone (Table 17.3). -/
def touchL2 (part line : Nat) : Eff := on fun s =>
  onSome (s.homeOf line) fun r =>
    let k := 16 * r.die + part
    when (r.pkg = s.ownPkg && r.die < 4 && ((s.l2.findD k []).find line).isNone) <| freely fun f =>
      let w := Config.pick f % partWays
      let l := ((s.l2.findD k []).filter fun kv => kv.2 = w).map Prod.fst
      let m := if wayL2 ≤ l.length then (s.l2.findD k []).del (l.getD (Config.pick f / 4 % l.length) line) else s.l2.findD k []
      act (.l2 k (some (m.put line w)))

/-- Key of a frame's request for a line's beads. -/
def breqKey (frame line : Nat) : Nat := 256 * line + frame % 256

/-- Whether a frame has what an access needs (R203): 64 beads for a write, one for a read. -/
def beadsEnough (s : State) (frame line : Nat) (write : Bool) : Bool :=
  let n := (s.beadsOf (dieOf frame) line).hold.findD frame 0
  if write then n = 64 else 0 < n

/-- Whether another frame of a frame's die has an active persistent request for a line, to which every bead goes (R206). -/
def beadsTaken (s : State) (frame line : Nat) : Bool :=
  s.breqs.any fun kv => kv.2.active && kv.1 / 256 = line && kv.1 % 256 ≠ frame % 256 && dieOf (kv.1 % 256) = dieOf frame

/-- The answer of one holder, a frame or the die agent, to a request for beads (R205): to a read one bead, or the owner bead with the data if
it holds no other; to a write all its beads. A frame that carries a mark promotes it first (R204). -/
def beadAnswer (frame line : Nat) (write : Bool) (h : Option Nat) : Eff := on fun s =>
  let die := dieOf frame
  let b := s.beadsOf die line
  let n := b.at_ h
  let k := if write then n else min 1 n
  when (h ≠ some frame && n ≠ 0) <|
    andThen (onSome h fun f => if k = n then dropL1 f line else promote f line)
      (act (.beads (beadKey die line) (some
        ⟨(match h with
          | some f => if k = n then b.hold.del f else b.hold.put f (n - k)
          | none => b.hold).put frame (b.at_ (some frame) + k),
         if b.owner = h && k = n then some frame else b.owner⟩)))

/-- A request for beads is forwarded to every holder of the line on the die, the die agent among them, and each answers, but for those
whose bit of `late` is set (R205). With a persistent request of another frame active, nothing comes (R206). -/
def askBeads (frame line : Nat) (write : Bool) (late : Nat) : Eff := on fun s =>
  let l := none :: (s.beadsOf (dieOf frame) line).hold.keys.map some
  when (!beadsTaken s frame line)
    (each (l.zip (List.range l.length)) fun p => when (!late.testBit p.2) (beadAnswer frame line write p.1))

/-- A die gathers every bead of a line back at its die agent and yields the line (R203). -/
def yieldDie (die line : Nat) : Eff := on fun s =>
  let b := s.beadsOf die line
  seqs [each b.hold.keys fun f => dropL1 f line, act (.beads (beadKey die line) none), dropRdc die line]

/-- The agent for accesses from a die of this package, unless the die is the line's home (R203, R207). -/
def State.agentOf (s : State) (die line : Nat) : Option Agent :=
  match s.homeOf line with
  | none => none
  | some r => if r.pkg = s.ownPkg && r.die = die then none else some (.rdc s.ownPkg die)

/-- Whether an agent answers snoops from outside: another package, or the host. -/
def State.external (s : State) : Agent → Bool
  | .rdc p _ => p ≠ s.ownPkg
  | .hub p => p ≠ s.ownPkg
  | .host _ => true

/-- The package of an agent. -/
def Agent.pkg : Agent → Nat
  | .rdc p _ => p
  | .hub p => p
  | .host p => p

/-- The bit of an agent in the mask of its cell (R211). -/
def agentBit (s : State) (a : Agent) : Nat :=
  let p := Agent.pkg a % 2 ^ s.csrBits offCELLCFG 1 0
  match a with
  | .rdc _ d => 4 * p + d
  | .hub _ => 32 + p
  | .host _ => 40 + p

/-- The agent of a bit of a cell's mask (R211). -/
def agentAt (s : State) (cell b : Nat) : Agent :=
  let p := cell * 2 ^ s.csrBits offCELLCFG 1 0
  if b < 32 then .rdc (p + b / 4) (b % 4) else if b < 40 then .hub (p + (b - 32)) else .host (p + (b - 40))

/-- The packages of a cell (R212). -/
def State.cellPkgs (s : State) (cell : Nat) : List Nat :=
  let n := 2 ^ s.csrBits offCELLCFG 1 0
  (List.range n).map fun k => n * cell + k

/-- The directory entry of a 256-byte line; four sectors in I unless recorded. -/
def State.lineOf (s : State) (k : Nat) : Dir := s.dir.findD k ⟨[], 0#32⟩

/-- A sector of an entry. -/
def Dir.sec (d : Dir) (k : Nat) : DirSec := d.secs.getD k ⟨.i, []⟩

/-- The directory's record of a sector; I unless recorded. -/
def State.dirOf (s : State) (line : Nat) : DirSec := (s.lineOf (line / 4)).sec (line % 4)

/-- The cells that an entry names in precise form, each with its 48-bit mask (R211). -/
def State.cellMasks (s : State) (d : Dir) : List (Nat × BitVec 48) :=
  let l := (d.secs.flatMap DirSec.holders).eraseDups
  ((l.map fun a => s.cellOf (Agent.pkg a)).eraseDups).map fun c =>
    (c, (l.filter fun a => s.cellOf (Agent.pkg a) = c).foldl (fun (m : BitVec 48) a => m ||| 1#48 <<< agentBit s a) 0#48)

/-- The holder set of an entry (R207, R211): the agents of its masks, or in coarse form every agent of every package in each marked group of
eight cells. -/
def State.lineAgents (s : State) (d : Dir) : List Agent :=
  if d.groups = 0#32 then
    (s.cellMasks d).flatMap fun q => ((List.range 48).filter fun b => q.2.getLsbD b).map (agentAt s q.1)
  else (Mask.lanes d.groups).flatMap fun g => (List.range 8).flatMap fun c =>
    (s.cellPkgs (8 * g + c)).flatMap fun p => [.rdc p 0, .rdc p 1, .rdc p 2, .rdc p 3, .hub p, .host p]

/-- A sector's record set (R211): the entry becomes coarse when a fifth cell joins, and precise again with all four sectors in I. -/
def setDir (line : Nat) (st : DirSt) (l : List Agent) : Eff := on fun s =>
  let d := s.lineOf (line / 4)
  let secs := (List.range 4).map fun k => if k = line % 4 then ⟨st, l⟩ else d.sec k
  let cells := (secs.flatMap fun x => x.holders.map fun a => s.cellOf (Agent.pkg a)).eraseDups
  let groups := if d.groups ≠ 0#32 || 4 < cells.length then cells.foldl (fun (m : Word) c => m ||| 1#32 <<< (c / 8)) d.groups else 0#32
  act (.dir (line / 4) (if secs.all fun x => x.st = .i then none else some ⟨secs, groups⟩))

/-- The sectors that the directory does not have in I, with their records. -/
def State.dirSecs (s : State) : List (Nat × DirSec) :=
  s.dir.flatMap fun kv => ((List.range 4).map fun k => (4 * kv.1 + k, kv.2.sec k)).filter fun p => p.2.st ≠ .i

/-- Whether a die's agent holds a line as an access needs (R207 to R209): any copy for a read, an E or M copy for a write, which is then
made without a request. -/
def State.agentHas (s : State) (who : Option Agent) (write : Bool) (line : Nat) : Bool :=
  let d := s.dirOf line
  match who with
  | none => false
  | some a => d.holders.contains a && (!write || d.st = .e || d.st = .m)

/-- The agents that the home must snoop before a request of `who` (none: the home's own die) is granted (R207, Table 9.2): where another
agent has the sector in a way that does not suit the request, every other agent of its line's holder set. -/
def State.snooped (s : State) (who : Option Agent) (write : Bool) (line : Nat) : List Agent :=
  let d := s.dirOf line
  let others := d.holders.any fun a => some a ≠ who
  if others && (write || d.st = .e || d.st = .m) then (s.lineAgents (s.lineOf (line / 4))).filter fun a => some a ≠ who else []

/-- Those of them that answer from outside. -/
def State.awaited (s : State) (who : Option Agent) (write : Bool) (line : Nat) : List Agent :=
  (s.snooped who write line).filter s.external

/-- Key under which `seen` notes that a home sweeps the entries of a dead cell (R224). -/
def sweepKey (cell home : Nat) : Nat := 2 ^ 23 + 8 * cell + home

/-- Whether a sector's entry names a dead cell that its home has still to sweep (R224). -/
def State.unswept (s : State) (line : Nat) : Bool :=
  (s.homeOf line).elim false fun r =>
    (s.lineOf (line / 4)).secs.any fun x => x.holders.any fun a => (s.seen.find (sweepKey (s.cellOf (Agent.pkg a)) r.die)).isSome

/-- The dirty copy that a die's RDC has of a line becomes clean: its home has the data. -/
def cleanRdc (die line : Nat) : Eff := on fun s =>
  onSome (s.inRdc die line) fun p => upRdc p.1 fun m => m.put line { p.2 with dirty := false }

/-- The state after a read that the home grants (Table 9.2): standard pages from I give E, guarded ones S. A holder on this package that has
the sector in E or M is downgraded. -/
def grantRead (who : Option Agent) (guarded : Bool) (line : Nat) : Eff := on fun s =>
  let d := s.dirOf line
  let down : Eff := each d.holders fun a => match a with
    | .rdc p k => when (p = s.ownPkg) (cleanRdc k line)
    | _ => skip
  match who with
  | none => if d.st = .e || d.st = .m then andThen down (setDir line .s d.holders) else skip
  | some a =>
    match d.st with
    | .i => setDir line (if guarded then .s else .e) [a]
    | .s => if d.holders.contains a then skip else setDir line .s (d.holders ++ [a])
    | _ => if d.holders = [a] then skip else andThen down (setDir line .s (d.holders ++ [a]))

/-- The state after write ownership is granted (Table 9.2): every other holder gives up the sector; the home die gathers its
beads back before a remote agent writes (R207). -/
def grantWrite (who : Option Agent) (line : Nat) : Eff := on fun s =>
  let gone := (s.dirOf line).holders.filter fun a => some a ≠ who
  seqs [each gone fun a =>
      match a with
      | .rdc p d => when (p = s.ownPkg) (yieldDie d line)
      | _ => skip,
    match who, s.homeOf line with
    | some _, some r => when (r.pkg = s.ownPkg && r.die < 4) (yieldDie r.die line)
    | _, _ => skip,
    match who with
    | some a => setDir line .m [a]
    | none => setDir line .i []]

/-- Agents of this package that a transaction snoops answer at once (R207): for write ownership they give up the sector, for a read an
E or M holder keeps it in S. -/
def recallOwn (who : Option Agent) (write : Bool) (line : Nat) : Eff := on fun s =>
  let d := s.dirOf line
  let own := d.holders.filter fun a => some a ≠ who && !s.external a
  let rest := d.holders.filter fun a => !own.contains a
  if own = [] then skip
  else if write then
    andThen (each own fun a => match a with
        | .rdc _ k => yieldDie k line
        | _ => skip)
      (setDir line (if rest = [] then .i else d.st) rest)
  else when (d.st = .e || d.st = .m)
    (andThen (each own fun a => match a with
        | .rdc _ k => cleanRdc k line
        | _ => skip)
      (setDir line .s d.holders))

/-- Port towards the host: its messages take no fabric port. -/
def hostPort : Nat := 16

/-- The port of a home's reply or snoop to an agent (R217): of the home die, or of D0 for the hub. -/
def State.portTo (s : State) (a : Agent) (line : Nat) : Nat :=
  match a with
  | .host p => if p = s.ownPkg then hostPort else s.portFor (s.dieOfSec (secAt line) % 4) (secAt line)
  | _ => s.portFor (s.dieOfSec (secAt line) % 4) (secAt line)

/-- A sector leaves for a requester, with its poison, its view and its end-to-end CRC (R216). -/
def sendSector (a : Agent) (line : Nat) : Eff := on fun s =>
  let x := s.lineData line
  out (.readData (s.portTo a line) (viewAt line % 256) x.bytes x.poison.isSome (Config.sectorCrc x.bytes))

/-- Bytes leave for a requester. -/
def sendBytes (a : Agent) (pa : Nat) (x : List Byte × Option Word) : Eff := on fun s =>
  out (.readData (s.portTo a (secOf pa)) 0 x.1 x.2.isSome (Config.sectorCrc x.1))

/-- A grant, refusal or completion leaves for a requester: 0 granted or performed, 1 refused, 2 parked (R248). -/
def respond (a : Agent) (line : Nat) (code : Byte) : Eff := on fun s => out (.reply (s.portTo a line) [code])

/-- A sector arrives on the fabric (R216, R252): with its CRC wrong it is delivered poisoned with cause DATA, in an entry of the service frame
of die `die`. -/
def arrives (die line : Nat) (d : SectorData) (k : SectorData → Eff) : Eff :=
  if d.crcOk then k d
  else origin ⟨.data, svcTab die, 4, 64 * secAt line, 0#57, 0, viewAt line % 256, 0⟩ fun w => k { d with poison := some w, crcOk := true }

/-- A holder's data reach the home of a line, in its view. -/
def lineWrite (line : Nat) (d : SectorData) : Eff := on fun s =>
  arrives (s.dieOfSec (secAt line)) line d fun d =>
    writeSector (viewAt line / 256) (viewAt line % 256) (secAt line) 0 d.bytes (d.poison.isNone && d.bytes.length = 64) d.poison

/-- Key under which `seen` notes that a die has sent a write-back of a line that is homed on another package (R210). -/
def backKey (die line : Nat) : Nat := 2 ^ 64 + beadKey die line

/-- The host may write a sector of its own memory once the package holds it no longer (R227): its bytes there are then any (log entry 88). -/
def freeHost (line : Nat) : Eff := on fun s =>
  when ((s.homeOf line).elim false Region.host) (freely fun n =>
    putBytes (64 * secAt line) ((List.range 64).map fun k => Config.anyByte (64 * n + k)))

/-- A die's RDC evicts a line (R204, R209, R232): its beads are gathered, and its home takes a dirty sector back or forgets the copy; that of
another package hears of it by a message. -/
def evictRdc (die line : Nat) : Eff := on fun s =>
  onSome (s.inRdc die line) fun p =>
    let a := Agent.rdc s.ownPkg die
    let d := s.dirOf line
    let m := (s.homeOf line).elim 0 Region.pkg
    let x := s.lineData line
    if !d.holders.contains a then andThen (when p.2.dirty (swmBack die line p.2)) (dropRdc die line)
    else seqs [yieldDie die line,
      setDir line (if d.holders.erase a = [] then .i else d.st) (d.holders.erase a),
      when (d.holders.erase a = []) (freeHost line),
      when (!s.ownHome line) (if d.st = .m then
          andThen (act (.seen (backKey die line) (some s.now)))
            (out (.request (s.portFor die (secAt line)) m 0 (.writeBack ⟨a, s.stampNow⟩ line ⟨x.bytes, x.poison, true⟩)))
        else out (.request (s.portFor die (secAt line)) m 0 (.cleanEviction ⟨a, s.stampNow⟩ line)))]

/-- A die's RDC holds a line, in the way of the partition that has it or in one of those of partition `part`, chosen freely, as is the line
that a full way gives up (R16; log entry 37). -/
def putRdc (die part line : Nat) (x : Sector) : Eff := on fun s =>
  match s.inRdc die line with
  | some (p, y) => upRdc p fun m => m.put line { x with way := y.way }
  | none => freely fun f =>
    let w := Config.pick f % partWays
    let l := ((s.rdc.findD part []).filter fun kv => kv.2.way = w).map Prod.fst
    andThen (when (wayL2 ≤ l.length) (evictRdc die (l.getD (Config.pick f / 4 % l.length) line)))
      (on fun s => act (.rdc part (some ((s.rdc.findD part []).put line { x with way := w }))))

/-- What a frame's die must have of a coherent line before the frame's access (R203, R207): the directory's grant where the home is on this
package and the die has not what it needs, the RDC's copy off the home die; then the beads. -/
def obtain (frame line : Nat) (guarded write : Bool) : Eff := on fun s =>
  let die := dieOf frame
  let who := s.agentOf die line
  let dirty := write || (s.inRdc die line).elim false fun p => p.2.dirty
  seqs [when (s.ownHome line && !s.agentHas who write line) (if write then grantWrite who line else grantRead who guarded line),
    when (s.ownHome line && write && s.agentHas who true line) (onSome who fun a => setDir line .m [a]),
    touchL2 (partOf frame) line,
    when who.isSome (on fun s => putRdc die (partOf frame) line { s.lineData line with dirty := dirty }),
    when (!beadsEnough s frame line write) (askBeads frame line write 0)]

/-- What the caches keep of a coherent line once a frame has read or written it: the data as they now are. -/
def keepLine (frame line : Nat) (write : Bool) : Eff := on fun s =>
  andThen (onSome (s.inRdc (dieOf frame) line) fun p =>
      let x := s.lineData line
      upRdc p.1 fun m => m.put line { p.2 with bytes := x.bytes, poison := x.poison })
    (fillL1 frame line write)

/-- The transaction record of a line. -/
def State.transOf (s : State) (line : Nat) : Trans := s.trans.findD line ⟨none, [], []⟩

/-- A snoop leaves for an agent outside (R207, R217, R227). -/
def sendSnoop (a : Agent) (line : Nat) (write : Bool) : Eff := on fun s => out (.snoop (s.portTo a line) a line write)

/-- A transaction that waits on agents outside begins, or joins the queue of its sector (R207); one on a sector that a recovery engine has
still to sweep waits for that (R224). -/
def await (line : Nat) (w : Waiting) (write : Bool) (l : List Agent) : Eff := on fun s =>
  let t := s.transOf line
  if t.cur.isSome || s.unswept line then act (.trans line (some { t with queue := t.queue ++ [w] }))
  else seqs [recallOwn (some w.who) write line, act (.trans line (some { t with cur := some w, await := l })), each l fun a => sendSnoop a line write]

/-- The HOME record of a request parked at a home under MARK (R248), with the frame, the context and the fault queue of its partition. For a
request of another agent these are 0, and a record whose queue is disabled is not written (DESIGN CHOICE, log entry 80). -/
def homeRecord (pa frame ctx part : Nat) : Eff := on fun s =>
  when (s.faultOn part) (record
    { part := part, va := 0, pc := 0#57, kind := 6, cause := 7, pgsz := 3, frame := frame, gslot := 0, fdom := 0, vid := 0,
      rcnt := 0, refault := false, reissue := false, status := 2, seq := 0#32, payload := 0#32, lmask := 0#32, ctx := ctx,
      team := 0, aux := BitVec.ofNat 64 pa, gid := 2 ^ 30, op := 0, cmd := none, pages := [] } fun _ => skip)

/-- Whether no device populates an address homed here (R483). -/
def State.absentAt (s : State) (pa : Nat) : Bool := (s.region pa).elim false fun r => r.pkg = s.ownPkg && r.absent pa

/-- Whether a write request of an agent's cell is performed (R213, R214, R483). -/
def State.admits (s : State) (a : Agent) (pa : Nat) : Bool := s.fwOk pa (s.cellOf (Agent.pkg a)) && !s.absentAt pa

/-- A read of an address that no device populates returns poison of cause DATA (R483). -/
def sendAbsent (a : Agent) (pa n : Nat) : Eff :=
  origin ⟨.data, svcTab 4, 2, pa, 0#57, 0, 0, 0⟩ fun w => freely fun k => sendBytes a pa ((poisonBytes w k).take n, some w)

/-- A request of an agent as the home performs it (Table 9.2, R213, R214, R483). -/
def homePerform (r : Instr) : Eff := on fun s =>
  match r with
  | .readShared ⟨a, _⟩ g sec =>
    if s.absentAt (64 * secAt sec) then sendAbsent a (64 * secAt sec) 64 else andThen (grantRead (some a) g sec) (sendSector a sec)
  | .readForOwnership ⟨a, _⟩ sec =>
    if s.admits a (64 * secAt sec) then andThen (grantWrite (some a) sec) (sendSector a sec) else respond a sec 1#8
  | .upgrade ⟨a, _⟩ sec =>
    if s.admits a (64 * secAt sec) then
      if (s.dirOf sec).holders.contains a then andThen (grantWrite (some a) sec) (respond a sec 0#8)
      else andThen (grantWrite (some a) sec) (sendSector a sec)
    else respond a sec 1#8
  | .uncacheableRead ⟨a, _⟩ pa n => if s.absentAt pa then sendAbsent a pa n else sendBytes a pa (s.readBytes 0 0 pa n)
  | .uncacheableWrite ⟨a, _⟩ pa l p =>
    if s.admits a pa then andThen (writeBytes 0 0 pa l p) (respond a (secOf pa) 0#8) else respond a (secOf pa) 1#8
  | .homeSideAtomic ⟨_, some e⟩ => soon (.homeSideAtomic ⟨2 ^ 40, some e⟩)
  | _ => skip

/-- The agent, sector, kind and stamp of a home request. -/
def homeKey : Instr → Option (Agent × Nat × Bool × Nat)
  | .readShared ⟨a, t⟩ _ sec => some (a, sec, false, t)
  | .readForOwnership ⟨a, t⟩ sec => some (a, sec, true, t)
  | .upgrade ⟨a, t⟩ sec => some (a, sec, true, t)
  | .uncacheableRead ⟨a, t⟩ pa _ => some (a, secOf pa, false, t)
  | .uncacheableWrite ⟨a, t⟩ pa _ _ => some (a, secOf pa, true, t)
  | .homeSideAtomic ⟨_, some e⟩ => some (e.who, secOf e.pa, (match e.kind with | .xrd clr => clr | _ => true), e.stamp)
  | _ => none

/-- A request of an agent at the home (R207): parked under MARK or SWOPEN (R248, R249); queued behind the transaction in progress or an
unswept entry (R224); else performed, after the snoops that it needs. -/
def homeServe (r : Instr) : Eff := on fun s =>
  onSome (homeKey r) fun k =>
    let a := k.1
    let sec := k.2.1
    let w := k.2.2.1
    let q : Waiting := ⟨a, r, none⟩
    if s.deadCell (s.cellOf (Agent.pkg a)) then skip
    else match s.migAt (64 * secAt sec) false with
      | some m => seqs [upMig m.src false fun m => { m with parked := m.parked ++ [q] }, homeRecord (64 * secAt sec) 0 0 0, respond a sec 2#8]
      | none =>
        match s.migAt (64 * secAt sec) true with
        | some m => upMig m.src true fun m => { m with parked := m.parked ++ [q] }
        | none =>
          let l := s.awaited (some a) w sec
          if (s.transOf sec).cur.isSome || s.unswept sec || !l.isEmpty then await sec q w l else homePerform r

/-- A request of an agent reaches the home: discarded from a dead cell (R225), refused after its stamp (R219). One that is parked
under MARK has a record of partition 0, frame 0 and context 0 (DESIGN CHOICE, log entry 80). -/
def homeRequest (r : Instr) : Eff := on fun s =>
  onSome (homeKey r) fun k =>
    if s.deadCell (s.cellOf (Agent.pkg k.1)) then skip
    else if k.2.2.2 < s.ftime then respond k.1 k.2.1 1#8
    else homeServe r

/-- A waiting request is taken up. -/
def takeUp (w : Waiting) : Eff :=
  match w.op with
  | some _ => soon w.req
  | none => homeServe w.req

/-- The transaction of a sector ends: what waited is performed, and the requests of the queue are taken up in the order of arrival. -/
def transDone (line : Nat) : Eff := on fun s =>
  let t := s.transOf line
  seqs [act (.trans line none),
    onSome t.cur fun w => match w.op with
      | some _ => soon w.req
      | none => homePerform w.req,
    each t.queue takeUp]

/-- An agent's answer to a snoop (R207, R210): its dirty data reach memory; an agent that answers "not held" leaves the sector's holders; one
that answers "written back" is waited for until its write-back arrives. A dead cell's answer is discarded (R225). -/
def snoopAnswer (a : Agent) (line : Nat) (keep : Bool) (ans : SnoopAnswer) : Eff := on fun s =>
  let t := s.transOf line
  if t.cur.isNone || !t.await.contains a || s.deadCell (s.cellOf (Agent.pkg a)) then skip
  else
    let settle (held : Bool) : Eff := on fun s =>
      let d := s.dirOf line
      let l := if held && keep then d.holders else d.holders.erase a
      seqs [setDir line (if l = [] then .i else if keep then .s else d.st) l,
        act (.trans line (some { t with await := t.await.erase a })),
        when (t.await.erase a = []) (transDone line)]
    match ans with
    | .writtenBack => skip
    | .dirty x => andThen (lineWrite line x) (settle true)
    | .clean => settle true
    | .notHeld => settle false

/-- `READ_SHARED` (R209, R219). -/
def execReadShared (a : Sender) (guarded : Bool) (sec : Nat) (s : State) : Host.Outcome State Fault Refusal :=
  outside s (homeRequest (.readShared a guarded sec))

/-- `READ_FOR_OWNERSHIP` (R209, R214, R219). -/
def execReadForOwnership (a : Sender) (sec : Nat) (s : State) : Host.Outcome State Fault Refusal :=
  outside s (homeRequest (.readForOwnership a sec))

/-- `UPGRADE` (R209, R214, R219). -/
def execUpgrade (a : Sender) (sec : Nat) (s : State) : Host.Outcome State Fault Refusal :=
  outside s (homeRequest (.upgrade a sec))

/-- Whether a message of an agent is taken (R219, R225): its cell lives, and its stamp has not passed. -/
def State.takes (s : State) (a : Sender) : Bool := !s.deadCell (s.cellOf (Agent.pkg a.agent)) && s.ftime ≤ a.stamp

/-- `WRITE_BACK` (R209, R210, R219, R249): written when the home lists the agent as the E or M holder; it also answers a snoop that
waits for it. In a switch window it is one of an `SWM` sector. A write-back of another agent is discarded. -/
def execWriteBack (from_ : Sender) (sec : Nat) (d : SectorData) (s : State) : Host.Outcome State Fault Refusal :=
  outside s <|
    let a := from_.agent
    let x := s.dirOf sec
    if !s.takes from_ then skip
    else if (s.migAt (64 * secAt sec) true).isSome then arrives (s.dieOfSec (secAt sec)) sec d fun d => swmWriteBack sec d
    else if !((x.st = .m || x.st = .e) && x.holders = [a]) then skip
    else seqs [lineWrite sec d,
      match a with
      | .rdc p k => when (p = s.ownPkg) (yieldDie k sec)
      | _ => skip,
      if (s.transOf sec).await.contains a then snoopAnswer a sec false .clean else setDir sec .i []]

/-- `CLEAN_EVICTION` (R209, R219). -/
def execCleanEviction (from_ : Sender) (sec : Nat) (s : State) : Host.Outcome State Fault Refusal :=
  outside s <|
    let a := from_.agent
    let x := s.dirOf sec
    when (s.takes from_ && x.holders.contains a && (x.st = .s || x.st = .e))
      (andThen (setDir sec (if x.holders.erase a = [] then .i else x.st) (x.holders.erase a))
        (match a with
        | .rdc p k => when (p = s.ownPkg) (yieldDie k sec)
        | _ => skip))

/-- `UNCACHEABLE_READ` (R216, R219). -/
def execUncacheableRead (a : Sender) (pa len : Nat) (s : State) : Host.Outcome State Fault Refusal :=
  outside s (homeRequest (.uncacheableRead a pa len))

/-- `UNCACHEABLE_WRITE` (R213, R214, R219). -/
def execUncacheableWrite (a : Sender) (pa : Nat) (bytes : List Byte) (poison : Option Word) (s : State) :
    Host.Outcome State Fault Refusal :=
  outside s (homeRequest (.uncacheableWrite a pa bytes poison))

/-- A snoop of a home on another package reaches an agent of this one (R209, R210): it answers with its data where they are dirty, that it
holds a clean copy or none, or that it has written the sector back; an invalidate takes its copy, a downgrade leaves it in S. -/
def answerSnoop (die line : Nat) (inv : Bool) : Eff := on fun s =>
  let a := Agent.rdc s.ownPkg die
  let d := s.dirOf line
  let m := (s.homeOf line).elim 0 Region.pkg
  let x := s.lineData line
  let held := d.holders.contains a
  let ans : SnoopAnswer :=
    if held then if d.st = .m then .dirty ⟨x.bytes, x.poison, true⟩ else .clean
    else if (s.seen.find (backKey die line)).isSome then .writtenBack else .notHeld
  seqs [out (.answer (s.portFor die (secAt line)) m a line ans),
    when held (if inv then andThen (yieldDie die line) (setDir line (if d.holders.erase a = [] then .i else d.st) (d.holders.erase a))
      else andThen (cleanRdc die line) (setDir line .s d.holders))]

/-- A snoop and its answer (R210): to an agent of this package a snoop comes from another home, and it answers; from another agent comes
the answer `ans`. A dead cell's message is discarded (R225). -/
def snoop (a : Agent) (line : Nat) (keep : Bool) (ans : SnoopAnswer) : Eff := on fun s =>
  match a with
  | .rdc p k =>
    if p = s.ownPkg && !s.ownHome line then
      when (!(s.homeOf line).elim false (fun r => s.deadCell (s.cellOf r.pkg))) (answerSnoop (k % 4) line (!keep))
    else snoopAnswer a line keep ans
  | _ => snoopAnswer a line keep ans

/-- `INVALIDATE` (R210). -/
def execInvalidate (a : Agent) (sec : Nat) (ans : SnoopAnswer) (s : State) : Host.Outcome State Fault Refusal :=
  outside s (snoop a sec false ans)

/-- `DOWNGRADE` (R210). -/
def execDowngrade (a : Agent) (sec : Nat) (ans : SnoopAnswer) (s : State) : Host.Outcome State Fault Refusal :=
  outside s (snoop a sec true ans)

/-- `BACK_INVALIDATE` (R227): the host's answer to a back-invalidate snoop. -/
def execBackInvalidate (sec : Nat) (ans : SnoopAnswer) (s : State) : Host.Outcome State Fault Refusal :=
  outside s (each ((s.transOf sec).await.filter fun a =>
    match a with
    | .host p => p = s.ownPkg
    | _ => false) fun a => snoopAnswer a sec false ans)

/-- The step at which an operation's accesses are performed. -/
def opStep (id : Nat) : Instr → Option Instr
  | .ld .. | .ldc .. | .ldv .. => some (.loadReturn id)
  | .atom .. | .acas .. | .red .. | .xadd .. | .xrd .. => some (.homeSideAtomic ⟨id, none⟩)
  | .st .. => some (.grant ⟨id, none⟩)
  | _ => none

/-- The die agent activates the oldest persistent request of its die, while none is active (R206): every bead of the die goes to the
requester. -/
def activate (die : Nat) : Eff := on fun s =>
  let mine := s.breqs.filter fun kv => kv.2.persist && dieOf (kv.1 % 256) = die
  when (!s.breqs.any fun kv => kv.2.active && dieOf (kv.1 % 256) = die)
    (onSome (mine.foldl (fun (m : Option (Nat × BeadReq)) kv => match m with
        | some x => if x.2.since ≤ kv.2.since then some x else some kv
        | none => some kv) none) fun kv =>
      seqs [act (.breq kv.1 (some { kv.2 with active := true })), askBeads (kv.1 % 256) (kv.1 / 256) true 0,
        later 120 600 (.persistentRequest (kv.1 % 256) (kv.1 / 256))])

/-- `TRANSIENT_REQUEST` (R205): the die agent forwards the request, and the holders answer; which answers come within 64 clocks is free. What
is not gathered by then is asked for again. A frame sends no second request for a line. -/
def execTransientRequest (frame sec : Nat) (write : Bool) (s : State) : Host.Outcome State Fault Refusal :=
  fire s <|
    if beadsEnough s frame sec write || (s.breqs.find (breqKey frame sec)).isSome then skip
    else freely fun n => seqs [act (.breq (breqKey frame sec) (some ⟨write, 1, false, 0, false⟩)), after 64 (.transientRetry frame sec),
      askBeads frame sec write (Config.pick n)]

/-- `TRANSIENT_RETRY` (R205): an attempt that has not gathered its beads is sent again; after the fourth a persistent request
follows. A request that has gathered them ends. -/
def execTransientRetry (frame sec : Nat) (s : State) : Host.Outcome State Fault Refusal :=
  fire s <|
    match s.breqs.find (breqKey frame sec) with
    | none => skip
    | some b =>
      if b.persist then skip
      else if beadsEnough s frame sec b.write then act (.breq (breqKey frame sec) none)
      else if b.tries < 4 then freely fun n =>
        seqs [act (.breq (breqKey frame sec) (some { b with tries := b.tries + 1 })), after 64 (.transientRetry frame sec),
          askBeads frame sec b.write (Config.pick n)]
      else fresh fun k => andThen (act (.breq (breqKey frame sec) (some { b with persist := true, since := k }))) (activate (dieOf frame))

/-- `PERSISTENT_REQUEST` (R206): the active request of a frame completes: every bead of the die is the requester's, which performs one access
that awaits them and then, taken up again, releases the activation; the next request is activated. -/
def execPersistentRequest (frame sec : Nat) (s : State) : Host.Outcome State Fault Refusal :=
  fire s <|
    if beadsTaken s frame sec then skip
    else
      let key := breqKey frame sec
      let waits := (s.ops.find? fun kv => kv.2.frame = frame && kv.2.st = .sent && kv.2.accs.any fun a =>
        !a.done && a.page.elim false fun p => secOf (p.paOf a.adr) = secAt sec).bind fun kv => opStep kv.1 kv.2.ins
      match s.breqs.find key, waits with
      | some b, some i =>
        if b.persist then seqs [askBeads frame sec true 0, act (.breq key (some { b with persist := false })), soon i, soon (.persistentRequest frame sec)]
        else andThen (act (.breq key none)) (activate (dieOf frame))
      | _, _ => seqs [askBeads frame sec true 0, act (.breq key none), activate (dieOf frame)]

/-- `BEAD_EVICTION` (R204): a holder's beads go to the die agent, the owner bead with the data; a release mark is promoted
first. -/
def execBeadEviction (frame sec : Nat) (s : State) : Host.Outcome State Fault Refusal :=
  fire s <|
    when (((s.beadsOf (dieOf frame) sec).hold.find frame).isSome) (andThen (dropL1 frame sec) (dropBeads frame sec))

/-- `SWM_EVICTION` (R232): an L1 (a frame) or an RDC (256 + die) evicts a sector of an `SWM` page: a dirty one is written back,
a clean one dropped. -/
def execSwmEviction (place sec : Nat) (s : State) : Host.Outcome State Fault Refusal :=
  fire s <|
    if place < 256 then onSome ((s.l1.findD place []).find sec) fun x =>
      andThen (when x.dirty (swmBack (dieOf place) sec x)) (upL1 place fun m => m.del sec)
    else onSome (s.inRdc (place - 256) sec) fun p =>
      andThen (when p.2.dirty (swmBack (place - 256) sec p.2)) (dropRdc (place - 256) sec)

end Sys2Proof.Machine
end

