-- ==== Sys2Proof/Machine/Access.lean ====
section
/-!
DEFINITION. Access.lean: what the memory instructions share: addresses (R332), checks in their order (R153, R340), lookups
(R234, R235), escapes (R260, R269), operations in progress and their order (R186), local-store words (R156, R157), results
on the return path (R73), lost stores (R221).
-/
namespace Sys2Proof.Machine

/-- Lane `L` of a global address (R332): A + `OFS` × w modulo 2^57; bits above [56:0] of the register pair stay, so that the
lookup fails. -/
def eaGlobal (c : Iss) (a : Src) (ofs : BitVec 6) (w L : Nat) : Nat × Option Word :=
  let x := c.pairAt 1 a L
  (x.1.toNat / 2 ^ 57 * 2 ^ 57 + ((((x.1.toNat % 2 ^ 57 : Nat) : Int) + ofs.toInt * w).emod (2 ^ 57)).toNat, x.2)

/-- A local-store offset operand: a class-7 index is zero-extended (R332). -/
def offsetAt (c : Iss) (slot : Nat) (a : Src) (L : Nat) : Word × Option Word :=
  if a.cls = .imm then (a.idx.zeroExtend 32, none) else c.at32 slot a L

/-- Lane `L` of a local-store offset (R332): A + `OFS` × w modulo 2^32. -/
def eaLocal (c : Iss) (a : Src) (ofs : BitVec 6) (w L : Nat) : Nat × Option Word :=
  let x := offsetAt c 1 a L
  ((x.1 + ofs.signExtend 32 * BitVec.ofNat 32 w).toNat, x.2)

/-- Lane `L` of the effective address of a memory instruction. -/
def ea (c : Iss) (ls : Bool) (a : Src) (ofs : BitVec 6) (w L : Nat) : Nat × Option Word :=
  if ls then eaLocal c a ofs w L else eaGlobal c a ofs w L

/-- The lanes that a load accesses: the Active, guard-true ones; once for the group with a uniform destination (R412). -/
def accLanes (c : Iss) (d : Dst) : List Nat :=
  if d.uniform then c.on.lanes.take 1 else c.on.lanes

/-- The clean addresses of a list of lanes. -/
def addrs (c : Iss) (ls : Bool) (a : Src) (ofs : BitVec 6) (w : Nat) (l : List Nat) : List (Nat × Nat) :=
  l.filterMap fun L =>
    let x := ea c ls a ofs w L
    if x.2.isSome then none else some (L, x.1)

/-- The lanes whose address is poisoned, with the payloads. -/
def badAddrs (c : Iss) (ls : Bool) (a : Src) (ofs : BitVec 6) (w : Nat) (l : List Nat) : List (Nat × Word) :=
  l.filterMap fun L => (ea c ls a ofs w L).2.map fun p => (L, p)

/-- Bytes of a team's local store (R152). -/
def Team.lsBytes (t : Team) : Nat := 4096 * t.lgr

/-- The checks of R153 on a list of accesses of `w` bytes. -/
def aligned (c : Iss) (ls : Bool) (w : Nat) (l : List (Nat × Nat)) (k : Res) : Res :=
  match l.find? fun p => p.2 % w ≠ 0 with
  | some p => .trap .misalign (BitVec.ofNat 64 p.2)
  | none =>
    match if ls then l.find? fun p => c.tm.lsBytes < p.2 + w else none with
    | some p => .trap .alloc (BitVec.ofNat 64 p.2)
    | none => k

/-- The page of an access whose lookup has succeeded. -/
def pageFor (s : State) (c : Iss) (va : Nat) : Option Page :=
  match s.findPage c.g.frame (s.ctxOf c.g) va with
  | .ok p => some p
  | .error _ => none

/-- Whether a write at a page escapes a view at depth 1 or more; one to a TRANSPARENT page does not (R260). -/
def escapes (s : State) (p : Page) (va : Nat) : Bool :=
  !p.trn && (p.uc || p.swm ||
    match s.region (p.paOf va) with
    | none => false
    | some r => r.host || r.expander (p.paOf va) || s.cellOf r.pkg ≠ s.cellOf s.ownPkg)

/-- The bytes of local-store words, and the payload of the first poisoned one among them. -/
def Team.lsRead (t : Team) (a n : Nat) : List Byte × Option Word :=
  let ws := (List.range ((a + n - 1) / 4 + 1 - a / 4)).map fun k => t.word (a / 4 + k)
  (((ws.flatMap fun w => leBytes 4 w.val.toNat).drop (a % 4)).take n,
    ws.findSome? fun w => if w.poi then some w.val else none)

/-- One word of a local-store write of `l` at byte `k` of the word (R156): poison comes with poisoned data, and goes only when
all four bytes are written clean. -/
def LWord.write (w : LWord) (k : Nat) (l : List Byte) (p : Option Word) : LWord :=
  match p with
  | some x => { w with val := x, poi := true }
  | none =>
    let b := leBytes 4 w.val.toNat
    if l.length = 4 then { w with val := BitVec.ofNat 32 (leNat l), poi := false }
    else if w.poi then w
    else { w with val := BitVec.ofNat 32 (leNat (b.take k ++ l ++ b.drop (k + l.length))) }

/-- A write of bytes within the words of the local store, word by word; `n` bounds the words. -/
def Team.lsWrite (p : Option Word) : Nat → Team → Nat → List Byte → Team
  | 0, t, _, _ => t
  | n + 1, t, a, l =>
    if l.isEmpty then t
    else
      let k := 4 - a % 4
      Team.lsWrite p n { t with words := t.words.put (a / 4) ((t.word (a / 4)).write (a % 4) (l.take k) p) } (a + k) (l.drop k)

/-- A write of bytes into a team's local store. -/
def lsPut (tk a : Nat) (l : List Byte) (p : Option Word) : Eff := upWords tk fun t => t.lsWrite p (l.length / 4 + 2) a l

/-- The registers of a loaded value (Table 14.9a), with its poison. -/
def loadElems (w : Width) (l : List Byte) (p : List (Option Word)) : Lanes :=
  let x := leNat l
  let raw : List Word :=
    match w with
    | .n8 | .n16 | .w32 => [BitVec.ofNat 32 x]
    | .s8 => [(BitVec.ofNat 8 x).signExtend 32]
    | .s16 => [(BitVec.ofNat 16 x).signExtend 32]
    | _ => (List.range w.regs).map fun k => BitVec.ofNat 32 (x / 2 ^ (32 * k))
  (raw.zip (p ++ List.replicate 4 none)).map fun q => match q.2 with
    | some w => ⟨w, true⟩
    | none => clean q.1

/-- Whether an instruction is an access on the GEN path (Table 7.2), whose order R186 gives. -/
def genPath : Instr → Bool
  | .ld .. | .st .. | .ldwf .. | .ldtk .. | .stwe .. | .feset .. | .atom .. | .acas .. | .red .. | .xadd .. | .xrd .. | .ldv .. => true
  | _ => false

/-- Whether it is one to global memory. -/
def genGlobal (i : Instr) : Bool := genPath i && !genLocal i

/-- The order that an access names. -/
def ordOf : Instr → Ord
  | .ld _ _ _ _ _ mc | .st _ _ _ _ _ mc | .atom _ _ _ _ _ _ _ mc | .acas _ _ _ _ _ _ mc | .red _ _ _ _ _ _ mc
  | .xadd _ _ _ _ mc | .xrd _ _ _ _ mc => mc.ord
  | _ => .none

/-- An acquire (R188, R196). -/
def acquires (i : Instr) : Bool :=
  ordOf i = .acq || ordOf i = .ar || ordOf i = .acqRmt || match i with
    | .ldwf .. | .ldtk .. => true
    | _ => false

/-- A release (R188). -/
def releases (i : Instr) : Bool := ordOf i = .rel || ordOf i = .ar

/-- The scope that an instruction names (R181, R196). -/
def scopeOf : Instr → Scope
  | .ld _ _ _ _ _ mc | .st _ _ _ _ _ mc | .atom _ _ _ _ _ _ _ mc | .acas _ _ _ _ _ _ mc | .red _ _ _ _ _ _ mc
  | .xadd _ _ _ _ mc | .xrd _ _ _ _ mc => mc.scope
  | .fence _ _ sc | .pfence _ sc => sc
  | .stwe .. | .bar .. => .team
  | _ => .sys

/-- Whether every instance of a scope lies in one frame, so that its order is met in the frame's L1 (Tables 16.5 and 17.13). -/
def narrowScope (c : Scope) : Bool := c = .grp || c = .team

/-- Whether an instruction loads for its group, so that an acquire fence waits for its return (R391). -/
def returnsLoad : Instr → Bool
  | .ld .. | .ldv .. | .atom .. | .acas .. | .xrd .. => true
  | _ => false

/-- Whether an instruction writes global memory or the local store for its group, so that a release fence waits until it has been
performed (R391, R436). -/
def writesGen : Instr → Bool
  | .st .. | .stwe .. | .feset .. | .atom .. | .acas .. | .red .. | .xadd .. | .xrd _ true .. => true
  | _ => false

/-- Bytes that one lane of a memory instruction accesses; the lost writes of an engine command are kept byte by byte. -/
def accBytes : Instr → Nat
  | .ld _ _ w .. | .st _ _ w .. | .ldc _ w .. => w.bytes
  | .atom _ _ _ w .. | .acas _ _ w .. | .red _ _ _ w .. => if w then 8 else 4
  | .xadd .. | .xrd .. => 64
  | .cpy .. | .tld .. | .tst .. | .gath .. | .scat .. => 1
  | _ => 4

/-- The page of an access. -/
def Acc.pageD (a : Acc) : Page := a.page.getD ⟨0, 0#2, 0, false, false, false, false, false, false⟩

/-- The physical address of an access. -/
def Acc.pa (a : Acc) : Nat := a.pageD.paOf a.adr

/-- The threads that an access of an instruction is made for: its lane's, or all of `m` where it acts once (R412). -/
def threadsOf (i : Instr) (m : Mask) (a : Acc) : Mask :=
  match i with
  | .ld _ _ _ d .. => if d.uniform then m else 1#32 <<< a.lane
  | _ => 1#32 <<< a.lane

/-- Whether two accesses to global memory touch a common location for one thread (R184): overlapping bytes of physical memory. -/
def overlaps (i j : Instr) (m n : Mask) (x y : List Acc) : Bool :=
  x.any fun a => y.any fun b => a.page.isSome && b.page.isSome && (threadsOf i m a &&& threadsOf j n b) ≠ 0#32
    && a.pa < b.pa + accBytes j && b.pa < a.pa + accBytes i

/-- Whether an operation has still to be performed (R186); one on the local store has been once all its lanes have. -/
def Op.pending (o : Op) : Bool :=
  match o.st with
  | .performed | .lost => false
  | _ => !(genLocal o.ins && o.accs ≠ [] && o.accs.all Acc.done)

/-- Whether an operation on the local store waits for earlier ones before it acts (R185, R186). -/
def Op.unplaced (o : Op) : Bool :=
  genLocal o.ins && o.pending && match o.st with
    | .waiting | .buffered _ => true
    | _ => false

/-- The group that an operation belongs to: a continuation's operations carry its group's identity (R36). -/
def Iss.owner (c : Iss) : Nat := (c.g.cont.map Prod.fst).getD c.gid

/-- Whether Table 8.3 orders earlier operation `o` before an access `i` of the same thread to the locations of `l`: an acquire before
anything, anything before a release, earlier reads before the writes behind a release fence, and accesses to one location. A release at
GRP or TEAM scope is content with what the frame's L1 has performed; `LDV` takes no part in the order of locations (R184). -/
def precedes (c : Iss) (i : Instr) (l : List Acc) (o : Op) : Bool :=
  o.gid = c.owner && genPath o.ins && o.pending && (o.mask &&& c.on) ≠ 0#32
    && (acquires o.ins || (releases i && !(o.early && narrowScope (scopeOf i)))
      || (returnsLoad o.ins && writesGen i && o.seq < c.g.fenced)
      || ((match o.ins with | .ldv .. => false | _ => true) && overlaps o.ins i o.mask c.on o.accs l))

/-- Writes of a team that only its frame has performed. A release that reaches beyond the frame is cumulative: what its thread may have
seen of them is performed first (R188). -/
def Op.frameOnly (o : Op) (team : Nat) : Bool := o.early && o.pending && o.team = team

/-- The earlier operations that R186 and R188 order before an access. -/
def orderedBefore (s : State) (c : Iss) (i : Instr) (l : List Acc) : List Nat :=
  (s.ops.filter fun kv => precedes c i l kv.2 || (releases i && !narrowScope (scopeOf i) && kv.2.frameOnly c.g.team)).map Prod.fst

/-- The earlier operations that an access to the local store follows (R185, R186): those that R186 orders before it, and those of its
group on the local store that wait. -/
def localBefore (s : State) (c : Iss) (i : Instr) : List Nat :=
  (s.ops.filter fun kv => precedes c i [] kv.2 || (kv.2.gid = c.owner && kv.2.unplaced)).map Prod.fst

/-- An operation of the instruction that issues, at its state `st`. -/
def opOf (c : Iss) (s : State) (i : Instr) (st : OpState) (l : List Acc) (vals : Lanes) (after : List Nat) (id : Nat) : Op :=
  { ins := i, gid := c.owner, dest := c.gid, team := c.g.team, frame := c.g.frame, part := s.lead (s.ctxOf c.g),
    ctx := s.ctxOf c.g, view := c.g.csr.vid, pc := c.pc, issued := c.t, seq := id, mask := c.on, accs := l, vals := vals,
    hm := if i.hint.lhu then i.hint.lhm else c.g.hm, st := st, after := after, seg := 0, moved := 0, held := [], parts := [], escape := none,
    fdom := s.fdomOf c.g, pair := (0, 0), early := false, lows := [], asked := [], sentAt := c.t }

/-- A new operation, whose number `f` uses. -/
def newOp (c : Iss) (i : Instr) (st : OpState) (l : List Acc) (vals : Lanes) (after : List Nat) (f : Nat → Eff) : Eff :=
  fresh fun id => on fun s => andThen (act (.op id (some (opOf c s i st l vals after id)))) (f id)

/-- An operation enters the rod's store buffer for 48 clocks (R292). -/
def enterBuffer (c : Iss) (i : Instr) (l : List Acc) (vals : Lanes) (after : List Nat) (f : Nat → Eff) : Eff :=
  newOp c i (.buffered (c.t + 48)) l vals after fun id =>
    seqs [upRod (rodKey c.g.frame c.g.rod) fun r => { r with store := r.store ++ [id] },
      Sys2Proof.Machine.after 48 (.storeBufferSend id), f id]

/-- The rod that a group issues from. -/
def rodOf (s : State) (o : Op) : Nat := ((s.groups.find o.gid).map fun g => rodKey g.frame g.rod).getD (rodKey o.frame (o.gid / 64 % 16))

/-- An operation leaves the store buffer (R292). -/
def leaveBuffer (id : Nat) : Eff := on fun s =>
  each s.rods fun kv => when (kv.2.store.contains id) (act (.rod kv.1 (some { kv.2 with store := kv.2.store.erase id })))

/-- The results in flight of operation `o`, in latch clock `L` (R73, R85, R89, R91): the lanes of `m` of its destination `u`; `x k` holds
register `k`. -/
def returned (o : Op) (u : DstUse) (m : Mask) (x : Nat → Lanes) (L : Nat) : List Pend :=
  let h := o.ins.hint
  if u.dst.cls = .s then
    if m = 0#32 then [] else (List.range u.span).map fun k => ⟨L, .ws (u.dst.idx.toNat + k) (lane (x k) (m.lanes.headD 0))⟩
  else [⟨L, .ret o.hm m (x 0)⟩] ++ (if h.ocap then [⟨L, .ocap h.ocsel.toNat m (x 0)⟩] else [])
    ++ (if u.dst.nwb then [] else (List.range u.span).map fun k => ⟨L + 2, .wv (u.dst.idx.toNat + k) m (x k)⟩)

/-- A result on the return path, which it enters 7 clocks from now or in the first later clock that R73 leaves it: the lanes of `m` of the
destination of `o`. The scoreboard clears in the following clock. `more` goes with it in the latch clock. -/
def returnResult (id : Nat) (o : Op) (m : Mask) (x : Nat → Lanes) (more : List PendKind) : Eff := on fun s =>
  match s.groups.find o.dest, o.ins.dst? with
  | some g, some u =>
    let key := rodKey g.frame g.rod
    let L := s.now + 7
    let pays (n : Nat) := (List.range u.span).filterMap fun k => if (lane (x k) n).poi then some (lane (x k) n).val else none
    let w := returned o u m x L ++ ((more ++ g.newHolds m pays).map fun k => ⟨L, k⟩) ++ sbAt o.ins (L + 1)
    if g.cont.isSome then andThen (deliver o.dest o.issued w) (upGroup o.dest fun g => { g with hold := .none, ready := max g.ready (lastClk L w) })
    else
      let me := s.placed key ⟨L, id, o.dest, o.issued, regWrites u.dst u.span L, w⟩
      andThen (upRod key fun r => { r with rets := r.rets ++ [me] }) (deliver o.dest o.issued me.pend)
  | _, _ => skip

/-- The record and the bookkeeping of a lost store (R221): its group parks at its next release, fence or the like. -/
def loseStore (id cause : Nat) (o : Op) (l : List Acc) : Eff := on fun s =>
  let low := l.headD ⟨0, 0, none, [], false, []⟩
  let r : FRec :=
    { part := partOf o.frame, va := low.adr % 2 ^ 57, pc := o.pc, kind := 7, cause := cause,
      pgsz := (low.page.map fun p => p.size.toNat).getD 3, frame := o.frame, gslot := gslotOf o.gid,
      fdom := o.fdom, vid := o.view, rcnt := 0, refault := false, reissue := false, status := 0,
      seq := 0#32, payload := 0#32, lmask := Mask.of fun n => l.any fun a => a.lane = n, ctx := o.ctx,
      team := (s.teams.find o.team).elim 0 Team.index, aux := 0#64, gid := o.gid, op := id, cmd := none, pages := [] }
  seqs [upOp id fun o => { o with st := .lost, accs := l },
    fault r fun key => upGroup o.gid fun g => { g with lost := g.lost ++ [key] }]

/-- The elements of an access under a poisoned lane guard, whose payload `dat` carries (R253). -/
def guardOver (a : Acc) (l : Lanes) : Lanes :=
  match a.dat with
  | e :: _ => if e.poi then l.map fun x => if x.poi then x else e else l
  | [] => l

/-- A lane's load of the local store, as the words stand (R412). -/
def Team.lsLoad (t : Team) (w : Width) (a : Acc) : Acc :=
  let x := t.lsRead a.adr w.bytes
  let ps := (List.range 4).map fun k =>
    if w.bytes ≤ 4 then x.2
    else if (t.word (a.adr / 4 + k)).poi then some (t.word (a.adr / 4 + k)).val else none
  if a.done then a else { a with done := true, res := guardOver a (loadElems w x.1 ps) }

/-- The view in which an access is made: the base view for a TRANSPARENT page's write (R200). -/
def writeView (o : Op) (a : Acc) : Nat := if a.pageD.trn then 0 else o.view

/-- Whether a request for an operation is guarded (R209). -/
def guardedReq (s : State) (o : Op) (p : Page) : Bool :=
  p.grd || s.partPaired (partOf o.frame) || o.view ≠ 0
    || ((if 2 ^ 40 ≤ o.team then some (o.team - 2 ^ 40) else (s.teams.find o.team).map Team.node).bind fun k =>
      s.nodes.find k).elim false fun n => n.eff.guarded

/-- A view and its ancestors become ESCAPED (R260). -/
def escapeView (part : Nat) : Nat → Nat → Eff
  | 0, _ => skip
  | n + 1, id => on fun s =>
    if id = 0 then skip
    else match s.views.find (viewKey part id) with
      | none => skip
      | some v => andThen (act (.view (viewKey part id) (some { v with escaped := true }))) (escapeView part n v.parent)

/-- One word of the twin digest (R306). -/
def digestWord (va kind mask vpath modf : Nat) (p : Bool) (w : Word) : BitVec 64 :=
  let a := BitVec.ofNat 64 (va / 4 * 2 ^ 9 + kind * 2 ^ 4 + mask)
  let b := BitVec.ofNat 64 (vpath * 2 ^ 48 + (if p then 2 ^ 47 else 0) + modf * 2 ^ 41)
    ||| (if p then w &&& 0xF0000000#32 else w).zeroExtend 64
  let h := (a ^^^ 0x9E3779B97F4A7C15#64) * 0xBF58476D1CE4E5B9#64
  let h := h ^^^ (h >>> 31)
  let h := (h ^^^ b) * 0x94D049BB133111EB#64
  h ^^^ (h >>> 29)

/-- The words of a write digest for bytes at an address (R306): each naturally aligned 32-bit word touched, with its bytes. -/
def digestBytes (adr kind vpath modf : Nat) (p : Option Word) : Nat → List Byte → BitVec 64
  | 0, _ => 0#64
  | n + 1, l =>
    if l.isEmpty then 0#64
    else
      let k := adr % 4
      let x := l.take (4 - k)
      let mask := (2 ^ x.length - 1) * 2 ^ k
      digestWord adr kind mask vpath modf p.isSome (p.getD (BitVec.ofNat 32 (leNat x * 2 ^ (8 * k))))
        + digestBytes (adr + (4 - k)) kind vpath modf p n (l.drop (4 - k))

/-- The node of an operation's team. -/
def State.nodeOf (s : State) (o : Op) : Option Nat :=
  if 2 ^ 40 ≤ o.team then some (o.team - 2 ^ 40) else (s.teams.find o.team).map Team.node

/-- A write leaves a TRANSPARENT page's view (R260), or the private range of an idempotent node (R269): the ESCAPED bits. -/
def noteEscape (o : Op) (adr n : Nat) (p : Page) : Eff := on fun s =>
  seqs [when (p.trn && o.view ≠ 0) (escapeView o.part 5 o.view),
    onSome (s.nodeOf o) fun nk => upNode nk fun x =>
        if x.eff.idem && !(x.eff.pbase ≤ adr && adr + n ≤ x.eff.pbase + x.eff.psize) then { x with escaped := true } else x]

/-- The `MOD` field of an instruction (R306). -/
def modField (i : Instr) : Nat := (encodeRaw i).elim 0 fun r => r.mod.toNat

/-- The digest of a paired node counts a write of kind `kind` (R306). -/
def countDigest (o : Op) (adr kind : Nat) (l : List Byte) (p : Option Word) : Eff := on fun s =>
  onSome (s.nodeOf o) fun nk => upNode nk fun n =>
    if n.eff.paired then
      { n with digest := n.digest + digestBytes adr kind (s.vpath o.part o.view) (if 2 ≤ kind then modField o.ins else 0) p (l.length + 1) l }
    else n

/-- Sectors that a list of writes needs copies of in a view (R198). -/
def newCopies (s : State) (part id : Nat) (l : List Acc) : List Nat :=
  match s.views.find (viewKey part id) with
  | none => []
  | some v => ((l.filter fun a => !a.pageD.trn).map fun a => secOf a.pa).eraseDups.filter fun x => (v.secs.find x).isNone

/-- The node to which the copies count that the commit of a view leaves in its parent (R49): the parent of the view's own node. -/
def State.commitBy (s : State) (v : View) : Nat := ((v.node.bind s.nodes.find).bind Node.parent).getD 0

/-- The sectors of a list that a view holds no copy of. -/
def State.lacking (s : State) (part id : Nat) (l : List Nat) : List Nat :=
  match s.views.find (viewKey part id) with
  | none => []
  | some v => l.filter fun x => (v.secs.find x).isNone

/-- The copies that a partition's views have still to take (R198, R259): those of writes that have issued and those of commits under way.
View, sector, and the node to which the copy counts. -/
def State.toCome (s : State) (part : Nat) : List (Nat × Nat × Nat) :=
  (s.ops.flatMap fun kv =>
      if kv.2.part = part && kv.2.view ≠ 0 && writesGen kv.2.ins && !genLocal kv.2.ins && kv.2.pending then
        (newCopies s part kv.2.view (kv.2.accs.filter fun a => !a.done)).map fun x => (kv.2.view, x, (s.nodeOf kv.2).getD 0)
      else [])
    ++ s.views.flatMap fun kv =>
      if kv.2.part = part && kv.2.parent ≠ 0 then
        (s.lacking part kv.2.parent (kv.2.commit.getD [])).map fun x => (kv.2.parent, x, s.commitBy kv.2)
      else []

/-- The copies of a list that the ways of their homes have no place for (R258), the earlier ones first in the ways. -/
def State.spills (s : State) (part : Nat) (l : List (Nat × Nat × Nat)) : List (Nat × Nat × Nat) :=
  (List.range 5).flatMap fun d => (l.filter fun q => s.dieOfSec q.2.1 = d).drop (viewWays - (s.waysUsed part d).length)

/-- Overflow use of a node with its descendants (R49), with the copies `l` to come. -/
def State.overflowOf (s : State) (part nk : Nat) (l : List (Nat × Nat × Nat)) : Nat :=
  let under := nk :: s.descendants nk
  ((s.views.filter fun kv => kv.2.part = part).map fun kv =>
    (kv.2.secs.filter fun c => c.2.slot.isSome && under.contains c.2.owner).length).sum + (l.filter fun q => under.contains q.2.2).length

/-- Whether new copies of sectors `l` by node `nk` in a view find no room beside those still to come (R49, R259): the overflow area would be
full, or `BMEM` of the node or of an ancestor passed. -/
def viewFull (s : State) (part id nk : Nat) (l : List Nat) : Bool :=
  let old := s.toCome part
  let new := (l.filter fun x => !old.any fun q => q.1 = id && q.2.1 = x).map fun x => (id, x, nk)
  let all := s.spills part (old ++ new)
  all.any new.contains && (s.overflowSize part < (s.slotsUsed part).length + all.length
    || (s.ancestry s.nodes.length nk).any fun a => (s.nodes.find a).elim false fun n => n.eff.bmem * 16384 < s.overflowOf part a all)

/-- A global write at issue: what lookups, escapes and the room of views say (R235, R260, R259), then `k` with the accesses.
`kind` is the KIND of the record; `dat` gives each lane's data. -/
def globalWrite (c : Iss) (s : State) (kind : Nat) (need : Need) (l : List (Nat × Nat)) (dat : Nat → Lanes)
    (k : List Acc → Eff) : Res :=
  let ctx := s.ctxOf c.g
  match failedOf s c.g.frame ctx need l with
  | x :: xs => if c.g.cont.isSome then .back else .stop (parkFault c.gid c.act c.pc kind (x :: xs))
  | [] =>
    let accs : List Acc := l.map fun p => ⟨p.1, p.2, pageFor s c p.2, dat p.1, false, []⟩
    match if c.depth = 0 || need = .read then none else accs.find? fun a => escapes s a.pageD a.adr with
    | some a => .trap .worldesc (BitVec.ofNat 64 a.adr)
    | none =>
      let part := s.lead ctx
      if c.g.csr.vid ≠ 0 && need ≠ .read && viewFull s part c.g.csr.vid c.nk (newCopies s part c.g.csr.vid accs) then
        if c.g.cont.isSome then .back
        else .stop (andThen (park c.gid c.act (.viewFull ((accs.head?).elim 0 Acc.adr)))
          (event 4 4 part ctx (c.nd.elim 0 Node.rcbva) (part + c.g.csr.vid * 16) 0 0 []))
      else .done (andThen (fillFor c.g.frame ctx l) (k accs))

/-- Extra clocks of an access: the walks of lookups that miss the TLB, one for each page (R234) and sectors beyond 16 (R413). -/
def extraDelay (s : State) (frame ctx : Nat) (l : List (Nat × Nat)) : Nat × Nat :=
  let walks := ((regionsOf l).filter fun r => (s.tlbHit frame ctx (65536 * r)).isNone).map fun r =>
    match s.findPage frame ctx (65536 * r) with
    | .ok p => (p.bytes, 65536 * r / p.bytes)
    | .error x => badPage (r, x)
  let misses := walks.eraseDups.length
  let secs := (l.map fun p => p.2 / 64).eraseDups.length - 16
  (30 * misses + secs, 3660 * misses + 2 * secs)

/-- Where an access is served, as a published pair: home on the issuing die, elsewhere in the package, beyond it (R413,
R343). -/
def pairFor (s : State) (frame : Nat) (l : List Acc) (own other : Nat × Nat) : Nat × Nat :=
  l.foldl (fun m a =>
    let p :=
      match s.region a.pa with
      | none => other
      | some r =>
        if r.pkg = s.ownPkg && r.die = dieOf frame then own
        else if r.pkg = s.ownPkg && r.die < 4 then other else (other.1, s.csrBits offTOUT 16 0 * 1000)
    (max m.1 p.1, max m.2 p.2)) own

end Sys2Proof.Machine
end

