-- ==== Sys2Proof/Machine/Words.lean ====
section
/-!
DEFINITION. Words.lean: the full/empty words of the local store and the operations queued at them (R156 to R158, R417, R457), barrier
arrivals (R178, R196), and the operations that wait for earlier ones of their group (R186, R194, R391, R436, R460).
-/
namespace Sys2Proof.Machine

/-- Whether every group of a team that has not retired has arrived at a barrier (R178). -/
def Team.allArrived (t : Team) (bar : Nat) : Bool :=
  let b := t.bars.findD bar ⟨[], false⟩
  !b.arrived.isEmpty && t.groups.all fun g => b.arrived.any fun p => p.1 = g

/-- Whether a step is to come. -/
def State.awaits (s : State) (i : Instr) : Bool := s.agenda.contains i || s.timers.any fun p => p.2 = i

/-- A barrier at which every group that has not retired has arrived releases (R178), once for the generation. -/
def barrierCheck (tk bar : Nat) : Eff := on fun s =>
  when ((s.teams.find tk).elim false (fun t => t.allArrived bar) && !s.awaits (.barrierRelease tk bar))
    (later 10 40 (.barrierRelease tk bar))

/-- A group arrives at a barrier, naming a scoreboard (R178). -/
def arrive (tk bar gid : Nat) (sbs : BitVec 3) : Eff :=
  andThen (upTeam tk fun t =>
      let b := t.bars.findD bar ⟨[], false⟩
      { t with bars := t.bars.put bar { b with arrived := b.arrived ++ [(gid, sbs)] } })
    (barrierCheck tk bar)

/-- The earlier accesses of a group that a release of the whole group waits for (R178, R188, R202): those that have still to be performed,
and beyond the frame those of its team that only the frame has performed. -/
def pendingOf (s : State) (c : Iss) (i : Instr) : List Nat :=
  let near := narrowScope (scopeOf i)
  (s.ops.filter fun kv =>
    (kv.2.gid = c.owner && genPath kv.2.ins && (kv.2.pending || kv.2.st = .lost) && !(kv.2.early && near))
      || (!near && kv.2.frameOnly c.g.team)).map Prod.fst

/-- The lanes of an operation reach their words in increasing order (R157). -/
def reachWords (id : Nat) (o : Op) : Eff :=
  seqs [upOp id fun o => { o with st := .sent },
    each (o.accs.filter fun a => !a.done) fun a =>
      andThen (upTeam o.team fun t =>
          let w := t.word (a.adr / 4)
          { t with words := t.words.put (a.adr / 4) { w with wait := w.wait ++ [(id, a.lane)] } })
        (serveWord o.team (a.adr / 4)),
    when (o.accs.all Acc.done) (wordsDone id o)]

/-- The remaining lanes of an operation are withdrawn from their words (R158). -/
def withdrawWords (id : Nat) (o : Op) : Eff :=
  each (o.accs.filter fun a => !a.done) fun a => upTeam o.team fun t =>
    { t with words := t.words.upd (a.adr / 4) fun w => { w with wait := w.wait.filter fun p => p.1 ≠ id } }

/-- The further clocks of a fence at a scope (Tables 16.5 and 17.13). -/
def scopePair (s : State) : Scope → Nat × Nat
  | .grp | .team => (4, 12)
  | .die => (60, 180)
  | .dev => (200, 420)
  | _ => (200, s.csrBits offTOUT 16 0 * 1000)

/-- An access that waits for earlier ones goes on (R6, R185, R186): its figures run from `d` clocks after now. -/
def wakeAccess (id : Nat) (o : Op) (d : Nat) : Eff := on fun s =>
  let go (i : Instr) := if d = 0 then soon i else Sys2Proof.Machine.after d i
  match o.ins with
  | .ld _ true .. => go (.loadReturn id)
  | .ld .. | .ldv .. => andThen (upOp id fun o => { o with st := .sent, sentAt := s.now + d })
      (later (d + o.pair.1 - 7) (d + o.pair.2 - 7) (.loadReturn id))
  | .st _ true .. => go (.grant ⟨id, none⟩)
  | .atom _ true .. | .acas _ true .. | .red _ true .. => go (.homeSideAtomic ⟨id, none⟩)
  | .feset .. => soon (.fesetComplete id)
  | _ => andThen (upOp id fun o => { o with st := .buffered (s.now + d + 48) })
      (when (o.st = .waiting) (Sys2Proof.Machine.after (d + 48) (.storeBufferSend id)))

/-- An operation that waits for earlier ones goes on (R178, R186, R194, R391, R409, R436, R457, R460), `d` clocks from now where the last
of them was a read, whose result is then there (R6). -/
def wake (id : Nat) (o : Op) (d : Nat) : Eff := on fun s =>
  let go (p : Nat × Nat) := freely fun n => andThen
    (upGroup o.dest fun g => if g.hold = .op id then { g with hold := .none, ready := max g.ready (s.now + d + delay p.1 p.2 n) } else g)
    (act (.op id none))
  match o.ins with
  | .fence _ ord scope => go (if ord = .acq then (2, 6) else scopePair s scope)
  | .pfence _ scope => andThen (when (!narrowScope scope) (act (.ccache o.frame none))) (go (scopePair s scope))
  | .stwe .. | .ldwf .. | .ldtk .. => reachWords id o
  | .bar h n => andThen (act (.op id none)) (arrive o.team n.toNat o.gid h.hint.sbs)
  | .tlbi .. => later 600 2000 (.tlbiComplete o.dest)
  | .launch .. => later 1200 3500 (.launchRetire id)
  | _ => wakeAccess id o d

/-- Whether an operation does nothing until those that it waits for have been performed. -/
def Op.sleeps (o : Op) : Bool :=
  match o.st with
  | .waiting | .buffered _ => true
  | _ => false

/-- The number `id` is struck from the waits of the operations that `p` holds for; one that then waits for nothing goes on, 7 clocks
later where `q` says of what it waited for last that its result is then there. -/
def strikeFrom (p : Op → Bool) (q : Instr → Bool) (id : Nat) : Eff := on fun s =>
  let d := if (s.ops.find id).elim false fun o => q o.ins then 7 else 0
  each (s.ops.filter fun kv => p kv.2 && kv.2.after.contains id) fun kv =>
    let o := { kv.2 with after := kv.2.after.filter fun x => x ≠ id }
    andThen (act (.op kv.1 (some o))) (when (o.after = [] && o.sleeps) (wake kv.1 o d))

/-- Whether a waiting operation waits for results and not only for performance (R391, R436). -/
def Op.awaitsReturn (o : Op) : Bool :=
  match o.ins with
  | .fence _ ord _ => ord ≠ .rel
  | .pfence .. => true
  | _ => false

/-- The frame's L1 has performed the writes of operation `id` (R189): the releases and fences at GRP or TEAM scope that waited for this
go on, but for accesses to the same locations. -/
def strikeEarly (id : Nat) (o : Op) : Eff :=
  strikeFrom (fun w => narrowScope (scopeOf w.ins) && !acquires o.ins
    && (match w.ins with | .fence .. | .pfence .. | .stwe .. | .bar .. => true | i => releases i)
    && !overlaps o.ins w.ins o.mask w.mask o.accs w.accs) (fun _ => false) id

/-- Operation `id` has been performed: those that waited for this go on. -/
def strike (id : Nat) : Eff := strikeFrom (fun o => !o.awaitsReturn) (fun i => returnsLoad i && !writesGen i) id

/-- Operation `id` has returned its result. -/
def strikeReturn (id : Nat) : Eff := strikeFrom Op.awaitsReturn returnsLoad id

/-- Those that wait for operation `id` wait for `k`. -/
def waitInstead (id k : Nat) : Eff := on fun s =>
  each (s.ops.filter fun kv => kv.2.after.contains id) fun kv =>
    act (.op kv.1 (some { kv.2 with after := kv.2.after.map fun x => if x = id then k else x }))

/-- A waiting operation is entered, and goes on at once when it waits for nothing. -/
def waitFor (c : Iss) (i : Instr) (l : List Acc) (vals : Lanes) (after : List Nat) (f : Nat → Eff) : Eff :=
  newOp c i .waiting l vals after fun id => andThen (f id) (on fun s =>
    match s.ops.find id with
    | some o => when (o.after = []) (wake id o 0)
    | none => skip)

end Sys2Proof.Machine
end

