-- ==== Sys2Proof/Machine/Homes.lean ====
section
/-!
DEFINITION. Homes.lean: accesses at their homes: what a home makes them wait for (R207, R248, R249), lost requests (R219 to
R221, R225), the reads and writes themselves (R198, R231, R254), and the frame's caches.
-/
namespace Sys2Proof.Machine

/-- Where an access stands at its home. -/
inductive HomeSt where
  | ready
  /-- Homed in a dead cell (R225), on this die. -/
  | dead (die : Nat)
  /-- Declared lost (R219). -/
  | lost
  /-- Refused by a home on another package (R214). -/
  | refused
  /-- No device populates the address (R483). -/
  | absent
  /-- No home answers: no path, or no home at that address (R219; log entry 2). -/
  | noPath
  /-- Homed on another package, which is asked for it (R207, R209). -/
  | ask
  /-- Parked under MARK (R248), in the range at this base. -/
  | marked (src : Nat)
  /-- Waits for SWCLOSE (R249). -/
  | closed (src : Nat)
  /-- Waits for a transaction, or for the answers of these agents (R207). -/
  | wait (l : List Agent)
  /-- Another frame of the die has an active persistent request for the line (R206). -/
  | beads
  deriving DecidableEq, Repr

/-- Whether an access waits. -/
def HomeSt.waits : HomeSt → Bool
  | .noPath | .ask | .marked _ | .closed _ | .wait _ | .beads => true
  | _ => false

/-- Whether an instruction's accesses are performed by the home's atomic unit (R192). -/
def homeSide : Instr → Bool
  | .atom .. | .acas .. | .red .. | .xadd .. | .xrd .. => true
  | _ => false

/-- Whether an instruction is a command of the engines. -/
def isEngine : Instr → Bool
  | .cpy .. | .tld .. | .tst .. | .gath .. | .scat .. | .coll .. => true
  | _ => false

/-- Whether an instruction's accesses go through its frame's L1. -/
def throughL1 : Instr → Bool
  | .ld .. | .ldv .. | .st .. => true
  | _ => false

/-- Whether a load takes every bead of the sectors that it reads (R191). -/
def Op.takesAll (o : Op) : Bool := ordOf o.ins = .acqRmt

/-- Whether an access takes part in the coherence protocols (R231). -/
def Acc.coherent (a : Acc) : Bool := !a.pageD.uc && !a.pageD.swm

/-- The view in which an operation makes an access (R200). -/
def accView (o : Op) (write : Bool) (a : Acc) : Nat := if write then writeView o a else o.view

/-- The line of an access (R257). -/
def accLine (o : Op) (write : Bool) (a : Acc) : Nat := lineTag o.part (accView o write a) (secOf a.pa)

/-- The copy of an access to an `SWM` page that its frame's L1 or its die's RDC has (R231). -/
def swmCopy (s : State) (o : Op) (a : Acc) : Option Sector :=
  if !a.pageD.swm then none
  else match (s.l1.findD o.frame []).find (secOf a.pa) with
    | some x => some x
    | none => (s.inRdc (dieOf o.frame) (secOf a.pa)).map Prod.snd

/-- Whether an access is homed on another package. -/
def State.abroad (s : State) (a : Acc) : Bool := (s.region a.pa).elim false fun r => r.pkg ≠ s.ownPkg

/-- What an access asks for beyond the die: its sector, or for a home-side or uncacheable access its lane or its engine's sector. -/
def askKey (o : Op) (a : Acc) : Nat :=
  if homeSide o.ins || a.pageD.uc then 2 ^ 60 + (if throughL1 o.ins || homeSide o.ins then a.lane else 2 ^ 59 + secOf a.pa) else secOf a.pa

/-- Whether an operation has a request for an access that stands so. -/
def Op.asks (o : Op) (a : Acc) (st : AskSt) : Bool := o.asked.any fun x => x.key = askKey o a && x.st = st

/-- Whether an access needs nothing of a home (R198, R209, R231): its view has the sector, its die holds the line as the access needs, or an
`SWM` copy is at hand. -/
def State.near (s : State) (o : Op) (write : Bool) (a : Acc) : Bool :=
  let sec := secOf a.pa
  let die := dieOf o.frame
  let v := accView o write a
  if a.pageD.uc || homeSide o.ins then false
  else if a.pageD.swm then (swmCopy s o a).isSome
  else (s.agentHas (s.agentOf die (accLine o write a)) write (accLine o write a)
      && (v = 0 || !s.readsThrough o.part 0 sec 5 v || s.awaited (s.agentOf die sec) false sec = []))
    || (v ≠ 0 && s.abroad a && (!s.readsThrough o.part 0 sec 5 v || s.agentHas (s.agentOf die sec) false sec))

/-- Where an access of an operation stands at its home. -/
def State.homeSt (s : State) (o : Op) (write : Bool) (a : Acc) : HomeSt :=
  let sec := secOf a.pa
  let v := accView o write a
  let line := accLine o write a
  let here : HomeSt :=
    if throughL1 o.ins && a.coherent && !beadsEnough s o.frame line write && beadsTaken s o.frame line then .beads else .ready
  if s.near o write a then here
  else match s.region a.pa with
    | none => if o.asks a .lost then .lost else .noPath
    | some r =>
      if s.gonePkg r.pkg then .dead r.die
      else if o.asks a .lost then .lost
      else if o.asks a .refused then .refused
      else if !s.reachable r.pkg || (r.pkg = s.ownPkg && !s.linkFor r a.pa) then .noPath
      else if r.pkg ≠ s.ownPkg then (if o.asks a .got then .ready else .ask)
      else if r.absent a.pa then .absent
      else match s.migAt a.pa false with
        | some m => .marked m.src
        | none =>
          match if a.pageD.swm then none else s.migAt a.pa true with
          | some m => .closed m.src
          | none =>
            let base := s.readsThrough o.part 0 sec 5 v
            let l := if base then s.awaited (s.agentOf (dieOf o.frame) sec) (write && v = 0) sec else []
            if base && ((s.transOf sec).cur.isSome || s.unswept sec || !l.isEmpty) then .wait l else here

/-- The accesses that touch different sectors, one of each. -/
def perSector (l : List Acc) : List Acc :=
  l.foldl (fun m a => if m.any fun b => secOf b.pa = secOf a.pa then m else m ++ [a]) []

/-- Step `i` is to occur in clock `t`. -/
def at_ (t : Nat) (i : Instr) : Eff := on fun s => act (.timers (s.timers ++ [(t, i)]))

/-- The clock in which the requester declares a request lost that was sent at `t` (R219). -/
def State.lostAt (s : State) (t : Nat) : Nat := max (s.now + 1) (t + s.csrBits offTOUT 16 0 * 1000 + 24000)

/-- Whether a request for an access leaves the die of its operation. -/
def State.leavesDie (s : State) (o : Op) (a : Acc) : Bool :=
  (s.region a.pa).elim true fun r => !(r.pkg = s.ownPkg && r.die = dieOf o.frame)

/-- An access that waits beyond the die has a request whose loss is declared in time (R219). -/
def noteAsk (id : Nat) (a : Acc) (t : Nat) : Eff := on fun s => onSome (s.ops.find id) fun o =>
  when (s.leavesDie o a && !o.asked.any fun x => x.key = askKey o a)
    (andThen (upOp id fun o => { o with asked := o.asked ++ [⟨askKey o a, .pending, t⟩] })
      (when (!s.awaits (.requestLost id)) (at_ (s.lostAt t) (.requestLost id))))

/-- What an atomic operation asks of a home on another package. -/
def atomKind : Instr → AtomKind
  | .atom _ _ op w .. | .red _ _ op w .. => .atom op w
  | .acas _ _ w .. => .acas w
  | .xadd _ ty .. => .xadd ty
  | .xrd _ clr .. => .xrd clr
  | _ => .xrd false

/-- The bytes of a store's data (Table 14.9a). -/
def storeBytesOf (n : Nat) (l : Lanes) : List Byte := (l.flatMap fun e => leBytes 4 e.val.toNat).take n

/-- The bytes that one lane's operand occupies. -/
def operandBytes (o : Op) (a : Acc) : List Byte := storeBytesOf (accBytes o.ins) a.dat

/-- The payload that the data of a write carry. -/
def Acc.poison (a : Acc) : Option Word := (a.dat.find? Elem.poi).map Elem.val

/-- The request for an access at a home on another package, sent in clock `t` (R209, Table 9.5). -/
def requestOf (s : State) (o : Op) (write : Bool) (a : Acc) (t : Nat) : Instr :=
  let me := Agent.rdc s.ownPkg (dieOf o.frame)
  let sec := secOf a.pa
  let stamp := s.stampAt t
  if homeSide o.ins then .homeSideAtomic ⟨0, some ⟨me, atomKind o.ins, a.pa, a.dat.map fun e => (e.val, e.poi), stamp⟩⟩
  else if a.pageD.uc && write then .uncacheableWrite ⟨me, stamp⟩ a.pa (operandBytes o a) a.poison
  else if a.pageD.uc && throughL1 o.ins then .uncacheableRead ⟨me, stamp⟩ a.pa (accBytes o.ins)
  else if a.pageD.uc || a.pageD.swm then .uncacheableRead ⟨me, stamp⟩ (64 * sec) 64
  else if write && accView o write a = 0 then
    (if s.agentHas (some me) false sec then .upgrade ⟨me, stamp⟩ sec else .readForOwnership ⟨me, stamp⟩ sec)
  else .readShared ⟨me, stamp⟩ (guardedReq s o a.pageD) sec

/-- The request for an access leaves for a home on another package, once (R209, R217). -/
def ask (id : Nat) (write : Bool) (t : Nat) (a : Acc) : Eff := on fun s => onSome (s.ops.find id) fun o =>
  when (!o.asks a .pending)
    (andThen (noteAsk id a t)
      (out (.request (s.portFor (dieOf o.frame) (secOf a.pa)) ((s.region a.pa).elim 0 Region.pkg) id (requestOf s o write a t))))

/-- An operation waits for a sector at its home, once (R207). -/
def awaitOnce (line : Nat) (w : Waiting) (write : Bool) (l : List Agent) : Eff := on fun s =>
  let t := s.transOf line
  if t.cur.any (fun x => x.op = w.op) || t.queue.any (fun x => x.op = w.op) then skip else await line w write l

/-- A change between running and stopped of the clocks of an operation's requests (R248). -/
def Op.flip (o : Op) (now : Nat) : Op :=
  { o with sentAt := now - o.sentAt, asked := o.asked.map fun x => match x.st with
    | .pending => { x with st := .stopped, sent := now - x.sent }
    | .stopped => { x with st := .pending, sent := now - x.sent }
    | _ => x }

/-- The accesses of an operation that has reached its homes go on: those that a home makes wait are asked for, queued or parked there until
step `req` is taken up again, and `go` performs what is ready. -/
def atHomes (id : Nat) (o : Op) (req : Instr) (write : Bool) (go : Eff) : Eff := on fun s =>
  let me : Waiting := ⟨.rdc s.ownPkg (dieOf o.frame), req, some id⟩
  let l := (o.accs.filter fun a => !a.done).map fun a => (a, s.homeSt o write a)
  let those (p : HomeSt → Bool) := (l.filter fun q => p q.2).map Prod.fst
  match l.findSome? fun q => match q.2 with | .marked src => some src | _ => none with
  | some src =>
    seqs [upOp id fun o => { o.flip s.now with st := .parkedHome },
      upMig src false fun m => { m with parked := m.parked ++ [me] },
      each (perSector (those fun h => h = .marked src)) fun a => homeRecord a.pa o.frame o.ctx (partOf o.frame)]
  | none =>
    seqs [each l fun q => match q.2 with
        | .closed src => upMig src true fun m => if m.parked.contains me then m else { m with parked := m.parked ++ [me] }
        | .wait w => awaitOnce (secOf q.1.pa) me (write && accView o write q.1 = 0) w
        | .ask => ask id write o.sentAt q.1
        | _ => skip,
      each (those fun h => h.waits && h ≠ .beads) fun a => noteAsk id a o.sentAt,
      when (those (fun h => h = .beads) ≠ []) (after 8 req),
      go]

/-- The line of an access becomes what its frame needs (R203, R207): `write` for all beads and ownership. -/
def obtainAcc (o : Op) (write : Bool) (a : Acc) : Eff := on fun s =>
  when (throughL1 o.ins && a.coherent) (obtain o.frame (accLine o write a) (guardedReq s o a.pageD) write)

/-- A frame that lacks beads for an access is to send a transient request for them (R205), unless it has them from the die agent before:
which of the two comes first is free (log entry 92). -/
def askForBeads (o : Op) (write : Bool) (l : List Acc) : Eff :=
  each (perSector (l.filter fun a => a.page.isSome && a.coherent)) fun a => on fun s =>
    let line := accLine o write a
    when (!beadsEnough s o.frame line write && (s.breqs.find (breqKey o.frame line)).isNone)
      (later 0 128 (.transientRequest o.frame line write))

/-- Bytes put over others, from offset `ofs` on. -/
def overBytes (old : List Byte) (ofs : Nat) (b : List Byte) : List Byte := old.take ofs ++ b ++ old.drop (ofs + b.length)

/-- The accesses that a frame's own threads see before they are performed (R189), in the order of their operations. -/
def State.earlyAccs (s : State) (frame : Nat) : List (Op × Acc) :=
  (s.ops.filter fun kv => kv.2.early && kv.2.frame = frame && kv.2.pending).flatMap fun kv =>
    (kv.2.accs.filter fun a => !a.done).map fun a => (kv.2, a)

/-- The data that a view reads for a sector on a frame (R189, R198): what its home has, under the frame's own early writes. -/
def State.frameSector (s : State) (frame part view sec : Nat) : Sector :=
  ((s.earlyAccs frame).filter fun q => secOf q.2.pa = sec && q.1.part = part && s.readsThrough part (writeView q.1 q.2) sec 5 view).foldl
    (fun x q => { x with bytes := overBytes x.bytes (q.2.pa % 64) (operandBytes q.1 q.2) }) (s.sector part view sec)

/-- Bytes `[a, a + n)` of a sector as a view reads them on a frame, with their poison. -/
def State.frameBytes (s : State) (frame part view a n : Nat) : List Byte × Option Word :=
  let x := s.frameSector frame part view (secOf a)
  ((x.bytes.drop (a % 64)).take n, x.poison)

/-- The bytes that an access reads, with poison: an `SWM` page from the frame's own copy (R231), else the view's value on the frame
(R189, R198). -/
def readAcc (s : State) (o : Op) (a : Acc) (n : Nat) : List Byte × Option Word :=
  match swmCopy s o a with
  | some x => ((x.bytes.drop (a.pa % 64)).take n, x.poison)
  | none => s.frameBytes o.frame o.part o.view a.pa n

/-- The bytes that an access writes over, as they stand where it is performed. -/
def homeAcc (s : State) (o : Op) (a : Acc) (n : Nat) : List Byte × Option Word :=
  match swmCopy s o a with
  | some x => ((x.bytes.drop (a.pa % 64)).take n, x.poison)
  | none => s.readBytes o.part (writeView o a) a.pa n

/-- The elements that a load's access delivers. -/
def loadAcc (s : State) (o : Op) (w : Width) (a : Acc) : Lanes :=
  let x := readAcc s o a w.bytes
  loadElems w x.1 (List.replicate 4 x.2)

/-- Four registers that hold one payload. -/
def poisoned4 (w : Word) : Lanes := List.replicate 4 ⟨w, true⟩

/-- A payload where one is needed (R251), or 0. -/
def payloadIf (b : Bool) (o : Origin) (f : Word → Eff) : Eff := if b then origin o f else f 0#32

/-- An `SWM` sector enters the L1 of a frame; off the home die its RDC has it too (R231). -/
def putSwm (o : Op) (a : Acc) (x : Sector) : Eff := on fun s =>
  let sec := secOf a.pa
  andThen (when ((s.agentOf (dieOf o.frame) sec).isSome && (s.inRdc (dieOf o.frame) sec).isNone)
      (putRdc (dieOf o.frame) (partOf o.frame) sec { x with dirty := false }))
    (putL1 o.frame sec x)

/-- What the frame keeps of a sector that it has read or written: its L1's copy of a coherent line, its own copy of an `SWM` sector, nothing
of a `UC` page. -/
def keepSector (o : Op) (write : Bool) (a : Acc) : Eff := on fun s =>
  if a.pageD.swm then
    when (((s.l1.findD o.frame []).find (secOf a.pa)).isNone)
      (putSwm o a { (swmCopy s o a).getD (s.baseSector (secOf a.pa)) with dirty := false })
  else when a.coherent (keepLine o.frame (accLine o write a) write)

/-- The payloads of reads that find nothing: a vanished sector of host memory, a home in a dead cell, a lost request, an absent address. -/
structure Losses where
  gone   : Word
  dead   : Word
  lost   : Word
  absent : Word

/-- What the reads of a vanished, dead, lost or absent address receive (R220, R225, R228, R483); the payloads are passed on. -/
def readLosses (o : Op) (f : Losses → Eff) : Eff := on fun s =>
  let l := o.accs.filter fun a => !a.done
  let at_ (p : Acc → Bool) := ((l.find? p).map Acc.pa).getD 0
  let gone (a : Acc) := s.hostGone a.pa
  let dead (a : Acc) := match s.homeSt o false a with | .dead _ => true | _ => false
  let lost (a : Acc) := s.homeSt o false a = .lost
  let absent (a : Acc) := s.homeSt o false a = .absent
  let die := l.foldl (fun d a => match s.homeSt o false a with | .dead k => k | _ => d) 0
  let va := ((l.find? lost).map Acc.adr).getD 0
  payloadIf (l.any gone) ⟨.hostgone, svcTab (dieOf o.frame), 5, at_ gone, 0#57, 0, o.view, 0⟩ fun w1 =>
    payloadIf (l.any dead) ⟨.peerlost, svcTab die, 3, at_ dead, 0#57, 0, o.view, 0⟩ fun w2 =>
      payloadIf (l.any lost) ⟨.timeout, o.frame, 0, va % 2 ^ 57, o.pc, o.fdom, o.view, gslotOf o.gid⟩ fun w3 =>
        payloadIf (l.any absent) ⟨.data, svcTab 4, 2, at_ absent, 0#57, 0, o.view, 0⟩ fun w4 => f ⟨w1, w2, w3, w4⟩

/-- The elements of an access whose read finds nothing, else those that `ok` gives. -/
def lossOr (s : State) (o : Op) (w : Losses) (a : Acc) (ok : Lanes) : Lanes :=
  if a.done then a.res
  else match s.homeSt o false a with
    | .lost => poisoned4 w.lost
    | .dead _ => poisoned4 w.dead
    | .absent => poisoned4 w.absent
    | _ => if s.hostGone a.pa then poisoned4 w.gone else ok

/-- Register `k` of what accesses deliver, lane by lane. -/
def regOf (l : List Acc) (k : Nat) : Lanes :=
  tab32 fun L => ((l.find? fun a => a.lane = L).bind fun a => a.res[k]?).getD (clean 0#32)

/-- An operation has been performed and leaves the outstanding-request entries; operations that it held back go on. -/
def opEnds (id : Nat) : Eff := seqs [strike id, strikeReturn id, act (.op id none)]

/-- Whether the accesses of one operation cover a sector with clean data (R254). -/
def coversSector (l : List Acc) (n sec : Nat) : Bool :=
  (List.range 64).all fun k => l.any fun a => a.pa ≤ 64 * sec + k && 64 * sec + k < a.pa + n

/-- One access of a store, atomic or reduction writes `b` at its home, in its view; a store to an `SWM` page writes the frame's
own copy (R231). -/
def writeAcc (o : Op) (a : Acc) (b : List Byte) (full : Bool) : Eff := on fun s =>
  let sec := secOf a.pa
  let ofs := a.pa % 64
  let p := a.poison
  if a.pageD.swm then freely fun n =>
    let x := (swmCopy s o a).getD (s.baseSector sec)
    putSwm o a { x with bytes := bytesAfter x.bytes x.poison ofs b full p n, poison := poisonAfter x.poison full p, dirty := true }
  else writeSectorBy (s.nodeOf o) o.part (writeView o a) sec ofs b full p

/-- Whether the home permits a write request of this package (R213, R214): a request that does not leave the die of its home is
not looked up, nor a write to an `SWM` page, which stays in the frame; a die that owns the sector makes no request. -/
def writePermitted (s : State) (o : Op) (homeSide : Bool) (a : Acc) : Bool :=
  (a.pageD.swm && !homeSide)
    || (!homeSide && !a.pageD.uc && (s.region a.pa).elim false fun r => r.pkg = s.ownPkg && r.die = dieOf o.frame)
    || (!homeSide && a.coherent && s.agentHas (s.agentOf (dieOf o.frame) (accLine o true a)) true (accLine o true a))
    || s.fwOk a.pa (s.cellOf s.ownPkg)

/-- The first write after a release fence at GRP or TEAM scope, and a release at such a scope, mark their sectors (R191). -/
def markSectors (o : Op) (l : List Acc) : Eff := on fun s =>
  let narrow := releases o.ins && (match o.ins with
    | .st _ _ _ _ _ mc | .atom _ _ _ _ _ _ _ mc | .acas _ _ _ _ _ _ mc | .red _ _ _ _ _ _ mc | .xadd _ _ _ _ mc
    | .xrd _ _ _ _ mc => mc.scope = .grp || mc.scope = .team
    | _ => false)
  when (narrow || o.seg = 1)
    (act (.marks o.frame (some ((s.marks.findD o.frame []) ++ ((perSector (l.filter fun a => !a.pageD.swm)).map fun a => secOf a.pa)).eraseDups)))

/-- An early write of a frame is performed wherever its homes take and permit it now (R189, R191): its lanes in increasing order. -/
def performReady (id : Nat) (o : Op) (p : Acc → Bool) : Eff := on fun s =>
  let ok := o.accs.filter fun a => !a.done && p a && s.homeSt o true a = .ready && writePermitted s o false a
  seqs [each (perSector ok) (obtainAcc o true),
    each ok fun a => writeAcc o a (operandBytes o a) (coversSector ok (accBytes o.ins) (secOf a.pa)),
    each (perSector ok) (keepSector o true), markSectors o ok,
    upOp id fun x => { x with accs := x.accs.map fun a => if ok.contains a then { a with done := true } else a }]

/-- A write of a frame follows the frame's early writes of its sector: they are performed before it (R184). -/
def earlyFirst (o : Op) (a : Acc) : Eff := on fun s =>
  each (s.ops.filter fun kv => kv.2.early && kv.2.frame = o.frame && kv.2.pending) fun kv =>
    when (kv.2.accs.any fun b => !b.done && secOf b.pa = secOf a.pa)
      (performReady kv.1 kv.2 fun b => secOf b.pa = secOf a.pa)

/-- The operation takes the group's pending fence mark at its issue (R191). -/
def takeMark (gid id : Nat) : Eff := on fun s =>
  when ((s.groups.find gid).elim false Group.markNext)
    (andThen (upGroup gid fun g => { g with markNext := false }) (upOp id fun o => { o with seg := 1 }))

/-- A store that its home has refused or that no home performed becomes a lost store, with the cause of its lowest lane (R214,
R221, R225, R483); accesses already performed stay. -/
def loseRest (id : Nat) (o : Op) (l : List Acc) : Eff := on fun s =>
  let cause := match l with
    | a :: _ => match s.homeSt o true a with
      | .dead _ => 8
      | .lost => 4
      | _ => 5
    | [] => 4
  loseStore id cause o l

/-- The accesses of an operation with whether each writes: those of its lanes and of the sectors that an engine has still to deliver. -/
def Op.reqs (o : Op) : List (Acc × Bool) :=
  (o.accs.filter fun a => !a.done).map (fun a => (a, writesGen o.ins))
    ++ o.parts.flatMap fun p => p.reads.map (fun a => (a, false)) ++ p.write.toList.map fun a => (a, true)

/-- Data of a home on another package become the value that this package has of an address (R209). -/
def landAt (pa : Nat) (d : SectorData) : Eff := on fun s =>
  let x := s.baseSector (secOf pa)
  when ((x.bytes.drop (pa % 64)).take d.bytes.length ≠ d.bytes || x.poison ≠ d.poison)
    (andThen (act (.bad (secOf pa) none)) (writeBytes 0 0 pa d.bytes d.poison))

/-- How a request of an operation stands from now on. -/
def setAsk (id key : Nat) (st : AskSt) : Eff := upOp id fun o =>
  { o with asked := o.asked.map fun x => if x.key = key then { x with st := st } else x }

/-- A home on another package has answered (R209, R214, R216, R219): a sector comes with its die's right to it; a refusal leaves what the die
held. What comes after the request was declared lost is discarded. `again` looks at the operation anew. -/
def takeRsp (id : Nat) (r : Rsp) (again : Eff) : Eff := on fun s =>
  onSome (s.ops.find id) fun o => onSome (o.reqs.find? fun q => askKey o q.1 = r.key && o.asks q.1 .pending) fun q =>
    let die := dieOf o.frame
    let me := Agent.rdc s.ownPkg die
    let sec := secOf q.1.pa
    let had := (s.dirOf sec).holders
    let state : Eff := match r.kind with
      | .shared => setDir sec .s (if had.contains me then had else had ++ [me])
      | .exclusive => setDir sec .e [me]
      | _ => setDir sec .m [me]
    let land (k : Eff) : Eff := match r.data with
      | some d => arrives die sec d fun d => andThen (landAt (if d.bytes.length = 64 then 64 * sec else q.1.pa) d) k
      | none => k
    if r.kind = .refused then andThen (setAsk id r.key .refused) again
    else if r.key < 2 ^ 60 && q.1.coherent then
      land (seqs [state, act (.seen (backKey die sec) none),
        upOp id fun o => { o with asked := o.asked.filter fun x => x.key ≠ r.key }, again])
    else land (andThen (setAsk id r.key .got) again)

/-- The requests of an operation that have had no answer by their stamps + 24 µs are lost (R219), but for those that a MARK has stopped (R248)
and those that have been performed; `again` looks at the operation anew, and the loss of the others is declared in their time. -/
def declareLost (id : Nat) (again : Eff) : Eff := on fun s => onSome (s.ops.find id) fun o =>
  let due (x : Ask) : Bool := x.st = .pending && x.sent + s.csrBits offTOUT 16 0 * 1000 + 24000 ≤ s.now
  let waits (k : Nat) : Bool := o.reqs.any fun q => askKey o q.1 = k && (match s.homeSt o q.2 q.1 with
    | .noPath | .ask | .closed _ | .wait _ => true
    | _ => false)
  let gone := (o.asked.filter fun x => due x && waits x.key).map Ask.key
  seqs [upOp id fun o => { o with asked := o.asked.map fun x => if gone.contains x.key then { x with st := .lost } else x },
    when (gone ≠ []) again,
    match (o.asked.filter fun x => x.st = .pending && !due x).map Ask.sent with
    | [] => skip
    | t :: l => at_ (s.lostAt (l.foldl min t)) (.requestLost id)]

/-- The fork slot that a handle names on a frame (R262, R364), when the handle is not stale. -/
def State.forkAt (s : State) (frame : Nat) (h : Word) : Option Nat :=
  let k := 64 * partOf frame + (h.extractLsb' 0 6).toNat
  match s.forks.find k with
  | some f => if f.live && f.gen = h.extractLsb' 10 22 then some k else none
  | none => none

/-- Rivals of the fork that a handle names (`NM1` + 1). -/
def forkCount (h : Word) : Nat := (h.extractLsb' 6 4).toNat + 1

end Sys2Proof.Machine
end

