-- ==== Sys2Proof/Machine/LoadStore.lean ====
section
/-!
DEFINITION. LoadStore.lean: `LD`, `ST`, `LDC` and the steps that end them (R186, R191, R197, R219 to R221, R235, R236, R292,
R411 to R415, R455, R456).
-/
namespace Sys2Proof.Machine

/-- Best and worst clocks of one access of a load in a view (Table 17.3): from the L1, the RDC, or the home, with bonded DRAM behind it where
the home's L2 does not hold the line. -/
def servedPair (s : State) (frame part view : Nat) (a : Acc) : Nat × Nat :=
  let line := if a.pageD.swm then secOf a.pa else lineTag part view (secOf a.pa)
  if !a.pageD.uc && ((s.l1.findD frame []).find line).isSome then (48, 72)
  else if !a.pageD.uc && (s.inRdc (dieOf frame) line).isSome then (320, 560)
  else
    let p := pairFor s frame [a] (200, 420) (440, 800)
    match s.region a.pa with
    | some r => if r.pkg = s.ownPkg && r.die < 4 && ((s.l2.findD (16 * r.die + partOf frame) []).find line).isNone then (p.1 + 120, p.2 + 300) else p
    | none => p

/-- Best and worst clocks of a load: those of its slowest access. -/
def loadPair (s : State) (frame part view : Nat) (l : List Acc) : Nat × Nat :=
  l.foldl (fun m a => let p := servedPair s frame part view a; (max m.1 p.1, max m.2 p.2)) (48, 72)

/-- What `.RMT` adds to an acquire (R191). -/
def remotePair (s : State) (i : Instr) (l : List Acc) : Nat × Nat :=
  if ordOf i = .acqRmt then
    if s.marks.any fun kv => l.any fun a => kv.2.contains (secOf a.pa) then (40, 300) else (0, 40)
  else (0, 0)

/-- An access that is done before it begins: its lane receives one payload. -/
def doneAcc (L : Nat) (w : Word) : Acc := ⟨L, 0, none, [], true, poisoned4 w⟩

/-- A lane's access with a lane guard's payload, if there is one (R253). -/
def accOf (c : Iss) (L a : Nat) (p : Option Page) : Acc :=
  ⟨L, a, p, match c.gpoi.getD L none with | some w => [⟨w, true⟩] | none => [], false, []⟩

/-- The records of the failing pages of a load, and the accesses of their lanes, done with the payload (R236). A uniform load
acts once, so its failing page fails every Active, guard-true lane. -/
def failing (c : Iss) (u : Bool) (l : List Failed) (k : List Acc → List Withheld → Eff) : Eff :=
  loadFaults c.gid c.g c.pc (if u then l.map fun f => { f with m := c.on } else l) [] fun fs =>
    andThen (when (fs ≠ []) (upGroup c.gid fun g => { g with past := [] }))
      (k (fs.flatMap fun f => (Mask.lanes f.1).map fun L => doneAcc L f.2.1) (fs.map fun f => ⟨f.2.2, 0, 0, false, false⟩))

/-- A continuation waits for the operation that it has sent. -/
def contWaits (c : Iss) (id : Nat) : Eff := when c.g.cont.isSome (upGroup c.gid fun g => { g with hold := .op id })

/-- A load of global memory at issue (R234 to R236, R412): its failing pages, then the accesses of the other lanes; `pre` gives
the elements that a lane needs no access for, and `pair` the published clocks. -/
def globalLoad (c : Iss) (s : State) (i : Instr) (d : Dst) (l : List (Nat × Nat)) (bad : List (Nat × Word))
    (pre : Page → Nat → Option Lanes) (pair : List Acc → Nat × Nat) (after : List Acc → List Nat) : Res :=
  let ctx := s.ctxOf c.g
  let fs := failedOf s c.g.frame ctx .read l
  if fs ≠ [] && c.g.cont.isSome then .back
  else .done <|
    seqs [fillFor c.g.frame ctx l,
      failing c d.uniform fs fun ps hs =>
        let ok := l.filterMap fun p => (pageFor s c p.2).map fun g =>
          let a := accOf c p.1 p.2 (some g)
          match pre g p.2 with
          | some x => { a with done := true, res := guardOver a x }
          | none => a
        let ok := ok.filter fun a => !ps.any fun b => b.lane = a.lane
        let accs := ok ++ ps ++ bad.map fun p => doneAcc p.1 p.2
        let x := extraDelay s c.g.frame ctx l
        let b := pair ok
        let l := after ok
        newOp c i (if l = [] then .sent else .waiting) accs [] l fun id =>
          seqs [upOp id fun o => { o with held := hs, pair := (b.1 + x.1, b.2 + x.2) }, contWaits c id,
            when (l = [] && match i with | .ld .. => true | _ => false) (on fun s => onSome (s.ops.find id) fun o => askForBeads o o.takesAll ok),
            when (l = []) (later (b.1 + x.1 - 7) (b.2 + x.2 - 7) (.loadReturn id))]]

/-- `LD` (R411 to R413). -/
def execLd (h : Head) (ls : Bool) (w : Width) (d : Dst) (a : Src) (mc : Mc) (s : State) : Host.Outcome State Fault Refusal :=
  let i : Instr := .ld h ls w d a mc
  issue i s fun c s =>
    let lanes := accLanes c d
    let l := addrs c ls a mc.ofs w.bytes lanes
    let bad := badAddrs c ls a mc.ofs w.bytes lanes
    aligned c ls w.bytes l <|
      if ls then
        .done <|
          let accs := (l.map fun p => accOf c p.1 p.2 none) ++ bad.map fun p => doneAcc p.1 p.2
          match localBefore s c i with
          | [] => newOp c i .performed (accs.map (c.tm.lsLoad w)) [] [] fun id =>
            andThen (contWaits c id) (later 17 33 (.loadReturn id))
          | b => newOp c i .waiting accs [] b (contWaits c)
      else
        globalLoad c s i d l bad (fun _ _ => none)
          (fun ok => let p := loadPair s c.g.frame (s.lead (s.ctxOf c.g)) c.g.csr.vid ok; let r := remotePair s i ok; (p.1 + r.1, p.2 + r.2))
          (orderedBefore s c i)

/-- Key of a constant-cache line (R414): 64-byte line, context, view. -/
def lineKey (part ctx view va : Nat) : Nat := (va / 64 * 65536 + ctx) * 4096 + part % 16 * 256 + view

/-- `LDC` (R414, R415): a lane whose line is cached takes the line's value. -/
def execLdc (h : Head) (w : Width) (d : Dst) (a : Src) (mc : Mc) (s : State) : Host.Outcome State Fault Refusal :=
  let i : Instr := .ldc h w d a mc
  issue i s fun c s =>
    let lanes := accLanes c d
    let l := addrs c false a mc.ofs w.bytes lanes
    let ctx := s.ctxOf c.g
    let lines := s.ccache.findD c.g.frame []
    aligned c false w.bytes l <|
      globalLoad c s i d l (badAddrs c false a mc.ofs w.bytes lanes)
        (fun p va =>
          if p.uc then none
          else (lines.find (lineKey (s.lead ctx) ctx c.g.csr.vid va)).map fun x =>
            loadElems w ((x.bytes.drop (va % 64)).take w.bytes) (List.replicate 4 x.poison))
        (fun ok =>
          if ok.all Acc.done then (20, 36)
          else let p := loadPair s c.g.frame (s.lead ctx) c.g.csr.vid (ok.filter fun a => !a.done); (p.1 + 8, p.2 + 16))
        (fun _ => [])

/-- The line that a constant-cache miss fills (R414); a `UC` page's is never filled. -/
def fillLine (o : Op) (a : Acc) : Eff := on fun s =>
  when (!a.pageD.uc)
    (let x := s.frameSector o.frame o.part o.view (secOf a.pa)
    act (.ccache o.frame (some ((s.ccache.findD o.frame []).put (lineKey o.part o.ctx o.view a.adr) x))))

/-- The width of a load. -/
def loadWidth : Instr → Width
  | .ld _ _ w .. | .ldc _ w .. => w
  | _ => .w32

/-- The accesses of a load that its homes perform now. -/
def readyReads (s : State) (o : Op) : List Acc :=
  o.accs.filter fun a => !a.done && s.homeSt o o.takesAll a = .ready && !s.hostGone a.pa

/-- The accesses of a load with those of `ok` performed. -/
def readNow (s : State) (o : Op) (ok : List Acc) : List Acc :=
  o.accs.map fun a => if ok.contains a then { a with done := true, res := guardOver a (loadAcc s o (loadWidth o.ins) a) } else a

/-- What the frame keeps of the sectors that a load has read. -/
def keepRead (o : Op) (l : List Acc) : Eff :=
  match o.ins with
  | .ldc .. => each l (fillLine o)
  | _ => each (perSector l) (keepSector o o.takesAll)

/-- A load whose accesses are all performed or come to nothing returns its result (R197, R412, R413): what found nothing gives its poison,
the threads on failing pages hold their faults from then on (R241). -/
def finishLoad (id : Nat) (o : Op) : Eff :=
  readLosses o fun w => on fun s =>
    let accs := o.accs.map fun a => { a with res := if a.done then a.res else guardOver a (lossOr s o w a []) }
    let holds := o.held.filterMap fun h => (s.recs.find h.fr).map fun r => PendKind.hold r.lmask ⟨h.fr, o.pc, o.seq, r.payload⟩
    andThen (returnResult id o o.mask (regOf accs) holds) (opEnds id)

/-- The accesses of a load that are ready are performed; once none waits any more, the load returns. -/
def performLoad (id : Nat) (o : Op) : Eff := on fun s =>
  let ok := readyReads s o
  let rest := o.accs.any fun a => !a.done && (s.homeSt o o.takesAll a).waits
  andThen (each (perSector ok) (obtainAcc o o.takesAll)) (on fun s =>
    let x := { o with accs := readNow s o ok }
    seqs [upOp id fun o => { o with accs := x.accs }, keepRead x ok, when (!rest) (finishLoad id x)])

/-- An `LDV` through a handle that has become stale reads nothing any more: the lanes not yet read take VIEWGONE poison, with one
origin entry for the instruction (R265, R419). -/
def viewGone (id : Nat) (o : Op) (k : Op → Eff) : Eff := on fun s =>
  match o.ins, o.vals with
  | .ldv .., h :: _ =>
    if (s.forkAt o.frame h.val).isSome || o.accs.all Acc.done then k o
    else
      let va := ((o.accs.find? fun a => !a.done).elim 0 Acc.adr) % 2 ^ 57
      origin ⟨.viewgone, o.frame, 7, va, o.pc, o.fdom, o.view, gslotOf o.gid⟩ fun w =>
        let x := { o with accs := o.accs.map fun a => if a.done then a else { a with done := true, res := guardOver a (poisoned4 w) } }
        andThen (act (.op id (some x))) (k x)
  | _, _ => k o

/-- An acquire with `.RMT` and what must have been performed before it reads (R191): the early writes of the frames of the package that
mark one of its sectors, whose marks then clear; `req` looks again where a home does not take one of them yet. -/
def remoteFirst (o : Op) (req : Instr) (k : Eff) : Eff := on fun s =>
  if ordOf o.ins ≠ .acqRmt then k
  else
    let secs := (o.accs.filter fun a => !a.done).map fun a => secOf a.pa
    let frames := (s.marks.filter fun kv => kv.2.any secs.contains).map Prod.fst
    let l := s.ops.filter fun kv => kv.2.early && kv.2.pending && frames.contains kv.2.frame
    andThen (each l fun kv => performReady kv.1 kv.2 fun _ => true) (on fun s =>
      if l.any fun kv => (s.ops.find kv.1).elim false fun o => o.accs.any fun a => !a.done then after 16 req
      else andThen (each frames fun f => upMarks f fun m => m.filter fun x => !secs.contains x) k)

/-- `LOAD_RETURN` (R73, R185, R207, R413): a load waits at its homes where they make it wait; one of the local store that waited for
earlier accesses reads its words now. -/
def execLoadReturn (id : Nat) (s : State) : Host.Outcome State Fault Refusal :=
  fire s <|
    match s.ops.find id with
    | none => skip
    | some o =>
      match o.st with
      | .performed => andThen (returnResult id o o.mask (regOf o.accs) []) (opEnds id)
      | .sent => viewGone id o fun o => remoteFirst o (.loadReturn id)
          (atHomes id o (.loadReturn id) o.takesAll (performLoad id o))
      | .waiting => when (genLocal o.ins && o.after = [])
          (seqs [onSome (s.teams.find o.team) fun t =>
              upOp id fun o => { o with st := .performed, accs := o.accs.map (t.lsLoad (loadWidth o.ins)) },
            strike id, later 17 33 (.loadReturn id)])
      | _ => skip

/-- `ST` (R455, R456). A local-store write is performed at issue, in the order of issue (R185); a global one is sent at the end of
its hold. -/
def execSt (h : Head) (ls : Bool) (w : Width) (a b : Src) (mc : Mc) (s : State) : Host.Outcome State Fault Refusal :=
  let i : Instr := .st h ls w a b mc
  issue i s fun c s =>
    consuming c s i [1, 2] true <|
      let l := addrs c ls a mc.ofs w.bytes c.on.lanes
      let dat := fun L => (List.range w.regs).map fun k => lane (c.srcK 2 b k) L
      aligned c ls w.bytes l <|
        if ls then
          .done <| match localBefore s c i with
            | [] => andThen (each l fun p => lsPut c.g.team p.2 (storeBytesOf w.bytes (dat p.1)) none)
              (enterBuffer c i (l.map fun p => ⟨p.1, p.2, none, dat p.1, true, []⟩) [] [] fun _ => skip)
            | b => enterBuffer c i (l.map fun p => ⟨p.1, p.2, none, dat p.1, false, []⟩) [] b fun _ => skip
        else
          globalWrite c s 1 .write l dat fun accs => on fun s =>
            enterBuffer c i accs [] (orderedBefore s c i accs) fun id => takeMark c.gid id

/-- Clocks from the sending of a store to its performance (Table 18.3, less the hold of 48). -/
def storePair (s : State) (o : Op) : Nat × Nat :=
  let own (a : Acc) := a.pageD.swm ||
    (a.coherent && beadsEnough s o.frame (accLine o true a) true)
  if o.accs.all own then (8, 36) else pairFor s o.frame o.accs (212, 472) (332, 652)

/-- The digest and the ESCAPED bits of a write that is sent (R260, R269, R306). -/
def sentWrites (o : Op) (kind : Nat) (l : Acc → List Byte) : Eff :=
  each o.accs fun a => andThen (noteEscape o a.adr (l a).length a.pageD) (countDigest o a.adr kind (l a) none)

/-- A store is performed at its homes, lane by lane in increasing order (R183, R197, R207, R213, R214, R219, R254); once no lane waits any
more, those that no home permits or performs leave a lost store. -/
def grantStore (id : Nat) (o : Op) : Eff := on fun s =>
  let n := accBytes o.ins
  let ready := o.accs.filter fun a => !a.done && s.homeSt o true a = .ready
  let ok := ready.filter (writePermitted s o false)
  let rest := o.accs.filter fun a => !a.done && !ok.contains a
  seqs [each (perSector ok) (obtainAcc o true),
    when (!o.early) (each ok (earlyFirst o)),
    each ok fun a => writeAcc o a (operandBytes o a) (coversSector ok n (secOf a.pa)),
    each (perSector ok) (keepSector o true), markSectors o ok,
    if rest = [] then opEnds id
    else if rest.any fun a => (s.homeSt o true a).waits then upOp id fun x => { x with accs := rest }
    else loseRest id { o with accs := rest } rest]

/-- A store to the local store that has waited for earlier accesses is performed (R185, R186); it leaves the store buffer at the end of
its hold. -/
def placeStore (id : Nat) (o : Op) : Eff :=
  seqs [each (o.accs.filter fun a => !a.done) fun a => lsPut o.team a.adr (operandBytes o a) none,
    upOp id fun o => { o with accs := o.accs.map fun a => { a with done := true } }, strike id,
    when (o.st = .waiting) (andThen (leaveBuffer id) (opEnds id))]

/-- The step that looks at an operation anew. -/
def Op.stepOf (o : Op) (id : Nat) : Option Instr :=
  if !isEngine o.ins then opStep id o.ins
  else if o.dest = 2 ^ 30 then some (.grant ⟨id, none⟩) else some (.engineDelivery id (o.seg - 1))

/-- An engine's write to a home that has still to answer (R214, R221): it has been performed, or becomes a lost store. -/
def lostPiece (id : Nat) (o : Op) : Eff := on fun s =>
  let l := o.accs.filter fun a => s.homeSt o true a ≠ .ready
  when (o.dest = 2 ^ 30 && o.st = .sent)
    (if l = [] then opEnds id else when (!l.any fun a => (s.homeSt o true a).waits) (loseRest id o l))

/-- `GRANT`: a store at its homes, the end of one to the local store or of an `STWE`, or the reply of a home on another package (R209) to what
the operation asked for. -/
def execGrant (x : Answered) (s : State) : Host.Outcome State Fault Refusal :=
  let id := x.id
  fire s <|
    match s.ops.find id with
    | none => skip
    | some o =>
      match x.rsp with
      | some r => takeRsp id r (onSome (o.stepOf id) soon)
      | none =>
        if isEngine o.ins then lostPiece id o
        else if genLocal o.ins then
          match o.ins with
          | .stwe .. => when (o.st = .performed) (opEnds id)
          | _ => when (o.unplaced && o.after = []) (placeStore id o)
        else if o.st ≠ .sent then skip else atHomes id o (.grant ⟨id, none⟩) true (grantStore id o)

end Sys2Proof.Machine
end

