-- ==== Sys2Proof/Machine/Atomic.lean ====
section
/-!
DEFINITION. Atomic.lean: `ATOM`, `ACAS`, `RED`, `XADD`, `XRD` and the steps that perform and end them (R123 to R128, R183, R192,
R221, R341 to R343, R347, R348, R441, R442, R471, R472).
-/
namespace Sys2Proof.Machine

/-- `AtomOp` of R348 on `bits`-bit values: the stored value (R127, R128 for the floating-point operations). -/
def atomOp (op : Aop) (bits old b : Nat) : Nat :=
  let x := BitVec.ofNat bits old
  let y := BitVec.ofNat bits b
  match op with
  | .add => (x + y).toNat
  | .and => (x &&& y).toNat
  | .or => (x ||| y).toNat
  | .xor => (x ^^^ y).toNat
  | .min => if x.toInt ≤ y.toInt then x.toNat else y.toNat
  | .max => if y.toInt ≤ x.toInt then x.toNat else y.toNat
  | .umin => min x.toNat y.toNat
  | .umax => max x.toNat y.toNat
  | .exch => y.toNat
  | .fadd => (fused f32 .rn false false [] [some (f32.num x.toNat), some (f32.num y.toNat)]).1
  | .fmin => f32.pick true x.toNat y.toNat
  | .fmax => f32.pick false x.toNat y.toNat

/-- The format of an `XADD` addend. -/
def fmtOf : XTy → Fmt
  | .f32 => f32
  | .f16 => f16
  | .bf16 => bf16

/-- A reckoning cell, as its 512 bits, with bit `n` set. -/
def cellSet (cell n : Nat) : Nat := if cell.testBit n then cell else cell + 2 ^ n

/-- `VAL` of a cell as a signed number. -/
def cellVal (cell : Nat) : Int := (BitVec.ofNat 496 cell).toInt

/-- `XADD` of one addend to a cell (R124). -/
def cellAdd (f : Fmt) (cell : Nat) (e : Elem) : Nat :=
  if e.poi then cellSet cell 499
  else match f.num (e.val.toNat % 2 ^ f.width) with
    | .nan _ => cellSet cell 496
    | .inf neg => cellSet cell (if neg then 498 else 497)
    | .fin neg m x =>
      let sum := cellVal cell + (Num.fin neg m x).at (-149)
      let c := cell / 2 ^ 496 * 2 ^ 496 + (sum.emod (2 ^ 496)).toNat
      if sum < -(2 ^ 495) || 2 ^ 495 ≤ sum then cellSet c 500 else c

/-- The F32 value of a cell whose sector and `POIS` are clean (R125). -/
def cellF32 (cell : Nat) : Nat :=
  if cell.testBit 496 || (cell.testBit 497 && cell.testBit 498) || cell.testBit 500 then 0x7FC00000
  else if cell.testBit 497 then 0x7F800000
  else if cell.testBit 498 then 0xFF800000
  else
    let v := cellVal cell
    (f32.round .rn false false (v < 0) v.natAbs (-149)).1

/-- Bytes of an atomic operation's location. -/
def atomBytes : AtomKind → Nat
  | .atom _ w | .acas w => if w then 8 else 4
  | .xadd _ | .xrd _ => 64

/-- The bytes that an atomic operation writes over `old`, if it writes (R124, R125, R342, R348); a poisoned location is written by
`XADD` and `XRD.CLR` alone. -/
def rmw (i : AtomKind) (dat : Lanes) (old : List Byte) (poi : Option Word) : Option (List Byte) :=
  let n := atomBytes i
  let x := leNat old
  let v (k : Nat) := leNat (storeBytesOf n (dat.drop k))
  match i with
  | .atom op _ => if poi.isSome then none else some (leBytes n (atomOp op (8 * n) x (v 0)))
  | .acas _ => if poi.isNone && x = v 0 then some (leBytes n (v (n / 4))) else none
  | .xadd ty => some (leBytes 64 (cellAdd (fmtOf ty) x (dat.getD 0 (clean 0#32))))
  | .xrd clr => if clr then some (leBytes 64 0) else none

/-- Whether an atomic operation is a write request (R472). -/
def writesHome : Instr → Bool
  | .xrd _ clr .. => clr
  | _ => true

/-- The KIND of an operation in the digest (R306). -/
def digestKind : Instr → Nat
  | .atom .. => 2
  | .acas .. => 3
  | .red .. => 5
  | .xadd .. => 6
  | .xrd .. => 7
  | _ => 0

/-- The value that an atomic operation returns to one lane: the old value with its poison; for `XRD` the cell's value, with a new
origin when `POIS` is set (R125, R252). -/
def oldValue (s : State) (o : Op) (a : Acc) (old : List Byte) (poi : Option Word) (f : Lanes → Eff) : Eff :=
  match o.ins with
  | .xrd .. =>
    let die := (s.homeOf (secOf a.pa)).elim 0 Region.die
    if poi.isSome then f (poisoned4 (poi.getD 0#32))
    else if (leNat old).testBit 499 then origin ⟨.data, svcTab die, 2, a.pa, 0#57, 0, o.view, 0⟩ fun w => f (poisoned4 w)
    else f [clean (BitVec.ofNat 32 (cellF32 (leNat old)))]
  | i => f (loadElems (if accBytes i = 8 then .w64 else .w32) old (List.replicate 4 poi))

/-- The home takes a line for an operation of its own (R203, R207). -/
def homeTakes (line : Nat) (write : Bool) : Eff := on fun s =>
  match s.homeOf line with
  | none => skip
  | some r =>
    when (r.pkg = s.ownPkg && !r.host)
      (if write then andThen (grantWrite none line) (when (r.die < 4) (yieldDie r.die line)) else grantRead none false line)

/-- One lane of an atomic operation at its home, as one operation (R183, R192); its result is passed on. -/
def atomicAt (o : Op) (a : Acc) (f : Lanes → Eff) : Eff := andThen (earlyFirst o a) <| on fun s =>
  let n := accBytes o.ins
  let x := s.readBytes o.part o.view a.pa n
  oldValue s o a x.1 x.2 fun r =>
    seqs [when a.coherent (homeTakes (accLine o (writesHome o.ins) a) (writesHome o.ins)),
      touchL2 (partOf o.frame) (accLine o (writesHome o.ins) a),
      match rmw (atomKind o.ins) a.dat x.1 x.2 with
      | some b => writeSectorBy (s.nodeOf o) o.part (writeView o a) (secOf a.pa) (a.pa % 64) b (match o.ins with | .xrd .. => true | _ => false) none
      | none => skip,
      f (guardOver a r)]

/-- The lanes of an atomic operation that their homes perform and permit, in increasing order; `k` receives every access. -/
def atomicLanes (o : Op) : List Acc → List Acc → (List Acc → Eff) → Eff
  | [], l, k => k l
  | a :: rest, l, k => on fun s =>
    if !a.done && s.homeSt o true a = .ready && !s.hostGone a.pa && (!writesHome o.ins || writePermitted s o true a) then
      atomicAt o a fun r => atomicLanes o rest (l ++ [{ a with done := true, res := r }]) k
    else atomicLanes o rest (l ++ [a]) k

/-- Clocks from the home to the end of an atomic operation (Table 15.2). -/
def endPair (s : State) (o : Op) : Nat × Nat := pairFor s o.frame o.accs (105, 235) (165, 325)

/-- The step that ends an atomic operation. -/
def endStep (o : Op) (id : Nat) : Instr :=
  match o.ins with
  | .red .. | .xadd .. => .redAck id
  | _ => .atomicReturn id

/-- An atomic operation whose lanes have all been performed or lost: lost ones leave a lost store of their own, and give poison to
the destination (R214, R221, R225). -/
def atomicDone (id : Nat) (o : Op) : Eff := on fun s =>
  let rest := o.accs.filter fun a => !a.done
  let e := endPair s o
  let dead (a : Acc) := match s.homeSt o true a with | .dead _ => true | _ => false
  let absent (a : Acc) := !writesHome o.ins && s.homeSt o true a = .absent
  let die := rest.foldl (fun d a => match s.homeSt o true a with | .dead k => k | _ => d) 0
  payloadIf (rest.any fun a => s.hostGone a.pa) ⟨.hostgone, svcTab (dieOf o.frame), 5, 0, 0#57, 0, o.view, 0⟩ fun w1 =>
  payloadIf (rest.any dead) ⟨.peerlost, svcTab die, 3, 0, 0#57, 0, o.view, 0⟩ fun w2 =>
  payloadIf (rest.any absent) ⟨.data, svcTab 4, 2, ((rest.find? absent).elim 0 Acc.pa), 0#57, 0, o.view, 0⟩ fun w4 =>
  payloadIf (rest.any fun a => !dead a && !absent a && !s.hostGone a.pa)
      ⟨.timeout, o.frame, 0, ((rest.head?).elim 0 Acc.adr) % 2 ^ 57, o.pc, o.fdom, o.view, gslotOf o.gid⟩ fun w3 =>
    let res (a : Acc) := if s.hostGone a.pa then w1 else if dead a then w2 else if absent a then w4 else w3
    let lost := rest.filter fun a => !s.hostGone a.pa
    seqs [upOp id fun x => { x with st := .performed,
                                    accs := o.accs.map fun a => if a.done then a else { a with res := poisoned4 (res a) } },
      if writesHome o.ins && lost ≠ [] then fresh fun k =>
        seqs [act (.op k (some { o with accs := lost, dest := 2 ^ 30 })), loseRest k o lost, waitInstead id k]
      else strike id,
      later e.1 e.2 (endStep o id)]

/-- The lanes of a local-store atomic, performed at issue in increasing order (R157, R342, R348). -/
def localAtomics (i : Instr) (tk : Nat) : List (Nat × Nat × Lanes) → List Acc → (List Acc → Eff) → Eff
  | [], l, k => k l
  | (L, a, dat) :: rest, l, k => on fun s =>
    match s.teams.find tk with
    | none => skip
    | some t =>
      let n := accBytes i
      let x := t.lsRead a n
      let r := (List.range (n / 4)).map fun j =>
        let w := t.word (a / 4 + j)
        (⟨w.val, w.poi⟩ : Elem)
      andThen (match rmw (atomKind i) dat x.1 x.2 with
        | some b => lsPut tk a b none
        | none => skip)
        (localAtomics i tk rest (l ++ [⟨L, a, none, dat, true, r⟩]) k)

/-- Whether a lane of an atomic operation has written (R192): a failing `ACAS` has not. -/
def wrote (i : Instr) (a : Acc) : Bool :=
  match i with
  | .acas .. => !(a.res.any Elem.poi) && leNat (storeBytesOf (accBytes i) a.res) = leNat (storeBytesOf (accBytes i) a.dat)
  | _ => writesHome i

/-- An operation that has written nothing leaves a fence's mark (R191) to the next write behind it that has still to be performed, or to
come. -/
def passMark (o : Op) : Eff := on fun s =>
  match s.ops.find? fun kv => kv.2.gid = o.gid && o.seq < kv.2.seq && writesGen kv.2.ins && kv.2.pending with
  | some kv => upOp kv.1 fun o => { o with seg := 1 }
  | none => upGroup o.gid fun g => { g with markNext := true }

/-- The lanes of an atomic operation on the local store that has waited for earlier accesses are performed (R185, R186). -/
def placeAtomic (id : Nat) (o : Op) : Eff :=
  let p : Nat × Nat := match o.ins with | .red .. => (75, 99) | _ => (69, 93)
  localAtomics o.ins o.team (o.accs.map fun a => (a.lane, a.adr, a.dat)) [] fun accs =>
    seqs [leaveBuffer id, upOp id fun o => { o with st := .performed, accs := accs }, strike id, later p.1 p.2 (endStep o id)]

/-- A home-side atomic operation of another agent, as one operation (R183, R192, R213, R214, R483): what stood there before leaves for the
agent. -/
def extAtomic (e : ExtAtomic) : Eff := on fun s =>
  let w := match e.kind with | .xrd clr => clr | _ => true
  let n := atomBytes e.kind
  let x := s.readBytes 0 0 e.pa n
  if w && !s.admits e.who e.pa then respond e.who (secOf e.pa) 1#8
  else if s.absentAt e.pa then sendAbsent e.who e.pa n
  else seqs [homeTakes (secOf e.pa) w,
    match rmw e.kind (e.dat.map fun q => ⟨q.1, q.2⟩) x.1 x.2 with
    | some b => writeSector 0 0 (secOf e.pa) (e.pa % 64) b (match e.kind with | .xrd _ => true | _ => false) none
    | none => skip,
    sendBytes e.who e.pa x]

/-- The lanes of an atomic operation that are ready are performed; once none waits any more, it ends. -/
def performAtomic (id : Nat) (o : Op) : Eff := atomicLanes o o.accs [] fun l => on fun s =>
  let o2 := { o with accs := l }
  let w := l.filter fun a => a.page.isSome && a.done && wrote o.ins a
  seqs [markSectors o w, when (o.seg = 1 && w = [] && l.all Acc.done) (passMark o),
    if l.any fun a => !a.done && (s.homeSt o true a).waits then upOp id fun x => { x with accs := l }
    else if (s.groups.find o.dest).isNone && o.dest = 2 ^ 30 then
      (if l.all Acc.done then opEnds id else loseRest id o2 (l.filter fun a => !a.done))
    else atomicDone id o2]

/-- `HOME_SIDE_ATOMIC` (R183, R192, R213, R219): the home's atomic unit performs the lanes of an operation; that of another agent comes as a
request `x.ext`, and is performed under number 2^40 once its sector is free (R207). -/
def execHomeSideAtomic (x : HomeAtomic) (s : State) : Host.Outcome State Fault Refusal :=
  let id := x.id
  fire s <|
    match x.ext with
    | some e => if id = 2 ^ 40 then extAtomic e else when (s.power ≠ .held) (homeRequest (.homeSideAtomic x))
    | none => onSome (s.ops.find id) fun o =>
      if genLocal o.ins then when (o.unplaced && o.after = []) (placeAtomic id o)
      else if o.st ≠ .sent then skip
      else remoteFirst o (.homeSideAtomic ⟨id, none⟩) (atHomes id o (.homeSideAtomic ⟨id, none⟩) (writesHome o.ins) (performAtomic id o))

/-- `ATOMIC_RETURN` (R343): the old values return, and `SBS` clears in the following clock. -/
def execAtomicReturn (id : Nat) (s : State) : Host.Outcome State Fault Refusal :=
  fire s <|
    match s.ops.find id with
    | none => skip
    | some o => if o.st ≠ .performed then skip else andThen (returnResult id o o.mask (regOf o.accs) []) (opEnds id)

/-- `RED_ACK` (R442, R471): `SBS` clears in the clock after the acknowledgement of the last lane. -/
def execRedAck (id : Nat) (s : State) : Host.Outcome State Fault Refusal :=
  fire s <|
    match s.ops.find id with
    | none => skip
    | some o => if o.st ≠ .performed then skip else andThen (clearSb o) (opEnds id)

/-- The issue of `ATOM`, `ACAS` and `RED` (R340 to R343): data `dat`, best and worst clocks to the end on the local store less what
the return needs. -/
def atomicIssue (c : Iss) (s : State) (i : Instr) (ls : Bool) (a : Src) (mc : Mc) (dat : Nat → Lanes) (notice : Nat) : Res :=
  consuming c s i [1, 2] true <|
    let n := accBytes i
    let l := addrs c ls a mc.ofs n c.on.lanes
    aligned c ls n l <|
      if ls then
        .done <| match localBefore s c i with
          | [] => localAtomics i c.g.team (l.map fun p => (p.1, p.2, dat p.1)) [] fun accs =>
            enterBuffer c i accs [] [] fun id => andThen (contWaits c id) (later (76 - notice) (100 - notice) (endStep (opOf c s i .sent [] [] [] id) id))
          | b => enterBuffer c i (l.map fun p => ⟨p.1, p.2, none, dat p.1, false, []⟩) [] b (contWaits c)
      else
        globalWrite c s 2 .write l dat fun accs => on fun s =>
          enterBuffer c i accs [] (orderedBefore s c i accs) fun id =>
            andThen (takeMark c.gid id) (when (notice = 7) (contWaits c id))

/-- `ATOM` (R347, R348). -/
def execAtom (h : Head) (ls : Bool) (op : Aop) (w64 : Bool) (d : Dst) (a b : Src) (mc : Mc) (s : State) :
    Host.Outcome State Fault Refusal :=
  issue (.atom h ls op w64 d a b mc) s fun c s =>
    atomicIssue c s (.atom h ls op w64 d a b mc) ls a mc
      (fun L => (List.range (if w64 then 2 else 1)).map fun k => lane (c.srcK 2 b k) L) 7

/-- `ACAS` (R341, R342). -/
def execAcas (h : Head) (ls w64 : Bool) (d : Dst) (a b : Src) (mc : Mc) (s : State) : Host.Outcome State Fault Refusal :=
  issue (.acas h ls w64 d a b mc) s fun c s =>
    atomicIssue c s (.acas h ls w64 d a b mc) ls a mc
      (fun L => (List.range (if w64 then 4 else 2)).map fun k => lane (c.srcK 2 b k) L) 7

/-- `RED` (R441, R442). -/
def execRed (h : Head) (ls : Bool) (op : Aop) (w64 : Bool) (a b : Src) (mc : Mc) (s : State) :
    Host.Outcome State Fault Refusal :=
  issue (.red h ls op w64 a b mc) s fun c s =>
    atomicIssue c s (.red h ls op w64 a b mc) ls a mc
      (fun L => (List.range (if w64 then 2 else 1)).map fun k => lane (c.srcK 2 b k) L) 1

/-- The record of the lanes of an `XADD` whose addresses are poisoned (R471). -/
def xaddRecord (c : Iss) (l : List (Nat × Word)) : Eff := on fun s =>
  match l with
  | [] => skip
  | (_, w) :: _ =>
    fault { recOf s c.gid c.g c.pc 2 ⟨6, 3⟩ 0 (Mask.of fun n => l.any fun p => p.1 = n) w with status := 1 } fun _ => skip

/-- `XADD` (R124, R471). -/
def execXadd (h : Head) (ty : XTy) (a b : Src) (mc : Mc) (s : State) : Host.Outcome State Fault Refusal :=
  let i : Instr := .xadd h ty a b mc
  issue i s fun c s =>
    consuming c s i [] true <|
      let l := addrs c false a mc.ofs 64 c.on.lanes
      let bad := badAddrs c false a mc.ofs 64 c.on.lanes
      aligned c false 64 l <|
        globalWrite c s 2 .write l (fun L => [lane (c.src 2 b) L]) fun accs => on fun s =>
          andThen (xaddRecord c bad)
            (enterBuffer c i accs [] (orderedBefore s c i accs) fun id => takeMark c.gid id)

/-- `XRD` (R125, R472). -/
def execXrd (h : Head) (clr : Bool) (d : Dst) (a : Src) (mc : Mc) (s : State) : Host.Outcome State Fault Refusal :=
  let i : Instr := .xrd h clr d a mc
  issue i s fun c s =>
    consuming c s i [] clr <|
      let l := addrs c false a mc.ofs 64 c.on.lanes
      let bad := badAddrs c false a mc.ofs 64 c.on.lanes
      aligned c false 64 l <|
        globalWrite c s 2 (if clr then .write else .read) l (fun _ => []) fun accs => on fun s =>
          let accs := accs.map fun x => { x with dat := (accOf c x.lane x.adr none).dat }
          enterBuffer c i (accs ++ bad.map fun p => doneAcc p.1 p.2) [] (orderedBefore s c i accs) fun id =>
            andThen (when clr (takeMark c.gid id)) (contWaits c id)

end Sys2Proof.Machine
end

