-- ==== Sys2Proof/Machine/Start.lean ====
section
/-!
DEFINITION. Start.lean: a group and a team as they stand at team start (R28, R63, Table 2.2).
-/
namespace Sys2Proof.Machine

/-- The group CSRs at team start (Table 2.2, R271). -/
def csrAtStart (sidx : BitVec 18) (prio vid : Nat) : GCsr :=
  { stale := false, tmode := false, sidx := sidx, tvec := 0#57, tcause := 0#4, tpc := 0#57, taddr := 0#64, fpflg := 0#6,
    rm := 0#2, ftz := false, ejth := 4, chk := false, prio := prio, vid := vid }

/-- A group at team start (Table 2.2), in the pending set of its rod; `args` holds the RCB address and `ARGS`. -/
def groupAtStart (team idx frame rod : Nat) (kernel : BitVec 57) (rcb args : BitVec 64) (sgr : Nat) (csr : GCsr)
    (now : Nat) : Group :=
  { team := team, idx := idx, frame := frame, rod := rod, cont := none,
    threads := tab32 fun _ => ⟨kernel, 0xFFFFFFFF#32, 0xFFFFFFFF#32, .run, false, [], none, 0, none⟩,
    v := [],
    s := if sgr = 0 then [] else [(0, ⟨rcb.extractLsb' 0 32, false⟩), (1, ⟨rcb.extractLsb' 32 32, false⟩),
      (2, ⟨args.extractLsb' 0 32, false⟩), (3, ⟨args.extractLsb' 32 32, false⟩)],
    c := [], f := [], q := [], o := [], hm := 0#4, pend := [], sb := 0#6, sbFar := 0#6, ready := now, last := none,
    counted := [], join := 0, joinAddr := 0xFFFFFFFF#32, z8 := none, csr := csr, resume := 0#32, resuming := false,
    deferred := [], lost := [], hold := .none, mfence := false, fenced := 0, active := none, swapEnd := now, since := now,
    yielded := false, markNext := false, wlog := [], past := [], rseq := 0, replays := [] }

/-- Groups of a team on each rod of its frame (R63): n_r = ceil((G − r) / 16). -/
def groupsOnRod (g r : Nat) : Nat := if r < g then ceilDiv (g - r) 16 else 0

end Sys2Proof.Machine
end

