-- ==== Sys2Proof/Machine/Register.lean ====
section
/-!
DEFINITION. Register.lean: the registration of nodes (R46 to R51, R59, R267, R409): their checks and effective fields.
-/
namespace Sys2Proof.Machine

/-- The frames of a context, in increasing virtual number (R19). -/
def Ctx.frames (c : Ctx) : List Nat := c.parts.flatMap fun p => (List.range 16).map fun k => 16 * p + k

/-- The virtual number of a physical frame in its function (R19). -/
def State.vframe (s : State) (frame : Nat) : Nat :=
  let p := partOf frame
  let before := (List.range p).filter fun q => s.partEn q && s.partFunc q = s.partFunc p
  16 * before.length + frame % 16

/-- Groups of a team of a node. -/
def Rcb.groups (r : Rcb) : Nat := r.grps + 1

/-- How many times `ask` fits in `have_`; nothing asked fits any number of times. -/
def times (ask have_ : Nat) : Nat := if ask = 0 then 2 ^ 48 else have_ / ask

/-- The teams of a node that one frame with `ways` store ways can hold at once (Table 3.4). -/
def Rcb.perFrame (r : Rcb) (ways : Nat) : Nat :=
  let n0 := groupsOnRod r.groups 0
  ([times n0 64, times (n0 * r.vgr) 384, times (n0 * r.sgr) 256, times r.lgr (32 * ways), times r.lgr r.blocal,
    times r.nbar 256, times r.ntile 16, times r.nacc 32] : List Nat).foldl min (2 ^ 48)

/-- The store ways that a team request is held to at launch (R49). -/
def waysAtLaunch (s : State) (r : Rcb) (frame : Nat) : Nat := if r.carve then 15 else s.partStore (partOf frame)

/-- Whether a team of the node could ever fit a frame of the context (R49). -/
def couldFit (s : State) (c : Ctx) (r : Rcb) : Bool := c.frames.any fun f => 1 ≤ r.perFrame (waysAtLaunch s r f)

/-- The sum of the `n` greatest numbers of a list. -/
def sumTop : Nat → List Nat → Nat
  | 0, _ => 0
  | n + 1, l => match l.foldl max 0 with
    | 0 => 0
    | m + 1 => (m + 1) + sumTop n (l.erase (m + 1))

/-- Whether all teams of a `GANG` node can be resident at once within its frame budget (R30). -/
def gangFits (s : State) (c : Ctx) (r : Rcb) : Bool :=
  !r.gang || r.nteam ≤ sumTop r.bframe (c.frames.map fun f => r.perFrame (waysAtLaunch s r f))

/-- The effective fields of a node (R48) below a parent's, for a context with a priority ceiling. -/
def effective (ceil : Nat) (r : Rcb) (p : Option Rcb) : Rcb :=
  match p with
  | none => { r with prio := min r.prio ceil }
  | some q =>
    let o (k : Nat) := r.ovr.getLsbD k
    { r with
      bframe := if o 0 then min r.bframe q.bframe else q.bframe
      blocal := if o 1 then min r.blocal q.blocal else q.blocal
      bview := if o 2 then min r.bview q.bview else q.bview
      bmem := if o 3 then min r.bmem q.bmem else q.bmem
      prio := if o 4 then min r.prio ceil else q.prio
      fdom := if o 5 then r.fdom else q.fdom
      guarded := if o 6 then r.guarded else q.guarded
      idem := if o 7 then r.idem else q.idem
      paired := if o 8 then r.paired else q.paired
      carve := if o 9 then r.carve else q.carve }

/-- Whether a node breaks no limit of R48 marked "refused". -/
def withinLimits (paired : Bool) (r : Rcb) (p : Option Rcb) : Bool :=
  match p with
  | none => r.ovr = 0x3FF#10 && !(r.paired && !paired)
  | some q =>
    let e := effective 31 r p
    !(e.guarded && e.idem) && !(r.ovr.getLsbD 8 && q.paired && !r.paired) && !(r.ovr.getLsbD 8 && r.paired && !paired)
      && !(r.ovr.getLsbD 9 && r.carve && !q.carve)

/-- Whether a context's partitions are paired (R48). -/
def Ctx.paired (s : State) (c : Ctx) : Bool := c.parts.all s.partPaired

/-- The depth of a view (R257). -/
def State.viewDepth (s : State) (part id : Nat) : Nat := if id = 0 then 0 else (s.views.find (viewKey part id)).elim 0 View.depth

/-- The depth of the view that a node's teams run in (R267), within `fuel` links: known once it has its private view, else that of its parent
and one more for a guarded node. -/
def State.runDepth (s : State) (part : Nat) : Nat → Nat → Nat
  | 0, _ => 0
  | fuel + 1, nk =>
    match s.nodes.find nk with
    | none => 0
    | some n => match n.priv with
      | some v => s.viewDepth part v
      | none => (if n.eff.guarded then 1 else 0) + match n.rival, n.parent with
        | none, some p => s.runDepth part fuel p
        | _, _ => s.viewDepth part n.view

/-- The node that `PARENT` names (R409): a registered, unfinished node of the context, or the issuing node by the address that its
`NODE` CSR returns. `none`: the rule is broken; `some none`: a root. -/
def parentOf (s : State) (ctx va : Nat) (issuer : Option Nat) : Option (Option Nat) :=
  if va = 0 then some none
  else match issuer.bind fun k => (s.nodes.find k).bind fun n => if n.rcbva = va && !n.st.finished then some k else none with
    | some k => some (some k)
    | none => (s.nodeAt ctx va).map some

/-- The first 128 bytes of an RCB, which the device reads (R59, R263), or why it cannot, as a cause of Table 10.5; a registration (`wr`) asks
for a page that permits writes. -/
def State.readRcb (s : State) (ctx view va : Nat) (wr : Bool) : Except Nat (List Byte) :=
  s.deviceRead (s.leadFrame ctx) ctx (s.lead ctx) view va 128 wr

/-- The registered nodes of a context that have not finished (R59); a rival counts until it has finished under R263. -/
def State.unfinished (s : State) (ctx : Nat) : Nat :=
  (s.nodes.filter fun kv => kv.2.ctx = ctx && !kv.2.st.finished).length

/-- What a registration comes to. -/
inductive Reg where
  | unreadable (cause : Nat)
  | duplicate
  /-- Registered as this node; `false`: and FAILED. -/
  | node (k : Nat) (ok : Bool)

/-- Whether a node with these fields below parent `pk` may be launched: the checks of R47 to R49, R30 and R267. -/
def launchable (s : State) (ctx va : Nat) (bytes : List Byte) (r e : Rcb) (pk : Option (Option Nat)) : Bool :=
  match s.ctxs.find ctx with
  | none => false
  | some c =>
    va % 256 = 0 && rcbReserved bytes && r.ranges && pk.isSome
      && withinLimits (Ctx.paired s c) r ((pk.join.bind fun k => s.nodes.find k).map Node.eff)
      && couldFit s c e && gangFits s c e 
      && !(e.guarded && 4 < (pk.join.elim 0 (s.runDepth (s.lead ctx) s.nodes.length)) + 1)

/-- REGISTRATION (R59, R409): reads and checks the RCB in a view, sets `STATE`, `REQ` and `TDONE` and reads `DEPCNT` as one operation
at its home; a node that fails a check goes to FAILED (R61). -/
def registerNode (ctx view va : Nat) (issuer queue : Option Nat) (sig : Option Signal) (k : Reg → Eff) : Eff := on fun s =>
  match s.readRcb ctx view va true with
  | .error c => k (.unreadable c)
  | .ok bytes =>
    if (s.nodeAt ctx va).isSome then k .duplicate
    else
      let r := Rcb.ofBytes bytes
      let pk := parentOf s ctx r.parent issuer
      let par := pk.join.bind fun k => s.nodes.find k
      let e := effective (s.pceil (s.lead ctx)) r (par.map Node.eff)
      let run := par.elim 0 Node.runView
      let ok := launchable s ctx va bytes r e pk
      let ready := bitsOf (leNat bytes) 319 288 = 0
      fresh fun id =>
        let n : Node :=
          { ctx := ctx, rcbva := va, eff := e, st := if ready then .ready else .waiting, req := 0, tdone := 0, tnext := 0,
            parent := pk.join, view := run, rcbView := view, priv := none, escaped := false, rival := none,
            order := (s.ctxs.find ctx).elim 0 Ctx.regs, readyAt := id, queue := queue, sig := sig, sarrive := [], sstep := 0,
            digest := 0#64, waits := false }
        seqs [act (.node id (some n)),
          upCtx ctx fun c => { c with regs := c.regs + 1 },
          rcbWrite id,
          if ok then when ready (soon (.teamReservation ctx)) else failNode id .failed,
          k (.node id ok)]

end Sys2Proof.Machine
end

