-- ==== Sys2Proof/Machine/Queues.lean ====
section
/-!
DEFINITION. Queues.lean: queue descriptors, kick registers, launch packets, fences (R52 to R58, R305).
-/
namespace Sys2Proof.Machine

/-- Address of a queue descriptor (R52). -/
def State.qdAt (s : State) (q : Nat) : Nat := (s.csr offQTBASE).toNat + 64 * q

/-- Bits `[hi:lo]` of a queue descriptor (Table 3.1). -/
def State.qd (s : State) (q hi lo : Nat) : Nat := bitsOf (s.readNum 0 0 (s.qdAt q) 64) hi lo

/-- The device writes `RDIDX`. -/
def setRdIdx (q v : Nat) : Eff := on fun s => devWrite (s.qdAt q + 16) (num 8 v)

/-- The device writes `WRIDX`. -/
def setWrIdx (q v : Nat) : Eff := on fun s => devWrite (s.qdAt q + 24) (num 8 v)

/-- A queue goes to ERROR with a reason (`QERR`). -/
def queueError (q err : Nat) : Eff := on fun s =>
  devWrite (s.qdAt q + 32) (num 1 (s.qd q 263 262 * 64 + err * 4 + 1))

/-- Whether a function holds a partition (R53). -/
def State.funcHolds (s : State) (f : Nat) : Bool := (List.range 16).any fun p => s.partEn p && s.partFunc p = f

/-- The enabled partitions that are configured with a context (R312). -/
def State.ctxParts (s : State) (ctx : Nat) : List Nat := (List.range 16).filter fun p => s.partEn p && s.partCtx p = ctx

/-- A context as it first runs, on its partitions (log entry 2). -/
def ctxOn (ctx : Nat) (parts : List Nat) : Ctx :=
  { num := ctx, parts := parts, run := .resident, sidx := [], lastFrame := none, headAt := none, limit := none, turn := 1024, visitAt := 0, stopped := [],
    stops := 0, stopLost := false, nparts := parts.length, regs := 0 }

/-- A context becomes resident with the first kick of a queue of its own. -/
def ensureCtx (ctx : Nat) : Eff := on fun s =>
  when ((s.ctxs.find ctx).isNone && s.ctxParts ctx ≠ []) (act (.ctx ctx (some (ctxOn ctx (s.ctxParts ctx)))))

/-- Whether every partition of a context is paired (R305). -/
def State.ctxPaired (s : State) (ctx : Nat) : Bool :=
  let l := (s.ctxs.find ctx).elim (s.ctxParts ctx) Ctx.parts
  l ≠ [] && l.all s.partPaired

/-- The accepted write of a kick register (Table 3.2). -/
def kick (q : Nat) (v : BitVec 64) : Eff := on fun s =>
  let st := s.qd q 257 256
  let logsz := s.qd q 68 64
  if st = 2 then skip
  else if !s.funcHolds (s.qd q 86 80) || s.ctxParts (s.qd q 111 96) = [] then queueError q 3
  else if st = 1 || st = 3 then skip
  else if logsz < 4 || 20 < logsz || s.qd q 11 0 ≠ 0 then queueError q 4
  else if v.toNat ≤ s.qd q 255 192 then skip
  else if s.qd q 191 128 + 2 ^ logsz < v.toNat then queueError q 1
  else seqs [setWrIdx q v.toNat, ensureCtx (s.qd q 111 96), later 1500 4000 (.nodePacket q)]

/-- `KICK_REGISTER_WRITE` (R53, R305): a kick reaches the register of queue `q` through function `func`; one of another function is
dropped, and one of a paired context is mirrored to the twin. In recovery there is no such register (R310). -/
def execKickRegisterWrite (func queue : Nat) (v : BitVec 64) (s : State) : Host.Outcome State Fault Refusal :=
  outside s <|
    if s.power = .recovery || 1024 ≤ queue || s.qd queue 86 80 ≠ func then skip
    else andThen (when (s.ctxPaired (s.qd queue 111 96)) (out (.twinKick queue v))) (kick queue v)

/-- What a read of the kick register of queue `q` through function `func` returns (R53). -/
def State.kickRead (s : State) (func q : Nat) : BitVec 64 :=
  if 1024 ≤ q || s.qd q 86 80 ≠ func then 0#64 else BitVec.ofNat 64 (s.qd q 255 192)

/-- The device-side record of a queue. -/
def State.queueOf (s : State) (q : Nat) : Queue := s.queues.findD q ⟨[], none, false⟩

/-- A queue waits for its turn of the lead processor's round, or not (R58). -/
def setDue (q : Nat) (b : Bool) : Eff := on fun s => act (.queue q (some { s.queueOf q with due := b }))

/-- The packet at `RDIDX` (R54, R55): none when its slot is unreadable. -/
def State.packet (s : State) (q : Nat) : Option Nat :=
  let ctx := s.qd q 111 96
  (s.readVa (s.leadFrame ctx) ctx (s.lead ctx) 0 (s.qd q 63 0 + 64 * (s.qd q 191 128 % 2 ^ s.qd q 68 64)) 64 false).map leNat

/-- Whether a packet's type and reserved fields are good (R55). -/
def packetOk (x : Nat) : Bool :=
  (bitsOf x 7 0 = 1 || bitsOf x 7 0 = 2) && bitsOf x 15 9 = 0 && bitsOf x 63 27 = 0 && bitsOf x 511 256 = 0

/-- The completion signal of a packet. -/
def signalOf (s : State) (q x : Nat) : Signal :=
  ⟨bitsOf x 191 128, BitVec.ofNat 64 (bitsOf x 255 192), bitsOf x 8 8 = 1, bitsOf x 26 16, s.qd q 86 80, q, s.qd q 191 128⟩

/-- Whether a queue can take a packet now: active, one pending, no fence, and its context resident. -/
def State.queueGoes (s : State) (q : Nat) : Bool :=
  s.qd q 257 256 = 0 && s.qd q 191 128 < s.qd q 255 192 && (s.queueOf q).fence.isNone
    && (s.ctxs.find (s.qd q 111 96)).elim false fun c => c.run = .resident || c.run = .draining

/-- The queue of a context that the lead processor visits next: of those that wait, the next in increasing number, going round (R58). -/
def State.nextDue (s : State) (ctx : Nat) (c : Ctx) : Option Nat :=
  let l := (s.queues.filter fun kv => kv.2.due && s.qd kv.1 111 96 = ctx).map Prod.fst
  match l.find? fun q => c.turn < q with
  | some q => some q
  | none => l.head?

/-- The next packet of a queue, if one is pending, waits for the lead processor's next visit (R58), whose time the model chooses (DESIGN
CHOICE, log entry 87). -/
def nextPacket (q : Nat) : Eff := on fun s =>
  if s.queueGoes q then
    andThen (setDue q true) (at_ (max (s.now + 1) ((s.ctxs.find (s.qd q 111 96)).elim 0 Ctx.visitAt)) (.nodePacket q))
  else setDue q false

/-- The lead processor visits a queue. From one visit to the next it takes 1 to 256 clocks, a free value: R58 bounds only the first packet of a
kick (DESIGN CHOICE, log entry 87). -/
def visit (q : Nat) : Eff := freely fun n => on fun s =>
  andThen (setDue q false) (upCtx (s.qd q 111 96) fun c => { c with turn := q, visitAt := s.now + 1 + Config.pick n % 256 })

/-- `RDIDX` passes a packet. -/
def passPacket (q : Nat) : Eff := on fun s => setRdIdx q (s.qd q 191 128 + 1)

/-- A NODEIO event of a packet (Table 13.11). -/
def packetIo (q rcbva va access cause : Nat) : Eff := on fun s =>
  let ctx := s.qd q 111 96
  event 19 4 (s.lead ctx) ctx rcbva va (access + cause * 2 ^ 8) (q + s.qd q 191 128 % 2 ^ 32 * 2 ^ 32) []

/-- A NODE packet whose node is not registered (R55). -/
def packetFails (q rcbva access cause : Nat) (g : Signal) : Eff := on fun s =>
  let ctx := s.qd q 111 96
  seqs [sendSignal ctx 0 g false fun c => packetIo q rcbva g.va 3 c, packetIo q rcbva rcbva access cause, passPacket q, nextPacket q]

/-- The lead processor takes the packet at `RDIDX` (R54, R55, R59); a `QFENCE` is taken by its own step. A registration beyond 4,096 nodes
holds its queue and is tried again 256 clocks later (DESIGN CHOICE, log entry 87). -/
def takePacket (queue : Nat) : Eff := on fun s =>
  match s.packet queue with
  | none => queueError queue 5
  | some x =>
    let ctx := s.qd queue 111 96
    if !packetOk x then queueError queue 2
    else if bitsOf x 7 0 = 2 then soon (.qfencePacket queue)
    else if 4096 ≤ s.unfinished ctx then after 256 (.nodePacket queue)
    else
      let va := bitsOf x 127 64
      let g := signalOf s queue x
      registerNode ctx 0 va none (some queue) (some g) fun r =>
        match r with
        | .unreadable c => packetFails queue va 0 c g
        | .duplicate => packetFails queue va 4 0 g
        | .node k _ => on fun s =>
          let qu := s.queueOf queue
          seqs [act (.queue queue (some { qu with nodes := qu.nodes ++ [k] })), passPacket queue, nextPacket queue]

/-- `NODE_PACKET` (R54, R55, R58, R59): a packet of a queue is pending; the lead processor takes it when the queue's turn has come.
A registration that waits at 4,096 nodes is tried again 256 clocks later (DESIGN CHOICE, log entry 87). -/
def execNodePacket (queue : Nat) (s : State) : Host.Outcome State Fault Refusal :=
  fire s <|
    if !s.queueGoes queue then when (s.queueOf queue).due (setDue queue false)
    else andThen (setDue queue true) (on fun s =>
      let ctx := s.qd queue 111 96
      onSome (s.ctxs.find ctx) fun c =>
        if s.now < c.visitAt then at_ c.visitAt (.nodePacket queue)
        else if s.nextDue ctx c ≠ some queue then after 1 (.nodePacket queue)
        else andThen (visit queue) (takePacket queue))

/-- Whether every node registered from a queue has finished (R55). -/
def State.queueDrained (s : State) (q : Nat) : Bool :=
  (s.queueOf q).nodes.all fun k => (s.nodes.find k).elim true fun n => n.st.finished

/-- `QFENCE_PACKET` (R55): the queue's later packets are held until the earlier nodes have finished. -/
def execQfencePacket (queue : Nat) (s : State) : Host.Outcome State Fault Refusal :=
  fire s <|
    if !s.queueGoes queue then skip
    else match s.packet queue with
      | none => queueError queue 5
      | some x =>
        if !packetOk x || bitsOf x 7 0 ≠ 2 then skip
        else seqs [act (.queue queue (some { s.queueOf queue with fence := some (signalOf s queue x) })), passPacket queue,
          soon (.qfenceComplete queue)]

/-- `QFENCE_COMPLETE` (R55, R56): the fence writes its signal, and the queue goes on. -/
def execQfenceComplete (queue : Nat) (s : State) : Host.Outcome State Fault Refusal :=
  fire s <|
    match (s.queueOf queue).fence with
    | none => skip
    | some g =>
      if !s.queueDrained queue then skip
      else
        let ctx := s.qd queue 111 96
        if !(s.ctxs.find ctx).elim false (fun c => c.run = .resident || c.run = .draining) then skip
        else seqs [act (.queue queue (some ⟨[], none, false⟩)), sendSignal ctx 0 g true (fun c => packetIo queue 0 g.va 3 c), nextPacket queue]

end Sys2Proof.Machine
end

