-- ==== Sys2Proof/Machine/Engines.lean ====
section
/-!
DEFINITION. Engines.lean: the engine commands at issue, and what each of them moves: `CPY`, `TLD`, `TST`, `GATH`, `SCAT`, `COLL`
(R161, R165, R167, R170 to R177, R369 to R371, R373, R374, R400, R445, R461 to R464).
-/
namespace Sys2Proof.Machine

/-- Where an engine command finds a nibble: global memory, the local store (2 × byte + half), or a value with its poison. -/
inductive Nib where
  | glo (a : Nat)
  | loc (a : Nat)
  | lit (v : Nat) (p : Option Word)
  deriving DecidableEq, Repr

/-- An engine command as what it moves, nibble by nibble in the order of its bytes: their number, the bytes of a segment (R283), the
source and the destination of each nibble (none: it is counted and not written), whether it writes the local store, its arrival word,
and the nibbles that a destination sector can hold. -/
structure Cmd where
  bytes   : Nat
  seg     : Nat
  src     : Nat → Nib
  dst     : Nat → Option Nib
  intoLs  : Bool
  arrival : Option Nat
  near    : Nat → List Nat

/-- The number that a list of registers holds, the first in its low bits. -/
def numOf (l : Lanes) : Nat := leNat (l.flatMap fun e => leBytes 4 e.val.toNat)

/-- A shape record (Table 7.5) by its fields: element width, rank, extents, strides, box sizes. -/
structure Shape where
  base : Nat
  ext  : List Nat
  str  : List Nat
  box  : List Nat
  fill : Nat
  w    : Nat
  perm : Nat
  deriving DecidableEq, Repr

/-- `RANK` of a record. -/
def recRank (x : Nat) : Nat := bitsOf x 493 491

/-- The shape that a record of 512 bits describes. -/
def Shape.ofNum (x : Nat) : Shape :=
  let r := recRank x
  { base := bitsOf x 56 0, ext := (List.range r).map fun d => bitsOf x (24 * d + 87) (24 * d + 64),
    str := (List.range r).map fun d => if d = 0 then 0 else bitsOf x (28 * d + 231) (28 * d + 204),
    box := (List.range r).map fun d => bitsOf x (8 * d + 407) (8 * d + 400) + 1,
    fill := bitsOf x 487 456, w := 4 * 2 ^ bitsOf x 490 488, perm := bitsOf x 496 494 }

/-- Bytes of a box. -/
def Shape.bytes (b : Shape) : Nat := b.box.foldl (fun m k => m * k) 1 * b.w / 8

/-- The `ILLOP` conditions of a record (R171); `noHigh` leaves out the high register of `BASE` (R165). -/
def recBad (x : Nat) (noHigh mc : Bool) : Bool :=
  let r := recRank x
  let b := Shape.ofNum x
  (!noHigh && bitsOf x 63 57 ≠ 0) || bitsOf x 511 498 ≠ 0 || 5 ≤ bitsOf x 490 488 || 4 ≤ bitsOf x 496 494 || r = 0
    || ((List.range 7).any fun d =>
      let e := bitsOf x (24 * d + 87) (24 * d + 64)
      if d < r then e = 0 else
        e ≠ 0 || bitsOf x (8 * d + 407) (8 * d + 400) ≠ 0 || (d ≠ 0 && bitsOf x (28 * d + 231) (28 * d + 204) ≠ 0))
    || (b.box.headD 0 * b.w) % 32 ≠ 0 || (b.perm ≠ 0 && b.bytes % 512 ≠ 0) || (mc && bitsOf x 497 497 = 0)

/-- The digits of an element's number in the box, lowest dimension first. -/
def digits : List Nat → Nat → List Nat
  | [], _ => []
  | k :: l, e => (e % k) :: digits l (e / k)

/-- The tensor coordinates of a box element (R172), computed without wrap. -/
def Shape.coords (b : Shape) (c : List Int) (e : Nat) : List Int := (c.zip (digits b.box e)).map fun p => p.1 + (p.2 : Int)

/-- The nibble address of nibble `i` of the box in memory (R172), where its element is in bounds. -/
def Shape.addr (b : Shape) (c : List Int) (i : Nat) : Option Nat :=
  let n := b.w / 4
  let x := b.coords c (i / n)
  if (x.zip b.ext).all fun p => 0 ≤ p.1 && p.1 < p.2 then
    some (2 * (b.base + ((x.zip b.str).map fun p => 16 * p.2 * p.1.toNat).sum) + (x.headD 0).toNat * n + i % n)
  else none

/-- Nibble `i` of the fill of an element (R172). -/
def Shape.fillNib (b : Shape) (i : Nat) : Nat := b.fill / 2 ^ (4 * (i % (b.w / 4))) % 16

/-- The place of nibble `i` of a box behind its local-store offset (R172, R173). -/
def Shape.place (b : Shape) (i : Nat) : Nat :=
  if b.perm = 0 then i
  else
    let q := i / 1024
    2 * (512 * q + 64 * (((i / 128 % 8) ^^^ (q % 2 ^ b.perm)) % 8)) + i % 128

/-- A signed register value. -/
def sint (e : Elem) : Int := e.val.toInt

/-- The first poisoned of a list of registers, as a payload. -/
def firstBad (l : Lanes) : Option Word := (l.find? Elem.poi).map Elem.val

/-- Every nibble of a command. -/
def allNibs (n : Nat) (_ : Nat) : List Nat := List.range n

/-- An arrival word operand: none, or its offset (R167). -/
def arrivalOf (e : Elem) : Option Nat := if e.val = 0xFFFFFFFF#32 then none else some e.val.toNat

/-- A nibble of the local store, if the team's allocation holds it; a poisoned destination offset, of which the rules say nothing
more, stands for offset 0. -/
def locNib (t : Team) (a : Nat) : Option Nib := if a / 2 < t.lsBytes then some (.loc a) else none

/-- The local-store offset that a register gives, 0 where it is poisoned. -/
def ofsOf (e : Elem) : Nat := if e.poi then 0 else e.val.toNat

/-- The number of registers of a global address, or of an offset. -/
def addrRegs (glo : Bool) : Nat := if glo then 2 else 1

/-- Global addresses of a `CPY`: destination and source. -/
def cpyGlo (dir : CpyDir) : Bool × Bool := (dir = .lg || dir = .gg, dir = .gl || dir = .gg)

/-- The parts of the operand values of a `CPY`: destination, source, count, arrival word. -/
def cpyVals (dir : CpyDir) (v : Lanes) : Lanes × Lanes × Elem × Elem :=
  let a := addrRegs (cpyGlo dir).1
  let b := addrRegs (cpyGlo dir).2
  (v.take a, (v.drop a).take b, v.getD (a + b) (clean 0#32), v.getD (a + b + 1) (clean 0#32))

/-- What a `CPY` moves (R373, R374). For `.LL` with ranges that overlap, the source words stand behind its operand values as they
were when it started. -/
def cpyCmd (t : Team) (dir : CpyDir) (v : Lanes) : Cmd :=
  let p := cpyVals dir v
  let n := p.2.2.1.val.toNat
  let d := numOf p.1
  let a := numOf p.2.1
  let kept := v.drop (addrRegs (cpyGlo dir).1 + addrRegs (cpyGlo dir).2 + 2)
  { bytes := n, seg := 4096, intoLs := !(cpyGlo dir).1, arrival := arrivalOf p.2.2.2
    src := fun i =>
      match if (cpyGlo dir).1 then none else firstBad (p.1 ++ p.2.1) with
      | some w => .lit 0 (some w)
      | none =>
        if (cpyGlo dir).2 then .glo (2 * a + i)
        else match kept[i / 8]? with
          | some e => .lit (e.val.toNat / 2 ^ (4 * (i % 8)) % 16) (if e.poi then some e.val else none)
          | none => .loc (2 * a + i)
    dst := fun i => if (cpyGlo dir).1 then some (.glo (2 * d + i)) else locNib t (2 * ofsOf (p.1.headD (clean 0#32)) + i)
    near := fun k => (List.range 128).filterMap fun j => if 2 * d ≤ 128 * k + j && 128 * k + j < 2 * (d + n) then some (128 * k + j - 2 * d) else none }

/-- What a `TLD` or a `TST` moves (R172, R173, R463, R464). -/
def boxCmd (t : Team) (load : Bool) (v : Lanes) : Cmd :=
  let b := Shape.ofNum (numOf ((v.drop 1).take 16))
  let c := (((v.drop 17).take b.box.length).map sint)
  let d := 2 * ofsOf (v.headD (clean 0#32))
  let bad := firstBad (v.take 3)
  { bytes := b.bytes, seg := 4096, intoLs := load, arrival := arrivalOf (v.getD (17 + b.box.length) (clean 0#32))
    src := fun i =>
      if load then
        match bad with
        | some w => .lit 0 (some w)
        | none => match b.addr c i with
          | some a => .glo a
          | none => .lit (b.fillNib i) none
      else .loc (d + b.place i)
    dst := fun i => if load then locNib t (d + b.place i) else (b.addr c i).map Nib.glo
    near := allNibs (2 * b.bytes) }

/-- Fields of a gather descriptor: `BASE`, `ROWB`, `NIDX` (R176). -/
def gathFields (v : Lanes) : Nat × Nat × Nat :=
  (numOf ((v.drop 1).take 2), (v.getD 3 (clean 0#32)).val.toNat, (v.getD 4 (clean 0#32)).val.toNat)

/-- What a `GATH` or a `SCAT` moves (R176, R401, R446); the index words stand behind its operand values once it has started. -/
def rowCmd (t : Team) (load : Bool) (v : Lanes) : Cmd :=
  let f := gathFields v
  let d := 2 * ofsOf (v.headD (clean 0#32))
  let idx (i : Nat) := (v.drop 7).getD (i / (2 * f.2.1)) (clean 0#32)
  let row (x : Word) (i : Nat) := 2 * (f.1 + x.toNat * f.2.1) + i % (2 * f.2.1)
  let n := f.2.1 * f.2.2
  { bytes := n, seg := 64 * f.2.1, intoLs := load, arrival := arrivalOf (v.getD 6 (clean 0#32))
    src := fun i =>
      if load then
        match firstBad (v.take 3 ++ [v.getD 5 (clean 0#32)]) with
        | some w => .lit 0 (some w)
        | none =>
          let e := idx i
          if e.poi then .lit 0 (some e.val) else if e.val = 0xFFFFFFFF#32 then .lit 0 none else .glo (row e.val i)
      else .loc (d + i)
    dst := fun i =>
      if load then locNib t (d + i)
      else
        let e := idx i
        if e.poi || e.val = 0xFFFFFFFF#32 then none else some (.glo (row e.val i))
    near := allNibs (2 * n) }

/-- What an operation's command moves. -/
def cmdOf (t : Team) (o : Op) : Cmd :=
  match o.ins with
  | .cpy _ dir .. => cpyCmd t dir o.vals
  | .tld .. => boxCmd t true o.vals
  | .tst .. => boxCmd t false o.vals
  | .gath .. => rowCmd t true o.vals
  | .scat .. => rowCmd t false o.vals
  | _ => ⟨0, 4096, fun _ => .lit 0 none, fun _ => none, true, none, fun _ => []⟩

/-- The class in which an engine command counts (Table 7.3). -/
def engClass (i : Instr) : CtrCls := i.counter.getD .cpy

/-- Registers `k` below `n` of a uniform operand. -/
def Iss.unis (c : Iss) (slot : Nat) (s : Src) (n : Nat) : Lanes := (List.range n).map fun k => c.uni slot s k

/-- A destination field read as a source (R373). -/
def Dst.asSrc (d : Dst) : Src := ⟨false, d.cls, d.idx⟩

/-- A local-store source offset in FA: class 7 is zero-extended (R326). -/
def Iss.offsetA (c : Iss) (a : Src) : Elem := if a.cls = .imm then clean (a.idx.zeroExtend 32) else c.uni 1 a 0

/-- Goes on with `k` unless one of these registers, each with its slot, is poisoned (R165, R255). -/
def refusePoison (c : Iss) (s : State) (l : List (Nat × Elem)) (k : Res) : Res :=
  match l.find? fun p => p.2.poi with
  | some p => consume c s p.1 (c.on.lanes.headD 0) p.2.val
  | none => k

/-- The registers of an operand with their slot. -/
def inSlot (n : Nat) (l : Lanes) : List (Nat × Elem) := l.map fun e => (n, e)

/-- The first of these addresses that breaks its alignment (R153). -/
def misaligned (l : List (Nat × Nat)) (k : Res) : Res :=
  match l.find? fun p => p.1 % p.2 ≠ 0 with
  | some p => .trap .misalign (BitVec.ofNat 64 p.1)
  | none => k

/-- The first of these local ranges, offset and length, that reaches beyond the allocation (R153). -/
def unallocated (t : Team) (l : List (Nat × Nat)) (k : Res) : Res :=
  match l.find? fun p => t.lsBytes < p.1 + p.2 with
  | some p => .trap .alloc (BitVec.ofNat 64 p.1)
  | none => k

/-- A check that is made of clean registers alone (R165). -/
def ifClean (l : Lanes) (x : Nat × Nat) : List (Nat × Nat) := if (firstBad l).isSome then [] else [x]

/-- The alignment of an address by its low register, which alone decides it (R153, R165); in `TADDR` a poisoned high register leaves the
high half open: a free value (log entry 81). -/
def ifLow (c : Iss) (l : Lanes) (n : Nat) : List (Nat × Nat) :=
  match l with
  | lo :: hi => if lo.poi then [] else
      [(lo.val.toNat + 2 ^ 32 * (if hi.any Elem.poi then (Config.anyWord c.free).toNat else numOf hi), n)]
  | [] => []

/-- The arrival word's own checks: its alignment and its four bytes. -/
def arrivalCheck (e : Elem) (n : Nat) : List (Nat × Nat) := if e.val = 0xFFFFFFFF#32 then [] else [(e.val.toNat, n)]

/-- THE ADD of a delivery of `n` bytes to an arrival word (R157, R168), which then serves its queue. A poisoned word keeps its poison bit
and is otherwise updated in the same way, in the 32 bits that hold its payload (log entry 54). -/
def addArrival (tk : Nat) (a : Option Nat) (n : Nat) : Eff := onSome a fun a =>
  andThen (upWords tk fun t =>
      let w := t.word (a / 4)
      let v := w.val + BitVec.ofNat 32 n
      { t with words := t.words.put (a / 4) { w with val := v, full := w.full || !v.msb } })
    (serveWord tk (a / 4))

/-- An engine command is sent through the store buffer and counts in its class (R161, R292). -/
def enterEngine (c : Iss) (i : Instr) (vals : Lanes) : Eff :=
  enterBuffer c i [] vals [] fun id => countIn c.gid id (engClass i)

/-- The operands of a command are in place: it goes on as `k` says. -/
def sendEngine (c : Iss) (mis alloc : List (Nat × Nat)) (k : Eff) : Res := misaligned mis (unallocated c.tm alloc (.done k))

/-- A command of no bytes completes at issue (R374). -/
def emptyEngine (c : Iss) (i : Instr) (arr : Elem) : Eff := fresh fun id =>
  seqs [countIn c.gid id (engClass i), addArrival c.g.team (arrivalOf arr) 0, deliver c.gid c.t (sbAt i (c.t + 1)), retireOp c.gid id]

/-- `CPY` (R165, R373, R374). A count of 0 completes at issue, and adds 0 to the arrival word. -/
def execCpy (h : Head) (dir : CpyDir) (d : Dst) (a b e : Src) (s : State) : Host.Outcome State Fault Refusal :=
  let i : Instr := .cpy h dir d a b e
  issue i s fun c s =>
    let g := cpyGlo dir
    let fd := c.unis 0 (Dst.asSrc d) (addrRegs g.1)
    let fa := if g.2 then c.unis 1 a 2 else [c.offsetA a]
    let n := c.uni 2 b 0
    let w := c.uni 3 e 0
    let adr := if g.1 then inSlot 0 fd ++ inSlot 1 fa else []
    refusePoison c s (adr.filter (fun p => p.1 < 2) ++ [(2, n), (3, w)]) <|
      if 2 ^ 24 < n.val.toNat || (g.1 && w.val ≠ 0xFFFFFFFF#32) then .trap .illop 0#64
      else sendEngine c
        (ifLow c fd 4 ++ ifLow c fa 4 ++ [(n.val.toNat, 4)] ++ arrivalCheck w 4)
        ((if g.1 then [] else ifClean fd (numOf fd, n.val.toNat)) ++ (if g.2 then [] else ifClean fa (numOf fa, n.val.toNat))
          ++ arrivalCheck w 4)
        (if n.val = 0#32 then emptyEngine c i w else enterEngine c i (fd ++ fa ++ [n, w]))

/-- The bit of the issuing frame in a frame mask (R174). -/
def maskBit (frame : Nat) : Nat := frame % 16

/-- The issue of a `TLD` or `TST` (R165, R171, R462). -/
def boxIssue (c : Iss) (s : State) (i : Instr) (load mc : Bool) (d : Dst) (a b e : Src) : Res :=
  let fd := c.uni 0 (Dst.asSrc d) 0
  let rc := c.unis 1 a 16
  let x := numOf rc
  let rank := recRank x
  let held := min rank (min (128 - b.idx.toNat) (16 * c.tm.sgr - b.idx.toNat))
  let coords := if (firstBad (rc.drop 2)).isSome then [] else c.unis 2 b held
  let fc := c.unis 3 e (if mc then 2 else 1)
  let w := fc.headD (clean 0#32)
  let m := (fc.getD 1 (clean 0#32)).val.toNat
  let base := rc.take 2
  let bx := Shape.ofNum x
  refusePoison c s ((if load then [] else (0, fd) :: inSlot 1 base) ++ inSlot 1 (rc.drop 2) ++ inSlot 2 coords ++ inSlot 3 fc) <|
    if recBad x (lane base 1).poi mc || 128 < b.idx.toNat + rank
      || (mc && (2 ^ 16 ≤ m || !m.testBit (maskBit c.g.frame))) || (!load && w.val ≠ 0xFFFFFFFF#32) then .trap .illop 0#64
    else
      let mis := ifLow c base 16 ++ ifClean [fd] (fd.val.toNat, if bx.perm = 0 then 4 else 512) ++ arrivalCheck w 4
      misaligned mis <|
        if beyond c.tm .s b.idx.toNat rank then .trap .alloc (fieldInfo 2 (srcField b))
        else unallocated c.tm (ifClean [fd] (fd.val.toNat, bx.bytes) ++ arrivalCheck w 4)
          (.done (enterEngine c i ([fd] ++ rc ++ coords ++ fc)))

/-- `TLD` (R461 to R463). -/
def execTld (h : Head) (mc : Bool) (d : Dst) (a b e : Src) (s : State) : Host.Outcome State Fault Refusal :=
  issue (.tld h mc d a b e) s fun c s => boxIssue c s (.tld h mc d a b e) true mc d a b e

/-- `TST` (R461, R462, R464). -/
def execTst (h : Head) (d : Dst) (a b e : Src) (s : State) : Host.Outcome State Fault Refusal :=
  issue (.tst h d a b e) s fun c s => boxIssue c s (.tst h d a b e) false false d a b e

/-- The issue of a `GATH` or a `SCAT` (R165, R400, R445). -/
def rowIssue (c : Iss) (s : State) (i : Instr) (load : Bool) (d : Dst) (a b e : Src) : Res :=
  let fd := c.uni 0 (Dst.asSrc d) 0
  let de := c.unis 1 a 4
  let fb := c.uni 2 b 0
  let w := c.uni 3 e 0
  let v := [fd] ++ de ++ [fb, w]
  let f := gathFields v
  let base := de.take 2
  refusePoison c s ((if load then [] else (0, fd) :: inSlot 1 base) ++ inSlot 1 (de.drop 2) ++ (if load then [] else [(2, fb)])
      ++ [(3, w)]) <|
    if f.2.1 < 4 || 65536 < f.2.1 || f.2.2 = 0 || 65536 < f.2.2 || (!load && w.val ≠ 0xFFFFFFFF#32) then .trap .illop 0#64
    else sendEngine c
      (ifLow c base 4 ++ [(f.2.1, 4)] ++ ifClean [fd] (fd.val.toNat, 4) ++ ifClean [fb] (fb.val.toNat, 4) ++ arrivalCheck w 4)
      (ifClean [fd] (fd.val.toNat, f.2.1 * f.2.2) ++ ifClean [fb] (fb.val.toNat, 4 * f.2.2) ++ arrivalCheck w 4)
      (enterEngine c i v)

/-- `GATH` (R400, R401). -/
def execGath (h : Head) (d : Dst) (a b e : Src) (s : State) : Host.Outcome State Fault Refusal :=
  issue (.gath h d a b e) s fun c s => rowIssue c s (.gath h d a b e) true d a b e

/-- `SCAT` (R445, R446). -/
def execScat (h : Head) (d : Dst) (a b e : Src) (s : State) : Host.Outcome State Fault Refusal :=
  issue (.scat h d a b e) s fun c s => rowIssue c s (.scat h d a b e) false d a b e

/-- A collective by its fields (Table 15.6) and its kind. -/
structure Coll where
  kind  : CollKind
  rop   : CollOp
  tbase : Nat
  nmm1  : Nat
  root  : Nat
  nelem : Nat
  deriving DecidableEq, Repr

/-- Bytes of a block of a collective (R371). -/
def Coll.block (k : Coll) : Nat := k.nelem * (if k.rop = .bfadd then 2 else 4)

/-- The collective that an operation contributes to, with its `CKEY`. -/
def collOf (o : Op) : Option (Coll × Word) :=
  match o.ins with
  | .coll _ kind rop .. =>
    let x := numOf ((o.vals.drop 1).take 8)
    some (⟨kind, rop, bitsOf x 47 0, bitsOf x 55 48, bitsOf x 63 56, bitsOf x 84 64⟩, BitVec.ofNat 32 (bitsOf x 127 96))
  | _ => none

/-- Blocks that rank `r` reads and writes (Table 15.7). -/
def Coll.reads (k : Coll) (r : Nat) : Nat :=
  match k.kind with
  | .bcast => if r = k.root then 1 else 0
  | .redscat => k.nmm1 + 1
  | _ => 1

/-- Blocks that rank `r` writes (Table 15.7). -/
def Coll.writes (k : Coll) (r : Nat) : Nat :=
  match k.kind with
  | .reduce => if r = k.root then 1 else 0
  | .allgather => k.nmm1 + 1
  | _ => 1

/-- `COLL` at issue (R165, R369, R370). -/
def execColl (h : Head) (kind : CollKind) (rop : CollOp) (d : Dst) (a b e : Src) (s : State) :
    Host.Outcome State Fault Refusal :=
  let i : Instr := .coll h kind rop d a b e
  issue i s fun c s =>
    let fd := c.uni 0 (Dst.asSrc d) 0
    let de := c.unis 1 a 8
    let fb := c.uni 2 b 0
    let w := c.uni 3 e 0
    let x := numOf de
    let k : Coll := ⟨kind, rop, bitsOf x 47 0, bitsOf x 55 48, bitsOf x 63 56, bitsOf x 84 64⟩
    let r := c.tm.index - k.tbase
    if !(c.nd.elim false fun n => n.eff.gang) || (rop ≠ .fadd && (kind = .bcast || kind = .allgather)) then .trap .illop 0#64
    else refusePoison c s (inSlot 1 de ++ [(3, w)]) <|
      if bitsOf x 95 85 ≠ 0 || bitsOf x 255 128 ≠ 0 || k.nmm1 = 0 || k.nelem = 0 || 1048576 < k.nelem || k.nmm1 < k.root
        || (c.nd.elim 0 fun n => n.eff.nteam) ≤ k.tbase + k.nmm1 || c.tm.index < k.tbase || k.tbase + k.nmm1 < c.tm.index
        || (rop = .bfadd && k.nelem % 2 = 1) then .trap .illop 0#64
      else sendEngine c
        (ifClean [fd] (fd.val.toNat, 4) ++ ifClean [fb] (fb.val.toNat, 4) ++ arrivalCheck w 4)
        ((if k.writes r = 0 then [] else ifClean [fd] (fd.val.toNat, k.writes r * k.block))
          ++ (if k.reads r = 0 then [] else ifClean [fb] (fb.val.toNat, k.reads r * k.block)) ++ arrivalCheck w 4)
        (enterEngine c i ([fd] ++ de ++ [fb, w]))

end Sys2Proof.Machine
end

