-- ==== Sys2Proof/Machine/Control.lean ====
section
/-!
DEFINITION. Control.lean: branches, meeting points, exit, barriers, supersteps, sleep (R30 to R40, R178, R179, R331, R350,
R356 to R361, R383, R425, R426, R443, R453, R454).
-/
namespace Sys2Proof.Machine

/-- The target of a B-format branch (R331): its own address + 12 × offset. -/
def branchTo {w : Nat} (pc : BitVec 57) (off : BitVec w) : BitVec 57 := pc + off.signExtend 57 * 12#57

/-- Threads go to new addresses by a taken branch: the next issue is 4 clocks on at the earliest (R67). -/
def jump (c : Iss) (m : Mask) (f : Nat → BitVec 57) : Eff :=
  upGroup c.gid fun g => { g.mapTh m fun n th => { th with pc := f n } with ready := max g.ready (c.t + 4) }

/-- `BRA` (R356). -/
def execBra (h : Head) (off : BitVec 24) (s : State) : Host.Outcome State Fault Refusal :=
  issue (.bra h off) s fun c _ => .done (jump c c.act fun _ => branchTo c.pc off)

/-- Continuation slots of a quadrant's helper in use (R32). -/
def State.helperUse (s : State) (frame quadrant : Nat) : Nat :=
  (s.groups.filter fun kv => kv.2.cont.isSome && kv.2.frame = frame && kv.2.rod / 4 = quadrant).length

/-- The continuation of lane `n` (R35): a copy of the group with that one thread, whose first instruction issues at `at`. -/
def Group.eject (g : Group) (gid n at_ : Nat) : Group :=
  { g with
    cont := some (gid, n)
    threads := tab32 fun k => if k = n then { g.th k with st := .run, age := 0 } else { thread0 with st := .exited }
    counted := []
    join := 0
    joinAddr := 0xFFFFFFFF#32
    hold := .none
    ready := at_
    last := none
    active := none
    replays := g.replays.filter fun r => r.m.has n
    deferred := []
    markNext := false
    resume := 0#32
    past := []
    resuming := false }

/-- The threads of `m` are ejected (R32, R35): each runs on as a continuation on the helper of the rod's quadrant. -/
def ejectAll (gid : Nat) (m : Mask) (meet : Word) : Eff :=
  andThen (each m.lanes fun n => freely fun k => fresh fun id => on fun s =>
      match s.groups.find gid with
      | some g => act (.group (Config.contBase + id) (some (g.eject gid n (s.now + delay 8 40 k))))
      | none => skip)
    (upGroup gid fun g => { g.mapTh m fun _ th => { th with st := .ejected } with
      join := g.join + countOf m, joinAddr := meet, past := [] })

/-- Whether a minority of `m` threads may be ejected (R32). -/
def ejectOk (s : State) (g : Group) (m : Nat) (meet : Word) : Bool :=
  g.csr.ejth ≠ 0 && m + s.helperUse g.frame (g.rod / 4) ≤ Config.helperSlots && (g.join = 0 || g.joinAddr = meet)
    && !g.csr.tmode && g.cont.isNone

/-- `BRD` (R31, R32, R357, R358). Its new MR can meet the condition of R40 for threads held elsewhere; a continuation's MR is its
thread's, which the group sees. -/
def execBrd (h : Head) (d : Dst) (meet : BitVec 12) (off : BitVec 24) (s : State) : Host.Outcome State Fault Refusal :=
  issue (.brd h d meet off) s fun c s =>
    consuming c s (.brd h d meet off) [] true <| .done <|
      let x := mrOf (s.entryOf c.g) (branchTo c.pc meet)
      let taken := c.on
      let not := c.act &&& ~~~ c.on
      let old := fun n => out32 (c.g.th n).mr none
      let minor := if countOf not ≤ countOf taken then not else taken
      let eject := taken ≠ 0#32 && not ≠ 0#32 && countOf minor ≤ c.g.csr.ejth && ejectOk s c.g (countOf minor) x
      let stays := if eject then taken &&& ~~~ minor else taken
      seqs [upGroup c.gid fun g => g.mapTh c.act fun n th =>
          { th with mr := x, pc := if taken.has n then branchTo c.pc off else c.pc + 12 },
        { c with on := c.act, gpoi := [] }.put (.brd h d meet off) old,
        when (stays ≠ 0#32) (upGroup c.gid fun g => { g with ready := max g.ready (c.t + 4) }),
        when eject (ejectAll c.gid minor x),
        match c.g.cont with
        | some p => andThen (upGroup p.1 fun g => g.mapTh (1#32 <<< p.2) fun _ th => { th with mr := x }) (meetCheck p.1 none)
        | none => meetCheck c.gid none]

/-- Lane `L` of a register branch target. -/
def targetAt (c : Iss) (a : Src) (L : Nat) : BitVec 64 := (c.pairAt 1 a L).1

/-- A branch to register targets (R331, R360, R443): `MISALIGN` for a target that is no multiple of 4; threads whose target
has a bit above [56:0] park, their fetch failing as NOTMAP. -/
def regBranch (c : Iss) (s : State) (i : Instr) (a : Src) : Res :=
  consuming c s i [1] false <|
    let f := targetAt c a
    match c.act.lanes.find? fun n => (f n).toNat % 4 ≠ 0 with
    | some n => .trap .misalign (f n)
    | none =>
      let far := c.act.lanes.filter fun n => 2 ^ 57 ≤ (f n).toNat
      if c.g.cont.isSome && far ≠ [] then .back
      else .done <| andThen (jump c c.act fun n => (f n).setWidth 57)
        (each (far.map f).eraseDups fun v =>
          fetchFault c.gid (Mask.of fun n => far.contains n && f n = v) (v.setWidth 57) v.toNat ⟨0, 3⟩)

/-- `BRX` (R360). -/
def execBrx (h : Head) (a : Src) (s : State) : Host.Outcome State Fault Refusal :=
  issue (.brx h a) s fun c s => regBranch c s (.brx h a) a

/-- `CALL` (R361): the return address into D, and a taken branch. -/
def execCall (h : Head) (d : Dst) (off : BitVec 24) (s : State) : Host.Outcome State Fault Refusal :=
  issue (.call h d off) s fun c _ => .done <|
    andThen (c.put (.call h d off) fun _ => outW true ((c.pc + 12).zeroExtend 64) none)
      (jump c c.act fun _ => branchTo c.pc off)

/-- `RET` (R443). -/
def execRet (h : Head) (a : Src) (s : State) : Host.Outcome State Fault Refusal :=
  issue (.ret h a) s fun c s => regBranch c s (.ret h a) a

/-- A continuation ends (R37): its thread returns in state `st` at `pc`; then meeting points and retirement are looked at. -/
def contEnds (k : Nat) (st : TState) (pc : BitVec 57) : Eff := on fun s =>
  match s.groups.find k with
  | none => skip
  | some x =>
    match x.cont with
    | none => skip
    | some (parent, ln) =>
      seqs [upGroup parent fun g => (g.upTo s.now).rejoin (x.upTo (s.now + 64)) ln st pc, act (.group k none),
        meetCheck parent (if st = .held then some pc else none), retireCheck parent]

/-- `MEET` (R39, R40, R425, R426): threads whose MR names it hold there, with the MR that FA supplies at release. -/
def execMeet (h : Head) (a : Src) (s : State) : Host.Outcome State Fault Refusal :=
  issue (.meet h a) s fun c s =>
    consuming c s (.meet h a) [1] false <| .done <|
      let x := mrOf (s.entryOf c.g) c.pc
      let m := Mask.of fun n => c.on.has n && (c.g.th n).mr = x
      let v := c.src 1 a
      andThen (upGroup c.gid fun g => g.mapTh m fun n th => { th with st := .held, pc := c.pc, nmr := (lane v n).val })
        (if c.g.cont.isSome then when (m ≠ 0#32) (contEnds c.gid .held c.pc) else meetCheck c.gid (some c.pc))

/-- Trap mode ends when no thread of the trap set is left in RUN or HELD (R383). -/
def Group.leaveTrap (g : Group) : Group :=
  if g.csr.tmode && !(List.range 32).any fun n => (g.th n).inT && ((g.th n).st = .run || (g.th n).st = .held) then
    { g with csr := { g.csr with tmode := false }, threads := tab32 fun n => { g.th n with inT := false } }
  else g

/-- `EXIT` (R383). -/
def execExit (h : Head) (s : State) : Host.Outcome State Fault Refusal :=
  issue (.exit h) s fun c _ =>
    .done <|
      if c.g.cont.isSome then contEnds c.gid .exited (c.pc + 12)
      else seqs [upGroup c.gid fun g => (g.mapTh c.on fun _ th => { th with st := .exited }).leaveTrap,
        meetCheck c.gid none, retireCheck c.gid]

/-- `BAR` (R178, R196, R350): the group arrives once, naming the scoreboard that release clears; the arrival is a release, so it
waits for the group's earlier accesses. -/
def execBar (h : Head) (n : BitVec 3) (s : State) : Host.Outcome State Fault Refusal :=
  issue (.bar h n) s fun c s => .done <|
    match pendingOf s c (.bar h n) with
    | [] => arrive c.g.team n.toNat c.gid h.hint.sbs
    | l => newOp c (.bar h n) .waiting [] [] l fun _ => skip

/-- `SSTEP` (R30, R179, R454): the group is held, and arrives once it has drained. -/
def execSstep (h : Head) (s : State) : Host.Outcome State Fault Refusal :=
  issue (.sstep h) s fun c _ => .done <|
    andThen (upGroup c.gid fun g => { g with hold := .sstep false }) (soon (.sstepArrive c.gid))

/-- The number of clocks that `SLEEP` waits (R453). -/
def sleepCount (e : Elem) : Nat := if e.poi then 0 else min e.val.toNat 1048575

/-- `SLEEP` (R453). -/
def execSleep (h : Head) (a : Src) (s : State) : Host.Outcome State Fault Refusal :=
  issue (.sleep h a) s fun c _ =>
    .done <|
      let n := sleepCount (c.uni 1 a 0)
      andThen (upGroup c.gid fun g => { g with hold := .sleep (c.t + 1 + n) }) (after (1 + n) (.sleepExpiry c.gid))

end Sys2Proof.Machine
end

