-- ==== Sys2Proof/Machine/System.lean ====
section
/-!
DEFINITION. System.lean: `TRAP`, `RTT`, `CSRR`, `CSRW`, `WAITC`, `CNTR` (R162, R163, R273, R333, R368, R376, R377, R444,
R466, R469).
-/
namespace Sys2Proof.Machine

/-- `TRAP` (R466): `BRK`, with the code, returning behind the instruction. -/
def execTrap (h : Head) (code : BitVec 12) (s : State) : Host.Outcome State Fault Refusal :=
  issue (.trap h code) s fun c _ => .trapAt .brk (code.zeroExtend 64) (c.pc + 12)

/-- `RTT` (R273, R444). -/
def execRtt (h : Head) (s : State) : Host.Outcome State Fault Refusal :=
  issue (.rtt h) s fun c _ => .done (returnTrap c.gid)

/-- `GSTAT` (R96, R271, R289). -/
def GCsr.gstat (r : GCsr) : BitVec 64 :=
  (BitVec.ofBool r.stale).zeroExtend 64 ||| (BitVec.ofBool r.tmode).zeroExtend 64 <<< 1 ||| r.sidx.zeroExtend 64 <<< 4

/-- What `CSRR` reads (Table 14.8): a system CSR reads 0 outside kernel mode (R333). -/
def csrRead (c : Iss) (s : State) (n : BitVec 12) : BitVec 64 :=
  let r := c.g.csr
  match n.toNat with
  | 0 => r.gstat
  | 1 => r.tvec.zeroExtend 64
  | 2 => r.tcause.zeroExtend 64
  | 3 => r.tpc.zeroExtend 64
  | 4 => r.taddr
  | 5 => r.fpflg.zeroExtend 64
  | 6 => r.rm.zeroExtend 64 ||| (BitVec.ofBool r.ftz).zeroExtend 64 <<< 2
  | 7 => BitVec.ofNat 64 r.ejth
  | 8 => (BitVec.ofBool r.chk).zeroExtend 64
  | 9 => BitVec.ofNat 64 r.prio
  | 10 => BitVec.ofNat 64 r.vid
  | 11 => BitVec.ofNat 64 (c.nd.elim 0 Node.rcbva)
  | _ => if c.g.kernel then s.csr (Config.firmwareCsr n) else 0#64

/-- `CSRR` (R376). -/
def execCsrr (h : Head) (d : Dst) (csr : BitVec 12) (s : State) : Host.Outcome State Fault Refusal :=
  issue (.csrr h d csr) s fun c s => .done (c.put (.csrr h d csr) fun _ => outW (csrWide csr) (csrRead c s csr) none)

/-- What `CSRW` writes into the group's own CSRs (Table 14.8): bit 0 of `GSTAT` and `FPFLG` are cleared by 1s, `EJTH` and
`PRIO` saturate at 8 and at the context's ceiling. -/
def csrWrite (ceil : Nat) (n : BitVec 12) (v : BitVec 64) (r : GCsr) : GCsr :=
  match n.toNat with
  | 0 => { r with stale := r.stale && !v.getLsbD 0 }
  | 1 => { r with tvec := v.setWidth 57 }
  | 3 => { r with tpc := v.setWidth 57 }
  | 5 => { r with fpflg := r.fpflg &&& ~~~ v.setWidth 6 }
  | 6 => { r with rm := v.setWidth 2, ftz := v.getLsbD 2 }
  | 7 => { r with ejth := min 8 (v.toNat % 2 ^ 32) }
  | 8 => { r with chk := v.getLsbD 0 }
  | 9 => { r with prio := min ceil (v.toNat % 2 ^ 32) }
  | _ => r

/-- The priority ceiling of a group's context (R62): that of its lead partition. -/
def State.ceilOf (s : State) (g : Group) : Nat := s.pceil (s.lead (s.ctxOf g))

/-- `CSRW` (R377). -/
def execCsrw (h : Head) (csr : BitVec 12) (a : Src) (s : State) : Host.Outcome State Fault Refusal :=
  issue (.csrw h csr a) s fun c s =>
    consuming c s (.csrw h csr a) [1] false <|
      let v := if csrWide csr then (c.pairAt 1 a 0).1 else (c.uni 1 a 0).val.zeroExtend 64
      if (csr = 1#12 || csr = 3#12) && v.toNat % 4 ≠ 0 then .trap .misalign v
      else if csr.toNat < 0x100 then
        .done (upGroup c.gid fun g => { g with csr := csrWrite (s.ceilOf g) csr v g.csr })
      else .done (soon (.systemCsrWrite (Config.firmwareCsr csr) 8 v))

/-- `CNTR` (R163, R368): a counter's value at issue. -/
def execCntr (h : Head) (k : CtrCls) (d : Dst) (s : State) : Host.Outcome State Fault Refusal :=
  issue (.cntr h k d) s fun c _ => .done (c.put (.cntr h k d) fun _ => out32 (BitVec.ofNat 32 (c.g.counter k)) none)

/-- `WAITC` (R162, R469): it traps for the oldest deferred mark of an operation that has retired, and holds the group until
the counter is at most n. -/
def execWaitc (h : Head) (k : CtrCls) (a : Src) (s : State) : Host.Outcome State Fault Refusal :=
  issue (.waitc h k a) s fun c s =>
    consuming c s (.waitc h k a) [1] false <|
      let n := (c.uni 1 a 0).val.toNat
      if c.g.counter k ≤ n then
        match c.g.deferredOf k with
        | some d => .stop (andThen (upGroup c.gid fun g => { g with deferred := g.deferred.erase d })
            (takeTrap c.gid (trapOf d.cause) d.info c.pc c.act))
        | none => .done skip
      else .done (upGroup c.gid fun g => { g with hold := .waitc k n c.pc c.act })

/-- `WAITC_SATISFIED` (R162, R469): the group goes on, or takes the oldest deferred trap at its `WAITC`. -/
def execWaitcSatisfied (gid : Nat) (s : State) : Host.Outcome State Fault Refusal :=
  fire s <|
    match s.groups.find gid with
    | none => skip
    | some g =>
      match g.hold with
      | .waitc k n pc m =>
        if n < g.counter k then skip
        else match g.deferredOf k with
          | some d => andThen (upGroup gid fun g => { g with hold := .none, deferred := g.deferred.erase d })
              (takeTrap gid (trapOf d.cause) d.info pc m)
          | none => upGroup gid fun g => { g with hold := .none, ready := max g.ready s.now }
      | _ => skip

/-- `SLEEP_EXPIRY` (R453). -/
def execSleepExpiry (gid : Nat) (s : State) : Host.Outcome State Fault Refusal :=
  fire s <| upGroup gid fun g =>
    match g.hold with
    | .sleep t => if t ≤ s.now then { g with hold := .none } else g
    | _ => g

/-- `BARRIER_RELEASE` (R178, R350): in one clock the arrivals return to 0 and every scoreboard that they named clears. -/
def execBarrierRelease (team bar : Nat) (s : State) : Host.Outcome State Fault Refusal :=
  fire s <|
    match s.teams.find team with
    | none => skip
    | some t =>
      match t.bars.find bar with
      | none => skip
      | some b =>
        if !t.allArrived bar then skip
        else
          seqs [upTeam team fun t => { t with bars := t.bars.put bar ⟨[], !b.parity⟩ },
            each b.arrived fun p => when (p.2 ≠ 0#3) (upGroup p.1 fun g =>
              { g with sb := g.sb &&& ~~~ (1#6 <<< (p.2.toNat - 1)), sbFar := g.sbFar &&& ~~~ (1#6 <<< (p.2.toNat - 1)) })]

end Sys2Proof.Machine
end

