-- ==== Sys2Proof/Machine/Sched.lean ====
section
/-!
DEFINITION. Sched.lean: fetch, the choice of the group that issues on a rod or a helper, swaps of the active set, and what a
clock brings (R34 to R36, R67 to R73, R234, R235, R237, R276, R339).
-/
namespace Sys2Proof.Machine

/-- Bytes of a sector as a fetch finds them: a poisoned sector holds its payload in bytes 0 to 3, and its other bytes are
undefined (R250; log entry 12). -/
def fetchBytes (x : Sector) (n : Nat) : List Byte :=
  match x.poison with
  | none => x.bytes
  | some w => leBytes 4 w.toNat ++ (List.range 60).map fun k => Config.anyByte (n + k)

/-- The 12 bytes at an address of a context in a view, or the address and the reason of a lookup that fails. -/
def State.fetch (s : State) (frame ctx view : Nat) (pc : BitVec 57) : Except (Nat × Miss) (List Byte) :=
  let at_ (k : Nat) := (pc + BitVec.ofNat 57 k).toNat
  match s.lookup frame ctx (at_ 0) .exec with
  | .error x => .error (at_ 0, x)
  | .ok p =>
    let last := at_ 11
    match (if last / 65536 = at_ 0 / 65536 then .ok p else s.lookup frame ctx last .exec) with
    | .error x => .error (last / 65536 * 65536, x)
    | .ok q =>
      .ok <| (List.range 12).map fun k =>
        let a := if at_ k / 65536 = at_ 0 / 65536 then p.paOf (at_ k) else q.paOf (at_ k)
        (fetchBytes (s.sector (s.lead ctx) view (secOf a)) s.free).getD (a % 64) 0#8

/-- The instruction that a group would issue at `pc`. -/
def State.word (s : State) (g : Group) (pc : BitVec 57) : Except (Nat × Miss) (Except DecErr Instr) :=
  match s.fetch g.frame (s.ctxOf g) g.csr.vid pc with
  | .error e => .error e
  | .ok l => .ok ((decode l).map Prod.fst)

/-- The rank of a group at its rod (R62, R67). -/
def Group.rank (g : Group) : Nat := if g.csr.tmode then 24 else g.csr.prio

/-- The rank order of R67: rank, then the oldest last issue, then the group number. -/
def before (a b : Nat × Group) : Bool :=
  if a.2.rank ≠ b.2.rank then b.2.rank < a.2.rank
  else
    match a.2.last, b.2.last with
    | none, some _ => true
    | some _, none => false
    | some x, some y => x < y || (x = y && a.1 ≤ b.1)
    | none, none => a.1 ≤ b.1

/-- The number of vector reads of an instruction beyond the first of each bank (R71). -/
def extraReads (i : Instr) : Nat :=
  let banks := i.vreads.map fun r => r.2.2 % 6
  ((List.range 6).map fun b => (banks.filter fun x => x = b).length - 1).sum

/-- Whether the fault buffer of a partition keeps an instruction from issuing (R237): it is full, and the instruction has a
page lookup still to make. -/
def heldByFaults (s : State) (g : Group) (i : Instr) : Bool :=
  s.faultBufFull (partOf g.frame) &&
    match i with
    | .ld _ ls .. | .st _ ls .. | .atom _ ls .. | .acas _ ls .. | .red _ ls .. => !ls
    | .cpy _ dir .. => dir ≠ .ll
    | .ldc .. | .ldv .. | .xadd .. | .xrd .. | .tld .. | .tst .. | .gath .. | .scat .. => true
    | _ => false

/-- Whether an instruction takes an entry of the rod's store buffer (R292, R456). -/
def takesStoreEntry : Instr → Bool
  | .st .. | .atom .. | .acas .. | .red .. | .xadd .. | .xrd .. | .cpy .. | .tld .. | .tst .. | .gath .. | .scat ..
  | .coll .. => true
  | _ => false

/-- Whether an instruction takes an entry of the matrix queue (R138). -/
def takesMxEntry : Instr → Bool
  | .mma .. | .tldb .. | .azro .. | .ald .. | .ast .. | .ard .. => true
  | _ => false

/-- Whether a rod may issue instruction `i` of a group now (R67, R71 to R73, R138, R161, R178, R237, R456). -/
def eligible (s : State) (gid : Nat) (g : Group) (i : Instr) : Bool :=
  let rod := (s.rods.find (rodKey g.frame g.rod)).getD ⟨[], [], [], []⟩
  let reads := schedule s.now rod.reads i.vreads
  let coll := reads.foldl (fun m r => max m r.clk) (s.now + 1)
  let nominal := coll + (i.best - 1)
  let ex := if g.cont.isSome then true else
    coll ≤ s.now + 1 + extraReads i + 3
      && !(i.fixed && i.vecResult && nominal + 3 < freeSlot rod.slots (rod.slots.length + 1) nominal)
  (i.hint.wmask &&& g.sb) = 0#6 &&
    (skipped g i.guard ||
      (ex && !(takesStoreEntry i && Config.storeEntries ≤ rod.store.length)
        && !(takesMxEntry i && Config.mxEntries ≤
          ((s.mxq.findD g.frame []).filter fun m => m.rod = g.rod && m.start.isNone).length)
        && (match i.counter with
          | some k => g.counter k < 63
          | none => true)
        && !heldByFaults s g i
        && (match i with
          | .bar _ n => !((s.teams.find g.team).elim false fun t =>
              (t.bars.findD n.toNat ⟨[], false⟩).arrived.any fun p => p.1 = gid)
            && !(s.ops.any fun kv => kv.2.gid = gid && match kv.2.ins with
              | .bar _ k => k = n
              | _ => false)
          | _ => true)))

/-- Whether a unit has stopped for the halt or cut of a context (R276, R282). -/
def State.unitStopped (s : State) (ctx : Nat) (u : StopUnit) : Bool :=
  (s.ctxs.find ctx).elim false fun c => c.run = .halted || c.stopped.contains u

/-- Whether a group can be asked for an instruction in this clock: nothing holds it, and it has a thread to run. -/
def askable (s : State) (g : Group) : Bool :=
  g.hold = .none && g.ready ≤ s.now && g.swapEnd ≤ s.now && g.pc?.isSome
    && !s.unitStopped (s.ctxOf g) (.rod g.frame g.rod)

/-- What a turn brings: nothing, the issue of an instruction, or something else in its place. -/
inductive Turn where
  | idle
  | issue (gid : Nat) (i : Instr)
  | other (e : Eff)

/-- The first of the ordered groups that can issue (R67). A trap that awaits its threads is taken before the fetch (R221, R244, R259).
A fetch that fails parks its threads and the turn is taken again; an undecodable word raises `ILLOP` (R235, R339). -/
def firstTurn (s : State) : List (Nat × Group) → Turn
  | [] => .idle
  | (k, g0) :: l =>
    let g := g0.upTo s.now
    match g.pc? with
    | none => firstTurn s l
    | some pc =>
      match doomed g (g.atPc pc) with
      | some d => .other (andThen (act (.turns (s.turns.drop 1))) (andThen (act (.group k (some g))) (takeDoom k g (g.atPc pc) pc d)))
      | none =>
      match s.word g pc with
      | .error (va, x) => .other (fetchFault k (g.atPc pc) pc va x)
      | .ok (.error _) =>
        .other (andThen (act (.turns (s.turns.drop 1)))
          (if g.cont.isSome then handBack k pc else takeTrap k .illop 0#64 pc (g.atPc pc)))
      | .ok (.ok i) => if eligible s k g i then .issue k i else firstTurn s l

/-- Insertion into a list in the order `lt`. -/
def insertBy (lt : Nat × Group → Nat × Group → Bool) (a : Nat × Group) : List (Nat × Group) → List (Nat × Group)
  | [] => [a]
  | b :: l => if lt a b then a :: b :: l else b :: insertBy lt a l

/-- A list in the order `lt`. -/
def sortBy (lt : Nat × Group → Nat × Group → Bool) : List (Nat × Group) → List (Nat × Group)
  | [] => []
  | a :: l => insertBy lt a (sortBy lt l)

/-- Turn key of a helper; those of rods lie below. -/
def helperKey (frame quadrant : Nat) : Nat := 65536 + 4 * frame + quadrant

/-- The order of a helper's continuations: the one that issued longest ago first, which is round-robin (R35). -/
def roundRobin (a b : Nat × Group) : Bool := (a.2.last.getD 0) < (b.2.last.getD 0) || (a.2.last.getD 0 = b.2.last.getD 0 && a.1 ≤ b.1)

/-- The turn of a rod or a helper in this clock. -/
def turnOf (s : State) (k : Nat) : Turn :=
  if k < 65536 then
    firstTurn s (sortBy before (s.groups.filter fun kv =>
      kv.2.cont.isNone && rodKey kv.2.frame kv.2.rod = k && kv.2.active.isSome && askable s kv.2))
  else
    firstTurn s (sortBy roundRobin (s.groups.filter fun kv =>
      kv.2.cont.isSome && helperKey kv.2.frame (kv.2.rod / 4) = k && askable s kv.2))

/-- The fills that the fetch of an issuing group makes in its TLB (R234). -/
def fetchFill (s : State) (gid : Nat) : Eff :=
  match s.groups.find gid with
  | none => skip
  | some g =>
    match (g.upTo s.now).pc? with
    | none => skip
    | some pc => andThen (fillTlb g.frame (s.ctxOf g) pc.toNat) (fillTlb g.frame (s.ctxOf g) (pc + 11).toNat)

/-- Whether what holds a group is a long-latency dependence (R68): an operation held for its order (R391, R436, R460) is none, nor is a
fatal fault. -/
def Hold.long : Hold → Bool
  | .waitc .. | .fewait .. | .sstep _ | .sleep _ => true
  | _ => false

/-- A group waits on a long-latency dependence (R68); with every thread in RUN parked it waits on one too (R241). -/
def blocked (s : State) (g0 : Group) : Bool :=
  let g := g0.upTo s.now
  g.hold.long ||
    match g.pc? with
    | none => true
    | some pc =>
      g.sbFar ≠ 0#6 &&
        match s.word g pc with
        | .ok (.ok i) => (i.hint.wmask &&& g.sbFar) ≠ 0#6
        | _ => false

/-- The groups of a rod, without continuations. -/
def State.rodGroups (s : State) (k : Nat) : List (Nat × Group) :=
  s.groups.filter fun kv => kv.2.cont.isNone && rodKey kv.2.frame kv.2.rod = k

/-- The ready pending groups of a rod. -/
def State.readyPending (s : State) (k : Nat) : List (Nat × Group) :=
  (s.rodGroups k).filter fun kv => kv.2.active.isNone && !blocked s kv.2 && kv.2.swapEnd ≤ s.now

/-- The order in which a swap chooses a pending group (R69): highest rank, then ready longest. -/
def pendingFirst (a b : Nat × Group) : Bool :=
  b.2.rank < a.2.rank || (a.2.rank = b.2.rank && (a.2.since < b.2.since || (a.2.since = b.2.since && a.1 ≤ b.1)))

/-- The pending group that a swap brings in. -/
def State.nextIn (s : State) (k : Nat) : Option (Nat × Group) := (sortBy pendingFirst (s.readyPending k)).head?

/-- A group leaves the active set: latches and operand cache become invalid, and HM 0 (R69, R97). -/
def swapOut (gid : Nat) : Eff := on fun s =>
  upGroup gid fun g => { (g.upTo s.now).invalidate with active := none, hm := 0#4, since := s.now, yielded := false }

/-- A group enters the active set; it is eligible, and its residence counts, from the fourth clock (R69, R70). -/
def swapIn (gid : Nat) : Eff := on fun s =>
  upGroup gid fun g => { g with active := some (s.now + 4), swapEnd := s.now + 4, since := s.now, yielded := false }

/-- A swap of the active group `gid` for the pending group that R69 chooses on its rod. -/
def swapFor (gid : Nat) : Eff := on fun s =>
  match s.groups.find gid with
  | none => skip
  | some g =>
    match s.nextIn (rodKey g.frame g.rod) with
    | none => skip
    | some (k, _) => andThen (swapOut gid) (swapIn k)

/-- An empty slot of a rod's active set is filled (R69). -/
def fillSlot (k : Nat) : Eff := on fun s =>
  if ((s.rodGroups k).filter fun kv => kv.2.active.isSome).length < Config.activeSlots then
    match s.nextIn k with
    | some (p, _) => swapIn p
    | none => skip
  else skip

/-- Whether an active group has been held more than 16 clocks and can be swapped (R69). -/
def heldLong (s : State) (g : Group) : Bool :=
  g.active.isSome && blocked s g && s.now - g.since > 16 && !(s.readyPending (rodKey g.frame g.rod)).isEmpty

/-- `SWAP_HELD_GROUP` (R69). -/
def execSwapHeldGroup (gid : Nat) (s : State) : Host.Outcome State Fault Refusal :=
  fire s <|
    match s.groups.find gid with
    | some g => when (heldLong s g) (swapFor gid)
    | none => skip

/-- Whether a group's residence of 64 clocks gives its slot to a ready pending group of equal rank (R69). -/
def residenceOver (s : State) (g : Group) : Bool :=
  !g.csr.tmode && g.active.elim false (fun t => 64 ≤ s.now - t)
    && (s.nextIn (rodKey g.frame g.rod)).elim false fun p => p.2.rank = g.rank

/-- `SWAP_RESIDENCE_EXPIRY` (R69). -/
def execSwapResidenceExpiry (gid : Nat) (s : State) : Host.Outcome State Fault Refusal :=
  fire s <|
    match s.groups.find gid with
    | some g => when (residenceOver s g) (swapFor gid)
    | none => skip

/-- The order in which the outgoing group of an outranked rod is chosen (R69): the lowest rank, then the oldest last issue. -/
def lowestFirst (a b : Nat × Group) : Bool :=
  a.2.rank < b.2.rank || (a.2.rank = b.2.rank && (before a b))

/-- The active group of a rod that a ready pending group outranks. -/
def State.outranked (s : State) (k : Nat) : Option Nat :=
  match s.nextIn k, sortBy lowestFirst ((s.rodGroups k).filter fun kv => kv.2.active.isSome && !kv.2.csr.tmode) with
  | some p, (a, g) :: _ => if g.rank < p.2.rank then some a else none
  | _, _ => none

/-- `SWAP_OUTRANKED` (R69). -/
def execSwapOutranked (rod : Nat) (s : State) : Host.Outcome State Fault Refusal :=
  fire s <| onSome (s.outranked rod) swapFor

/-- Whether a group that issued an instruction with `YIELD` gives up its slot (R69). -/
def yields (s : State) (g : Group) : Bool :=
  g.active.isSome && g.yielded && !g.csr.tmode
    && (s.nextIn (rodKey g.frame g.rod)).elim false fun p => g.rank ≤ p.2.rank

/-- The clocks since which groups are held or ready (R69): reset while an active group is not held, and while a pending one
is not ready. -/
def trackSince : Eff := on fun s =>
  each s.groups fun kv =>
    let reset := if kv.2.active.isSome then !blocked s kv.2 else blocked s kv.2
    when (kv.2.cont.isNone && reset && kv.2.since ≠ s.now) (upGroup kv.1 fun g => { g with since := s.now })

/-- The swaps that a clock brings on a rod (R69): a `YIELD` counts in the clock after its issue alone. That the triggers are tested in
this order, and that a group that leaves is ready to enter another slot at once, is the model's choice (DESIGN CHOICE, log entry 78). -/
def rodSwaps (k : Nat) : Eff := on fun s =>
  let gs := (s.rodGroups k).filter fun kv => kv.2.active.isSome
  let ends : Eff := each gs fun kv => when kv.2.yielded (upGroup kv.1 fun g => { g with yielded := false })
  if (s.rodGroups k).length = gs.length then ends
  else
    seqs [each (List.range (Config.activeSlots - gs.length)) fun _ => fillSlot k,
      each gs fun kv => on fun s => when ((s.groups.find kv.1).elim false (heldLong s)) (soon (.swapHeldGroup kv.1)),
      on fun s => when (s.outranked k).isSome (soon (.swapOutranked k)),
      each gs fun kv => on fun s => when ((s.groups.find kv.1).elim false (residenceOver s)) (soon (.swapResidenceExpiry kv.1)),
      each gs fun kv => on fun s => when ((s.groups.find kv.1).elim false (yields s)) (swapFor kv.1), ends]

/-- The rods that hold groups. -/
def State.busyRods (s : State) : List Nat :=
  sortNat ((s.groups.filter fun kv => kv.2.cont.isNone).map fun kv => rodKey kv.2.frame kv.2.rod)

/-- The turns of a clock: every rod with groups, then every helper with continuations. -/
def State.allTurns (s : State) : List Nat :=
  s.busyRods ++ sortNat ((s.groups.filter fun kv => kv.2.cont.isSome).map fun kv => helperKey kv.2.frame (kv.2.rod / 4))

/-- What a rod keeps of its past (R71, R73). -/
def Rod.prune (t : Nat) (r : Rod) : Rod :=
  { r with reads := r.reads.filter fun p => t < p.2 + 1, slots := r.slots.filter fun p => t ≤ p.clk + 56,
           rets := r.rets.filter fun p => t ≤ p.clk + 3 }

/-- The next clock (log entry 3): results due land, records of past clocks are dropped, steps that are due are taken up,
the active sets change, and every rod and helper has its turn. -/
def tick : Eff := on fun s =>
  seqs [act (.now (s.now + 1)),
    on fun s => each s.groups fun kv =>
      let g := kv.2.upTo s.now
      let g := { g with wlog := g.wlog.filter fun w => s.now ≤ w.clk + 48 }
      when (g ≠ kv.2) (act (.group kv.1 (some g))),
    on fun s => each s.rods fun kv => when (kv.2.prune s.now ≠ kv.2) (act (.rod kv.1 (some (kv.2.prune s.now)))),
    on fun s => andThen (act (.agenda (s.agenda ++ (s.timers.filter fun p => p.1 ≤ s.now).map Prod.snd)))
      (act (.timers (s.timers.filter fun p => s.now < p.1))),
    trackSince,
    on fun s => each s.busyRods rodSwaps,
    on fun s => act (.turns (if s.power = .up then s.allTurns else []))]

/-- Takes one turn: the next state for a turn that issues nothing, or the instruction and the state in which it issues. -/
def takeTurn (s : State) (k : Nat) (rest : List Nat) : Sum State (Instr × State) :=
  match turnOf s k with
  | .idle => .inl (s.run [.turns rest])
  | .other e => .inl (s.run (e s))
  | .issue gid i => .inr (i, s.run (andThen (fetchFill s gid) (fun _ => [.turns rest, .cur gid]) s))

end Sys2Proof.Machine
end

