-- ==== Sys2Proof/Machine/Deliver.lean ====
section
/-!
DEFINITION. Deliver.lean: what the engines do with a command after its issue: segments, sectors, page faults, escapes, lost writes,
multicast, collectives, completion (R161, R164, R166, R168, R169, R171 to R177, R195, R246, R254, R259, R260, R283, R306, R371, R372,
R374, R401, R446, R463, R464, R473, R477).
-/
namespace Sys2Proof.Machine

/-- The 64 KiB region of a nibble address. -/
def nibRegion (a : Nat) : Nat := a / 131072

/-- The virtual sector of a nibble address. -/
def nibSec (a : Nat) : Nat := a / 128

/-- The global address of a nibble, if it has one. -/
def Nib.glo? : Nib → Option Nat
  | .glo a => some a
  | _ => none

/-- The global address that a command writes with nibble `i`. -/
def Cmd.dstGlo (c : Cmd) (i : Nat) : Option Nat := (c.dst i).bind Nib.glo?

/-- What is withheld at a global address (R246). -/
def heldAt (o : Op) (wr : Bool) (a : Option Nat) : Option Withheld :=
  a.bind fun a => o.held.find? fun h => h.wr = wr && h.va / 65536 = nibRegion a

/-- Whether a nibble waits for a REPLAY or CANCEL. -/
def withheld (c : Cmd) (o : Op) (i : Nat) : Bool :=
  (heldAt o false (c.src i).glo?).elim false (fun h => !h.gone) || (heldAt o true (c.dstGlo i)).elim false fun h => !h.gone

/-- Whether a nibble has been dropped by a CANCEL (R246). -/
def dropped (c : Cmd) (o : Op) (i : Nat) : Bool := (heldAt o true (c.dstGlo i)).elim false fun h => h.gone

/-- Bytes that a list of nibbles counts in an arrival word: each byte with its low nibble. -/
def countNibs (l : List Nat) : Nat := (l.filter fun i => i % 2 = 0).length

/-- Segments of a command (R283). -/
def Cmd.segs (c : Cmd) : Nat := if c.seg = 0 then 0 else ceilDiv c.bytes c.seg

/-- The nibbles of segment `n`. -/
def Cmd.segNibs (c : Cmd) (n : Nat) : List Nat :=
  let lo := 2 * c.seg * n
  (List.range (min (2 * c.bytes) (lo + 2 * c.seg) - lo)).map fun k => lo + k

/-- The nibbles of the segments that have started. -/
def Cmd.started (c : Cmd) (o : Op) : List Nat := List.range (min (2 * c.bytes) (2 * c.seg * o.seg))

/-- A `TLD.MC` that merges with other requests (R175, R463): in the base view, with nothing poisoned that R165 handles. -/
def merges (o : Op) : Bool :=
  match o.ins with
  | .tld _ mc .. => mc && o.view = 0 && (firstBad (o.vals.take 3)).isNone
  | _ => false

/-- The team of an operation. -/
def State.teamOf (s : State) (o : Op) : Team :=
  (s.teams.find o.team).getD ⟨0, 0, 0, 0, false, [], 0, [], 0, 0, 0, 0, 0, 0, 0, [], [], [], []⟩

/-- The command of an operation. -/
def State.cmd (s : State) (o : Op) : Cmd := cmdOf (s.teamOf o) o

/-- The nibbles of a piece that nothing withholds (R166, R246). -/
def pieceNibs (c : Cmd) (o : Op) (p : Piece) : List Nat :=
  let all :=
    if merges o then (List.range (2 * c.bytes)).filter fun i => ((c.src i).glo?).elim false fun a => nibSec a = p.key
    else if c.intoLs then ((List.range 128).map fun k => 128 * p.key + k).filter fun i => i < 2 * c.bytes
    else (c.near p.key).filter fun i =>
      (c.dstGlo i).elim false (fun a => nibSec a = p.key) && 2 * c.seg * p.first ≤ i && i < 2 * c.seg * o.seg
  all.filter fun i => !withheld c o i && !dropped c o i &&
    match p.only with
    | none => true
    | some r => (if r % 2 = 1 then c.dstGlo i else (c.src i).glo?).elim false fun a => nibRegion a = r / 2

/-- The page of a virtual sector for an operation. -/
def sectorAcc (s : State) (o : Op) (sec : Nat) : Option Acc :=
  match s.findPage o.frame o.ctx (64 * sec) with
  | .ok p => some ⟨0, 64 * sec, some p, [], false, []⟩
  | .error _ => none

/-- The virtual sectors that a list of nibbles reads. -/
def readSecs (c : Cmd) (o : Op) (l : List Nat) : List Nat :=
  sortNat (l.filterMap fun i => ((c.src i).glo?).bind fun a => if (heldAt o false (some a)).isSome then none else some (nibSec a))

/-- A piece for a list of nibbles, without those that are withheld. -/
def pieceFor (s : State) (c : Cmd) (o : Op) (key first : Nat) (only : Option Nat) (l : List Nat) : Piece :=
  { key := key, first := first, only := only, reads := (readSecs c o l).filterMap (sectorAcc s o),
    write := if c.intoLs then none else sectorAcc s o key, parked := false, full := false }

/-- The keys of the pieces that a list of nibbles falls into. -/
def pieceKeys (c : Cmd) (o : Op) (l : List Nat) : List Nat :=
  sortNat (l.filterMap fun i =>
    if merges o then ((c.src i).glo?).map nibSec else if c.intoLs then some (i / 128) else (c.dstGlo i).map nibSec)

/-- Whether nibble `i` of a piece falls under a key. -/
def inKey (c : Cmd) (o : Op) (key i : Nat) : Bool :=
  if merges o then ((c.src i).glo?).elim false fun a => nibSec a = key
  else if c.intoLs then i / 128 = key else (c.dstGlo i).elim false fun a => nibSec a = key

/-- Pieces of a list of nibbles. -/
def piecesOf (s : State) (c : Cmd) (o : Op) (first : Nat) (only : Option Nat) (l : List Nat) : List Piece :=
  let l := l.filter fun i => !withheld c o i && !dropped c o i
  (pieceKeys c o l).map fun k => pieceFor s c o k first only (l.filter (inKey c o k))

/-- New pieces join those of an operation: one that falls under a piece still whole adds its sectors to that piece. -/
def addPieces (s : State) (c : Cmd) (o : Op) (new : List Piece) : List Piece :=
  let grow (p : Piece) : Piece :=
    if p.only.isNone && new.any fun q => q.key = p.key then { p with reads := (readSecs c o (pieceNibs c o p)).filterMap (sectorAcc s o) }
    else p
  o.parts.map grow ++ new.filter fun q => !o.parts.any fun p => p.only.isNone && p.key = q.key

/-- Whether a nibble's write escapes its view (R260). -/
def nibEscapes (s : State) (c : Cmd) (o : Op) (i : Nat) : Bool :=
  o.view ≠ 0 && match c.dstGlo i with
    | none => false
    | some a => match s.findPage o.frame o.ctx (a / 2) with
      | .ok p => escapes s p (a / 2)
      | .error _ => false

/-- The engine of a frame that performs a command (Table 12.3). -/
def engineUnit (o : Op) : StopUnit :=
  match o.ins with
  | .gath .. | .scat .. => .gather o.frame
  | .coll .. => .coll o.frame
  | _ => .copy o.frame

/-- Whether an engine starts no segment of a command: its context is cut or halted there (R276, R282, R283). -/
def holdsStart (s : State) (o : Op) : Bool :=
  s.unitStopped o.ctx (engineUnit o) || (s.ctxs.find o.ctx).elim true fun c => c.run = .cutting || c.run = .cut

/-- Whether an engine delivers nothing more of a command: its context is halted there (R276). -/
def holdsDelivery (s : State) (o : Op) : Bool :=
  s.unitStopped o.ctx (engineUnit o) && (s.ctxs.find o.ctx).elim true fun c => c.run = .halting || c.run = .halted

/-- The record of an engine's page fault (R477). -/
def engineRec (s : State) (id : Nat) (o : Op) (wr : Bool) (x : Miss) (va bytes rcnt : Nat) : FRec :=
  { part := partOf o.frame, va := va % 2 ^ 57, pc := o.pc, kind := if wr then 5 else 4, cause := x.cause, pgsz := x.pgsz,
    frame := o.frame, gslot := gslotOf o.gid, fdom := o.fdom, vid := o.view, rcnt := rcnt,
    refault := 0 < rcnt, reissue := false, status := 0, seq := 0#32, payload := 0#32,
    lmask := 1#32 <<< (Mask.lanes o.mask).headD 0, ctx := o.ctx, team := (s.teams.find o.team).elim 0 Team.index,
    aux := BitVec.ofNat 64 bytes, gid := o.gid, op := id, cmd := none, pages := [va % 2 ^ 57] }

/-- The global nibble addresses that a command reads or writes. -/
def Cmd.addrs (c : Cmd) (wr : Bool) : List Nat :=
  (List.range (2 * c.bytes)).filterMap fun i => if wr then c.dstGlo i else (c.src i).glo?

/-- The bytes of a command in a range of `size` bytes, the `n`-th of that size: the lowest, and how many (R246, R477). -/
def inRegion (c : Cmd) (wr : Bool) (size n : Nat) : Nat × Nat :=
  let l := (c.addrs wr).filter fun a => a / 2 / size = n
  (l.foldl (fun m a => min m (a / 2)) (size * n + size - 1), (l.length + 1) / 2)

/-- One region of a command is looked up (R246): a failing page is recorded once, and its bytes are withheld in every region that it
covers. -/
def lookRegion (id : Nat) (c : Cmd) (wr : Bool) (r rcnt : Nat) : Eff := on fun s => onSome (s.ops.find id) fun o =>
  if o.held.any fun h => h.wr = wr && h.va / 65536 = r then skip
  else
    match s.lookup o.frame o.ctx (65536 * r) (if wr then .write else .read) with
    | .ok _ => fillTlb o.frame o.ctx (65536 * r)
    | .error m =>
      let x := inRegion c wr m.bytes (65536 * r / m.bytes)
      let here := sortNat (((c.addrs wr).map nibRegion).filter fun q => 65536 * q / m.bytes = 65536 * r / m.bytes)
      fault (engineRec s id o wr m x.1 x.2 rcnt) fun key => upOp id fun o =>
        { o with held := o.held ++ here.map fun q => ⟨key, (inRegion c wr 65536 q).1, x.2, wr, false⟩ }

/-- The regions that a list of nibbles reads or writes. -/
def nibRegions (c : Cmd) (wr : Bool) (l : List Nat) : List Nat :=
  sortNat (l.filterMap fun i => (if wr then c.dstGlo i else (c.src i).glo?).map nibRegion)

/-- One nibble put into a number. -/
def setNib (v n x : Nat) : Nat := v - v / 16 ^ n % 16 * 16 ^ n + x % 16 * 16 ^ n

/-- Nibbles written into one local-store word (R156, R254): each with its place in the word. -/
def LWord.putNibs (w : LWord) (l : List (Nat × Nat × Option Word)) : LWord :=
  match l.findSome? fun q => q.2.2 with
  | some p => { w with val := p, poi := true }
  | none =>
    if w.poi && l.length < 8 then w
    else { w with val := BitVec.ofNat 32 (l.foldl (fun v q => setNib v q.1 q.2.1) w.val.toNat), poi := false }

/-- Nibbles written into a team's local store: address, value, poison. -/
def putNibs (tk : Nat) (l : List (Nat × Nat × Option Word)) : Eff := upWords tk fun t =>
  { t with words := (sortNat (l.map fun q => q.1 / 8)).foldl (fun m k =>
      m.put k ((t.word k).putNibs ((l.filter fun q => q.1 / 8 = k).map fun q => (q.1 % 8, q.2)))) t.words }

/-- A sector as an engine has read it: its virtual number, bytes, poison. -/
structure Got where
  sec   : Nat
  bytes : List Byte
  poi   : Option Word

/-- Nibble `h` of a byte of a list. -/
def nibOf (l : List Byte) (n : Nat) : Nat := (l.getD (n / 2) 0#8).toNat / 16 ^ (n % 2) % 16

/-- The value and the poison of a nibble's source. -/
def readNib (t : Team) (o : Op) (l : List Got) (q : Nib) : Nat × Option Word :=
  match q with
  | .glo a =>
    match heldAt o false (some a) with
    | some h => (0, some (BitVec.ofNat 32 h.size))
    | none => match l.find? fun g => g.sec = nibSec a with
      | some g => (nibOf g.bytes (a % 128), g.poi)
      | none => (0, none)
  | .loc a =>
    let w := t.word (a / 8)
    (w.val.toNat / 16 ^ (a % 8) % 16, if w.poi then some w.val else none)
  | .lit v p => (v, p)

/-- Whether nibble `i` of a `CPY` falls into the overlap of its source and destination, so that its value is undefined (R374). -/
def overlapNib (o : Op) (i : Nat) : Bool :=
  match o.ins with
  | .cpy _ dir .. =>
    if dir = .gl || dir = .lg then false
    else
      let p := cpyVals dir o.vals
      let n := p.2.2.1.val.toNat
      let d := numOf p.1
      let a := numOf p.2.1
      (firstBad (p.1 ++ p.2.1)).isNone && a ≤ d + i / 2 && d + i / 2 < a + n
  | _ => false

/-- Whether the overlap of a global copy is left to its completion. -/
def waitsForEnd (o : Op) (i : Nat) : Bool := (match o.ins with | .cpy _ .gg .. => true | _ => false) && overlapNib o i

/-- The values of a list of nibbles, with a free byte for each of an overlap. -/
def nibVals (t : Team) (c : Cmd) (o : Op) (l : List Got) (free : Nat) (ns : List Nat) : List (Nat × Nat × Option Word) :=
  ns.map fun i =>
    if overlapNib o i then (i, (Config.anyByte (free + i / 2)).toNat / 16 ^ (i % 2) % 16, none)
    else (i, readNib t o l (c.src i))

/-- The directory and the die's RDC after an engine's read of a sector (R160, R203, R207). -/
def engineReads (o : Op) (a : Acc) : Eff := on fun s =>
  let line := accLine o false a
  let die := dieOf o.frame
  let who := s.agentOf die line
  when a.coherent
    (seqs [when (s.ownHome line && !s.agentHas who false line) (grantRead who (guardedReq s o a.pageD) line),
      touchL2 (partOf o.frame) line,
      when (who.isSome && (s.inRdc die line).isNone) (putRdc die (partOf o.frame) line { s.lineData line with dirty := false })])

/-- The sectors that a piece reads (R198, R254); lost, dead and vanished ones give their poison (R220, R225, R228). -/
def readPiece (o : Op) (p : Piece) (k : List Got → Eff) : Eff :=
  readLosses { o with accs := p.reads } fun w => on fun s =>
    let got := p.reads.map fun a =>
      let x := readAcc s o a 64
      ⟨a.adr / 64, x.1, match lossOr s o w a [] with | e :: _ => some e.val | [] => x.2⟩
    andThen (each (p.reads.filter fun a => s.homeSt o false a = .ready) (engineReads o)) (k got)

/-- Whether a source nibble is clean now. -/
def cleanNib (s : State) (t : Team) (o : Op) (q : Nib) : Bool :=
  match q with
  | .glo a => match sectorAcc s o (nibSec a) with
    | some x => (readAcc s o x 64).2.isNone
    | none => false
  | .loc a => !(t.word (a / 8)).poi
  | .lit _ p => p.isNone

/-- Whether a command writes all of a sector, with clean data, and every part of it has started (R254). -/
def coversAll (s : State) (t : Team) (c : Cmd) (o : Op) (key : Nat) : Bool :=
  let l := (c.near key).filter fun i => (c.dstGlo i).elim false fun a => nibSec a = key
  (l.all fun i => i < 2 * c.seg * o.seg && !withheld c o i && !dropped c o i && cleanNib s t o (c.src i))
    && (List.range 128).all fun n => l.any fun i => c.dstGlo i = some (128 * key + n)

/-- The bytes of a sector with nibbles put over them, in the order of the box (R464). -/
def mergeNibs (old : List Byte) (l : List (Nat × Nat)) : List Byte :=
  (List.range 64).map fun k =>
    let v := (old.getD k 0#8).toNat
    BitVec.ofNat 8 ((l.filter fun q => q.1 / 2 = k).foldl (fun v q => setNib v (q.1 % 2) q.2) v)

/-- The bytes of a sector that nibbles touch. -/
def touched (l : List (Nat × Nat)) : List Nat := sortNat (l.map fun q => q.1 / 2)

/-- The digest of an engine's write (R306): each word touched, with the bytes from the first to the last one written. -/
def engineDigest (o : Op) (va : Nat) (b : List Byte) (t : List Nat) (p : Option Word) : Eff :=
  each (sortNat (t.map fun k => k / 4)) fun w =>
    let ks := t.filter fun k => k / 4 = w
    let lo := ks.headD 0
    countDigest o (va + lo) 1 ((b.drop lo).take (ks.getLastD lo + 1 - lo)) p

/-- Runs of consecutive numbers of a rising list: first and count. -/
def runsOf (l : List Nat) : List (Nat × Nat) :=
  l.foldl (fun m k => match m.getLast? with
    | some (x, n) => if x + n = k then m.dropLast ++ [(x, n + 1)] else m ++ [(k, 1)]
    | none => [(k, 1)]) []

/-- A write that its home refuses, or that no home performs, becomes a lost store of its own, for which the command waits (R214, R221,
R225). An uncacheable write to a home on another package leaves as such and waits for its completion in the same way (R209, R216). -/
def loseWrite (id : Nat) (o : Op) (a : Acc) (b : List Byte) (t : List Nat) (p : Option Word) : Eff := fresh fun k => on fun s =>
  let ln := (Mask.lanes o.mask).headD 0
  let l : List Acc := t.map fun n =>
    ⟨ln, a.adr + n, a.page, [⟨p.getD (BitVec.ofNat 32 (b.getD n 0#8).toNat), p.isSome⟩], false, []⟩
  seqs [act (.op k (some { o with accs := l, parts := [], held := [], after := [], dest := 2 ^ 30, st := .sent, seg := 0 })),
    upOp id fun o => { o with after := o.after ++ [k] },
    match s.homeSt o true a with
    | .noPath => noteAsk k a s.now
    | .ask => andThen (noteAsk k a s.now) (each (runsOf t) fun q =>
        out (.request (s.portFor (dieOf o.frame) (secOf a.pa)) ((s.region a.pa).elim 0 Region.pkg) k
          (.uncacheableWrite ⟨.rdc s.ownPkg (dieOf o.frame), s.stampNow⟩ (64 * secOf a.pa + q.1) ((b.drop q.1).take q.2) p)))
    | _ => loseRest k o l]

/-- A sector is written at its home (R195, R254, R260, R269, R306): `l` lists nibbles of it by place, value, poison. -/
def writePiece (id : Nat) (o : Op) (a : Acc) (full : Bool) (l : List (Nat × Nat × Option Word)) : Eff := on fun s =>
  if l = [] then skip
  else
    let vals := l.map fun q => (q.1, q.2.1)
    let low := l.foldl (fun (m : Option (Nat × Word)) q => match q.2.2, m with
      | some w, none => some (q.1, w)
      | some w, some x => if q.1 < x.1 then some (q.1, w) else m
      | none, m => m) none
    let key := nibSec (2 * a.adr)
    let before := (o.lows.find? fun x => x.1 = key).map Prod.snd
    let low := match low, before with
      | some x, some y => some (if y.1 < x.1 then y else x)
      | l, _ => l
    let p := low.map Prod.snd
    let b := mergeNibs (homeAcc s o a 64).1 vals
    let t := touched vals
    let x := { a with dat := match p with | some w => [⟨w, true⟩] | none => [] }
    seqs [onSome low fun x => upOp id fun o => { o with lows := (o.lows.filter fun y => y.1 ≠ key) ++ [(key, x)] },
      noteEscape o (a.adr + t.headD 0) (t.getLastD 0 + 1 - t.headD 0) a.pageD,
      earlyFirst o a,
      engineDigest o a.adr b t p,
      if s.homeSt o true a = .ready && writePermitted s o false a then
        andThen (writeAcc o x b full) (when a.coherent (andThen (homeTakes (accLine o true a) true) (touchL2 (partOf o.frame) (accLine o true a))))
      else loseWrite id o a b t p]

/-- The bytes of a piece are moved and counted (R164, R168, R169). -/
def movePiece (id : Nat) (p : Piece) : Eff := on fun s => onSome (s.ops.find id) fun o =>
  let c := s.cmd o
  let ns := pieceNibs c o p
  readPiece o p fun got => freely fun f => on fun s =>
    let t := s.teamOf o
    let vals := nibVals t c o got f (ns.filter fun i => !waitsForEnd o i)
    seqs [if c.intoLs then
        putNibs o.team (vals.filterMap fun q => match c.dst q.1 with | some (.loc a) => some (a, q.2) | _ => none)
      else onSome p.write fun a => writePiece id o a (coversAll s t c o p.key)
        (vals.filterMap fun q => (c.dstGlo q.1).map fun d => (d % 128, q.2)),
      when c.intoLs (addArrival o.team c.arrival (countNibs ns))]

/-- What an engine looks at next: another sector at the rate of Table 7.4, the next segment, or the end. -/
def engineNext (id : Nat) : Eff := on fun s => onSome (s.ops.find id) fun o =>
  let c := s.cmd o
  let open_ := o.parts.filter fun p => !p.parked && !p.full && !(merges o && p.first = 0)
  if (s.timers.any fun p => p.2 = .engineDelivery id (o.seg - 1)) || s.agenda.contains (.engineDelivery id (o.seg - 1)) then skip
  else if open_ ≠ [] then
    if (match o.ins with | .gath .. | .scat .. => true | _ => false) || open_.length % 4 = 0 then later 1 2 (.engineDelivery id (o.seg - 1))
    else soon (.engineDelivery id (o.seg - 1))
  else if o.seg < c.segs then soon (.engineDelivery id o.seg)
  else when (o.parts = [] && o.held.all Withheld.gone) (soon (.engineComplete id))

/-- A part of a command, changed by `f` where `g` holds. -/
def upParts (id : Nat) (g : Piece → Bool) (f : Piece → Piece) : Eff :=
  upOp id fun o => { o with parts := o.parts.map fun p => if g p then f p else p }

/-- The requests of a piece, and where each stands at its home. -/
def pieceHomes (s : State) (o : Op) (p : Piece) : List (Acc × Bool × HomeSt) :=
  p.reads.map (fun a => (a, false, s.homeSt o false a)) ++ p.write.toList.map fun a => (a, true, s.homeSt o true a)

/-- Where the homes of a piece make it wait; an uncacheable write leaves without waiting. -/
def pieceWaits (s : State) (o : Op) (p : Piece) : Option (Acc × Bool × HomeSt) :=
  (pieceHomes s o p).find? fun q => q.2.2.waits && !(q.2.1 && q.1.pageD.uc && (q.2.2 = .ask || q.2.2 = .noPath))

/-- Whether a piece finds no room for its copy in the view (R259). -/
def pieceFull (s : State) (o : Op) (p : Piece) : Bool :=
  o.view ≠ 0 && match p.write with
    | none => false
    | some a => viewFull s o.part o.view ((s.nodeOf o).getD 0) (newCopies s o.part o.view [a])

/-- A piece is delivered unless a home or the view holds it (R166, R248, R249, R259); `req` takes it up again, and `k` follows a delivery. -/
def deliverPiece (id : Nat) (o : Op) (p : Piece) (req : Instr) (k : Eff) : Eff := on fun s =>
  let me : Waiting := ⟨.rdc s.ownPkg (dieOf o.frame), req, some id⟩
  let park := upParts id (fun q => q = p) fun q => { q with parked := true }
  match pieceWaits s o p with
  | some (_, _, .marked src) =>
    seqs [park, upMig src false fun m => { m with parked := m.parked ++ [me] },
      each ((pieceHomes s o p).filter fun q => q.2.2 = .marked src) fun q => homeRecord q.1.pa o.frame o.ctx (partOf o.frame), k]
  | some (a, _, .closed src) => seqs [park, upMig src true fun m => { m with parked := m.parked ++ [me] }, noteAsk id a s.now, k]
  | some (a, w, .wait l) => andThen (awaitOnce (secOf a.pa) me w l) (noteAsk id a s.now)
  | some _ => seqs [park, each (pieceHomes s o p) fun q => match q.2.2 with
      | .ask => ask id q.2.1 s.now q.1
      | .noPath => noteAsk id q.1 s.now
      | _ => skip, k]
  | none =>
    if pieceFull s o p then
      seqs [when (!o.parts.any Piece.full) (event 4 4 o.part o.ctx (((s.nodeOf o).bind fun k => s.nodes.find k).elim 0 Node.rcbva)
          (o.part + o.view * 16) 0 0 []),
        upParts id (fun q => q = p) fun q => { q with full := true }, k]
    else seqs [movePiece id p, upOp id fun o => { o with parts := o.parts.filter fun q => q ≠ p }, k]

/-- The nibbles of a segment that are counted and not written: those without a destination, escapes and cancelled writes (R246, R260,
R446, R464). -/
def countOnly (s : State) (c : Cmd) (o : Op) (i : Nat) : Bool :=
  !c.intoLs && ((c.dst i).isNone || dropped c o i || (!withheld c o i && nibEscapes s c o i))

/-- Lowest escaping address of a list of nibbles (R260). -/
def lowestEscape (s : State) (c : Cmd) (o : Op) (l : List Nat) : Option Nat :=
  l.foldl (fun m i =>
    match c.dstGlo i with
    | none => m
    | some a => if !withheld c o i && !dropped c o i && nibEscapes s c o i then some (m.elim (a / 2) fun x => min x (a / 2)) else m) o.escape

/-- Segment `n` starts (R246, R260, R283): its regions are looked up, and its sectors await delivery. -/
def startSegment (id n : Nat) : Eff := on fun s => onSome (s.ops.find id) fun o =>
  let c := s.cmd o
  let l := c.segNibs n
  seqs [each (nibRegions c false l) fun r => lookRegion id c false r 0,
    each (nibRegions c true l) fun r => lookRegion id c true r 0,
    on fun s => onSome (s.ops.find id) fun o =>
      let rest := l.filter fun i => !countOnly s c o i
      let o := { o with seg := n + 1, escape := lowestEscape s c o l }
      act (.op id (some { o with parts := addPieces s c o (piecesOf s c o n none rest) })),
    engineNext id]

/-- The request of a merged `TLD.MC` (R174, R175): its regions are looked up, its fill is delivered, and its sectors are asked for at
their home slices. Its segments all start with it. -/
def startMerged (id : Nat) : Eff := on fun s => onSome (s.ops.find id) fun o =>
  let c := s.cmd o
  let l := List.range (2 * c.bytes)
  let fill := l.filter fun i => (c.src i).glo?.isNone
  seqs [each (nibRegions c false l) fun r => lookRegion id c false r 0,
    putNibs o.team (fill.filterMap fun i => match c.dst i with | some (.loc a) => some (a, readNib (s.teamOf o) o [] (c.src i)) | _ => none),
    addArrival o.team c.arrival (countNibs fill),
    on fun s => onSome (s.ops.find id) fun o =>
      let ps := piecesOf s c o 0 none (l.filter fun i => (c.src i).glo?.isSome)
      let slices := sortNat (ps.flatMap fun p => p.reads.map fun a => Config.slice (secOf a.pa))
      seqs [act (.op id (some { o with seg := c.segs, parts := ps })),
        each slices fun k => later 8 48 (.multicastRequest id k)],
    engineNext id]

/-- One sector of a command that is its engine's to fetch, chosen freely among those left. -/
def deliverOne (id : Nat) (o : Op) : Eff := freely fun f =>
  let l := o.parts.filter fun p => !p.parked && !p.full && !(merges o && p.first = 0)
  match l[Config.pick f % max 1 l.length]? with
  | some p => deliverPiece id o p (.engineDelivery id (o.seg - 1)) (engineNext id)
  | none => engineNext id

/-- Number of the stream of a merge entry among the deliveries. -/
def streamBase : Nat := 2 ^ 50

/-- The pieces of an operation that the stream of an entry brings it with physical sector `sec`. -/
def streamed (o : Op) (sec : Nat) : List Piece :=
  o.parts.filter fun p => p.first = 0 && !p.parked && p.reads.any fun a => secOf a.pa = sec

/-- A sector of a stream is delivered to some of the joined commands. -/
def streamTo (sec : Nat) (ids : List Nat) : Eff :=
  each ids fun id => on fun s => onSome (s.ops.find id) fun o =>
    each (streamed o sec) fun p => on fun s => onSome (s.ops.find id) fun o =>
      match pieceWaits s o p with
      | some (_, _, .wait _) | some (_, _, .ask) | some (_, _, .noPath) => andThen (upParts id (fun q => q = p) fun q => { q with first := 1 }) (engineNext id)
      | _ => deliverPiece id o p (.engineDelivery id (o.seg - 1)) (engineNext id)

/-- The sectors that a stream still has to send again, with the command that each is for, in the order in which those joined
(R473). -/
def Merge.resends (m : Merge) : List (Nat × Nat) := m.ops.flatMap fun p => (m.secs.take p.2).map fun x => (p.1, x)

/-- The stream of a merge entry (R175, R473): two to four sectors in a clock, to every command that has joined; then what the late ones
have missed. -/
def streamNext (e : Nat) : Eff := on fun s => onSome (s.merge.find e) fun m =>
  let go : Eff := if (m.sent + m.resent) % 4 = 3 then later 1 2 (.engineDelivery (streamBase + e) 0) else soon (.engineDelivery (streamBase + e) 0)
  match m.secs[m.sent]? with
  | some x =>
    let early := if m.clk = s.now then m.early else m.sent
    seqs [act (.merge e (some { m with sent := m.sent + 1, clk := s.now, early := early })), streamTo x (m.ops.map Prod.fst), go]
  | none => match m.resends[m.resent]? with
    | some p => seqs [act (.merge e (some { m with resent := m.resent + 1 })), streamTo p.2 [p.1], go]
    | none => when (m.opened + 4000 ≤ s.now) (act (.merge e none))

/-- The merge key of a request (R174). -/
def mergeKey (o : Op) : List Word := BitVec.ofNat 32 o.ctx :: ((o.vals.drop 1).map Elem.val).eraseIdx (o.vals.length - 3)

/-- `MULTICAST_REQUEST` (R175, R473): a request reaches a home slice and joins an entry of its key, within 4,000 clocks of its opening,
or opens one. Sectors that the entry does not send, since the opener's lookups failed there, the joiner's engine fetches by itself. -/
def execMulticastRequest (id slice : Nat) (s : State) : Host.Outcome State Fault Refusal :=
  fire s <| onSome (s.ops.find id) fun o =>
    match s.merge.find? fun kv => kv.2.slice = slice && kv.2.key = mergeKey o && s.now < kv.2.opened + 4000 with
    | some (e, m) =>
      let k := if m.clk = s.now then m.early else m.sent
      seqs [act (.merge e (some { m with ops := m.ops ++ [(id, k)] })),
        upParts id (fun p => p.first = 0 && p.reads.any fun a =>
            Config.slice (secOf a.pa) = slice && !m.secs.contains (secOf a.pa)) (fun p => { p with first := 1 }),
        engineNext id,
        each ((m.secs.take m.sent).drop k) fun x => streamTo x [id],
        (when (m.sent = m.secs.length && m.resent = m.resends.length) (later 1 2 (.engineDelivery (streamBase + e) 0)))]
    | none => fresh fun e =>
      let secs := sortNat (o.parts.flatMap fun p => (p.reads.map fun a => secOf a.pa).filter fun x => Config.slice x = slice)
      seqs [act (.merge e (some ⟨slice, mergeKey o, s.now, [(id, 0)], secs, 0, 0, s.now, 0⟩)), soon (.engineDelivery (streamBase + e) 0),
        after 4000 (.mergeWindowExpiry e)]

/-- `MERGE_WINDOW_EXPIRY` (R175): nothing joins the entry any more; one whose stream has ended is removed. -/
def execMergeWindowExpiry (entry : Nat) (s : State) : Host.Outcome State Fault Refusal :=
  fire s <| onSome (s.merge.find entry) fun m =>
    when (m.sent = m.secs.length && m.resent = m.resends.length) (act (.merge entry none))

/-- The contributions of one collective (R370): those of the same node and `CKEY` that have been sent. -/
def contributions (s : State) (o : Op) (key : Word) : List (Nat × Op) :=
  s.ops.filter fun kv => kv.2.st = .sent && s.nodeOf kv.2 = s.nodeOf o && (collOf kv.2).elim false fun k => k.2 = key

/-- The first contribution of a team among a list. -/
def ofTeam (s : State) (l : List (Nat × Op)) (n : Nat) : Option (Nat × Op) := l.find? fun kv => (s.teamOf kv.2).index = n

/-- The members' contributions, in the order of their ranks, once each has one. -/
def members (s : State) (k : Coll) (l : List (Nat × Op)) : Option (List (Nat × Op)) :=
  ((List.range (k.nmm1 + 1)).map fun r => k.tbase + r).mapM (ofTeam s l)

/-- The first set of contributions that one of them names as the members, all there (R370). -/
def complete (s : State) (l : List (Nat × Op)) : Option (Coll × List (Nat × Op)) :=
  l.findSome? fun kv => (collOf kv.2).bind fun k => (members s k.1 l).map fun m => (k.1, m)

/-- A contribution reaches the collective unit (R370, R372): the collective starts with its last member; a further contribution of a
rank joins the one under way. -/
def contribute (id : Nat) (o : Op) (key : Word) : Eff := on fun s =>
  let l := contributions s o key
  match l.find? fun kv => kv.1 ≠ id && kv.2.escape.isSome && kv.2.moved = 0 && (s.teamOf kv.2).index = (s.teamOf o).index with
  | some kv => upOp id fun o => { o with escape := kv.2.escape }
  | none =>
    match complete s (l.filter fun kv => kv.2.escape.isNone) with
    | none => skip
    | some (_, []) => skip
    | some (k, x :: xs) =>
      let all := x :: xs
      let same := all.all fun kv => dieOf kv.2.frame = dieOf x.2.frame
      let got := (all.zipIdx.map fun p => k.writes p.2 * k.block).foldl max 0
      let more := ceilDiv got 64
      let p : Nat × Nat := if same then (1500, 5000) else (2500, 8000)
      seqs [each (l.filter fun kv => kv.2.escape.isNone && all.any fun y => (s.teamOf y.2).index = (s.teamOf kv.2).index) fun kv =>
          upOp kv.1 fun o => { o with escape := some x.1 },
        later (p.1 + more - 48) (p.2 + 2 * more - 48) (.engineDelivery x.1 0)]

/-- One step of a reduction on a word: the accumulator first (R371). -/
def Coll.op (k : Coll) (a b : Elem) : Elem :=
  if a.poi then a
  else if b.poi then b
  else
    let x := a.val.toNat
    let y := b.val.toNat
    clean <| BitVec.ofNat 32 <| match k.rop with
      | .fadd => atomOp .fadd 32 x y
      | .fmin => atomOp .fmin 32 x y
      | .fmax => atomOp .fmax 32 x y
      | .iadd => atomOp .add 32 x y
      | .bfadd =>
        let half (u v : Nat) := (fused bf16 .rn false false [] [some (bf16.num u), some (bf16.num v)]).1
        half (x % 65536) (y % 65536) + half (x / 65536) (y / 65536) * 65536

/-- Word `n` of the source of a contribution; that of a poisoned offset is poisoned. -/
def sourceWord (s : State) (o : Op) (n : Nat) : Elem :=
  let fb := o.vals.getD 9 (clean 0#32)
  if fb.poi then fb
  else
    let w := (s.teamOf o).word (fb.val.toNat / 4 + n)
    ⟨w.val, w.poi⟩

/-- Word `n` of the reduction of block `b` over the ranks (R371). -/
def reduceWord (s : State) (k : Coll) (l : List (Nat × Op)) (b n : Nat) : Elem :=
  let m := b * (k.block / 4) + n
  match l with
  | [] => clean 0#32
  | x :: xs => xs.foldl (fun e y => k.op e (sourceWord s y.2 m)) (sourceWord s x.2 m)

/-- Word `n` of what rank `r` receives (Table 15.7). -/
def Coll.result (k : Coll) (s : State) (l : List (Nat × Op)) (r n : Nat) : Elem :=
  let bw := k.block / 4
  let rank (q m : Nat) := (l[q]?).elim (clean 0#32) fun y => sourceWord s y.2 m
  match k.kind with
  | .bcast => rank k.root n
  | .allgather => rank (n / bw) (n % bw)
  | .redscat => reduceWord s k l r n
  | _ => reduceWord s k l 0 n

/-- The words of a contribution's destination become `f` of their number, and count (R371, R372). -/
def collWrites (o : Op) (words : Nat) (f : Nat → Elem) : Eff :=
  let fd := o.vals.headD (clean 0#32)
  let forced := if fd.poi then some fd else let fb := o.vals.getD 9 (clean 0#32); if fb.poi then some fb else none
  andThen (upWords o.team fun t =>
      { t with words := (List.range words).foldl (fun m n =>
          let e := forced.getD (f n)
          let a := ofsOf fd / 4 + n
          if 4 * a + 4 ≤ t.lsBytes then m.put a { t.word a with val := e.val, poi := e.poi } else m) t.words })
    (when (0 < words) (addArrival o.team (arrivalOf (o.vals.getD 10 (clean 0#32))) (4 * words)))

/-- Whether two members agree on a collective (R370). -/
def agrees (a b : Nat × Op) : Bool := (collOf a.2).map Prod.fst = (collOf b.2).map Prod.fst

/-- A collective is delivered (R370 to R372): every member's destination is written from the sources as they stand, or poisoned with cause
DATA where the members disagree. -/
def deliverColl (id : Nat) : Eff := on fun s => onSome (s.ops.find id) fun o => onSome (collOf o) fun kc =>
  let k := kc.1
  let all := (contributions s o kc.2).filter fun kv => kv.2.escape = some id && kv.2.moved = 0
  let l := (sortNat (all.map fun kv => (s.teamOf kv.2).index)).filterMap (ofTeam s all)
  let rank (x : Nat × Op) := (s.teamOf x.2).index - k.tbase
  let ends : Eff := each all fun kv => andThen (upOp kv.1 fun o => { o with moved := 1 }) (soon (.engineComplete kv.1))
  match l.find? fun x => !agrees (id, o) x with
  | none => andThen (each all fun kv => collWrites kv.2 (k.writes (rank kv) * (k.block / 4)) (k.result s l (rank kv))) ends
  | some bad =>
    origin ⟨.data, svcTab (dieOf o.frame), 1, 0, 0#57, 0, o.view, 0⟩ fun w =>
      seqs [each all fun kv => onSome (collOf kv.2) fun q =>
          let r := (s.teamOf kv.2).index - q.1.tbase
          collWrites kv.2 (q.1.writes r * (q.1.block / 4)) fun _ => ⟨w, true⟩,
        event 15 (dieOf o.frame) (partOf o.frame) o.ctx kc.2.toNat k.tbase (rank bad) 0 [], ends]

/-- `ENGINE_DELIVERY`: the stream of a merge entry goes on; a collective is delivered; a segment starts; or one sector of a command is
delivered. -/
def execEngineDelivery (id n : Nat) (s : State) : Host.Outcome State Fault Refusal :=
  fire s <|
    if streamBase ≤ id then streamNext (id - streamBase)
    else onSome (s.ops.find id) fun o =>
      if o.st ≠ .sent then skip
      else match o.ins with
        | .coll .. => if holdsDelivery s o then skip else deliverColl id
        | _ =>
          if o.seg ≤ n then
            if holdsStart s o then skip else if merges o then startMerged id else startSegment id o.seg
          else if holdsDelivery s o then skip
          else andThen (upParts id (fun p => p.parked && (pieceWaits s o p).isNone) fun p => { p with parked := false })
            (on fun s => onSome (s.ops.find id) (deliverOne id))

/-- The undefined bytes of a global copy that overlaps itself are written last (R374). -/
def writeOverlap (id : Nat) (o : Op) : Eff := on fun s =>
  let c := s.cmd o
  let l := (c.started o).filter fun i => waitsForEnd o i && !withheld c o i && !dropped c o i && !nibEscapes s c o i
  each (pieceKeys c o l) fun k => freely fun f => on fun s => onSome (sectorAcc s o k) fun a =>
    writePiece id o a false ((nibVals (s.teamOf o) c o [] f (l.filter (inKey c o k))).filterMap fun q =>
      (c.dstGlo q.1).map fun d => (d % 128, q.2))

/-- `ENGINE_COMPLETE` (R161, R260): every byte has been moved, and the writes have been performed. -/
def execEngineComplete (id : Nat) (s : State) : Host.Outcome State Fault Refusal :=
  fire s <| onSome (s.ops.find id) fun o =>
    let k := engClass o.ins
    let coll := match o.ins with | .coll .. => true | _ => false
    if o.st ≠ .sent || (if coll then o.moved = 0 else o.parts ≠ [] || !o.held.all Withheld.gone || o.seg < (s.cmd o).segs) then skip
    else if o.after ≠ [] then after 64 (.engineComplete id)
    else
      seqs [when (o.seg < 2 ^ 40) (writeOverlap id o),
        on fun s => if (s.ops.find id).elim false fun o => o.after ≠ [] then
            andThen (upOp id fun o => { o with seg := 2 ^ 40 }) (after 64 (.engineComplete id))
          else
            seqs [onSome (if coll then none else o.escape) fun a => defer o.gid id k .worldesc (BitVec.ofNat 64 a),
              clearSb o, act (.op id none), retireOp o.gid id]]

/-- The index words of a gather or scatter as its engine reads them (R176, R401, R446); a poisoned offset poisons them all. -/
def indexWords (t : Team) (v : Lanes) : Lanes :=
  let fb := v.getD 5 (clean 0#32)
  (List.range (gathFields v).2.2).map fun r =>
    if fb.poi then fb
    else
      let w := t.word (fb.val.toNat / 4 + r)
      ⟨w.val, w.poi⟩

/-- The records of a scatter's poisoned index words (R446). -/
def scatRecords (id : Nat) (o : Op) (l : Lanes) : Eff :=
  each l.zipIdx fun p => when p.1.poi (on fun s =>
    fault { engineRec s id o true ⟨6, 3⟩ (gathFields o.vals).1 p.2 0 with status := 1, payload := p.1.val } fun _ => skip)

/-- The source words of a copy in the local store that overlaps itself, as they are before it (R374). -/
def overlapWords (t : Team) (o : Op) : Lanes :=
  match o.ins with
  | .cpy _ .ll .. =>
    let p := cpyVals .ll o.vals
    let n := p.2.2.1.val.toNat
    let d := numOf p.1
    let a := numOf p.2.1
    if (firstBad (p.1 ++ p.2.1)).isNone && d < a + n && a < d + n then
      (List.range (n / 4)).map fun k =>
        let w := t.word (a / 4 + k)
        ⟨w.val, w.poi⟩
    else []
  | _ => []

/-- Published clocks from the sending of a command to its first sector (Table 7.4, less the hold of 48). -/
def firstPair (s : State) (o : Op) : Nat × Nat :=
  let c := s.cmd o
  let l := ([(c.src 0).glo?, c.dstGlo 0].filterMap id).filterMap fun a => sectorAcc s o (nibSec a)
  match o.ins with
  | .gath .. | .scat .. => pairFor s o.frame l (192, 472) (292, 572)
  | _ => pairFor s o.frame l (172, 432) (292, 572)

/-- A command leaves the store buffer for its engine (R160, R292). -/
def startEngine (id : Nat) (o : Op) : Eff := on fun s =>
  let t := s.teamOf o
  let idx := match o.ins with
    | .gath .. | .scat .. => indexWords t o.vals
    | _ => overlapWords t o
  let o2 := { o with st := .sent, vals := o.vals ++ idx }
  let p := firstPair s o2
  seqs [leaveBuffer id, act (.op id (some o2)),
    match o.ins with | .scat .. => scatRecords id o idx | _ => skip,
    match collOf o with
    | some k => contribute id o2 k.2
    | none => later p.1 p.2 (.engineDelivery id 0)]

/-- The nibbles of the segments started that read or write a region. -/
def regionNibs (c : Cmd) (o : Op) (wr : Bool) (r : Nat) : List Nat :=
  (c.started o).filter fun i => (if wr then c.dstGlo i else (c.src i).glo?).elim false fun a => nibRegion a = r

/-- What a region's end of being withheld sets moving. -/
def moveRegion (id : Nat) (wr : Bool) (r : Nat) : Eff :=
  andThen (on fun s => onSome (s.ops.find id) fun o =>
    let c := s.cmd o
    let l := (regionNibs c o wr r).filter fun i => !withheld c o i
    let ps := piecesOf s c o (if merges o then 1 else 0) (some (2 * r + wr.toNat)) (l.filter fun i => !countOnly s c o i)
    act (.op id (some { o with parts := addPieces s c o ps, escape := lowestEscape s c o l }))) (engineNext id)

/-- What a command withholds under a record. -/
def Op.heldBy (o : Op) (fr : Nat) : List Withheld := o.held.filter fun h => h.fr = fr && !h.gone

/-- The withheld bytes of a record are moved again after a REPLAY (R246, R477): a page that fails again withholds them under a new record. -/
def engineReplay (id fr rcnt : Nat) : Eff := on fun s => onSome (s.ops.find id) fun o =>
  let l := o.heldBy fr
  seqs [upOp id fun o => { o with held := o.held.filter fun x => !l.contains x },
    each l fun h => lookRegion id (s.cmd o) h.wr (h.va / 65536) (rcnt + 1),
    each l fun h => moveRegion id h.wr (h.va / 65536)]

/-- CANCEL of an engine's fault (R246): the bytes of a read are delivered poisoned with PAGEX; those of a write are dropped, and the next
`WAITC` that finds the command complete traps. -/
def engineCancel (id fr : Nat) : Eff := on fun s => onSome (s.ops.find id) fun o =>
  let l := o.heldBy fr
  onSome l.head? fun h =>
    let va := l.foldl (fun m x => min m x.va) h.va
    let gone (w : Nat) : Eff :=
      andThen (upOp id fun o => { o with held := o.held.map fun x => if l.contains x then { x with gone := true, size := w } else x })
        (each l fun x => moveRegion id x.wr (x.va / 65536))
    if h.wr then andThen (defer o.gid id (engClass o.ins) .pagex (BitVec.ofNat 64 va)) (gone 0)
    else origin ⟨.pagex, o.frame, 6, va % 2 ^ 57, o.pc, o.fdom, o.view, gslotOf o.gid⟩ fun w => gone w.toNat

end Sys2Proof.Machine
end

