-- ==== Sys2Proof/Machine/FullEmpty.lean ====
section
/-!
DEFINITION. FullEmpty.lean: `LDWF`, `LDTK`, `STWE`, `FESET`, the full/empty timeout, and the fences `FENCE` and `PFENCE` (R156 to
R159, R188 to R194, R390 to R393, R416, R417, R435, R436, R457).
-/
namespace Sys2Proof.Machine

/-- A group waits at full/empty words from now on, with its timeout running (R158). -/
def feWait (c : Iss) (id : Nat) : Eff := on fun s =>
  seqs [upOp id fun o => { o with seg := c.act.toNat },
    upGroup c.gid fun g => { g with hold := .fewait id s.now },
    Sys2Proof.Machine.after (s.fetmo (partOf c.g.frame) + 1) (.fewaitTimeout c.gid)]

/-- The issue of `LDWF` and `LDTK` (R417). -/
def waitingLoad (c : Iss) (s : State) (i : Instr) (a : Src) (mc : Mc) (take : Bool) : Res :=
  consuming c s i [] take <|
    let l := addrs c true a mc.ofs 4 c.on.lanes
    let bad := badAddrs c true a mc.ofs 4 c.on.lanes
    aligned c true 4 l <| .done <|
      waitFor c i (l.map (fun p => accOf c p.1 p.2 none) ++ bad.map fun p => doneAcc p.1 p.2) [] (localBefore s c i) (feWait c)

/-- `LDWF` (R416, R417). -/
def execLdwf (h : Head) (d : Dst) (a : Src) (mc : Mc) (s : State) : Host.Outcome State Fault Refusal :=
  issue (.ldwf h d a mc) s fun c s => waitingLoad c s (.ldwf h d a mc) a mc false

/-- `LDTK` (R416, R417). -/
def execLdtk (h : Head) (d : Dst) (a : Src) (mc : Mc) (s : State) : Host.Outcome State Fault Refusal :=
  issue (.ldtk h d a mc) s fun c s => waitingLoad c s (.ldtk h d a mc) a mc true

/-- `STWE` (R457): a release at TEAM scope, so it reaches its words when the group's earlier accesses have been performed. -/
def execStwe (h : Head) (a b : Src) (mc : Mc) (s : State) : Host.Outcome State Fault Refusal :=
  let i : Instr := .stwe h a b mc
  issue i s fun c s =>
    consuming c s i [1, 2] true <|
      let l := addrs c true a mc.ofs 4 c.on.lanes
      aligned c true 4 l <| .done <|
        waitFor c i (l.map fun p => ⟨p.1, p.2, none, [lane (c.src 2 b) p.1], false, []⟩) [] (pendingOf s c i) (feWait c)

/-- `FEWAIT_TIMEOUT` (R158, R417): lanes already performed keep their effect, the others are withdrawn; a group traps `FEWAIT` with
its resume mask, a continuation is handed back at the instruction. -/
def execFewaitTimeout (gid : Nat) (s : State) : Host.Outcome State Fault Refusal :=
  fire s <|
    match s.groups.find gid with
    | none => skip
    | some g =>
      match g.hold with
      | .fewait id since =>
        match s.ops.find id with
        | none => skip
        | some o =>
          if s.now ≤ since + s.fetmo (partOf g.frame) then skip
          else
            let rest := o.accs.filter fun a => !a.done
            let m := Mask.of fun n => rest.any fun a => a.lane = n
            seqs [withdrawWords id o,
              upGroup gid fun g => { g with hold := .none, resume := m },
              if g.cont.isSome then handBack gid o.pc
              else andThen (match o.ins with
                  | .stwe .. => skip
                  | _ => if o.accs.any Acc.done then returnResult id o (o.mask &&& ~~~ m) (regOf o.accs) [] else clearSb o)
                (takeTrap gid .fewait (BitVec.ofNat 64 ((rest.head?).elim 0 Acc.adr)) o.pc (BitVec.ofNat 32 o.seg)),
              opEnds id]
      | _ => skip

/-- `FESET` (R159, R392, R393): its words change one after the other from its issue on, and its completion clears `SBS`. -/
def execFeset (h : Head) (z full : Bool) (a b : Src) (s : State) : Host.Outcome State Fault Refusal :=
  let i : Instr := .feset h z full a b
  issue i s fun c s =>
    consuming c s i [1, 2] false <|
      let ofs := (offsetAt c 1 a 0).1.toNat
      let n := (c.uni 2 b 0).val.toNat
      if n = 0 || 65536 < n then .trap .illop 0#64
      else if ofs % 4 ≠ 0 then .trap .misalign (BitVec.ofNat 64 ofs)
      else if c.tm.lsBytes < ofs + 4 * n then .trap .alloc (BitVec.ofNat 64 ofs)
      else .done <|
        waitFor c i [] [clean (BitVec.ofNat 32 ofs), clean (BitVec.ofNat 32 n)] (localBefore s c i) fun _ => skip

/-- `FESET_COMPLETE` (R159): the change begins; goes on by up to 64 words in a clock, a free number that keeps within its time; and ends,
clearing `SBS`. -/
def execFesetComplete (id : Nat) (s : State) : Host.Outcome State Fault Refusal :=
  fire s <| onSome (s.ops.find id) fun o =>
    let n := (fesetRun o).2
    let again := Sys2Proof.Machine.after 1 (.fesetComplete id)
    if o.after ≠ [] then skip
    else if o.moved = 0 then freely fun f =>
      let x := ceilDiv (n - 64) 64
      andThen (upOp id fun o => { o with st := .sent, moved := s.now + delay (24 + x) (40 + x) f }) again
    else if s.now < o.moved then freely fun f =>
      let left := n - o.seg
      let low := left - 64 * (o.moved - s.now)
      let k := low + Config.pick f % (min 64 left - low + 1)
      andThen (fesetTo id (o.seg + k)) again
    else seqs [fesetTo id n, clearSb o, opEnds id]

/-- The operations that a fence waits for (R188, R391, R436); a continuation's are those of its thread. A fence whose scope reaches beyond
the frame waits with its writes for what its team has written in the frame alone. -/
def fenceAfter (s : State) (c : Iss) (wide : Bool) (p : Op → Bool) : List Nat :=
  (s.ops.filter fun kv =>
    (kv.2.gid = c.owner && p kv.2 && (kv.2.mask &&& c.on) ≠ 0#32) || (wide && kv.2.frameOnly c.g.team)).map Prod.fst

/-- The write of an operation that has still to be performed for the instances of a scope (R391, R436). -/
def Op.unwritten (o : Op) (scope : Scope) : Bool :=
  writesGen o.ins && (o.pending || o.st = .lost) && !(o.early && narrowScope scope)

/-- `FENCE` (R390, R391, R191). -/
def execFence (h : Head) (ord : Ord) (scope : Scope) (s : State) : Host.Outcome State Fault Refusal :=
  let i : Instr := .fence h ord scope
  issue i s fun c s => .done <|
    let rel : Bool := ord ≠ .acq
    let l := fenceAfter s c (rel && !narrowScope scope) fun o => (ord ≠ .rel && returnsLoad o.ins) || (rel && o.unwritten scope)
    waitFor c i [] [] l fun id => upGroup c.gid fun g =>
      { g with hold := .op id, markNext := g.markNext || (rel && narrowScope scope), fenced := if rel then id else g.fenced }

/-- `PFENCE` (R194, R435, R436). -/
def execPfence (h : Head) (scope : Scope) (s : State) : Host.Outcome State Fault Refusal :=
  let i : Instr := .pfence h scope
  issue i s fun c s => .done <|
    let l := fenceAfter s c (!narrowScope scope) fun o => o.unwritten scope || (acquires o.ins && returnsLoad o.ins)
    waitFor c i [] [] l fun id => upGroup c.gid fun g => { g with hold := .op id }

end Sys2Proof.Machine
end

