-- ==== Sys2Proof/Machine/Send.lean ====
section
/-!
DEFINITION. Send.lean: what the rod's store buffer sends at the end of its hold, and requests that are declared lost (R186, R191, R219 to
R221, R292, R306, R343, R456).
-/
namespace Sys2Proof.Machine

/-- The digest of the operand words that an atomic operation sends (R306). -/
def atomicDigest (o : Op) (a : Acc) : Eff :=
  let n := accBytes o.ins
  let b (k : Nat) := storeBytesOf n (a.dat.drop k)
  match o.ins with
  | .atom .. => countDigest o a.adr 2 (b 0) none
  | .acas .. => andThen (countDigest o a.adr 3 (b (n / 4)) none) (countDigest o a.adr 4 (b 0) none)
  | .red .. => countDigest o a.adr 5 (b 0) none
  | .xadd .. =>
    let e := a.dat.getD 0 (clean 0#32)
    countDigest o a.adr 6 (leBytes 4 e.val.toNat) (if e.poi then some e.val else none)
  | .xrd _ true .. => countDigest o a.adr 7 (leBytes 4 0) none
  | _ => skip

/-- The digest and the ESCAPED bits of an atomic operation that is sent (R260, R269, R306). -/
def sentAtomics (o : Op) : Eff :=
  each (o.accs.filter fun a => !a.done) fun a =>
    andThen (when (writesHome o.ins) (noteEscape o a.adr (accBytes o.ins) a.pageD)) (atomicDigest o a)

/-- Whether the frame's L1 can perform a store ahead of its homes (R189): of coherent pages, whose homes would take and permit it now. -/
def canBeEarly (s : State) (o : Op) : Bool :=
  o.accs.all fun a => a.page.isSome && a.coherent && s.homeSt o true a = .ready && writePermitted s o false a

/-- A store that has been sent may be seen by its frame's threads from now on, before it is performed (R189): a free choice, as the rule
says only that it can. -/
def mayBeEarly (id : Nat) : Eff := freely fun f => on fun s => onSome (s.ops.find id) fun o =>
  when (Config.pick f % 2 = 1 && canBeEarly s o)
    (seqs [upOp id fun o => { o with early := true }, markSectors o o.accs, strikeEarly id o])

/-- An entry of the store buffer is sent (R292, R456). -/
def sendEntry (id : Nat) (o : Op) : Eff := on fun s =>
  let sent := andThen (leaveBuffer id) (upOp id fun o => { o with st := .sent, sentAt := s.now })
  match o.ins with
  | .st _ ls .. =>
    if ls then andThen (leaveBuffer id) (opEnds id)
    else
      let p := storePair s o
      seqs [sent, sentWrites o 0 (operandBytes o), askForBeads o true o.accs, later p.1 p.2 (.grant ⟨id, none⟩), mayBeEarly id]
  | .cpy .. | .tld .. | .tst .. | .gath .. | .scat .. | .coll .. => startEngine id o
  | i =>
    if genLocal i then andThen (leaveBuffer id) (upOp id fun o => { o with st := .performed })
    else
      let p := pairFor s o.frame o.accs (100, 230) (160, 320)
      let r := remotePair s o.ins o.accs
      let p := (p.1 + r.1, p.2 + r.2)
      seqs [sent, sentAtomics o, later p.1 p.2 (.homeSideAtomic ⟨id, none⟩)]

/-- `STORE_BUFFER_SEND` (R186, R191, R292): at the end of its hold, or later where earlier operations must be performed first. -/
def execStoreBufferSend (id : Nat) (s : State) : Host.Outcome State Fault Refusal :=
  fire s <| onSome (s.ops.find id) fun o =>
    match o.st with
    | .buffered til =>
      if s.now < til then at_ til (.storeBufferSend id)
      else if o.after ≠ [] then upOp id fun o => { o with st := .waiting }
      else sendEntry id o
    | _ => skip

/-- `REQUEST_LOST` (R219 to R221): what no home has answered by the stamp + 24 µs is lost. A read gives TIMEOUT poison; a store or
home-side write becomes a lost store. -/
def execRequestLost (id : Nat) (s : State) : Host.Outcome State Fault Refusal :=
  fire s <| onSome (s.ops.find id) fun o => declareLost id (onSome (o.stepOf id) soon)

end Sys2Proof.Machine
end

