-- ==== Sys2Proof/Machine/Teams.lean ====
section
/-!
DEFINITION. Teams.lean: reservation and start of teams, retirement of groups and teams, the last stages of nodes and rivals, the
commit of views, supersteps and the digest exchange (R28, R45, R46, R60 to R66, R179, R198, R199, R202, R259, R263 to R267, R306 to
R308, R481).
-/
namespace Sys2Proof.Machine

/-- A free view ID of a partition (R257). -/
def State.freeView (s : State) (part : Nat) : Option Nat :=
  freeId ((s.views.filter fun kv => kv.2.part = part).map fun kv => kv.2.id) 1 255 (Config.pick s.free)

/-- The node of a team. -/
def State.effOf (s : State) (t : Team) : Rcb := (s.nodes.find t.node).elim (Rcb.ofBytes []) Node.eff

/-- Units that the teams reserved on a frame take of one kind (Table 3.4). -/
def State.taken (s : State) (frame : Nat) (f : Rcb → Team → Nat) : Nat :=
  ((s.teams.filter fun kv => kv.2.frame = frame).map fun kv => f (s.effOf kv.2) kv.2).sum

/-- The granules of a frame's local store that no team has. -/
def State.freeGran (s : State) (frame : Nat) : List Nat :=
  let used := (s.teams.filter fun kv => kv.2.frame = frame).flatMap fun kv => kv.2.gran
  (List.range (32 * s.storeWays frame)).filter fun g => !used.contains g

/-- Whether a `CRESZ` is under way on a frame (R155). -/
def State.resizing (s : State) (frame : Nat) : Bool :=
  s.ops.any fun kv => kv.2.frame = frame && (match kv.2.ins with
    | .cresz .. => true
    | _ => false)

/-- The frame and local-store budgets of a node and its ancestors hold with one more team of `lgr` granules on a frame (R49). -/
def State.budgetsHold (s : State) (nk frame lgr : Nat) : Bool :=
  (s.ancestry s.nodes.length nk).all fun a =>
    (s.nodes.find a).elim true fun n =>
      let under := a :: s.descendants a
      let ts := s.teams.filter fun kv => under.contains kv.2.node
      let frames := (frame :: ts.map fun kv => kv.2.frame).eraseDups
      frames.length ≤ n.eff.bframe
        && ((ts.filter fun kv => kv.2.frame = frame).map fun kv => kv.2.lgr).sum + lgr ≤ n.eff.blocal

/-- Whether a frame fits a team of a node (R64). -/
def State.fits (s : State) (nk frame : Nat) (e : Rcb) : Bool :=
  (List.range 16).all (fun r =>
      let n (x : Rcb) := groupsOnRod x.groups r
      s.taken frame (fun x _ => n x) + n e ≤ 64 && s.taken frame (fun x _ => n x * x.vgr) + n e * e.vgr ≤ 384
        && s.taken frame (fun x _ => n x * x.sgr) + n e * e.sgr ≤ 256)
    && e.lgr ≤ (s.freeGran frame).length
    && s.taken frame (fun x _ => x.nbar) + e.nbar ≤ 256 && s.taken frame (fun x _ => x.ntile) + e.ntile ≤ 16
    && s.taken frame (fun x _ => x.nacc) + e.nacc ≤ 32 && !s.resizing frame && s.budgetsHold nk frame e.lgr

/-- The frames of a context in the order of R65: from the frame after the one that last received a team, wrapping. -/
def Ctx.searchOrder (c : Ctx) : List Nat :=
  match c.lastFrame with
  | none => c.frames
  | some f => (c.frames.filter fun x => f < x) ++ c.frames.filter fun x => x ≤ f

/-- The clock in which the next team of a partition can start (R66). -/
def State.nextStart (s : State) (part : Nat) : Nat :=
  ((s.teams.filter fun kv => partOf kv.2.frame = part).map fun kv => kv.2.startAt + 8).foldl max s.now

/-- The latest start of a node's teams: its teams start in the order of their indices. -/
def State.lastStart (s : State) (nk : Nat) : Nat := ((s.teams.filter fun kv => kv.2.node = nk).map fun kv => kv.2.startAt).foldl max 0

/-- The next team of a node is reserved on a frame (R64): its start, and the clock from which its groups can issue (R66). -/
def reserveOn (nk frame : Nat) : Eff := freely fun n => freely fun m => fresh fun tk => on fun s =>
  match s.nodes.find nk with
  | none => skip
  | some x =>
    let e := x.eff
    let free := s.freeGran frame
    let k := Config.pick m % (free.length + 1)
    let t : Team :=
      { node := nk, index := x.tnext, frame := frame, vframe := s.vframe frame, started := false, groups := [], lgr := e.lgr,
        gran := (free.drop k ++ free.take k).take e.lgr, startAt := max (s.nextStart (partOf frame)) (s.lastStart nk),
        issueAt := s.now + delay 595 1980 n, vgr := e.vgr, sgr := e.sgr, nbar := e.nbar, ntile := e.ntile, nacc := e.nacc, words := [], bars := [], tiles := [],
        accs := [] }
    seqs [act (.team tk (some t)),
      upNode nk fun x => { x with tnext := x.tnext + 1 },
      upCtx x.ctx fun c => { c with lastFrame := some frame },
      if t.startAt = s.now then soon (.teamStart tk) else at_ t.startAt (.teamStart tk)]

/-- The frame on which the next team of a node can be reserved now. -/
def State.frameFor (s : State) (c : Ctx) (nk : Nat) (e : Rcb) : Option Nat := c.searchOrder.find? fun f => s.fits nk f e

/-- The reservation of the next team of a node, or of all teams of a `GANG` node, or nothing: the acts (R64). -/
def reservation (s : State) (nk : Nat) : Option (List Act) :=
  match s.nodes.find nk with
  | none => none
  | some n =>
    let go (a : Option (List Act)) (_ : Nat) : Option (List Act) := a.bind fun l =>
      let t := s.run l
      (t.ctxs.find n.ctx).bind fun c => (t.frameFor c nk n.eff).map fun f => l ++ reserveOn nk f t
    if n.eff.gang then (List.range (n.eff.nteam - n.tnext)).foldl go (some []) else go (some []) 0

/-- Whether a guarded node has still to take its private view (R267, R481). -/
def Node.needsView (n : Node) : Bool := n.eff.guarded && n.priv.isNone

/-- A node with its ancestors as far as the view of a rival, outermost first: those whose views decide in which view it runs. -/
def State.viewLine (s : State) : Nat → Nat → List Nat
  | 0, _ => []
  | n + 1, nk => (match s.nodes.find nk with
    | some x => if x.rival.isSome || x.priv.isSome then [] else x.parent.elim [] (s.viewLine n)
    | none => []) ++ [nk]

/-- Nodes of a context with teams still to be placed, in the order of R65. -/
def State.placeable (s : State) (ctx : Nat) : List (Nat × Node) :=
  let l := s.nodes.filter fun kv => kv.2.ctx = ctx && (kv.2.st = .ready || kv.2.st = .running) && kv.2.tnext < kv.2.eff.nteam
  l.foldl (fun m a => m.takeWhile (fun b => b.2.eff.prio > a.2.eff.prio || (b.2.eff.prio = a.2.eff.prio && b.2.readyAt ≤ a.2.readyAt))
    ++ a :: m.dropWhile (fun b => b.2.eff.prio > a.2.eff.prio || (b.2.eff.prio = a.2.eff.prio && b.2.readyAt ≤ a.2.readyAt))) []

/-- Whether a node's next team can be placed now: free views for it and its ancestors (R267), and units (R64). -/
def State.canPlace (s : State) (nk : Nat) (n : Node) : Bool :=
  let part := s.lead n.ctx
  let need := ((s.viewLine s.nodes.length nk).filter fun k => (s.nodes.find k).elim false Node.needsView).length
  need + (s.views.filter fun kv => kv.2.part = part).length ≤ 255 && (reservation s nk).isSome

/-- The view of a node is settled (R51, R267): it runs in its parent's, or, guarded, in a private view nested in that one. -/
def settleView (nk : Nat) : Eff := on fun s => onSome (s.nodes.find nk) fun n =>
  let part := s.lead n.ctx
  let v := match n.rival, n.parent.bind s.nodes.find with
    | none, some p => p.runView
    | _, _ => n.view
  match if n.needsView then s.freeView part else none with
  | some k => seqs [act (.free (s.free + 1)),
      act (.view (viewKey part k) (some ⟨part, k, v, s.viewDepth part v + 1, false, some nk, none, []⟩)),
      upNode nk fun n => { n with view := v, priv := some k }]
  | none => upNode nk fun n => { n with view := v }

/-- The node's next teams are placed: the views, the reservation, the state RUNNING. A guarded ancestor without its private view takes it now
(log entry 84). -/
def placeNode (nk : Nat) : Eff := on fun s => onSome (s.nodes.find nk) fun n =>
  seqs [each (s.viewLine s.nodes.length nk) settleView,
    on fun s _ => (reservation s nk).getD [],
    when (n.st = .ready) (setState nk .running)]

/-- A frame on which the next team of a node could be reserved, were it its partition's turn; the clock of that turn lies ahead (R66). -/
def State.turnFor (s : State) (c : Ctx) (nk : Nat) (n : Node) : Option Nat :=
  if n.eff.gang then none
  else (s.frameFor c nk n.eff).bind fun f => let t := s.nextStart (partOf f); if s.now < t then some t else none

/-- Whether the limit of a head's 20 µs still holds (R65): its team has not started, and can. -/
def State.limits (s : State) (p : Nat × Nat) : Bool :=
  (s.nodes.find p.1).elim false fun n => (n.st = .ready || n.st = .running) && (n.tnext ≤ p.2
    || s.teams.any fun kv => kv.2.node = p.1 && kv.2.index = p.2 && !kv.2.started)

/-- The next team of a node is reserved when it fits; one that fits waits for its partition's turn (R66). -/
def tryPlace (ctx : Nat) (c : Ctx) (p : Nat × Node) (k : Eff) : Eff := on fun s =>
  match s.turnFor c p.1 p.2 with
  | some t => when (!s.timers.contains (t, .teamReservation ctx)) (at_ t (.teamReservation ctx))
  | none => seqs [placeNode p.1, k, soon (.teamReservation ctx)]

/-- `TEAM_RESERVATION` (R64 to R66): the head team is reserved where it fits; while it fits nowhere, teams of later nodes can be, until
the head has waited 20 µs. The wait of a head starts again when another node has been head in between (DESIGN CHOICE, log entry 86). -/
def execTeamReservation (ctx : Nat) (s : State) : Host.Outcome State Fault Refusal :=
  fire s <|
    match s.ctxs.find ctx with
    | none => skip
    | some c =>
      if c.run ≠ .resident then skip
      else match s.placeable ctx with
        | [] => skip
        | (h, n) :: rest =>
          let held := c.limit.any s.limits
          if s.canPlace h n then
            when (!held || c.limit = some (h, n.tnext)) (tryPlace ctx c (h, n) (upCtx ctx fun c => { c with headAt := none }))
          else
            let same := c.headAt.elim false fun p => p.1 = h
            andThen (when (!same) (andThen (upCtx ctx fun c => { c with headAt := some (h, s.now), limit := if held then c.limit else none })
                (after 20000 (.headBackfillLimit ctx))))
              (match if held then none else rest.find? fun p => s.canPlace p.1 p.2 with
              | some p => tryPlace ctx c p skip
              | none => skip)

/-- `HEAD_BACKFILL_LIMIT` (R65): once the head has waited 20 µs, no other team of the context starts until it does. -/
def execHeadBackfillLimit (ctx : Nat) (s : State) : Host.Outcome State Fault Refusal :=
  fire s <| upCtx ctx fun c => match c.headAt with
    | some (h, t) => if t + 20000 ≤ s.now then { c with limit := some (h, (s.nodes.find h).elim 0 Node.tnext) } else c
    | none => c

/-- One group of a team starts in a free slot of its rod (R28, R63, R66, R289). -/
def startGroup (tk idx : Nat) : Eff := freely fun n => on fun s =>
  match s.teams.find tk with
  | none => skip
  | some t =>
    match s.nodes.find t.node with
    | none => skip
    | some x =>
      let rod := idx % 16
      let base := 1024 * t.frame + 64 * rod
      let c := s.ctxs.find x.ctx
      let used := (s.groups.filter fun kv => base ≤ kv.1 && kv.1 < base + 64).map fun kv => kv.1
      let gid := (freeId used base 64 (Config.pick n)).getD base
      let sidx := (freeId ((c.map Ctx.sidx).getD []) 0 (16384 * (c.map Ctx.nparts).getD 1) (Config.pick n)).getD 0
      seqs [act (.group gid (some { groupAtStart tk idx t.frame rod (BitVec.ofNat 57 x.eff.kernel) (BitVec.ofNat 64 x.rcbva)
          (BitVec.ofNat 64 x.eff.args) t.sgr (csrAtStart (BitVec.ofNat 18 sidx) x.eff.prio x.runView) s.now with ready := max s.now t.issueAt })),
        upCtx x.ctx fun c => { c with sidx := c.sidx ++ [sidx] },
        upTeam tk fun t => { t with groups := t.groups ++ [gid] }]

/-- `TEAM_START` (R28, R65, R66): every group of the team becomes resident in the pending set of its rod. While a head that has waited 20 µs
has still to start, another team waits. -/
def execTeamStart (team : Nat) (s : State) : Host.Outcome State Fault Refusal :=
  fire s <|
    match s.teams.find team with
    | none => skip
    | some t =>
      let ctx := (s.nodes.find t.node).elim 0 Node.ctx
      let c := s.ctxs.find ctx
      let limit := c.bind Ctx.limit
      let head : Bool := limit = some (t.node, t.index)
      if t.started || !c.elim false (fun c => c.run = .resident) then skip
      else if !head && limit.any s.limits then Sys2Proof.Machine.after 8 (.teamStart team)
      else seqs [upTeam team fun t => { t with started := true }, each (List.range (s.effOf t).groups) (startGroup team),
        when head (andThen (upCtx ctx fun c => { c with limit := none }) (soon (.teamReservation ctx)))]

/-- The operations of a node's teams, retired ones included, that have still to be performed (R202). -/
def State.nodeBusy (s : State) (nk : Nat) : Bool :=
  s.ops.any fun kv => s.nodeOf kv.2 = some nk && (match kv.2.st with
    | .lost => false
    | _ => true)

/-- The groups of a node's teams have all arrived at the superstep or retired, and one has arrived (R179). -/
def State.superstepOver (s : State) (nk : Nat) (n : Node) : Bool :=
  !n.sarrive.isEmpty && n.tnext = n.eff.nteam && !(s.teamsOf nk).isEmpty
    && (s.teamsOf nk).all fun tk => (s.teams.find tk).elim true fun t => t.started && t.groups.all fun g => n.sarrive.contains g

/-- The end of a superstep is looked at (R179). -/
def superstepCheck (nk : Nat) : Eff := on fun s =>
  onSome (s.nodes.find nk) fun n => when (s.superstepOver nk n) (later 1200 4000 (.superstepRelease nk))

/-- Whether a group has drained before `SSTEP` (R179, R196): its CPY, GTH and COL counters, and every access of the group; what its team
has written in its frame alone is performed too, since a thread of it may have seen it. -/
def State.drained (s : State) (gid : Nat) (g : Group) : Bool :=
  g.counter .cpy = 0 && g.counter .gth = 0 && g.counter .col = 0
    && !s.ops.any fun kv =>
      (kv.2.gid = gid && (genPath kv.2.ins || match kv.2.ins with | .ldc .. => true | _ => false) && (kv.2.pending || kv.2.st = .lost))
        || kv.2.frameOnly g.team

/-- `SSTEP_ARRIVE` (R179): a group that has drained arrives; one that waits for stores is looked at again. -/
def execSstepArrive (gid : Nat) (s : State) : Host.Outcome State Fault Refusal :=
  fire s <|
    match s.groups.find gid with
    | none => skip
    | some g =>
      if g.hold ≠ .sstep false then skip
      else if s.drained gid g then
        match s.teams.find g.team with
        | none => skip
        | some t => seqs [upGroup gid fun g => { g with hold := .sstep true },
            upNode t.node fun n => { n with sarrive := n.sarrive ++ [gid] }, superstepCheck t.node]
      else when (g.counter .cpy = 0 && g.counter .gth = 0 && g.counter .col = 0) (after 16 (.sstepArrive gid))

/-- A fatal fault of a paired context on the twin's account (R308), with its event. -/
def twinFatal (nk : Nat) (ty reason a2 a3 : Nat) (key : TwinKey) : Eff := on fun s =>
  onSome (s.nodes.find nk) fun n =>
    andThen (event ty 4 (s.lead n.ctx) n.ctx n.rcbva (key.ordinal % 2 ^ 32 + key.sstep.toNat * 2 ^ 32) a2 a3 (num 2 key.vpath.toNat))
      (fatal n.ctx 0 reason 0 0 0 0)

/-- THE EXCHANGE OF DIGESTS of a paired node (R307, R308) before `go`: the own digest is sent, and `go` follows once the twin's for
the same key has arrived and is equal; `again` is the step that looks again. -/
def exchange (nk : Nat) (sstep : BitVec 32) (again : Instr) (go : Eff) : Eff := on fun s =>
  match s.nodes.find nk with
  | none => skip
  | some n =>
    if !n.eff.paired then go
    else
      let key := s.twinKey n sstep
      match s.twin.mine.find? fun p => p.1 = key with
      | none => seqs [act (.twin { s.twin with mine := s.twin.mine ++ [(key, n.digest)] }), out (.twinDigest key n.digest),
          Sys2Proof.Machine.after (s.csrBits offTOUT 16 0 * 1000) (.twinDigestTimeout key), later 1500 5000 again]
      | some (_, d) =>
        match s.twin.theirs.find? fun p => p.1 = key with
        | none => Sys2Proof.Machine.after 64 again
        | some (_, e) =>
          andThen (act (.twin ⟨s.twin.mine.filter fun p => p.1 ≠ key, s.twin.theirs.filter fun p => p.1 ≠ key⟩))
            (if d = e then go else twinFatal nk 12 3 d.toNat e.toNat key)

/-- `SUPERSTEP_RELEASE` (R179, R307): every group that has arrived goes on. -/
def execSuperstepRelease (node : Nat) (s : State) : Host.Outcome State Fault Refusal :=
  fire s <|
    match s.nodes.find node with
    | none => skip
    | some n =>
      if !s.superstepOver node n then skip
      else exchange node (BitVec.ofNat 32 n.sstep) (.superstepRelease node) <|
        andThen (each n.sarrive fun g => upGroup g fun g => { g with hold := .none, ready := max g.ready s.now })
          (upNode node fun n => { n with sarrive := [], sstep := n.sstep + 1 })

/-- A node whose last team has retired becomes JOINING: its live forks are dropped (R46). -/
def nodeJoins (nk : Nat) : Eff := seqs [setState nk .joining, on fun s => each (s.forksOf nk) dropFork, checkJoin (some nk)]

/-- A team whose groups have all retired retires (R45). -/
def teamRetires (tk : Nat) : Eff := on fun s =>
  match s.teams.find tk with
  | none => skip
  | some t =>
    let n := s.nodes.find t.node
    seqs [each s.ops fun kv => when (kv.2.team = tk) (act (.op kv.1 (some { kv.2 with team := retiredTeam t.node }))),
      act (.team tk none),
      upNode t.node fun n => { n with tdone := n.tdone + 1 },
      rcbWrite t.node,
      onSome n fun n => seqs [superstepCheck t.node, soon (.teamReservation n.ctx),
        on fun s => when ((s.ctxs.find n.ctx).elim false fun c => c.run = .draining) (soon (.drainComplete n.ctx)),
        when (n.tdone + 1 = n.eff.nteam) (nodeJoins t.node)]]

/-- `GROUP_RETIRE` (R45, R69, R155, R178): the group leaves its slot, and what it has left goes on under a number of its own; the team retires
with its last group. Releases on a frame wait
for a `CRESZ` under way. -/
def execGroupRetire (gid : Nat) (s : State) : Host.Outcome State Fault Refusal :=
  fire s <|
    match s.groups.find gid with
    | none => skip
    | some g =>
      if !g.finished then skip
      else match s.teams.find g.team with
        | none => skip
        | some t =>
          if t.groups = [gid] && s.resizing t.frame then Sys2Proof.Machine.after 16 (.groupRetire gid)
          else
            seqs [each s.ops fun kv => when (kv.2.dest = gid || kv.2.gid = gid) (act (.op kv.1 (some { kv.2 with
                dest := if kv.2.dest = gid then 2 ^ 30 else kv.2.dest, gid := if kv.2.gid = gid then retiredGid gid else kv.2.gid }))),
              each s.recs fun kv => when (kv.2.gid = gid) (act (.fr kv.1 (some { kv.2 with gid := retiredGid gid }))),
              upTeam g.team fun t => { t with groups := t.groups.erase gid },
              upCtx (s.ctxOf g) fun c => { c with sidx := c.sidx.filter fun x => x ≠ g.csr.sidx.toNat },
              act (.group gid none),
              fillSlot (rodKey g.frame g.rod),
              each (t.bars.keys) (barrierCheck g.team),
              superstepCheck t.node,
              when (t.groups = [gid]) (teamRetires g.team)]

/-- Whether the children and rivals of a node have finished (R46, R263). -/
def State.kidsFinished (s : State) (nk : Nat) : Bool :=
  s.nodes.all fun kv => kv.2.parent ≠ some nk || kv.2.st.finished

/-- Whether the commit of a view finds room in its parent (R259, R264). -/
def State.commitFits (s : State) (part id : Nat) : Bool :=
  match s.views.find (viewKey part id) with
  | none => true
  | some v =>
    v.parent = 0 || match s.views.find (viewKey part v.parent) with
      | none => true
      | some p => !viewFull s part v.parent (2 ^ 41) (v.secs.keys.filter fun x => (p.secs.find x).isNone)

/-- The sectors that a view holds. -/
def State.copiesOf (s : State) (part id : Nat) : Nat := (s.views.find (viewKey part id)).elim 0 fun v => v.secs.length

/-- Copies of a view that lie in the overflow area. -/
def State.spilledOf (s : State) (part id : Nat) : Nat :=
  (s.views.find (viewKey part id)).elim 0 fun v => (v.secs.filter fun c => c.2.slot.isSome).length

/-- Best and worst clocks of a commit after `best` and `worst`: 1 / 4 for each sector, and the read of each that lies in the overflow area
(Table 11.7, R267). -/
def State.commitPair (s : State) (part id best worst : Nat) : Nat × Nat :=
  let n := s.copiesOf part id
  let m := s.spilledOf part id
  (best + n + 120 * m, worst + 4 * n + 300 * m)

/-- A commit begins (R199): its sectors are to be written, one by one, by step `i`; what it needs in the parent is reserved from now on. -/
def commitBegins (part id : Nat) (i : Instr) : Eff := on fun s =>
  onSome (s.views.find (viewKey part id)) fun v => freely fun f =>
    andThen (act (.view (viewKey part id) (some { v with commit := some v.secs.keys }))) (after (1 + Config.pick f % 2000) i)

/-- One sector of a commit (R199): replaced whole in the parent as one write, or poisoned with cause CONFLICT when the parent's value has
changed since the copy was taken. -/
def commitSector (part id sec : Nat) : Eff := on fun s =>
  onSome (s.views.find (viewKey part id)) fun v =>
    andThen (act (.view (viewKey part id) (some { v with commit := some ((v.commit.getD v.secs.keys).erase sec) })))
      (onSome (v.secs.find sec) fun c =>
        if c.changed then conflict part v.parent sec id
        else writeSectorBy (some (s.commitBy v)) part v.parent sec 0 c.bytes c.poison.isNone c.poison)

/-- A commit goes on (R199): one of its sectors, of the device's choice, and the next a free time later. -/
def commitGoes (v : View) (i : Instr) : Eff := freely fun f => freely fun g =>
  let l := v.commit.getD []
  andThen (onSome (l[Config.pick f % max 1 l.length]?) (commitSector v.part v.id)) (when (1 < l.length) (after (1 + Config.pick g % 64) i))

/-- COMMIT of a view into its parent ends: the sectors that are left (R199). -/
def commitView (part id : Nat) : Eff := on fun s =>
  onSome (s.views.find (viewKey part id)) fun v => each (v.commit.getD v.secs.keys) (commitSector part id)

/-- The step that ends the commit of a node's private view. -/
def commitEnd (n : Node) (nk : Nat) : Instr := if n.rival.isSome then .rivalComplete nk else .nodeDone nk

/-- `NODE_COMMITTING` (R46, R199, R259, R267, R481): a guarded node whose teams, children and rivals have finished commits its view; a commit
without room waits for the supervisor, with the VIEWFULL report. A commit of the node's view that is under way writes a sector. -/
def execNodeCommitting (node : Nat) (s : State) : Host.Outcome State Fault Refusal :=
  fire s <|
    match s.nodes.find node with
    | none => skip
    | some n =>
      let part := s.lead n.ctx
      match s.views.find? fun kv => kv.2.node = some node && (kv.2.commit.getD []) ≠ [] with
      | some kv => commitGoes kv.2 (.nodeCommitting node)
      | none =>
      if !(n.st = .joining || (n.st = .committing && n.waits)) || !n.eff.guarded || !s.kidsFinished node then skip
      else if s.nodeBusy node then Sys2Proof.Machine.after 16 (.nodeCommitting node)
      else
        let v := n.priv.getD 0
        let p := s.commitPair part v 2000 6000
        andThen (when (n.st = .joining) (setState node .committing))
          (if s.commitFits part v then
            seqs [upNode node fun n => { n with waits := false }, commitBegins part v (.nodeCommitting node), later p.1 p.2 (commitEnd n node)]
          else andThen (upNode node fun n => { n with waits := true })
            (event 4 4 part n.ctx n.rcbva (part + n.view * 16) 0 0 []))

/-- The end of a node's own commit: the view's sectors reach the parent, and the view is dropped. -/
def commitPrivate (nk : Nat) : Eff := on fun s =>
  onSome (s.nodes.find nk) fun n => onSome n.priv fun v =>
    seqs [commitView (s.lead n.ctx) v, upNode nk fun n => { n with priv := none }, dropView (s.lead n.ctx) v]

/-- `NODE_DONE` (R46, R202, R267, R307): a node whose teams, children and rivals have finished, and whose accesses have been
performed, becomes DONE; a guarded one when its commit ends, a paired one when the digests agree. -/
def execNodeDone (node : Nat) (s : State) : Host.Outcome State Fault Refusal :=
  fire s <|
    match s.nodes.find node with
    | none => skip
    | some n =>
      let due := if n.eff.guarded then n.st = .committing && !n.waits else n.st = .joining && s.kidsFinished node
      if !due || n.rival.isSome then skip
      else if s.nodeBusy node then Sys2Proof.Machine.after 16 (.nodeDone node)
      else exchange node 0xFFFFFFFF#32 (.nodeDone node) (andThen (commitPrivate node) (doneNode node))

/-- `RIVAL_COMPLETE` (R263, R481): a rival whose teams and children have finished becomes COMPLETE; its own forks are dropped, a
guarded one's private view is committed into its rival view. A `CHOOSE` that waits for it goes on. -/
def execRivalComplete (node : Nat) (s : State) : Host.Outcome State Fault Refusal :=
  fire s <|
    match s.nodes.find node with
    | none => skip
    | some n =>
      let due := if n.eff.guarded then n.st = .committing && !n.waits else n.st = .joining && s.kidsFinished node
      if !due || n.rival.isNone then skip
      else if s.nodeBusy node then Sys2Proof.Machine.after 16 (.rivalComplete node)
      else
        seqs [commitPrivate node, upNode node fun n => { n with st := .complete }, chooseAgain]

end Sys2Proof.Machine
end

