-- ==== Sys2Proof/Machine/Worlds.lean ====
section
/-!
DEFINITION. Worlds.lean: `FORKW`, `CHOOSE`, `WDROP`, `LDV`, `LAUNCH` and the steps that end them (R261 to R266, R364, R396, R397, R408
to R410, R418, R419, R470, R481).
-/
namespace Sys2Proof.Machine

/-- The retirement of an operation of class SVC: results written, its scoreboard cleared, the group goes on (R161, R261). -/
def svcRetires (id : Nat) (o : Op) (w : List PendKind) : Eff := on fun s =>
  seqs [deliver o.dest o.issued (w.map fun k => ⟨s.now + 1, k⟩), clearSb o,
    upGroup o.dest fun g => if g.hold = .op id then { g with hold := .none, ready := max g.ready (s.now + 1) } else g,
    act (.op id none), retireOp o.gid id]

/-- The payload of the poisoned lane guard of an operation that acts once, kept as an access that is done (R253). -/
def guardKept (c : Iss) : List Acc :=
  ((c.on.lanes.findSome? fun L => c.gpoi.getD L none).map fun w => (⟨0, 0, none, [⟨w, true⟩], true, []⟩ : Acc)).toList

/-- The write of a status into a uniform destination; under a poisoned lane guard it has the guard's payload (R253). -/
def statusTo (o : Op) (d : Dst) (w : Word) : List PendKind :=
  if d.nwb then [] else [.ws d.idx.toNat ((o.accs.head?.bind fun a => a.dat.head?).getD (clean w))]

/-- An operation of class SVC that begins: counted, and holding its group when `holds`. -/
def svcBegins (c : Iss) (i : Instr) (vals : Lanes) (holds : Bool) (f : Nat → Eff) : Eff :=
  newOp c i .sent (guardKept c) vals [] fun id =>
    seqs [countIn c.gid id .svc, when holds (upGroup c.gid fun g => { g with hold := .op id }), f id]

/-- `FORKW` (R261, R263, R396, R397). -/
def execForkw (h : Head) (d : Dst) (a b : Src) (s : State) : Host.Outcome State Fault Refusal :=
  let i : Instr := .forkw h d a b
  issue i s fun c s =>
    consuming c s i [1, 2] false <|
      let n := c.uni 1 a 0
      if n.val.toNat < 2 || 16 < n.val.toNat then .trap .illop 0#64
      else .done (svcBegins c i [n, c.uni 2 b 0, c.uni 2 b 1] true fun id => later 1500 4000 (.forkwRetire id))

/-- The live views that count against a node's `BVIEW` (R49, R481): those of forks issued below it, guarded rivals' private views,
and the private views of guarded nodes. -/
def State.viewsOf (s : State) (nk : Nat) : Nat :=
  let under := nk :: s.descendants nk
  ((s.forks.filter fun kv => kv.2.live && under.contains kv.2.issuer).map fun kv =>
      kv.2.views.length * (if kv.2.rivals.any fun r => (s.nodes.find r).elim false fun n => n.eff.guarded then 2 else 1)).sum
    + (s.nodes.filter fun kv => under.contains kv.1 && kv.2.rival.isNone && kv.2.priv.isSome).length

/-- Views that are free in a partition, `n` of them, if there are as many. -/
def takeViews (s : State) (part : Nat) : Nat → Option (List Nat)
  | 0 => some []
  | n + 1 => (takeViews s part n).bind fun l =>
    (freeId (l ++ (s.views.filter fun kv => kv.2.part = part).map fun kv => kv.2.id) 1 255 (Config.pick s.free)).map fun v => l ++ [v]

/-- The outcome of `FORKW` in `sD` and `f0` (R263): Z and O as given. -/
def forkResult (op : Op) (d : Dst) (h : Word) (z o : Bool) : List PendKind :=
  statusTo op d h ++ (if d.nwb then [] else [.wfBits 0 0b0101#4 ((if z then 0b0100#4 else 0#4) ||| (if o then 0b0001#4 else 0#4))])

/-- `FORKW_RETIRE` (R263, R481): the RCB is read in the issuer's view and checked as a child of the issuing node; then a slot and the
views are taken and the rivals registered, READY at once. -/
def forkRetire (id : Nat) (o : Op) (d : Dst) (nk : Nat) (issuer : Node) : Eff := on fun s =>
  let lead := s.lead o.ctx
  let n := (o.vals.getD 0 (clean 0#32)).val.toNat
  let va := ((o.vals.getD 2 (clean 0#32)).val ++ (o.vals.getD 1 (clean 0#32)).val).toNat
  match s.readRcb o.ctx o.view va false with
  | .error _ => svcRetires id o (forkResult o d 0#32 true true)
  | .ok bytes =>
    let r := Rcb.ofBytes bytes
    let e := effective (s.pceil lead) r (some issuer.eff)
    let ok := launchable s o.ctx va bytes r { e with guarded := false } (some (some nk))
    let deep := s.viewDepth lead o.view + (if e.guarded then 2 else 1)
    let slot := (List.range 64).find? fun k => !((s.forks.find (64 * partOf o.frame + k)).elim false Fork.live)
    let budget := (s.ancestry s.nodes.length nk).all fun a =>
      (s.nodes.find a).elim true fun m => s.viewsOf a + n * (if e.guarded then 2 else 1) ≤ m.eff.bview
    if !ok then svcRetires id o (forkResult o d 0#32 true true)
    else match slot, if deep ≤ 4 && budget then takeViews s lead n else none with
      | some k, some vs =>
        let fk := 64 * partOf o.frame + k
        let gen := (s.forks.find fk).elim 0#22 Fork.gen
        let node (i v : Nat) : Node :=
          { ctx := o.ctx, rcbva := va, eff := e, st := .ready, req := 0, tdone := 0, tnext := 0, parent := some nk, view := v,
            rcbView := o.view, priv := none, escaped := false, rival := some (fk, i),
            order := (s.ctxs.find o.ctx).elim 0 Ctx.regs + i, readyAt := s.ids + i, queue := none, sig := none, sarrive := [],
            sstep := 0, digest := 0#64, waits := false }
        let keys := (List.range n).map fun i => s.ids + i
        seqs [act (.free (s.free + 1)), act (.ids (s.ids + n)),
          each (vs.zip (List.range n)) fun p => andThen
            (act (.view (viewKey lead p.1) (some ⟨lead, p.1, o.view, s.viewDepth lead o.view + 1, false, some (s.ids + p.2), none, []⟩)))
            (act (.node (s.ids + p.2) (some (node p.2 p.1)))),
          act (.fork fk (some ⟨true, lead, gen, nk, o.view, keys, vs⟩)),
          upCtx o.ctx fun c => { c with regs := c.regs + n },
          soon (.teamReservation o.ctx),
          svcRetires id o (forkResult o d (gen ++ BitVec.ofNat 4 (n - 1) ++ BitVec.ofNat 6 k) false false)]
      | _, _ => svcRetires id o (forkResult o d 0#32 true false)

/-- `FORKW_RETIRE`; it waits while the context holds 4,096 unfinished nodes (R59). -/
def execForkwRetire (id : Nat) (s : State) : Host.Outcome State Fault Refusal :=
  fire s <|
    match s.ops.find id with
    | none => skip
    | some o =>
      match o.ins, (s.nodeOf o).bind fun k => (s.nodes.find k).map fun n => (k, n) with
      | .forkw _ d _ _, some (nk, n) =>
        if 4096 < s.unfinished o.ctx + (o.vals.getD 0 (clean 0#32)).val.toNat then after 256 (.forkwRetire id)
        else forkRetire id o d nk n
      | _, _ => skip

/-- Whether a view is one of a fork's rivals' or nested in one (R364). -/
def State.insideFork (s : State) (fk view : Nat) : Bool :=
  (s.forks.find fk).elim false fun f => f.views.any fun v => (s.viewsUnder f.vpart v).contains view

/-- `CHOOSE` (R264, R364). -/
def execChoose (h : Head) (d : Dst) (a b : Src) (s : State) : Host.Outcome State Fault Refusal :=
  let i : Instr := .choose h d a b
  issue i s fun c s =>
    consuming c s i [1, 2] false <|
      let x := c.uni 1 a 0
      let k := c.uni 2 b 0
      if forkCount x.val ≤ k.val.toNat then .trap .illop 0#64
      else .done (svcBegins c i [x, k] true fun id => later 1500 4000 (.chooseRetire id))

/-- `WDROP` (R264, R470). -/
def execWdrop (h : Head) (a : Src) (s : State) : Host.Outcome State Fault Refusal :=
  let i : Instr := .wdrop h a
  issue i s fun c s =>
    consuming c s i [1] false <| .done <|
      svcBegins c i [c.uni 1 a 0] true fun id => later 2000 42000 (.wdropRetire id)

/-- The handle of a world operation. -/
def Op.handle (o : Op) : Word := (o.vals.getD 0 (clean 0#32)).val

/-- An earlier `CHOOSE` or `WDROP` on the same handle that has not acted yet (R364). -/
def State.behindWorldOp (s : State) (id : Nat) (o : Op) : Bool :=
  s.ops.any fun kv => kv.1 < id && partOf kv.2.frame = partOf o.frame && kv.2.handle = o.handle && (match kv.2.ins with
    | .choose .. | .wdrop .. => true
    | _ => false)

/-- Those that wait behind a world operation look again. -/
def nextWorldOp (o : Op) : Eff := on fun s =>
  each s.ops fun kv => when (kv.2.st = .waiting && kv.2.handle = o.handle) (match kv.2.ins with
    | .choose .. => soon (.chooseRetire kv.1)
    | .wdrop .. => soon (.wdropRetire kv.1)
    | _ => skip)

/-- Rival `k` of a fork: its node, if it has not been dropped. -/
def State.rivalNode (s : State) (fk k : Nat) : Option (Nat × Node) :=
  s.nodes.find? fun kv => kv.2.rival = some (fk, k)

/-- A `CHOOSE` goes on to stage `g` of its retirement, `best` to `worst` clocks later. -/
def chooseStage (id g best worst : Nat) : Eff :=
  andThen (upOp id fun o => { o with st := .sent, seg := g }) (later best worst (.chooseRetire id))

/-- The commit of a `CHOOSE` (R199, R264): the chosen view's sectors reach the parent, the losers stop, every view is dropped and the
slot is free. -/
def chooseCommit (id : Nat) (o : Op) (d : Dst) (fk k : Nat) : Eff := on fun s =>
  onSome (s.forks.find fk) fun f =>
    let v := f.views.getD k 0
    let esc := (s.views.find (viewKey f.vpart v)).elim false View.escaped
    seqs [commitView f.vpart v, dropFork fk, svcRetires id o (statusTo o d (if esc then 0x100#32 else 0#32)), nextWorldOp o,
      checkJoin (some f.issuer), soon (.teamReservation o.ctx)]

/-- `CHOOSE_RETIRE` (R264, R364): the stages of a `CHOOSE`: 0 it reaches the lead processor, or waits behind another world operation on the
handle; 1 the commit ends; 2 rival k failed or was dropped; 3 the supervisor refused room for the commit; 4 it waits for rival k. -/
def chooseRetire (id : Nat) (o : Op) (d : Dst) : Eff := on fun s =>
  let k := (o.vals.getD 1 (clean 0#32)).val.toNat
  let ends (w : Word) := andThen (svcRetires id o (statusTo o d w)) (nextWorldOp o)
  match s.forkAt o.frame o.handle with
  | none => if o.seg = 2 then ends 1#32 else if o.seg = 3 then ends 3#32
    else if o.seg = 4 then chooseStage id 2 2000 6000 else ends 2#32
  | some fk =>
    if s.insideFork fk o.view then ends 2#32
    else if s.behindWorldOp id o then upOp id fun o => { o with st := .waiting }
    else
      let f := (s.forks.find fk).getD ⟨false, 0, 0#22, 0, 0, [], []⟩
      let v := f.views.getD k 0
      let failed := (s.rivalNode fk k).elim true fun p => p.2.st.finished
      if o.seg = 1 then chooseCommit id o d fk k
      else if o.seg = 2 then ends 1#32
      else if o.seg = 3 then ends 3#32
      else if failed then (if o.seg = 4 then chooseStage id 2 2000 6000 else chooseStage id 2 500 2000)
      else if (s.rivalNode fk k).elim false fun p => p.2.st = .complete then
        if s.commitFits f.vpart v then
          (let p := if o.seg = 4 then s.commitPair f.vpart v 2000 6000 else s.commitPair f.vpart v 500 2000
          andThen (commitBegins f.vpart v (.nodeCommitting ((s.rivalNode fk k).elim 0 Prod.fst))) (chooseStage id 1 p.1 p.2))
        else andThen (upOp id fun o => { o with st := .parkedHome })
          (event 4 4 f.vpart o.ctx ((s.nodes.find f.issuer).elim 0 Node.rcbva) (f.vpart + f.view * 16) 0 0 [])
      else upOp id fun o => { o with st := .waiting, seg := 4 }

/-- `CHOOSE_RETIRE`. -/
def execChooseRetire (id : Nat) (s : State) : Host.Outcome State Fault Refusal :=
  fire s <| onSome (s.ops.find id) fun o =>
    match o.ins with
    | .choose _ d _ _ => chooseRetire id o d
    | _ => skip

/-- `WDROP_RETIRE` (R264, R470): every rival of a live handle is stopped and every view dropped. -/
def execWdropRetire (id : Nat) (s : State) : Host.Outcome State Fault Refusal :=
  fire s <| onSome (s.ops.find id) fun o =>
    match o.ins with
    | .wdrop .. =>
      if s.behindWorldOp id o && (s.forkAt o.frame o.handle).isSome then upOp id fun o => { o with st := .waiting }
      else match s.forkAt o.frame o.handle with
        | none => andThen (svcRetires id o []) (nextWorldOp o)
        | some fk =>
          let issuer := (s.forks.find fk).map Fork.issuer
          seqs [when (!s.insideFork fk o.view) (dropFork fk), svcRetires id o [], nextWorldOp o, checkJoin issuer,
            soon (.teamReservation o.ctx)]
    | _ => skip

/-- `LDV` (R266, R418, R419). -/
def execLdv (h : Head) (d : Dst) (a b : Src) (k : BitVec 4) (s : State) : Host.Outcome State Fault Refusal :=
  let i : Instr := .ldv h d a b k
  issue i s fun c s =>
    let x := c.uni 2 b 0
    if !x.poi && forkCount x.val ≤ k.toNat then .trap .illop 0#64
    else
      let l := addrs c false a 0#6 4 c.on.lanes
      let bad := badAddrs c false a 0#6 4 c.on.lanes
      aligned c false 4 l <|
        let gone (w : Word) : Eff := newOp c i .performed (l.map (fun p => doneAcc p.1 w) ++ bad.map fun p => doneAcc p.1 p.2) [x] []
          fun id => andThen (contWaits c id) (later 193 413 (.loadReturn id))
        if x.poi then .done (gone x.val)
        else match s.forkAt c.g.frame x.val with
          | none =>
            if l = [] then .done (gone 0#32)
            else .done (origin ⟨.viewgone, c.g.frame, 7, (l.headD (0, 0)).2 % 2 ^ 57, c.pc, s.fdomOf c.g, c.g.csr.vid, gslotOf c.gid⟩ gone)
          | some fk =>
            let v := ((s.forks.find fk).elim [] Fork.views).getD k.toNat 0
            let spill (ac : Acc) := ((s.views.find (viewKey (s.lead (s.ctxOf c.g)) v)).bind fun w => w.secs.find (secOf ac.pa)).elim false fun c => c.slot.isSome
            match globalLoad c s i d l bad (fun _ _ => none)
                (fun ok => let p := loadPair s c.g.frame (s.lead (s.ctxOf c.g)) v ok; if ok.any spill then (p.1 + 120, p.2 + 300) else p) (orderedBefore s c i) with
            | .done e => .done (andThen e (on fun s => upOp (s.ids - 1) fun o => if o.ins = i then { o with view := v, vals := [x] } else o))
            | r => r

/-- `LAUNCH` (R408 to R410): a release at SYS scope, so the RCB is read when the group's earlier accesses have been performed. -/
def execLaunch (h : Head) (d : Dst) (a : Src) (s : State) : Host.Outcome State Fault Refusal :=
  let i : Instr := .launch h d a
  issue i s fun c s =>
    consuming c s i [1] false <| .done <|
      waitFor c i (guardKept c) [c.uni 1 a 0, c.uni 1 a 1] (pendingOf s c i) fun id => countIn c.gid id .svc

/-- `LAUNCH_RETIRE` (R59, R409): registration ends with the status of Table 17.2. -/
def execLaunchRetire (id : Nat) (s : State) : Host.Outcome State Fault Refusal :=
  fire s <| onSome (s.ops.find id) fun o =>
    match o.ins with
    | .launch _ d _ =>
      if 4096 ≤ s.unfinished o.ctx then after 256 (.launchRetire id)
      else
        let va := ((o.vals.getD 1 (clean 0#32)).val ++ (o.vals.getD 0 (clean 0#32)).val).toNat
        registerNode o.ctx o.view va (s.nodeOf o) none none fun r =>
          svcRetires id o (statusTo o d (match r with
            | .unreadable _ => 2#32
            | .duplicate => 3#32
            | .node _ ok => if ok then 0#32 else 1#32))
    | _ => skip

end Sys2Proof.Machine
end

