-- ==== Sys2Proof/Machine/Commands.lean ====
section
/-!
DEFINITION. Commands.lean: the supervisor's commands on fault records, on ranges at their homes, and on views that are full (R221, R237,
R242 to R249, R259, R477).
-/
namespace Sys2Proof.Machine

/-- The OPEN record of a partition with a sequence number; a record behind a full ring has none yet (R237, R242). -/
def State.openRec (s : State) (part : Nat) (seq : Word) : Option (Nat × FRec) :=
  s.recs.find? fun kv => kv.2.part = part && kv.2.seq = seq && kv.2.status = 0
    && !(s.waitRec.findD part []).any fun w => w.cmd = some kv.1

/-- The threads that a record stops (R242): those that hold its fault, or that are parked at the instruction whose lookup failed. -/
def recThreads (g : Group) (key : Nat) (r : FRec) : Mask := Mask.of fun n =>
  match r.kind with
  | 0 => (g.th n).faults.any fun f => f.fr = key
  | _ => (g.th n).park = some (.lookup key)

/-- The records of a record's region: those of every fault that its threads hold (R242). -/
def regionRecs (g : Group) (key : Nat) (r : FRec) : List Nat :=
  if r.kind = 0 then sortNat (key :: (Mask.lanes (recThreads g key r)).flatMap fun n => (g.th n).faults.map HeldFault.fr) else [key]

/-- Whether the region of a record already has a command (R242). -/
def regionTaken (s : State) (key : Nat) (r : FRec) : Bool :=
  ((s.groups.find r.gid).elim [key] fun g => regionRecs g key r).any fun k => (s.recs.find k).elim false fun x => x.cmd.isSome

/-- Whether a load's fault is still on its way to the threads that it fails. -/
def onItsWay (s : State) (g : Group) (key : Nat) : Bool :=
  (s.ops.any fun kv => kv.2.held.any fun h => h.fr = key)
    || g.pend.any fun p => match p.kind with
      | .hold _ f => f.fr = key
      | _ => false

/-- Whether the threads of a record's region have parked, so that a command can be applied (R242); an engine's fault has none, and a lost
store's group may also be held, or gone. -/
def recParked (s : State) (key : Nat) (r : FRec) : Bool :=
  match s.groups.find r.gid with
  | none => true
  | some g =>
    if r.kind = 7 then g.hold ≠ .none || (List.range 32).any fun n => (g.th n).park = some .lost
    else (4 ≤ r.kind) || (!(r.kind = 0 && onItsWay s g key) && (recThreads g key r).lanes.all fun n => (g.th n).park.isSome)

/-- Poison payloads of a group changed by `f`, in every register, latch and result in flight. -/
def Group.mapPoison (f : Word → Word) (g : Group) : Group :=
  let e (x : Elem) : Elem := if x.poi then { x with val := f x.val } else x
  let fl (x : FlagE) : FlagE := if x.poi then { x with pay := f x.pay } else x
  let la (x : LatchE) : LatchE := if x.poi then { x with val := f x.val } else x
  let pk : PendKind → PendKind
    | .wv n m x => .wv n m (x.map e)
    | .ws n x => .ws n (e x)
    | .wc n m x => .wc n m (x.map fl)
    | .wf n x => .wf n (fl x)
    | .push h m x => .push h m (x.map e)
    | .ret h m x => .ret h m (x.map e)
    | .ocap n m x => .ocap n m (x.map e)
    | k => k
  { g with v := g.v.mapVal fun l => l.map e, s := g.s.mapVal e, c := g.c.mapVal fun l => l.map fl, f := g.f.mapVal fl,
           q := g.q.mapVal fun l => l.map la, o := g.o.mapVal fun l => l.map la,
           pend := g.pend.map fun p => ⟨p.clk, pk p.kind⟩ }

/-- PAGE poison of the payloads of a list becomes PAGEX, its frame and entry unchanged (R244). -/
def toPagex (l : List Word) (w : Word) : Word :=
  if causeOf w = PCause.page.code && l.contains w then PCause.pagex.code ++ w.extractLsb' 0 28 else w

/-- A command is applied to a record (R242 to R244, R246): REPLAY first removes the walk paths of the failing pages, CANCEL first turns
the region's poison into PAGEX; re-issue starts 2,000 / 8,000 clocks later. -/
def applyCommand (key : Nat) (r : FRec) (replay : Bool) : Eff := on fun s =>
  let rs := ((s.groups.find r.gid).elim [key] fun g => regionRecs g key r).filterMap s.recs.find
  if !replay && (r.kind = 4 || r.kind = 5) then andThen (act (.fr key none)) (engineCancel r.op key)
  else
    let pays := rs.map FRec.payload
    seqs [act (.fr key (some { r with cmd := some (if replay then 3 else 4) })),
      if replay then each (rs.flatMap FRec.pages) (dropPath r.ctx)
      else when (r.kind = 0) (each s.groups fun kv =>
        when (kv.1 = r.gid || kv.2.cont.map Prod.fst = some r.gid) (act (.group kv.1 (some (kv.2.mapPoison (toPagex pays)))))),
      later 2000 8000 (.replayReissue r.part r.seq)]

/-- Whether a context is resident. -/
def State.resident (s : State) (ctx : Nat) : Bool := (s.ctxs.find ctx).elim false fun c => c.run = .resident || c.run = .draining

/-- A write to `FQCMD` (R242): its result in `FQSTAT`, and its effect. -/
def fqcmd (part : Nat) (seq : Word) (replay : Bool) : Eff := on fun s =>
  let res (n : Nat) := setCsr (offFQSTAT part) (BitVec.ofNat 64 n)
  match s.openRec part seq with
  | none =>
    res (if s.saved.any fun kv => kv.2.recs.any fun p => p.2.part = part && p.2.seq = seq && p.2.status = 0 then 2 else 1)
  | some (key, r) =>
    if !s.resident r.ctx then res 2
    else if regionTaken s key r then res 1
    else if replay && 8 ≤ r.rcnt then res 3
    else andThen (res 0)
      (if recParked s key r then applyCommand key r replay
      else act (.fr key (some { r with cmd := some (if replay then 1 else 2) })))

/-- `FQCMD_REPLAY` (R221, R242, R243, R246). -/
def execFqcmdReplay (part : Nat) (seq : Word) (s : State) : Host.Outcome State Fault Refusal := fire s (fqcmd part seq true)

/-- `FQCMD_CANCEL` (R221, R242, R244, R246). -/
def execFqcmdCancel (part : Nat) (seq : Word) (s : State) : Host.Outcome State Fault Refusal := fire s (fqcmd part seq false)

/-- `FQCMD_DEFERRED_APPLY` (R242): the threads of a held command have parked. -/
def execFqcmdDeferredApply (part : Nat) (seq : Word) (s : State) : Host.Outcome State Fault Refusal :=
  fire s <| onSome (s.openRec part seq) fun p =>
    when ((p.2.cmd = some 1 || p.2.cmd = some 2) && recParked s p.1 p.2) (applyCommand p.1 p.2 (p.2.cmd = some 1))

/-- Records of a list whose fault no thread of the group holds any more are resolved. -/
def resolve (gid : Nat) (l : List Nat) : Eff := on fun s =>
  each l fun k => when ((s.groups.find gid).elim true fun g =>
    !(List.range 32).any fun n => ((g.th n).faults.any fun f => f.fr = k) || (g.th n).park = some (.lookup k)) (act (.fr k none))

/-- The PC of the oldest faulting load that a thread holds (R243). -/
def Thread.oldest (th : Thread) : BitVec 57 :=
  match th.faults with
  | [] => th.pc
  | f :: l => (l.foldl (fun a b => if b.seq < a.seq then b else a) f).pc

/-- The records that the threads of a region leave behind: those of the faults that they hold, and of the instructions at which they are
parked (R242). -/
def leftRecs (g : Group) (key : Nat) (r : FRec) : List Nat :=
  regionRecs g key r ++ (recThreads g key r).lanes.filterMap fun n =>
    match (g.th n).park with
    | some (.lookup k) => some k
    | _ => none

/-- A thread whose region has a command: it runs on, its faults discarded; those of a store, atomic or fetch keep the faults of their
region (R243, R244). -/
def Thread.resumed (r : FRec) (th : Thread) : Thread := { th with faults := if r.kind = 0 then [] else th.faults, park := none }

/-- The threads of a region run again from the oldest faulting load that each holds, those of a store, atomic or fetch at it (R243). The
registers of a kernel that breaks R240 take what this second execution computes (DESIGN CHOICE, log entry 79). -/
def rerun (key : Nat) (r : FRec) : Eff := on fun s => onSome (s.groups.find r.gid) fun g =>
  let T := recThreads g key r
  let rs := regionRecs g key r
  let again := (rs.filterMap s.recs.find).map fun x => (⟨x.pc, T &&& (if r.kind = 0 then x.lmask else T), x.rcnt⟩ : Replay)
  seqs [upGroup r.gid fun g => { g.mapTh T fun _ th =>
      { th.resumed r with pc := if r.kind = 0 then th.oldest else th.pc } with replays := g.replays ++ again },
    resolve r.gid (leftRecs g key r), heldCommands r.gid]

/-- The threads of a cancelled region resume where they parked, and the group traps with `PAGEX` before it issues the instruction there
(R244); `TADDR` is to hold the `VA` of the region's oldest record. -/
def trapCancelled (key : Nat) (r : FRec) : Eff := on fun s => onSome (s.groups.find r.gid) fun g =>
  let va := ((regionRecs g key r).filterMap s.recs.find).head?.elim r.va FRec.va
  seqs [upGroup r.gid fun g => g.mapTh (recThreads g key r) fun _ th =>
      { th.resumed r with doom := some ⟨Trap.pagex.code, BitVec.ofNat 64 va, false⟩ },
    resolve r.gid (key :: leftRecs g key r), heldCommands r.gid]

/-- The threads that a group's lost stores have parked run again once none is left (R221). -/
def lostOver (gid key : Nat) : Eff := upGroup gid fun g =>
  let l := g.lost.erase key
  let g := { g with lost := l }
  if l = [] then g.mapTh 0xFFFFFFFF#32 fun _ th => if th.park = some .lost then { th with park := none } else th else g

/-- A lost store is sent again with a new stamp (R221). -/
def resend (key : Nat) (r : FRec) : Eff := on fun s =>
  seqs [act (.fr key none), lostOver r.gid key,
    onSome (s.ops.find r.op) fun o =>
      let o2 := { o with st := .sent, issued := s.now, sentAt := s.now, asked := [] }
      let p := storePair s o2
      let q := pairFor s o.frame o.accs (100, 230) (160, 320)
      andThen (act (.op r.op (some o2)))
        (match o.ins with
        | .atom .. | .acas .. | .red .. | .xadd .. | .xrd .. => later q.1 q.2 (.homeSideAtomic ⟨r.op, none⟩)
        | _ => later p.1 p.2 (.grant ⟨r.op, none⟩))]

/-- A lost store is dropped, and its group traps with `PAGEX` when it resumes (R221): before the next issue of the threads that it has
parked, or, where another wait held the group, of any thread. -/
def dropLost (key : Nat) (r : FRec) : Eff := on fun s =>
  seqs [when (s.ops.find r.op).isSome (opEnds r.op), act (.fr key none),
    upGroup r.gid fun g =>
      let parked := Mask.of fun n => (g.th n).park = some .lost
      let m := if parked = 0#32 then Mask.of fun n => (g.th n).st = .run else parked
      g.mapTh m fun _ th => { th with doom := some ⟨Trap.pagex.code, BitVec.ofNat 64 r.va, true⟩ },
    lostOver r.gid key]

/-- `REPLAY_REISSUE` (R221, R242 to R244, R246, R477). -/
def execReplayReissue (part : Nat) (seq : Word) (s : State) : Host.Outcome State Fault Refusal :=
  fire s <| onSome (s.openRec part seq) fun p =>
    let key := p.1
    let r := p.2
    if r.cmd = some 3 then
      if r.kind ≤ 3 then rerun key r
      else if r.kind = 7 then resend key r
      else andThen (act (.fr key none)) (engineReplay r.op key r.rcnt)
    else if r.cmd = some 4 then if r.kind = 7 then dropLost key r else trapCancelled key r
    else skip

/-- `FAULT_BUFFER_DRAIN` (R237): the oldest record behind the ring takes its number and is written; a record resolved meanwhile stays
resolved. -/
def execFaultBufferDrain (part : Nat) (s : State) : Host.Outcome State Fault Refusal :=
  fire s <|
    match s.waitRec.findD part [] with
    | [] => skip
    | r :: l =>
      if s.faultFull part then skip
      else
        let key := r.cmd.getD 0
        let live := s.recs.find key
        let seq := BitVec.ofNat 32 (s.csr (offFQWR part)).toNat
        seqs [act (.waitRec part (if l = [] then none else some l)),
          recPut key { r with cmd := none },
          when (r.status ≠ 1) (act (.fr key (live.map fun x => { x with seq := seq }))),
          when (!l.isEmpty) (soon (.faultBufferDrain part))]

/-- Bytes of a range of a home command (Table 10.10); size 3 is reserved. -/
def rangeBytes (n : BitVec 2) : Option Nat := match n.toNat with | 0 => some (2 ^ 16) | 1 => some (2 ^ 21) | 2 => some (2 ^ 30) | _ => none

/-- A home command: `MIGCTL` takes the size, and `f` acts on the base and the size of a range that is homed here (R247). -/
def homeCommand (size : BitVec 2) (f : Nat → Nat → Eff) : Eff := on fun s =>
  let src := s.csrBits offMIGSRC 51 0
  andThen (setCsrBits offMIGCTL 4 3 size.toNat)
    (match rangeBytes size, s.region src with
    | some n, some r => when (r.pkg = s.ownPkg && !r.host) (f (src / n * n) n)
    | _, _ => skip)

/-- Whether a sector lies in a range. -/
def inRange (src n sec : Nat) : Bool := src ≤ 64 * sec && 64 * sec < src + n

/-- The lines of a range, in every view, that the directory does not have in I. -/
def State.heldIn (s : State) (src n : Nat) : List (Nat × DirSec) := s.dirSecs.filter fun q => inRange src n (secAt q.1)

/-- A range is recalled to its home (R248): every bead and directory holder on the package gives up its sectors; those outside are
snooped, once the transaction in progress on a sector has ended. -/
def recallRange (src n : Nat) : Eff := on fun s =>
  let me : Waiting := ⟨.hub s.ownPkg, .markComplete, none⟩
  let lines := sortNat ((s.beads.keys.map fun k => k / 4).filter (fun x => inRange src n (secAt x)) ++ (s.heldIn src n).map Prod.fst)
  seqs [each lines fun x => each (List.range 4) fun d => yieldDie d x,
    on fun s => each (s.heldIn src n) fun q =>
      let far := q.2.holders.filter s.external
      when (s.transOf q.1).cur.isNone
        (andThen (setDir q.1 (if far = [] then .i else q.2.st) far) (when (far ≠ []) (await q.1 me true far)))]

/-- `MARK` (R248). -/
def execMark (size : BitVec 2) (s : State) : Host.Outcome State Fault Refusal :=
  fire s <| homeCommand size fun src n => on fun s =>
    seqs [setCsrBits offMIGCTL 5 5 1, act (.mig (s.mig ++ [⟨src, n, false, [], []⟩])), recallRange src n, soon .markComplete]

/-- `MARK_COMPLETE` (R248): `BUSY` clears once every sector of the marked ranges is I. -/
def execMarkComplete (s : State) : Host.Outcome State Fault Refusal :=
  fire s <|
    if s.csrBits offMIGCTL 5 5 = 0 then skip
    else if s.mig.any fun m => !m.window && s.heldIn m.src m.size ≠ [] then
      andThen (each (s.mig.filter fun m => !m.window) fun m => recallRange m.src m.size) (after 64 .markComplete)
    else setCsrBits offMIGCTL 5 5 0

/-- An access at a range's old base moves with it, at the same offset from `dst`. -/
def Acc.rebase (src n dst : Nat) (a : Acc) : Acc :=
  if a.page.isSome && src ≤ a.pa && a.pa < src + n then { a with page := some { a.pageD with va := a.adr, pa := a.pa - src + dst } } else a

/-- The parts of an engine command move with a range, and are the engine's again. -/
def Piece.rebase (src n dst : Nat) (merged : Bool) (p : Piece) : Piece :=
  { p with reads := p.reads.map (Acc.rebase src n dst), write := p.write.map (Acc.rebase src n dst), parked := false,
           first := if merged && p.parked then max 1 p.first else p.first }

/-- A request of another agent at a range's old base, at the new one. -/
def rebaseReq (src n dst : Nat) (i : Instr) : Instr :=
  let sec (x : Nat) := if inRange src n x then x - src / 64 + dst / 64 else x
  let pa (x : Nat) := if src ≤ x && x < src + n then x - src + dst else x
  match i with
  | .readShared ⟨a, t⟩ g x => .readShared ⟨a, t⟩ g (sec x)
  | .readForOwnership ⟨a, t⟩ x => .readForOwnership ⟨a, t⟩ (sec x)
  | .upgrade ⟨a, t⟩ x => .upgrade ⟨a, t⟩ (sec x)
  | .uncacheableRead ⟨a, t⟩ x l => .uncacheableRead ⟨a, t⟩ (pa x) l
  | .uncacheableWrite ⟨a, t⟩ x l p => .uncacheableWrite ⟨a, t⟩ (pa x) l p
  | .homeSideAtomic ⟨k, some e⟩ => .homeSideAtomic ⟨k, some { e with pa := pa e.pa }⟩
  | .hostMemWrite t x l => .hostMemWrite t (pa x) l
  | .hostMemRead x n => .hostMemRead (pa x) n
  | i => i

/-- The requests that a range has parked go on, in the order of their arrival (R248, R249). -/
def unpark (m : MigRange) (dst : Nat) : Eff := on fun s =>
  seqs [act (.mig (s.mig.filter fun x => !(x.src = m.src && x.window = m.window))),
    each m.parked fun w =>
      match w.op with
      | some id => andThen (upOp id fun o =>
          { (if o.st = .parkedHome then { o.flip s.now with st := .sent } else o) with
                   accs := o.accs.map (Acc.rebase m.src m.size dst), parts := o.parts.map (Piece.rebase m.src m.size dst (merges o)) }) (soon (rebaseReq m.src m.size dst w.req))
      | none => match homeKey w.req with
        | some _ => homeServe (rebaseReq m.src m.size dst w.req)
        | none => soon (rebaseReq m.src m.size dst w.req)]

/-- `RELEASE` (R248). -/
def execRelease (size : BitVec 2) (s : State) : Host.Outcome State Fault Refusal :=
  fire s <| homeCommand size fun src _ => on fun s =>
    onSome (s.mig.find? fun m => m.src = src && !m.window) fun m => unpark m (s.csrBits offMIGDST 51 0)

/-- `SWOPEN` (R249). -/
def execSwopen (size : BitVec 2) (s : State) : Host.Outcome State Fault Refusal :=
  fire s <| homeCommand size fun src n => on fun s => act (.mig (s.mig ++ [⟨src, n, true, [], []⟩]))

/-- The copies of a range's sectors that L1s and RDCs of the package still hold are worth nothing: what they would write back is
discarded (R210, R249). -/
def dropCopies (src n : Nat) : Eff := on fun s =>
  let keep (m : AMap Sector) := m.keep fun x _ => !inRange src n (secAt x)
  andThen (each s.l1 fun kv => act (.l1 kv.1 (some (keep kv.2)))) (each s.rdc fun kv => act (.rdc kv.1 (some (keep kv.2))))

/-- `SWCLOSE` (R249): every sector is I, the write-back of a frame that has skipped its `CFLUSH` is discarded, and the requests that wait
go on. -/
def execSwclose (size : BitVec 2) (s : State) : Host.Outcome State Fault Refusal :=
  fire s <| homeCommand size fun src n => on fun s =>
    onSome (s.mig.find? fun m => m.src = src && m.window) fun m =>
      seqs [dropCopies src n, each (s.heldIn src n) fun q => setDir q.1 .i [], unpark m src]

/-- Whether a group writes in a view of a partition. -/
def inView (s : State) (g : Group) (part view : Nat) : Bool := g.csr.vid = view && s.lead (s.ctxOf g) = part

/-- `VWCMD_RESUME` (R259): parked writes, the sectors of engine commands and commits without room are tried again. -/
def execVwcmdResume (part view : Nat) (s : State) : Host.Outcome State Fault Refusal :=
  fire s <|
    seqs [each s.groups fun kv => when (inView s kv.2 part view) (upGroup kv.1 fun g => g.mapTh 0xFFFFFFFF#32 fun _ th =>
        match th.park with
        | some (.viewFull _) => { th with park := none }
        | _ => th),
      each s.ops fun kv => when (kv.2.part = part && kv.2.view = view) (match kv.2.ins with
        | .choose .. => when (kv.2.st = .parkedHome) (andThen (upOp kv.1 fun o => { o with st := .sent }) (soon (.chooseRetire kv.1)))
        | _ => when (kv.2.parts.any Piece.full) (andThen (upParts kv.1 (fun _ => true) fun p => { p with full := false }) (engineNext kv.1))),
      each s.nodes fun kv => when (kv.2.waits && s.lead kv.2.ctx = part && kv.2.view = view) (soon (.nodeCommitting kv.1))]

/-- The sectors of an engine command that find no room are dropped, and the next `WAITC` that finds the command complete traps
`VIEWFULL`. -/
def refuseRoom (id : Nat) (o : Op) : Eff :=
  let l := (o.parts.filter Piece.full).filterMap fun p => p.write.map Acc.adr
  seqs [defer o.gid id (engClass o.ins) .viewfull (BitVec.ofNat 64 (l.foldl min (2 ^ 57 - 1))),
    upOp id fun o => { o with parts := o.parts.filter fun p => !p.full }, engineNext id]

/-- `VWCMD_FAIL` (R259): parked groups trap `VIEWFULL`; a commit without room fails. -/
def execVwcmdFail (part view : Nat) (s : State) : Host.Outcome State Fault Refusal :=
  fire s <|
    seqs [each s.groups fun kv => when (inView s kv.2 part view)
        (upGroup kv.1 fun g => g.mapTh 0xFFFFFFFF#32 fun _ th =>
          match th.park with
          | some (.viewFull a) => { th with park := none, doom := some ⟨Trap.viewfull.code, BitVec.ofNat 64 a, false⟩ }
          | _ => th),
      each s.ops fun kv => when (kv.2.part = part && kv.2.view = view) (match kv.2.ins with
        | .choose .. => when (kv.2.st = .parkedHome) (chooseStage kv.1 3 2000 6000)
        | _ => when (kv.2.parts.any Piece.full) (refuseRoom kv.1 kv.2)),
      each s.nodes fun kv => when (kv.2.waits && s.lead kv.2.ctx = part && kv.2.view = view)
        (seqs [failNode kv.1 .failed, onSome kv.2.priv (dropView part), upNode kv.1 fun n => { n with priv := none }])]

end Sys2Proof.Machine
end

