-- ==== Sys2Proof/Machine/Cells.lean ====
section
/-!
DEFINITION. Cells.lean: links, heartbeats, the death of cells, recovery sweeps (R215, R217, R222 to R225, R298, R304).
-/
namespace Sys2Proof.Machine

/-- The die that counts a link's errors (R15, R298); those of the hub are D0's. -/
def linkDie : Link → Nat
  | .fabric n => n % 16 / 4
  | _ => 0

/-- The other packages of the own cell. -/
def State.peers (s : State) : List Nat := (s.cellPkgs (s.cellOf s.ownPkg)).filter fun p => p ≠ s.ownPkg

/-- `LINKUP` follows the two twin ports (Table 13.4). -/
def twinUp : Eff := on fun s => setCsrBits offTWINCFG 2 2 (if s.portUp 16 && s.portUp 17 then 1 else 0)

/-- Requests under way for which `p` holds are looked at at once (R223, R225). -/
def retryRequests (p : Op → Bool) : Eff := on fun s =>
  each (s.ops.filter fun kv => kv.2.st = .sent && p kv.2) fun kv => onSome (kv.2.stepOf kv.1) soon

/-- `LINK_UP` (R215, R304): a port has finished training; requests that had no path take it (R217). -/
def execLinkUp (l : Link) (s : State) : Host.Outcome State Fault Refusal :=
  outside s (seqs [act (.port (linkKey l) (some .up)), twinUp,
    retryRequests fun o => o.reqs.any fun q => s.homeSt o q.2 q.1 = .noPath])

/-- `LINK_REPLAY_EXHAUSTED` (R215, R223, R228, R308): the link goes down. A package of the own cell to which no plane is left is lost, a
host link that goes down starts a warm restart, and a twin port ends the pairing. -/
def execLinkReplayExhausted (l : Link) (s : State) : Host.Outcome State Fault Refusal :=
  outside s <|
    seqs [act (.port (linkKey l) (some .down)), twinUp,
      match l with
      | .fabric _ => on fun s => when (s.upPlanes = []) (each s.peers fun p => soon (.cellfail p true))
      | .twin _ => soon .twinLinkDown
      | .host n => soon (.warmRestart n)
      | .expander _ => skip]

/-- `LINK_LEVEL_REPLAY` (R215, R298). -/
def execLinkLevelReplay (l : Link) (s : State) : Host.Outcome State Fault Refusal := outside s (countErr (linkDie l) 5 1)

/-- `HEARTBEAT_SEND` (R222): one heartbeat on each port, every 10 µs. -/
def execHeartbeatSend (s : State) : Host.Outcome State Fault Refusal :=
  fire s <| andThen (each s.upPlanes fun k => out (.heartbeat k s.ftime)) (after 10000 .heartbeatSend)

/-- The cell-loss interval in clocks (R212). -/
def State.lossClocks (s : State) : Nat := s.csrBits offCELLCFG 25 16 * 10000

/-- The end of a package's cell-loss interval is looked for, if it is not already. -/
def watchLoss (pkg : Nat) : Eff := on fun s =>
  when (!s.timers.any fun t => t.2 = .heartbeatLoss pkg) (at_ (max (s.now + 1) (s.seen.findD pkg 0 + s.lossClocks)) (.heartbeatLoss pkg))

/-- A package's cell-loss interval starts now (R222). -/
def heardNow (pkg : Nat) : Eff := on fun s => andThen (act (.seen pkg (some s.now))) (watchLoss pkg)

/-- Every package's cell-loss interval starts: at the end of bring-up, since a package that is never heard is lost as well (R222;
DEDUCED, log entry 91). -/
def watchAll : Eff := each (List.range 256) heardNow

/-- `HEARTBEAT` (R222, R225): a heartbeat of another package restarts its cell-loss interval; one of a dead cell is discarded. -/
def execHeartbeat (pkg plane : Nat) (s : State) : Host.Outcome State Fault Refusal :=
  outside s <|
    if pkg = s.ownPkg || 256 ≤ pkg || s.deadCell (s.cellOf pkg) || !s.portUp (plane % 16) then skip else heardNow pkg

/-- Key under which `seen` keeps the fabric time at which a cell was declared dead (R225). -/
def deathKey (cell : Nat) : Nat := 2 ^ 20 + cell

/-- Key under which `seen` keeps the sectors that a die's RDC dropped at the declaration (R225). -/
def dropKey (cell die : Nat) : Nat := 2 ^ 21 + 8 * cell + die

/-- Whether an operation has an access left that is homed on a package that `p` holds for. -/
def homedOn (s : State) (p : Nat → Bool) (o : Op) : Bool :=
  o.reqs.any fun q => (s.region q.1.pa).elim false fun r => p r.pkg

/-- The RDCs and L1s of the package drop every sector homed on a package that `p` holds for; the drops of each die are counted (R225). -/
def dropHomed (p : Nat → Bool) (cell : Nat) : Eff := on fun s =>
  let there (x : Nat) : Bool := (s.homeOf x).elim false fun r => p r.pkg
  andThen (each (List.range 4) fun die =>
      let held := ((List.range 4).flatMap fun k => (s.rdc.findD (4 * die + k) []).keys).filter there
      let l := (held ++ (s.beads.keys.filter fun k => k % 4 = die && there (k / 4)).map fun k => k / 4).eraseDups
      andThen (act (.seen (dropKey cell die) (some held.length))) (each l fun x => yieldDie die x))
    (each (s.dirSecs.filter fun q => there q.1) fun q => setDir q.1 .i [])

/-- DECLARATION that a cell is dead (R222, R224, R225). A package never declares its own cell dead. -/
def declareDead (cell : Nat) : Eff := on fun s =>
  if cell = s.cellOf s.ownPkg || s.deadCell cell || 256 ≤ cell then skip
  else
    let k := cell / 32
    seqs [setCsr (offCELLDN k) (s.csr (offCELLDN k) ||| BitVec.ofNat 64 (2 ^ (cell % 32))),
      act (.seen (deathKey cell) (some s.ftime)),
      dropHomed (fun p => s.cellOf p = cell) cell,
      retryRequests (homedOn s fun p => s.cellOf p = cell),
      each (List.range 5) fun h => andThen (act (.seen (sweepKey cell h) (some s.now))) (later 200000 2000000 (.peerSweepComplete cell h))]

/-- `HEARTBEAT_LOSS` (R222, R223): no heartbeat of a package for the cell-loss interval. -/
def execHeartbeatLoss (pkg : Nat) (s : State) : Host.Outcome State Fault Refusal :=
  fire s <|
    if pkg = s.ownPkg || s.deadCell (s.cellOf pkg) then skip
    else if s.now < s.seen.findD pkg 0 + s.lossClocks then watchLoss pkg
    else if s.cellOf pkg = s.cellOf s.ownPkg then soon (.cellfail pkg false)
    else declareDead (s.cellOf pkg)

/-- `CELL_DOWN_MESSAGE` (R222). -/
def execCellDownMessage (cell : Nat) (s : State) : Host.Outcome State Fault Refusal := outside s (declareDead cell)

/-- `CELLDN_WRITE` (R222): a write of 1 to a bit declares its cell dead. -/
def execCelldnWrite (k : Nat) (v : Word) (s : State) : Host.Outcome State Fault Refusal :=
  fire s (each (Mask.lanes v) fun b => when (k < 8) (declareDead (32 * k + b)))

/-- `CELLRA_WRITE` (R222): a write of 1 re-admits a cell. -/
def execCellraWrite (k : Nat) (v : Word) (s : State) : Host.Outcome State Fault Refusal :=
  fire s <| when (k < 8) <|
    andThen (setCsr (offCELLDN k) (s.csr (offCELLDN k) &&& ~~~ (v.zeroExtend 64)))
      (each (Mask.lanes v) fun b => seqs [act (.seen (deathKey (32 * k + b)) none),
        each (s.cellPkgs (32 * k + b)) heardNow])

/-- Poison of a sector made at its home with cause PEERLOST or HOSTGONE (R224, R228). -/
def homePoison (die sec : Nat) (cause : PCause) (orig : Nat) : Eff :=
  origin ⟨cause, svcTab die, orig, 64 * sec, 0#57, 0, 0, 0⟩ fun w => writeSector 0 0 sec 0 [] false (some w)

/-- Agents are gone, and with them their requests in flight (R224, R228): they leave the directory entry of a sector, which is poisoned
where it was theirs; a transaction that waits for them goes on, and what they asked for is discarded. -/
def forgetAgents (dead : Agent → Bool) (gone : Waiting → Bool) (own : DirSt → Bool) (poison : Eff) (sec : Nat) : Eff := on fun s =>
  let d := s.dirOf sec
  let rest := d.holders.filter fun a => !dead a
  let lost := own d.st && d.holders.any dead
  let t := s.transOf sec
  seqs [when lost poison,
    when (d.holders.any dead) (setDir sec (if lost || rest = [] then .i else .s) (if lost then [] else rest)),
    when (t.cur.isNone && t.queue ≠ [])
      (andThen (act (.trans sec (some { t with queue := t.queue.filter fun w => !gone w }))) (transDone sec)),
    when t.cur.isSome (
      let cur := t.cur.bind fun w => if gone w then none else some w
      let q := t.queue.filter fun w => !gone w
      let l := t.await.filter fun a => !dead a
      andThen (act (.trans sec (some ⟨some (cur.getD ⟨.hub s.ownPkg, .markComplete, none⟩), l, q⟩))) (when l.isEmpty (transDone sec)))]

/-- One sector of the sweep (Table 9.7): what agents of the dead cell held as M or E is poisoned with cause PEERLOST. -/
def sweepSector (cell die sec : Nat) : Eff := on fun s =>
  let dead (a : Agent) : Bool := s.cellOf (Agent.pkg a) = cell
  forgetAgents dead (fun w => w.op.isNone && dead w.who) (fun st => st = .m || st = .e) (homePoison die sec .peerlost 2) sec

/-- The sectors of a home whose directory entries or transactions name a cell. -/
def State.namedBy (s : State) (cell home : Nat) : List Nat :=
  let names (a : Agent) : Bool := s.cellOf (Agent.pkg a) = cell
  (sortNat ((s.dirSecs.filter fun q => q.2.holders.any names).map Prod.fst
    ++ (s.trans.filter fun kv => (kv.2.cur.isNone && kv.2.queue ≠ []) || kv.2.await.any names || (kv.2.cur.toList ++ kv.2.queue).any fun w => names w.who).map Prod.fst)).filter
    fun x => (s.homeOf x).elim false fun r => r.pkg = s.ownPkg && r.die = home

/-- `PEER_SWEEP_COMPLETE` (R224, R225): a home's sweep ends with its report. -/
def execPeerSweepComplete (cell home : Nat) (s : State) : Host.Outcome State Fault Refusal :=
  fire s <|
    if !s.deadCell cell then skip
    else
      let l := s.namedBy cell home
      let lost := (l.filter fun x => let d := s.dirOf x; (d.st = .m || d.st = .e) && d.holders.any fun a => s.cellOf (Agent.pkg a) = cell).length
      let gone := s.seen.findD (dropKey cell home) 0
      seqs [act (.seen (sweepKey cell home) none), each l (sweepSector cell home), countErr (if home < 4 then home else 0) 6 lost,
        event 2 home noPart 0 cell lost gone (s.seen.findD (deathKey cell) 0) [], act (.seen (dropKey cell home) none)]

/-- `CELLFAIL` (R223): another package of the own cell is lost: its interval has passed, or `planes`, every plane to it is down, its own
ports among them, as the cell firmware sees it (DEDUCED, log entry 91). Every context halts, requests homed there are lost, the cell-down message
leaves on every plane, and the event is written. -/
def execCellfail (pkg : Nat) (planes : Bool) (s : State) : Host.Outcome State Fault Refusal :=
  fire s <|
    if !s.peers.contains pkg || (s.seen.find (lostKey pkg)).isSome
      || (!planes && s.now < s.seen.findD pkg 0 + s.lossClocks) then skip
    else seqs [act (.seen (lostKey pkg) (some s.now)),
      each s.ctxs fun kv => when (kv.2.parts ≠ [] && kv.2.run ≠ .cut) (fatal kv.1 0 5 0 0 0 0),
      retryRequests (homedOn s fun p => p = pkg),
      each s.upPlanes fun k => out (.cellDown k (s.cellOf s.ownPkg)),
      event 18 4 noPart 0 pkg (if planes then 1 else 0) 0 0 []]

end Sys2Proof.Machine
end

