-- ==== Sys2Proof/Machine/HostLink.lean ====
section
/-!
DEFINITION. HostLink.lean: the host's accesses and snoops, and HOSTGONE marks (R201, R226, R227, R229).
-/
namespace Sys2Proof.Machine

/-- The agent that stands for the host (R211, R227). -/
def State.hostAgent (s : State) : Agent := .host s.ownPkg

/-- Sectors that `n` bytes from `a` touch. -/
def sectorsOf (a n : Nat) : List Nat := if n = 0 then [] else (List.range ((a + n - 1) / 64 + 1 - a / 64)).map fun k => a / 64 + k

/-- Whether a waiting request is a posted host write of a traffic class (R201); one that has waited carries 512 above its class. -/
def postedBy (tc : Nat) (w : Waiting) : Bool :=
  match w.req with
  | .hostMemWrite k _ _ => k % 512 = tc % 512
  | _ => false

/-- Where an access of the host to device memory waits: behind a posted write of its traffic class (R201), a range at its home (R248,
R249), a transaction, the sweep of its entry (R224), or the answers of agents outside (R207). `me` takes its place there; else `go`. A request that a home parks under
MARK is recorded and answered PARKED. -/
def hostAccess (secs : List Nat) (write : Bool) (ahead : Waiting → Bool) (me : Waiting) (go : Eff) : Eff := on fun s =>
  let at_ (x : Nat) : Option (Eff) :=
    match s.migAt (64 * x) false, s.migAt (64 * x) true with
    | some m, _ => some (seqs [upMig m.src false fun m => { m with parked := m.parked ++ [me] }, homeRecord (64 * x) 0 0 0, respond s.hostAgent x 2#8])
    | none, some m => some (upMig m.src true fun m => { m with parked := m.parked ++ [me] })
    | none, none =>
      let l := s.awaited (some s.hostAgent) write x
      if (s.transOf x).cur.isSome || s.unswept x || !l.isEmpty then some (await x me write l) else none
  match s.trans.find? fun kv => (kv.2.cur.toList ++ kv.2.queue).any ahead, s.mig.find? fun m => m.parked.any ahead with
  | some (x, t), _ => act (.trans x (some { t with queue := t.queue ++ [me] }))
  | none, some m => andThen (upMig m.src m.window fun m => { m with parked := m.parked ++ [me] })
      (onSome (if m.window then none else secs.find? (inRange m.src m.size)) fun x => andThen (homeRecord (64 * x) 0 0 0) (respond s.hostAgent x 2#8))
  | none, none => ((secs.findSome? at_).getD go)

/-- Whether bytes at a physical address lie in device memory homed on this package. -/
def State.ownMemory (s : State) (pa n : Nat) : Bool :=
  (s.region pa).elim false fun r => r.pkg = s.ownPkg && !r.host && pa + n ≤ r.base + r.size

/-- The partition whose bonded-DRAM channels hold a physical address (R483, R484). -/
def State.partOfPa (s : State) (pa : Nat) : Option Nat :=
  (s.region pa).bind fun r =>
    let h := r.homeOfs pa
    if r.pkg = s.ownPkg && !r.host && h < 2 ^ 39 then some (channelPart h) else none

/-- A posted write is performed at the home, in order within its traffic class; every holder gives up the sectors that it touches
(R201, R213). -/
def hostWrite (tc pa : Nat) (bytes : List Byte) : Eff := on fun s =>
    let secs := sectorsOf pa bytes.length
    when (s.ownMemory pa bytes.length)
      (hostAccess secs true (postedBy tc) ⟨s.hostAgent, .hostMemWrite (tc % 512 + 512) pa bytes, some (2 ^ 40)⟩
        (andThen (each secs fun x => homeTakes x true)
          (when (s.admits s.hostAgent pa) (writeBytes 0 0 pa bytes none))))

/-- The traffic class under which writes that the twin mirrors are kept in order (R305); those of the host lie below. -/
def twinClass : Nat := 256

/-- `HOST_MEM_WRITE` (R201, R213, R305): one to memory of a paired partition is mirrored to the twin when it reaches the device. -/
def execHostMemWrite (tc pa : Nat) (bytes : List Byte) (s : State) : Host.Outcome State Fault Refusal :=
  outside s (andThen (when (tc < twinClass && (s.partOfPa pa).elim false s.partPaired) (out (.twinWrite pa bytes))) (hostWrite tc pa bytes))

/-- `HOST_MEM_READ` (R201, R227): a read sees every write performed at the home; the home lists the host among the sector's holders. -/
def execHostMemRead (pa len : Nat) (s : State) : Host.Outcome State Fault Refusal :=
  outside s <|
    let secs := sectorsOf pa len
    when (s.ownMemory pa len)
      (hostAccess secs false (fun _ => false) ⟨s.hostAgent, .hostMemRead pa len, some (2 ^ 40)⟩
        (if s.absentAt pa then sendAbsent s.hostAgent pa len
        else andThen (each secs (grantRead (some s.hostAgent) true)) (on fun s => sendBytes s.hostAgent pa (s.readBytes 0 0 pa len))))

/-- `HOST_SNOOP` (R227): the device answers for a sector of host memory from its RDCs, with the data where one holds it dirty. After an
invalidating one the sector is the host's. -/
def execHostSnoop (sec : Nat) (inv : Bool) (s : State) : Host.Outcome State Fault Refusal :=
  outside s <|
    let dies := (List.range 4).filter fun d => (s.inRdc d sec).isSome
    let dirty := dies.any fun d => (s.inRdc d sec).elim false fun p => p.2.dirty
    seqs [if dirty then sendSector s.hostAgent sec else respond s.hostAgent sec (if dies = [] then 0 else 1),
      if inv then seqs [each (List.range 4) fun d => yieldDie d sec, setDir sec .i [], freeHost sec]
      else seqs [each dies fun d => cleanRdc d sec,
        each s.l1 fun kv => when ((kv.2.find sec).isSome) (act (.l1 kv.1 (some (kv.2.upd sec fun x => { x with dirty := false })))),
        on fun s => when (dies ≠ []) (setDir sec .s (s.dirOf sec).holders)]]

/-- Whether a marked sector lies in the range of a clear (Table 9.10): `pages` 4 KiB pages from `base` of host memory; 0 clears all. -/
def inClear (s : State) (base pages sec : Nat) : Bool :=
  pages = 0 || (s.homeOf sec).elim false fun r =>
    let h := r.homeOfs (64 * sec)
    base ≤ h && h < base + 4096 * pages

/-- `HGCMD_CLEAR` (R229). A write while `BUSY` is 1 is ignored. -/
def execHgcmdClear (pages : Word) (s : State) : Host.Outcome State Fault Refusal :=
  fire s <|
    when (s.csrBits offHGCMD 32 32 = 0)
      (seqs [setCsrBits offHGCMD 32 32 1,
        act (.hgone (s.mem.hgone.filter fun x => !inClear s (s.csrBits offHGBASE 51 12 * 4096) pages.toNat x)),
        later 1 20000 .hostgoneClearComplete])

/-- `HOSTGONE_CLEAR_COMPLETE` (R229). -/
def execHostgoneClearComplete (s : State) : Host.Outcome State Fault Refusal := fire s (setCsrBits offHGCMD 32 32 0)

end Sys2Proof.Machine
end

