-- ==== Sys2Proof/Machine/Matrix.lean ====
section
/-!
DEFINITION. Matrix.lean: the matrix unit: operand maps, sums, the queue, `MMA`, `TLDB`, `AZRO`, `ALD`, `AST`, `ARD`, `MFENCE` (R119,
R121, R122, R130 to R151, R295, R344 to R346, R349, R427 to R429, R465).
-/
namespace Sys2Proof.Machine

/-- Element types of the matrix unit (Table 6.1). -/
inductive MTy where
  | e4m3 | e5m2 | s8 | n8 | bf16 | f16 | e2m1
  deriving DecidableEq, Repr

/-- The type of a code (Table 6.1); 7 to 15 are reserved. -/
def MTy.ofCode : Nat → Option MTy
  | 0 => some .e4m3
  | 1 => some .e5m2
  | 2 => some .s8
  | 3 => some .n8
  | 4 => some .bf16
  | 5 => some .f16
  | 6 => some .e2m1
  | _ => none

/-- Bits of an element. -/
def MTy.bits : MTy → Nat
  | .bf16 | .f16 => 16
  | .e2m1 => 4
  | _ => 8

/-- Whether a type is an integer type. -/
def MTy.int : MTy → Bool
  | .s8 | .n8 => true
  | _ => false

/-- Whether a pair of types is a shape (R131). -/
def shapeOk (a b : MTy) : Bool :=
  match a, b with
  | .e4m3, .e4m3 | .e4m3, .e5m2 | .e5m2, .e4m3 | .e5m2, .e5m2 => true
  | .s8, .s8 | .s8, .n8 | .n8, .s8 | .n8, .n8 => true
  | .bf16, .bf16 | .f16, .f16 | .e2m1, .e2m1 => true
  | _, _ => false

/-- An operand map (Table 6.2). -/
structure OpMap where
  abase  : Nat
  apitch : Nat
  swz    : Nat
  bscl   : Nat
  ascl   : Nat
  aty    : Nat
  bty    : Nat
  deriving DecidableEq, Repr

/-- The fields of an operand map from its four registers. -/
def OpMap.ofWords (w0 w1 w2 w3 : Word) : OpMap :=
  ⟨bitsOf w0.toNat 20 0, bitsOf w1.toNat 20 0, bitsOf w2.toNat 1 0, bitsOf w2.toNat 28 8, bitsOf w3.toNat 28 8,
    bitsOf w3.toNat 3 0, bitsOf w3.toNat 7 4⟩

/-- Whether the reserved fields of an operand map are 0. -/
def mapReserved (w0 w1 w2 w3 : Word) : Bool :=
  bitsOf w0.toNat 31 21 = 0 && bitsOf w1.toNat 31 21 = 0 && bitsOf w2.toNat 7 2 = 0 && bitsOf w2.toNat 31 29 = 0
    && bitsOf w3.toNat 31 29 = 0

/-- The shape that a map names, if it is legal. -/
def OpMap.shape (m : OpMap) : Option (MTy × MTy) :=
  match MTy.ofCode m.aty, MTy.ofCode m.bty with
  | some a, some b => if shapeOk a b then some (a, b) else none
  | _, _ => none

/-- The check of an operand map (R134), in its order: the trap that it raises. -/
def mapFail (lsBytes : Nat) (w0 w1 w2 w3 : Word) : Option Trap :=
  let m := OpMap.ofWords w0 w1 w2 w3
  match if mapReserved w0 w1 w2 w3 then m.shape else none with
  | none => some .illop
  | some (a, _) =>
    if a ≠ .e2m1 && (m.ascl ≠ 0 || m.bscl ≠ 0) then some .illop
    else if m.abase % 64 ≠ 0 || m.apitch % 64 ≠ 0 || m.ascl % 32 ≠ 0 || m.bscl % 32 ≠ 0 then some .misalign
    else if lsBytes < m.abase + 31 * m.apitch + 512
        || (a = .e2m1 && (lsBytes < m.ascl + 1024 || lsBytes < m.bscl + 2048)) then some .alloc
    else none

/-- Word `w` of row `i` of A: its local-store word (R133). -/
def OpMap.wordOf (m : OpMap) (i w : Nat) : Nat :=
  (m.abase + i * m.apitch + 64 * ((w / 16) ^^^ (i % 2 ^ m.swz))) / 4 + w % 16

/-- Element `k` of a list of words, packed by R102. -/
def elemBits (l : List Elem) (bits k : Nat) : Nat :=
  let w := (l.getD (k * bits / 32) (clean 0#32)).val
  bitsOf w.toNat (k * bits % 32 + bits - 1) (k * bits % 32)

/-- The format of a floating-point element type. -/
def MTy.fmt : MTy → Fmt
  | .e4m3 => Sys2Proof.Machine.e4m3
  | .e5m2 => Sys2Proof.Machine.e5m2
  | .bf16 => Sys2Proof.Machine.bf16
  | .e2m1 => Sys2Proof.Machine.e2m1
  | _ => Sys2Proof.Machine.f16

/-- A value scaled by an E8M0 scale (R119): code `0xFF` makes a NaN. -/
def scaled (x : Num) (scale : Nat) : Num :=
  if scale = 255 then .nan false
  else match x with
    | .fin n m e => .fin n m (e + scale - 127)
    | y => y

/-- Element `k` of a row or column as a value; `scales` holds the scale words of E2M1. -/
def floatAt (t : MTy) (l scales : List Elem) (k : Nat) : Num :=
  let x := t.fmt.num (elemBits l t.bits k)
  if t = .e2m1 then scaled x (elemBits scales 8 (k / 32)) else x

/-- Element `k` of a row or column as an integer. -/
def intAt (t : MTy) (l : List Elem) (k : Nat) : Int :=
  let x := BitVec.ofNat 8 (elemBits l 8 k)
  if t = .s8 then x.toInt else x.toNat

/-- One chunk added to an accumulator with one rounding (R121, R122). -/
def addChunk (a b : MTy) (x sx y sy : List Elem) (acc c : Nat) : Nat :=
  let n := 512 / a.bits
  let s := sumNum .rn ((List.range n).map fun k => mulNum (floatAt a x sx (c * n + k)) (floatAt b y sy (c * n + k)))
  (fused f32 .rn false false [] [some (f32.num acc), some s.1]).1

/-- One output element without poison (R121, R122): a row of A, a column of B, their scales, the accumulator word. -/
def sumOf (a b : MTy) (x sx y sy : List Elem) (acc : Word) : Word :=
  if a.int then
    BitVec.ofInt 32 ((List.range 512).foldl (fun n k => n + intAt a x k * intAt b y k) (acc.toNat : Int))
  else BitVec.ofNat 32 ((List.range 8).foldl (addChunk a b x sx y sy) acc.toNat)

/-- The words of a row or column in the order of R146: each scale word at its block, before the words of the block. -/
def poisonOrder (t : MTy) (l scales : List Elem) : List Elem :=
  if t = .e2m1 then (List.range 32).flatMap fun b => scales.getD (b / 4) (clean 0#32) :: (l.drop (4 * b)).take 4 else l

/-- One output element (R146). -/
def mmaElem (a b : MTy) (x sx y sy : List Elem) (acc : Elem) : Elem :=
  match (poisonOrder a x sx ++ poisonOrder b y sy ++ [acc]).find? Elem.poi with
  | some e => e
  | none => clean (sumOf a b x sx y sy acc.val)

/-- A word of a tile or an accumulator; words not listed are 0 and clean (R28). -/
def cellAt (m : AMap Elem) (k : Nat) : Elem := m.findD k (clean 0#32)

/-- A local-store word as an element. -/
def LWord.elem (w : LWord) : Elem := ⟨w.val, w.poi⟩

/-- One of several things: those that stood before, and the one that stands now; a free choice (R142, R145; log entry 4). -/
def anyOf {α : Type} (n : Nat) (old : List α) (new : α) : α := (old[Config.pick n % (old.length + 1)]?).getD new

/-- A local-store word as an operation reads it later, whose words have stood as in `was` since its issue (R145). -/
def seenWord (n : Nat) (t : Team) (was : List (AMap LWord)) (k : Nat) : Elem :=
  anyOf (n + k) (was.map fun m => (m.findD k ⟨0#32, false, false, []⟩).elem) (t.word k).elem

/-- Free values that one operation of the unit can take. -/
def mxFree : Nat := 2 ^ 20

/-- The 2,048 words of an accumulator after an `MMA` (R121, R133, R135, R142, R145, R146). -/
def mmaWords (n : Nat) (t : Team) (q : MxOp) (m : OpMap) (a b : MTy) (tile acc : AMap Elem) : AMap Elem :=
  let ls := seenWord n t q.words
  let rows := (List.range 32).map fun i =>
    ((List.range 128).map fun w => ls (m.wordOf i w), (List.range 8).map fun w => ls ((m.ascl + 32 * i) / 4 + w))
  let cols := (List.range 64).map fun j =>
    ((List.range 128).map fun w => anyOf (n + 2 ^ 19 + 8 * j + w / 16) (q.tiles.map fun m => cellAt m (128 * j + w)) (cellAt tile (128 * j + w)),
      (List.range 8).map fun w => ls ((m.bscl + 32 * j) / 4 + w))
  (List.range 2048).map fun k =>
    let x := rows.getD (k / 64) ([], [])
    let y := cols.getD (k % 64) ([], [])
    (k, mmaElem a b x.1 x.2 y.1 y.2 (cellAt acc k))

/-- The unit resources of Table 6.4. -/
inductive MxRes where
  | arrays | tile | acc
  deriving DecidableEq, Repr

/-- Resource, occupancy, best and worst clocks to completion of a matrix operation (Table 6.4). -/
def mxTiming : Instr → MxRes × Nat × Nat × Nat
  | .mma .. => (.arrays, 32, 44, 92)
  | .tldb .. => (.tile, 16, 20, 76)
  | .azro .. => (.acc, 1, 2, 58)
  | .ard .. => (.acc, 1, 8, 64)
  | _ => (.acc, 4, 8, 64)

/-- The unit of a frame looks at its queue in clock `t`, unless it does already. -/
def lookAt (frame t : Nat) : Eff := on fun s =>
  when (!(s.timers.any fun p => p.1 ≤ t && p.2 = .matrixOpStart frame) && !s.agenda.contains (.matrixOpStart frame))
    (if t ≤ s.now then soon (.matrixOpStart frame) else at_ t (.matrixOpStart frame))

/-- A matrix instruction enters the queue (R138, R140, R143), with its operand values. -/
def enterUnit (c : Iss) (i : Instr) (vals : Lanes) (l : List Acc) : Eff := on fun s =>
  newOp c i .performed l vals [] fun id =>
    let q : MxOp := ⟨id, c.g.rod, c.g.mfence, none, 0, false, [], [], []⟩
    seqs [countIn c.gid id .mtx, upGroup c.gid fun g => { g with mfence := false },
      act (.mx c.g.frame (some (s.mxq.findD c.g.frame [] ++ [q]))), lookAt c.g.frame s.now]

/-- `MFENCE` (R143, R427). -/
def execMfence (h : Head) (s : State) : Host.Outcome State Fault Refusal :=
  issue (.mfence h) s fun c _ => .done (upGroup c.gid fun g => { g with mfence := true })

/-- `MMA` at issue (R134, R137, R147, R428). -/
def execMma (h : Head) (d : Dst) (a b : Src) (s : State) : Host.Outcome State Fault Refusal :=
  let i : Instr := .mma h d a b
  issue i s fun c _ =>
    let w (k : Nat) := c.uni 1 a k
    let vals := [w 0, w 1, w 2, w 3]
    if c.on ≠ 0xFFFFFFFF#32 then .trap .illconv 0#64
    else if vals.any Elem.poi then .done (enterUnit c i vals [])
    else match mapFail c.tm.lsBytes (w 0).val (w 1).val (w 2).val (w 3).val with
      | some k => .trap k ((srcField a).zeroExtend 64)
      | none => .done (enterUnit c i vals [])

/-- The issue of `TLDB`, `ALD` and `AST` (R344, R346, R465): an offset that must be a multiple of `al`, of `n` bytes. -/
def unitCopy (c : Iss) (i : Instr) (a : Src) (al n : Nat) : Res :=
  let x : Elem := if a.cls = .imm then clean (a.idx.zeroExtend 32) else c.uni 1 a 0
  if x.poi then .done (enterUnit c i [x] [])
  else if x.val.toNat % al ≠ 0 then .trap .misalign (x.val.zeroExtend 64)
  else if c.tm.lsBytes < x.val.toNat + n then .trap .alloc (x.val.zeroExtend 64)
  else .done (enterUnit c i [x] [])

/-- `TLDB` (R135, R465). -/
def execTldb (h : Head) (d : Dst) (a : Src) (s : State) : Host.Outcome State Fault Refusal :=
  issue (.tldb h d a) s fun c _ => unitCopy c (.tldb h d a) a 512 32768

/-- `AZRO` (R349). -/
def execAzro (h : Head) (d : Dst) (s : State) : Host.Outcome State Fault Refusal :=
  issue (.azro h d) s fun c _ => .done (enterUnit c (.azro h d) [] [])

/-- `ALD` (R344). -/
def execAld (h : Head) (d : Dst) (a : Src) (s : State) : Host.Outcome State Fault Refusal :=
  issue (.ald h d a) s fun c _ => unitCopy c (.ald h d a) a 256 8192

/-- `AST` (R346). -/
def execAst (h : Head) (a b : Src) (s : State) : Host.Outcome State Fault Refusal :=
  issue (.ast h a b) s fun c _ => unitCopy c (.ast h a b) a 256 8192

/-- `ARD` (R345); a lane guard's poison reaches its lane (R253). -/
def execArd (h : Head) (d : Dst) (a b : Src) (s : State) : Host.Outcome State Fault Refusal :=
  let i : Instr := .ard h d a b
  issue i s fun c _ =>
    let x : Elem := c.uni 2 b 0
    if !x.poi && 64 ≤ x.val.toNat then .trap .illop 0#64
    else .done (enterUnit c i [x] (c.on.lanes.map fun L => accOf c L 0 none))

/-- The accumulator or tile that a matrix operation names. -/
def mxReg : Instr → Nat
  | .mma _ d .. | .tldb _ d _ | .azro _ d | .ald _ d _ => d.idx.toNat
  | .ast _ _ b => b.idx.toNat
  | .ard _ _ a _ => a.idx.toNat
  | _ => 0

/-- An accumulator of a team, by its operand index. -/
def Team.accum (t : Team) (x : Nat) : AMap Elem := t.accs.findD (x - 32) []

/-- The shape of an `MMA`, as the type codes of its map. -/
def mmaShape (o : Op) : Nat := bitsOf (o.vals.getD 3 (clean 0#32)).val.toNat 7 0

/-- The started MMAs of a unit that `p` holds for, changed. -/
def upMmas (frame : Nat) (p : Op → Bool) (f : Op → MxOp → MxOp) : Eff := on fun s => upMx frame fun l => l.map fun q =>
  match s.ops.find q.op with
  | some w => match w.ins with
    | .mma .. => if q.start.isSome && p w then f w q else q
    | _ => q
  | none => q

/-- An operation changes its accumulator from `old` (R141, R142): an MMA in flight there adds to what an MMA of its own shape leaves, and to
the one or the other of what any other operation has found and leaves. -/
def noteAccum (o : Op) (old : AMap Elem) : Eff :=
  let mma := match o.ins with | .mma .. => true | _ => false
  upMmas o.frame (fun w => w.team = o.team && mxReg w.ins = mxReg o.ins) fun w q =>
    { q with accs := if mma && mmaShape w = mmaShape o then [] else q.accs ++ [old] }

/-- A `TLDB` changes its tile from `old` (R142): an MMA in flight that reads it finds each chunk old or new. -/
def noteTile (o : Op) (old : AMap Elem) : Eff :=
  upMmas o.frame (fun w => w.team = o.team && (match w.ins with
    | .mma _ _ _ b => b.idx.toNat = mxReg o.ins
    | _ => false)) fun _ q => { q with tiles := q.tiles ++ [old] }

/-- A queue of operations with one changed. -/
def setMx (l : List MxOp) (id : Nat) (f : MxOp → MxOp) : List MxOp := l.map fun q => if q.op = id then f q else q

/-- Words of the local store as a list of elements written from an offset on, bytes of the allocation only; full/empty bits stay. -/
def lsStore (tk : Nat) (lo n : Nat) (f : Nat → Elem) : Eff := upWords tk fun t =>
  { t with words := (List.range (min n ((t.lsBytes - lo) / 4))).foldl (fun m k =>
      let w := t.word (lo / 4 + k)
      m.put (lo / 4 + k) { w with val := (f k).val, poi := (f k).poi }) t.words }

/-- What an operation on the accumulator path does there (R136, R146, R147): `AZRO` and `ALD` write it, `ARD` and `AST` read it. The
results of `ARD` and `AST` wait in the operation. -/
def mxActs (id : Nat) (o : Op) : Eff := on fun s =>
  onSome (s.teams.find o.team) fun t =>
    let x := o.vals.getD 0 (clean 0#32)
    let r := mxReg o.ins
    match o.ins with
    | .azro .. => andThen (noteAccum o (t.accum r)) (upTeam o.team fun t => { t with accs := t.accs.del (r - 32) })
    | .ald .. => andThen (noteAccum o (t.accum r)) (upTeam o.team fun t => { t with accs := t.accs.put (r - 32) ((List.range 2048).map fun k =>
        (k, if x.poi then x else (t.word (x.val.toNat / 4 + k)).elem)) })
    | .ard .. => upOp id fun o => { o with accs := o.accs.map fun a =>
        { a with done := true, res := guardOver a [if x.poi then x else cellAt (t.accum r) (64 * a.lane + x.val.toNat)] } }
    | .ast .. => upOp id fun o => { o with vals := x :: (List.range 2048).map fun k => if x.poi then x else cellAt (t.accum r) k }
    | _ => skip

/-- Whether the first operation that has not started can start now (R139, R143). -/
def mxReady (s : State) (l : List MxOp) (q : MxOp) (o : Op) : Bool :=
  let started := l.filter fun p => p.start.isSome
  let gidOf (p : MxOp) := (s.ops.find p.op).map Op.gid
  let res := (mxTiming o.ins).1
  started.all (fun p => match p.start, s.ops.find p.op with
    | some t, some w => t < s.now && ((mxTiming w.ins).1 ≠ res || t + (mxTiming w.ins).2.1 ≤ s.now)
    | _, _ => true)
  && !(q.mark && started.any fun p => gidOf p = some o.gid) && s.seen.findD (2 ^ 25 + o.frame) 0 ≤ s.now

/-- `MATRIX_OP_START` (R138, R139, R142, R143, R148, R149): the first operation of the queue that has not started does so as soon as its
resource is free and no fence holds it; the unit looks again in the next clock. The worst figure of Table 6.4 holds one rewind of 48
clocks. An operation on the accumulator path that an MMA in flight shares acts now, before that MMA's completion, or at its own. -/
def execMatrixOpStart (frame : Nat) (s : State) : Host.Outcome State Fault Refusal :=
  fire s <|
    let l := s.mxq.findD frame []
    match l.find? fun q => q.start.isNone with
    | none => skip
    | some q =>
      match s.ops.find q.op with
      | none => act (.mx frame (some (l.filter fun p => p.op ≠ q.op)))
      | some o =>
        if s.unitStopped o.ctx (.matrix frame) then skip
        else if !mxReady s l q o then lookAt frame (s.now + 1)
        else freely fun n => on fun s =>
          let tm := mxTiming o.ins
          let busy := (l.filterMap fun (p : MxOp) => match p.start, (s.ops.find p.op).map fun w => (mxTiming w.ins).1 with
            | some _, some r => if r = tm.1 then some p.finish else none
            | _, _ => none).foldl max 0
          let fin := max (s.now + delay tm.2.2.1 (max tm.2.2.1 (tm.2.2.2 - 48)) n) (match o.ins with
            | .mma .. => busy + 1
            | _ => 0)
          let shared := l.any fun (p : MxOp) => p.start.isSome && match s.ops.find p.op with
            | some w => (match w.ins with
              | .mma .. => w.team = o.team && mxReg w.ins = mxReg o.ins
              | _ => false)
            | none => false
          let late := tm.1 = .acc && shared && Config.pick n % 2 = 1
          seqs [act (.mx frame (some (setMx l q.op fun p => { p with start := some s.now, finish := fin, late := late }))),
            when (!late) (mxActs q.op o),
            at_ (match o.ins with
              | .ard .. => fin - 7
              | _ => fin) (.matrixOpComplete q.op),
            lookAt frame (s.now + 1)]

/-- An operation of the unit has completed: it leaves the queue and retires (R140). -/
def mxEnds (id : Nat) (o : Op) : Eff := on fun s =>
  seqs [upMx o.frame fun l => l.filter fun q => q.op ≠ id, act (.op id none), retireOp o.gid id, lookAt o.frame s.now]

/-- What an `MMA`, a `TLDB` or an `AST` writes in its completion clock (R135, R136, R142, R146, R147). An `MMA` adds to its accumulator as
it stands then, or as it has stood since its start where R142 leaves that open: a free choice (log entry 39). -/
def mxWrites (o : Op) (q : MxOp) (n : Nat) : Eff := on fun s =>
  onSome (s.teams.find o.team) fun t =>
    let x := o.vals.getD 0 (clean 0#32)
    let r := mxReg o.ins
    match o.ins with
    | .mma _ _ _ b =>
      let v (k : Nat) := (o.vals.getD k (clean 0#32)).val
      let m := OpMap.ofWords (v 0) (v 1) (v 2) (v 3)
      let acc := anyOf (n + 2 ^ 19 + 1024) q.accs (t.accum r)
      let new := match o.vals.find? Elem.poi, m.shape with
        | some e, _ => (List.range 2048).map fun k => (k, e)
        | none, some (a, b') => mmaWords n t q m a b' (t.tiles.findD b.idx.toNat []) acc
        | none, none => acc
      andThen (noteAccum o (t.accum r)) (upTeam o.team fun t => { t with accs := t.accs.put (r - 32) new })
    | .tldb .. => andThen (noteTile o (t.tiles.findD r [])) (upTeam o.team fun t => { t with tiles := t.tiles.put r ((List.range 8192).map fun k =>
        (k, if x.poi then x else seenWord n t q.words (x.val.toNat / 4 + k))) })
    | .ast .. => lsStore o.team (if x.poi then 0 else x.val.toNat) 2048 fun k => o.vals.getD (k + 1) (clean 0#32)
    | _ => skip

/-- `MATRIX_OP_COMPLETE` (R139, R140, R148, R149): the operation writes what it writes in its completion clock, clears its scoreboard
and retires; an `ARD` sends its result, and completes when that enters the latch chain. A stopped unit completes nothing. -/
def execMatrixOpComplete (id : Nat) (s : State) : Host.Outcome State Fault Refusal :=
  fire s <| onSome (s.ops.find id) fun o =>
    match (s.mxq.findD o.frame []).find? fun q => q.op = id with
    | none => skip
    | some q =>
      if q.start.isNone || ((s.ctxs.find o.ctx).elim false fun c => (c.run = .halting || c.run = .halted) && c.stopped.contains (.matrix o.frame)) then skip
      else match o.ins with
        | .ard .. =>
          let due (s : State) := ((s.rods.find (rodOf s o)).bind fun r => r.rets.find? fun q => q.op = id).map Ret.clk
          if s.now + 7 < q.finish then at_ (q.finish - 7) (.matrixOpComplete id)
          else if o.seg = 0 then
            seqs [when q.late (mxActs id o), upOp id fun o => { o with seg := 1 },
              on fun s => onSome (s.ops.find id) fun o => returnResult id o o.mask (regOf o.accs) [],
              on fun s => at_ ((due s).getD (s.now + 7)) (.matrixOpComplete id)]
          else if s.now < (due s).getD 0 then at_ ((due s).getD 0) (.matrixOpComplete id)
          else mxEnds id o
        | _ =>
          if s.now < q.finish then at_ q.finish (.matrixOpComplete id)
          else seqs [act (.free (s.free + mxFree)), when q.late (mxActs id o),
            on fun s => onSome (s.ops.find id) fun o => mxWrites o q s.free, clearSb o, mxEnds id o]

/-- A halt stops the unit of a frame (R149): of the operations of the context that have started, an `ALD`, `AST` or `TLDB` has written any
set of its 64-byte chunks. -/
def unitHalts (ctx frame : Nat) : Eff := on fun s =>
  each ((s.mxq.findD frame []).filter fun q => q.start.isSome) fun q => on fun s => onSome (s.ops.find q.op) fun o => onSome (s.teams.find o.team) fun t =>
    let n := s.free
    let x := o.vals.getD 0 (clean 0#32)
    let r := mxReg o.ins
    let some_ (size : Nat) (old new : Nat → Elem) : AMap Elem := (List.range size).map fun k =>
      (k, if Config.pick (n + 2 ^ 19 + k / 16) % 2 = 0 then old k else new k)
    let word (k : Nat) : Elem := if x.poi then x else seenWord n t q.words (x.val.toNat / 4 + k)
    when (o.ctx = ctx) (andThen (act (.free (s.free + mxFree)))
      (match o.ins with
      | .tldb .. => upTeam o.team fun t => { t with tiles := t.tiles.put r (some_ 8192 (cellAt (t.tiles.findD r [])) word) }
      | .ald .. => when q.late (upTeam o.team fun t => { t with accs := t.accs.put (r - 32) (some_ 2048 (cellAt (t.accum r)) word) })
      | .ast .. =>
        let lo := if x.poi then 0 else x.val.toNat
        let new (k : Nat) := if x.poi then x else if q.late then cellAt (t.accum r) k else o.vals.getD (k + 1) (clean 0#32)
        lsStore o.team lo 2048 (cellAt (some_ 2048 (fun k => (t.word (lo / 4 + k)).elem) new))
      | _ => skip))

/-- `MATRIX_KAT_PASS` (R295): a known-answer pass takes no resource of the unit and leaves no effect. -/
def execMatrixKatPass (_frame _quadrant : Nat) (s : State) : Host.Outcome State Fault Refusal := fire s skip

end Sys2Proof.Machine
end

