-- ==== Sys2Proof/Machine/Services.lean ====
section
/-!
DEFINITION. Services.lean: `SVC` with its reply, `CRESZ`, `CFLUSH` and `TLBI` (R154, R155, R204, R231 to R233, R288 to R291, R362, R363,
R375, R458 to R460).
-/
namespace Sys2Proof.Machine

/-- Whether a service can be called in a view at depth 1 or more (Table 18.5; log entry 4). -/
def viewSafeSvc (n : Nat) : Bool := n < 2 || (0x100 ≤ n && Config.viewSafe n)

/-- `SVC` (R288, R458, R459): the operands of the batch are the 32 lane arguments, B and `SIDX`. -/
def execSvc (h : Head) (n : BitVec 12) (a b : Src) (s : State) : Host.Outcome State Fault Refusal :=
  let i : Instr := .svc h n a b
  issue i s fun c s =>
    consuming c s i [1, 2] false <|
      if c.depth ≠ 0 && !viewSafeSvc n.toNat then .trap .worldesc 0#64
      else
        let args := tab32 fun L => if c.on.has L then clean (lane (c.src 1 a) L).val else clean 0#32
        .done (svcBegins c i (args ++ [c.uni 2 b 0, clean (c.g.csr.sidx.setWidth 32)]) false fun id =>
          later 200 800 (.svcBatchArrival id))

/-- The service number of a call. -/
def svcNo : Instr → Nat
  | .svc _ n .. => n.toNat
  | _ => 0

/-- Whether an operation is a service call. -/
def isSvc : Instr → Bool
  | .svc .. => true
  | _ => false

/-- `SVC_BATCH_ARRIVAL` (R288, R459): the batch reaches the service frame, which serves the services of Table 18.5 itself after a time
that its table gives; the reply of one that the firmware defines comes from the firmware. -/
def execSvcBatchArrival (id : Nat) (s : State) : Host.Outcome State Fault Refusal :=
  fire s <| onSome (s.ops.find id) fun o =>
    if !isSvc o.ins || o.st ≠ .sent then skip
    else
      let n := svcNo o.ins
      let reply (w : Word) (l : List Byte) : Eff := freely fun k => freely fun m => on fun s =>
        at_ (s.now + Config.jitter k + delay 100 400 m) (.svcReply id w l)
      andThen (upOp id fun o => { o with st := .performed })
        (if n = 0 then reply 0#32 []
        else if n = 1 then reply 0#32 (num 8 s.ftime)
        else if n = 2 then
          seqs [event 16 (dieOf o.frame) (partOf o.frame) o.ctx ((o.vals.getD 32 (clean 0#32)).val.toNat) o.mask.toNat
              (gslotOf o.gid + o.frame * 2 ^ 16) 0 (storeBytesOf 128 (o.vals.take 32)), reply 0#32 []]
        else when (n < 0x100) (reply 1#32 []))

/-- The bytes of a reply block (Table 12.9). -/
def replyBytes (o : Op) (status : Word) (rseq : Nat) (data : List Byte) : List Byte :=
  num 4 status.toNat ++ num 4 (svcNo o.ins) ++ num 4 o.mask.toNat ++ num 4 rseq ++ (data ++ num 240 0).take 240

/-- Physical address of the reply block of a call (R289). -/
def State.replyAt (s : State) (o : Op) : Nat := (s.csr (offCSABASE o.part)).toNat + 256 * ((o.vals.getD 33 (clean 0#32)).val.toNat)

/-- A call whose reply has been written retires, and marks its group for `SVCERR` when the status is 1 to 3 (R290). -/
def svcEnds (id : Nat) (o : Op) (status : Word) : Eff :=
  seqs [when (1 ≤ status.toNat && status.toNat ≤ 3)
      (defer o.gid id .svc .svcerr (BitVec.ofNat 64 (status.toNat + svcNo o.ins * 2 ^ 32))),
    clearSb o, act (.op id none), retireOp o.gid id]

/-- `RSEQ` of the group of a call, resident or saved, goes on. -/
def countReply (o : Op) (id : Nat) : Eff := on fun s =>
  andThen (upGroup o.gid fun g => { g with rseq := g.rseq + 1 })
    (each s.saved fun kv => act (.saved kv.1 (some { kv.2 with groups := kv.2.groups.map fun p =>
      if (p.2.counted.any fun k => k.op = id) then (p.1, { p.2 with rseq := p.2.rseq + 1 }) else p })))

/-- Replies written to the group of a call so far. -/
def State.rseqOf (s : State) (o : Op) (id : Nat) : Nat :=
  match s.groups.find o.gid with
  | some g => g.rseq
  | none => ((s.saved.flatMap fun kv => kv.2.groups).find? fun p => p.2.counted.any fun k => k.op = id).elim o.moved fun p => p.2.rseq

/-- `SVC_REPLY` (R289 to R291): the device writes the reply block; in the following clock the call retires. The reply of a call of a
halted or reset context is written with `STATUS` 4 and otherwise discarded; that of a cut context's call is kept for its restore. -/
def execSvcReply (id : Nat) (status : Word) (data : List Byte) (s : State) : Host.Outcome State Fault Refusal :=
  fire s <| onSome (s.ops.find id) fun o =>
    if !isSvc o.ins then skip
    else
      let stopped := o.st = .lost || (s.ctxs.find o.ctx).elim true fun c => c.run = .halted
      if o.st = .performed && o.seg = 0 && !stopped then
        seqs [devWrite (s.replyAt o) (replyBytes o status (s.rseqOf o id + 1) data),
          upOp id fun o => { o with seg := 1, moved := status.toNat },
          countReply o id,
          after 1 (.svcReply id status data)]
      else if o.st = .performed && !stopped then when (s.groups.find o.gid).isSome (svcEnds id o (BitVec.ofNat 32 o.moved))
      else if stopped && o.seg = 0 then
        andThen (devWrite (s.replyAt o) (replyBytes o 4#32 (s.rseqOf o id + 1) []))
          (if (s.groups.find o.gid).isSome then upOp id fun o => { o with seg := 1 } else act (.op id none))
      else skip

/-- A frame's store grows to `v` ways (R155): each L1 way that passes to it is written back and invalidated, its beads going to the die
agent (R204). Way `w` of the L1 serves while the store has at most 15 - `w` ways. -/
def emptyL1 (frame v : Nat) : Eff := on fun s =>
  each ((s.l1.findD frame []).filter fun kv => 16 ≤ v + kv.2.way) fun kv => evictL1 frame kv.1

/-- Whether a request for `v` store ways is refused (R155). -/
def creszRefused (s : State) (frame v : Nat) : Bool :=
  15 < v || (v < s.storeWays frame &&
    (s.teams.filter fun kv => kv.2.frame = frame).any fun kv => kv.2.gran.any fun g => 32 * v ≤ g)

/-- `CRESZ` (R155, R375). -/
def execCresz (h : Head) (d : Dst) (a : Src) (s : State) : Host.Outcome State Fault Refusal :=
  let i : Instr := .cresz h d a
  issue i s fun c s =>
    consuming c s i [1] false <| .done <|
      newOp c i .sent (guardKept c) [c.uni 1 a 0] [] fun id => later 300 2000 (.creszComplete id)

/-- An earlier `CRESZ` of a frame: by issue clock, then by rod (R155). -/
def earlierCresz (s : State) (id : Nat) (o : Op) : Bool :=
  s.ops.any fun kv => kv.1 ≠ id && kv.2.frame = o.frame && (match kv.2.ins with
    | .cresz .. => kv.2.issued < o.issued || (kv.2.issued = o.issued && rodOf s kv.2 < rodOf s o)
    | _ => false)

/-- `CRESZ_COMPLETE` (R155): refused, or performed: the L1 ways that pass to the store are written back and invalidated; `sD` holds
the count and `f0`.Z says whether it was refused; neither is written with `NWB` (R81). -/
def execCreszComplete (id : Nat) (s : State) : Host.Outcome State Fault Refusal :=
  fire s <| onSome (s.ops.find id) fun o =>
    match o.ins with
    | .cresz _ d _ =>
      if earlierCresz s id o then later 300 2000 (.creszComplete id)
      else
        let v := (o.vals.getD 0 (clean 0#32)).val.toNat
        let n := s.storeWays o.frame
        let no := creszRefused s o.frame v
        let w : List PendKind := statusTo o d (BitVec.ofNat 32 (if no then n else v))
          ++ (if d.nwb then [] else [.wfBits 0 0b0100#4 (if no then 0b0100#4 else 0#4)])
        seqs [when (!no && n < v) (emptyL1 o.frame v), when (!no) (act (.ways o.frame (some v))),
          deliver o.dest o.issued (w.map fun k => ⟨s.now, k⟩), clearSb o, act (.op id none), soon (.teamReservation o.ctx)]
    | _ => skip

/-- Pages of a range that translate, as (VA, page), at most `n` of 64 KiB. -/
def pagesOf (s : State) (frame ctx base len : Nat) : List (Nat × Page) :=
  (List.range ((base + len + 65535) / 65536 - base / 65536)).filterMap fun k =>
    let va := max base ((base / 65536 + k) * 65536)
    match s.lookup frame ctx va .read with
    | .ok p => some (va, p)
    | .error _ => none

/-- The L1 sectors of a frame that a range of addresses names. -/
def sectorsIn (s : State) (frame ctx base len : Nat) : List Nat :=
  let l := (s.l1.findD frame []).keys
  if l = [] then []
  else (pagesOf s frame ctx base len).flatMap fun q =>
    let lo := q.2.paOf q.1
    let hi := lo + min (base + len - q.1) (65536 - q.1 % 65536)
    l.filter fun x => lo ≤ 64 * x && 64 * x < hi

/-- Earlier writes of a group that reach a range, all of them without one (R363). -/
def writesTo (s : State) (gid : Nat) (r : Option (Nat × Nat)) : List Nat :=
  (s.ops.filter fun kv => kv.2.gid = gid && writesGen kv.2.ins && genGlobal kv.2.ins && kv.2.pending && (match r with
    | none => true
    | some (b, n) => kv.2.accs.any fun a => a.adr < b + n && b < a.adr + accBytes kv.2.ins)).map Prod.fst

/-- `CFLUSH` (R362, R363); with a poisoned operand it acts on the frame's whole L1. -/
def execCflush (h : Head) (inv : Bool) (a b : Src) (s : State) : Host.Outcome State Fault Refusal :=
  let i : Instr := .cflush h inv a b
  issue i s fun c s =>
    let x := c.pairAt 1 a 0
    let y := c.uni 2 b 0
    let base := x.1.toNat
    let len := y.val.toNat
    let whole := x.2.isSome || y.poi
    if !whole && (base % 64 ≠ 0 || len % 64 ≠ 0) then .trap .misalign x.1
    else if c.depth ≠ 0 then .trap .worldesc (if x.2.isSome then 0#64 else x.1)
    else
      let n := if whole then 131072 * (16 - s.storeWays c.g.frame) else len
      let secs := if whole then (s.l1.findD c.g.frame []).keys else sectorsIn s c.g.frame (s.ctxOf c.g) base len
      let near := secs.all fun k => (s.homeOf k).elim false fun r => r.pkg = s.ownPkg && r.die = dieOf c.g.frame
      let worst := 400 + 2 * (n / 64)
      .done <| newOp c i .sent [] [clean (x.1.extractLsb' 0 32), clean (x.1.extractLsb' 32 32), ⟨y.val, whole⟩]
        (writesTo s c.owner (if whole then none else some (base, len))) fun id =>
          later (100 + n / 64) (if near then worst else max worst (s.csrBits offTOUT 16 0 * 1000)) (.cflushComplete id)

/-- One sector of a frame's L1 is written back and kept clean with one bead, or dropped (R363). -/
def flushSector (frame sec : Nat) (inv : Bool) : Eff := on fun s =>
  match (s.l1.findD frame []).find sec with
  | none => skip
  | some x =>
    let die := dieOf frame
    let b := s.beadsOf die sec
    let coherent := (b.hold.find frame).isSome
    let h := if inv then b.hold.del frame else b.hold.put frame 1
    seqs [when (x.dirty && !coherent) (swmBack die sec x),
      promote frame sec,
      when coherent (act (.beads (beadKey die sec)
        (if h = [] then none else some ⟨h, if inv && b.owner = some frame then none else b.owner⟩))),
      upL1 frame fun m => if inv then m.del sec else m.put sec { x with dirty := false }]

/-- `CFLUSH_COMPLETE` (R363): the write-backs are performed once the group's earlier stores to the range have been. -/
def execCflushComplete (id : Nat) (s : State) : Host.Outcome State Fault Refusal :=
  fire s <| onSome (s.ops.find id) fun o =>
    match o.ins, o.vals with
    | .cflush _ inv _ _, [lo, hi, n] =>
      if o.after ≠ [] then after 16 (.cflushComplete id)
      else
        let secs := if n.poi then (s.l1.findD o.frame []).keys
          else sectorsIn s o.frame o.ctx (lo.val.toNat + hi.val.toNat * 2 ^ 32) n.val.toNat
        seqs [each secs fun k => flushSector o.frame k inv, clearSb o, act (.op id none)]
    | _, _ => skip

/-- `TLBI` (R460): the group waits until its earlier stores have been performed and the removal is complete. -/
def execTlbi (h : Head) (k : TlbiKind) (a b : Src) (s : State) : Host.Outcome State Fault Refusal :=
  let i : Instr := .tlbi h k a b
  issue i s fun c s =>
    consuming c s i [1, 2] false <|
      let vals : Lanes := match k with
        | .pg => [c.uni 2 b 0, c.uni 1 a 0, c.uni 1 a 1]
        | .ctx => [c.uni 2 b 0]
        | .all => []
      .done <| waitFor c i [] vals (writesTo s c.owner none) fun id => upGroup c.gid fun g => { g with hold := .op id }

/-- Whether a `TLBI` removes translations of an address of a context. -/
def tlbiCovers (o : Op) (ctx : Nat) (p : Page) : Bool :=
  let v (k : Nat) := (o.vals.getD k (clean 0#32)).val.toNat
  match o.ins with
  | .tlbi _ .pg .. => ctx = v 0 && p.maps (v 1 + v 2 * 2 ^ 32)
  | .tlbi _ .ctx .. => ctx = v 0
  | .tlbi .. => true
  | _ => false

/-- The removal of a `TLBI` (R460) from every TLB, walk cache and constant cache. Of the constant caches it takes every line of the
context within the largest page that can map the address. -/
def tlbiRemoves (o : Op) : Eff := on fun s =>
  let v (k : Nat) := (o.vals.getD k (clean 0#32)).val.toNat
  let va := v 1 + v 2 * 2 ^ 32
  let line (key : Nat) := match o.ins with
    | .tlbi _ .pg .. => key / 4096 % 65536 = v 0 && key / 4096 / 65536 * 64 / 2 ^ 30 = va / 2 ^ 30
    | .tlbi _ .ctx .. => key / 4096 % 65536 = v 0
    | _ => true
  andThen (dropTranslations (fun e => tlbiCovers o e.ctx e.page) (fun w => match o.ins with
      | .tlbi _ .pg .. => w.onPath (v 0) va
      | .tlbi _ .ctx .. => w.ctx = v 0
      | _ => true))
    (each s.ccache fun kv => act (.ccache kv.1 (some (kv.2.keep fun k _ => !line k))))

/-- Whether an access translated with a removed entry, before operation number `n`, has still to be performed. -/
def stillUses (s : State) (o : Op) (n : Nat) : Bool :=
  s.ops.any fun kv => kv.1 < n && kv.2.pending && kv.2.accs.any fun a => !a.done && a.page.elim false (tlbiCovers o kv.2.ctx)

/-- `TLBI_COMPLETE` (R460): the entries go, and the group goes on when no access translated with them is left. -/
def execTlbiComplete (gid : Nat) (s : State) : Host.Outcome State Fault Refusal :=
  fire s <|
    match (s.groups.find gid).map Group.hold with
    | some (.op id) => onSome (s.ops.find id) fun o =>
      match o.ins with
      | .tlbi .. =>
        if o.after ≠ [] then skip
        else if o.seg = 0 then
          seqs [tlbiRemoves o, upOp id fun o => { o with seg := 1, moved := s.ids }, soon (.tlbiComplete gid)]
        else if stillUses s o o.moved then after 16 (.tlbiComplete gid)
        else andThen (upGroup gid fun g => { g with hold := .none, ready := max g.ready (s.now + 1) }) (act (.op id none))
      | _ => skip
    | _ => skip

end Sys2Proof.Machine
end

