-- ==== Sys2Proof/Machine/Save.lean ====
section
/-!
DEFINITION. Save.lean: the context save area (R99, R277, R285 to R287, Tables 12.4 to 12.8): its layout, its bytes, and what of it is read
back.
-/
namespace Sys2Proof.Machine

/-- Base of a context's save area: `CSABASE` of its lead partition (Table 12.5). -/
def State.csa (s : State) (part : Nat) : Nat := s.csrBits (offCSABASE part) 51 0

/-- Offset of the header of a context that first ran on `p` partitions (R285). -/
def headerOfs (p : Nat) : Nat := 4194304 * p

/-- Offset of the node table of up to 4,096 entries (log entry 70). -/
def nodeOfs (p : Nat) : Nat := headerOfs p + 4096

/-- Offset of class 2, behind the node table (log entry 70). -/
def classOfs (p : Nat) : Nat := nodeOfs p + 32768

/-- A team to be saved: its key, the team, the groups that it started with. -/
structure SaveTeam where
  tk : Nat
  t  : Team
  n  : Nat
  deriving DecidableEq, Repr

/-- Bytes of one group in class `c` (R286, Table 4.8); 0 for the classes laid out team by team. -/
def SaveTeam.perGroup (x : SaveTeam) (c : Nat) : Nat :=
  match c with
  | 2 => 512
  | 3 => 8 * (16 * x.t.sgr)
  | 4 => 4 * 256 + 4 * 8
  | 5 => 132 * (6 * x.t.vgr)
  | _ => 0

/-- Bytes of a team's own part in class `c` (Table 12.7). -/
def SaveTeam.perTeam (x : SaveTeam) (c : Nat) : Nat :=
  match c with
  | 2 => 64
  | 6 => (4096 + 2 * 128) * x.t.lgr
  | 7 => 8 * x.t.nbar
  | 8 => 33792 * x.t.ntile
  | 9 => 8448 * x.t.nacc
  | _ => 0

/-- Bytes of a team in class `c`. -/
def SaveTeam.size (x : SaveTeam) (c : Nat) : Nat := x.perTeam c + x.n * x.perGroup c

/-- Bytes of class `c` (2 to 9), up to a multiple of 64. -/
def classSize (l : List SaveTeam) (c : Nat) : Nat := ceilDiv ((l.map fun x => x.size c).sum) 64 * 64

/-- Offset of class `c` (2 to 10) from `CSABASE`, as the device lays the area out (log entry 70). -/
def saveOfs (p : Nat) (l : List SaveTeam) (c : Nat) : Nat :=
  classOfs p + ((List.range (c - 2)).map fun k => classSize l (k + 2)).sum

/-- Offset of the stop section of 64 KiB, the last part of the area (R300; log entry 70), behind `n` pending records. -/
def stopOfs (p : Nat) (l : List SaveTeam) (n : Nat) : Nat := ceilDiv (saveOfs p l 10 + 128 * n) 64 * 64

/-- The teams with the offset of each in class `c`. -/
def withOfs (l : List SaveTeam) (c : Nat) : List (SaveTeam × Nat) :=
  (l.foldl (fun (a : List (SaveTeam × Nat) × Nat) x => (a.1 ++ [(x, a.2)], a.2 + x.size c)) ([], 0)).1

/-- The context's unfinished nodes in the order of the node table: as they were registered (R285). -/
def State.liveNodes (s : State) (ctx : Nat) : List (Nat × Node) := s.nodes.filter fun kv => kv.2.ctx = ctx && !kv.2.st.finished

/-- A node-table entry (Table 12.6). -/
def nodeEntry (n : Node) : Nat :=
  match n.rival with
  | none => n.rcbva % 2 ^ 64
  | some (fk, i) => n.rcbva % 2 ^ 57 / 256 * 256 + 1 + i % 16 * 2 + fk % 64 * 2 ^ 57

/-- Teams in increasing index. -/
def byIndex (l : List (Nat × Team)) : List (Nat × Team) :=
  let put (l : List (Nat × Team)) (a : Nat × Team) := (l.takeWhile fun b => b.2.index ≤ a.2.index) ++ a :: l.dropWhile fun b => b.2.index ≤ a.2.index
  l.foldl put []

/-- The context's teams in the saved order (R286). -/
def State.saveTeams (s : State) (ctx : Nat) : List SaveTeam :=
  (s.liveNodes ctx).flatMap fun kv =>
    (byIndex (s.teams.filter fun q => q.2.node = kv.1 && q.2.started)).map fun q => ⟨q.1, q.2, (s.effOf q.2).groups⟩

/-- The group of a team at a place in group order, unless it has retired. -/
def State.groupAt (s : State) (t : Team) (j : Nat) : Option (Nat × Group) :=
  (t.groups.filterMap fun k => (s.groups.find k).map fun g => (k, g)).find? fun p => p.2.idx = j

/-- A number from fields (position, value). -/
def fields (l : List (Nat × Nat)) : Nat := (l.map fun p => p.2 * 2 ^ p.1).sum

/-- Code of a run state (Table 12.8). -/
def TState.code : TState → Nat
  | .held => 1
  | .exited => 2
  | _ => 0

/-- One lane of `THR` (Table 12.8). -/
def Thread.bits (t : Thread) : Nat :=
  t.pc.toNat + t.st.code * 2 ^ 57 + t.inT.toNat * 2 ^ 59 + (!t.faults.isEmpty).toNat * 2 ^ 60 + t.park.isSome.toNat * 2 ^ 61

/-- A group's CSRs as saved (Table 12.8). -/
def GCsr.bytes (r : GCsr) (node : Nat) : List Byte :=
  num 4 r.gstat.toNat ++ num 4 r.tcause.toNat ++ num 8 r.tpc.toNat ++ num 8 r.taddr.toNat ++ num 8 r.tvec.toNat
    ++ num 4 r.fpflg.toNat ++ num 4 (r.rm.toNat + 4 * r.ftz.toNat) ++ num 4 r.ejth ++ num 4 r.chk.toNat ++ num 4 r.prio
    ++ num 4 r.vid ++ num 8 node

/-- The group's CSRs read back; `PRIO` is lowered to the ceiling, and a `VID` without a live view is 0 (R284). -/
def GCsr.ofBytes (l : List Byte) (ceil : Nat) (live : Nat → Bool) : GCsr :=
  let x := leNat l
  { stale := bitsOf x 0 0 = 1, tmode := bitsOf x 1 1 = 1, sidx := BitVec.ofNat 18 (bitsOf x 21 4), tcause := BitVec.ofNat 4 (bitsOf x 35 32),
    tpc := BitVec.ofNat 57 (bitsOf x 127 64), taddr := BitVec.ofNat 64 (bitsOf x 191 128), tvec := BitVec.ofNat 57 (bitsOf x 255 192),
    fpflg := BitVec.ofNat 6 (bitsOf x 261 256), rm := BitVec.ofNat 2 (bitsOf x 289 288), ftz := bitsOf x 290 290 = 1,
    ejth := bitsOf x 351 320, chk := bitsOf x 352 352 = 1, prio := min ceil (bitsOf x 415 384),
    vid := if live (bitsOf x 447 416) then bitsOf x 447 416 else 0 }

/-- The barrier that scoreboard `n` of a group awaits. -/
def awaits (t : Team) (gid n : Nat) : Option Nat :=
  (t.bars.find? fun kv => kv.2.arrived.any fun p => p.1 = gid && p.2.toNat = n + 1).map Prod.fst

/-- The counter classes in the order of their codes. -/
def counterClasses : List CtrCls := [.cpy, .mtx, .gth, .col, .svc]

/-- A group control record (Table 12.8); that of a group that has retired holds EXITED threads and zeros. -/
def groupRecord (t : Team) (node : Nat) : Option (Nat × Group) → List Byte
  | none => (List.range 32).flatMap (fun _ => num 8 (2 * 2 ^ 57)) ++ num 256 0
  | some (gid, g) =>
    (List.range 32).flatMap (fun L => num 8 (g.th L).bits) ++ (List.range 32).flatMap (fun L => num 4 (g.th L).mr.toNat)
      ++ g.csr.bytes node
      ++ num 64 (fields (counterClasses.zipIdx.map (fun p => (6 * p.2, g.counter p.1 % 64)) ++
          [(32, g.join % 64), (64, g.joinAddr.toNat), (96, g.resume.toNat), (128, g.sb.toNat)]
          ++ (List.range 6).flatMap (fun n => match awaits t gid n with
            | some b => [(134 + 3 * n, b % 8), (152 + n, 1)]
            | none => [])
          ++ [(158, (decide (g.hold = .sstep true)).toNat)]))

/-- An element as a uniform register is saved (Table 4.8). -/
def Elem.saved (e : Elem) : List Byte := num 4 e.val.toNat ++ num 4 e.poi.toNat

/-- A flag lane as saved. -/
def FlagE.saved (f : FlagE) : List Byte := num 4 (f.fl.toNat + 16 * f.poi.toNat) ++ num 4 f.pay.toNat

/-- A set of numbers below `n` as a mask of bytes. -/
def maskBytes (n : Nat) (p : Nat → Bool) : List Byte :=
  (List.range (n / 8)).map fun k => BitVec.ofNat 8 ((List.range 8).map fun b => (p (8 * k + b)).toNat * 2 ^ b).sum

/-- A vector register as saved. -/
def savedLanes (x : Lanes) : List Byte :=
  (List.range 32).flatMap (fun L => num 4 (lane x L).val.toNat) ++ maskBytes 32 fun L => (lane x L).poi

/-- One group's bytes of class `c`. -/
def groupBytes (x : SaveTeam) (node : Nat) (c : Nat) (o : Option (Nat × Group)) : List Byte :=
  match c, o with
  | 2, o => groupRecord x.t node o
  | 3, some (_, g) => (List.range (16 * x.t.sgr)).flatMap fun n => (g.sreg n).saved
  | 4, some (_, g) => (List.range 4).flatMap (fun n => (List.range 32).flatMap fun L => ((g.creg n).getD L flag0).saved)
      ++ (List.range 4).flatMap fun n => (g.freg n).saved
  | 5, some (_, g) => (List.range (6 * x.t.vgr)).flatMap fun n => savedLanes (g.vreg n)
  | c, none => num (x.perGroup c) 0
  | _, _ => []

/-- Words of a tile or an accumulator as saved: data, then a poison mask. -/
def cellBytes (n : Nat) (m : AMap Elem) : List Byte :=
  (List.range n).flatMap (fun k => num 4 (cellAt m k).val.toNat) ++ maskBytes n fun k => (cellAt m k).poi

/-- A team's own bytes of class `c` (R286). -/
def teamBytes (s : State) (x : SaveTeam) (c : Nat) : List Byte :=
  let words := 1024 * x.t.lgr
  match c with
  | 2 => num 64 (fields [(0, ((s.nodes.find x.t.node).elim 0 Node.rcbva) % 2 ^ 64), (64, x.t.index % 2 ^ 48), (112, (x.n - 1) % 32),
      (117, x.t.vframe % 2 ^ 11)])
  | 6 => (List.range words).flatMap (fun k => num 4 (x.t.word k).val.toNat) ++ maskBytes words (fun k => (x.t.word k).full)
      ++ maskBytes words fun k => (x.t.word k).poi
  | 7 => (List.range x.t.nbar).flatMap fun b =>
      let y := x.t.bars.findD b ⟨[], false⟩
      num 8 (y.arrived.length + y.parity.toNat * 2 ^ 32)
  | 8 => (List.range x.t.ntile).flatMap fun k => cellBytes 8192 (x.t.tiles.findD k [])
  | 9 => (List.range x.t.nacc).flatMap fun k => cellBytes 2048 (x.t.accs.findD k [])
  | _ => []

/-- The bytes of class `c` (2 to 9). -/
def State.classBytes (s : State) (l : List SaveTeam) (c : Nat) : List Byte :=
  l.flatMap fun x => teamBytes s x c ++ (List.range x.n).flatMap fun j =>
    groupBytes x ((s.nodes.find x.t.node).elim 0 Node.rcbva) c (s.groupAt x.t j)

/-- `KIND` of a pending operation (R287). -/
def pendKind (i : Instr) : Option Nat :=
  match i with
  | .mma .. | .tldb .. | .azro .. | .ald .. | .ast .. | .ard .. => some 0
  | .cpy .. | .tld .. | .tst .. => some 1
  | .gath .. | .scat .. => some 2
  | .coll .. => some 3
  | .svc .. => some 4
  | _ => none

/-- A pending record (R287): 128 bytes. -/
def pendRecord (kind : Nat) (mark : Bool) (sidx seg : Nat) (word body : List Byte) : List Byte :=
  (num 4 (kind + mark.toNat * 16 + sidx % 2 ^ 18 * 2 ^ 8) ++ num 4 seg ++ (word ++ num 12 0).take 12 ++ body ++ num 108 0).take 128

/-- The pending records of a context, with the operations or records that they stand for: matrix operations in queue order, then the
others in issue order, the faults, and the deferred traps. -/
def State.pendRecords (s : State) (ctx : Nat) : List (List Byte) :=
  let sidx (gid : Nat) := (s.groups.find gid).elim 0 fun g => g.csr.sidx.toNat
  let word (i : Instr) := (encode i).getD []
  let vals (o : Op) := (o.vals.take 27).flatMap fun e => num 4 e.val.toNat
  let mx := s.mxq.flatMap fun (kv : Nat × List MxOp) => kv.2.filterMap fun (q : MxOp) => (s.ops.find q.op).bind fun o =>
    if o.ctx = ctx then some (pendRecord 0 q.mark (sidx o.gid) 0 (word o.ins) (vals o)) else none
  let rest := (s.ops.filter fun kv => kv.2.ctx = ctx).filterMap fun kv => match pendKind kv.2.ins with
    | some (k + 1) => some (pendRecord (k + 1) false (if k = 3 then (kv.2.vals.getD 33 (clean 0#32)).val.toNat else sidx kv.2.gid)
        (if k = 3 then 0 else kv.2.seg) (word kv.2.ins) (vals kv.2))
    | _ => none
  let faults := (s.recs.filter fun kv => kv.2.ctx = ctx && kv.2.status = 0).map fun kv => pendRecord 5 false (sidx kv.2.gid) 0 [] (kv.2.bytes kv.2.seq)
  let traps := (s.groups.filter fun kv => s.ctxOf kv.2 = ctx).flatMap fun (kv : Nat × Group) => kv.2.deferred.map fun (d : Deferred) =>
    pendRecord 6 false (sidx kv.1) 0 [] (num 4 (counterClasses.idxOf d.cls) ++ num 4 d.cause.toNat ++ num 8 d.info.toNat)
  mx ++ rest ++ faults ++ traps

/-- The header (Table 12.6). -/
def headerBytes (ctx p : Nat) (lost : Bool) (l : List SaveTeam) (nnode npend : Nat) : List Byte :=
  num 128 (fields ([(0, 0x53374353), (32, 1), (48, ctx), (64, p - 1), (68, lost.toNat), (96, (l.map SaveTeam.n).sum), (128, l.length),
    (160, nnode), (176, npend % 65536)] ++ (List.range 9).map (fun k => (64 * (k + 2) + 128, saveOfs p l (k + 2)))
    ++ [(832, nodeOfs p), (896, stopOfs p l npend)]))

/-- Writes the header and the node table of a context (R280, R285). -/
def writeHeader (ctx : Nat) (l : List SaveTeam) (ns : List (Nat × Node)) (npend : Nat) : Eff := on fun s => onSome (s.ctxs.find ctx) fun c =>
  let base := s.csa (c.parts.headD 0)
  andThen (devWrite (base + headerOfs c.nparts) (headerBytes ctx c.nparts c.stopLost l ns.length npend))
    (devWrite (base + nodeOfs c.nparts) (ns.flatMap fun kv => num 8 (nodeEntry kv.2)))

/-- Writes every class of a context (R282, R285 to R287). -/
def writeClasses (ctx : Nat) (l : List SaveTeam) (pr : List (List Byte)) : Eff := on fun s => onSome (s.ctxs.find ctx) fun c =>
  let base := s.csa (c.parts.headD 0)
  andThen (each ((List.range 8).map fun k => k + 2) fun k => devWrite (base + saveOfs c.nparts l k) (s.classBytes l k))
    (devWrite (base + saveOfs c.nparts l 10) pr.flatten)

/-- Whether the save area of a context is all mapped for the device (R285). -/
def State.saveMapped (s : State) (ctx : Nat) (n : Nat) : Bool :=
  (s.ctxs.find ctx).elim false fun c =>
    let base := s.csa (c.parts.headD 0)
    match s.region base with
    | some r => base + n ≤ r.base + r.size && s.fwOk base (s.cellOf s.ownPkg)
    | none => false

/-- Why units stop (Table 12.4). -/
inductive StopReason where
  | halt | cut | reset
  deriving DecidableEq, Repr

/-- Code of a stop reason. -/
def StopReason.code : StopReason → Nat
  | .halt => 0 | .cut => 1 | .reset => 2

/-- The unit that has an operation open (Table 12.3): matrix and engine operations at theirs, the others at their group's rod. -/
def openUnit (s : State) (o : Op) : StopUnit :=
  match pendKind o.ins with
  | some 0 => .matrix o.frame
  | some 1 | some 2 | some 3 => engineUnit o
  | _ => .rod o.frame (rodOf s o % 16)

/-- The destination address of an operation (Table 12.4; log entry 70): of one of a rod's instructions, that of its first access that is not done. -/
def destOf (s : State) (o : Op) : Nat :=
  match pendKind o.ins with
  | some 0 => (match o.ins with
    | .ast .. => (o.vals.getD 0 (clean 0#32)).val.toNat
    | _ => 0)
  | none => (o.accs.find? fun a => !a.done).elim 0 Acc.adr
  | _ => match (s.cmd o).dst 0 with
    | some (.glo a) => a / 2
    | some (.loc a) => a / 2
    | _ => 0

/-- The operations of a context that a unit has open (R277); the fabric of a die has those that await a request which has left the die. -/
def openOps (s : State) (u : StopUnit) (ctx : Nat) : List Op :=
  let at_ (o : Op) : Bool := match u with
    | .fabric d => dieOf o.frame = d && o.asked.any fun x => x.st = .pending
    | _ => openUnit s o = u
  (s.ops.filter fun kv => kv.2.ctx = ctx && kv.2.st ≠ .lost && at_ kv.2).map Prod.snd

/-- The bytes of a stop record (Table 12.4) of a unit that stops `skid` clocks after the line arrived. -/
def stopBytes (s : State) (u : StopUnit) (why : StopReason) (ctx skid : Nat) : List Byte :=
  let l := openOps s u ctx
  let old := l.foldl (fun (m : Option Op) o => match m with
    | some x => if o.issued < x.issued then some o else some x
    | none => some o) none
  let place : Nat × Nat × Nat := match u with
    | .rod f r => (0, f, r)
    | .matrix f => (1, f, 0)
    | .copy f => (2, f, 0)
    | .gather f => (3, f, 0)
    | .coll f => (4, f, 0)
    | .fabric d => (5, 64 * d, 0)
  let isRod := match u with | .rod .. => true | _ => false
  num 64 (fields [(0, place.1), (4, why.code), (8, place.2.1), (16, place.2.2),
    (20, old.elim 0 Op.fdom), (32, ctx), (48, l.length % 65536), (64, s.ftime - skid),
    (128, skid), (160, old.elim 0 fun o => gslotOf o.gid), (192, old.elim 0 fun o => if isRod then o.pc.toNat else destOf s o)])

/-- One record goes into the stop section at offset `ofs`, which holds 1,024; a further one is dropped (R277). -/
def putStop (ctx ofs : Nat) (b : List Byte) : Eff := on fun s => onSome (s.ctxs.find ctx) fun c =>
  if c.stops < 1024 then
    andThen (devWrite (s.csa (c.parts.headD 0) + ofs + 64 * c.stops) b) (upCtx ctx fun c => { c with stops := c.stops + 1 })
  else upCtx ctx fun c => { c with stopLost := true }

/-- A unit writes its stop records: one for each operation that it has open, or one if it has none (R277; log entry 70). -/
def stopRecord (ctx ofs : Nat) (u : StopUnit) (why : StopReason) (skid : Nat) : Eff := on fun s =>
  each (List.range (max 1 (openOps s u ctx).length)) fun _ => putStop ctx ofs (stopBytes s u why ctx skid)

/-- The stop section of an occasion begins. -/
def stopsBegin (ctx : Nat) : Eff := upCtx ctx fun c => { c with stops := 0, stopLost := false }

/-- Every unit of a context writes its stop records (R277). -/
def stopAll (ctx ofs : Nat) (why : StopReason) : Eff :=
  andThen (stopsBegin ctx) (on fun s => onSome (s.ctxs.find ctx) fun c => each c.units fun u => stopRecord ctx ofs u why 0)

end Sys2Proof.Machine
end

