-- ==== Sys2Proof/Machine/Preempt.lean ====
section
/-!
DEFINITION. Preempt.lean: halts, DRAIN, CUT, RESET and the warm restart (R149, R150, R158, R228, R245, R276 to R283, R291).
-/
namespace Sys2Proof.Machine

/-- The teams of a context. -/
def State.ctxTeams (s : State) (ctx : Nat) : List (Nat × Team) :=
  s.teams.filter fun kv => (s.nodes.find kv.2.node).elim false fun n => n.ctx = ctx

/-- The groups of a context, continuations among them. -/
def State.ctxGroups (s : State) (ctx : Nat) : List (Nat × Group) := s.groups.filter fun kv => s.ctxOf kv.2 = ctx

/-- Whether a partition is the lead partition of a context. -/
def State.leads (s : State) (ctx p : Nat) : Bool := (s.ctxs.find ctx).elim false fun c => c.parts.head? = some p

/-- The views of a context. -/
def State.ctxViews (s : State) (ctx : Nat) : List (Nat × View) := s.views.filter fun kv => s.leads ctx kv.2.part

/-- The live forks of a context. -/
def State.ctxForks (s : State) (ctx : Nat) : List (Nat × Fork) := s.forks.filter fun kv => kv.2.live && s.leads ctx kv.2.vpart

/-- The gid of a service call whose group is gone or saved: no group has it. -/
def noGroup : Nat := 2 ^ 31

/-- The service calls of a context keep running without their groups (R291); with `lost`, their replies will be discarded. -/
def detachCalls (ctx : Nat) (lost : Bool) : Eff := on fun s =>
  each (s.ops.filter fun kv => kv.2.ctx = ctx && isSvc kv.2.ins) fun kv =>
    act (.op kv.1 (some { kv.2 with
      gid := noGroup, dest := noGroup, team := if lost then noGroup else kv.2.team
      st := if lost then .lost else kv.2.st
      moved := if lost && kv.2.seg = 0 then s.rseqOf kv.2 kv.1 else kv.2.moved }))

/-- Everything of a context that runs is discarded: teams, forks, views, operations, fault records (R278, R281). -/
def discard (ctx : Nat) : Eff := on fun s =>
  seqs [detachCalls ctx true,
    each (s.ctxTeams ctx) fun kv => dropTeam kv.1,
    each (s.ctxForks ctx) fun kv => dropFork kv.1,
    on fun s => each (s.ctxViews ctx) fun kv => dropView kv.2.part kv.2.id,
    dropOps fun o => o.ctx = ctx && !isSvc o.ins,
    on fun s => each s.recs fun kv => when (kv.2.ctx = ctx) (act (.fr kv.1 none))]

/-- The queues that are configured for a context: those of its descriptors whose `LOGSZ` is in range (log entry 70). -/
def State.ctxQueues (s : State) (ctx : Nat) : List Nat :=
  (List.range 1024).filter fun q => s.qd q 111 96 = ctx && 4 ≤ s.qd q 68 64 && s.qd q 68 64 ≤ 20

/-- Whether the fabric requests of a die have ended for a context: none of its accesses beyond the local store is under way (Table 12.3). -/
def requestsEnded (s : State) (ctx die : Nat) : Bool :=
  !s.ops.any fun kv => kv.2.ctx = ctx && dieOf kv.2.frame = die && kv.2.st = .sent && (pendKind kv.2.ins).isNone
    && kv.2.accs.any fun a => a.page.isSome && !a.done

/-- The key under which the arrival of a halt line at a die's fabric is kept. -/
def haltKey (ctx die : Nat) : Nat := 2 ^ 24 + 8 * ctx + die

/-- A unit stops for a halt, `skid` clocks after the line arrived: its stop records, and with the last one the halt completes (R276 to R278). -/
def unitStops (ctx : Nat) (u : StopUnit) (skid : Nat) : Eff :=
  seqs [match u with
    | .matrix f => unitHalts ctx f
    | _ => skip,
    on fun s => onSome (s.ctxs.find ctx) fun c => stopRecord ctx (stopOfs c.nparts [] 0) u .halt skid, upCtx ctx fun c => { c with stopped := c.stopped ++ [u] },
    on fun s => onSome (s.ctxs.find ctx) fun c => when (c.units.all c.stopped.contains) (soon (.haltComplete ctx))]

/-- `HALT_LINE_ARRIVAL` (R276, R277, Table 12.3): the unit does nothing more for the context; the fabric requests of a die end first, or time out
(R219). -/
def execHaltLineArrival (ctx : Nat) (u : StopUnit) (s : State) : Host.Outcome State Fault Refusal :=
  fire s <| onSome (s.ctxs.find ctx) fun c =>
    if c.run ≠ .halting || c.stopped.contains u || !c.units.contains u then skip
    else andThen (when (c.stopped = []) (stopsBegin ctx)) (match u with
      | .fabric d =>
        let since := s.seen.findD (haltKey ctx d) s.now
        if requestsEnded s ctx d || since + s.csrBits offTOUT 16 0 * 1000 + 24000 ≤ s.now then
          andThen (act (.seen (haltKey ctx d) none)) (unitStops ctx u (s.now - since))
        else andThen (act (.seen (haltKey ctx d) (some since))) (after 64 (.haltLineArrival ctx u))
      | _ => unitStops ctx u 0)

/-- `HALT_COMPLETE` (R278): reservations and views are released, the nodes that run go to FAILED, queues are DISABLED, records are
STALE, and the context is HALTED. -/
def execHaltComplete (ctx : Nat) (s : State) : Host.Outcome State Fault Refusal :=
  fire s <| onSome (s.ctxs.find ctx) fun c =>
    if c.run ≠ .halting || !c.units.all c.stopped.contains then skip
    else
      let ns := ((s.liveNodes ctx).filter fun kv => kv.2.rival.isNone && (kv.2.st = .running || kv.2.st = .joining || kv.2.st = .committing))
      seqs [discard ctx,
        each ns fun kv => failNode kv.1 .failed,
        on fun s => each (s.ctxQueues ctx) fun q => devWrite (s.qdAt q + 32) (num 1 (s.qd q 263 256 / 4 * 4 + 2)),
        upCtx ctx fun c => { c with run := .halted, sidx := [] },
        writeHeader ctx [] [] 0]

/-- The fields of `PCMD` while a command runs and after it (Table 12.5). -/
def setPcmd (ctx parts busy res : Nat) : Eff :=
  setCsr offPCMD (BitVec.ofNat 64 (ctx % 65536 * 2 ^ 3 + busy * 2 ^ 19 + res * 2 ^ 20 + parts % 65536 * 2 ^ 32))

/-- The result of the command on a context (Table 12.5): `BUSY` clears. A cut made by a warm restart has none. -/
def endCommand (ctx res : Nat) : Eff := on fun s =>
  andThen (act (.pre (s.pre.filter fun q => q.ctx ≠ ctx)))
    (when (s.pre.any fun p => p.ctx = ctx && p.op ≠ 5) (setPcmd ctx (s.csrBits offPCMD 47 32) 0 res))

/-- A command begins, unless another is in progress (R279); `ok` says that it is not REFUSED. -/
def command (op ctx : Nat) (ok : Bool) (k : Eff) : Eff := on fun s =>
  let parts := s.csrBits offPCMD 47 32
  if s.csrBits offPCMD 19 19 = 1 then skip
  else if !ok then setPcmd ctx parts 0 3
  else seqs [setPcmd ctx parts 1 0, act (.pre (s.pre ++ [⟨op, ctx, s.now, 0⟩])), k]

/-- Teams that are reserved and have not started are given up: their node starts them again later (R280, R282). -/
def dropReserved (ctx : Nat) : Eff := on fun s =>
  each ((s.ctxTeams ctx).filter fun kv => !kv.2.started) fun kv =>
    andThen (act (.team kv.1 none)) (upNode kv.2.node fun n => { n with tnext := min n.tnext kv.2.index })

/-- `DRAIN` (R279, R280): no team starts any more. -/
def execDrain (ctx : Nat) (s : State) : Host.Outcome State Fault Refusal :=
  fire s <| command 1 ctx ((s.ctxs.find ctx).elim false fun c => c.run = .resident) <|
    seqs [upCtx ctx fun c => { c with run := .draining }, dropReserved ctx,
      after (1000 * s.csrBits offDRAINDL 16 0) (.drainDeadlineExpiry ctx), soon (.drainComplete ctx)]

/-- A view copy in the ways of an L2 moves to the overflow area, to a free place of the device's choice (R258, R282). -/
def spillCopy (part id sec : Nat) : Eff := freely fun n => on fun s =>
  onSome ((s.views.find (viewKey part id)).bind fun v => v.secs.find sec) fun c =>
    putCopy part id sec { c with slot := freeId (s.slotsUsed part) 0 (s.overflowSize part) (Config.pick n) }

/-- The view copies of a context that lie in its L2 ways move to its overflow area (R282). -/
def spillViews (ctx : Nat) : Eff := on fun s =>
  each (s.ctxViews ctx) fun kv => each (kv.2.secs.filter fun c => c.2.slot.isNone) fun c => spillCopy kv.2.part kv.2.id c.1

/-- A context leaves its partitions with what it was holding there; its calls go on (R280, R282, R291). -/
def saveAndFree (ctx : Nat) (withTeams : Bool) : Eff := andThen (spillViews ctx) <| on fun s => onSome (s.ctxs.find ctx) fun c =>
  let ts := if withTeams then s.ctxTeams ctx else []
  let gs := if withTeams then s.ctxGroups ctx else []
  let ops := (s.ops.filter fun kv => kv.2.ctx = ctx && !isSvc kv.2.ins)
  let sv : Saved :=
    { ctx := ctx, parts := c.parts, views := s.ctxViews ctx, forks := s.ctxForks ctx, teams := ts,
      groups := gs, ops := ops, mx := s.mxq.flatMap fun (kv : Nat × List MxOp) => kv.2.filter fun m => ops.any fun o => o.1 = m.op,
      recs := s.recs.filter fun kv => kv.2.ctx = ctx }
  seqs [act (.saved ctx (some sv)), forgetCtx ctx, detachCalls ctx false,
    each ops fun kv => act (.op kv.1 none),
    on fun s => each s.mxq fun kv => act (.mx kv.1 (some (kv.2.filter fun m => !ops.any fun o => o.1 = m.op))),
    each gs fun kv => act (.group kv.1 none), each ts fun kv => act (.team kv.1 none),
    each sv.views fun kv => act (.view kv.1 none), each sv.forks fun kv => act (.fork kv.1 none),
    each sv.recs fun kv => act (.fr kv.1 none),
    upCtx ctx fun c => { c with run := .cut, parts := [], stopped := [], headAt := none, limit := none }]

/-- The steps of a node's end that are due (R46): they are over before a context is saved (R282). -/
def State.nodesSettled (s : State) (ctx : Nat) : Bool :=
  (s.liveNodes ctx).all fun kv =>
    !((kv.2.st = .committing && !kv.2.waits) || (kv.2.st = .joining && s.kidsFinished kv.1))

/-- `RESET` takes effect (R281, R291): everything of the context is discarded, its unfinished nodes are CANCELLED with their signals, and
its partitions are free. -/
def resetNow (ctx res : Nat) : Eff := on fun s =>
  seqs [onSome (s.ctxs.find ctx) fun c => when (c.run ≠ .cut) (stopAll ctx (stopOfs c.nparts [] 0) .reset),
    discard ctx, forgetCtx ctx,
    onSome (s.saved.find ctx) fun sv => andThen (upCtx ctx fun c => { c with parts := sv.parts }) (act (.saved ctx none)),
    on fun s => each (s.liveNodes ctx) fun kv =>
      if kv.2.rival.isSome then act (.node kv.1 none) else andThen (setState kv.1 .cancelled) (nodeSignal kv.2 false),
    on fun s => each (s.ctxQueues ctx) fun q => when (s.queues.find q).isSome (act (.queue q none)),
    on fun s => when ((s.ctxs.find ctx).elim false fun c => c.run ≠ .cut) (writeHeader ctx [] [] 0),
    act (.ctx ctx none), endCommand ctx res]

/-- `DRAIN_COMPLETE` (R280): no team is left; the header and the node table are written, and the partitions are free. -/
def execDrainComplete (ctx : Nat) (s : State) : Host.Outcome State Fault Refusal :=
  fire s <| onSome (s.ctxs.find ctx) fun c =>
    if c.run ≠ .draining || s.ctxTeams ctx ≠ [] then skip
    else if !s.nodesSettled ctx || s.ops.any (fun kv => kv.2.ctx = ctx && kv.2.pending) then after 16 (.drainComplete ctx)
    else if !s.saveMapped ctx (stopOfs c.nparts [] 0 + 65536) then resetNow ctx 2
    else seqs [stopsBegin ctx, writeHeader ctx [] (s.liveNodes ctx) 0, saveAndFree ctx false, endCommand ctx 0]

/-- A group's issue that has gone on past an instruction which it waits at goes back to that instruction, for the threads of `m`. -/
def Group.backTo (g : Group) (m : Mask) (pc : BitVec 57) : Group := g.mapTh m fun _ th => { th with pc := pc }

/-- A full/empty wait is withdrawn into the resume mask (R158); a continuation is handed back at the instruction. -/
def withdrawWait (gid : Nat) (g : Group) (id : Nat) : Eff := on fun s => onSome (s.ops.find id) fun o =>
  let rest := o.accs.filter fun a => !a.done
  let m := Mask.of fun n => rest.any fun a => a.lane = n
  when (rest ≠ []) (seqs [withdrawWords id o,
    upGroup gid fun g => { g.backTo (BitVec.ofNat 32 o.seg) o.pc with hold := .none, resume := m, resuming := true },
    if g.cont.isSome then handBack gid o.pc
    else match o.ins with
      | .stwe .. => clearSb o
      | _ => if o.accs.any Acc.done then returnResult id o (o.mask &&& ~~~ m) (regOf o.accs) [] else clearSb o,
    act (.op id none)])

/-- A `CHOOSE` that waits for its rival or for room goes back to its instruction, since no rival ends while the context is cut. -/
def withdrawChoose (gid id : Nat) : Eff := on fun s => onSome (s.ops.find id) fun o =>
  match o.ins with
  | .choose .. => when (o.st = .waiting || o.st = .parkedHome)
      (seqs [upGroup gid fun g =>
          { g.backTo (Mask.of fun n => (g.th n).st = .run && (g.th n).pc = o.pc + 12) o.pc with
            hold := .none, counted := g.counted.filter fun c => c.op ≠ id },
        clearSb o, act (.op id none)])
  | _ => skip

/-- A group of a context that is being cut leaves what it waits at: at an instruction boundary before it (R282). A continuation is
handed back once its results have come (R38). -/
def leaveWait (gid : Nat) : Eff := on fun s => onSome (s.groups.find gid) fun g =>
  match g.hold with
  | .waitc _ _ pc m => upGroup gid fun g => { g.backTo m pc with hold := .none }
  | .sstep false => upGroup gid fun g => { g.mapTh (Mask.of fun n => (g.th n).st = .run) fun _ th => { th with pc := th.pc - 12 } with hold := .none }
  | .sleep _ => upGroup gid fun g => { g with hold := .none }
  | .fewait id _ => withdrawWait gid g id
  | .op id => withdrawChoose gid id
  | .none => onSome g.cont fun p => when (!s.ops.any fun kv => kv.2.dest = gid) (handBack gid (g.th p.2).pc)
  | _ => skip

/-- Whether an operation of a context that is being cut has come to where it is saved (R150, R282, R283, R291). -/
def opSettled (s : State) (id : Nat) (o : Op) : Bool :=
  let lostOnly := o.after.all fun k => (s.ops.find k).elim true fun x => x.st = .lost
  match pendKind o.ins with
  | some 0 => (s.mxq.findD o.frame []).any fun q => q.op = id && q.start.isNone
  | some 3 => o.st = .sent && o.escape.isNone
  | some 4 => true
  | some _ => o.st = .sent && o.parts = [] && lostOnly
      && (o.seg < (s.cmd o).segs || (o.held.any fun h => !h.gone) || o.after ≠ [])
  | none => o.st = .lost

/-- Whether the settle phase of a CUT is over (R282). -/
def State.settled (s : State) (ctx : Nat) : Bool :=
  (s.ctxGroups ctx).all (fun kv =>
      kv.2.cont.isNone && (kv.2.upTo s.now).pend = [] && (kv.2.hold = .none || kv.2.hold = .sstep true))
    && s.ops.all (fun kv => kv.2.ctx ≠ ctx || opSettled s kv.1 kv.2)
    && s.nodesSettled ctx
    && !s.recs.any fun kv => kv.2.ctx = ctx && (kv.2.cmd = some 3 || (kv.2.cmd = some 4 && kv.2.kind ≤ 3
      && !(s.groups.find kv.2.gid).elim false fun g => g.csr.tmode))

/-- CUT begins (R282): team starts end, and the rods and matrix units of the context's partitions start nothing more. -/
def beginCut (ctx : Nat) : Eff := on fun s => onSome (s.ctxs.find ctx) fun c =>
  let stops := c.units.filter fun u => match u with
    | .rod .. | .matrix _ => true
    | _ => false
  seqs [upCtx ctx fun c => { c with run := .cutting, stopped := stops, headAt := none, limit := none }, dropReserved ctx,
    after (1000 * s.csrBits offCUTDL 16 0) (.cutDeadlineExpiry ctx), later 5000 20000 (.cutSave ctx),
    each (s.ctxGroups ctx) fun kv => leaveWait kv.1]

/-- `CUT` (R279, R282). -/
def execCut (ctx : Nat) (s : State) : Host.Outcome State Fault Refusal :=
  fire s <| command 2 ctx (s.resident ctx) (beginCut ctx)

/-- `DRAIN_DEADLINE_EXPIRY` (R280): the DRAIN becomes a CUT; that of a context that halts meanwhile is refused. -/
def execDrainDeadlineExpiry (ctx : Nat) (s : State) : Host.Outcome State Fault Refusal :=
  fire s <| onSome (s.pre.find? fun p => p.ctx = ctx && p.op = 1) fun p =>
    if s.now < p.due + 1000 * s.csrBits offDRAINDL 16 0 then skip
    else match (s.ctxs.find ctx).map Ctx.run with
      | some .draining => andThen (act (.pre (s.pre.map fun q => if q.ctx = ctx then { q with op := 2, due := s.now, esc := 1 } else q)))
          (beginCut ctx)
      | _ => endCommand ctx 3

/-- `CUT_DEADLINE_EXPIRY` (R281): the CUT becomes a RESET. -/
def execCutDeadlineExpiry (ctx : Nat) (s : State) : Host.Outcome State Fault Refusal :=
  fire s <| onSome (s.pre.find? fun p => p.ctx = ctx && (p.op = 2 || p.op = 5)) fun p =>
    when (p.due + 1000 * s.csrBits offCUTDL 16 0 ≤ s.now) (resetNow ctx 2)

/-- `CUT_SAVE` (R282, R285 to R287): once everything has settled the context is saved and its partitions are free. -/
def execCutSave (ctx : Nat) (s : State) : Host.Outcome State Fault Refusal :=
  fire s <| onSome (s.ctxs.find ctx) fun c =>
    if c.run ≠ .cutting then skip
    else seqs [each (s.ctxGroups ctx) fun kv => leaveWait kv.1,
      on fun s =>
        if !s.settled ctx then after 16 (.cutSave ctx)
        else
          let l := s.saveTeams ctx
          let pr := s.pendRecords ctx
          if !s.saveMapped ctx (stopOfs c.nparts l pr.length + 65536) then resetNow ctx 2
          else
            let esc := (s.pre.find? fun p => p.ctx = ctx).elim 0 Preempt.esc
            seqs [each (s.ctxGroups ctx) fun kv => act (.group kv.1 (some (kv.2.upTo s.now))),
              stopAll ctx (stopOfs c.nparts l pr.length) .cut, writeHeader ctx l (s.liveNodes ctx) pr.length, writeClasses ctx l pr, saveAndFree ctx true,
              endCommand ctx esc]]

/-- `RESET` (R279, R281): the command begins, and takes effect within 20 / 60 µs. -/
def execReset (ctx : Nat) (s : State) : Host.Outcome State Fault Refusal :=
  fire s <|
    match s.pre.find? fun p => p.ctx = ctx && p.op = 4 with
    | some p => when (p.due ≤ s.now) (resetNow ctx 0)
    | none => command 4 ctx true (freely fun n => on fun s =>
        let d := delay 20000 60000 n
        andThen (act (.pre (s.pre.map fun p => if p.ctx = ctx && p.op = 4 then { p with due := s.now + d } else p))) (after d (.reset ctx)))

/-- The contexts that a warm restart cuts: those with a partition whose `HOSTMAP` is set (R228). -/
def State.hostMapped (s : State) (run : CtxRun → Bool) : List Nat :=
  (s.ctxs.filter fun kv => run kv.2.run && kv.2.parts.any fun p => s.csrBits (offPARTCFG p) 42 42 = 1).map Prod.fst

/-- Whether a physical address is host memory. -/
def State.hostPa (s : State) (pa : Nat) : Bool := (s.region pa).elim false Region.host

/-- The key under which the warm restart of a host link is kept, with the contexts that it cut. -/
def warmKey (link : Nat) : Nat := 2 ^ 26 + link

/-- Every host-memory sector leaves the RDCs, and the L1s below them; a dirty one keeps a mark (R228). -/
def dropHostSectors : Eff := on fun s =>
  let isHost (x : Nat) := s.hostPa (64 * secAt x)
  let held (p : Sector → Bool) : List Nat := ((s.rdc ++ s.l1).flatMap fun (kv : Nat × AMap Sector) =>
    (kv.2.filter fun (c : Nat × Sector) => p c.2 && isHost c.1).map Prod.fst).eraseDups
  seqs [act (.hgone (sortNat (s.mem.hgone ++ held Sector.dirty))),
    each (held fun _ => true) freeHost, each (s.dirSecs.filter fun q => isHost q.1) fun q => setDir q.1 .i [],
    each s.rdc fun kv => act (.rdc kv.1 (some (kv.2.keep fun x _ => !isHost x))),
    each s.l1 fun kv => act (.l1 kv.1 (some (kv.2.keep fun x _ => !isHost x))),
    each s.beads fun kv => when (isHost (kv.1 / 4)) (act (.beads kv.1 none))]

/-- The steps of a warm restart behind the cuts (R228): the host's requests in flight are neither performed nor answered. -/
def warmEnd (link cutN : Nat) : Eff := on fun s =>
  let marks := s.mem.hgone.length
  let host (a : Agent) : Bool := a = s.hostAgent
  let asks (w : Waiting) : Bool := host w.who
  let owned := (s.dirSecs.filter fun q => q.2.st = .m && q.2.holders.any host).length
  let named := (s.dirSecs.filter fun q => q.2.holders.any host).map Prod.fst
    ++ (s.trans.filter fun kv => kv.2.await.any host || (kv.2.cur.toList ++ kv.2.queue).any asks).map Prod.fst
  seqs [dropTranslations (fun e => s.hostPa e.page.pa) (fun w => s.hostPa w.next),
    dropHostSectors,
    act (.mig (s.mig.map fun m => { m with parked := m.parked.filter fun w => !asks w })),
    each (sortNat named) fun x => forgetAgents host asks (fun st => st = .m) (homePoison (s.dieOfSec x) x .hostgone 4) x,
    act (.seen (warmKey link) none),
    on fun s => event 3 4 noPart 0 (2 ^ link) cutN (s.mem.hgone.length - marks) owned []]

/-- `WARM_RESTART` (R228): the contexts that map host memory are cut first; the other steps follow once they have been. -/
def execWarmRestart (link : Nat) (s : State) : Host.Outcome State Fault Refusal :=
  fire s <|
    match s.seen.find (warmKey link) with
    | none =>
      let l := (s.hostMapped fun r => r = .resident || r = .draining)
      seqs [act (.seen (warmKey link) (some l.length)),
        each l fun ctx => on fun s =>
          andThen (act (.pre (if s.pre.any fun p => p.ctx = ctx then s.pre.map fun p => if p.ctx = ctx then { p with op := 2, due := s.now } else p
            else s.pre ++ [⟨5, ctx, s.now, 0⟩]))) (beginCut ctx),
        soon (.warmRestart link)]
    | some n => if s.hostMapped (fun r => r = .cutting) ≠ [] then after 64 (.warmRestart link) else warmEnd link n

end Sys2Proof.Machine
end

