-- ==== Sys2Proof/Machine/Area.lean ====
section
/-!
DEFINITION. Area.lean: a context as its save area alone gives it (R99, R284 to R287, R302): the nodes of the node table, the teams and groups of
the classes, the pending records. It serves a RESTORE of a context of which the device keeps nothing (log entry 99).
-/
namespace Sys2Proof.Machine

/-- Numbers of `w` bytes that a list of bytes holds, one after the other. -/
def wordsIn (w n : Nat) (l : List Byte) : List Nat := (List.range n).map fun k => leNat ((l.drop (w * k)).take w)

/-- A field of the header (Table 12.6). -/
def headerField (h : Nat) (hi lo : Nat) : Nat := bitsOf h hi lo

/-- Offset of a header that an area holds, and the header, by its `MAGIC` and `NPART`: the device knows P of a context of its own. -/
def headerAt (rd : Nat → Nat → Nat) : Option (Nat × Nat) :=
  ((List.range 16).map fun k => k + 1).findSome? fun p =>
    let h := rd (headerOfs p) 128
    if bitsOf h 31 0 = 0x53374353 && bitsOf h 67 64 + 1 = p then some (p, h) else none

/-- Whether a header is good for a context (R284, R285): its number and version, the context, the number of nodes. -/
def headerGood (h ctx : Nat) : Bool :=
  headerField h 31 0 = 0x53374353 && headerField h 47 32 = 1 && headerField h 63 48 = ctx && headerField h 175 160 ≤ 4096

/-- A node state from its code in the RCB (Table 2.6). -/
def NState.ofCode : Nat → NState
  | 0 => .waiting | 1 => .ready | 2 => .running | 3 => .joining | 4 => .committing | 5 => .done | 6 => .failed | _ => .cancelled

/-- A node of the node table, by its RCB in global memory (R47, R48, R285); what a registered node of the same RCB had beside it, its signal
and its queue, stays with it. A rival, and what descends from one, is marked as such. None where the RCB cannot be read. -/
def areaNode (t : State) (ctx k i : Nat) (acc : List (Nat × Node)) (entry : Nat) : Option Node :=
  let rival := bitsOf entry 0 0 = 1
  let va := if rival then bitsOf entry 56 8 * 256 else entry % 2 ^ 57
  (t.readRcb ctx 0 va false).toOption.map fun b =>
    let x := leNat b
    let r := Rcb.ofBytes b
    let par := if r.parent = 0 then none else acc.find? fun kv => kv.2.rcbva = r.parent && kv.2.rival.isNone
    let left := rival || (par.isNone && acc.any fun kv => kv.2.rcbva = r.parent && kv.2.rival.isSome)
    let was := (t.nodes.find? fun kv => kv.2.ctx = ctx && kv.2.rcbva = va && kv.2.rival.isNone && !left).map Prod.snd
    { ctx := ctx, rcbva := va, eff := effective (t.pceil (t.lead ctx)) r (par.map fun p => p.2.eff), st := NState.ofCode (bitsOf x 706 704),
      req := bitsOf x 709 708, tdone := bitsOf x 757 710, tnext := bitsOf x 757 710, parent := par.map Prod.fst, view := 0, rcbView := 0,
      priv := none, escaped := false, rival := if left then some (bitsOf entry 62 57, bitsOf entry 4 1) else none, order := i,
      readyAt := k, queue := was.bind Node.queue, sig := was.bind Node.sig, sarrive := [], sstep := was.elim 0 Node.sstep,
      digest := was.elim 0#64 Node.digest, waits := false }

/-- The nodes of a node table under the numbers from `k` on. -/
def areaNodes (t : State) (ctx k : Nat) (l : List Nat) : Option (List (Nat × Node)) :=
  l.zipIdx.foldl (fun (a : Option (List (Nat × Node))) e => a.bind fun acc =>
    (areaNode t ctx (k + e.2) e.2 acc e.1).map fun n => acc ++ [(k + e.2, n)]) (some [])

/-- The rest of a node table from the node of a team record on (R286): teams stand in increasing index within each node, and nodes in the
order of the table. `last` is the index of the record before, of the first node of the rest. -/
def nodeOfTeam (va idx : Nat) : Option Nat → List (Nat × Node) → List (Nat × Node)
  | _, [] => []
  | last, x :: l => if x.2.rcbva = va && last.all (· < idx) then x :: l else nodeOfTeam va idx none l

/-- A team record of a save area: its node, the team index, the groups, the virtual frame, and where its part of class 2 lies. -/
structure AreaTeam where
  node   : Nat × Node
  index  : Nat
  groups : Nat
  vframe : Nat
  ofs    : Nat
  deriving DecidableEq, Repr

/-- `n` team records from offset `ofs` of class 2 on, which `rd` reads; the list is shorter where a record names no node. -/
def areaTeams (rd : Nat → Nat) : Nat → Nat → Option Nat → List (Nat × Node) → List AreaTeam
  | 0, _, _, _ => []
  | n + 1, ofs, last, nodes =>
    let r := rd ofs
    match nodeOfTeam (bitsOf r 63 0) (bitsOf r 111 64) last nodes with
    | [] => []
    | x :: l =>
      let g := bitsOf r 116 112 + 1
      ⟨x, bitsOf r 111 64, g, bitsOf r 127 117, ofs⟩ :: areaTeams rd n (ofs + 64 + 512 * g) (some (bitsOf r 111 64)) (x :: l)

/-- A pending record (R287). -/
structure AreaPend where
  kind : Nat
  mark : Bool
  sidx : Nat
  seg  : Nat
  word : List Byte
  body : List Byte
  deriving DecidableEq, Repr

/-- A pending record from its 128 bytes. -/
def AreaPend.ofBytes (l : List Byte) : AreaPend :=
  let x := leNat (l.take 8)
  ⟨bitsOf x 3 0, bitsOf x 4 4 = 1, bitsOf x 25 8, bitsOf x 63 32, (l.drop 8).take 12, l.drop 20⟩

/-- The instruction of a pending record. -/
def AreaPend.instr? (p : AreaPend) : Option Instr :=
  match decode p.word with
  | .ok x => some x.1
  | .error _ => none

/-- Operand words that a matrix or engine operation reads at issue, the rank of a box record giving the number of its coordinates. -/
def operandWords (i : Instr) (v : Lanes) : Nat :=
  match i with
  | .mma .. => 4
  | .tldb .. | .ald .. | .ast .. => 1
  | .cpy _ dir .. => addrRegs (cpyGlo dir).1 + addrRegs (cpyGlo dir).2 + 2
  | .tld _ mc .. => 18 + recRank (numOf ((v.drop 1).take 16)) + mc.toNat
  | .tst .. => 18 + recRank (numOf ((v.drop 1).take 16))
  | .gath .. | .scat .. => 7
  | .coll .. => 11
  | _ => 27

/-- The operation of a pending record, of the group `gid` of a team. -/
def AreaPend.op (p : AreaPend) (t : State) (ctx gid tk : Nat) (i : Instr) (vid id : Nat) : Op :=
  let all := (wordsIn 4 27 p.body).map fun x => clean (BitVec.ofNat 32 x)
  let node := (t.teams.find tk).bind fun tm => t.nodes.find tm.node
  { ins := i, gid := gid, dest := gid, team := tk, frame := 0, part := t.lead ctx, ctx := ctx, view := vid, pc := 0#57, issued := t.now, seq := id,
    mask := 0xFFFFFFFF#32, accs := [], vals := (all.take (operandWords i all)) ++ (match i with
      | .svc .. => List.replicate (33 - 27) (clean 0#32) ++ [clean (BitVec.ofNat 32 p.sidx)]
      | _ => []), hm := 0#4
    st := if p.kind = 0 then .performed else .sent, after := [], seg := if p.kind = 1 || p.kind = 2 then p.seg else 0, moved := 0, held := [],
    parts := [], escape := none, fdom := node.elim 0 fun n => n.eff.fdom, pair := (0, 0), early := false, lows := [], asked := [], sentAt := t.now }

/-- The number of an operation of which nothing is kept: no operation has it. -/
def noOp : Nat := 2 ^ 62

/-- The fault record of a pending record (Table 10.5), of the group `gid`. -/
def AreaPend.frec (p : AreaPend) (ctx gid : Nat) : FRec :=
  let x := leNat (p.body.take 64)
  { part := 0, va := bitsOf x 63 0, pc := BitVec.ofNat 57 (bitsOf x 127 64), kind := bitsOf x 131 128, cause := bitsOf x 135 132,
    pgsz := bitsOf x 137 136, frame := bitsOf x 145 138, gslot := bitsOf x 155 146, fdom := bitsOf x 163 156, vid := bitsOf x 171 164,
    rcnt := bitsOf x 175 172, refault := bitsOf x 176 176 = 1, reissue := bitsOf x 178 178 = 1, status := bitsOf x 181 179, seq := 0#32,
    payload := BitVec.ofNat 32 (bitsOf x 255 224), lmask := BitVec.ofNat 32 (bitsOf x 287 256), ctx := ctx, team := bitsOf x 351 304,
    aux := BitVec.ofNat 64 (bitsOf x 415 352), gid := gid, op := noOp, cmd := none, pages := [bitsOf x 63 0] }

/-- A deferred trap of a pending record, as `pendRecords` writes it (log entry 70). -/
def AreaPend.deferred (p : AreaPend) : Deferred :=
  let x := leNat (p.body.take 16)
  ⟨counterClasses.getD (bitsOf x 31 0) .svc, 0, BitVec.ofNat 4 (bitsOf x 63 32), BitVec.ofNat 64 (bitsOf x 127 64)⟩

/-- The group that a control record gives, before its registers are read (R286, R287): its counters name its pending operations, its threads
hold and wait for its faults. `pend` lists its pending records with their numbers; `reply` is its `RSEQ`. None for one that has retired. -/
def areaGroup (tk idx : Nat) (t : Team) (n : Node) (r : List Byte) (now : Nat) (pend : List (Nat × AreaPend)) (reply : Nat) : Option Group :=
  let thr := wordsIn 8 32 r
  let recs := pend.filterMap fun p => if p.2.kind = 5 then some (p.1, p.2.frec 0 0) else none
  let hit (kinds : List Nat) (L : Nat) := recs.filter fun q => kinds.contains q.2.kind && (q.2.kind = 7 || Mask.has q.2.lmask L)
  let g := groupAtStart tk idx 0 (idx % 16) 0#57 0#64 0#64 t.sgr (csrAtStart 0#18 n.eff.prio 0) now
  if thr.all fun x => bitsOf x 58 57 = 2 then none
  else some { g with
    threads := tab32 fun L =>
      let held := (hit [0] L).map fun q => (⟨q.1, q.2.pc, q.1, q.2.payload⟩ : HeldFault)
      { g.th L with
        faults := held
        park := if held ≠ [] then some .region else match hit [1, 2, 3] L, hit [7] L with
          | q :: _, _ => some (.lookup q.1)
          | _, _ :: _ => some .lost
          | _, _ => none }
    counted := pend.filterMap fun p => match p.2.kind, p.2.instr? with
      | 0, _ => some ⟨p.1, .mtx, false⟩
      | 4, _ => some ⟨p.1, .svc, false⟩
      | 5, _ | 6, _ => none
      | _, i => i.map fun i => ⟨p.1, engClass i, false⟩
    deferred := pend.filterMap fun p => if p.2.kind = 6 then some p.2.deferred else none
    lost := recs.filterMap fun q => if q.2.kind = 7 then some q.1 else none
    rseq := reply }

/-- The barriers of a team from its groups' control records (Table 12.8): a group whose scoreboard awaits a barrier has arrived there; of the
other arrivals that the class counts, any groups of the team are taken. -/
def areaBars (t : Team) (count : Nat → Nat) (gs : List (Nat × List Byte)) : AMap Barrier :=
  (List.range t.nbar).map fun b =>
    let named := gs.flatMap fun p =>
      let x := leNat ((p.2.drop 448).take 64)
      (List.range 6).filterMap fun n =>
        if bitsOf x (152 + n) (152 + n) = 1 && bitsOf x (136 + 3 * n) (134 + 3 * n) = b then some (p.1, BitVec.ofNat 3 (n + 1)) else none
    let rest := (gs.filter fun p => !named.any fun q => q.1 = p.1).map fun p => (p.1, 0#3)
    (b, ⟨named ++ rest.take (count b - named.length), false⟩)

/-- A group of a save area, before it has a number on its frame: its `SIDX` and `VID`, and whether it has arrived at an `SSTEP`. -/
structure AreaGroup where
  gid     : Nat
  sidx    : Nat
  vid     : Nat
  arrived : Bool
  g       : Group
  deriving DecidableEq, Repr

/-- The number of a group until it has one on its frame: no group has it. -/
def areaGid (tk j : Nat) : Nat := 2 ^ 33 + 64 * tk + j

/-- A team as its record and its node's RCB give it, under number `tk`. -/
def AreaTeam.team (r : AreaTeam) (tk now : Nat) : Team :=
  let e := r.node.2.eff
  { node := r.node.1, index := r.index, frame := 0, vframe := r.vframe, started := true, groups := (List.range r.groups).map (areaGid tk), lgr := e.lgr,
    gran := [], startAt := now, issueAt := now, vgr := e.vgr, sgr := e.sgr, nbar := e.nbar, ntile := e.ntile, nacc := e.nacc, words := [], bars := [],
    tiles := [], accs := [] }

/-- What a save area holds of a context (R285, R286): its nodes, its teams with their records, its pending records, its groups. -/
structure Area where
  nodes  : List (Nat × Node)
  teams  : List (SaveTeam × AreaTeam)
  pend   : List (Nat × AreaPend)
  groups : List AreaGroup
  deriving DecidableEq, Repr

/-- Offset of class `c` of a save area (Table 12.6). -/
def classAt (base h c : Nat) : Nat := base + headerField h (64 * c + 191) (64 * c + 128)

/-- The control record of group `j` of a team (Table 12.8). -/
def controlRecord (s : State) (q : AreaTeam) (j : Nat) : List Byte := s.mem.bytes (q.ofs + 64 + 512 * j) 512

/-- The groups of a team that have not retired. -/
def areaGroups (s : State) (base : Nat) (pend : List (Nat × AreaPend)) (q : SaveTeam × AreaTeam) : List AreaGroup :=
  (List.range q.1.n).filterMap fun j =>
    let r := controlRecord s q.2 j
    let x := leNat (r.drop 384)
    let w := bitsOf x 21 4
    (areaGroup q.1.tk j q.1.t q.2.node.2 r s.now (pend.filter fun p => p.2.sidx = w) (s.mem.num (base + 256 * w + 12) 4)).map fun g =>
      ⟨areaGid q.1.tk j, w, bitsOf x 447 416, bitsOf x 670 670 = 1, g⟩

/-- THE SAVE AREA READ at `base` with header `h` (R285 to R287). `t` is the machine with the context on its new partitions. None where it does not
hold what the header says. -/
def areaOf (s t : State) (ctx base h : Nat) : Option Area :=
  let count := headerField h 175 160
  (areaNodes t ctx s.ids (wordsIn 8 count (s.mem.bytes (base + headerField h 895 832) (8 * count)))).bind fun nodes =>
    let recs := areaTeams (fun o => s.mem.num o 64) (headerField h 159 128) (classAt base h 2) none nodes
    if recs.length ≠ headerField h 159 128 then none
    else
      let k0 := s.ids + nodes.length
      let teams := recs.zipIdx.map fun q => ((⟨k0 + q.2, q.1.team (k0 + q.2) s.now, q.1.groups⟩ : SaveTeam), q.1)
      let pend := (List.range (headerField h 191 176)).map fun j =>
        (k0 + recs.length + j, AreaPend.ofBytes (s.mem.bytes (classAt base h 10 + 128 * j) 128))
      some ⟨nodes, teams, pend, (teams.filter fun q => q.2.node.2.rival.isNone).flatMap (areaGroups s base pend)⟩

/-- The first number that an area leaves free. -/
def Area.next (a : Area) (s : State) : Nat := s.ids + a.nodes.length + a.teams.length + a.pend.length

/-- The group of a pending record: that of its `SIDX`. -/
def Area.groupOf (a : Area) (p : AreaPend) : Option AreaGroup := a.groups.find? fun g => g.sidx = p.sidx

/-- The teams of an area: those of no rival, with the groups that they have and their barriers. -/
def Area.live (a : Area) (s : State) (base h : Nat) : List (Nat × Team) :=
  (a.teams.filter fun q => q.2.node.2.rival.isNone).map fun q =>
    let at7 := classAt base h 7 + ((withOfs (a.teams.map Prod.fst) 7).find? fun x => x.1.tk = q.1.tk).elim 0 Prod.snd
    let gs := (List.range q.1.n).filterMap fun j =>
      if a.groups.any fun g => g.gid = areaGid q.1.tk j then some (areaGid q.1.tk j, controlRecord s q.2 j) else none
    (q.1.tk, { q.1.t with groups := gs.map Prod.fst, bars := areaBars q.1.t (fun b => bitsOf (s.mem.num (at7 + 8 * b) 8) 31 0) gs })

/-- The nodes of an area but for rivals: with resident teams a node runs, and its arrivals at an `SSTEP` are those of its groups. -/
def Area.nodesNow (a : Area) (ts : List (Nat × Team)) : List (Nat × Node) :=
  (a.nodes.filter fun n => n.2.rival.isNone).map fun n =>
    let mine := ts.filter fun q => q.2.node = n.1
    (n.1, { n.2 with
      tnext := n.2.tdone + mine.length
      sarrive := (a.groups.filter fun g => g.arrived && mine.any fun q => q.1 = g.g.team).map AreaGroup.gid
      st := if mine ≠ [] && n.2.st ≠ .joining && n.2.st ≠ .committing then .running else n.2.st })

/-- The pending operations of an area, under the numbers of their records. -/
def Area.ops (a : Area) (u : State) (ctx : Nat) : List (Nat × Op) :=
  a.pend.filterMap fun x =>
    if 4 < x.2.kind then none
    else (a.groupOf x.2).bind fun g => x.2.instr?.map fun i => (x.1, x.2.op u ctx g.gid g.g.team i g.vid x.1)

/-- The held faults of an area (R245); that of an engine's page belongs to the command of its group. -/
def Area.faults (a : Area) (ctx : Nat) (ops : List (Nat × Op)) : List (Nat × FRec) :=
  a.pend.filterMap fun x =>
    if x.2.kind ≠ 5 then none
    else (a.groupOf x.2).map fun g =>
      let r := x.2.frec ctx g.gid
      let mine := ops.find? fun o => o.2.gid = g.gid && (pendKind o.2.ins).any fun k => 1 ≤ k && k ≤ 2
      (x.1, { r with op := if r.kind = 4 || r.kind = 5 then mine.elim noOp Prod.fst else noOp })

/-- A matrix operation that has not started, in the queue of its unit. -/
def Area.queued (a : Area) (x : Nat × AreaPend) : MxOp :=
  ⟨x.1, (a.groupOf x.2).elim 0 fun g => g.g.rod, x.2.mark, none, 0, false, [], [], []⟩

/-- A context as a save area gives it: the acts that register its nodes and calls, what of it waits to be restored, and the teams as the
classes of the area are laid out for them. -/
structure Adopted where
  acts   : List Act
  sv     : Saved
  layout : List SaveTeam

/-- THE CONTEXT OF A SAVE AREA at `base` with header `h`, for the partitions `ps` (R284 to R287). Rivals, whose forks the device does not
hold, and views do not come back (R284: a `VID` without a live view is 0). The nodes that the context had on the device give way. -/
def adopt (s : State) (ctx : Nat) (ps : List Nat) (base h : Nat) : Option Adopted :=
  let p := headerField h 67 64 + 1
  let c := { ctxOn ctx ps with nparts := p }
  let t := s.apply (.ctx ctx (some c))
  (areaOf s t ctx base h).map fun a =>
    let teams := a.live s base h
    let nodes := a.nodesNow teams
    let ops := a.ops { t with teams := teams, nodes := nodes } ctx
    let faults := a.faults ctx ops
    let withheld (id : Nat) := (faults.filter fun f => f.2.op = id).map fun f => (⟨f.1, f.2.va, f.2.aux.toNat, f.2.kind = 5, false⟩ : Withheld)
    let renew (k : Nat) : Option Nat := (s.nodes.find k).bind fun o => (nodes.find? fun n => n.2.rcbva = o.rcbva && o.rival.isNone).map Prod.fst
    { acts := [.ids (a.next s), .ctx ctx (some { c with parts := [], run := .cut, regs := nodes.length, sidx := a.groups.map AreaGroup.sidx })]
        ++ ((s.nodes.filter fun kv => kv.2.ctx = ctx).map fun kv => Act.node kv.1 none) ++ (nodes.map fun n => Act.node n.1 (some n.2))
        ++ ((s.queues.filter fun q => s.qd q.1 111 96 = ctx).map fun q => Act.queue q.1 (some { q.2 with nodes := q.2.nodes.filterMap renew }))
        ++ ((ops.filter fun o => isSvc o.2.ins).map fun o => Act.op o.1 (some o.2))
      sv := { ctx := ctx, parts := List.range p, views := [], forks := [], teams := teams, groups := a.groups.map fun g => (g.gid, g.g),
              ops := (ops.filter fun o => !isSvc o.2.ins).map fun o => (o.1, { o.2 with held := withheld o.1 }),
              mx := (a.pend.filter fun x => x.2.kind = 0 && ops.any fun o => o.1 = x.1).map a.queued, recs := faults }
      layout := a.teams.map Prod.fst }

end Sys2Proof.Machine
end

