-- ==== Sys2Proof/Machine/Restore.lean ====
section
/-!
DEFINITION. Restore.lean: RESTORE of a saved context (R38, R97, R99, R150, R245, R284 to R287, R291).
-/
namespace Sys2Proof.Machine

/-- Bit `k` of a mask of bytes. -/
def maskHas (l : List Byte) (k : Nat) : Bool := (l.getD (k / 8) 0#8).getLsbD (k % 8)

/-- The elements of `n` data words with a poison mask behind them. -/
def elemsIn (n : Nat) (l : List Byte) : List Elem :=
  (wordsIn 4 n l).zipIdx.map fun p => ⟨BitVec.ofNat 32 p.1, maskHas (l.drop (4 * n)) p.2⟩

/-- An element that `Elem.saved` has written. -/
def elemOf (l : List Byte) : Elem := ⟨BitVec.ofNat 32 (leNat (l.take 4)), (leNat (l.drop 4)) % 2 = 1⟩

/-- A flag lane that `FlagE.saved` has written. -/
def flagOf (l : List Byte) : FlagE :=
  let x := leNat l
  ⟨BitVec.ofNat 4 (bitsOf x 3 0), bitsOf x 4 4 = 1, BitVec.ofNat 32 (bitsOf x 63 32)⟩

/-- A run state from its code. -/
def stateOf : Nat → TState
  | 0 => .run | 1 => .held | _ => .exited

/-- A thread from its bits; what it holds and why it is parked is kept in the device (log entry 70). -/
def Thread.ofBits (x mr : Nat) (old : Thread) : Thread :=
  { old with pc := BitVec.ofNat 57 (bitsOf x 56 0), st := stateOf (bitsOf x 58 57), inT := bitsOf x 59 59 = 1, mr := BitVec.ofNat 32 mr,
             faults := if bitsOf x 60 60 = 1 then old.faults else [], park := if bitsOf x 61 61 = 1 then old.park else none, age := 0 }

/-- `n` bytes of the save area of a context that is being restored. -/
def State.saved? (s : State) (base ofs n : Nat) : List Byte := s.mem.bytes (base + ofs) n

/-- A group read back from its bytes in the classes (R284, R286), on a frame. `at_ c` is its address in class `c`. -/
def readGroup (s : State) (x : SaveTeam) (g : Group) (frame : Nat) (at_ : Nat → Nat) (ready ceil : Nat) (live : Nat → Bool) : Group :=
  let r := s.mem.bytes (at_ 2) 512
  let x2 := leNat r
  let thr := wordsIn 8 32 r
  let mrs := wordsIn 4 32 (r.drop 256)
  let sreg (n : Nat) := (n, elemOf (s.mem.bytes (at_ 3 + 8 * n) 8))
  let creg (n : Nat) := (n, (List.range 32).map fun L => flagOf (s.mem.bytes (at_ 4 + 256 * n + 8 * L) 8))
  let freg (n : Nat) := (n, flagOf (s.mem.bytes (at_ 4 + 1024 + 8 * n) 8))
  let vreg (n : Nat) := (n, elemsIn 32 (s.mem.bytes (at_ 5 + 132 * n) 132))
  { g with
    frame := frame
    threads := tab32 fun L => Thread.ofBits (thr.getD L 0) (mrs.getD L 0) (g.th L)
    s := (List.range (16 * x.t.sgr)).map sreg
    c := (List.range 4).map creg
    f := (List.range 4).map freg
    v := (List.range (6 * x.t.vgr)).map vreg
    q := [], o := [], hm := 0#4, pend := []
    csr := GCsr.ofBytes ((r.drop 384).take 64) ceil live
    join := bitsOf x2 3621 3616
    joinAddr := BitVec.ofNat 32 (bitsOf x2 3679 3648)
    resume := BitVec.ofNat 32 (bitsOf x2 3711 3680)
    sb := BitVec.ofNat 6 (bitsOf x2 3717 3712)
    sbFar := 0#6
    hold := if bitsOf x2 3742 3742 = 1 then .sstep true else .none
    ready := ready, last := none, active := none, swapEnd := ready, since := s.now, yielded := false, wlog := [], past := [], z8 := none }

/-- A team read back from its bytes (R286), with its groups under their new numbers. -/
def readTeam (s : State) (x : SaveTeam) (base : Nat → Nat) (renum : Nat → Nat) (t : Team) : Team :=
  let n := 1024 * x.t.lgr
  let ls := s.mem.bytes (base 6) (4096 * x.t.lgr + 256 * x.t.lgr)
  let full := ls.drop (4 * n)
  let word (p : Elem × Nat) : Nat × LWord := (p.2, ⟨p.1.val, maskHas (full.drop (n / 8)) p.2, maskHas full p.2, []⟩)
  let bar (b : Nat) :=
    let y := leNat (s.mem.bytes (base 7 + 8 * b) 8)
    (b, (⟨(x.t.bars.findD b ⟨[], false⟩).arrived.map fun p => (renum p.1, p.2), bitsOf y 32 32 = 1⟩ : Barrier))
  { t with
    groups := x.t.groups.map renum
    startAt := s.now
    issueAt := s.now
    words := ((wordsIn 4 n ls).zipIdx.map fun p => word (⟨BitVec.ofNat 32 p.1, false⟩, p.2)).filter fun q =>
      q.2 ≠ ⟨0#32, false, false, []⟩
    bars := (List.range x.t.nbar).map bar
    tiles := (List.range x.t.ntile).map fun k => (k, (elemsIn 8192 (s.mem.bytes (base 8 + 33792 * k) 33792)).zipIdx.map fun p => (p.2, p.1))
    accs := (List.range x.t.nacc).map fun k => (k, (elemsIn 2048 (s.mem.bytes (base 9 + 8448 * k) 8448)).zipIdx.map fun p => (p.2, p.1)) }

/-- The saved teams on frames, in the saved order and in increasing virtual frame number (R284); none where one of them fits nowhere. -/
def placeSaved (s : State) (frames : List Nat) : List SaveTeam → Option (List (SaveTeam × Nat) × State)
  | [] => some ([], s)
  | x :: l =>
    match frames.find? fun f => s.fits x.t.node f (s.effOf x.t) with
    | none => none
    | some f =>
      let t : Team := { x.t with frame := f, vframe := s.vframe f, gran := (s.freeGran f).take x.t.lgr }
      (placeSaved (s.apply (.team x.tk (some t))) frames l).map fun p => (({ x with t := t }, f) :: p.1, p.2)

/-- New group numbers: every saved group takes a free slot of its rod on its team's new frame (R63), as (old, new). -/
def renumber (s : State) (l : List (SaveTeam × Nat)) (gs : List (Nat × Group)) : List (Nat × Nat) :=
  let all := l.flatMap fun p => p.1.t.groups.map fun k => (k, p.2)
  all.foldl (fun (m : List (Nat × Nat)) q =>
    let rod := (AMap.find gs q.1).elim 0 Group.rod
    let base := 1024 * q.2 + 64 * rod
    let used := (s.groups.keys ++ m.map Prod.snd).filter fun k => base ≤ k && k < base + 64
    m ++ [(q.1, (freeId used base 64 (Config.pick (s.free + q.1))).getD base)]) []

/-- A number under a renumbering. -/
def newNumber (m : List (Nat × Nat)) (k : Nat) : Nat := ((m.find? fun p => p.1 = k).map Prod.snd).getD k

/-- A group with every mention of the record `a` turned into `b`. -/
def Group.renameRec (a b : Nat) (g : Group) : Group :=
  { g with lost := g.lost.map (fun k => if k = a then b else k)
           threads := tab32 fun L =>
             let th := g.th L
             { th with faults := th.faults.map fun f => if f.fr = a then { f with fr := b } else f
                       park := if th.park = some (.lookup a) then some (.lookup b) else th.park } }

/-- A saved fault record is issued again (R245): a new number, frame and slot, `REISSUE` = 1, its `RCNT`. A command that was held for it
is held again. -/
def reissue (key : Nat) (r : FRec) (part frame gid : Nat) : Eff :=
  fault { r with part := part, frame := frame, gslot := gslotOf gid, gid := gid, reissue := true, seq := 0#32, cmd := none } fun k => on fun s =>
    seqs [upGroup gid (Group.renameRec key k),
      upOp r.op fun o => { o with held := o.held.map fun h => if h.fr = key then { h with fr := k } else h },
      onSome (s.recs.find k) fun x => when (x.status = 0 && !(s.waitRec.findD part []).any fun w => w.cmd = some k)
        (match r.cmd with
        | some 1 | some 2 => andThen (upFr k fun x => { x with cmd := r.cmd }) (heldCommands gid)
        | some 3 => applyCommand k { x with cmd := none } true
        | some 4 => applyCommand k { x with cmd := none } false
        | _ => skip)]

/-- A saved operation is entered again (R150, R284): matrix operations into the unit of the new frame, engine commands at their segment, an index list read
anew where it is not kept. -/
def reenter (id : Nat) (o : Op) : Eff := on fun s =>
  match pendKind o.ins with
  | some 1 | some 2 =>
    let idx := match o.ins with
      | .gath .. | .scat .. => if o.vals.length = 7 then indexWords (s.teamOf o) o.vals else []
      | _ => []
    let o := { o with vals := o.vals ++ idx }
    let p := firstPair s o
    andThen (act (.op id (some o))) (if o.seg < (s.cmd o).segs then later p.1 p.2 (.engineDelivery id o.seg) else soon (.engineComplete id))
  | _ => act (.op id (some o))

/-- Whether a header is good for what was saved (R284, R285). -/
def headerOk (h ctx p : Nat) (sv : Saved) (nnode : Nat) : Bool :=
  headerField h 31 0 = 0x53374353 && headerField h 47 32 = 1 && headerField h 63 48 = ctx && headerField h 67 64 + 1 = p
    && headerField h 159 128 = sv.teams.length && headerField h 175 160 = nnode

/-- The saved teams in the saved order. -/
def State.savedTeams (s : State) (ctx : Nat) (sv : Saved) : List SaveTeam :=
  (s.liveNodes ctx).flatMap fun kv =>
    (byIndex (sv.teams.filter fun q => q.2.node = kv.1)).map fun q => ⟨q.1, q.2, (s.effOf q.2).groups⟩

/-- What a RESTORE does once nothing stands against it (R284); `layout` names the teams that the classes of the area hold. -/
def restoreNow (ctx : Nat) (parts : List Nat) (sv : Saved) (h : Nat) (base : Nat) (layout : List SaveTeam) (l : List (SaveTeam × Nat)) : Eff :=
  freely fun n => on fun s =>
  let lead := parts.headD 0
  let m := renumber s l sv.groups
  let ready := s.now + delay 5000 40000 n
  let live (v : Nat) := v ≠ 0 && sv.views.any fun kv => kv.2.id = v
  let ofs (c : Nat) := base + headerField h (64 * c + 191) (64 * c + 128)
  let at_ (tk c : Nat) := ofs c + ((withOfs layout c).find? fun p => p.1.tk = tk).elim 0 Prod.snd
  let newPart (p : Nat) := parts.getD (sv.parts.idxOf p) lead
  let frameOf (tk : Nat) := (l.find? fun p => p.1.tk = tk).elim 0 Prod.snd
  let moved (id : Nat) (o : Op) : Op :=
    let gid := if isSvc o.ins then ((sv.groups.find? fun p => p.2.counted.any fun k => k.op = id).elim noGroup fun p => newNumber m p.1)
      else newNumber m o.gid
    { o with gid := gid, dest := if o.dest = 2 ^ 30 then o.dest else gid, frame := if (l.any fun p => p.1.tk = o.team) then frameOf o.team else o.frame,
             part := lead, view := if o.view = 0 || live o.view then o.view else 0 }
  seqs [upCtx ctx fun c => { c with parts := parts, run := .resident, stopped := [], lastFrame := none, headAt := none, limit := none },
    act (.saved ctx none),
    each sv.views fun kv => andThen (act (.view (viewKey lead kv.2.id) (some { kv.2 with part := lead })))
      (each kv.2.secs fun c => putCopy lead kv.2.id c.1 c.2),
    each sv.forks fun kv => act (.fork (64 * newPart (kv.1 / 64) + kv.1 % 64) (some { kv.2 with vpart := lead })),
    each (s.liveNodes ctx) fun kv => upNode kv.1 fun n =>
      { n with sarrive := n.sarrive.map (newNumber m), rival := n.rival.map fun r => (64 * newPart (r.1 / 64) + r.1 % 64, r.2) },
    each l fun p => act (.team p.1.tk (some (readTeam s p.1 (at_ p.1.tk) (newNumber m) p.1.t))),
    each l fun p => each p.1.t.groups fun old => onSome (AMap.find sv.groups old) fun g =>
      let j := g.idx
      let addr (c : Nat) := at_ p.1.tk c + p.1.perTeam c + j * p.1.perGroup c
      act (.group (newNumber m old) (some (readGroup s p.1 g p.2 addr ready (s.pceil lead) live))),
    each sv.ops fun q => reenter q.1 (moved q.1 q.2),
    each sv.mx fun q => on fun s => onSome (s.ops.find q.op) fun o =>
      andThen (act (.mx o.frame (some (s.mxq.findD o.frame [] ++
          [{ q with start := none, finish := 0, late := false, words := [], tiles := [], accs := [] }]))))
        (lookAt o.frame ready),
    on fun s => each (s.ops.filter fun kv => kv.2.ctx = ctx && isSvc kv.2.ins) fun kv =>
      andThen (act (.op kv.1 (some (moved kv.1 kv.2)))) (when (kv.2.seg = 1) (soon (.svcReply kv.1 0#32 []))),
    each (sv.recs.filter fun kv => kv.2.status = 0) fun kv =>
      let gid := newNumber m kv.2.gid
      let frame := (l.find? fun p => p.1.t.groups.contains kv.2.gid).elim (16 * lead) Prod.snd
      reissue kv.1 kv.2 (partOf frame) frame gid,
    on fun s => each (s.liveNodes ctx) fun kv => andThen (superstepCheck kv.1) (when (kv.2.st = .joining) (checkJoin (some kv.1))),
    soon (.teamReservation ctx),
    on fun s => each (s.ctxQueues ctx) fun q =>
      andThen (when (s.queueGoes q) (soon (.nodePacket q))) (when ((s.queueOf q).fence.isSome) (soon (.qfenceComplete q))),
    endCommand ctx 0]

/-- What a RESTORE onto `ps` starts from (R284, R285), with the header: what the device keeps of the context, where the save area's header
fits it; else the context as the area alone gives it. None for a bad save. -/
def State.restorable (s : State) (ctx : Nat) (ps : List Nat) : Option (Adopted × Nat) :=
  let base := s.csa (ps.headD 0)
  let alone : Option (Adopted × Nat) := (headerAt fun o n => s.mem.num (base + o) n).bind fun p =>
    if headerGood p.2 ctx then (adopt s ctx ps base p.2).map fun a => (a, p.2) else none
  match s.saved.find ctx, s.ctxs.find ctx with
  | some sv, some c =>
    let h := leNat (s.mem.bytes (base + headerOfs c.nparts) 128)
    if headerOk h ctx c.nparts sv (s.liveNodes ctx).length then some (⟨[], sv, s.savedTeams ctx sv⟩, h) else alone
  | _, _ => alone

/-- `RESTORE` (R279, R284). -/
def execRestore (ctx : Nat) (parts : BitVec 16) (s : State) : Host.Outcome State Fault Refusal :=
  let ps := (List.range 16).filter fun p => parts.getLsbD p
  let free (p : Nat) := s.partEn p && s.partCtx p = ctx && !s.ctxs.any fun kv => kv.2.parts.contains p
  fire s <| andThen (when (s.csrBits offPCMD 19 19 = 0) (setCsrBits offPCMD 47 32 parts.toNat)) <| command 3 ctx (!(s.ck.any fun kv => kv.2.ctx = ctx) && (s.ctxs.find ctx).elim true (fun c => c.run = .cut) && ps.all free) <|
    match s.restorable ctx ps with
    | none => endCommand ctx 5
    | some (x, h) =>
      let t := s.run x.acts
      onSome (t.ctxs.find ctx) fun c =>
        if ps.length < x.sv.parts.length then endCommand ctx 4
        else
          let t := t.apply (.ctx ctx (some { c with parts := ps }))
          match placeSaved t (ps.flatMap fun p => (List.range 16).map fun k => 16 * p + k) (t.savedTeams ctx x.sv) with
          | none => endCommand ctx 4
          | some (l, _) => andThen (fun _ => x.acts) (restoreNow ctx ps x.sv h (s.csa (ps.headD 0)) x.layout l)

end Sys2Proof.Machine
end

