-- ==== Sys2Proof/Machine/Sha.lean ====
section
/-!
DEFINITION. Sha.lean: SHA-256 (named by R300, R309 and R311; its definition is taken from FIPS 180-4, log entry 75).
-/
namespace Sys2Proof.Machine

/-- The greatest `r` below `2 ^ b` above `acc` with `r ^ k ≤ n`, bit by bit. -/
def rootBits (k n : Nat) : Nat → Nat → Nat
  | 0, acc => acc
  | b + 1, acc => rootBits k n b (if (acc + 2 ^ b) ^ k ≤ n then acc + 2 ^ b else acc)

/-- The first 64 primes. -/
def shaPrimes : List Nat :=
  [2, 3, 5, 7, 11, 13, 17, 19, 23, 29, 31, 37, 41, 43, 47, 53, 59, 61, 67, 71, 73, 79, 83, 89, 97, 101, 103, 107, 109, 113, 127, 131] ++
  [137, 139, 149, 151, 157, 163, 167, 173, 179, 181, 191, 193, 197, 199, 211, 223, 227, 229, 233, 239, 241, 251, 257, 263, 269, 271, 277,
    281, 283, 293, 307, 311]

/-- 32 bits of the fraction of a prime's `k`-th root. -/
def shaFraction (k p : Nat) : Word := BitVec.ofNat 32 (rootBits k (p * 2 ^ (32 * k)) 40 0)

/-- The round constants: of cube roots. -/
def shaK : List Word := shaPrimes.map (shaFraction 3)

/-- The initial hash: of square roots. -/
def shaH : List Word := (shaPrimes.take 8).map (shaFraction 2)

/-- The message schedule from its last 16 words, `n` words on. -/
def shaSchedule : Nat → List Word → List Word
  | 0, w => w
  | n + 1, w =>
    let x (k : Nat) := w.getD (w.length - k) 0#32
    let s0 := (x 15).rotateRight 7 ^^^ (x 15).rotateRight 18 ^^^ (x 15 >>> 3)
    let s1 := (x 2).rotateRight 17 ^^^ (x 2).rotateRight 19 ^^^ (x 2 >>> 10)
    shaSchedule n (w ++ [x 16 + s0 + x 7 + s1])

/-- One round. -/
def shaRound (v : List Word) (kw : Word × Word) : List Word :=
  match v with
  | [a, b, c, d, e, f, g, h] =>
    let s1 := e.rotateRight 6 ^^^ e.rotateRight 11 ^^^ e.rotateRight 25
    let ch := (e &&& f) ^^^ (~~~ e &&& g)
    let t1 := h + s1 + ch + kw.1 + kw.2
    let s0 := a.rotateRight 2 ^^^ a.rotateRight 13 ^^^ a.rotateRight 22
    let mj := (a &&& b) ^^^ (a &&& c) ^^^ (b &&& c)
    [t1 + (s0 + mj), a, b, c, d + t1, e, f, g]
  | v => v

/-- Big-endian words of 4 bytes. -/
def beWords : Nat → List Byte → List Word
  | 0, _ => []
  | n + 1, l => BitVec.ofNat 32 (leNat (l.take 4).reverse) :: beWords n (l.drop 4)

/-- One block of 64 bytes. -/
def shaBlock (h : List Word) (l : List Byte) : List Word :=
  let w := shaSchedule 48 (beWords 16 l)
  (h.zip ((shaK.zip w).foldl shaRound h)).map fun p => p.1 + p.2

/-- `n` blocks. -/
def shaBlocks : Nat → List Word → List Byte → List Word
  | 0, h, _ => h
  | n + 1, h, l => shaBlocks n (shaBlock h (l.take 64)) (l.drop 64)

/-- SHA-256 of a list of bytes, as 32 bytes. -/
def sha256 (l : List Byte) : List Byte :=
  let pad := (55 + 64 - l.length % 64) % 64
  let m := l ++ 0x80#8 :: List.replicate pad 0#8 ++ (leBytes 8 (8 * l.length)).reverse
  (shaBlocks (m.length / 64) shaH m).flatMap fun w => (leBytes 4 w.toNat).reverse

end Sys2Proof.Machine
end

