-- ==== Sys2Proof/Machine/Reliability.lean ====
section
/-!
DEFINITION. Reliability.lean: strikes and their rewinds, known-answer operations, checkpoints, the twin (R75, R98, R107, R148, R292 to R296,
R299 to R308).
-/
namespace Sys2Proof.Machine

/-- Code of a strike's unit (Table 13.11). -/
def strikeCode : StrikeUnit → Nat
  | .rod => 0 | .helper => 1 | .matrix => 2 | .engine => 3 | .router => 4 | .cache => 5 | .localStore => 6 | .dram => 7

/-- The groups and continuations that a strike's unit rewinds (R292): those of the rod, or the continuations of the quadrant. -/
def rewound (s : State) (u : StrikeUnit) (frame n : Nat) : List (Nat × Group) :=
  s.groups.filter fun kv => kv.2.frame = frame && (match u with
    | .rod => kv.2.rod = n
    | .helper => kv.2.cont.isSome && kv.2.rod / 4 = n
    | _ => false)

/-- A group whose window holds no issue to be done again: its next issue, and what it has in flight, come `d` clocks later (R75). -/
def Group.delayed (d now : Nat) (g : Group) : Group :=
  { g with ready := max g.ready now + d, swapEnd := if now < g.swapEnd then g.swapEnd + d else g.swapEnd,
           pend := g.pend.map fun p => if now < p.clk then { p with clk := p.clk + d } else p, past := [] }

/-- A group as the rewind log has it (R98, R107): threads, registers, latches, operand cache, HM, `STALE`, `FPFLG`, `FPMODE`, what was in
flight; it issues again from there `d` clocks after it did. Operations of the numbers in `gone` are issued again and counted again. -/
def Group.restored (d : Nat) (gone : List Nat) (x : Past) (g : Group) : Group :=
  { g with
    threads := x.threads, v := x.v, s := x.s, c := x.c, f := x.f, q := x.q, o := x.o, hm := x.hm
    pend := x.pend.map fun p => { p with clk := p.clk + d }
    sb := x.sb, sbFar := x.sbFar, ready := x.clk + d, last := x.last, z8 := x.z8, csr := x.csr, resume := x.resume
    resuming := x.resuming, past := []
    hold := match g.hold with
      | .op k => if gone.contains k then .none else g.hold
      | h => h
    counted := g.counted.filter fun c => !gone.contains c.op }

/-- Where a group's re-execution starts: the oldest issue that its log holds of the 48 clocks before now. -/
def Group.start? (g : Group) (now : Nat) : Option Past := (g.past.filter fun x => now < x.clk + 48).head?

/-- The operations that a group or continuation has issued from clock `t` on, which its re-execution issues again: the store buffer discards
what it holds of them (R292). -/
def reissued (s : State) (k t : Nat) : List Nat := (s.ops.filter fun kv => kv.2.dest = k && t ≤ kv.2.issued).map Prod.fst

/-- The rewind of one group or continuation (R75, R98, R107, R292). -/
def rewindGroup (d k : Nat) : Eff := on fun s => onSome (s.groups.find k) fun g0 =>
  let g := g0.upTo s.now
  match g.start? s.now with
  | none => act (.group k (some (g.delayed d s.now)))
  | some x =>
    let gone := reissued s k x.clk
    seqs [act (.group k (some (g.restored d gone x))), each gone fun id => seqs [leaveBuffer id, opEnds id],
      on fun s => each s.rods fun kv => act (.rod kv.1 (some { kv.2 with
        rets := kv.2.rets.filter fun r => !gone.contains r.op, slots := kv.2.slots.filter fun p => kv.1 ≠ rodKey g.frame g.rod || p.issued < x.clk }))]

/-- The rewind of a rod or of a helper (R75, R98, R107, R292): every group goes back to its state 48 clocks ago and issues again, `d` clocks
after it did. -/
def rewind (u : StrikeUnit) (frame n d : Nat) : Eff := on fun s =>
  andThen (when (u = .rod) (upRod (rodKey frame n) fun r =>
      { r with reads := [], slots := r.slots.map fun p => { p with clk := p.clk + d, writes := p.writes.map fun q => (q.1 + d, q.2) },
               rets := r.rets.map (Ret.shift d) }))
    (each (rewound s u frame n) fun kv => rewindGroup d kv.1)

/-- The key under which a matrix unit's hold after a strike is kept. -/
def mxHoldKey (frame : Nat) : Nat := 2 ^ 25 + frame

/-- The result of an operation on the return path comes 48 clocks later. -/
def delayRet (id : Nat) : Eff := on fun s => each s.rods fun kv =>
  when (kv.2.rets.any fun r => r.op = id)
    (seqs [act (.rod kv.1 (some { kv.2 with rets := kv.2.rets.map fun r => if r.op = id then r.shift 48 else r })),
      each (kv.2.rets.filter fun r => r.op = id) fun r => on fun s => each s.groups fun g =>
        when (g.1 = r.dest || g.2.cont.map Prod.fst = some r.dest) (act (.group g.1 (some (g.2.moveRet r (r.shift 48))))),
      settleRets kv.1])

/-- The rewind of a quadrant array (R148): every operation of the unit completes, and every one that has not started starts, 48 clocks
later; a resource in use is free 48 clocks later, and an `ARD` whose result is on the return path delivers it 48 clocks later. -/
def rewindMatrix (frame : Nat) : Eff := on fun s =>
  let l := s.mxq.findD frame []
  let busy (q : MxOp) (t : Nat) : Bool := (s.ops.find q.op).elim false fun o => s.now < t + (mxTiming o.ins).2.1
  seqs [upMx frame fun l => l.map fun q =>
      match q.start with
      | some t => { q with finish := q.finish + 48, start := some (if busy q t then t + 48 else t) }
      | none => q,
    act (.seen (mxHoldKey frame) (some (max s.now (s.seen.findD (mxHoldKey frame) 0) + 48))),
    each (l.filter fun q => q.start.isSome) fun q => when ((s.ops.find q.op).elim false fun o => o.seg = 1) (delayRet q.op)]

/-- An element poisoned with a payload. -/
def poisonElem (w : Word) (_ : Elem) : Elem := ⟨w, true⟩

/-- The elements that a group wrote in the window are poisoned with a payload (R293). -/
def Group.soften (w : Word) (now : Nat) (g : Group) : Group :=
  (g.wlog.filter fun x => now ≤ x.clk + 48).foldl (fun g x =>
    let la (old : List LatchE) : List LatchE := tab32 fun L =>
      let e := old.getD L latch0
      if x.m.has L && e.valid then { e with val := w, poi := true } else e
    match x.reg with
    | .v n => g.setV n x.m (uniform ⟨w, true⟩)
    | .s n => { g with s := g.s.put n ⟨w, true⟩ }
    | .c n => { g with c := g.c.put n (merge flag0 x.m ((g.creg n ++ List.replicate 32 flag0).map fun f => { f with poi := true, pay := w }) (g.creg n)) }
    | .f n => { g with f := g.f.put n { g.freg n with poi := true, pay := w } }
    | .q n => { g with q := g.q.put n (la (g.latch n)) }
    | .o n => { g with o := g.o.put n (la (g.ocache n)) }) g

/-- A rewind that cannot complete (R293): SOFT poison in what was written in the window, in held stores and in staged `MMA` results, and the
SOFTFAIL event. -/
def rewindFails (u : StrikeUnit) (frame n a0 : Nat) : Eff := on fun s =>
  origin ⟨.soft, frame, 0, 0, 0#57, 0, 0, 0⟩ fun w =>
    seqs [each (rewound s u frame n) fun kv => act (.group kv.1 (some ((kv.2.upTo s.now).soften w s.now))),
      when (u = .rod) (each ((s.rods.find (rodKey frame n)).elim [] Rod.store) fun id => upOp id fun o =>
        { o with accs := o.accs.map fun a => { a with dat := a.dat.map (poisonElem w) } }),
      when (u = .matrix) (each (s.mxq.findD frame []) fun q =>
        when (q.start.isSome && s.now ≤ q.finish && q.finish ≤ s.now + 48) (upOp q.op fun o => match o.ins with
          | .mma .. => { o with vals := o.vals.map (poisonElem w) }
          | _ => o)),
      countErr (dieOf frame) 3 1, event 7 (dieOf frame) (partOf frame) 0 a0 w.toNat 0 0 []]

/-- The poison of a sector that a place of Table 11.2 holds: an L1 or an RDC that holds its own copy of an `SWM` sector poisons that copy. -/
def poisonSector (orig frame sec : Nat) (w : Word) : Eff := on fun s =>
  let bad (x : Sector) : Sector := { x with poison := some w }
  let own : Bool := (s.beadsOf (dieOf frame) sec).hold = []
  match orig, (s.l1.findD frame []).find sec, s.inRdc (dieOf frame) sec with
  | 1, some x, _ => if own then upL1 frame fun m => m.put sec (bad x) else writeSector 0 0 sec 0 [] false (some w)
  | 3, _, some p => if own && (s.dirOf sec).holders = [] then upRdc p.1 fun m => m.put sec (bad p.2) else writeSector 0 0 sec 0 [] false (some w)
  | _, _, _ => writeSector 0 0 sec 0 [] false (some w)

/-- What a check of Table 13.1 finds on a frame or its die (R252, R297, R298): a corrected error is counted; of an error that it cannot
correct, the place takes DATA poison, in an origin entry of the frame for a frame's resource, else of the die that found it. -/
def eccFound (frame : Nat) (e : Ecc) : Eff := on fun s =>
  let reg (gid : Nat) (f : Word → Group → Group) : Eff := onSome (s.groups.find gid) fun g =>
    origin ⟨.data, g.frame, 0, 0, 0#57, s.fdomOf g, 0, gslotOf gid⟩ fun w => upGroup gid (f w)
  let res (tk : Nat) (f : Word → Team → Team) : Eff := onSome (s.teams.find tk) fun t =>
    origin ⟨.data, t.frame, 0, 0, 0#57, ((s.nodes.find t.node).elim 0 fun n => n.eff.fdom), 0, 0⟩ fun w => upTeam tk (f w)
  match e with
  | .corrected => countErr (dieOf frame) 0 1
  | .vreg gid n L => reg gid fun w g => g.setV n (Mask.of fun k => k = L) (uniform ⟨w, true⟩)
  | .ureg gid n => reg gid fun w g => { g with s := g.s.put n ⟨w, true⟩ }
  | .word tk k => res tk fun w t => { t with words := t.words.put k { t.word k with val := w, poi := true } }
  | .tile tk n k => res tk fun w t => { t with tiles := t.tiles.put n ((t.tiles.findD n []).put k ⟨w, true⟩) }
  | .acc tk n k => res tk fun w t => { t with accs := t.accs.put n ((t.accs.findD n []).put k ⟨w, true⟩) }
  | .sector o sec =>
    let mine : Bool := o = 1 || o = 6
    origin ⟨.data, if mine then frame else svcTab (dieOf frame), o % 8, if mine then 0 else 64 * sec, 0#57, 0, 0, 0⟩ (poisonSector o frame sec)
  | .view key sec => onSome ((s.views.find key).bind fun v => v.secs.find sec) fun _ =>
    origin ⟨.data, svcTab (dieOf frame), 7, 64 * sec, 0#57, 0, key % 256, 0⟩ fun w => writeSector (key / 256) (key % 256) sec 0 [] false (some w)

/-- `STRIKE` (R292 to R294, R297): a strike on unit `u` of a frame, followed by `e.restarts` more while the unit restores or re-executes. Each is
counted and reported; a rewind accepts two restarts. -/
def execStrike (u : StrikeUnit) (frame n : Nat) (e : StrikeEnd) (s : State) : Host.Outcome State Fault Refusal :=
  let restarts := e.restarts
  let a0 := strikeCode u + frame % 256 * 2 ^ 8 + (match u with
    | .rod | .helper | .matrix => n % 16 * 2 ^ 16
    | _ => 0)
  let part := match u with
    | .router | .cache | .dram => noPart
    | _ => partOf frame
  let covered := match u with
    | .rod | .helper | .matrix => true
    | _ => false
  let one : Eff := andThen (countErr (dieOf frame) 2 1) (event 6 (dieOf frame) part 0 a0 0 0 0 [])
  fire s <| flip andThen (onSome e.ecc (eccFound frame)) <|
    if !covered then one
    else seqs [each (List.range (restarts + 1)) fun _ => one,
      if 2 < restarts then rewindFails u frame n a0
      else if u = .matrix then each (List.range (restarts + 1)) fun _ => rewindMatrix frame
      else each (List.range (restarts + 1)) fun _ => freely fun k => rewind u frame n (delay 56 64 k)]

/-- Bit `k` of a 512-bit register in eight slots set. -/
def setWide (ofs : Nat → Nat) (k : Nat) : Eff := on fun s =>
  setCsr (ofs (k / 64)) (s.csr (ofs (k / 64)) ||| BitVec.ofNat 64 (2 ^ (k % 64)))

/-- Bits `[32r + 31:32r]` of a 512-bit register: the lanes of rod `r`. -/
def State.rodBits (s : State) (ofs : Nat → Nat) (r : Nat) : Word := BitVec.ofNat 32 (s.csrBits (ofs (r / 2)) (32 * (r % 2) + 31) (32 * (r % 2)))

/-- Whether a rod has no eligible group in this clock (R295). -/
def rodIdle (s : State) (rod : Nat) : Bool :=
  match turnOf s rod with
  | .idle => true
  | _ => false

/-- `KAT_INJECT` (R295, R296): a known-answer operation on an idle rod; a lane that differs from its signature is flagged, counted and
reported. -/
def execKatInject (rod : Nat) (op : Nat) (bad : Option Nat) (s : State) : Host.Outcome State Fault Refusal :=
  fire s <|
    match if s.kat && rod < 4096 && rodIdle s rod then bad else none with
    | none => skip
    | some L =>
      let f := rod / 16
      seqs [setWide (offLANEFLAG f) (32 * (rod % 16) + L % 32), countErr (dieOf f) 4 1,
        event 8 (dieOf f) (partOf f) 0 (f + rod % 16 * 2 ^ 8 + L % 32 * 2 ^ 12) op 0 0 []]

/-- A range of a checkpoint: VA and length (R299). -/
abbrev CkRange := Nat × Nat

/-- A checkpoint descriptor with its ranges (Table 13.2). -/
structure CkDesc where
  ctx : Nat
  nrng : Nat
  dst : Nat
  man : Nat
  table : List Byte
  ranges : List CkRange
  deriving DecidableEq, Repr

/-- Ranges from a table of 16-byte entries. -/
def rangesOf (n : Nat) (l : List Byte) : List CkRange :=
  (List.range n).map fun k => let x := leNat ((l.drop (16 * k)).take 16); (bitsOf x 56 0, bitsOf x 127 64)

/-- The descriptor at an address. -/
def State.ckDesc (s : State) (a : Nat) : CkDesc :=
  let x := s.mem.num a 64
  let n := bitsOf x 27 16
  let t := s.mem.bytes (a + 64) (16 * n)
  ⟨bitsOf x 15 0, n, bitsOf x 115 64, bitsOf x 179 128, t, rangesOf n t⟩

/-- The lead partition by which a context that is cut, or not yet restored, finds its save area and its page tables: that of its saved
state, or the first that is configured with it. -/
def State.ckLead (s : State) (ctx : Nat) : Nat :=
  match s.saved.find ctx with
  | some sv => sv.parts.headD 0
  | none => (s.ctxParts ctx).headD 0

/-- The page of an address in the page tables of a context that is not resident. -/
def State.ckPage (s : State) (ctx va : Nat) (wr : Bool) : Option Nat :=
  match (s.walkFrom (s.ckLead ctx / 4) ctx va 4 (s.csrBits (offXLBASE (s.ckLead ctx)) 51 0)).1 with
  | .ok p => if wr && !p.w then none else some (p.paOf va)
  | .error _ => none

/-- Length of a save area to the end of its stop section (R300). -/
def areaLen (h : Nat) : Nat := headerField h 959 896 + 65536

/-- The pieces of 64 KiB at most of a checkpoint's stream from offset `o` on, `n` bytes: physical addresses, none where a page faults. -/
def ckPieces (s : State) (d : CkDesc) (base area : Nat) (wr : Bool) (o n : Nat) : List (Option Nat × Nat) :=
  let spans := (d.ranges.foldl (fun (a : List (Nat × Nat × Nat) × Nat) r => (a.1 ++ [(a.2, r.1, r.2)], a.2 + r.2)) ([], area)).1
  (List.range (n / 64)).map fun k =>
    let x := o + 64 * k
    if x < area then (some (base + x), 64)
    else match spans.find? fun q => q.1 ≤ x && x < q.1 + q.2.2 with
      | some q => (s.ckPage d.ctx (q.2.1 + (x - q.1)) wr, 64)
      | none => (none, 64)

/-- Length of the stream. -/
def ckLen (d : CkDesc) (area : Nat) : Nat := area + (d.ranges.map Prod.snd).sum

/-- Bytes and poison of a sector as a shard holds it (R300): a poisoned one as its payload and zeros. -/
def shardSector (x : Sector) : List Byte :=
  match x.poison with
  | some w => num 4 w.toNat ++ num 60 0
  | none => x.bytes

/-- A shard: its data and its poison bitmap (R300). -/
def shardBytes (s : State) (l : List Nat) : List Byte × List Byte :=
  let secs := l.map fun a => s.baseSector (secOf a)
  (secs.flatMap shardSector, maskBytes (2 ^ 24) fun j => (secs[j]?).elim false fun x => x.poison.isSome)

/-- Address of shard `i` (R300). -/
def shardAt (d : CkDesc) (i : Nat) : Nat := d.dst + (2 ^ 30 + 2 ^ 21) * i

/-- Bytes of shard `i` of a stream of `len` bytes. -/
def shardLen (len i : Nat) : Nat := min (2 ^ 30) (len - 2 ^ 30 * i)

/-- A checkpoint command ends (Table 13.2). -/
def ckEnd (res : Nat) : Eff :=
  seqs [act (.ck 0 none), setCsrBits offCKCMD 2 2 0, setCsrBits offCKCMD 5 3 res]

/-- The published time of a shard (R300). -/
def shardTime : Eff := later 9000000 30000000 .ckptShardDone

/-- A checkpoint command begins, unless one is in progress (R299). -/
def ckBegin (load : Bool) (desc : Nat) (k : CkDesc → Eff) : Eff := on fun s =>
  when (s.csrBits offCKCMD 2 2 = 0)
    (seqs [setCsr offCKCMD (BitVec.ofNat 64 (desc / 4096 % 2 ^ 40 * 2 ^ 12 + 4)),
      act (.ck 0 (some ⟨load, desc, (s.ckDesc desc).ctx, 0, 0, s.ftime, []⟩)), k (s.ckDesc desc)])

/-- The save area of a context as the checkpoint engine finds it: base, length, header. -/
def State.ckArea (s : State) (ctx : Nat) : Option (Nat × Nat × Nat) :=
  let base := s.csa (s.ckLead ctx)
  (headerAt fun o n => s.mem.num (base + o) n).map fun p => (base, areaLen p.2, p.2)

/-- `CKPT_SAVE` (R299, R300): refused unless the context is cut and not restored. -/
def execCkptSave (desc : Nat) (s : State) : Host.Outcome State Fault Refusal :=
  fire s <| ckBegin false desc fun d => on fun s =>
    if !(s.ctxs.find d.ctx).elim false (fun c => c.run = .cut) then ckEnd 1
    else match s.ckArea d.ctx with
      | none => ckEnd 4
      | some (_, n, _) => andThen (upCk 0 fun c => { c with total := ceilDiv (ckLen d n) (2 ^ 30) }) shardTime

/-- Whether a physical address can no longer be reached: its cell is dead, or no plane leads there (R303). -/
def State.ckLost (s : State) (a : Nat) : Bool :=
  (s.region a).elim true fun r => s.deadCell (s.cellOf r.pkg) || !s.reachable r.pkg

/-- The manifest's bytes before its signature (Table 13.3). -/
def manifestBody (d : CkDesc) (shards time len : Nat) (nodes digests : List Byte) : List Byte :=
  num 4 0x4D534B43 ++ num 2 1 ++ num 2 d.ctx ++ num 4 shards ++ num 4 d.nrng ++ num 8 time ++ num 8 len
    ++ (List.range 32).map Config.keyHash ++ d.table ++ nodes ++ digests

/-- Bytes of the signature (Table 13.3). -/
def sigBytes : Nat := 16224

/-- One shard of a SAVE is copied and hashed; the last is followed by the manifest (R300, R301, R303). -/
def saveShard (c : Ckpt) (d : CkDesc) : Eff := on fun s =>
  match s.ckArea d.ctx with
  | none => ckEnd 4
  | some (base, n, h) =>
    let len := ckLen d n
    let l := ckPieces s d base n false (2 ^ 30 * c.shard) (shardLen len c.shard)
    if l.any fun p => p.1.isNone then ckEnd 4
    else if s.ckLost (shardAt d c.shard) || (l.filterMap Prod.fst).any s.ckLost then ckEnd 5
    else
      let x := shardBytes s (l.filterMap Prod.fst)
      let digs := c.digests ++ sha256 (x.1 ++ x.2)
      seqs [devWrite (shardAt d c.shard) x.1, devWrite (shardAt d c.shard + x.1.length) x.2,
        if c.shard + 1 < c.total then andThen (upCk 0 fun c => { c with shard := c.shard + 1, digests := digs }) shardTime
        else
          let body := manifestBody d c.total c.time len (s.mem.bytes (base + headerField h 895 832) (8 * headerField h 175 160)) digs
          andThen (devWrite d.man (body ++ (List.range sigBytes).map (Config.signature body))) (ckEnd 0)]

/-- What LOAD reads of a manifest: number of shards, ranges, stream length, body, digests, signature; the number of saved nodes comes
from the header in the first shard. -/
structure Manifest where
  shards : Nat
  ranges : List CkRange
  len    : Nat
  area   : Nat
  body   : List Byte
  key    : List Byte
  digs   : List Byte
  sig    : List Byte
  deriving DecidableEq, Repr

/-- The manifest of a descriptor (R301, R302). -/
def State.manifest (s : State) (d : CkDesc) : Option Manifest :=
  let x := s.mem.num d.man 32
  (headerAt fun o n => s.mem.num (d.dst + o) n).bind fun p =>
    let shards := bitsOf x 95 64
    let nrng := bitsOf x 127 96
    let a := 64 + 16 * nrng + 8 * headerField p.2 175 160
    if bitsOf x 31 0 ≠ 0x4D534B43 || bitsOf x 47 32 ≠ 1 then none
    else some ⟨shards, rangesOf nrng (s.mem.bytes (d.man + 64) (16 * nrng)), bitsOf x 255 192, areaLen p.2, s.mem.bytes d.man (a + 32 * shards),
      s.mem.bytes (d.man + 32) 32, s.mem.bytes (d.man + a) (32 * shards), s.mem.bytes (d.man + a + 32 * shards) sigBytes⟩

/-- Bytes of the trusted key list that the device reads (R302; log entry 75). -/
def keyListBytes : Nat := 4096

/-- `CKPT_LOAD` (R302): the manifest's signature is verified first. -/
def execCkptLoad (desc : Nat) (s : State) : Host.Outcome State Fault Refusal :=
  fire s <| ckBegin true desc fun d => on fun s =>
    match s.manifest d with
    | none => ckEnd 2
    | some m =>
      if !Config.trusted (s.mem.bytes (s.csr offTKLBASE).toNat keyListBytes) m.key m.body m.sig then ckEnd 2
      else if m.shards = 0 then ckEnd 0
      else andThen (upCk 0 fun c => { c with total := m.shards }) shardTime

/-- One shard of a LOAD: its digest is checked before any byte of it is written (R302, R303). With the last, what the device kept of the
context gives way to the area that was loaded. -/
def loadShard (c : Ckpt) (d : CkDesc) : Eff := on fun s =>
  match s.manifest d with
  | none => ckEnd 2
  | some m =>
    let n := shardLen m.len c.shard
    let base := s.csa (s.ckLead d.ctx)
    let l := ckPieces s { d with ranges := m.ranges } base m.area true (2 ^ 30 * c.shard) n
    let a := shardAt d c.shard
    let dat := s.mem.bytes a n
    let map := s.mem.bytes (a + n) (2 ^ 21)
    if s.ckLost a || (l.filterMap Prod.fst).any s.ckLost then ckEnd 5
    else if sha256 (dat ++ map) ≠ (m.digs.drop (32 * c.shard)).take 32 then ckEnd 3
    else if l.any fun p => p.1.isNone then ckEnd 4
    else
      seqs [each (l.filterMap Prod.fst).zipIdx fun p =>
          let b := (dat.drop (64 * p.2)).take 64
          if maskHas map p.2 then writeSector 0 0 (secOf p.1) 0 [] false (some (BitVec.ofNat 32 (leNat (b.take 4))))
          else writeSector 0 0 (secOf p.1) 0 b true none,
        if c.shard + 1 < c.total then andThen (upCk 0 fun c => { c with shard := c.shard + 1 }) shardTime
        else andThen (act (.saved d.ctx none)) (ckEnd 0)]

/-- `CKPT_SHARD_DONE` (R300 to R303). -/
def execCkptShardDone (s : State) : Host.Outcome State Fault Refusal :=
  fire s <| onSome (s.ck.find 0) fun c => if c.load then loadShard c (s.ckDesc c.desc) else saveShard c (s.ckDesc c.desc)

/-- `TWIN_WRITE_MIRROR` (R305): a write that the twin mirrors is performed here, behind the earlier ones. -/
def execTwinWriteMirror (pa : Nat) (bytes : List Byte) (s : State) : Host.Outcome State Fault Refusal := outside s (hostWrite twinClass pa bytes)

/-- `TWIN_KICK_MIRROR` (R305): a mirrored kick is accepted after every write mirrored before it has been performed. -/
def execTwinKickMirror (queue : Nat) (v : BitVec 64) (s : State) : Host.Outcome State Fault Refusal :=
  outside s <|
    if 1024 ≤ queue then skip
    else if (s.trans.any fun kv => (kv.2.cur.toList ++ kv.2.queue).any (postedBy twinClass)) || s.mig.any fun m => m.parked.any (postedBy twinClass)
      then after 16 (.twinKickMirror queue v)
    else kick queue v

/-- The node that a key of the twin's exchange names (R307). -/
def State.nodeOfKey (s : State) (key : TwinKey) : Option Nat :=
  (s.nodes.find? fun kv => kv.2.eff.paired && s.twinKey kv.2 key.sstep = key).map Prod.fst

/-- The step at which a node looks for the twin's digest of a key again. -/
def exchangeStep (n : Node) (nk : Nat) (key : TwinKey) : Instr :=
  if key.sstep ≠ 0xFFFFFFFF#32 then .superstepRelease nk else if n.rival.isSome then .rivalComplete nk else .nodeDone nk

/-- `TWIN_DIGEST_ARRIVAL` (R307, R308): the twin's digest is kept under its key, and the node that waits for it looks at once. -/
def execTwinDigestArrival (key : TwinKey) (digest : BitVec 64) (s : State) : Host.Outcome State Fault Refusal :=
  outside s <| andThen (act (.twin { s.twin with theirs := (s.twin.theirs.filter fun p => p.1 ≠ key) ++ [(key, digest)] }))
    (when (s.twin.mine.any fun p => p.1 = key) (onSome (s.nodeOfKey key) fun nk =>
      onSome (s.nodes.find nk) fun n => soon (exchangeStep n nk key)))

/-- The contexts that run on paired partitions. -/
def State.pairedCtxs (s : State) : List (Nat × Ctx) :=
  s.ctxs.filter fun kv => kv.2.parts ≠ [] && Ctx.paired s kv.2 && kv.2.run ≠ .halting && kv.2.run ≠ .halted

/-- `TWIN_DIGEST_TIMEOUT` (R308): no digest within `TMO` of the own one: the paired context halts, with the TWINLOST event. -/
def execTwinDigestTimeout (key : TwinKey) (s : State) : Host.Outcome State Fault Refusal :=
  fire s <|
    if !(s.twin.mine.any fun p => p.1 = key) || s.twin.theirs.any (fun p => p.1 = key) then skip
    else andThen (act (.twin { s.twin with mine := s.twin.mine.filter fun p => p.1 ≠ key }))
      (onSome (s.nodeOfKey key) fun nk => twinFatal nk 13 4 0 0 key)

/-- `TWIN_LINK_DOWN` (R308): every paired context halts, with a TWINLOST event that names a node which waited for a digest, if one did. -/
def execTwinLinkDown (s : State) : Host.Outcome State Fault Refusal :=
  fire s <| seqs [setCsrBits offTWINCFG 2 2 0,
    each s.pairedCtxs fun kv =>
      match s.twin.mine.findSome? fun p => (s.nodeOfKey p.1).bind fun nk =>
          (s.nodes.find nk).bind fun n => if n.ctx = kv.1 then some (nk, p.1) else none with
      | some (nk, key) => twinFatal nk 13 4 1 0 key
      | none => andThen (event 13 4 (kv.2.parts.headD noPart) kv.1 0 0 1 0 []) (fatal kv.1 0 4 0 0 0 0),
    act (.twin ⟨[], []⟩)]

/-- `ROLLBACK_MIRROR` (R307): the twin has rolled a paired node back, and this one rolls it back too; the node's digest is 0 again. -/
def execRollbackMirror (key : TwinKey) (s : State) : Host.Outcome State Fault Refusal :=
  outside s <|
    onSome ((s.nodes.find? fun kv => kv.2.eff.paired && !kv.2.st.finished
        && (s.twinKey kv.2 key.sstep = key)).map Prod.fst) fun nk => rollBackHere nk 0#32

end Sys2Proof.Machine
end

