-- ==== Sys2Proof/Machine/Bringup.lean ====
section
/-!
DEFINITION. Bringup.lean: rails, bring-up, recovery, attestation (R24, R309 to R311). What the messages of outside standards look like is not
in the spec; log entry 75 says what the model's replies hold.
-/
namespace Sys2Proof.Machine

/-- `RAIL_OUT_OF_TOLERANCE` (R24): the device is held in reset, and no state survives. What has left the package stays sent, and free values
and fresh numbers go on. -/
def execRailOutOfTolerance (s : State) : Host.Outcome State Fault Refusal :=
  .next { State.reset with free := s.free, ids := s.ids, outbox := s.outbox }

/-- Whether bring-up can go on with what the boot ROM finds (R309 to R311). -/
def bootOk (im : BootImages) : Bool := im.readable && im.sigsOk && im.identity

/-- `RAILS_GOOD` (R24, R309, R310): the boot ROM reads and verifies its images, measures them, and bring-up goes on; a bad image or
identity leads to recovery. -/
def execRailsGood (im : BootImages) (s : State) : Host.Outcome State Fault Refusal :=
  fire s <|
    if s.power ≠ .held then skip
    else if !bootOk im then seqs [act (.power .recovery), act (.idKeyOk im.identity)]
    else seqs [act (.power .bringup), act (.idKeyOk true), act (.kat true), act (.measure (Config.romHash :: im.hashes)),
      later 800000000 1800000000 .bringupComplete]

/-- `BRINGUP_COMPLETE` (R6, R309): bring-up ends, and the package's clocks are counted from here; heartbeats begin, and every package's
cell-loss interval (R222). -/
def execBringupComplete (s : State) : Host.Outcome State Fault Refusal :=
  fire s <|
    if s.power ≠ .bringup then skip
    else seqs [act (.power .up), act (.timers (s.timers.map fun p => (p.1 - s.now, p.2))), act (.now 0), watchAll,
      after 10000 .heartbeatSend]

/-- Completion status of PCI Express: successful, or Configuration Request Retry Status (log entry 75). -/
def cplStatus (retry : Bool) : Byte := if retry then 2 else 0

/-- `CONFIGURATION_REQUEST` (R309): Retry Status until bring-up ends; a device held in reset does not answer. -/
def execConfigurationRequest (s : State) : Host.Outcome State Fault Refusal :=
  fire s <|
    match s.power with
    | .held => skip
    | .bringup => out (.reply hostPort [cplStatus true])
    | _ => out (.reply hostPort [cplStatus false])

/-- `MCTP_FIRMWARE_UPDATE` (R310): accepted in recovery. -/
def execMctpFirmwareUpdate (msg : List Byte) (s : State) : Host.Outcome State Fault Refusal :=
  outside s <| when (s.power = .recovery) (act (.fwq (s.fwq ++ [msg])))

/-- An SPDM request is answered by a device that has been brought up (R310, R311): the reply leaves, and both enter the transcript. -/
def spdmReply (req reply : List Byte) (f : Spdm → Spdm) : Eff := on fun s =>
  when (s.power = .up)
    (andThen (act (.spdm (let p := f s.spdm; { p with trans := p.trans ++ req ++ reply }))) (out (.reply hostPort reply)))

/-- An SPDM request out of its order: it is answered with an error, and changes nothing (log entry 75). -/
def spdmError : Eff := on fun s => when (s.power = .up) (out (.reply hostPort [0x7F, 0x04]))

/-- An SPDM request that needs the version, the capabilities and the algorithms to have been agreed. -/
def spdmAfter (ok : Spdm → Bool) (k : Eff) : Eff := on fun s => if ok s.spdm then k else spdmError

/-- The certificate chain of the device (R311). -/
def certChain : List Byte := (List.range Config.certBytes).map Config.certByte

/-- A signature of the identity key (R311). -/
def signed (m : List Byte) : List Byte := (List.range sigBytes).map (Config.signature m)

/-- `GET_VERSION` (R311): SPDM 1.3; a session begins. -/
def execGetVersion (s : State) : Host.Outcome State Fault Refusal :=
  fire s (spdmReply [0x84] [0x04, 0x13] fun _ => ⟨true, false, false, []⟩)

/-- `GET_CAPABILITIES` (R311): certificates, challenge and signed measurements. -/
def execGetCapabilities (s : State) : Host.Outcome State Fault Refusal :=
  fire s (spdmAfter Spdm.version (spdmReply [0xE1] [0x61, 0x16] fun p => { p with caps := true }))

/-- `NEGOTIATE_ALGORITHMS` (R311): SHA-256 for measurements, and SLH-DSA-SHA2-192s by the extended asymmetric algorithms. -/
def execNegotiateAlgorithms (offer : List Byte) (s : State) : Host.Outcome State Fault Refusal :=
  fire s (spdmAfter Spdm.caps (spdmReply (0xE3 :: offer) [0x63, 0x02, 0x01] fun p => { p with algs := true }))

/-- `GET_DIGESTS` (R311): the SHA-256 of the certificate chain. -/
def execGetDigests (s : State) : Host.Outcome State Fault Refusal :=
  fire s (spdmAfter Spdm.algs (spdmReply [0x81] (0x01 :: sha256 certChain) id))

/-- `GET_CERTIFICATE` (R311): a part of the chain, in slot 0. -/
def execGetCertificate (slot ofs len : Nat) (s : State) : Host.Outcome State Fault Refusal :=
  fire s (spdmAfter (fun p => p.algs && slot = 0) (spdmReply (0x82 :: num 8 slot ++ num 8 ofs ++ num 8 len) (0x02 :: (certChain.drop ofs).take len) id))

/-- The measurements as they stand (Table 13.6): the sixth is of `PARTCFG` and `TWINCFG`. -/
def State.measurements (s : State) : List (List Byte) :=
  s.measure.map (fun m => (leBytes 32 m.toNat).reverse)
    ++ [sha256 ((List.range 16).flatMap (fun p => num 8 (s.csr (offPARTCFG p)).toNat) ++ num 4 (s.csr offTWINCFG).toNat)]

/-- `CHALLENGE` (R311): the certificate's digest, the nonce and the measurements, signed with the transcript. -/
def execChallenge (nonce : BitVec 256) (s : State) : Host.Outcome State Fault Refusal :=
  let req := 0x83 :: num 32 nonce.toNat
  let body := 0x03 :: sha256 certChain ++ num 32 nonce.toNat ++ sha256 s.measurements.flatten
  fire s (spdmAfter Spdm.algs (spdmReply req (body ++ signed (s.spdm.trans ++ req ++ body)) id))

/-- `GET_MEASUREMENTS` (R311, Table 13.6): index 0 gives their number, 255 all of them; the reply is signed. -/
def execGetMeasurements (index : Nat) (nonce : BitVec 256) (s : State) : Host.Outcome State Fault Refusal :=
  let l := s.measurements
  let req := 0xE0 :: num 1 index ++ num 32 nonce.toNat
  let body := 0x60 :: (if index = 0 then num 1 l.length else if index = 255 then l.flatten else l.getD (index - 1) []) ++ num 32 nonce.toNat
  fire s (spdmAfter (fun p => p.algs && (index ≤ l.length || index = 255)) (spdmReply req (body ++ signed (s.spdm.trans ++ req ++ body)) id))

end Sys2Proof.Machine
end

