-- ==== Sys2Proof/Machine/Float.lean ====
section
/-!
DEFINITION. Float.lean: the floating-point and conversion instructions but `FFN` (R378 to R380, R382, R384 to R389, R395,
R398, R399, R437).
-/
namespace Sys2Proof.Machine

/-- `FPMODE`.`RM` as a rounding mode (Table 5.2). -/
def rmOf (b : BitVec 2) : RM :=
  match b.toNat with
  | 0 => .rn
  | 1 => .rz
  | 2 => .ru
  | _ => .rd

/-- The rounding mode of an instruction (R108). -/
def Iss.rm (c : Iss) (r : Rnd) : RM :=
  match r with
  | .dyn => rmOf c.g.csr.rm
  | .rn => .rn
  | .rz => .rz
  | .ru => .ru
  | .rd => .rd

/-- One lane's floating-point result. -/
def outF (x : Nat × BitVec 6) (p : Option Word) : LaneOut := ⟨[BitVec.ofNat 32 x.1], p, x.2⟩

/-- A flush-class operation of F32 operands in one lane (R116): `f` computes from the operands after any flush. -/
def Iss.flushed (c : Iss) (l : List (Word × Option Word)) (f : List Nat → Nat × BitVec 6) : LaneOut :=
  let fl := l.map fun x => flush f32 c.g.csr.ftz x.1.toNat
  let r := f (fl.map Prod.fst)
  outF (r.1, fl.foldl (fun b x => b ||| x.2) r.2) (firstPoison (l.map Prod.snd))

/-- An F32 word with its sign flipped (R384). -/
def flip (b : Bool) (x : Word × Option Word) : Word × Option Word := if b then (x.1 ^^^ 0x80000000#32, x.2) else x

/-- `FADD` (R384, R385). -/
def execFadd (h : Head) (neg sat : Bool) (rnd : Rnd) (d : Dst) (a b : Src) (s : State) :
    Host.Outcome State Fault Refusal :=
  alu (.fadd h neg sat rnd d a b) s fun c L =>
    c.flushed [c.at32 1 a L, flip neg (c.at32 2 b L)] fun l =>
      let v := l.map f32.num
      fused f32 (c.rm rnd) sat c.g.csr.ftz v (v.map some)

/-- `FMUL` (R384, R385). -/
def execFmul (h : Head) (neg sat : Bool) (rnd : Rnd) (d : Dst) (a b : Src) (s : State) :
    Host.Outcome State Fault Refusal :=
  alu (.fmul h neg sat rnd d a b) s fun c L =>
    c.flushed [c.at32 1 a L, flip neg (c.at32 2 b L)] fun l =>
      match l.map f32.num with
      | [x, y] => fused f32 (c.rm rnd) sat c.g.csr.ftz [x, y] [mulNum x y]
      | _ => (0, 0#6)

/-- `FFMA` (R384, R385). -/
def execFfma (h : Head) (neg sat : Bool) (rnd : Rnd) (d : Dst) (a b k : Src) (s : State) :
    Host.Outcome State Fault Refusal :=
  alu (.ffma h neg sat rnd d a b k) s fun c L =>
    c.flushed [c.at32 1 a L, c.at32 2 b L, flip neg (c.at32 3 k L)] fun l =>
      match l.map f32.num with
      | [x, y, z] => fused f32 (c.rm rnd) sat c.g.csr.ftz [x, y, z] [mulNum x y, some z]
      | _ => (0, 0#6)

/-- The lesser or greater of two F32 values, with `NV` for a signalling NaN (R115, R395). -/
def minMax (mn : Bool) (l : List Nat) : Nat × BitVec 6 :=
  match l with
  | [x, y] => (f32.pick mn x y, sigNV (l.map f32.num))
  | _ => (0, 0#6)

/-- `FMIN` (R395). -/
def execFmin (h : Head) (d : Dst) (a b : Src) (s : State) : Host.Outcome State Fault Refusal :=
  alu (.fmin h d a b) s fun c L => c.flushed [c.at32 1 a L, c.at32 2 b L] (minMax true)

/-- `FMAX` (R395). -/
def execFmax (h : Head) (d : Dst) (a b : Src) (s : State) : Host.Outcome State Fault Refusal :=
  alu (.fmax h d a b) s fun c L => c.flushed [c.at32 1 a L, c.at32 2 b L] (minMax false)

/-- The relation of two F32 values as flags (Table 16.3), with `NV` for a signalling NaN. -/
def relate (l : List Nat) : Nat × BitVec 6 :=
  match l with
  | [x, y] =>
    let v := l.map f32.num
    let f := if v.any Num.isNan then fcmpUnordered
      else if v.all Num.isZero then fcmpEqual
      else if f32.key x < f32.key y then fcmpLess
      else if f32.key x = f32.key y then fcmpEqual else fcmpGreater
    (f.toNat, sigNV v)
  | _ => (0, 0#6)

/-- `FCMP` (R387). -/
def execFcmp (h : Head) (d : Dst) (a b : Src) (s : State) : Host.Outcome State Fault Refusal :=
  alu (.fcmp h d a b) s fun c L => c.flushed [c.at32 1 a L, c.at32 2 b L] relate

/-- The class bit of an F32 code (Table 16.2). -/
def classBit (x : Nat) : Nat :=
  let n := f32.neg x
  match f32.num x with
  | .nan sg => if sg then 8 else 9
  | .inf _ => if n then 0 else 7
  | .fin _ m _ =>
    if m = 0 then (if n then 3 else 4)
    else if f32.subnormal x then (if n then 2 else 5) else (if n then 1 else 6)

/-- `FCLASS` (R386). -/
def execFclass (h : Head) (d : Dst) (a : Src) (s : State) : Host.Outcome State Fault Refusal :=
  alu (.fclass h d a) s fun c L =>
    let x := c.at32 1 a L
    out32 (1#32 <<< classBit x.1.toNat) x.2

/-- An F32 value rounded to an integral one (R398). -/
def integral (r : RM) (sat : Bool) (x : Nat) : Nat × BitVec 6 :=
  match f32.num x with
  | .fin n m e =>
    if 0 ≤ e then (x, 0#6)
    else
      let v := roundAt r n m e 0
      ((f32.round r false false n v.1 0).1, if v.2 then flNX else 0#6)
  | y =>
    let w := f32.code r sat false y
    (w.1, w.2 ||| sigNV [y])

/-- `FRND` (R398). -/
def execFrnd (h : Head) (sat : Bool) (rnd : Rnd) (d : Dst) (a : Src) (s : State) :
    Host.Outcome State Fault Refusal :=
  alu (.frnd h sat rnd d a) s fun c L =>
    let x := c.at32 1 a L
    outF (integral (c.rm rnd) sat x.1.toNat) x.2

/-- A value times 2^`k`, exactly. -/
def Num.scale (x : Num) (k : Int) : Num :=
  match x with
  | .fin n m e => .fin n m (e + k)
  | y => y

/-- `FSCALE` (R399): B is S32 and is not flushed. -/
def execFscale (h : Head) (sat : Bool) (rnd : Rnd) (d : Dst) (a b : Src) (s : State) :
    Host.Outcome State Fault Refusal :=
  alu (.fscale h sat rnd d a b) s fun c L =>
    let y := c.at32 2 b L
    let o := c.flushed [c.at32 1 a L] fun l =>
      let x := f32.num (l.headD 0)
      let w := f32.code (c.rm rnd) sat c.g.csr.ftz (x.scale y.1.toInt)
      (w.1, w.2 ||| sigNV [x])
    { o with poi := firstPoison [o.poi, y.2] }

/-- A result that has its own flags before rounding. -/
def rounded (r : RM) (sat ftz : Bool) (ops : List Num) (x : Num × BitVec 6) : Nat × BitVec 6 :=
  let w := f32.code r sat ftz x.1
  (w.1, w.2 ||| x.2 ||| sigNV ops)

/-- `FDIV` (R388). -/
def execFdiv (h : Head) (sat : Bool) (rnd : Rnd) (d : Dst) (a b : Src) (s : State) :
    Host.Outcome State Fault Refusal :=
  alu (.fdiv h sat rnd d a b) s fun c L =>
    c.flushed [c.at32 1 a L, c.at32 2 b L] fun l =>
      match l.map f32.num with
      | [x, y] => rounded (c.rm rnd) sat c.g.csr.ftz [x, y] (divNum x y)
      | _ => (0, 0#6)

/-- `FSQRT` (R388). -/
def execFsqrt (h : Head) (sat : Bool) (rnd : Rnd) (d : Dst) (a : Src) (s : State) :
    Host.Outcome State Fault Refusal :=
  alu (.fsqrt h sat rnd d a) s fun c L =>
    c.flushed [c.at32 1 a L] fun l =>
      let x := f32.num (l.headD 0)
      rounded (c.rm rnd) sat c.g.csr.ftz [x] (sqrtNum x)

/-- The 16-bit format of `PFMA` and `FDOT2`. -/
def fmt16 (bf : Bool) : Fmt := if bf then bf16 else f16

/-- Half `k` of a word. -/
def half (w : Word) (k : Nat) : Nat := (w.extractLsb' (16 * k) 16).toNat

/-- One half of `PFMA` (R437). -/
def pfmaHalf (f : Fmt) (r : RM) (neg sat ftz : Bool) (a b k : Nat) : Nat × BitVec 6 :=
  let x := flush f ftz a
  let y := flush f ftz b
  let z := flush f ftz (if neg then k ^^^ 0x8000 else k)
  let w := fused f r sat ftz [f.num x.1, f.num y.1, f.num z.1] [mulNum (f.num x.1) (f.num y.1), some (f.num z.1)]
  (w.1, w.2 ||| x.2 ||| y.2 ||| z.2)

/-- `PFMA` (R437). -/
def execPfma (h : Head) (bf neg sat : Bool) (rnd : Rnd) (d : Dst) (a b k : Src) (s : State) :
    Host.Outcome State Fault Refusal :=
  alu (.pfma h bf neg sat rnd d a b k) s fun c L =>
    let x := c.at32 1 a L
    let y := c.at32 2 b L
    let z := c.at32 3 k L
    let p := fun n => pfmaHalf (fmt16 bf) (c.rm rnd) neg sat c.g.csr.ftz (half x.1 n) (half y.1 n) (half z.1 n)
    outF ((p 1).1 * 65536 + (p 0).1, (p 0).2 ||| (p 1).2) (firstPoison [x.2, y.2, z.2])

/-- `FDOT2` (R389). -/
def execFdot2 (h : Head) (bf neg sat : Bool) (rnd : Rnd) (d : Dst) (a b k : Src) (s : State) :
    Host.Outcome State Fault Refusal :=
  alu (.fdot2 h bf neg sat rnd d a b k) s fun c L =>
    let f := fmt16 bf
    let ftz := c.g.csr.ftz
    let x := c.at32 1 a L
    let y := c.at32 2 b L
    let z := flip neg (c.at32 3 k L)
    let e := [flush f ftz (half x.1 0), flush f ftz (half y.1 0), flush f ftz (half x.1 1), flush f ftz (half y.1 1)]
    let zf := flush f32 ftz z.1.toNat
    let w := match e.map fun v => f.num v.1 with
      | [a0, b0, a1, b1] =>
        fused f32 (c.rm rnd) sat ftz [a0, b0, a1, b1, f32.num zf.1] [mulNum a0 b0, mulNum a1 b1, some (f32.num zf.1)]
      | _ => (0, 0#6)
    outF (w.1, (e.foldl (fun b v => b ||| v.2) w.2) ||| zf.2) (firstPoison [x.2, y.2, z.2])

/-- The format of a floating-point element type of `DOT4`. -/
def dotFmt : DotTy → Fmt
  | .e5m2 => e5m2
  | _ => e4m3

/-- An 8-bit element as an integer of its type. -/
def dotInt (t : DotTy) (b : Byte) : Int := if t = .s8 then b.toInt else b.toNat

/-- The floating-point form of `DOT4` (R382): NaNs come before 0 × ∞ and before infinities that differ. -/
def dot4F (ta tb : DotTy) (r : RM) (a b k : Word) : Nat × BitVec 6 :=
  let as := (List.range 4).map fun n => (dotFmt ta).num (a.extractLsb' (8 * n) 8).toNat
  let bs := (List.range 4).map fun n => (dotFmt tb).num (b.extractLsb' (8 * n) 8).toNat
  let z := f32.num k.toNat
  let sig := sigNV (z :: as ++ bs)
  if (z :: as ++ bs).any Num.isNan then (f32.qnan, sig)
  else
    let w := sumNum r ((as.zip bs).map (fun p => mulNum p.1 p.2) ++ [some z])
    let y := f32.code r false false w.1
    (y.1, y.2 ||| w.2)

/-- `DOT4` (R382). -/
def execDot4 (h : Head) (ta tb : DotTy) (d : Dst) (a b k : Src) (s : State) : Host.Outcome State Fault Refusal :=
  alu (.dot4 h ta tb d a b k) s fun c L =>
    let x := c.at32 1 a L
    let y := c.at32 2 b L
    let z := c.at32 3 k L
    let p := firstPoison [x.2, y.2, z.2]
    if ta.float then outF (dot4F ta tb (rmOf c.g.csr.rm) x.1 y.1 z.1) p
    else
      let t := (List.range 4).foldl (fun (acc : Int) n =>
        acc + dotInt ta (x.1.extractLsb' (8 * n) 8) * dotInt tb (y.1.extractLsb' (8 * n) 8)) (z.1.toNat : Int)
      out32 (BitVec.ofInt 32 t) p

/-- The format of an element type of `CVT`, none for the integers. -/
def cvtFmt : CvtTy → Option Fmt
  | .f32 => some f32
  | .f16 => some f16
  | .bf16 => some bf16
  | .e5m2 => some e5m2
  | .e4m3 => some e4m3
  | .e2m1 => some e2m1
  | .mx => some e2m1
  | _ => none

/-- Whether an integer element type is signed. -/
def cvtSigned : CvtTy → Bool
  | .s8 | .s16 | .s32 | .s64 => true
  | _ => false

/-- Least value of an integer element type. -/
def cvtLo (t : CvtTy) : Int := if cvtSigned t then -(2 ^ (t.bits - 1) : Int) else 0

/-- Greatest value of an integer element type. -/
def cvtHi (t : CvtTy) : Int := 2 ^ (if cvtSigned t then t.bits - 1 else t.bits) - 1

/-- An integer element as a number. -/
def cvtInt (t : CvtTy) (x : Nat) : Int := if cvtSigned t && x.testBit (t.bits - 1) then (x : Int) - 2 ^ t.bits else x

/-- The bits of an integer in an element of `n` bits. -/
def wrapTo (n : Nat) (i : Int) : Nat := (i % 2 ^ n).toNat

/-- One element converted (Table 5.5, R118). -/
def convert (dst src : CvtTy) (sat : Bool) (r : RM) (x : Nat) : Nat × BitVec 6 :=
  match cvtFmt src, cvtFmt dst with
  | some fs, some fd =>
    let v := fs.num x
    let w := fd.code r sat false v
    (w.1, w.2 ||| sigNV [v] ||| (if fd.nan = .none && v.isNan then flNV else 0#6))
  | some fs, none =>
    let w := toInt r (cvtLo dst) (cvtHi dst) (fs.num x)
    (wrapTo dst.bits w.1, w.2)
  | none, some fd => fd.code r sat false (ofInt (cvtInt src x))
  | none, none =>
    let i := cvtInt src x
    (wrapTo dst.bits (if sat then max (cvtLo dst) (min (cvtHi dst) i) else i), 0#6)

/-- The 32-bit registers that a number fills, `n` of them, lowest first. -/
def wordsOf (n x : Nat) : List Word := (List.range n).map fun k => BitVec.ofNat 32 (x / 2 ^ (32 * k))

/-- One lane of a `CVT` outside the MX form (R379). -/
def cvtLane (c : Iss) (dst src : CvtTy) (sat : Bool) (r : RM) (a : Src) (L : Nat) : LaneOut :=
  let ks := cvtSpan dst src src
  let kd := cvtSpan dst src dst
  let es := (List.range ks).map fun k => lane (c.srcK 1 a k) L
  let x := (List.range ks).foldl (fun n k => n + ((es.getD k (clean 0#32)).val.toNat) * 2 ^ (32 * k)) 0
  let q := (List.range (cvtCount dst src)).map fun i => convert dst src sat r (x / 2 ^ (i * src.bits) % 2 ^ src.bits)
  let y := (List.range (cvtCount dst src)).foldl (fun n i => n + (q.getD i (0, 0#6)).1 * 2 ^ (i * dst.bits)) 0
  ⟨wordsOf kd y, firstPoison (es.map fun e => if e.poi then some e.val else none), q.foldl (fun b p => b ||| p.2) 0#6⟩

/-- The scale code of an MX block (R120) from its greatest magnitude. -/
def mxScale (amax : Num) : Int :=
  match amax with
  | .fin _ m e => max (-127) (min 127 ((bitLen m : Int) - 1 + e - 2))
  | _ => 0

/-- The greater magnitude of two finite values. -/
def maxMag (a b : Num) : Num :=
  let q := min a.exp b.exp
  if a.isZero then b else if b.isZero then a else if (a.at q).natAbs < (b.at q).natAbs then b else a

/-- The MX form (R120, R380). -/
def cvtMx (c : Iss) (fs : Fmt) (r : RM) (a : Src) (L : Nat) : LaneOut :=
  let x := c.src 1 a
  let poi := firstPoison (c.on.lanes.map fun n => if (lane x n).poi then some (lane x n).val else none)
  let v := (List.range 32).map fun n => if c.on.has n then fs.num ((lane x n).val.toNat % 2 ^ fs.width) else .fin false 0 0
  let me := v.getD L (.fin false 0 0)
  if v.any fun y => y.isNan || y.isInf then ⟨[0xFF00#32], poi, flNV⟩
  else
    let amax := v.foldl maxMag (.fin false 0 0)
    if amax.isZero then ⟨[if me.neg then 8#32 else 0#32], poi, 0#6⟩
    else
      let e := mxScale amax
      let w := e2m1.code r true false (me.scale (-e))
      ⟨[BitVec.ofNat 32 (w.1 + (e + 127).toNat * 256)], poi, w.2⟩

/-- `CVT` (R378 to R380). -/
def execCvt (h : Head) (sat : Bool) (rnd : Rnd) (dst src : CvtTy) (d : Dst) (a : Src) (s : State) :
    Host.Outcome State Fault Refusal :=
  alu (.cvt h sat rnd dst src d a) s fun c L =>
    match dst, cvtFmt src with
    | .mx, some fs => cvtMx c fs (c.rm rnd) a L
    | _, _ => cvtLane c dst src sat (c.rm rnd) a L

end Sys2Proof.Machine
end

