-- ==== Sys2Proof/Machine/Ffn.lean ====
section
/-!
DEFINITION. Ffn.lean: `FFN` (R394). Every result is the exact value of the function rounded once: the functions are computed
in fixed point with 256 bits behind the point, far beyond what rounding to 24 bits needs, and a last bit of 1 marks a value
that is not exact (log entry 11).
-/
namespace Sys2Proof.Machine

/-- Bits behind the point. -/
def fxP : Nat := 256

/-- One in fixed point. -/
def fxOne : Nat := 2 ^ fxP

/-- The integer part of 2^256 π. -/
def fxPi : Nat := 0x3243f6a8885a308d313198a2e03707344a4093822299f31d0082efa98ec4e6c89

/-- The integer part of 2^256 ln 2. -/
def fxLn2 : Nat := 0xb17217f7d1cf79abc9e3b39803f2f6af40f343267298b62d8a0d175b8baafa2b

/-- Terms of the exponential series from term `k` on, `t` being the term before. -/
def expTerms (y : Nat) : Nat → Nat → Nat → Nat
  | 0, _, _ => 0
  | n + 1, k, t =>
    let u := t * y / fxOne / k
    u + expTerms y n (k + 1) u

/-- e^y for a fixed-point y from 0 to 1. -/
def fxExp (y : Nat) : Nat := fxOne + expTerms y 70 1 fxOne

/-- Terms of the sine series: `t` is the last term, of degree `k`; `neg` is the sign of the next. -/
def sinTerms (y2 : Nat) : Nat → Nat → Nat → Bool → Int
  | 0, _, _, _ => 0
  | n + 1, k, t, neg =>
    let u := t * y2 / fxOne / ((k + 1) * (k + 2))
    (if neg then -(u : Int) else u) + sinTerms y2 n (k + 2) u (!neg)

/-- sin(π q) for a fixed-point q from 0 to 1/2. -/
def fxSinPi (q : Nat) : Nat :=
  let y := q * fxPi / fxOne
  ((y : Int) + sinTerms (y * y / fxOne) 40 1 y true).toNat

/-- Terms of the series of 2 atanh z, `t` being z to the power `k`. -/
def atanhTerms (z2 : Nat) : Nat → Nat → Nat → Nat
  | 0, _, _ => 0
  | n + 1, k, t => 2 * t / k + atanhTerms z2 n (k + 2) (t * z2 / fxOne)

/-- ln m for a fixed-point m from 1 to 2. -/
def fxLn (m : Nat) : Nat :=
  let z := (m - fxOne) * fxOne / (m + fxOne)
  atanhTerms (z * z / fxOne) 90 1 z

/-- `m` × 2^`e` in fixed point, for `e` of −256 or more. -/
def fxOf (m : Nat) (e : Int) : Nat := m * 2 ^ (e + fxP).toNat

/-- A value that is not exact: ± `m` × 2^`e` and a last bit of 1. -/
def notExact (neg : Bool) (m : Nat) (e : Int) : Num := .fin neg (2 * m + 1) (e - 1)

/-- A fixed-point value that is not exact. -/
def fxNum (neg : Bool) (m : Nat) : Num := notExact neg m (-256)

/-- 1 / √x of a positive value. -/
def rsqFin (m : Nat) (e : Int) : Num :=
  let m2 := if e % 2 = 0 then m else 2 * m
  let e2 := if e % 2 = 0 then e else e - 1
  let r := isqrt (2 ^ 240 / m2)
  .fin false (2 * r + (if r * r * m2 = 2 ^ 240 then 0 else 1)) (-120 - e2 / 2 - 1)

/-- 2^x for x = ± `m` × 2^`e`, not 0. -/
def ex2Fin (neg : Bool) (m : Nat) (e : Int) : Num :=
  if 9 < (bitLen m : Int) + e then .fin false 1 (if neg then -600 else 600)
  else
    let x := fxOf m e
    let n : Int := if neg then -((x + fxOne - 1) / fxOne : Nat) else (x / fxOne : Nat)
    let f := if neg then (fxOne - x % fxOne) % fxOne else x % fxOne
    if f = 0 then .fin false 1 n else notExact false (fxExp (f * fxLn2 / fxOne)) (n - 256)

/-- log2 of a positive value other than a power of two, and of a power of two. -/
def lg2Fin (m : Nat) (e : Int) : Num :=
  let k := bitLen m - 1
  let n : Int := (k : Int) + e
  if m = 2 ^ k then .fin (n < 0) n.natAbs 0
  else
    let l : Int := n * fxOne + (fxLn (m * 2 ^ (fxP - k)) * fxOne / fxLn2 : Nat)
    fxNum (l < 0) l.natAbs

/-- |x| mod 2 in fixed point; a value of 2^9 or more that has no fraction is reduced through its exponent. -/
def mod2 (m : Nat) (e : Int) : Nat := if 0 ≤ e then (if e = 0 then m % 2 else 0) * fxOne else fxOf m e % (2 * fxOne)

/-- sin(π x). -/
def sinPi (neg : Bool) (m : Nat) (e : Int) : Num :=
  let r := mod2 m e
  let flipped := fxOne < r
  let q := if flipped then r - fxOne else r
  let p := if 2 * q ≤ fxOne then q else fxOne - q
  if r % fxOne = 0 then .fin neg 0 0
  else if 2 * p = fxOne then .fin (neg != flipped) 1 0
  else fxNum (neg != flipped) (fxSinPi p)

/-- cos(π x). -/
def cosPi (m : Nat) (e : Int) : Num :=
  let r0 := mod2 m e
  let r := if fxOne < r0 then 2 * fxOne - r0 else r0
  let neg := fxOne < 2 * r
  let q := if neg then fxOne - r else r
  if 2 * q = fxOne then .fin false 0 0
  else if q = 0 then .fin neg 1 0
  else fxNum neg (fxSinPi (fxOne / 2 - q))

/-- e^−y = `fst` × 2^−(256 + `snd`) for a fixed-point y below 400. -/
def expNeg (y : Nat) : Nat × Nat :=
  let k := y / fxLn2 + 1
  (fxExp (k * fxLn2 - y), k)

/-- tanh x. -/
def tanhFin (neg : Bool) (m : Nat) (e : Int) : Num :=
  if 8 < (bitLen m : Int) + e then fxNum neg (fxOne - 1)
  else
    let u := expNeg (2 * fxOf m e)
    let w := u.1 / 2 ^ u.2
    fxNum neg ((fxOne - w) * fxOne / (fxOne + w))

/-- 1 / (1 + e^−x). -/
def sigmFin (neg : Bool) (m : Nat) (e : Int) : Num :=
  if 8 < (bitLen m : Int) + e then (if neg then .fin false 1 (-600) else fxNum false (fxOne - 1))
  else
    let u := expNeg (fxOf m e)
    let w := u.1 / 2 ^ u.2
    if neg then notExact false (u.1 * fxOne / (fxOne + w)) (-256 - (u.2 : Int))
    else fxNum false (fxOne * fxOne / (fxOne + w))

/-- The value of a function and its flags before rounding (Table 16.7). -/
def ffnNum (f : FfnOp) (x : Num) : Num × BitVec 6 :=
  match x with
  | .nan _ => (.nan false, 0#6)
  | .inf n =>
    match f with
    | .rcp => (.fin n 0 0, 0#6)
    | .rsq => if n then (.nan false, flNV) else (.fin false 0 0, 0#6)
    | .ex2 => (if n then .fin false 0 0 else .inf false, 0#6)
    | .lg2 => if n then (.nan false, flNV) else (.inf false, 0#6)
    | .sin => (.nan false, flNV)
    | .cos => (.nan false, flNV)
    | .tanh => (.fin n 1 0, 0#6)
    | .sigm => (if n then .fin false 0 0 else .fin false 1 0, 0#6)
  | .fin n m e =>
    if m = 0 then
      match f with
      | .rcp => (.inf n, flDZ)
      | .rsq => (.inf n, flDZ)
      | .ex2 => (.fin false 1 0, 0#6)
      | .lg2 => (.inf true, flDZ)
      | .sin => (.fin n 0 0, 0#6)
      | .cos => (.fin false 1 0, 0#6)
      | .tanh => (.fin n 0 0, 0#6)
      | .sigm => (.fin false 1 (-1), 0#6)
    else
      match f with
      | .rcp => divNum (.fin false 1 0) x
      | .rsq => if n then (.nan false, flNV) else (rsqFin m e, 0#6)
      | .ex2 => (ex2Fin n m e, 0#6)
      | .lg2 => if n then (.nan false, flNV) else (lg2Fin m e, 0#6)
      | .sin => (sinPi n m e, 0#6)
      | .cos => (cosPi m e, 0#6)
      | .tanh => (tanhFin n m e, 0#6)
      | .sigm => (sigmFin n m e, 0#6)

/-- `FFN` of an F32 code, already flushed. -/
def ffn32 (f : FfnOp) (ftz : Bool) (x : Nat) : Nat × BitVec 6 :=
  rounded .rn false ftz [f32.num x] (ffnNum f (f32.num x))

/-- `FFN` (R394): under RN whatever `FPMODE`.`RM` holds. -/
def execFfn (h : Head) (f : FfnOp) (d : Dst) (a : Src) (s : State) : Host.Outcome State Fault Refusal :=
  alu (.ffn h f d a) s fun c L => c.flushed [c.at32 1 a L] fun l => ffn32 f c.g.csr.ftz (l.headD 0)

end Sys2Proof.Machine
end

