-- ==== Sys2Proof/Machine/Integer.lean ====
section
/-!
DEFINITION. Integer.lean: the integer and bit instructions `0x008` to `0x01D` (R351 to R355, R359, R365 to R367, R402 to
R406, R420, R421, R438, R439, R447, R448, R451, R452).
-/
namespace Sys2Proof.Machine

/-- The low 32 or all 64 bits of a pattern as an integer, by the signedness of a type. -/
def intOf (ty : ITy) (x : BitVec 64) : Int :=
  if ty.wide then (if ty.signed then x.toInt else x.toNat)
  else if ty.signed then (x.setWidth 32).toInt else (x.setWidth 32).toNat

/-- Least value of a type (R104). -/
def ITy.least (ty : ITy) : Int := if ty.signed then -(2 ^ (if ty.wide then 63 else 31) : Int) else 0

/-- Greatest value of a type (R104). -/
def ITy.greatest (ty : ITy) : Int :=
  if ty.signed then 2 ^ (if ty.wide then 63 else 31) - 1 else 2 ^ (if ty.wide then 64 else 32) - 1

/-- A result modulo 2^64, or clamped to the range of the type (R104). -/
def narrow (ty : ITy) (sat : Bool) (x : Int) : BitVec 64 :=
  BitVec.ofInt 64 (if sat then max (ITy.least ty) (min (ITy.greatest ty) x) else x)

/-- The result of a two-source integer operation on one lane. -/
def int2 (ty : ITy) (w64 : Bool) (a b : BitVec 64 × Option Word) (f : Int → Int → BitVec 64) : LaneOut :=
  outW w64 (f (intOf ty a.1) (intOf ty b.1)) (firstPoison [a.2, b.2])

/-- `IADD` (R403, R404). -/
def execIadd (h : Head) (ty : ITy) (sat : Bool) (d : Dst) (a : Src) (b : Opnd) (s : State) :
    Host.Outcome State Fault Refusal :=
  alu (.iadd h ty sat d a b) s fun c L =>
    int2 ty ty.wide (c.atW ty.wide 1 a L) (c.opndAt ty.wide b L) fun x y => narrow ty sat (x + y)

/-- `ISUB` (R403, R404). -/
def execIsub (h : Head) (ty : ITy) (sat : Bool) (d : Dst) (a : Src) (b : Opnd) (s : State) :
    Host.Outcome State Fault Refusal :=
  alu (.isub h ty sat d a b) s fun c L =>
    int2 ty ty.wide (c.atW ty.wide 1 a L) (c.opndAt ty.wide b L) fun x y => narrow ty sat (x - y)

/-- Width of a type in bits. -/
def ITy.bits (ty : ITy) : Nat := if ty.wide then 64 else 32

/-- A multiplication with an addend by mode (Table 16.11): `c` is added where the mode adds it. -/
def mulBy (ty : ITy) (sat : Bool) (m : MulMode) (x y z : Int) : BitVec 64 :=
  match m with
  | .lo => narrow ty sat (x * y + z)
  | .hi => narrow ty false (x * y / 2 ^ ITy.bits ty + z)
  | .wide => BitVec.ofInt 64 (x * y + z)

/-- `IMUL` (R405, R406). -/
def execImul (h : Head) (ty : ITy) (sat : Bool) (m : MulMode) (d : Dst) (a : Src) (b : Opnd) (s : State) :
    Host.Outcome State Fault Refusal :=
  alu (.imul h ty sat m d a b) s fun c L =>
    int2 ty (ty.wide || m = .wide) (c.atW ty.wide 1 a L) (c.opndAt ty.wide b L) fun x y => mulBy ty sat m x y 0

/-- `IMAD` (R405, R406): the addend of `.WIDE` is a 64-bit pair. -/
def execImad (h : Head) (ty : ITy) (sat : Bool) (m : MulMode) (d : Dst) (a b k : Src) (s : State) :
    Host.Outcome State Fault Refusal :=
  alu (.imad h ty sat m d a b k) s fun c L =>
    let x := c.atW ty.wide 1 a L
    let y := c.atW ty.wide 2 b L
    let w3 := ty.wide || m = .wide
    let z := c.atW w3 3 k L
    let zi : Int := if m = .wide then (if ty.signed then z.1.toInt else z.1.toNat) else intOf ty z.1
    outW w3 (mulBy ty sat m (intOf ty x.1) (intOf ty y.1) zi) (firstPoison [x.2, y.2, z.2])

/-- `IMIN` (R403, R404). -/
def execImin (h : Head) (ty : ITy) (d : Dst) (a : Src) (b : Opnd) (s : State) : Host.Outcome State Fault Refusal :=
  alu (.imin h ty d a b) s fun c L =>
    int2 ty ty.wide (c.atW ty.wide 1 a L) (c.opndAt ty.wide b L) fun x y => narrow ty false (min x y)

/-- `IMAX` (R403, R404). -/
def execImax (h : Head) (ty : ITy) (d : Dst) (a : Src) (b : Opnd) (s : State) : Host.Outcome State Fault Refusal :=
  alu (.imax h ty d a b) s fun c L =>
    int2 ty ty.wide (c.atW ty.wide 1 a L) (c.opndAt ty.wide b L) fun x y => narrow ty false (max x y)

/-- `IABS` (R402). -/
def execIabs (h : Head) (ty : ITy) (sat : Bool) (d : Dst) (a : Src) (s : State) : Host.Outcome State Fault Refusal :=
  alu (.iabs h ty sat d a) s fun c L =>
    let x := c.atW ty.wide 1 a L
    outW ty.wide (narrow ty sat (intOf ty x.1).natAbs) x.2

/-- `LEA` (R420): A is one 32-bit register, extended by the type; B and D have the width of the type. -/
def execLea (h : Head) (ty : ITy) (k : BitVec 2) (d : Dst) (a : Src) (b : Opnd) (s : State) :
    Host.Outcome State Fault Refusal :=
  alu (.lea h ty k d a b) s fun c L =>
    let x := c.at32 1 a L
    let y := c.opndAt ty.wide b L
    let xe : BitVec 64 := if ty.signed then x.1.signExtend 64 else x.1.zeroExtend 64
    outW ty.wide ((xe <<< k.toNat) + y.1) (firstPoison [x.2, y.2])

/-- A bitwise operation (R421). -/
def lop (o : Lop) (x y : Word) : Word :=
  match o with
  | .and => x &&& y
  | .or => x ||| y
  | .xor => x ^^^ y
  | .andn => x &&& ~~~ y
  | .orn => x ||| ~~~ y
  | .xnor => ~~~ (x ^^^ y)
  | .x => x
  | .y => y

/-- `LOP3` (R421): with `OP2` = X, C is not read. -/
def execLop3 (h : Head) (op1 op2 : Lop) (d : Dst) (a b k : Src) (s : State) : Host.Outcome State Fault Refusal :=
  alu (.lop3 h op1 op2 d a b k) s fun c L =>
    let x := c.at32 1 a L
    let y := c.at32 2 b L
    let z := if op2 = .x then (0#32, none) else c.at32 3 k L
    out32 (lop op2 (lop op1 x.1 y.1) z.1) (firstPoison [x.2, y.2, z.2])

/-- The count of a shift (R330, R452): B as N32, or bits [5:0] of the immediate. -/
def shiftCount (c : Iss) (b : Opnd) (L : Nat) : Nat × Option Word :=
  match b with
  | .reg r => let x := c.at32 2 r L; (x.1.toNat, x.2)
  | .imm i => (i.toNat % 64, none)

/-- `SHL` (R451, R452). -/
def execShl (h : Head) (w64 : Bool) (d : Dst) (a : Src) (b : Opnd) (s : State) : Host.Outcome State Fault Refusal :=
  alu (.shl h w64 d a b) s fun c L =>
    let x := c.atW w64 1 a L
    let n := shiftCount c b L
    outW w64 (if (if w64 then 64 else 32) ≤ n.1 then 0#64 else x.1 <<< n.1) (firstPoison [x.2, n.2])

/-- `SHR` (R451, R452). -/
def execShr (h : Head) (w64 arith : Bool) (d : Dst) (a : Src) (b : Opnd) (s : State) :
    Host.Outcome State Fault Refusal :=
  alu (.shr h w64 arith d a b) s fun c L =>
    let x := c.atW w64 1 a L
    let n := shiftCount c b L
    let e : BitVec 64 := if w64 then x.1 else if arith then (x.1.setWidth 32).signExtend 64 else x.1
    let w := if w64 then 64 else 32
    outW w64 (if w ≤ n.1 then (if arith && e.msb then 0xFFFFFFFFFFFFFFFF#64 else 0#64)
      else if arith then e.sshiftRight n.1 else e >>> n.1) (firstPoison [x.2, n.2])

/-- `SHF` (R448): B is the high word. -/
def execShf (h : Head) (right : Bool) (d : Dst) (a b k : Src) (s : State) : Host.Outcome State Fault Refusal :=
  alu (.shf h right d a b k) s fun c L =>
    let x := c.at32 1 a L
    let y := c.at32 2 b L
    let z := c.at32 3 k L
    let n := min z.1.toNat 32
    let v : BitVec 64 := y.1 ++ x.1
    out32 (if right then (v >>> n).extractLsb' 0 32 else (v <<< n).extractLsb' 32 32) (firstPoison [x.2, y.2, z.2])

/-- The number of 1 bits among the low `n` bits. -/
def ones (x : BitVec 64) (n : Nat) : Nat := ((List.range n).filter x.getLsbD).length

/-- `POPC` (R438). -/
def execPopc (h : Head) (w64 : Bool) (d : Dst) (a : Src) (s : State) : Host.Outcome State Fault Refusal :=
  alu (.popc h w64 d a) s fun c L =>
    let x := c.atW w64 1 a L
    out32 (BitVec.ofNat 32 (ones x.1 (if w64 then 64 else 32))) x.2

/-- The number of zero bits above the highest 1 bit among the low `n` bits. -/
def leadingZeros (x : BitVec 64) : Nat → Nat
  | 0 => 0
  | n + 1 => if x.getLsbD n then 0 else 1 + leadingZeros x n

/-- `CLZ` (R365). -/
def execClz (h : Head) (w64 : Bool) (d : Dst) (a : Src) (s : State) : Host.Outcome State Fault Refusal :=
  alu (.clz h w64 d a) s fun c L =>
    let x := c.atW w64 1 a L
    out32 (BitVec.ofNat 32 (leadingZeros x.1 (if w64 then 64 else 32))) x.2

/-- The word whose bit `i`, for `i` below `n`, is `f i`, and whose other bits are 0. -/
def bitsFrom (w n : Nat) (f : Nat → Bool) : BitVec w :=
  (List.range n).foldl (fun a i => if f i then a ||| (1#w <<< i) else a) 0#w

/-- `BREV` (R359). -/
def execBrev (h : Head) (w64 : Bool) (d : Dst) (a : Src) (s : State) : Host.Outcome State Fault Refusal :=
  alu (.brev h w64 d a) s fun c L =>
    let x := c.atW w64 1 a L
    let w := if w64 then 64 else 32
    outW w64 (bitsFrom 64 w fun i => x.1.getLsbD (w - 1 - i)) x.2

/-- `BFX` (R354). -/
def execBfx (h : Head) (sg : Bool) (d : Dst) (a b : Src) (s : State) : Host.Outcome State Fault Refusal :=
  alu (.bfx h sg d a b) s fun c L =>
    let x := c.at32 1 a L
    let y := c.at32 2 b L
    let pos := (y.1.extractLsb' 0 8).toNat
    let len := (y.1.extractLsb' 8 8).toNat
    let v : BitVec 64 := if sg then x.1.signExtend 64 else x.1.zeroExtend 64
    let t := if sg then v.sshiftRight (min pos 63) else v >>> min pos 63
    let r : Word := t.extractLsb' 0 32
    let low : Word := r &&& (BitVec.ofNat 32 (2 ^ len - 1))
    let ext : Word := if sg && t.getLsbD (len - 1) then low ||| ~~~ (BitVec.ofNat 32 (2 ^ len - 1)) else low
    out32 (if len = 0 then 0#32 else if 32 ≤ len then r else ext) (firstPoison [x.2, y.2])

/-- `BFI` (R353). -/
def execBfi (h : Head) (d : Dst) (a b k : Src) (s : State) : Host.Outcome State Fault Refusal :=
  alu (.bfi h d a b k) s fun c L =>
    let x := c.at32 1 a L
    let y := c.at32 2 b L
    let z := c.at32 3 k L
    let pos := (y.1.extractLsb' 0 8).toNat
    let n := min (y.1.extractLsb' 8 8).toNat 32
    let mask : Word := (BitVec.ofNat 32 (2 ^ n - 1)) <<< pos
    out32 ((z.1 &&& ~~~ mask) ||| ((x.1 <<< pos) &&& mask)) (firstPoison [x.2, y.2, z.2])

/-- Number of streams of an interleave map (Table 15.4). -/
def ways (three : Bool) : Nat := if three then 3 else 2

/-- Positions per stream of an interleave map (Table 15.4). -/
def positions (three : Bool) : Nat := if three then 10 else 16

/-- The interleaved word of the streams A, B, C (R355). -/
def interleave (three : Bool) (a b c : Word) : Word :=
  let k := ways three
  bitsFrom 32 (k * positions three) fun j =>
    (if j % k = 0 then a else if j % k = 1 then b else c).getLsbD (j / k)

/-- Stream `st` of an interleaved word (R352). -/
def deinterleave (three : Bool) (a : Word) (st : Nat) : Word :=
  bitsFrom 32 (positions three) fun i => a.getLsbD (ways three * i + st)

/-- `BIL` (R355). -/
def execBil (h : Head) (three : Bool) (d : Dst) (a b k : Src) (s : State) : Host.Outcome State Fault Refusal :=
  alu (.bil h three d a b k) s fun c L =>
    let x := c.at32 1 a L
    let y := c.at32 2 b L
    let z := if three then c.at32 3 k L else (0#32, none)
    out32 (interleave three x.1 y.1 z.1) (firstPoison [x.2, y.2, z.2])

/-- `BDIL` (R351, R352): the stream is B mod k, B read as N32. -/
def execBdil (h : Head) (three : Bool) (d : Dst) (a b : Src) (s : State) : Host.Outcome State Fault Refusal :=
  alu (.bdil h three d a b) s fun c L =>
    let x := c.at32 1 a L
    let y := c.at32 2 b L
    out32 (deinterleave three x.1 (y.1.toNat % ways three)) (firstPoison [x.2, y.2])

/-- Byte `n` of a word. -/
def byteOf (w : Word) (n : Nat) : Byte := w.extractLsb' (8 * n) 8

/-- A byte with its bits in reverse order (R439). -/
def reverse8 (b : Byte) : Byte := bitsFrom 8 8 fun i => b.getLsbD (7 - i)

/-- One byte of `PRMT` under its control byte (Table 17.14). -/
def permute (a b : Word) (k : Byte) : Byte :=
  let src := (k.extractLsb' 0 3).toNat
  let y := if src < 4 then byteOf a src else byteOf b (src - 4)
  match (k.extractLsb' 3 2).toNat with
  | 0 => y
  | 1 => 0#8
  | 2 => if y.msb then 0xFF#8 else 0#8
  | _ => reverse8 y

/-- `PRMT` (R439). -/
def execPrmt (h : Head) (d : Dst) (a b k : Src) (s : State) : Host.Outcome State Fault Refusal :=
  alu (.prmt h d a b k) s fun c L =>
    let x := c.at32 1 a L
    let y := c.at32 2 b L
    let z := c.at32 3 k L
    let r := fun n => permute x.1 y.1 (byteOf z.1 n)
    out32 (r 3 ++ r 2 ++ r 1 ++ r 0) (firstPoison [x.2, y.2, z.2])

/-- A lane's flags as a result for a class-4 destination (R80). -/
def outFlags (f : BitVec 4) (p : Option Word) (flg : BitVec 6) : LaneOut := ⟨[f.zeroExtend 32], p, flg⟩

/-- `CMP` (R366, R367). -/
def execCmp (h : Head) (ty : ITy) (d : Dst) (a : Src) (b : Opnd) (s : State) : Host.Outcome State Fault Refusal :=
  alu (.cmp h ty d a b) s fun c L =>
    let x := c.atW ty.wide 1 a L
    let y := c.opndAt ty.wide b L
    outFlags (if ty.wide then cmpFlags x.1 y.1 else cmpFlags (x.1.setWidth 32) (y.1.setWidth 32))
      (firstPoison [x.2, y.2]) 0#6

/-- `SEL` (R447, Table 11.4): the operand selected, with its poison; a poisoned condition gives its own payload. -/
def execSel (h : Head) (cc : Cc) (d : Dst) (a b k : Src) (s : State) : Host.Outcome State Fault Refusal :=
  alu (.sel h cc d a b k) s fun c L =>
    let x := c.at32 1 a L
    let y := c.at32 2 b L
    let f := (c.g.creg k.idx.toNat).getD L flag0
    if f.poi then out32 0#32 (some f.pay)
    else if evalCc cc f.fl then out32 x.1 x.2 else out32 y.1 y.2

end Sys2Proof.Machine
end

