-- ==== Sys2Proof/Machine/Lane.lean ====
section
/-!
DEFINITION. Lane.lean: `SHFL`, `VOTE`, `LRED`, `LSCAN` (R422 to R424, R449, R450, R468).
-/
namespace Sys2Proof.Machine

/-- The lane that `SHFL` names (R450), as an exact integer. -/
def shflLane (m : ShflMode) (b : Word) (L : Nat) : Int :=
  match m with
  | .idx => b.toNat
  | .up => (L : Int) - b.toNat
  | .down => (L : Int) + b.toNat
  | .xor => (BitVec.ofNat 32 L ^^^ b).toNat

/-- `SHFL` (R42, R450): the value of an Active, guard-true lane, or the fallback. -/
def execShfl (h : Head) (m : ShflMode) (d : Dst) (a b k : Src) (s : State) : Host.Outcome State Fault Refusal :=
  alu (.shfl h m d a b k) s fun c L =>
    let x := c.at32 2 b L
    match x.2 with
    | some w => out32 0#32 (some w)
    | none =>
      let n := shflLane m x.1 L
      let y := if 0 ≤ n && n ≤ 31 && c.on.has n.toNat then c.at32 1 a n.toNat else c.at32 3 k L
      out32 y.1 y.2

/-- The payload of the lowest poisoned lane among `l`. -/
def lowest (x : Lanes) (l : List Nat) : Option Word :=
  firstPoison (l.map fun n => if (lane x n).poi then some (lane x n).val else none)

/-- A result that the whole group shares (`VOTE`, `LRED`): a uniform destination receives it once, poisoned by the lowest
poisoned guard lane behind the sources (R253; log entry 8). -/
def shared (c : Iss) (i : Instr) (o : LaneOut) : Res :=
  if i.writesUniform then .done (c.putG i false fun _ => { o with poi := firstPoison (o.poi :: c.on.lanes.map fun L => c.gpoi.getD L none) })
  else .done (c.put i fun _ => o)

/-- The result of a vote (Table 18.7) over the contributing lanes. -/
def vote (m : VoteMode) (x : Lanes) (on : Mask) : Word :=
  let l := on.lanes
  let p := fun n => (lane x n).val ≠ 0#32
  match m with
  | .all => if l.all fun n => p n then 1#32 else 0#32
  | .any => if l.any fun n => p n then 1#32 else 0#32
  | .uni => if l.all fun n => (lane x n).val = (lane x (l.headD 0)).val then 1#32 else 0#32
  | .ballot => Mask.of fun n => on.has n && p n

/-- `VOTE` (R468). -/
def execVote (h : Head) (m : VoteMode) (d : Dst) (a : Src) (s : State) : Host.Outcome State Fault Refusal :=
  issue (.vote h m d a) s fun c _ =>
    let x := c.src 1 a
    shared c (.vote h m d a) (out32 (vote m x c.on) (lowest x c.on.lanes))

/-- The operation of `LRED` and `LSCAN` on two present values (R423). -/
def laneOp (o : LaneOp) (x y : Word) : Word × BitVec 6 :=
  let f := fun (p : Nat × BitVec 6) => (BitVec.ofNat 32 p.1, p.2)
  match o with
  | .add => (x + y, 0#6)
  | .min => (if x.toInt ≤ y.toInt then x else y, 0#6)
  | .max => (if x.toInt ≤ y.toInt then y else x, 0#6)
  | .umin => (if x.toNat ≤ y.toNat then x else y, 0#6)
  | .umax => (if x.toNat ≤ y.toNat then y else x, 0#6)
  | .and => (x &&& y, 0#6)
  | .or => (x ||| y, 0#6)
  | .xor => (x ^^^ y, 0#6)
  | .fadd =>
    let v := [f32.num x.toNat, f32.num y.toNat]
    f (fused f32 .rn false false v (v.map some))
  | .fmin => f (minMax true [x.toNat, y.toNat])
  | .fmax => f (minMax false [x.toNat, y.toNat])

/-- A combination in the tree (R423), with the flags of every combination below it. -/
def comb (o : LaneOp) (a b : Option (Word × BitVec 6)) : Option (Word × BitVec 6) :=
  match a, b with
  | none, y => y
  | x, none => x
  | some x, some y =>
    let r := laneOp o x.1 y.1
    some (r.1, r.2 ||| x.2 ||| y.2)

/-- `Node`(j, i) of R423. -/
def treeNode (o : LaneOp) (x : Lanes) (on : Mask) : Nat → Nat → Option (Word × BitVec 6)
  | 0, i => if on.has i then some ((lane x i).val, 0#6) else none
  | j + 1, i => comb o (treeNode o x on j (2 * i)) (treeNode o x on j (2 * i + 1))

/-- `Prefix`(n) of R423. -/
def treePrefix (o : LaneOp) (x : Lanes) (on : Mask) (n : Nat) : Option (Word × BitVec 6) :=
  (([5, 4, 3, 2, 1, 0] : List Nat).foldl (fun (st : Nat × Option (Word × BitVec 6)) j =>
    if n.testBit j then (st.1 + 2 ^ j, comb o st.2 (treeNode o x on j (st.1 / 2 ^ j))) else st) (0, none)).2

/-- The identity of an operation (Table 17.7). -/
def laneIdent : LaneOp → Word
  | .add | .or | .xor | .umax => 0#32
  | .min => 0x7FFFFFFF#32
  | .max => 0x80000000#32
  | .umin | .and => 0xFFFFFFFF#32
  | .fadd => 0x80000000#32
  | .fmin => 0x7F800000#32
  | .fmax => 0xFF800000#32

/-- `LRED` (R422 to R424). -/
def execLred (h : Head) (op : LaneOp) (d : Dst) (a : Src) (s : State) : Host.Outcome State Fault Refusal :=
  issue (.lred h op d a) s fun c _ =>
    let x := c.src 1 a
    let r := (treeNode op x c.on 5 0).getD (laneIdent op, 0#6)
    shared c (.lred h op d a) ⟨[r.1], lowest x c.on.lanes, r.2⟩

/-- `LSCAN` (R422 to R424): poison of a lane at or below, also with `.EXCL`. -/
def execLscan (h : Head) (op : LaneOp) (excl : Bool) (d : Dst) (a : Src) (s : State) :
    Host.Outcome State Fault Refusal :=
  alu (.lscan h op excl d a) s fun c L =>
    let x := c.src 1 a
    let r := (treePrefix op x c.on (if excl then L else L + 1)).getD (laneIdent op, 0#6)
    ⟨[r.1], lowest x (c.on.lanes.filter fun n => n ≤ L), r.2⟩

end Sys2Proof.Machine
end

