-- ==== Sys2Proof/Machine/Move.lean ====
section
/-!
DEFINITION. Move.lean: `NOP`, `MOV`, `MOVL`, `UNIFY` (R430 to R433, R467).
-/
namespace Sys2Proof.Machine

/-- `NOP` (R433): one issue slot, and what its hints change. -/
def execNop (h : Head) (s : State) : Host.Outcome State Fault Refusal := issue (.nop h) s fun _ _ => .done skip

/-- `MOV` (R430, R431): 32 bits with their poison. -/
def execMov (h : Head) (d : Dst) (a : Opnd) (s : State) : Host.Outcome State Fault Refusal :=
  alu (.mov h d a) s fun c L =>
    match a with
    | .reg r => let x := c.at32 1 r L; out32 x.1 x.2
    | .imm k => out32 (k.signExtend 32) none

/-- `MOVL` (R432): a 32-bit immediate, unpoisoned. -/
def execMovl (n : Hint) (d : Dst) (imm : Word) (s : State) : Host.Outcome State Fault Refusal :=
  alu (.movl n d imm) s fun _ _ => out32 imm none

/-- `UNIFY` (R44, R467): the lowest Active, guard-true lane into a uniform register, and `f0`.Z set if another such lane
differs in its bits or its poison bit; both are written in clock L. -/
def execUnify (h : Head) (d : Dst) (a : Src) (s : State) : Host.Outcome State Fault Refusal :=
  issue (.unify h d a) s fun c _ => .done <|
    let x := c.src 1 a
    let L := c.coll + 3
    let w : List PendKind :=
      match c.on.lanes with
      | [] => []
      | k :: l =>
        let e := lane x k
        let g : LaneOut := c.guarded ⟨[e.val], if e.poi then some e.val else none, 0#6⟩ k
        let differs := l.any fun n => (lane x n).val ≠ e.val || (lane x n).poi ≠ e.poi
        if d.nwb then [] else [.ws d.idx.toNat (g.elem 0), .wfBits 0 4#4 (if differs then 4#4 else 0#4)]
    upGroup c.gid fun g => g.pends (w.map (fun k => ⟨L, k⟩) ++ sbAt (.unify h d a) (L + 1))

end Sys2Proof.Machine
end

