-- ==== Sys2Proof/Machine/Poison.lean ====
section
/-!
DEFINITION. Poison.lean: `PTST`, `PSET`, `PCLR` (R256, R434).
-/
namespace Sys2Proof.Machine

/-- `PTST` (R256): whether an element is poisoned, as flags, or its payload. -/
def execPtst (h : Head) (d : Dst) (a : Src) (s : State) : Host.Outcome State Fault Refusal :=
  issue (.ptst h d a) s fun c _ => .done <| c.putG (.ptst h d a) false fun L =>
    let x := c.at32 1 a L
    if d.cls = .cf then outFlags (flags false x.2.isNone false x.2.isSome) none 0#6 else out32 (x.2.getD 0#32) none

/-- The payload that `PSET` gives a clean value (R256): a reserved cause becomes DATA. -/
def setPayload (w : Word) : Word :=
  let k := (causeOf w).toNat
  if k = 0 || 10 ≤ k then PCause.data.code ++ w.extractLsb' 0 28 else w

/-- `PSET` (R256). -/
def execPset (h : Head) (d : Dst) (a : Src) (s : State) : Host.Outcome State Fault Refusal :=
  issue (.pset h d a) s fun c _ => .done <| c.putG (.pset h d a) false fun L =>
    let x := c.at32 1 a L
    out32 0#32 (some (x.2.getD (setPayload x.1)))

/-- `PCLR` (R256): B in the place of a poisoned A. -/
def execPclr (h : Head) (d : Dst) (a b : Src) (s : State) : Host.Outcome State Fault Refusal :=
  issue (.pclr h d a b) s fun c _ => .done <| c.putG (.pclr h d a b) false fun L =>
    let x := c.at32 1 a L
    let y := c.at32 2 b L
    if x.2.isSome then out32 y.1 y.2 else out32 x.1 none

end Sys2Proof.Machine
end

