-- ==== Sys2Proof/Machine/SysRegs.lean ====
section
/-!
DEFINITION. SysRegs.lean: writes to the system CSRs, the configuration and the scrub of partitions, lane repair, the event ring's buffer, the
function-level reset (R5, R212, R218, R237, R279, R296, R304, R312 to R316).
-/
namespace Sys2Proof.Machine

/-- A number held to a range. -/
def clamp (lo hi x : Nat) : Nat := max lo (min hi x)

/-- `PARTCFG` with `FETMO` and `PCEIL` of a written value (Table 13.7). -/
def tuned (old : BitVec 64) (v : Nat) : BitVec 64 :=
  putBits (putBits old 41 28 (clamp 1 10000 (bitsOf v 41 28))) 48 44 (min 23 (bitsOf v 48 44))

/-- Whether a context runs on a partition. -/
def State.inUse (s : State) (n : Nat) : Bool := s.ctxs.any fun kv => kv.2.parts.contains n

/-- The lanes of a rod that are marked for repair and not yet replaced (R296). -/
def State.toReplace (s : State) (f r : Nat) : Word :=
  s.rodBits (offREPLIST f) r &&& ~~~ BitVec.ofNat 32 (s.spare.findD (16 * f + r) 0)

/-- A rod of a partition whose marked lanes exceed its two spares (R296). -/
def State.unrepairable (s : State) (n : Nat) : Option (Nat × Nat) :=
  ((List.range 256).map fun k => (16 * n + k / 16, k % 16)).find? fun p => 2 < countOf (s.rodBits (offREPLIST p.1) p.2)

/-- The repair of a partition's marked lanes by the spares of their rods (R296). -/
def repair (n : Nat) : Eff := on fun s =>
  each ((List.range 256).map fun k => (16 * n + k / 16, k % 16)) fun p =>
    let m := s.toReplace p.1 p.2
    when (m ≠ 0#32) (andThen (act (.spare (16 * p.1 + p.2) (some ((s.spare.findD (16 * p.1 + p.2) 0) + m.toNat))))
      (on fun s => setCsr (offLANEFLAG p.1 (p.2 / 2))
        (s.csr (offLANEFLAG p.1 (p.2 / 2)) &&& ~~~ (m.zeroExtend 64 <<< (32 * (p.2 % 2))))))

/-- A refused enable (R313). -/
def partRefused (n why : Nat) : Eff := on fun s => event 17 4 n (s.partCtx n) n why 0 0 []

/-- Another enabled partition of the same context that differs in function or pairing (R313). -/
def mismatch (s : State) (n : Nat) (v : BitVec 64) : Bool :=
  (List.range 16).any fun p => p ≠ n && s.partEn p && s.partCtx p = bitsOf v.toNat 23 8
    && (s.partFunc p ≠ bitsOf v.toNat 7 1 || s.partPaired p ≠ (bitsOf v.toNat 43 43 = 1))

/-- The frames of a partition (R16). -/
def partFrames (n : Nat) : List Nat := (List.range 16).map fun k => 16 * n + k

/-- The caches of a partition give up what they hold: its frames' L1s, its ways of its die's RDC, its ways of every L2 (R16, R17). -/
def emptyCaches (n : Nat) : Eff :=
  seqs [each (partFrames n) fun f => on fun s => andThen (each (s.l1.findD f []).keys (evictL1 f)) (act (.l1 f none)),
    on fun s => andThen (each (s.rdc.findD n []).keys (evictRdc (n / 4))) (act (.rdc n none)),
    each (List.range 4) fun d => act (.l2 (16 * d + n) none)]

/-- The scrub of a partition (R313, R484): its ways are empty, its memory becomes zero and clean, and no cache or directory keeps a sector
of it. -/
def scrub (n : Nat) : Eff := andThen (emptyCaches n) <| on fun s =>
  let mine (pa : Nat) := s.partOfPa pa = some n
  let keep (m : AMap Sector) := m.keep fun x _ => !mine (64 * secAt x)
  seqs [each (s.mem.cells.filter fun c => mine c.1) fun c => act (.byte c.1 0#8),
    each (s.mem.bad.filter fun c => mine (64 * c.1)) fun c => act (.bad c.1 none),
    each s.rdc fun kv => act (.rdc kv.1 (some (keep kv.2))),
    each s.l1 fun kv => act (.l1 kv.1 (some (keep kv.2))),
    each s.beads fun kv => when (mine (64 * secAt (kv.1 / 4))) (act (.beads kv.1 none)),
    each (s.dirSecs.filter fun q => mine (64 * secAt q.1)) fun q => setDir q.1 .i [],
    each (partFrames n) fun f => act (.ways f none)]

/-- `PARTCFG_WRITE` (R296, R304, R312, R313). -/
def execPartcfgWrite (n : Nat) (v : BitVec 64) (s : State) : Host.Outcome State Fault Refusal :=
  outside s <|
    let off := offPARTCFG n
    let old := s.csr off
    let x := v.toNat
    if 16 ≤ n then skip
    else if s.csrBits off 49 49 = 1 then when (bitsOf x 0 0 = 1) (partRefused n 1)
    else if s.partEn n then
      if bitsOf x 0 0 = 1 || s.inUse n then setCsr off (tuned old x)
      else seqs [setCsr off (putBits (putBits (tuned old x) 0 0 0) 49 49 1), scrub n, later 40000000 120000000 (.scrubComplete n)]
    else
      let twin := s.csrBits offTWINCFG 0 0 = 1 && s.csrBits offTWINCFG 2 2 = 1
      let new := tuned (BitVec.ofNat 64 (bitsOf x 48 0)) x
      let new := if twin then new else putBits new 43 43 0
      let off_ := setCsr off (putBits new 0 0 0)
      if bitsOf x 0 0 = 0 then off_
      else match s.unrepairable n with
        | some p => seqs [off_, event 14 (dieOf p.1) n (bitsOf x 23 8) p.1 p.2 (s.rodBits (offREPLIST p.1) p.2).toNat 0 [], partRefused n 2]
        | none =>
          if mismatch s n new then andThen off_ (partRefused n 3)
          else seqs [setCsr off new, repair n, each (partFrames n) fun f => act (.ways f none)]

/-- `SCRUB_COMPLETE` (R313). -/
def execScrubComplete (n : Nat) (s : State) : Host.Outcome State Fault Refusal := fire s (setCsrBits (offPARTCFG n) 49 49 0)

/-- `FUNCTION_LEVEL_RESET` (R313): RESET of every context of the function's partitions. -/
def execFunctionLevelReset (func : Nat) (s : State) : Host.Outcome State Fault Refusal :=
  fire s <|
    let ps := (List.range 16).filter fun p => s.partEn p && s.partFunc p = func
    each ((ps.map s.partCtx).eraseDups) fun ctx => resetNow ctx 2

/-- `EQLOST_WRITE` (R316). -/
def execEqlostWrite (_v : Word) (s : State) : Host.Outcome State Fault Refusal := fire s (setCsr offEQLOST 0#64)

/-- `EVENT_BUFFER_DRAIN` (R316): the oldest event behind the ring is written. -/
def execEventBufferDrain (s : State) : Host.Outcome State Fault Refusal :=
  fire s <|
    match s.waitEv with
    | [] => skip
    | b :: l =>
      if s.eventFull || s.csrBits offEQCTL 5 5 = 0 then skip
      else seqs [act (.waitEv l), eventPut b, when (!l.isEmpty) (soon .eventBufferDrain)]

/-- What a write of `v` leaves in a system CSR without behaviour of its own (R5, R315): reserved and read-only fields keep their value,
and values out of range are held to their limits. -/
def sysValue (off : Nat) (old : BitVec 64) (v : Nat) : BitVec 64 :=
  let set (l : List (Nat × Nat)) : BitVec 64 := l.foldl (fun a p => putBits a p.1 p.2 (bitsOf v p.1 p.2)) old
  let ctl : BitVec 64 := putBits (set [(17, 5)]) 4 0 (clamp 6 16 (bitsOf v 4 0))
  match partBlock off with
  | some (_, b) =>
    if b = 0x30 then ctl
    else if b = 0x20 then BitVec.ofNat 64 (max 256 (bitsOf v 31 0))
    else if b = 0x10 then set [(51, 0)]
    else set [(63, 0)]
  | none =>
    if off = offTOUT || off = offDRAINDL || off = offCUTDL then BitVec.ofNat 64 (clamp 10 100000 (bitsOf v 16 0))
    else if off = offCELLCFG then putBits (set [(9, 0)]) 25 16 (clamp 10 1000 (bitsOf v 25 16))
    else if off = offTWINCFG then set [(1, 0), (10, 3)]
    else if off = offMIGSRC || off = offMIGDST then set [(51, 0)]
    else if off = offHGBASE || off = offEQBASE then set [(51, 12)]
    else if off = offEQCTL then ctl
    else set [(63, 0)]

/-- `W1C` of `LANEFLAG`, and `REPLIST`, in which the bit of a replaced lane stays (R296): the value that a write leaves. -/
def laneValue (s : State) (off : Nat) (v : BitVec 64) : BitVec 64 :=
  let f := (off - 0x400000) / 0x100
  let k := off % 0x40 / 8
  if off % 0x100 < 0x40 then s.csr off &&& ~~~ v
  else
    let used (r : Nat) := s.spare.findD (16 * f + r) 0
    v ||| BitVec.ofNat 64 (used (2 * k) + used (2 * k + 1) * 2 ^ 32)

/-- The cell-loss intervals that run are looked at anew after a write of `CELLCFG` (R212, R222). -/
def rewatch : Eff := on fun s =>
  andThen (act (.timers (s.timers.filter fun t => match t.2 with
    | .heartbeatLoss _ => false
    | _ => true)))
    (each ((List.range 256).filter fun p => (s.seen.find p).isSome) watchLoss)

/-- The package's regions follow a new package number (R212; log entry 2). -/
def renumberPkg (old : Nat) : Eff := on fun s =>
  when (s.ownPkg ≠ old) (act (.regions (s.regions.map fun r => if r.pkg = old then { r with pkg := s.ownPkg } else r)))

/-- A write to a system CSR of a partition's block. -/
def partWrite (off n b : Nat) (v : BitVec 64) : Eff := on fun s =>
  let x := v.toNat
  if b = 0 then soon (.partcfgWrite n v)
  else if b = 0x48 then
    (match bitsOf x 1 0 with
    | 1 => soon (.fqcmdReplay n (BitVec.ofNat 32 (bitsOf x 63 32)))
    | 2 => soon (.fqcmdCancel n (BitVec.ofNat 32 (bitsOf x 63 32)))
    | _ => skip)
  else if b = 0x38 || b = 0x50 then skip
  else andThen (setCsr off (sysValue off (s.csr off) x)) (when (b = 0x40 || b = 0x30) (soon (.faultBufferDrain n)))

/-- A write to the other system CSRs with behaviour of their own goes to its step; to the rest, the value is kept. -/
def sysWrite (off : Nat) (v : BitVec 64) : Eff := on fun s =>
  let x := v.toNat
  let keep : Eff := setCsr off (sysValue off (s.csr off) x)
  if off = offPCMD then
    let ctx := bitsOf x 18 3
    when (s.csrBits offPCMD 19 19 = 0) (andThen (setCsrBits offPCMD 47 32 (bitsOf x 47 32)) (match bitsOf x 2 0 with
      | 1 => soon (.drain ctx)
      | 2 => soon (.cut ctx)
      | 3 => soon (.restore ctx (BitVec.ofNat 16 (bitsOf x 47 32)))
      | 4 => soon (.reset ctx)
      | _ => setPcmd ctx (bitsOf x 47 32) 0 (s.csrBits offPCMD 22 20)))
  else if off = offVWCMD then
    (match bitsOf x 1 0 with
    | 1 => soon (.vwcmdResume (bitsOf x 5 2) (bitsOf x 13 6))
    | 2 => soon (.vwcmdFail (bitsOf x 5 2) (bitsOf x 13 6))
    | _ => skip)
  else if off = offCKCMD then
    let desc := bitsOf x 51 12 * 4096
    when (s.csrBits offCKCMD 2 2 = 0) (match bitsOf x 1 0 with
      | 1 => soon (.ckptSave desc)
      | 2 => soon (.ckptLoad desc)
      | _ => setCsrBits offCKCMD 51 12 (desc / 4096))
  else if off = offMIGCTL then
    let size := BitVec.ofNat 2 (bitsOf x 4 3)
    (match bitsOf x 2 0 with
    | 1 => soon (.mark size)
    | 2 => soon (.release size)
    | 3 => soon (.swopen size)
    | 4 => soon (.swclose size)
    | _ => setCsrBits offMIGCTL 4 3 size.toNat)
  else if off = offHGCMD then soon (.hgcmdClear (BitVec.ofNat 32 (bitsOf x 31 0)))
  else if off = offEQLOST then soon (.eqlostWrite (BitVec.ofNat 32 x))
  else if off = offEQWR then skip
  else if off = offEQRD || off = offEQCTL then andThen keep (soon .eventBufferDrain)
  else if off = offCELLCFG then seqs [keep, renumberPkg s.ownPkg, rewatch]
  else if 0x100 ≤ off && off < 0x140 then soon (.celldnWrite ((off - 0x100) / 8) (BitVec.ofNat 32 x))
  else if 0x140 ≤ off && off < 0x180 then soon (.cellraWrite ((off - 0x140) / 8) (BitVec.ofNat 32 x))
  else if 0x400000 ≤ off then setCsr off (laneValue s off v)
  else keep

/-- `SYSTEM_CSR_WRITE` (R315): a write of `size` bytes at an offset of BAR 0, of 4 or 8 bytes and aligned; a 64-bit CSR takes 8 bytes only, and
a 32-bit one the low 4 of its slot. -/
def execSystemCsrWrite (off size : Nat) (v : BitVec 64) (s : State) : Host.Outcome State Fault Refusal :=
  outside s <|
    let w := sysWidth off
    if !(size = 4 || size = 8) || off % size ≠ 0 || w = 0 || (w = 64 && size ≠ 8) then skip
    else
      let v := if w = 32 then BitVec.ofNat 64 (v.toNat % 2 ^ 32) else v
      match partBlock off with
      | some (n, b) => partWrite off n b v
      | none => sysWrite off v

end Sys2Proof.Machine
end

