-- ==== Sys2Proof/Machine/Dispatch.lean ====
section
/-!
DEFINITION. Dispatch.lean: the meaning of every constructor of Instr, one arm each.
-/
namespace Sys2Proof.Machine

/-- The effect of one step: an instruction issued by the group in `cur`, or a step of a unit or of the environment. -/
def exec (i : Instr) (s : State) : Host.Outcome State Fault Refusal :=
  match i with
  | .nop h => Sys2Proof.Machine.execNop h s
  | .mov h d a => Sys2Proof.Machine.execMov h d a s
  | .movl n d imm => Sys2Proof.Machine.execMovl n d imm s
  | .unify h d a => Sys2Proof.Machine.execUnify h d a s
  | .iadd h ty sat d a b => Sys2Proof.Machine.execIadd h ty sat d a b s
  | .isub h ty sat d a b => Sys2Proof.Machine.execIsub h ty sat d a b s
  | .imul h ty sat m d a b => Sys2Proof.Machine.execImul h ty sat m d a b s
  | .imad h ty sat m d a b c => Sys2Proof.Machine.execImad h ty sat m d a b c s
  | .imin h ty d a b => Sys2Proof.Machine.execImin h ty d a b s
  | .imax h ty d a b => Sys2Proof.Machine.execImax h ty d a b s
  | .iabs h ty sat d a => Sys2Proof.Machine.execIabs h ty sat d a s
  | .lea h ty k d a b => Sys2Proof.Machine.execLea h ty k d a b s
  | .lop3 h op1 op2 d a b c => Sys2Proof.Machine.execLop3 h op1 op2 d a b c s
  | .shl h w64 d a b => Sys2Proof.Machine.execShl h w64 d a b s
  | .shr h w64 arith d a b => Sys2Proof.Machine.execShr h w64 arith d a b s
  | .shf h right d a b c => Sys2Proof.Machine.execShf h right d a b c s
  | .popc h w64 d a => Sys2Proof.Machine.execPopc h w64 d a s
  | .clz h w64 d a => Sys2Proof.Machine.execClz h w64 d a s
  | .brev h w64 d a => Sys2Proof.Machine.execBrev h w64 d a s
  | .bfx h signed d a b => Sys2Proof.Machine.execBfx h signed d a b s
  | .bfi h d a b c => Sys2Proof.Machine.execBfi h d a b c s
  | .bil h three d a b c => Sys2Proof.Machine.execBil h three d a b c s
  | .bdil h three d a b => Sys2Proof.Machine.execBdil h three d a b s
  | .prmt h d a b c => Sys2Proof.Machine.execPrmt h d a b c s
  | .cmp h ty d a b => Sys2Proof.Machine.execCmp h ty d a b s
  | .sel h cc d a b c => Sys2Proof.Machine.execSel h cc d a b c s
  | .shfl h m d a b c => Sys2Proof.Machine.execShfl h m d a b c s
  | .vote h m d a => Sys2Proof.Machine.execVote h m d a s
  | .lred h op d a => Sys2Proof.Machine.execLred h op d a s
  | .lscan h op excl d a => Sys2Proof.Machine.execLscan h op excl d a s
  | .fadd h neg sat rnd d a b => Sys2Proof.Machine.execFadd h neg sat rnd d a b s
  | .fmul h neg sat rnd d a b => Sys2Proof.Machine.execFmul h neg sat rnd d a b s
  | .ffma h neg sat rnd d a b c => Sys2Proof.Machine.execFfma h neg sat rnd d a b c s
  | .fmin h d a b => Sys2Proof.Machine.execFmin h d a b s
  | .fmax h d a b => Sys2Proof.Machine.execFmax h d a b s
  | .fcmp h d a b => Sys2Proof.Machine.execFcmp h d a b s
  | .fclass h d a => Sys2Proof.Machine.execFclass h d a s
  | .frnd h sat rnd d a => Sys2Proof.Machine.execFrnd h sat rnd d a s
  | .fscale h sat rnd d a b => Sys2Proof.Machine.execFscale h sat rnd d a b s
  | .ffn h f d a => Sys2Proof.Machine.execFfn h f d a s
  | .fdiv h sat rnd d a b => Sys2Proof.Machine.execFdiv h sat rnd d a b s
  | .fsqrt h sat rnd d a => Sys2Proof.Machine.execFsqrt h sat rnd d a s
  | .cvt h sat rnd dst src d a => Sys2Proof.Machine.execCvt h sat rnd dst src d a s
  | .pfma h bf neg sat rnd d a b c => Sys2Proof.Machine.execPfma h bf neg sat rnd d a b c s
  | .dot4 h ta tb d a b c => Sys2Proof.Machine.execDot4 h ta tb d a b c s
  | .fdot2 h bf neg sat rnd d a b c => Sys2Proof.Machine.execFdot2 h bf neg sat rnd d a b c s
  | .mma h d a b => Sys2Proof.Machine.execMma h d a b s
  | .tldb h d a => Sys2Proof.Machine.execTldb h d a s
  | .azro h d => Sys2Proof.Machine.execAzro h d s
  | .ald h d a => Sys2Proof.Machine.execAld h d a s
  | .ast h a b => Sys2Proof.Machine.execAst h a b s
  | .ard h d a b => Sys2Proof.Machine.execArd h d a b s
  | .mfence h => Sys2Proof.Machine.execMfence h s
  | .ld h ls w d a mc => Sys2Proof.Machine.execLd h ls w d a mc s
  | .st h ls w a b mc => Sys2Proof.Machine.execSt h ls w a b mc s
  | .ldc h w d a mc => Sys2Proof.Machine.execLdc h w d a mc s
  | .ldv h d a b k => Sys2Proof.Machine.execLdv h d a b k s
  | .ldwf h d a mc => Sys2Proof.Machine.execLdwf h d a mc s
  | .ldtk h d a mc => Sys2Proof.Machine.execLdtk h d a mc s
  | .stwe h a b mc => Sys2Proof.Machine.execStwe h a b mc s
  | .feset h z full a b => Sys2Proof.Machine.execFeset h z full a b s
  | .fence h ord scope => Sys2Proof.Machine.execFence h ord scope s
  | .pfence h scope => Sys2Proof.Machine.execPfence h scope s
  | .atom h ls op w64 d a b mc => Sys2Proof.Machine.execAtom h ls op w64 d a b mc s
  | .acas h ls w64 d a b mc => Sys2Proof.Machine.execAcas h ls w64 d a b mc s
  | .red h ls op w64 a b mc => Sys2Proof.Machine.execRed h ls op w64 a b mc s
  | .xadd h ty a b mc => Sys2Proof.Machine.execXadd h ty a b mc s
  | .xrd h clr d a mc => Sys2Proof.Machine.execXrd h clr d a mc s
  | .cpy h dir d a b c => Sys2Proof.Machine.execCpy h dir d a b c s
  | .tld h mcast d a b c => Sys2Proof.Machine.execTld h mcast d a b c s
  | .tst h d a b c => Sys2Proof.Machine.execTst h d a b c s
  | .gath h d a b c => Sys2Proof.Machine.execGath h d a b c s
  | .scat h d a b c => Sys2Proof.Machine.execScat h d a b c s
  | .coll h kind rop d a b c => Sys2Proof.Machine.execColl h kind rop d a b c s
  | .waitc h k a => Sys2Proof.Machine.execWaitc h k a s
  | .cntr h k d => Sys2Proof.Machine.execCntr h k d s
  | .bra h off => Sys2Proof.Machine.execBra h off s
  | .brd h d meet off => Sys2Proof.Machine.execBrd h d meet off s
  | .brx h a => Sys2Proof.Machine.execBrx h a s
  | .call h d off => Sys2Proof.Machine.execCall h d off s
  | .ret h a => Sys2Proof.Machine.execRet h a s
  | .meet h a => Sys2Proof.Machine.execMeet h a s
  | .exit h => Sys2Proof.Machine.execExit h s
  | .bar h n => Sys2Proof.Machine.execBar h n s
  | .sstep h => Sys2Proof.Machine.execSstep h s
  | .sleep h a => Sys2Proof.Machine.execSleep h a s
  | .forkw h d a b => Sys2Proof.Machine.execForkw h d a b s
  | .choose h d a b => Sys2Proof.Machine.execChoose h d a b s
  | .wdrop h a => Sys2Proof.Machine.execWdrop h a s
  | .pclr h d a b => Sys2Proof.Machine.execPclr h d a b s
  | .ptst h d a => Sys2Proof.Machine.execPtst h d a s
  | .pset h d a => Sys2Proof.Machine.execPset h d a s
  | .launch h d a => Sys2Proof.Machine.execLaunch h d a s
  | .trap h code => Sys2Proof.Machine.execTrap h code s
  | .svc h n a b => Sys2Proof.Machine.execSvc h n a b s
  | .rtt h => Sys2Proof.Machine.execRtt h s
  | .csrr h d csr => Sys2Proof.Machine.execCsrr h d csr s
  | .csrw h csr a => Sys2Proof.Machine.execCsrw h csr a s
  | .cresz h d a => Sys2Proof.Machine.execCresz h d a s
  | .cflush h inv a b => Sys2Proof.Machine.execCflush h inv a b s
  | .tlbi h k a b => Sys2Proof.Machine.execTlbi h k a b s
  | .kickRegisterWrite func queue v => Sys2Proof.Machine.execKickRegisterWrite func queue v s
  | .nodePacket queue => Sys2Proof.Machine.execNodePacket queue s
  | .qfencePacket queue => Sys2Proof.Machine.execQfencePacket queue s
  | .qfenceComplete queue => Sys2Proof.Machine.execQfenceComplete queue s
  | .teamReservation ctx => Sys2Proof.Machine.execTeamReservation ctx s
  | .headBackfillLimit ctx => Sys2Proof.Machine.execHeadBackfillLimit ctx s
  | .teamStart team => Sys2Proof.Machine.execTeamStart team s
  | .swapHeldGroup gid => Sys2Proof.Machine.execSwapHeldGroup gid s
  | .swapResidenceExpiry gid => Sys2Proof.Machine.execSwapResidenceExpiry gid s
  | .swapOutranked rod => Sys2Proof.Machine.execSwapOutranked rod s
  | .groupRetire gid => Sys2Proof.Machine.execGroupRetire gid s
  | .nodeCommitting node => Sys2Proof.Machine.execNodeCommitting node s
  | .nodeDone node => Sys2Proof.Machine.execNodeDone node s
  | .fewaitTimeout gid => Sys2Proof.Machine.execFewaitTimeout gid s
  | .engineDelivery id n => Sys2Proof.Machine.execEngineDelivery id n s
  | .engineComplete id => Sys2Proof.Machine.execEngineComplete id s
  | .multicastRequest id slice => Sys2Proof.Machine.execMulticastRequest id slice s
  | .mergeWindowExpiry entry => Sys2Proof.Machine.execMergeWindowExpiry entry s
  | .matrixOpStart frame => Sys2Proof.Machine.execMatrixOpStart frame s
  | .matrixOpComplete id => Sys2Proof.Machine.execMatrixOpComplete id s
  | .barrierRelease team bar => Sys2Proof.Machine.execBarrierRelease team bar s
  | .sstepArrive gid => Sys2Proof.Machine.execSstepArrive gid s
  | .superstepRelease node => Sys2Proof.Machine.execSuperstepRelease node s
  | .sleepExpiry gid => Sys2Proof.Machine.execSleepExpiry gid s
  | .waitcSatisfied gid => Sys2Proof.Machine.execWaitcSatisfied gid s
  | .loadReturn id => Sys2Proof.Machine.execLoadReturn id s
  | .atomicReturn id => Sys2Proof.Machine.execAtomicReturn id s
  | .redAck id => Sys2Proof.Machine.execRedAck id s
  | .creszComplete id => Sys2Proof.Machine.execCreszComplete id s
  | .cflushComplete id => Sys2Proof.Machine.execCflushComplete id s
  | .launchRetire id => Sys2Proof.Machine.execLaunchRetire id s
  | .forkwRetire id => Sys2Proof.Machine.execForkwRetire id s
  | .chooseRetire id => Sys2Proof.Machine.execChooseRetire id s
  | .wdropRetire id => Sys2Proof.Machine.execWdropRetire id s
  | .rivalComplete node => Sys2Proof.Machine.execRivalComplete node s
  | .storeBufferSend id => Sys2Proof.Machine.execStoreBufferSend id s
  | .readShared a guarded sec => Sys2Proof.Machine.execReadShared a guarded sec s
  | .readForOwnership a sec => Sys2Proof.Machine.execReadForOwnership a sec s
  | .upgrade a sec => Sys2Proof.Machine.execUpgrade a sec s
  | .writeBack a sec d => Sys2Proof.Machine.execWriteBack a sec d s
  | .cleanEviction a sec => Sys2Proof.Machine.execCleanEviction a sec s
  | .uncacheableRead a pa len => Sys2Proof.Machine.execUncacheableRead a pa len s
  | .uncacheableWrite a pa bytes poison => Sys2Proof.Machine.execUncacheableWrite a pa bytes poison s
  | .homeSideAtomic id => Sys2Proof.Machine.execHomeSideAtomic id s
  | .invalidate a sec ans => Sys2Proof.Machine.execInvalidate a sec ans s
  | .downgrade a sec ans => Sys2Proof.Machine.execDowngrade a sec ans s
  | .backInvalidate sec ans => Sys2Proof.Machine.execBackInvalidate sec ans s
  | .transientRequest frame sec write => Sys2Proof.Machine.execTransientRequest frame sec write s
  | .transientRetry frame sec => Sys2Proof.Machine.execTransientRetry frame sec s
  | .persistentRequest frame sec => Sys2Proof.Machine.execPersistentRequest frame sec s
  | .beadEviction frame sec => Sys2Proof.Machine.execBeadEviction frame sec s
  | .swmEviction place sec => Sys2Proof.Machine.execSwmEviction place sec s
  | .requestLost id => Sys2Proof.Machine.execRequestLost id s
  | .linkReplayExhausted l => Sys2Proof.Machine.execLinkReplayExhausted l s
  | .heartbeatSend => Sys2Proof.Machine.execHeartbeatSend s
  | .heartbeatLoss pkg => Sys2Proof.Machine.execHeartbeatLoss pkg s
  | .cellDownMessage cell => Sys2Proof.Machine.execCellDownMessage cell s
  | .peerSweepComplete cell home => Sys2Proof.Machine.execPeerSweepComplete cell home s
  | .cellfail pkg planes => Sys2Proof.Machine.execCellfail pkg planes s
  | .celldnWrite k v => Sys2Proof.Machine.execCelldnWrite k v s
  | .cellraWrite k v => Sys2Proof.Machine.execCellraWrite k v s
  | .hostMemWrite tc pa bytes => Sys2Proof.Machine.execHostMemWrite tc pa bytes s
  | .hostMemRead pa len => Sys2Proof.Machine.execHostMemRead pa len s
  | .hostSnoop sec inv => Sys2Proof.Machine.execHostSnoop sec inv s
  | .warmRestart link => Sys2Proof.Machine.execWarmRestart link s
  | .hgcmdClear pages => Sys2Proof.Machine.execHgcmdClear pages s
  | .hostgoneClearComplete => Sys2Proof.Machine.execHostgoneClearComplete s
  | .fqcmdReplay part seq => Sys2Proof.Machine.execFqcmdReplay part seq s
  | .fqcmdCancel part seq => Sys2Proof.Machine.execFqcmdCancel part seq s
  | .fqcmdDeferredApply part seq => Sys2Proof.Machine.execFqcmdDeferredApply part seq s
  | .replayReissue part seq => Sys2Proof.Machine.execReplayReissue part seq s
  | .faultBufferDrain part => Sys2Proof.Machine.execFaultBufferDrain part s
  | .mark size => Sys2Proof.Machine.execMark size s
  | .markComplete => Sys2Proof.Machine.execMarkComplete s
  | .release size => Sys2Proof.Machine.execRelease size s
  | .swopen size => Sys2Proof.Machine.execSwopen size s
  | .swclose size => Sys2Proof.Machine.execSwclose size s
  | .vwcmdResume part view => Sys2Proof.Machine.execVwcmdResume part view s
  | .vwcmdFail part view => Sys2Proof.Machine.execVwcmdFail part view s
  | .haltLineArrival ctx u => Sys2Proof.Machine.execHaltLineArrival ctx u s
  | .haltComplete ctx => Sys2Proof.Machine.execHaltComplete ctx s
  | .drain ctx => Sys2Proof.Machine.execDrain ctx s
  | .drainComplete ctx => Sys2Proof.Machine.execDrainComplete ctx s
  | .drainDeadlineExpiry ctx => Sys2Proof.Machine.execDrainDeadlineExpiry ctx s
  | .cut ctx => Sys2Proof.Machine.execCut ctx s
  | .cutSave ctx => Sys2Proof.Machine.execCutSave ctx s
  | .cutDeadlineExpiry ctx => Sys2Proof.Machine.execCutDeadlineExpiry ctx s
  | .restore ctx parts => Sys2Proof.Machine.execRestore ctx parts s
  | .reset ctx => Sys2Proof.Machine.execReset ctx s
  | .svcBatchArrival id => Sys2Proof.Machine.execSvcBatchArrival id s
  | .svcReply id status data => Sys2Proof.Machine.execSvcReply id status data s
  | .strike u frame n restarts => Sys2Proof.Machine.execStrike u frame n restarts s
  | .katInject rod op bad => Sys2Proof.Machine.execKatInject rod op bad s
  | .matrixKatPass frame quadrant => Sys2Proof.Machine.execMatrixKatPass frame quadrant s
  | .ckptSave desc => Sys2Proof.Machine.execCkptSave desc s
  | .ckptLoad desc => Sys2Proof.Machine.execCkptLoad desc s
  | .ckptShardDone => Sys2Proof.Machine.execCkptShardDone s
  | .twinWriteMirror pa bytes => Sys2Proof.Machine.execTwinWriteMirror pa bytes s
  | .twinKickMirror queue v => Sys2Proof.Machine.execTwinKickMirror queue v s
  | .twinDigestArrival key digest => Sys2Proof.Machine.execTwinDigestArrival key digest s
  | .twinDigestTimeout key => Sys2Proof.Machine.execTwinDigestTimeout key s
  | .twinLinkDown => Sys2Proof.Machine.execTwinLinkDown s
  | .railOutOfTolerance => Sys2Proof.Machine.execRailOutOfTolerance s
  | .railsGood im => Sys2Proof.Machine.execRailsGood im s
  | .bringupComplete => Sys2Proof.Machine.execBringupComplete s
  | .configurationRequest => Sys2Proof.Machine.execConfigurationRequest s
  | .mctpFirmwareUpdate msg => Sys2Proof.Machine.execMctpFirmwareUpdate msg s
  | .getVersion => Sys2Proof.Machine.execGetVersion s
  | .getCapabilities => Sys2Proof.Machine.execGetCapabilities s
  | .negotiateAlgorithms offer => Sys2Proof.Machine.execNegotiateAlgorithms offer s
  | .getDigests => Sys2Proof.Machine.execGetDigests s
  | .getCertificate slot ofs len => Sys2Proof.Machine.execGetCertificate slot ofs len s
  | .challenge nonce => Sys2Proof.Machine.execChallenge nonce s
  | .getMeasurements index nonce => Sys2Proof.Machine.execGetMeasurements index nonce s
  | .partcfgWrite n v => Sys2Proof.Machine.execPartcfgWrite n v s
  | .scrubComplete n => Sys2Proof.Machine.execScrubComplete n s
  | .functionLevelReset func => Sys2Proof.Machine.execFunctionLevelReset func s
  | .eqlostWrite v => Sys2Proof.Machine.execEqlostWrite v s
  | .eventBufferDrain => Sys2Proof.Machine.execEventBufferDrain s
  | .systemCsrWrite off size v => Sys2Proof.Machine.execSystemCsrWrite off size v s
  | .linkUp l => Sys2Proof.Machine.execLinkUp l s
  | .linkLevelReplay l => Sys2Proof.Machine.execLinkLevelReplay l s
  | .grant id => Sys2Proof.Machine.execGrant id s
  | .heartbeat pkg plane => Sys2Proof.Machine.execHeartbeat pkg plane s
  | .rollbackMirror key => Sys2Proof.Machine.execRollbackMirror key s
  | .tlbiComplete gid => Sys2Proof.Machine.execTlbiComplete gid s
  | .fesetComplete id => Sys2Proof.Machine.execFesetComplete id s

end Sys2Proof.Machine
end

