-- ==== Sys2Proof/Machine/Place.lean ====
section
/-!
DEFINITION. Place.lean: a resident group placed by hand, with an instruction at its PC, as the host's probe needs it (log entry
3). It stands for the way of a program from a queue to a rod (R52 to R67).
-/
namespace Sys2Proof.Machine

/-- The region control block of the placed node: every resource of Table 3.4 that one team can ask for. -/
def placedRcb : Rcb :=
  { kernel := 0x10000, args := 0, parent := 0, succ := 0, nsucc := 0, nteam := 1, grps := 0, vgr := 42, sgr := 8, lgr := 32,
    nbar := 8, ntile := 16, nacc := 32, bframe := 1, blocal := 512, bview := 255, bmem := 0, prio := 0, fdom := 0,
    guarded := false, idem := false, paired := false, carve := true, gang := true, ovr := 0x3FF#10, pbase := 0, psize := 0 }

/-- The placed node: running in context 0. -/
def placedNode : Node :=
  { ctx := 0, rcbva := 0x20000, eff := placedRcb, st := .running, req := 0, tdone := 0, tnext := 1, parent := none, view := 0, rcbView := 0,
    priv := none, escaped := false, rival := none, order := 0, readyAt := 0, queue := none, sig := none, sarrive := [],
    sstep := 0, digest := 0#64, waits := false }

/-- The placed team, on frame 0. -/
def placedTeam : Team :=
  { node := 0, index := 0, frame := 0, vframe := 0, started := true, groups := [0], lgr := 32, gran := List.range 32, startAt := 0, issueAt := 0, vgr := 42, sgr := 8,
    nbar := 8, ntile := 16, nacc := 32, words := [], bars := [], tiles := [], accs := [] }

/-- The placed context, on partition 0. -/
def placedCtx : Ctx :=
  { num := 0, parts := [0], run := .resident, sidx := [0], lastFrame := some 0, headAt := none, limit := none, turn := 1024, visitAt := 0, stopped := [],
    stops := 0, stopLost := false, nparts := 1, regs := 1 }

/-- The placed group, active on rod 0. -/
def placedGroup (now : Nat) : Group :=
  { groupAtStart 0 0 0 0 0x10000#57 0x20000#64 0#64 8 (csrAtStart 0#18 0 0) now with active := some now }

/-- The page that maps the placed program: 64 KiB at VA 0x10000, executable and writable, at PA 0x10000. -/
def placedPage : Page := ⟨0x10000, 0#2, 0x10000, true, true, false, false, false, false⟩

/-- Bytes stored from an address on. -/
def storeBytes : Mem → Nat → List Byte → Mem
  | m, _, [] => m
  | m, a, b :: l => storeBytes (m.setByte a b) (a + 1) l

/-- `s` with the placed group, about to fetch the bytes `l`. -/
def place (s : State) (l : List Byte) : State :=
  { s with
    power := .up, agenda := [], turns := [0], ids := s.ids + 1,
    mem := { storeBytes s.mem 0x10000 l with bad := s.mem.bad.del 1024 },
    groups := s.groups.put 0 (placedGroup s.now), teams := s.teams.put 0 placedTeam, nodes := s.nodes.put 0 placedNode,
    ctxs := s.ctxs.put 0 placedCtx, tlb := s.tlb.put 0 [⟨0, placedPage⟩] }

end Sys2Proof.Machine
end

