-- ==== Sys2Proof/Machine/Step.lean ====
section
/-!
DEFINITION. Step.lean: one step of the machine, and a word placed where the next step fetches it.
-/
namespace Sys2Proof.Machine

/-- ONE STEP (log entry 3): the first step of the agenda; else the first turn of this clock, in which a rod or a helper fetches,
decodes and issues one instruction or nothing; else the next clock. -/
def step (s : State) : Host.Outcome State Fault Refusal :=
  match s.agenda with
  | i :: rest => exec i (s.apply (.agenda rest))
  | [] =>
    match s.turns with
    | k :: rest =>
      match takeTurn s k rest with
      | .inl t => .next t
      | .inr p => exec p.1 p.2
    | [] => .next (s.run (tick s))

/-- `s` with an instruction word placed where the next step fetches it: a resident group of its own on rod 0 of frame 0
(`place`), with the word at its PC (log entry 3). -/
def State.withFetchWord (s : State) (_nbits w : Nat) : State := place s (leBytes 12 w)

end Sys2Proof.Machine
end

