-- ==== Sys2Proof/Safety.lean ====
section
/-!
DEFINITION. Safety.lean: the terms that statements use: the invariant of the machine, an instruction that issues with nothing to stop
it, the results that it sends on their way, and what stays as it was.
-/
namespace Sys2Proof.Machine

/-- THE INVARIANT that every step keeps: memory is in its canonical form, and every table of the machine lists its entries by strictly
rising keys, so that equal contents are equal data. -/
structure State.Inv (s : State) : Prop where
  mem : s.mem.wf = true
  bad : AMap.wf s.mem.bad = true
  sys : AMap.wf s.sys = true
  groups : AMap.wf s.groups = true
  teams : AMap.wf s.teams = true
  nodes : AMap.wf s.nodes = true
  ctxs : AMap.wf s.ctxs = true
  queues : AMap.wf s.queues = true
  rods : AMap.wf s.rods = true
  mxq : AMap.wf s.mxq = true
  ops : AMap.wf s.ops = true
  ways : AMap.wf s.ways = true
  spare : AMap.wf s.spare = true
  orig : AMap.wf s.orig = true
  tlb : AMap.wf s.tlb = true
  walk : AMap.wf s.walk = true
  ccache : AMap.wf s.ccache = true
  views : AMap.wf s.views = true
  forks : AMap.wf s.forks = true
  recs : AMap.wf s.recs = true
  waitRec : AMap.wf s.waitRec = true
  l1 : AMap.wf s.l1 = true
  marks : AMap.wf s.marks = true
  beads : AMap.wf s.beads = true
  breqs : AMap.wf s.breqs = true
  dir : AMap.wf s.dir = true
  trans : AMap.wf s.trans = true
  rdc : AMap.wf s.rdc = true
  l2 : AMap.wf s.l2 = true
  merge : AMap.wf s.merge = true
  ports : AMap.wf s.ports = true
  seen : AMap.wf s.seen = true
  saved : AMap.wf s.saved = true
  ck : AMap.wf s.ck = true

/-- The group in `cur` with the results due by now in its registers. -/
def State.issuer (s : State) : Option Group := (s.groups.find s.cur).map fun g => g.upTo s.now

/-- The state in which that group's due results have landed. -/
def State.landed (s : State) : State :=
  match s.issuer with
  | some g => s.apply (.group s.cur (some g))
  | none => s

/-- Whether an instruction, with Active set `a`, gets as far as its checks: a legal encoding, no trap that awaits a thread, no uniform guard that
skips it, no hand-back, no lost store and no held fault that parks a thread, and before an access to the local store no `FESET` of the group
under way (R30, R36, R185, R221, R241, R244, R327, R339). -/
def gets (s : State) (c : Iss) (i : Instr) : Bool :=
  let g := c.g
  i.legal && !needsGang c i && (doomed g c.act).isNone && !skipped g i.guard && !(g.cont.isSome && (!i.onHelper || i.writesUniform))
    && !(g.lost ≠ [] && i.parksOnLost) && (holders c i).2 = 0#32 && c.act ≠ 0#32 && (!genLocal i || s.fesetsOf c.owner = [])

/-- The issue of `i` by the group in `cur` when the instruction gets as far as its checks. -/
def State.reaching (s : State) (i : Instr) : Option Iss :=
  match s.issuer with
  | none => none
  | some g =>
    match g.pc? with
    | none => none
    | some pc =>
      let c := issOf s s.cur g i pc (g.atPc pc)
      if gets s c i then some c else none

/-- Whether an instruction that has come to its checks passes them: privilege, allocation, stale and poison (R84, R95, R255, R338). -/
def passes (c : Iss) (i : Instr) : Bool :=
  !privFail c i && (allocFail c.tm i).isNone && ((staleField c i).isNone || !c.g.csr.chk) && (uniPoison c.g i.guard).isNone

/-- THE ISSUE of `i` by the group in `cur` WITH NOTHING TO STOP IT. -/
def State.issuing (s : State) (i : Instr) : Option Iss := (s.reaching i).filter fun c => passes c i

/-- Whether some lane is Active and its guard true; an instruction of fixed latency, and an `MMA`, acts in any case (R87, R137). -/
def acts (c : Iss) (i : Instr) : Bool :=
  c.on ≠ 0#32 || i.actsIdle

/-- The state once the issue itself has had its effects: PC, hints, ages, dead marks, scoreboard, rewind log, `STALE`, bank reads (R67, R71,
R86, R90, R92, R95, R98). -/
def State.begun (s : State) (c : Iss) (i : Instr) : State :=
  let g := (afterIssue c i s.free).logged c.g i c.t
  let t := (s.landed.apply (.free (s.free + 1))).apply (.group s.cur (some g))
  let t := t.run (onSome c.g.cont (fun p => when ((staleField c i).isSome) (upGroup p.1 fun g => { g with csr := { g.csr with stale := true } })) t)
  if c.g.cont.isSome then t
  else t.run (upRod (rodKey g.frame g.rod) (fun r =>
    { r with reads := r.reads ++ (i.vreads.zip c.reads).map fun p => (p.1.2.2 % 6, p.2.clk) }) t)

/-- A result of lane values `f` is on its way in group `g`, to enter the latch chain or the register file in clock `L`: a vector result
is pushed under the lanes `on` (R89) and written two clocks later, registers 6 and 7 of a span three (R85, R379); a condition register
is written lane by lane; a uniform register or flag takes the value that its lanes share (R80). With `_` nothing is written (R81). -/
def Lands (u : DstUse) (on : Mask) (vec : Bool) (f : Nat → LaneOut) (g : Group) (L : Nat) : Prop :=
  (vec = true → ∃ hm x, (⟨L, .push hm on x⟩ : Pend) ∈ g.pend ∧ ∀ n, Mask.has on n = true → n < 32 → lane x n = (f n).elem 0)
  ∧ (u.dst.nwb = false → vec = true → ∀ k < u.span, ∃ x,
      (⟨if k < 6 then L + 2 else L + 3, .wv (u.dst.idx.toNat + k) on x⟩ : Pend) ∈ g.pend
        ∧ ∀ n, Mask.has on n = true → n < 32 → lane x n = (f n).elem k)
  ∧ (u.dst.nwb = false → u.dst.cls = .s → ∀ n < 32, Mask.has on n = true → (∀ m < 32, Mask.has on m = true → f m = f n) →
      ∀ k < u.span, (⟨L, .ws (u.dst.idx.toNat + k) ((f n).elem k)⟩ : Pend) ∈ g.pend)
  ∧ (u.dst.nwb = false → u.dst.cls = .cf → u.dst.idx.toNat < 4 → on ≠ 0#32 → ∃ x, (⟨L, .wc u.dst.idx.toNat on x⟩ : Pend) ∈ g.pend
        ∧ ∀ n < 32, Mask.has on n = true → x.getD n flag0 = (f n).flag)
  ∧ (u.dst.nwb = false → u.dst.cls = .cf → 4 ≤ u.dst.idx.toNat → ∀ n < 32, Mask.has on n = true →
      (∀ m < 32, Mask.has on m = true → f m = f n) → (⟨L, .wf (u.dst.idx.toNat - 4) (f n).flag⟩ : Pend) ∈ g.pend)

/-- In `t` the result of `i`, issued as `c`, is on its way with the lane values `f`, and with the floating-point flags of the lanes
whose result is not poisoned (R106). -/
def Sends (t : State) (c : Iss) (i : Instr) (f : Nat → LaneOut) : Prop :=
  ∃ u g L, i.dst? = some u ∧ t.groups.find c.gid = some g ∧ c.t < L ∧ Lands u c.on i.vecResult f g L
    ∧ (⟨L, .flg (raised c.on f)⟩ : Pend) ∈ g.pend

/-- The same for an instruction whose lanes take a poisoned lane guard's payload behind their sources' (R253). -/
def SendsGuarded (t : State) (c : Iss) (i : Instr) (f : Nat → LaneOut) : Prop := Sends t c i fun n => c.guarded (f n) n

/-- Everything but groups, rods and the counter of free values is as it was. -/
def SameButIssue (s t : State) : Prop := t = { s with groups := t.groups, rods := t.rods, free := t.free }

/-- Everything but the groups is as it was. -/
def SameButGroups (s t : State) : Prop := t = { s with groups := t.groups }

/-- In `t` the results of `i`, issued as `c`, are on their way, and what each Active, guard-true lane makes is as `P` says. -/
def Makes (t : State) (c : Iss) (i : Instr) (P : Nat → LaneOut → Prop) : Prop :=
  ∃ f, SendsGuarded t c i f ∧ ∀ n < 32, Mask.has c.on n = true → P n (f n)

/-- `w` is the exact result `z` clamped to the range of a type (R104). -/
def Clamped (ty : ITy) (z w : Int) : Prop :=
  (z < ITy.least ty → w = ITy.least ty) ∧ (ITy.greatest ty < z → w = ITy.greatest ty)
    ∧ (ITy.least ty ≤ z → z ≤ ITy.greatest ty → w = z)

/-- A bit of an operation of `LOP3` (R421). -/
def lopBit (o : Lop) (x y : Bool) : Bool :=
  match o with
  | .and => x && y
  | .or => x || y
  | .xor => x != y
  | .andn => x && !y
  | .orn => x || !y
  | .xnor => x == y
  | .x => x
  | .y => y

/-- What an instruction may write when its result lands: its destination, the latch chain, the operand-cache entry that it names, a
register with a dead mark, `FPFLG`, the scoreboard that it names, and the faults that its threads come to hold (R80, R86, R89, R91, R92, R106,
R241). -/
def MayWrite (i : Instr) : PendKind → Prop
  | .wv n _ _ => ∃ u, i.dst? = some u ∧ u.dst.nwb = false ∧ u.dst.cls = .v ∧ u.dst.idx.toNat ≤ n ∧ n < u.dst.idx.toNat + u.span
  | .ws n _ => ∃ u, i.dst? = some u ∧ u.dst.nwb = false ∧ u.dst.cls = .s ∧ u.dst.idx.toNat ≤ n ∧ n < u.dst.idx.toNat + u.span
  | .wc n _ _ => ∃ u, i.dst? = some u ∧ u.dst.nwb = false ∧ u.dst.cls = .cf ∧ n = u.dst.idx.toNat
  | .wf n _ => ∃ u, i.dst? = some u ∧ u.dst.nwb = false ∧ u.dst.cls = .cf ∧ n + 4 = u.dst.idx.toNat
  | .wfBits n sel _ => n = 0 ∧ sel = 4#4 ∧ ∃ h d a, i = .unify h d a ∧ d.nwb = false
  | .push .. => i.vecResult = true
  | .ret .. => False
  | .ocap n _ _ => i.hint.ocap = true ∧ n = i.hint.ocsel.toNat
  | .dead n => ∃ u ∈ i.uses, u.src.dead = true ∧ u.src.cls = .v ∧ u.src.idx.toNat ≤ n ∧ n < u.src.idx.toNat + u.span
  | .flg _ => True
  | .sb n => i.sbs = some n
  | .hold .. => True

/-- The registers, latches and flags of a group are as they were. -/
structure SameRegs (a b : Group) : Prop where
  v : b.v = a.v
  s : b.s = a.s
  c : b.c = a.c
  f : b.f = a.f
  q : b.q = a.q

/-- A result in flight of `a` is in flight in `l` as well, no earlier: the return path may have to wait (R73). -/
def Kept (a : List Pend) (p : Pend) : Prop := ∃ q ∈ a, q.kind = p.kind ∧ q.clk ≤ p.clk

/-- Group `b` is `a`, but that its results in flight may come later than they did (R73), and that a continuation of its own may have sent it
its flags and `STALE` (R95, R107). -/
def Untouched (a b : Group) : Prop :=
  ∃ p l st, b = { a with pend := p, past := l, csr := { a.csr with stale := st } } ∧ (a.csr.stale = true → st = true)
    ∧ ∀ x ∈ p, Kept a.pend x ∨ ∃ f, x.kind = .flg f

/-- Every group but the one in `cur` is as it was. -/
def OthersUntouched (s t : State) : Prop :=
  ∀ k, k ≠ s.cur → (s.groups.find k = none → t.groups.find k = none)
    ∧ ∀ a, s.groups.find k = some a → ∃ b, t.groups.find k = some b ∧ Untouched a b

/-- The lanes that `Mask` counts in, of those whose source element is poisoned: the lowest one's payload. -/
def lowestPayload (x : Lanes) (m : Mask) : Option Word :=
  (m.lanes.find? fun n => (lane x n).poi).map fun n => (lane x n).val

/-- The rational value of a finite floating-point value; 0 for the others. -/
def Num.rat : Num → ℚ
  | .fin n m e => (if n then -1 else 1) * (m : ℚ) * (2 : ℚ) ^ e
  | _ => 0

/-- A floating-point value on the line on which comparisons are made: an infinity counts as ± 2^2000, beyond every finite value. -/
def Num.place : Num → ℚ
  | .inf n => (if n then -1 else 1) * (2 : ℚ) ^ (2000 : ℤ)
  | x => x.rat

/-- A code whose value is finite. -/
def Fmt.Finite (f : Fmt) (x : Nat) : Prop := x < 2 ^ f.width ∧ ∃ n m e, f.num x = .fin n m e

/-- The value of a code. -/
def Fmt.rat (f : Fmt) (x : Nat) : ℚ := (f.num x).rat

/-- The code `w` is the value `v` rounded to a format in a mode (R108): the nearest finite value, on a tie the one with an even mantissa;
or the nearest on the side of the mode. -/
def Fmt.Rounds (f : Fmt) (r : RM) (v : ℚ) (w : Nat) : Prop :=
  f.Finite w ∧
    match r with
    | .rn => ∀ x, f.Finite x → |v - f.rat w| ≤ |v - f.rat x| ∧ (|v - f.rat w| = |v - f.rat x| → f.rat x ≠ f.rat w → w % 2 = 0)
    | .rz => 0 ≤ f.rat w * v ∧ |f.rat w| ≤ |v| ∧ ∀ x, f.Finite x → 0 ≤ f.rat x * v → |f.rat x| ≤ |v| → |f.rat x| ≤ |f.rat w|
    | .ru => v ≤ f.rat w ∧ ∀ x, f.Finite x → v ≤ f.rat x → f.rat w ≤ f.rat x
    | .rd => f.rat w ≤ v ∧ ∀ x, f.Finite x → f.rat x ≤ v → f.rat x ≤ f.rat w

/-- `o` is the exact value `v`, rounded once to a format (`Fmt.round`), with the flags `more` that the operands raise. -/
def RoundedTo (f : Fmt) (r : RM) (sat ftz : Bool) (v : ℚ) (out : Nat × BitVec 6) (more : BitVec 6) : Prop :=
  ∃ neg m e, (Num.fin neg m e).rat = v ∧ out.1 = (f.round r sat ftz neg m e).1 ∧ out.2 = (f.round r sat ftz neg m e).2 ||| more

/-- A lane's result as a code and flags. -/
def LaneOut.fp (o : LaneOut) : Nat × BitVec 6 := ((o.vals.headD 0#32).toNat, o.flg)

/-- No operand of `i`, and no guard, is poisoned where the instruction would consume it (R255). -/
def Clean (c : Iss) (i : Instr) : Prop :=
  (∀ u ∈ i.uses, ∀ n < 32, Mask.has c.on n = true → c.poisonAt u n = none) ∧ ∀ n < 32, Mask.has c.act n = true → c.gpoi.getD n none = none

/-- `t` is a state in which the group `gid`, `g0` before, has TAKEN A TRAP (R270, R272): the trap registers are written, the group is in
trap mode, the threads of `T` run at the handler and are the trap set, the others stay where they are, and issue goes on 12 to 20 clocks
later; no register changes. -/
def Trapped (s t : State) (gid : Nat) (g0 : Group) (cause : BitVec 4) (info : BitVec 64) (tpc : BitVec 57) (T : Mask) : Prop :=
  ∃ g, t.groups.find gid = some g ∧ SameRegs g0 g ∧ g.hold = g0.hold
    ∧ g.csr = { g0.csr with tmode := true, tcause := cause, tpc := tpc, taddr := info }
    ∧ (∀ n < 32, Mask.has T n = true → (g.th n).pc = g0.csr.tvec ∧ (g.th n).st = .run ∧ (g.th n).inT = true ∧ (g.th n).park = none)
    ∧ (∀ n < 32, Mask.has T n = false → g.th n = { g0.th n with inT := false })
    ∧ s.now + 12 ≤ g.ready ∧ g.ready ≤ s.now + 20

/-- A trap that `g` can take: it is no continuation, it is not in trap mode, and it has a handler (R36, R272, R274). -/
def CanTrap (g : Group) : Prop := g.cont = none ∧ g.csr.tmode = false ∧ g.csr.tvec ≠ 0#57

/-- The group that `cur` names stands in `t` with what it had at issue, its threads apart, which are as `P` says lane by lane. -/
def ThreadsNow (t : State) (gid : Nat) (g0 : Group) (P : Nat → Thread → Prop) : Prop :=
  ∃ g, t.groups.find gid = some g ∧ SameRegs g0 g ∧ ∀ n < 32, P n (g.th n)

-- memory instructions at issue

/-- Every access of a list of lanes and addresses finds its page, with the permission it needs (R234, R235). -/
def Mapped (s : State) (c : Iss) (need : Need) (l : List (Nat × Nat)) : Prop :=
  failedOf s.landed c.g.frame (s.ctxOf c.g) need l = [] ∧ ∀ p ∈ l, (pageFor s.landed c p.2).isSome = true

/-- A write that is mapped, that leaves no view at depth 1 or more, and for which its view has room (R235, R259, R260). -/
def Writable (s : State) (c : Iss) (need : Need) (l : List (Nat × Nat)) (dat : Nat → Lanes) : Prop :=
  Mapped s c need l
    ∧ (c.depth ≠ 0 → need ≠ .read → ∀ p ∈ l, ∀ g, pageFor s.landed c p.2 = some g → escapes s.landed g p.2 = false)
    ∧ (c.g.csr.vid ≠ 0 → need ≠ .read → viewFull s.landed (s.landed.lead (s.ctxOf c.g)) c.g.csr.vid c.nk
        (newCopies s.landed (s.landed.lead (s.ctxOf c.g)) c.g.csr.vid
          (l.map fun p => ⟨p.1, p.2, pageFor s.landed c p.2, dat p.1, false, []⟩)) = false)

/-- In `t` an operation stands for `i`, issued as `c` in `s`, under the next number, in the state `st`, and `P` holds of it. -/
def Opens (s t : State) (c : Iss) (i : Instr) (st : OpState) (P : Op → Prop) : Prop :=
  ∃ o, t.ops.find s.ids = some o ∧ o.ins = i ∧ o.gid = c.owner ∧ o.dest = s.cur ∧ o.mask = c.on ∧ o.view = c.g.csr.vid ∧ o.st = st ∧ P o

/-- The same for an operation whose view may be another than its group's. -/
def OpensIn (s t : State) (c : Iss) (i : Instr) (st : OpState) (P : Op → Prop) : Prop :=
  ∃ o, t.ops.find s.ids = some o ∧ o.ins = i ∧ o.gid = c.owner ∧ o.dest = s.cur ∧ o.mask = c.on ∧ o.st = st ∧ P o

/-- The accesses of a list of lanes and addresses, each at the page that its address finds. -/
def accsFor (s : State) (c : Iss) (l : List (Nat × Nat)) : List Acc :=
  l.filterMap fun p => (pageFor s.landed c p.2).map fun g => accOf c p.1 p.2 (some g)

/-- What an access to global memory changes at its issue: no memory, and nothing of the machine but the group, its rod, the operation, its
timer, its requests for beads (R205), the caches of translations and the counters of fresh numbers. -/
def SameButSend (s t : State) : Prop :=
  t = { s with groups := t.groups, rods := t.rods, free := t.free, ids := t.ids, ops := t.ops, timers := t.timers, tlb := t.tlb, walk := t.walk,
               breqs := t.breqs, agenda := t.agenda }

/-- What an access to the local store changes: group, rod, operation and its steps to come, its team's words, and what the matrix operations under way keep
of these (R145). -/
def SameButWords (s t : State) : Prop :=
  t = { s with groups := t.groups, rods := t.rods, free := t.free, ids := t.ids, ops := t.ops, timers := t.timers, teams := t.teams, mxq := t.mxq,
               agenda := t.agenda }

/-- Of the groups, only the issuing one has changed: its registers stand as they were, and what comes to be in flight is only what the
instruction may write. -/
def Quiet (s t : State) (c : Iss) (i : Instr) : Prop :=
  OthersUntouched s t
    ∧ ∃ g, t.groups.find s.cur = some g ∧ SameRegs c.g g ∧ ∀ p ∈ g.pend, Kept c.g.pend p ∨ MayWrite i p.kind

/-- Step `i` is to come between `lo` and `hi` clocks from now. -/
def Due (s t : State) (lo hi : Nat) (i : Instr) : Prop := ∃ T, s.now + lo ≤ T ∧ T ≤ s.now + hi ∧ (T, i) ∈ t.timers

/-- An operation counted in an engine counter begins: registers and memory stay, and the counter takes it up (R161). -/
def Counts (s t : State) (c : Iss) (k : CtrCls) : Prop :=
  t.mem = s.mem ∧ ∃ g, t.groups.find s.cur = some g ∧ SameRegs c.g g ∧ g.counted = c.g.counted ++ [⟨s.ids, k, false⟩]

/-- The operations of class SVC that hold their group until they retire (R261, R264). -/
def holdsSvc (i : Instr) : Bool :=
  match i with
  | .forkw .. | .choose .. | .wdrop .. => true
  | _ => false

/-- A list of counted operations once operation `id` has completed: it retires, and what it held back with it (R161). -/
def retiring (l : List Counted) (id : Nat) : List Counted :=
  retireCounted [] (l.map fun x => if x.op = id then { x with done := true } else x)

/-- The value that an integer atomic operation stores over `x` with operand `y` (R348). -/
def AtomIs (op : Aop) {n : Nat} (x y r : BitVec n) : Prop :=
  match op with
  | .add => r = x + y
  | .and => r = x &&& y
  | .or => r = x ||| y
  | .xor => r = x ^^^ y
  | .min => r.toInt = min x.toInt y.toInt
  | .max => r.toInt = max x.toInt y.toInt
  | .umin => r.toNat = min x.toNat y.toNat
  | .umax => r.toNat = max x.toNat y.toNat
  | .exch => r = y
  | _ => r.toNat = atomOp op n x.toNat y.toNat

-- accesses at their homes

/-- The instructions of Table 15.1 that a home, or the local store, performs as one read, operation and write. -/
def isAtomic : Instr → Bool
  | .atom .. | .acas .. | .red .. | .xadd .. | .xrd .. => true
  | _ => false

/-- A load of width `w` that reads global memory in a view that is live (R411, R414, R418). -/
def IsLoad (s : State) (o : Op) (w : Width) : Prop :=
  (∃ h d a mc, o.ins = .ld h false w d a mc) ∨ (∃ h d a mc, o.ins = .ldc h w d a mc)
    ∨ (w = .w32 ∧ ∃ h d a b k x, o.ins = .ldv h d a b k ∧ o.vals = [x] ∧ (s.forkAt o.frame x.val).isSome = true)

/-- The home of an access answers, for a read as for a write, and its sector has not vanished with the host (R207, R219, R228). -/
def AtHome (s : State) (o : Op) (a : Acc) : Prop := (∀ w, s.homeSt o w a = .ready) ∧ s.hostGone a.pa = false

/-- The caches of its frame and die have room for the sectors of an operation, so that none is evicted for them (R204, R232). -/
def Roomy (s : State) (o : Op) : Prop :=
  (∀ k m, s.l1.find k = some m → m.length + o.accs.length ≤ wayL1) ∧ ∀ k m, s.rdc.find k = some m → m.length + o.accs.length ≤ wayL2

/-- The 64 beads of a line are all there, each holder has some, and the owner bead lies with one of them (R203). -/
def Beads.Whole (b : Beads) : Prop :=
  AMap.wf b.hold = true ∧ b.out ≤ 64 ∧ (∀ kv ∈ b.hold, kv.2 ≠ 0) ∧ (match b.owner with
    | none => b.out < 64
    | some f => f ∈ b.hold.keys)

/-- No write of a frame is seen there before it is performed (R189). -/
def NoEarly (s : State) (frame : Nat) : Prop := ∀ k p, s.ops.find k = some p → p.frame = frame → p.early = false

/-- An acquire with `.RMT` finds no mark on the sectors that it accesses (R191). -/
def NothingMarked (s : State) (o : Op) : Prop :=
  ordOf o.ins = .acqRmt → ∀ k l, s.marks.find k = some l → ∀ a ∈ o.accs, secOf a.pa ∉ l

/-- In `t` the result `f`, lane by lane and register by register, is on the return path to the destination of operation `o`, and its
scoreboard clears one clock after the latch chain takes it (R73, R85, R86). -/
def Returns (s t : State) (o : Op) (u : DstUse) (f : Nat → Nat → Elem) : Prop :=
  ∃ g L, t.groups.find o.dest = some g ∧ s.now + 7 ≤ L
    ∧ (u.dst.cls ≠ .s → (∃ x, (⟨L, .ret o.hm o.mask x⟩ : Pend) ∈ g.pend ∧ ∀ n < 32, Mask.has o.mask n = true → lane x n = f n 0)
      ∧ (u.dst.nwb = false → ∀ k < u.span, ∃ x, (⟨L + 2, .wv (u.dst.idx.toNat + k) o.mask x⟩ : Pend) ∈ g.pend
          ∧ ∀ n < 32, Mask.has o.mask n = true → lane x n = f n k))
    ∧ (u.dst.cls = .s → ∀ m l, Mask.lanes o.mask = m :: l → ∀ k < u.span, (⟨L, .ws (u.dst.idx.toNat + k) (f m k)⟩ : Pend) ∈ g.pend)
    ∧ ∀ b, o.ins.sbs = some b → (⟨L + 1, .sb b⟩ : Pend) ∈ g.pend

/-- In `t` operation `id` is over: the results `w` are on their way to its destination, with the clearing of its scoreboard. -/
def Ended (s t : State) (id : Nat) (o : Op) (w : List Pend) : Prop :=
  t.ops.find id = none ∧ ∃ g, t.groups.find o.dest = some g ∧ (∀ p ∈ w, p ∈ g.pend)
    ∧ ∀ b, o.ins.sbs = some b → (⟨s.now + 1, .sb b⟩ : Pend) ∈ g.pend

end Sys2Proof.Machine
end

