-- ==== Sys2Proof/Certificates/Slice0/Obligations.lean ====
section
/-!
DEFINITION. Obligations.lean: the statements for the provers. Each says, for the instructions or steps that it names, that the step
answers a next state and what that state holds. Hypotheses are on the state and the operands alone: `s.issuing i = some c` says that
group `cur` has a thread to run, that the encoding is legal, and that no guard, hand-back, held fault, privilege, allocation, stale or
poison check stops the instruction.
-/
open Sys2Proof Sys2Proof.Machine

-- the encoding

/-- R325 to R337: the words that the spec writes out (Tables 14.11, 15.5, 15.8, 16.10, 17.4, 17.11, 18.4, 19.4, 19.8, 20.1 and 20.6) decode to the
instructions that they stand for, a word with a reserved OP, modifier, guard bit, hint bit or unused field to none, and fewer than 12 bytes to none. -/
def Obligations.DecodesWrittenWords : Prop :=
  decodeTableWord 96 0x210098019008402604205C6C = some (.ffma ⟨.lane 1 .lt, ⟨1, false, 1, 3, true, 1, true, 3⟩⟩ false false .dyn ⟨false, .v, 12⟩ ⟨true, .v, 4⟩ ⟨false, .q, 1⟩ ⟨false, .o, 2⟩)
  ∧ decodeTableWord 96 0x01007E00E001000000000000 = some (.movl ⟨0, false, 0, 0, false, 0, false, 0⟩ ⟨false, .v, 7⟩ 0x3F800000)
  ∧ decodeTableWord 96 0x600015000001FFFFF6000000 = some (.bra ⟨.uni 0 .ne, ⟨0, false, 0, 0, false, 0, false, 0⟩⟩ 0xFFFFFB)
  ∧ decodeTableWord 96 0x608098028012000008000000 = some (.brd ⟨.lane 1 .lt, ⟨0, false, 0, 0, false, 0, false, 0⟩⟩ ⟨false, .v, 20⟩ 9 4)
  ∧ decodeTableWord 96 0x260000010008000E80000000 = some (.cvt ⟨.al, ⟨0, false, 0, 0, false, 0, false, 0⟩⟩ false .dyn .e4m3 .f32 ⟨false, .v, 8⟩ ⟨false, .v, 4⟩)
  ∧ decodeTableWord 96 0x04D80000A0120007D0000000 = some (.isub ⟨.al, ⟨0, false, 0, 0, false, 0, false, 0⟩⟩ .n32 true ⟨false, .v, 5⟩ ⟨false, .v, 9⟩ (.imm 1000))
  ∧ decodeTableWord 96 0x402000014004000584001000 = some (.ld ⟨.al, ⟨0, false, 0, 2, false, 0, false, 0⟩⟩ false .w32 ⟨false, .v, 10⟩ ⟨false, .v, 2⟩ ⟨.acq, .dev, 2⟩)
  ∧ decodeTableWord 96 0x300000C40210C00000000000 = some (.mma ⟨.al, ⟨0, false, 0, 0, false, 0, false, 0⟩⟩ ⟨false, .ta, 32⟩ ⟨false, .s, 8⟩ ⟨false, .ta, 0⟩)
  ∧ decodeTableWord 96 0x40A001000004012982000000 = some (.st ⟨.al, ⟨0, false, 0, 0, false, 0, false, 0⟩⟩ false .w32 ⟨false, .v, 2⟩ ⟨false, .v, 9⟩ ⟨.rel, .dev, 1⟩)
  ∧ decodeTableWord 96 0x508200E00220240244000000 = some (.tld ⟨.al, ⟨0, false, 0, 0, false, 0, false, 0⟩⟩ true ⟨false, .imm, 0⟩ ⟨false, .s, 16⟩ ⟨false, .s, 32⟩ ⟨false, .s, 34⟩)
  ∧ decodeTableWord 96 0x2100000004000380000107C0 = some (.ffma ⟨.al, ⟨0, false, 4, 0, true, 15, false, 0⟩⟩ false false .dyn ⟨false, .v, 0⟩ ⟨false, .q, 0⟩ ⟨false, .v, 28⟩ ⟨false, .v, 0⟩)
  ∧ decodeTableWord 96 0x0E013080602202000001D800 = some (.cmp ⟨.lane 2 .gt, ⟨0, false, 7, 3, false, 0, false, 0⟩⟩ .s32 ⟨false, .cf, 3⟩ ⟨false, .v, 17⟩ (.reg ⟨false, .v, 16⟩))
  ∧ decodeTableWord 96 0x700000228E0622000000C000 = some (.forkw ⟨.al, ⟨0, false, 3, 0, false, 0, false, 0⟩⟩ ⟨false, .s, 20⟩ ⟨false, .imm, 3⟩ ⟨false, .s, 16⟩)
  ∧ (∀ w ∈ [0x020001000000000000000000, 0x280079000000000000000000, 0xFF8001000000000000000000, 0x050600002000000000000000, 0x200A00002000000000000000, 0x600003000000000000000000, 0x630101000000000000000000, 0x630001000000000000000001, 0x630001000002000000000000, 0x630000002000000000000000],
      decodeTableWord 96 w = none)
  ∧ ∀ l : List Byte, l.length < 12 → decode l = .error .truncated

-- the machine as a whole

/-- R325 to R337: the 12 bytes of every well-formed instruction decode to it, whatever follows them. -/
def Obligations.DecodeReadsBackEncode : Prop :=
  ∀ i : Instr, i.wf = true → ∃ l, encode i = some l ∧ l.length = 12 ∧ ∀ rest, decode (l ++ rest) = .ok (i, rest)

/-- Every step that answers a next state keeps the invariant. -/
def Obligations.StepKeepsInvariant : Prop := ∀ s t : State, s.Inv → step s = .next t → t.Inv

/-- The machine after reset meets the invariant. R24, R309: after reset the module is held, nothing is resident, nothing waits, and no
system CSR differs from its reset value. -/
def Obligations.ResetMeetsInvariant : Prop :=
  (State.reset.Inv)
  ∧ (State.reset.power = .held ∧ State.reset.groups = [] ∧ State.reset.teams = [] ∧ State.reset.nodes = [] ∧ State.reset.ctxs = []
    ∧ State.reset.ops = [] ∧ State.reset.queues = [] ∧ State.reset.sys = [] ∧ State.reset.agenda = [] ∧ State.reset.recs = [])

/-- R34, R67, R325, R339: one step. With an agenda it is the meaning of the agenda's first step, taken off first. At the turn of a rod or a helper,
the first group in order that can be asked and whose 12 bytes at its PC decode to an instruction that may issue, issues it: the step is the meaning of
that instruction in the state with the turn taken; bytes that decode to none raise `ILLOP`, and the PC does not move past them. A trap that awaits
its threads (R221, R244, R259) is taken before the fetch. With neither, the
clock advances by one and the steps that are due join the agenda. -/
def Obligations.StepRunsTheDecodedInstruction : Prop :=
  (∀ (s : State) (i : Instr) (l : List Instr), s.agenda = i :: l → step s = exec i { s with agenda := l })
  ∧ (∀ (s : State) (k : Nat) (rest : List Nat) (gid : Nat) (g : Group) (pc : BitVec 57) (l : List Byte) (tail : List (Nat × Group)),
      s.agenda = [] → s.turns = k :: rest → k < 65536 →
      sortBy before (s.groups.filter fun kv => kv.2.cont.isNone && rodKey kv.2.frame kv.2.rod = k && kv.2.active.isSome && askable s kv.2)
        = (gid, g) :: tail →
      Group.pc? (g.upTo s.now) = some pc →
      (∀ d, doomed (g.upTo s.now) (Group.atPc (g.upTo s.now) pc) = some d → d.cause = 4#4 ∨ d.cause = 10#4 → s.groups.find gid = some g → CanTrap g →
        ∃ t, step s = .next t ∧ t.turns = rest
          ∧ Trapped s t gid (Group.undoom (g.upTo s.now) (Group.atPc (g.upTo s.now) pc) d) d.cause d.info pc (Group.atPc (g.upTo s.now) pc))
      ∧ (doomed (g.upTo s.now) (Group.atPc (g.upTo s.now) pc) = none → s.fetch g.frame (s.ctxOf (g.upTo s.now)) (g.upTo s.now).csr.vid pc = .ok l →
        (∀ i more, decode l = .ok (i, more) → eligible s gid (g.upTo s.now) i = true →
          ∃ t, step s = exec i t ∧ t.cur = gid ∧ t.turns = rest ∧ t = { s with turns := rest, cur := gid, tlb := t.tlb, walk := t.walk, free := t.free })
        ∧ (∀ e, decode l = .error e → s.groups.find gid = some g → CanTrap g →
          ∃ t, step s = .next t ∧ t.turns = rest ∧ Trapped s t gid g 1#4 0#64 pc (Group.atPc (g.upTo s.now) pc))))
  ∧ ∀ s : State, s.agenda = [] → s.turns = [] →
      ∃ t, step s = .next t ∧ t.now = s.now + 1 ∧ t.mem = s.mem ∧ ∀ p ∈ s.timers, if p.1 ≤ t.now then p.2 ∈ t.agenda else p ∈ t.timers

/-- An instruction of fixed latency, `BRD` apart (its ejection makes groups), leaves everything but its group and its rod as it was; in
its group the registers stand as they were, and what comes to be in flight is only what the instruction may write. Of the other groups, a
returned result may come later for it (R73), and the group of a continuation takes its flags and its `STALE` (R95, R107). -/
def Obligations.FixedLatencyFrame : Prop :=
  ∀ (s : State) (i : Instr) (c : Iss) (t : State), s.issuing i = some c → i.fixed = true → (∀ h d m o, i ≠ .brd h d m o) → exec i s = .next t →
    SameButIssue s t ∧ Quiet s t c i ∧ ∀ k, k ≠ rodKey c.g.frame c.g.rod → t.rods.find k = s.rods.find k

-- moves, integers and bits

/-- R430 to R433: `NOP` changes no register; `MOV` sends its source with its poison, or the sign-extended immediate; `MOVL` sends its
immediate, unpoisoned. -/
def Obligations.MoveResults : Prop :=
  ∀ (s : State) (c : Iss) (h : Head) (d : Dst) (a : Src),
    (s.issuing (.nop h) = some c → ∃ t g, exec (.nop h) s = .next t ∧ SameButIssue s t ∧ t.groups.find s.cur = some g ∧ SameRegs c.g g
      ∧ ∀ p ∈ g.pend, Kept c.g.pend p)
    ∧ (s.issuing (.mov h d (.reg a)) = some c → ∃ t, exec (.mov h d (.reg a)) s = .next t
      ∧ Makes t c (.mov h d (.reg a)) fun n o => o = out32 (lane (c.src 1 a) n).val
          (if (lane (c.src 1 a) n).poi then some (lane (c.src 1 a) n).val else none))
    ∧ (∀ k, s.issuing (.mov h d (.imm k)) = some c → ∃ t, exec (.mov h d (.imm k)) s = .next t
      ∧ Makes t c (.mov h d (.imm k)) fun _ o => o = out32 (BitVec.ofInt 32 k.toInt) none)
    ∧ (∀ hint w, s.issuing (.movl hint d w) = some c → ∃ t, exec (.movl hint d w) s = .next t
      ∧ Makes t c (.movl hint d w) fun _ o => o.vals = [w] ∧ o.poi = none)

/-- R44, R467: `UNIFY` writes the lowest Active, guard-true lane to its uniform register, with its poison or that of its lane's guard, and to
`f0`.Z whether another such lane differs from it in its 32 bits or its poison bit, both in one clock. With no such lane, and with `_` (R81),
nothing is written. No other register changes and no other write is on its way. -/
def Obligations.UnifyResult : Prop :=
  ∀ (s : State) (c : Iss) (h : Head) (d : Dst) (a : Src), s.issuing (.unify h d a) = some c →
    ∃ t g, exec (.unify h d a) s = .next t ∧ SameButIssue s t ∧ t.groups.find s.cur = some g ∧ SameRegs c.g g
      ∧ (∀ p ∈ g.pend, Kept c.g.pend p ∨ MayWrite (.unify h d a) p.kind)
      ∧ (Mask.lanes c.on = [] → ∀ p ∈ g.pend, Kept c.g.pend p ∨ ((∀ n x, p.kind ≠ .ws n x) ∧ ∀ n x y, p.kind ≠ .wfBits n x y))
      ∧ ∀ k l, Mask.lanes c.on = k :: l → ∃ L, c.t < L
        ∧ (d.nwb = false → (lane (c.src 1 a) k).poi = true ∨ c.gpoi.getD k none = none →
            (⟨L, .ws d.idx.toNat (lane (c.src 1 a) k)⟩ : Pend) ∈ g.pend)
        ∧ (∀ w, d.nwb = false → (lane (c.src 1 a) k).poi = false → c.gpoi.getD k none = some w → (⟨L, .ws d.idx.toNat ⟨w, true⟩⟩ : Pend) ∈ g.pend)
        ∧ (d.nwb = false → (∃ n ∈ l, lane (c.src 1 a) n ≠ lane (c.src 1 a) k) → (⟨L, .wfBits 0 4#4 4#4⟩ : Pend) ∈ g.pend)
        ∧ (d.nwb = false → (∀ n ∈ l, lane (c.src 1 a) n = lane (c.src 1 a) k) → (⟨L, .wfBits 0 4#4 0#4⟩ : Pend) ∈ g.pend)

/-- R403, R404: without `.SAT` the sum or difference modulo 2^w; with `.SAT` the exact one, clamped to the range of the type. R402 to
R404: the lesser and the greater by the signedness of the type, and the magnitude, whose most negative argument gives itself or, with
`.SAT`, the greatest value. -/
def Obligations.AddMinMaxResults : Prop :=
  (∀ (s : State) (c : Iss) (h : Head) (ty : ITy) (d : Dst) (a : Src) (b : Opnd),
    let x := fun n => c.atW ty.wide 1 a n
    let y := fun n => c.opndAt ty.wide b n
    let p := fun n => firstPoison [(x n).2, (y n).2]
    (s.issuing (.iadd h ty false d a b) = some c → ∃ t, exec (.iadd h ty false d a b) s = .next t
      ∧ Makes t c (.iadd h ty false d a b) fun n o => o = outW ty.wide ((x n).1 + (y n).1) (p n))
    ∧ (s.issuing (.isub h ty false d a b) = some c → ∃ t, exec (.isub h ty false d a b) s = .next t
      ∧ Makes t c (.isub h ty false d a b) fun n o => o = outW ty.wide ((x n).1 - (y n).1) (p n))
    ∧ (s.issuing (.iadd h ty true d a b) = some c → ∃ t, exec (.iadd h ty true d a b) s = .next t
      ∧ Makes t c (.iadd h ty true d a b) fun n o => ∃ w, Clamped ty (intOf ty (x n).1 + intOf ty (y n).1) w
          ∧ o = outW ty.wide (BitVec.ofInt 64 w) (p n))
    ∧ (s.issuing (.isub h ty true d a b) = some c → ∃ t, exec (.isub h ty true d a b) s = .next t
      ∧ Makes t c (.isub h ty true d a b) fun n o => ∃ w, Clamped ty (intOf ty (x n).1 - intOf ty (y n).1) w
          ∧ o = outW ty.wide (BitVec.ofInt 64 w) (p n)))
  ∧ (∀ (s : State) (c : Iss) (h : Head) (ty : ITy) (sat : Bool) (d : Dst) (a : Src) (b : Opnd),
    let x := fun n => c.atW ty.wide 1 a n
    let y := fun n => c.opndAt ty.wide b n
    let p := fun n => firstPoison [(x n).2, (y n).2]
    (s.issuing (.imin h ty d a b) = some c → ∃ t, exec (.imin h ty d a b) s = .next t ∧ Makes t c (.imin h ty d a b) fun n o =>
      (intOf ty (x n).1 ≤ intOf ty (y n).1 → o = outW ty.wide (x n).1 (p n))
      ∧ (intOf ty (y n).1 ≤ intOf ty (x n).1 → o = outW ty.wide (y n).1 (p n)))
    ∧ (s.issuing (.imax h ty d a b) = some c → ∃ t, exec (.imax h ty d a b) s = .next t ∧ Makes t c (.imax h ty d a b) fun n o =>
      (intOf ty (x n).1 ≤ intOf ty (y n).1 → o = outW ty.wide (y n).1 (p n))
      ∧ (intOf ty (y n).1 ≤ intOf ty (x n).1 → o = outW ty.wide (x n).1 (p n)))
    ∧ (s.issuing (.iabs h ty sat d a) = some c → ∃ t, exec (.iabs h ty sat d a) s = .next t ∧ Makes t c (.iabs h ty sat d a) fun n o =>
      let z := intOf ty (x n).1
      (0 ≤ z → o = outW ty.wide (x n).1 (x n).2)
      ∧ (z < 0 → (sat = false ∨ z ≠ ITy.least ty) → o = outW ty.wide (0#64 - (x n).1) (x n).2)
      ∧ (z < 0 → sat = true → z = ITy.least ty → o = outW ty.wide (BitVec.ofInt 64 (ITy.greatest ty)) (x n).2)))

/-- R405, R406: the product by mode, with the addend of `IMAD`: the low half, the high half as a quotient by 2^w rounded down, or all
64 bits; `.SAT` clamps the exact result. -/
def Obligations.MultiplyResults : Prop :=
  ∀ (s : State) (c : Iss) (h : Head) (ty : ITy) (sat : Bool) (m : MulMode) (d : Dst) (a : Src) (b : Opnd) (e f : Src),
    let by_ := fun (i : Instr) (x y z : Nat → BitVec 64 × Option Word) (zi : Nat → Int) (p : Nat → Option Word) =>
      s.issuing i = some c → ∃ t, exec i s = .next t ∧ Makes t c i fun n o =>
        let q := intOf ty (x n).1 * intOf ty (y n).1
        (m = .lo → sat = false → o = outW ty.wide ((x n).1 * (y n).1 + (z n).1) (p n))
        ∧ (m = .lo → sat = true → ∃ w, Clamped ty (q + zi n) w ∧ o = outW ty.wide (BitVec.ofInt 64 w) (p n))
        ∧ (m = .hi → ∃ r : Int, r * 2 ^ ITy.bits ty ≤ q ∧ q < (r + 1) * 2 ^ ITy.bits ty
            ∧ o = outW ty.wide (BitVec.ofInt 64 (r + zi n)) (p n))
        ∧ (m = .wide → o = outW true (BitVec.ofInt 64 (q + zi n)) (p n))
    by_ (.imul h ty sat m d a b) (fun n => c.atW ty.wide 1 a n) (fun n => c.opndAt ty.wide b n) (fun _ => (0#64, none)) (fun _ => 0)
      (fun n => firstPoison [(c.atW ty.wide 1 a n).2, (c.opndAt ty.wide b n).2])
    ∧ by_ (.imad h ty sat m d a e f) (fun n => c.atW ty.wide 1 a n) (fun n => c.atW ty.wide 2 e n)
      (fun n => c.atW (ty.wide || m = .wide) 3 f n)
      (fun n => if m = .wide && ty.signed then (c.pairAt 3 f n).1.toInt else if m = .wide then (c.pairAt 3 f n).1.toNat
        else intOf ty (c.atW ty.wide 3 f n).1)
      (fun n => firstPoison [(c.atW ty.wide 1 a n).2, (c.atW ty.wide 2 e n).2, (c.atW (ty.wide || m = .wide) 3 f n).2])

/-- R420, R448, R451, R452: `LEA` adds a scaled index modulo 2^w; a shift multiplies or divides by a power of two, and one by the width
or more leaves zero, or the sign; a funnel shift takes 32 bits of the shifted 64. -/
def Obligations.ShiftResults : Prop :=
  ∀ (s : State) (c : Iss) (h : Head) (ty : ITy) (w64 ar right : Bool) (k : BitVec 2) (d : Dst) (a : Src) (b : Opnd) (e f : Src),
    let w := if w64 then 64 else 32
    let x := fun n => c.atW w64 1 a n
    let sg := fun n => if w64 then (x n).1.toInt else ((x n).1.setWidth 32).toInt
    let count : Nat → Nat × Option Word := fun n => match b with
      | .reg r => ((lane (c.src 2 r) n).val.toNat, if (lane (c.src 2 r) n).poi then some (lane (c.src 2 r) n).val else none)
      | .imm i => (i.toNat % 64, none)
    let p := fun n => firstPoison [(x n).2, (count n).2]
    (s.issuing (.lea h ty k d a b) = some c → ∃ t, exec (.lea h ty k d a b) s = .next t ∧ Makes t c (.lea h ty k d a b) fun n o =>
      let z : Int := if ty.signed then (c.at32 1 a n).1.toInt else (c.at32 1 a n).1.toNat
      o = outW ty.wide (BitVec.ofInt 64 (z * 2 ^ k.toNat) + (c.opndAt ty.wide b n).1)
        (firstPoison [(c.at32 1 a n).2, (c.opndAt ty.wide b n).2]))
    ∧ (s.issuing (.shl h w64 d a b) = some c → ∃ t, exec (.shl h w64 d a b) s = .next t ∧ Makes t c (.shl h w64 d a b) fun n o =>
      o = outW w64 (if (count n).1 < w then BitVec.ofNat 64 ((x n).1.toNat * 2 ^ (count n).1) else 0#64) (p n))
    ∧ (s.issuing (.shr h w64 ar d a b) = some c → ∃ t, exec (.shr h w64 ar d a b) s = .next t ∧ Makes t c (.shr h w64 ar d a b) fun n o =>
      o = outW w64 (if ar then BitVec.ofInt 64 (sg n / 2 ^ (count n).1)
        else BitVec.ofNat 64 ((x n).1.toNat / 2 ^ (count n).1)) (p n))
    ∧ (s.issuing (.shf h right d a e f) = some c → ∃ t, exec (.shf h right d a e f) s = .next t ∧ Makes t c (.shf h right d a e f) fun n o =>
      let m := min (c.at32 3 f n).1.toNat 32
      let v := (c.at32 2 e n).1.toNat * 2 ^ 32 + (c.at32 1 a n).1.toNat
      o = out32 (BitVec.ofNat 32 (if right then v / 2 ^ m else v * 2 ^ m / 2 ^ 32))
        (firstPoison [(c.at32 1 a n).2, (c.at32 2 e n).2, (c.at32 3 f n).2]))

/-- R359, R365, R421, R438: bitwise operations bit by bit, the number of 1 bits, the number of zero bits above the highest 1 bit, and the
bits in reverse order. R351 to R355, R439: extracted, inserted, interleaved and permuted fields, bit by bit. -/
def Obligations.BitAndFieldResults : Prop :=
  (∀ (s : State) (c : Iss) (h : Head) (o1 o2 : Lop) (w64 : Bool) (d : Dst) (a b e : Src),
    let w := if w64 then 64 else 32
    let x := fun n => c.atW w64 1 a n
    (s.issuing (.lop3 h o1 o2 d a b e) = some c → ∃ t, exec (.lop3 h o1 o2 d a b e) s = .next t ∧ Makes t c (.lop3 h o1 o2 d a b e) fun n o =>
      ∃ r, o = out32 r (firstPoison [(c.at32 1 a n).2, (c.at32 2 b n).2, if o2 = .x then none else (c.at32 3 e n).2])
        ∧ ∀ j < 32, r.getLsbD j = lopBit o2 (lopBit o1 ((c.at32 1 a n).1.getLsbD j) ((c.at32 2 b n).1.getLsbD j))
            ((c.at32 3 e n).1.getLsbD j))
    ∧ (s.issuing (.popc h w64 d a) = some c → ∃ t, exec (.popc h w64 d a) s = .next t ∧ Makes t c (.popc h w64 d a) fun n o =>
      ∃ r, o = out32 r (x n).2 ∧ r.toNat = ∑ j ∈ Finset.range w, ((x n).1.getLsbD j).toNat)
    ∧ (s.issuing (.clz h w64 d a) = some c → ∃ t, exec (.clz h w64 d a) s = .next t ∧ Makes t c (.clz h w64 d a) fun n o =>
      ∃ r, o = out32 r (x n).2 ∧ r.toNat ≤ w ∧ (∀ j < w, w ≤ j + r.toNat → (x n).1.getLsbD j = false)
        ∧ (r.toNat < w → (x n).1.getLsbD (w - 1 - r.toNat) = true))
    ∧ (s.issuing (.brev h w64 d a) = some c → ∃ t, exec (.brev h w64 d a) s = .next t ∧ Makes t c (.brev h w64 d a) fun n o =>
      ∃ r, o = outW w64 r (x n).2 ∧ ∀ j < w, r.getLsbD j = (x n).1.getLsbD (w - 1 - j)))
  ∧ (∀ (s : State) (c : Iss) (h : Head) (sg three : Bool) (d : Dst) (a b e : Src),
    let x := fun n => c.at32 1 a n
    let y := fun n => c.at32 2 b n
    let z := fun n => c.at32 3 e n
    let pos := fun n => (y n).1.toNat % 256
    let len := fun n => (y n).1.toNat / 256 % 256
    let ways := if three then 3 else 2
    let each := if three then 10 else 16
    let ext := fun n (j : Nat) => if j < 32 then (x n).1.getLsbD j else sg && (x n).1.getLsbD 31
    (s.issuing (.bfx h sg d a b) = some c → ∃ t, exec (.bfx h sg d a b) s = .next t ∧ Makes t c (.bfx h sg d a b) fun n o =>
      ∃ r, o = out32 r (firstPoison [(x n).2, (y n).2]) ∧ ∀ j < 32, r.getLsbD j =
        if len n = 0 then false else if j < len n then ext n (min (pos n) 63 + j) else sg && ext n (min (pos n) 63 + (len n - 1)))
    ∧ (s.issuing (.bfi h d a b e) = some c → ∃ t, exec (.bfi h d a b e) s = .next t ∧ Makes t c (.bfi h d a b e) fun n o =>
      ∃ r, o = out32 r (firstPoison [(x n).2, (y n).2, (z n).2]) ∧ ∀ j < 32, r.getLsbD j =
        if pos n ≤ j ∧ j < pos n + len n then (x n).1.getLsbD (j - pos n) else (z n).1.getLsbD j)
    ∧ (s.issuing (.bil h three d a b e) = some c → ∃ t, exec (.bil h three d a b e) s = .next t ∧ Makes t c (.bil h three d a b e) fun n o =>
      ∃ r, o = out32 r (firstPoison [(x n).2, (y n).2, if three then (z n).2 else none]) ∧ ∀ j < 32, r.getLsbD j =
        if ways * each ≤ j then false
        else if j % ways = 0 then (x n).1.getLsbD (j / ways) else if j % ways = 1 then (y n).1.getLsbD (j / ways)
        else (z n).1.getLsbD (j / ways))
    ∧ (s.issuing (.bdil h three d a b) = some c → ∃ t, exec (.bdil h three d a b) s = .next t ∧ Makes t c (.bdil h three d a b) fun n o =>
      ∃ r, o = out32 r (firstPoison [(x n).2, (y n).2]) ∧ ∀ j < 32, r.getLsbD j =
        if each ≤ j then false else (x n).1.getLsbD (ways * j + (y n).1.toNat % ways))
    ∧ (s.issuing (.prmt h d a b e) = some c → ∃ t, exec (.prmt h d a b e) s = .next t ∧ Makes t c (.prmt h d a b e) fun n o =>
      ∃ r, o = out32 r (firstPoison [(x n).2, (y n).2, (z n).2]) ∧ ∀ k < 4, ∀ j < 8, r.getLsbD (8 * k + j) =
        let ctl := (z n).1.toNat / 2 ^ (8 * k)
        let bit := fun i => if ctl % 8 < 4 then (x n).1.getLsbD (8 * (ctl % 8) + i) else (y n).1.getLsbD (8 * (ctl % 8 - 4) + i)
        if ctl / 8 % 4 = 0 then bit j else if ctl / 8 % 4 = 1 then false else if ctl / 8 % 4 = 2 then bit 7 else bit (7 - j)))

/-- R366, R367, R447: after `CMP` the guards of Table 14.4 compare as signed or unsigned integers of the width, and `SEL` selects by a lane's
condition, with the selected operand's poison or the condition's own. -/
def Obligations.CompareSelectResults : Prop :=
  ∀ (s : State) (c : Iss) (h : Head) (ty : ITy) (cc : Cc) (d : Dst) (a : Src) (b : Opnd) (e f : Src),
    let x := fun n => c.atW ty.wide 1 a n
    let y := fun n => c.opndAt ty.wide b n
    let sx := fun n => if ty.wide then (x n).1.toInt else ((x n).1.setWidth 32).toInt
    let sy := fun n => if ty.wide then (y n).1.toInt else ((y n).1.setWidth 32).toInt
    (s.issuing (.cmp h ty d a b) = some c → ∃ t, exec (.cmp h ty d a b) s = .next t ∧ Makes t c (.cmp h ty d a b) fun n o =>
      o.poi = firstPoison [(x n).2, (y n).2] ∧ o.flg = 0#6 ∧ (o.poi = none →
        evalCc .eq o.flag.fl = decide (sx n = sy n) ∧ evalCc .lt o.flag.fl = decide (sx n < sy n)
        ∧ evalCc .lo o.flag.fl = decide ((x n).1.toNat < (y n).1.toNat)
        ∧ evalCc .mi o.flag.fl = (if ty.wide then ((x n).1 - (y n).1).msb else (((x n).1 - (y n).1).setWidth 32).msb)))
    ∧ (s.issuing (.sel h cc d a e f) = some c → ∃ t, exec (.sel h cc d a e f) s = .next t ∧ Makes t c (.sel h cc d a e f) fun n o =>
      let k := (c.g.creg f.idx.toNat).getD n flag0
      o.flg = 0#6 ∧ (k.poi = true → o.poi = some k.pay)
      ∧ (k.poi = false → evalCc cc k.fl = true → o = out32 (c.at32 1 a n).1 (c.at32 1 a n).2)
      ∧ (k.poi = false → evalCc cc k.fl = false → o = out32 (c.at32 2 e n).1 (c.at32 2 e n).2))

/-- R449, R450, R468: `SHFL` gives each lane the value of the lane that it names, if that one contributes, and else its fallback; `VOTE`
gives every contributing lane the count of a question to all of them. R422, R423: `LRED` combines the contributing lanes, and `LSCAN`
those at or below a lane, or with `.EXCL` below it: an integer operation as if from the left, with the identity of Table 17.7 for no lane;
and a scan whose lanes are those below a power of two gives what `LRED` gives, bit for bit, under every operation. -/
def Obligations.CrossLaneResults : Prop :=
  (∀ (s : State) (c : Iss) (h : Head) (m : ShflMode) (vm : VoteMode) (d : Dst) (a b e : Src),
    (s.issuing (.shfl h m d a b e) = some c → ∃ t, exec (.shfl h m d a b e) s = .next t ∧ Makes t c (.shfl h m d a b e) fun n o =>
      let sel := lane (c.src 2 b) n
      (sel.poi = true → o.poi = some sel.val)
      ∧ (sel.poi = false → ∀ k < 32, Mask.has c.on k = true →
          (k : Int) = (match m with
            | .idx => (sel.val.toNat : Int)
            | .up => (n : Int) - sel.val.toNat
            | .down => (n : Int) + sel.val.toNat
            | .xor => ((n ^^^ sel.val.toNat : Nat) : Int)) →
          o = out32 (c.at32 1 a k).1 (c.at32 1 a k).2)
      ∧ (sel.poi = false → (∀ k < 32, Mask.has c.on k = true →
          (k : Int) ≠ (match m with
            | .idx => (sel.val.toNat : Int)
            | .up => (n : Int) - sel.val.toNat
            | .down => (n : Int) + sel.val.toNat
            | .xor => ((n ^^^ sel.val.toNat : Nat) : Int))) →
          o = out32 (c.at32 3 e n).1 (c.at32 3 e n).2))
    ∧ (s.issuing (.vote h vm d a) = some c → ∃ t f w, exec (.vote h vm d a) s = .next t ∧ Sends t c (.vote h vm d a) f
      ∧ (∀ n < 32, Mask.has c.on n = true → (f n).vals = [w] ∧ (f n).flg = 0#6
          ∧ (∀ q, lowestPayload (c.src 1 a) c.on = some q → (f n).poi = some q)
          ∧ (lowestPayload (c.src 1 a) c.on = none → (∀ k < 32, Mask.has c.on k = true → c.gpoi.getD k none = none) → (f n).poi = none))
      ∧ (vm = .all → w = if ∀ k ∈ Mask.lanes c.on, (lane (c.src 1 a) k).val ≠ 0#32 then 1#32 else 0#32)
      ∧ (vm = .any → w = if ∃ k ∈ Mask.lanes c.on, (lane (c.src 1 a) k).val ≠ 0#32 then 1#32 else 0#32)
      ∧ (vm = .uni → w = if ∀ k ∈ Mask.lanes c.on, ∀ j ∈ Mask.lanes c.on, (lane (c.src 1 a) k).val = (lane (c.src 1 a) j).val
          then 1#32 else 0#32)
      ∧ (vm = .ballot → ∀ k < 32, w.getLsbD k = (Mask.has c.on k && decide ((lane (c.src 1 a) k).val ≠ 0#32)))))
  ∧ (∀ (s : State) (c : Iss) (h : Head) (op : LaneOp) (excl : Bool) (d : Dst) (a : Src),
    let x := c.src 1 a
    let fold := fun (l : List Nat) => l.foldl (fun w k => (laneOp op w (lane x k).val).1) (laneIdent op)
    let exact := op ≠ .fadd ∧ op ≠ .fmin ∧ op ≠ .fmax
    (s.issuing (.lred h op d a) = some c → ∃ t f w, exec (.lred h op d a) s = .next t ∧ Sends t c (.lred h op d a) f
      ∧ (∀ n < 32, Mask.has c.on n = true → (f n).vals = [w]
          ∧ (∀ q, lowestPayload x c.on = some q → (f n).poi = some q)
          ∧ (lowestPayload x c.on = none → (∀ k < 32, Mask.has c.on k = true → c.gpoi.getD k none = none) → (f n).poi = none))
      ∧ (exact → w = fold (Mask.lanes c.on))
      ∧ (∀ r, treeNode op x c.on 5 0 = some r → w = r.1))
    ∧ (s.issuing (.lscan h op excl d a) = some c → ∃ t, exec (.lscan h op excl d a) s = .next t ∧ Makes t c (.lscan h op excl d a) fun n o =>
      let top := if excl then n else n + 1
      (exact → o.vals = [fold ((Mask.lanes c.on).filter fun k => k < top)])
      ∧ (∀ j ≤ 5, top = 2 ^ j → ∀ r, treeNode op x c.on j 0 = some r → o.vals = [r.1])
      ∧ o.poi = lowestPayload x (c.on &&& Mask.of fun k => decide (k ≤ n))))


-- floating point

/-- R108, R110, R111: rounding a nonzero value once gives the finite value that the mode names, with the sign of the value, unless it
overflows; it is inexact exactly where the result differs. -/
def Obligations.RoundingIsCorrect : Prop :=
  ∀ (f : Fmt) (r : RM) (neg : Bool) (m : Nat) (e : Int), f ∈ [f32, f16, bf16, e5m2, e4m3, e2m1] → m ≠ 0 →
    let v := (Num.fin neg m e).rat
    let o := f.round r false false neg m e
    o.2 &&& flOF = 0#6 →
      f.Rounds r v o.1 ∧ f.neg o.1 = neg ∧ (o.2 &&& flNX = 0#6 ↔ f.rat o.1 = v)

/-- R108, R388, R394: quotients, roots, reciprocals and reciprocal roots of finite operands are correctly rounded. -/
def Obligations.QuotientsAndRootsAreCorrect : Prop :=
  ∀ (r : RM) (x y : Nat), f32.Finite x → f32.Finite y → f32.rat y ≠ 0 →
    (f32.rat x ≠ 0 → (rounded r false false [f32.num x, f32.num y] (divNum (f32.num x) (f32.num y))).2 &&& flOF = 0#6 →
      f32.Rounds r (f32.rat x / f32.rat y) (rounded r false false [f32.num x, f32.num y] (divNum (f32.num x) (f32.num y))).1)
    ∧ ((ffn32 .rcp false y).2 &&& flOF = 0#6 → f32.Rounds .rn (1 / f32.rat y) (ffn32 .rcp false y).1)
    ∧ (0 < f32.rat y →
      let w := (rounded r false false [f32.num y] (sqrtNum (f32.num y))).1
      let u := (ffn32 .rsq false y).1
      f32.Finite w ∧ 0 ≤ f32.rat w ∧ f32.Finite u ∧ 0 ≤ f32.rat u
      ∧ (r = .rd ∨ r = .rz → f32.rat w ^ 2 ≤ f32.rat y ∧ ∀ z, f32.Finite z → f32.rat w < f32.rat z → f32.rat y < f32.rat z ^ 2)
      ∧ (r = .ru → f32.rat y ≤ f32.rat w ^ 2 ∧ ∀ z, f32.Finite z → 0 ≤ f32.rat z → f32.rat z < f32.rat w → f32.rat z ^ 2 < f32.rat y)
      ∧ (r = .rn → ∀ z, f32.Finite z → 0 ≤ f32.rat z →
          (f32.rat w < f32.rat z → f32.rat y ≤ ((f32.rat w + f32.rat z) / 2) ^ 2)
          ∧ (f32.rat z < f32.rat w → ((f32.rat w + f32.rat z) / 2) ^ 2 ≤ f32.rat y))
      ∧ ∀ z, f32.Finite z → 0 ≤ f32.rat z →
          (f32.rat u < f32.rat z → 1 ≤ f32.rat y * ((f32.rat u + f32.rat z) / 2) ^ 2)
          ∧ (f32.rat z < f32.rat u → f32.rat y * ((f32.rat u + f32.rat z) / 2) ^ 2 ≤ 1))

/-- R108 to R116, R384, R385: `FADD`, `FMUL` and `FFMA` round the exact sum, product, or product and sum of their operands once, after
`NEG` and, under `FTZ`, the flush of subnormals; NaNs, infinities and zeros of opposite sign give what R109, R113 and R114 say. -/
def Obligations.FloatArithmeticResults : Prop :=
  ∀ (s : State) (c : Iss) (h : Head) (neg sat : Bool) (rnd : Rnd) (d : Dst) (a b e : Src),
    let ftz := c.g.csr.ftz
    let m := c.rm rnd
    let src := fun (k : Nat) (x : Src) (flipped : Bool) n => if flipped then (c.at32 k x n).1 ^^^ 0x80000000#32 else (c.at32 k x n).1
    let x := fun n => flush f32 ftz (src 1 a false n).toNat
    let y := fun n => flush f32 ftz (src 2 b neg n).toNat
    let y' := fun n => flush f32 ftz (src 2 b false n).toNat
    let z := fun n => flush f32 ftz (src 3 e neg n).toNat
    let N := fun k => f32.num k
    (s.issuing (.fadd h neg sat rnd d a b) = some c → ∃ t, exec (.fadd h neg sat rnd d a b) s = .next t
      ∧ Makes t c (.fadd h neg sat rnd d a b) fun n o =>
        let X := N (x n).1; let Y := N (y n).1
        o.poi = firstPoison [(c.at32 1 a n).2, (c.at32 2 b n).2] ∧ o.vals.length = 1
        ∧ (X.isNan || Y.isNan → o.vals = [0x7FC00000#32] ∧ o.flg.getLsbD 0 = (X.isSig || Y.isSig))
        ∧ (∀ k, X = .inf k → Y = .inf (!k) → o.vals = [0x7FC00000#32] ∧ o.flg.getLsbD 0 = true)
        ∧ (∀ k, (X = .inf k ∧ (Y = .inf k ∨ f32.Finite (y n).1)) ∨ (Y = .inf k ∧ f32.Finite (x n).1) →
            o.vals = [if sat then (if k then 0xFF7FFFFF#32 else 0x7F7FFFFF#32) else if k then 0xFF800000#32 else 0x7F800000#32])
        ∧ (f32.Finite (x n).1 → f32.Finite (y n).1 → X.rat + Y.rat ≠ 0 →
            RoundedTo f32 m sat ftz (X.rat + Y.rat) o.fp ((x n).2 ||| (y n).2))
        ∧ (f32.Finite (x n).1 → f32.Finite (y n).1 → X.rat + Y.rat = 0 →
            o.vals = [if (if X.neg = Y.neg then X.neg else m = .rd) then 0x80000000#32 else 0#32]))
    ∧ (s.issuing (.fmul h neg sat rnd d a b) = some c → ∃ t, exec (.fmul h neg sat rnd d a b) s = .next t
      ∧ Makes t c (.fmul h neg sat rnd d a b) fun n o =>
        let X := N (x n).1; let Y := N (y n).1
        o.poi = firstPoison [(c.at32 1 a n).2, (c.at32 2 b n).2] ∧ o.vals.length = 1
        ∧ (X.isNan || Y.isNan → o.vals = [0x7FC00000#32] ∧ o.flg.getLsbD 0 = (X.isSig || Y.isSig))
        ∧ ((X.isInf && Y.isZero) || (X.isZero && Y.isInf) → o.vals = [0x7FC00000#32] ∧ o.flg.getLsbD 0 = true)
        ∧ (f32.Finite (x n).1 → f32.Finite (y n).1 → X.rat * Y.rat ≠ 0 →
            RoundedTo f32 m sat ftz (X.rat * Y.rat) o.fp ((x n).2 ||| (y n).2))
        ∧ (f32.Finite (x n).1 → f32.Finite (y n).1 → X.rat * Y.rat = 0 →
            o.vals = [if X.neg = Y.neg then 0#32 else 0x80000000#32]))
    ∧ (s.issuing (.ffma h neg sat rnd d a b e) = some c → ∃ t, exec (.ffma h neg sat rnd d a b e) s = .next t
      ∧ Makes t c (.ffma h neg sat rnd d a b e) fun n o =>
        let X := N (x n).1; let Y := N (y' n).1; let Z := N (z n).1
        o.poi = firstPoison [(c.at32 1 a n).2, (c.at32 2 b n).2, (c.at32 3 e n).2] ∧ o.vals.length = 1
        ∧ (X.isNan || Y.isNan || Z.isNan → o.vals = [0x7FC00000#32])
        ∧ ((X.isInf && Y.isZero) || (X.isZero && Y.isInf) → o.vals = [0x7FC00000#32] ∧ o.flg.getLsbD 0 = true)
        ∧ (f32.Finite (x n).1 → f32.Finite (y' n).1 → f32.Finite (z n).1 → X.rat * Y.rat + Z.rat ≠ 0 →
            RoundedTo f32 m sat ftz (X.rat * Y.rat + Z.rat) o.fp ((x n).2 ||| (y' n).2 ||| (z n).2))
        ∧ (f32.Finite (x n).1 → f32.Finite (y' n).1 → f32.Finite (z n).1 → X.rat * Y.rat + Z.rat = 0 →
            o.vals = [if (if (X.neg != Y.neg) = Z.neg then Z.neg else m = .rd) then 0x80000000#32 else 0#32]))

/-- R115, R386, R387, R395: minimum, maximum and comparison order the values of their operands, −0 below +0 for the two choices and
equal to it for the comparison, a NaN giving way or leaving the operands unordered; `FCLASS` sets the one bit of the operand's class. -/
def Obligations.FloatCompareResults : Prop :=
  ∀ (s : State) (c : Iss) (h : Head) (d : Dst) (a b : Src),
    let ftz := c.g.csr.ftz
    let x := fun n => (flush f32 ftz (c.at32 1 a n).1.toNat).1
    let y := fun n => (flush f32 ftz (c.at32 2 b n).1.toNat).1
    let X := fun n => f32.num (x n)
    let Y := fun n => f32.num (y n)
    let below := fun n => (X n).place < (Y n).place ∨ ((X n).place = (Y n).place ∧ (X n).neg = true ∧ (Y n).neg = false)
    let above := fun n => (Y n).place < (X n).place ∨ ((X n).place = (Y n).place ∧ (X n).neg = false ∧ (Y n).neg = true)
    let common := fun (n : Nat) (o : LaneOut) => o.poi = firstPoison [(c.at32 1 a n).2, (c.at32 2 b n).2]
      ∧ o.flg.getLsbD 0 = ((X n).isSig || (Y n).isSig)
    (s.issuing (.fmin h d a b) = some c → ∃ t, exec (.fmin h d a b) s = .next t ∧ Makes t c (.fmin h d a b) fun n o => common n o
      ∧ ((X n).isNan → (Y n).isNan → o.vals = [0x7FC00000#32])
      ∧ ((X n).isNan → !(Y n).isNan → o.vals = [BitVec.ofNat 32 (y n)]) ∧ (!(X n).isNan → (Y n).isNan → o.vals = [BitVec.ofNat 32 (x n)])
      ∧ (!(X n).isNan → !(Y n).isNan → (below n → o.vals = [BitVec.ofNat 32 (x n)]) ∧ (above n → o.vals = [BitVec.ofNat 32 (y n)])))
    ∧ (s.issuing (.fmax h d a b) = some c → ∃ t, exec (.fmax h d a b) s = .next t ∧ Makes t c (.fmax h d a b) fun n o => common n o
      ∧ ((X n).isNan → (Y n).isNan → o.vals = [0x7FC00000#32])
      ∧ ((X n).isNan → !(Y n).isNan → o.vals = [BitVec.ofNat 32 (y n)]) ∧ (!(X n).isNan → (Y n).isNan → o.vals = [BitVec.ofNat 32 (x n)])
      ∧ (!(X n).isNan → !(Y n).isNan → (below n → o.vals = [BitVec.ofNat 32 (y n)]) ∧ (above n → o.vals = [BitVec.ofNat 32 (x n)])))
    ∧ (s.issuing (.fcmp h d a b) = some c → ∃ t, exec (.fcmp h d a b) s = .next t ∧ Makes t c (.fcmp h d a b) fun n o => common n o
      ∧ (o.poi = none →
        ((X n).isNan || (Y n).isNan → o.flag.fl = 3#4)
        ∧ (!(X n).isNan → !(Y n).isNan → ((X n).place < (Y n).place → o.flag.fl = 8#4) ∧ ((X n).place = (Y n).place → o.flag.fl = 6#4)
          ∧ ((Y n).place < (X n).place → o.flag.fl = 2#4))))
    ∧ (s.issuing (.fclass h d a) = some c → ∃ t, exec (.fclass h d a) s = .next t ∧ Makes t c (.fclass h d a) fun n o =>
      let w := (c.at32 1 a n).1.toNat
      let V := f32.num w
      let sub := f32.subnormal w
      o.poi = (c.at32 1 a n).2 ∧ o.flg = 0#6 ∧ ∃ k, o.vals = [1#32 <<< k] ∧ k < 10
        ∧ (k = 0 ↔ V = .inf true) ∧ (k = 7 ↔ V = .inf false) ∧ (k = 3 ↔ w = 0x80000000) ∧ (k = 4 ↔ w = 0)
        ∧ (k = 2 ↔ sub ∧ V.neg) ∧ (k = 5 ↔ sub ∧ V.neg = false) ∧ (k = 8 ↔ V.isSig) ∧ (k = 9 ↔ V.isNan ∧ V.isSig = false))

/-- R388, R394, R398, R399: rounding to an integral value, scaling by a power of two, quotient, root and the functions of Table 16.7, with
the special operands of their entries. -/
def Obligations.FloatFunctionResults : Prop :=
  ∀ (s : State) (c : Iss) (h : Head) (sat : Bool) (rnd : Rnd) (fn : FfnOp) (d : Dst) (a b : Src),
    let ftz := c.g.csr.ftz
    let m := c.rm rnd
    let raw := fun n => (c.at32 1 a n).1.toNat
    let x := fun n => (flush f32 ftz (raw n)).1
    let y := fun n => (flush f32 ftz (c.at32 2 b n).1.toNat).1
    let X := fun n => f32.num (x n)
    let Y := fun n => f32.num (y n)
    let big := fun (k : Bool) => if sat then (if k then 0xFF7FFFFF#32 else 0x7F7FFFFF#32) else if k then 0xFF800000#32 else 0x7F800000#32
    let zero := fun (k : Bool) => if k then 0x80000000#32 else 0#32
    (s.issuing (.frnd h sat rnd d a) = some c → ∃ t, exec (.frnd h sat rnd d a) s = .next t ∧ Makes t c (.frnd h sat rnd d a) fun n o =>
      let V := f32.num (raw n)
      o.poi = (c.at32 1 a n).2 ∧ (V.isNan → o.vals = [0x7FC00000#32] ∧ o.flg.getLsbD 0 = V.isSig)
      ∧ (∀ k, V = .inf k → o.vals = [big k])
      ∧ (f32.Finite (raw n) → f32.Finite o.fp.1 ∧ f32.neg o.fp.1 = f32.neg (raw n) ∧ ∃ z : ℤ, f32.rat o.fp.1 = z
        ∧ (o.flg = if (z : ℚ) = V.rat then 0#6 else flNX)
        ∧ match m with
          | .rd => z = ⌊V.rat⌋
          | .ru => z = ⌈V.rat⌉
          | .rz => |z| = ⌊|V.rat|⌋
          | .rn => |V.rat - z| ≤ 1 / 2 ∧ (|V.rat - z| = 1 / 2 → Even z)))
    ∧ (s.issuing (.fscale h sat rnd d a b) = some c → ∃ t, exec (.fscale h sat rnd d a b) s = .next t
      ∧ Makes t c (.fscale h sat rnd d a b) fun n o =>
      o.poi = firstPoison [(c.at32 1 a n).2, (c.at32 2 b n).2] ∧ ((X n).isNan → o.vals = [0x7FC00000#32])
      ∧ (∀ k, X n = .inf k → o.vals = [big k]) ∧ ((X n).isZero → o.vals = [zero (X n).neg])
      ∧ (f32.Finite (x n) → (X n).isZero = false → RoundedTo f32 m sat ftz ((X n).rat * 2 ^ (c.at32 2 b n).1.toInt) o.fp
          (flush f32 ftz (raw n)).2))
    ∧ (s.issuing (.fdiv h sat rnd d a b) = some c → ∃ t, exec (.fdiv h sat rnd d a b) s = .next t ∧ Makes t c (.fdiv h sat rnd d a b) fun n o =>
      let k := (X n).neg != (Y n).neg
      o.poi = firstPoison [(c.at32 1 a n).2, (c.at32 2 b n).2]
      ∧ ((X n).isNan || (Y n).isNan → o.vals = [0x7FC00000#32])
      ∧ (((X n).isZero && (Y n).isZero) || ((X n).isInf && (Y n).isInf) → o.vals = [0x7FC00000#32] ∧ o.flg.getLsbD 0 = true)
      ∧ (f32.Finite (x n) → (X n).isZero = false → (Y n).isZero → o.vals = [big k] ∧ o.flg.getLsbD 1 = true)
      ∧ ((X n).isInf → f32.Finite (y n) → o.vals = [big k])
      ∧ (f32.Finite (x n) → ((Y n).isInf ∨ ((X n).isZero ∧ f32.Finite (y n) ∧ (Y n).isZero = false)) → o.vals = [zero k])
      ∧ (ftz = false → f32.Finite (x n) → f32.Finite (y n) → (X n).isZero = false → (Y n).isZero = false →
          o.fp = rounded m sat false [X n, Y n] (divNum (X n) (Y n))))
    ∧ (s.issuing (.fsqrt h sat rnd d a) = some c → ∃ t, exec (.fsqrt h sat rnd d a) s = .next t ∧ Makes t c (.fsqrt h sat rnd d a) fun n o =>
      o.poi = (c.at32 1 a n).2 ∧ ((X n).isNan → o.vals = [0x7FC00000#32]) ∧ ((X n).isZero → o.vals = [zero (X n).neg])
      ∧ ((X n).isNan = false → (X n).isZero = false → (X n).neg → o.vals = [0x7FC00000#32] ∧ o.flg.getLsbD 0 = true)
      ∧ (X n = .inf false → o.vals = [big false])
      ∧ (ftz = false → f32.Finite (x n) → (X n).isZero = false → (X n).neg = false → o.fp = rounded m sat false [X n] (sqrtNum (X n))))
    ∧ (s.issuing (.ffn h fn d a) = some c → ∃ t, exec (.ffn h fn d a) s = .next t ∧ Makes t c (.ffn h fn d a) fun n o =>
      o.poi = (c.at32 1 a n).2 ∧ ((X n).isNan → o.vals = [0x7FC00000#32] ∧ o.flg.getLsbD 0 = (X n).isSig)
      ∧ (fn = .rcp → ((X n).isZero → o.vals = [if (X n).neg then 0xFF800000#32 else 0x7F800000#32] ∧ o.flg.getLsbD 1 = true)
          ∧ ((X n).isInf → o.vals = [zero (X n).neg]))
      ∧ (fn = .rsq → ((X n).isZero → o.vals = [if (X n).neg then 0xFF800000#32 else 0x7F800000#32] ∧ o.flg.getLsbD 1 = true)
          ∧ (X n = .inf false → o.vals = [0#32]))
      ∧ (fn = .rsq ∨ fn = .lg2 → (X n).isNan = false → (X n).isZero = false → (X n).neg → o.vals = [0x7FC00000#32] ∧ o.flg.getLsbD 0 = true)
      ∧ (fn = .ex2 → (X n = .inf true → o.vals = [0#32]) ∧ (X n = .inf false → o.vals = [0x7F800000#32]) ∧ ((X n).isZero → o.vals = [0x3F800000#32]))
      ∧ (fn = .lg2 → ((X n).isZero → o.vals = [0xFF800000#32] ∧ o.flg.getLsbD 1 = true) ∧ (X n = .inf false → o.vals = [0x7F800000#32])
          ∧ (x n = 0x3F800000 → o.vals = [0#32]))
      ∧ (fn = .sin ∨ fn = .cos → (X n).isInf → o.vals = [0x7FC00000#32] ∧ o.flg.getLsbD 0 = true)
      ∧ (fn = .sin → (X n).isZero → o.vals = [zero (X n).neg]) ∧ (fn = .cos → (X n).isZero → o.vals = [0x3F800000#32])
      ∧ (fn = .tanh → ((X n).isInf → o.vals = [if (X n).neg then 0xBF800000#32 else 0x3F800000#32]) ∧ ((X n).isZero → o.vals = [zero (X n).neg]))
      ∧ (fn = .sigm → (X n = .inf true → o.vals = [0#32]) ∧ (X n = .inf false → o.vals = [0x3F800000#32]) ∧ ((X n).isZero → o.vals = [0x3F000000#32]))
      ∧ o.fp.1 = (ffn32 fn ftz (x n)).1)

/-- R103, R379, R382, R389, R437: `CVT` converts each element, integers by wrapping or clamping, values by one rounding; `PFMA` and
`FDOT2` round an exact sum of products once; the integer `DOT4` sums products modulo 2^32 and its other form rounds the exact sum once. -/
def Obligations.ConversionAndDotResults : Prop :=
  ∀ (s : State) (c : Iss) (h : Head) (bf neg sat : Bool) (rnd : Rnd) (ds sr : CvtTy) (ta tb : DotTy) (d : Dst) (a b e : Src),
    let ftz := c.g.csr.ftz
    let m := c.rm rnd
    let p3 := fun n => firstPoison [(c.at32 1 a n).2, (c.at32 2 b n).2, (c.at32 3 e n).2]
    (s.issuing (.cvt h sat rnd ds sr d a) = some c → ∃ t, exec (.cvt h sat rnd ds sr d a) s = .next t
      ∧ Makes t c (.cvt h sat rnd ds sr d a) fun n o =>
        (ds = .mx → o.poi = lowestPayload (c.src 1 a) c.on ∧ ∀ f, cvtFmt sr = some f →
          (∃ k < 32, Mask.has c.on k ∧ ¬ f.Finite ((lane (c.src 1 a) k).val.toNat % 2 ^ f.width)) → o.vals = [0xFF00#32])
        ∧ (ds ≠ .mx → o.vals.length = cvtSpan ds sr ds ∧ ∀ i < cvtCount ds sr,
          let x := ((lane (c.srcK 1 a (i * sr.bits / 32)) n).val.toNat / 2 ^ (i * sr.bits % 32)
            + (if sr.bits = 64 then (lane (c.srcK 1 a (i * 2 + 1)) n).val.toNat * 2 ^ 32 else 0)) % 2 ^ sr.bits
          let r := ((o.vals.getD (i * ds.bits / 32) 0#32).toNat / 2 ^ (i * ds.bits % 32)
            + (if ds.bits = 64 then (o.vals.getD (i * 2 + 1) 0#32).toNat * 2 ^ 32 else 0)) % 2 ^ ds.bits
          let z := if cvtSigned sr && x.testBit (sr.bits - 1) then (x : ℤ) - 2 ^ sr.bits else x
          (cvtFmt sr = none → cvtFmt ds = none → sat = false → (r : ℤ) = z % 2 ^ ds.bits)
          ∧ (cvtFmt sr = none → cvtFmt ds = none → sat = true → (r : ℤ) = max (cvtLo ds) (min (cvtHi ds) z) % 2 ^ ds.bits)
          ∧ (∀ f, cvtFmt sr = none → cvtFmt ds = some f → z ≠ 0 → ∃ fl, RoundedTo f m sat false z (r, fl) 0#6)
          ∧ (∀ f, cvtFmt sr = some f → cvtFmt ds = none → (f.num x).isNan → r = 0)
          ∧ (∀ f k, cvtFmt sr = some f → cvtFmt ds = none → f.num x = .inf k → (r : ℤ) = (if k then cvtLo ds else cvtHi ds) % 2 ^ ds.bits)
          ∧ (∀ f, cvtFmt sr = some f → cvtFmt ds = none → f.Finite x → m = .rz →
              (r : ℤ) = max (cvtLo ds) (min (cvtHi ds) (if 0 ≤ (f.num x).rat then ⌊(f.num x).rat⌋ else ⌈(f.num x).rat⌉)) % 2 ^ ds.bits)
          ∧ (∀ f g, cvtFmt sr = some f → cvtFmt ds = some g → (f.num x).isNan → r = g.qnan)
          ∧ (∀ f g, cvtFmt sr = some f → cvtFmt ds = some g → f.Finite x → f.rat x ≠ 0 → ∃ fl, RoundedTo g m sat false (f.rat x) (r, fl) 0#6)))
    ∧ (s.issuing (.pfma h bf neg sat rnd d a b e) = some c → ∃ t, exec (.pfma h bf neg sat rnd d a b e) s = .next t
      ∧ Makes t c (.pfma h bf neg sat rnd d a b e) fun n o => o.poi = p3 n ∧ o.vals.length = 1 ∧ ∀ i < 2,
        let f := fmt16 bf
        let x := flush f ftz ((c.at32 1 a n).1.toNat / 2 ^ (16 * i) % 65536)
        let y := flush f ftz ((c.at32 2 b n).1.toNat / 2 ^ (16 * i) % 65536)
        let z := flush f ftz (((c.at32 3 e n).1.toNat / 2 ^ (16 * i) % 65536) ^^^ (if neg then 0x8000 else 0))
        let r := (o.vals.headD 0#32).toNat / 2 ^ (16 * i) % 65536
        let v := f.rat x.1 * f.rat y.1 + f.rat z.1
        ((f.num x.1).isNan || (f.num y.1).isNan || (f.num z.1).isNan → r = f.qnan)
        ∧ (f.Finite x.1 → f.Finite y.1 → f.Finite z.1 → v ≠ 0 → ∃ fl, RoundedTo f m sat ftz v (r, fl) 0#6 ∧ fl ||| o.flg = o.flg))
    ∧ (s.issuing (.fdot2 h bf neg sat rnd d a b e) = some c → ∃ t, exec (.fdot2 h bf neg sat rnd d a b e) s = .next t
      ∧ Makes t c (.fdot2 h bf neg sat rnd d a b e) fun n o => o.poi = p3 n ∧ o.vals.length = 1 ∧
        let f := fmt16 bf
        let x := fun i => (flush f ftz ((c.at32 1 a n).1.toNat / 2 ^ (16 * i) % 65536)).1
        let y := fun i => (flush f ftz ((c.at32 2 b n).1.toNat / 2 ^ (16 * i) % 65536)).1
        let z := (flush f32 ftz (if neg then (c.at32 3 e n).1 ^^^ 0x80000000#32 else (c.at32 3 e n).1).toNat).1
        let v := f.rat (x 0) * f.rat (y 0) + f.rat (x 1) * f.rat (y 1) + f32.rat z
        ((f.num (x 0)).isNan || (f.num (x 1)).isNan || (f.num (y 0)).isNan || (f.num (y 1)).isNan || (f32.num z).isNan →
          o.vals = [0x7FC00000#32])
        ∧ (f.Finite (x 0) → f.Finite (x 1) → f.Finite (y 0) → f.Finite (y 1) → f32.Finite z → v ≠ 0 →
            ∃ fl, RoundedTo f32 m sat ftz v (o.fp.1, fl) 0#6))
    ∧ (s.issuing (.dot4 h ta tb d a b e) = some c → ∃ t, exec (.dot4 h ta tb d a b e) s = .next t
      ∧ Makes t c (.dot4 h ta tb d a b e) fun n o => o.poi = p3 n ∧
        let x := fun i => (c.at32 1 a n).1.toNat / 2 ^ (8 * i) % 256
        let y := fun i => (c.at32 2 b n).1.toNat / 2 ^ (8 * i) % 256
        let z := (c.at32 3 e n).1
        let sx := fun (t : DotTy) (k : Nat) => if t = .s8 ∧ 128 ≤ k then (k : ℤ) - 256 else k
        (ta.float = false → o = out32 (BitVec.ofInt 32 (sx ta (x 0) * sx tb (y 0) + sx ta (x 1) * sx tb (y 1) + sx ta (x 2) * sx tb (y 2)
            + sx ta (x 3) * sx tb (y 3) + z.toNat)) (p3 n))
        ∧ (ta.float = true → (∃ i < 4, ((dotFmt ta).num (x i)).isNan ∨ ((dotFmt tb).num (y i)).isNan) ∨ (f32.num z.toNat).isNan →
            o.vals = [0x7FC00000#32])
        ∧ (ta.float = true → (∀ i < 4, (dotFmt ta).Finite (x i) ∧ (dotFmt tb).Finite (y i)) → f32.Finite z.toNat →
            let v := (dotFmt ta).rat (x 0) * (dotFmt tb).rat (y 0) + (dotFmt ta).rat (x 1) * (dotFmt tb).rat (y 1)
              + (dotFmt ta).rat (x 2) * (dotFmt tb).rat (y 2) + (dotFmt ta).rat (x 3) * (dotFmt tb).rat (y 3) + f32.rat z.toNat
            v ≠ 0 → ∃ fl, RoundedTo f32 (rmOf c.g.csr.rm) false false v (o.fp.1, fl) 0#6))

/-- R162, R163, R256, R333, R368, R376: the poison instructions read a source's poison as data and never spread it; `CNTR` reads a counter
of the group at issue, and `CSRR` a CSR. R96, R106, R107, R377: `CSRW` writes the CSR that it names, outside trap addresses that are no
multiple of 4, which raise `MISALIGN`: `STALE` and `FPFLG` bits are cleared by 1s, `EJTH` saturates at 8; it writes no other CSR. -/
def Obligations.PoisonCounterAndCsr : Prop :=
  (∀ (s : State) (c : Iss) (h : Head) (d : Dst) (a b : Src) (k : CtrCls) (csr : BitVec 12),
    let x := fun n => lane (c.src 1 a) n
    (s.issuing (.ptst h d a) = some c → ∃ t f, exec (.ptst h d a) s = .next t ∧ Sends t c (.ptst h d a) f
      ∧ ∀ n, (f n).poi = none ∧ (f n).flg = 0#6
        ∧ (d.cls = .cf → (f n).flag.fl = if (x n).poi then 1#4 else 4#4)
        ∧ (d.cls ≠ .cf → (f n).vals = [if (x n).poi then (x n).val else 0#32]))
    ∧ (s.issuing (.pset h d a) = some c → ∃ t f, exec (.pset h d a) s = .next t ∧ Sends t c (.pset h d a) f
      ∧ ∀ n, ((x n).poi = true → (f n).poi = some (x n).val)
        ∧ ((x n).poi = false → ∃ w, (f n).poi = some w ∧ w.extractLsb' 0 28 = (x n).val.extractLsb' 0 28
          ∧ w.extractLsb' 28 4 = if 1 ≤ (x n).val.toNat / 2 ^ 28 ∧ (x n).val.toNat / 2 ^ 28 ≤ 9 then (x n).val.extractLsb' 28 4
              else PCause.data.code))
    ∧ (s.issuing (.pclr h d a b) = some c → ∃ t f, exec (.pclr h d a b) s = .next t ∧ Sends t c (.pclr h d a b) f
      ∧ ∀ n, ((x n).poi = false → f n = out32 (x n).val none)
        ∧ ((x n).poi = true → f n = out32 (lane (c.src 2 b) n).val (if (lane (c.src 2 b) n).poi then some (lane (c.src 2 b) n).val else none)))
    ∧ (s.issuing (.cntr h k d) = some c → ∃ t, exec (.cntr h k d) s = .next t
      ∧ Makes t c (.cntr h k d) fun _ o => o = out32 (BitVec.ofNat 32 (c.g.counter k)) none)
    ∧ (s.issuing (.csrr h d csr) = some c → ∃ t, exec (.csrr h d csr) s = .next t
      ∧ Makes t c (.csrr h d csr) fun _ o => o.poi = none
        ∧ (csr = 0#12 → o.vals.headD 0#32 = (BitVec.ofBool c.g.csr.stale).setWidth 32 ||| (BitVec.ofBool c.g.csr.tmode).setWidth 32 <<< 1
            ||| c.g.csr.sidx.setWidth 32 <<< 4)
        ∧ (csr = 2#12 → o.vals = [c.g.csr.tcause.setWidth 32]) ∧ (csr = 5#12 → o.vals = [c.g.csr.fpflg.setWidth 32])
        ∧ (csr = 3#12 → o.vals = [c.g.csr.tpc.setWidth 32, (c.g.csr.tpc >>> 32).setWidth 32])
        ∧ (csr = 4#12 → o.vals = [c.g.csr.taddr.setWidth 32, (c.g.csr.taddr >>> 32).setWidth 32])
        ∧ (0x100 ≤ csr.toNat → c.g.kernel = false → o.vals = [0#32])))
  ∧ (∀ (s : State) (c : Iss) (h : Head) (csr : BitVec 12) (a : Src),
    let v := if csr = 1#12 ∨ csr = 3#12 then (c.pairAt 1 a 0).1 else (lane (c.src 1 a) 0).val.setWidth 64
    s.issuing (.csrw h csr a) = some c → acts c (.csrw h csr a) = true → Clean c (.csrw h csr a) →
      ((csr = 1#12 ∨ csr = 3#12 → v.toNat % 4 = 0) → csr.toNat < 0x100 →
        ∃ t g, exec (.csrw h csr a) s = .next t ∧ SameButIssue s t ∧ t.groups.find s.cur = some g ∧ SameRegs c.g g
          ∧ (csr = 0#12 → g.csr.stale = ((c.g.csr.stale || (staleField c (.csrw h csr a)).isSome) && !v.getLsbD 0))
          ∧ (csr ≠ 0#12 → g.csr.stale = (c.g.csr.stale || (staleField c (.csrw h csr a)).isSome))
          ∧ g.csr.tvec = (if csr = 1#12 then v.setWidth 57 else c.g.csr.tvec) ∧ g.csr.tpc = (if csr = 3#12 then v.setWidth 57 else c.g.csr.tpc)
          ∧ g.csr.fpflg = (if csr = 5#12 then c.g.csr.fpflg &&& ~~~ v.setWidth 6 else c.g.csr.fpflg)
          ∧ g.csr.rm = (if csr = 6#12 then v.setWidth 2 else c.g.csr.rm) ∧ g.csr.ftz = (if csr = 6#12 then v.getLsbD 2 else c.g.csr.ftz)
          ∧ g.csr.ejth = (if csr = 7#12 then min 8 (v.toNat % 2 ^ 32) else c.g.csr.ejth)
          ∧ g.csr.chk = (if csr = 8#12 then v.getLsbD 0 else c.g.csr.chk)
          ∧ g.csr.prio = (if csr = 9#12 then min (s.ceilOf c.g) (v.toNat % 2 ^ 32) else c.g.csr.prio)
          ∧ g.csr.tmode = c.g.csr.tmode ∧ g.csr.tcause = c.g.csr.tcause ∧ g.csr.taddr = c.g.csr.taddr ∧ g.csr.vid = c.g.csr.vid)
      ∧ (∀ g, (csr = 1#12 ∨ csr = 3#12) → v.toNat % 4 ≠ 0 → s.issuer = some g → CanTrap g →
        ∃ t, exec (.csrw h csr a) s = .next t ∧ Trapped s t s.cur g 5#4 v c.pc c.act)
      ∧ (0x100 ≤ csr.toNat → ∃ t, exec (.csrw h csr a) s = .next t ∧ t.agenda = s.agenda ++ [.systemCsrWrite (Config.firmwareCsr csr) 8 v]))

-- control

/-- R67, R331, R356, R361: `BRA` and `CALL` move the Active threads to the address `12 × offset` bytes from their own, no earlier than 4
clocks on; `CALL` sends the address behind it as a pair. R331, R360, R443: `BRX` and `RET` move each Active thread to its own target; a
target that is no multiple of 4 raises `MISALIGN`, with the target of the lowest such lane in `TADDR`, and no thread moves. -/
def Obligations.BranchesMoveThreads : Prop :=
  (∀ (s : State) (c : Iss) (h : Head) (d : Dst) (off : BitVec 24),
    let target := c.pc + off.signExtend 57 * 12#57
    let moved := fun (t : State) => ∃ g, t.groups.find s.cur = some g ∧ SameRegs c.g g ∧ s.now + 4 ≤ g.ready ∧ ∀ n < 32,
      (g.th n).st = (c.g.th n).st ∧ (g.th n).mr = (c.g.th n).mr
        ∧ (g.th n).pc = if Mask.has c.act n then target else (c.g.th n).pc
    (s.issuing (.bra h off) = some c → acts c (.bra h off) = true → ∃ t, exec (.bra h off) s = .next t ∧ SameButIssue s t ∧ moved t)
    ∧ (s.issuing (.call h d off) = some c → ∃ t, exec (.call h d off) s = .next t ∧ SameButIssue s t ∧ moved t
      ∧ Makes t c (.call h d off) fun _ o => o = outW true ((c.pc + 12#57).setWidth 64) none))
  ∧ (∀ (s : State) (c : Iss) (h : Head) (a : Src) (i : Instr), i = .brx h a ∨ i = .ret h a →
    let f := fun n => (c.pairAt 1 a n).1
    s.issuing i = some c → acts c i = true → Clean c i →
      ((∀ n < 32, Mask.has c.act n = true → (f n).toNat % 4 = 0 ∧ (f n).toNat < 2 ^ 57) → ∃ t, exec i s = .next t ∧ SameButIssue s t
        ∧ ThreadsNow t s.cur c.g fun n th => th.st = (c.g.th n).st
            ∧ th.pc = if Mask.has c.act n then (f n).setWidth 57 else (c.g.th n).pc)
      ∧ (∀ k < 32, CanTrap c.g → Mask.has c.act k = true → (f k).toNat % 4 ≠ 0 →
          (∀ n < k, Mask.has c.act n = true → (f n).toNat % 4 = 0) → ∃ g, s.issuer = some g ∧
          ∃ t, exec i s = .next t ∧ Trapped s t s.cur g 5#4 (f k) c.pc c.act))

/-- R31, R32, R357, R358: `BRD` gives every Active thread the meeting point as `MR`, its old `MR` to D, and moves the threads whose guard is
true to the target and the others on. With `EJTH` 0 no thread is ejected. With room on the helper, a minority of at most `EJTH` threads,
those that do not branch when the two are as many, goes on as continuations of their own, and is counted in the join counter. -/
def Obligations.DivergentBranch : Prop :=
  ∀ (s : State) (c : Iss) (h : Head) (d : Dst) (meet : BitVec 12) (off : BitVec 24),
    let x := mrOf (s.entryOf c.g) (c.pc + meet.signExtend 57 * 12#57)
    let notTaken := c.act &&& ~~~ c.on
    let minor := if countOf notTaken ≤ countOf c.on then notTaken else c.on
    s.issuing (.brd h d meet off) = some c → Clean c (.brd h d meet off) →
      (c.g.csr.ejth = 0 → (∀ p, c.g.cont = some p → p.1 ≠ s.cur) → ∃ t g, exec (.brd h d meet off) s = .next t ∧ t.groups.find s.cur = some g
        ∧ ((∀ n < 32, (c.g.th n).st ≠ .held) → SameRegs c.g g)
        ∧ (∀ n < 32, (c.g.th n).st ≠ .held → g.th n = if Mask.has c.act n then
            { g.th n with mr := x, st := (c.g.th n).st, pc := if Mask.has c.on n then c.pc + off.signExtend 57 * 12#57 else c.pc + 12#57 }
          else { g.th n with mr := (c.g.th n).mr, st := (c.g.th n).st, pc := (c.g.th n).pc })
        ∧ (d.nwb = false → ∃ L y, c.t < L ∧ (⟨L, .wv d.idx.toNat c.act y⟩ : Pend) ∈ g.pend
            ∧ ∀ n < 32, Mask.has c.act n = true → lane y n = ⟨(c.g.th n).mr, false⟩))
      ∧ (c.g.cont = none → ∀ k < 32, (c.g.th k).st = .held → c.g.join = 0 ∨ c.g.joinAddr ≠ mrOf (s.entryOf c.g) (c.g.th k).pc → c.g.csr.ejth = 0 →
          mrOf (s.entryOf c.g) (c.g.th k).pc ≠ x → Mask.has c.act k = false →
          (∀ n < 32, (c.g.th n).st = .exited ∨ Mask.has c.act n = true ∨ ((c.g.th n).st = .held ∧ (c.g.th n).pc = (c.g.th k).pc)) →
        ∃ t g, exec (.brd h d meet off) s = .next t ∧ t.groups.find s.cur = some g
          ∧ (g.th k).st = .run ∧ (g.th k).pc = (c.g.th k).pc + 12#57 ∧ (g.th k).mr = (c.g.th k).nmr)
      ∧ (c.g.cont = none → c.g.csr.tmode = false → c.g.csr.ejth ≠ 0 → c.g.join = 0 → c.on ≠ 0#32 → notTaken ≠ 0#32 →
          countOf minor ≤ c.g.csr.ejth → countOf minor + s.landed.helperUse c.g.frame (c.g.rod / 4) ≤ Config.helperSlots → s.cur < Config.contBase →
        ∃ t g, exec (.brd h d meet off) s = .next t ∧ t.groups.find s.cur = some g ∧ g.join = countOf minor ∧ g.joinAddr = x
          ∧ ∀ n < 32, Mask.has minor n = true → (g.th n).st = .ejected
            ∧ ∃ k e, t.groups.find k = some e ∧ e.cont = some (s.cur, n) ∧ (e.th n).st = .run ∧ (e.th n).mr = x
              ∧ (e.th n).pc = (if Mask.has c.on n then c.pc + off.signExtend 57 * 12#57 else c.pc + 12#57)
              ∧ ∀ m < 32, m ≠ n → (e.th m).st = .exited)

/-- R39, R40, R425, R426: at a `MEET` the threads whose `MR` names it hold, with the `MR` that FA supplies, while another thread that runs has
that `MR`; once none has and no continuation is out, they go on behind the `MEET` with the supplied `MR`. -/
def Obligations.MeetHoldsAndReleases : Prop :=
  ∀ (s : State) (c : Iss) (h : Head) (a : Src),
    let x := mrOf (s.entryOf c.g) c.pc
    let m := Mask.of fun n => Mask.has c.on n && (c.g.th n).mr = x
    s.issuing (.meet h a) = some c → acts c (.meet h a) = true → Clean c (.meet h a) → c.g.cont = none →
      ((∃ n < 32, Mask.has m n = false ∧ (c.g.th n).st = .run ∧ (c.g.th n).mr = x) → ∃ t g, exec (.meet h a) s = .next t
        ∧ t.groups.find s.cur = some g ∧ ∀ n < 32, Mask.has m n = true →
          (g.th n).st = .held ∧ (g.th n).pc = c.pc ∧ (g.th n).nmr = (lane (c.src 1 a) n).val)
      ∧ (m ≠ 0#32 → c.g.join = 0 → (∀ n < 32, Mask.has m n = false → (c.g.th n).st = .exited ∨ ((c.g.th n).mr ≠ x ∧ (c.g.th n).st ≠ .held)) →
        ∃ t g, exec (.meet h a) s = .next t ∧ t.groups.find s.cur = some g ∧ g.q = [] ∧ g.o = [] ∧ g.hm = 0#4 ∧ ∀ n < 32, Mask.has m n = true →
          (g.th n).st = .run ∧ (g.th n).pc = c.pc + 12#57 ∧ (g.th n).mr = (lane (c.src 1 a) n).val)

/-- R37, R45, R383: `EXIT` ends the Active, guard-true threads; when none is left, the group's retirement is due. A continuation that exits
returns its thread to its group as EXITED, and is gone. -/
def Obligations.ExitEndsThreads : Prop :=
  ∀ (s : State) (c : Iss) (h : Head), s.issuing (.exit h) = some c → acts c (.exit h) = true →
    (c.g.cont = none → ∃ t g, exec (.exit h) s = .next t ∧ t.groups.find s.cur = some g
      ∧ (∀ n < 32, Mask.has c.on n = true → (g.th n).st = .exited)
      ∧ (∀ n < 32, Mask.has c.on n = false → (c.g.th n).st = .run → (g.th n).st = .run))
    ∧ (∀ p ln, c.g.cont = some (p, ln) → p ≠ s.cur → s.Inv → (∃ g, s.groups.find p = some g) →
      ∃ t, exec (.exit h) s = .next t ∧ t.groups.find s.cur = none ∧ ∃ g, t.groups.find p = some g ∧ (ln < 32 → (g.th ln).st = .exited))

/-- R162, R178, R179, R350, R453, R454, R469: `BAR` enters the group among the arrivals of its barrier, `SSTEP` holds it until it has drained,
`SLEEP` holds it for the clocks that it names, and `WAITC` lets it go on when the counter is at most n, and else holds it. -/
def Obligations.WaitsBegin : Prop :=
  ∀ (s : State) (c : Iss) (h : Head) (n : BitVec 3) (k : CtrCls) (a : Src) (tm : Team),
    (s.issuing (.bar h n) = some c → acts c (.bar h n) = true → pendingOf s c (.bar h n) = [] → s.teams.find c.g.team = some tm →
      ∃ t tm', exec (.bar h n) s = .next t ∧ t.teams.find c.g.team = some tm'
        ∧ tm'.bars.find n.toNat = some ⟨(tm.bars.findD n.toNat ⟨[], false⟩).arrived ++ [(s.cur, h.hint.sbs)], (tm.bars.findD n.toNat ⟨[], false⟩).parity⟩)
    ∧ (∀ nd, s.issuing (.sstep h) = some c → acts c (.sstep h) = true → c.nd = some nd → nd.eff.gang = true →
      ∃ t g, exec (.sstep h) s = .next t ∧ t.groups.find s.cur = some g ∧ SameRegs c.g g ∧ g.hold = .sstep false
        ∧ t.agenda = s.agenda ++ [.sstepArrive s.cur])
    ∧ (s.issuing (.sleep h a) = some c → acts c (.sleep h a) = true → (lane (c.src 1 a) 0).poi = false →
      let w := min (lane (c.src 1 a) 0).val.toNat 1048575
      ∃ t g, exec (.sleep h a) s = .next t ∧ t.groups.find s.cur = some g ∧ SameRegs c.g g ∧ g.hold = .sleep (s.now + 1 + w)
        ∧ (s.now + 1 + w, .sleepExpiry s.cur) ∈ t.timers)
    ∧ (s.issuing (.waitc h k a) = some c → acts c (.waitc h k a) = true → Clean c (.waitc h k a) →
      let w := (lane (c.src 1 a) 0).val.toNat
      (c.g.counter k ≤ w → c.g.deferredOf k = none → ∃ t g, exec (.waitc h k a) s = .next t ∧ SameButIssue s t
        ∧ t.groups.find s.cur = some g ∧ SameRegs c.g g ∧ g.hold = c.g.hold)
      ∧ (w < c.g.counter k → ∃ t g, exec (.waitc h k a) s = .next t ∧ SameButIssue s t
        ∧ t.groups.find s.cur = some g ∧ SameRegs c.g g ∧ g.hold = .waitc k w c.pc c.act))

/-- R178, R179, R350, R453, R454, R469: the ends of these waits. A barrier at which every group that it awaits has arrived empties, and in that clock the
scoreboards that they named clear; a drained group arrives at the superstep, and when all have, every one goes on; a sleep ends at its
clock; a `WAITC` ends when the counter has fallen to n. -/
def Obligations.WaitsEnd : Prop :=
  ∀ (s : State) (g : Group) (gid tk bar : Nat) (tm : Team) (nk : Nat) (nd : Node),
    (∀ p l q, s.teams.find tk = some tm → tm.bars.find bar = some ⟨p :: l, q⟩ → tm.allArrived bar = true →
      ∃ t tm', exec (.barrierRelease tk bar) s = .next t
      ∧ t.teams.find tk = some tm' ∧ tm'.bars.find bar = some ⟨[], !q⟩
      ∧ ∀ k b, (k, b) ∈ p :: l → b ≠ 0#3 → ∀ e, s.groups.find k = some e → ∃ e', t.groups.find k = some e'
          ∧ e'.sb &&& 1#6 <<< (b.toNat - 1) = 0#6 ∧ SameRegs e e')
    ∧ (s.groups.find gid = some g → g.hold = .sstep false → s.drained gid g = true → s.teams.find g.team = some tm → s.nodes.find tm.node = some nd →
      ∃ t g' nd', exec (.sstepArrive gid) s = .next t ∧ t.groups.find gid = some g' ∧ g'.hold = .sstep true
        ∧ t.nodes.find tm.node = some nd' ∧ nd'.sarrive = nd.sarrive ++ [gid])
    ∧ (s.nodes.find nk = some nd → s.superstepOver nk nd = true → nd.eff.paired = false → ∃ t nd', exec (.superstepRelease nk) s = .next t
      ∧ t.nodes.find nk = some nd' ∧ nd'.sarrive = [] ∧ nd'.sstep = nd.sstep + 1
      ∧ ∀ k ∈ nd.sarrive, ∀ e, s.groups.find k = some e → ∃ e', t.groups.find k = some e' ∧ e'.hold = .none ∧ SameRegs e e')
    ∧ (∀ w, s.groups.find gid = some g → g.hold = .sleep w → w ≤ s.now → ∃ t, exec (.sleepExpiry gid) s = .next t
      ∧ t.groups.find gid = some { g with hold := .none } ∧ ∀ k, k ≠ gid → t.groups.find k = s.groups.find k)
    ∧ (∀ k w pc m, s.groups.find gid = some g → g.hold = .waitc k w pc m → g.counter k ≤ w → g.deferredOf k = none →
      ∃ t g', exec (.waitcSatisfied gid) s = .next t ∧ t.groups.find gid = some g' ∧ SameRegs g g' ∧ g'.hold = .none ∧ s.now ≤ g'.ready)

-- traps

/-- R270, R272, R466: `TRAP` takes `BRK`, with its code in `TADDR` and the address behind it in `TPC`. R274, R275, R276: a trap in trap
mode, or without a handler, is fatal: the group issues nothing more and its context is halting. -/
def Obligations.TrapInstructionTraps : Prop :=
  (∀ (s : State) (c : Iss) (g : Group) (h : Head) (code : BitVec 12),
    s.issuing (.trap h code) = some c → acts c (.trap h code) = true → s.issuer = some g → CanTrap g →
    ∃ t, exec (.trap h code) s = .next t ∧ Trapped s t s.cur g 13#4 (code.setWidth 64) (c.pc + 12#57) c.act)
  ∧ (∀ (s : State) (c : Iss) (g : Group) (h : Head) (code : BitVec 12) (x : Ctx),
    s.issuing (.trap h code) = some c → acts c (.trap h code) = true → s.issuer = some g → g.cont = none →
    (g.csr.tmode = true ∨ g.csr.tvec = 0#57) → s.ctxs.find (s.ctxOf g) = some x → x.run = .resident →
    ∃ t g' x', exec (.trap h code) s = .next t ∧ t.groups.find s.cur = some g' ∧ g'.hold = .dead ∧ SameRegs g g' ∧ g'.csr = g.csr
      ∧ t.ctxs.find (s.ctxOf g) = some x' ∧ x'.run = .halting)

/-- R84, R95, R255, R270, R338: an instruction that fails a check of its issue traps precisely: `PRIV` first, then `ALLOC` with the field and
its slot, `STALE` under `CHK`, and the poison of a uniform guard; registers and memory stay as they are. -/
def Obligations.FailedChecksTrap : Prop :=
  ∀ (s : State) (c : Iss) (g : Group) (i : Instr), s.issuer = some g → s.reaching i = some c → CanTrap g → i.isWord = true →
    (privFail c i = true → ∃ t, exec i s = .next t ∧ Trapped s t s.cur g 6#4 0#64 c.pc c.act ∧ SameButIssue s t)
    ∧ (∀ info, privFail c i = false → allocFail c.tm i = some info →
        ∃ t, exec i s = .next t ∧ Trapped s t s.cur g 7#4 info c.pc c.act ∧ SameButIssue s t)
    ∧ (∀ u, privFail c i = false → allocFail c.tm i = none → staleField c i = some u → c.g.csr.chk = true →
        ∃ t, exec i s = .next t ∧ Trapped s t s.cur g 8#4 (fieldInfo u.slot (srcField u.src)) c.pc c.act ∧ SameButIssue s t)
    ∧ (∀ w, privFail c i = false → allocFail c.tm i = none → staleField c i = none → uniPoison c.g i.guard = some w →
        (∀ n, c.nd = some n → n.eff.guarded = false ∧ n.eff.idem = false) →
        ∃ t, exec i s = .next t ∧ Trapped s t s.cur g (if causeOf w = PCause.pagex.code then 4#4 else 3#4) (poisonInfo 4 (c.act.lanes.headD 0) w) c.pc c.act
          ∧ SameButIssue s t)

/-- R273, R444: `RTT` returns: every thread of the trap set that has not exited runs at `TPC`, `TMODE` clears, and the other threads stay. -/
def Obligations.ReturnFromTrap : Prop :=
  ∀ (s : State) (c : Iss) (h : Head), s.issuing (.rtt h) = some c → acts c (.rtt h) = true →
    ∃ t g, exec (.rtt h) s = .next t ∧ SameButIssue s t ∧ t.groups.find s.cur = some g ∧ SameRegs c.g g
      ∧ g.csr = { c.g.csr with tmode := false, stale := g.csr.stale }
      ∧ s.now + 4 ≤ g.ready ∧ g.ready ≤ s.now + 12
      ∧ ∀ n < 32, (g.th n).inT = false ∧ ((c.g.th n).inT = true → (c.g.th n).st ≠ .exited → (g.th n).st = .run ∧ (g.th n).pc = c.g.csr.tpc)
        ∧ ((c.g.th n).inT = false → Mask.has c.act n = false → (g.th n).pc = (c.g.th n).pc ∧ (g.th n).st = (c.g.th n).st)


-- memory instructions at issue

/-- R152, R153, R156, R332, R411 to R415, R418, R419: what loads begin. `LD.LS` reads the words of the local store at its issue, sign- or
zero-extending narrow values. `LD` and `LDC` on global memory, and `LDV` in the view of a live rival, stand with one access for each lane,
at the lane's address and page, and return later; a lane with a poisoned address has its payload already. Behind accesses that R186 orders
before it, a load waits for them (R6, R186). Memory and registers stay. -/
def Obligations.LoadsBegin : Prop :=
  ∀ (s : State) (c : Iss) (h : Head) (w : Width) (d : Dst) (a b : Src) (mc : Mc) (k : BitVec 4),
    let l := fun ls => addrs c ls a mc.ofs w.bytes (accLanes c d)
    let bad := fun ls (o : Op) => ∀ p ∈ badAddrs c ls a mc.ofs w.bytes (accLanes c d),
      ∃ x ∈ o.accs, x.lane = p.1 ∧ x.done = true ∧ x.res = poisoned4 p.2
    (s.issuing (.ld h true w d a mc) = some c → acts c (.ld h true w d a mc) = true →
      (∀ p ∈ l true, p.2 % w.bytes = 0 ∧ p.2 + w.bytes ≤ c.tm.lsBytes) →
      (localBefore s c (.ld h true w d a mc) ≠ [] → ∃ t, exec (.ld h true w d a mc) s = .next t ∧ SameButSend s t ∧ Quiet s t c (.ld h true w d a mc)
        ∧ Opens s t c (.ld h true w d a mc) .waiting fun o => o.after = localBefore s c (.ld h true w d a mc))
      ∧ (localBefore s c (.ld h true w d a mc) = [] →
      ∃ t, exec (.ld h true w d a mc) s = .next t ∧ SameButSend s t ∧ Quiet s t c (.ld h true w d a mc) ∧ Due s t 17 33 (.loadReturn s.ids)
        ∧ Opens s t c (.ld h true w d a mc) .performed fun o => bad true o ∧ ∀ p ∈ l true,
            ∃ x ∈ o.accs, x.lane = p.1 ∧ x.adr = p.2 ∧ x.done = true ∧ (c.gpoi.getD p.1 none = none →
              let at_ := fun j => c.tm.word (p.2 / 4 + j)
              let v := (at_ 0).val >>> (8 * (p.2 % 4))
              (4 ≤ w.bytes → ∀ j < w.regs, x.res[j]? = some ⟨(at_ j).val, (at_ j).poi⟩)
              ∧ (w.bytes < 4 → (at_ 0).poi = true → x.res = [⟨(at_ 0).val, true⟩])
              ∧ (w.bytes < 4 → (at_ 0).poi = false → x.res = [⟨if w = .n8 then v &&& 0xFF#32 else if w = .s8 then (v.setWidth 8).signExtend 32
                  else if w = .n16 then v &&& 0xFFFF#32 else (v.setWidth 16).signExtend 32, false⟩]))))
    ∧ (s.issuing (.ld h false w d a mc) = some c → acts c (.ld h false w d a mc) = true → (∀ p ∈ l false, p.2 % w.bytes = 0) → Mapped s c .read (l false) →
      let first := orderedBefore s c (.ld h false w d a mc) (accsFor s c (l false))
      ∃ t, exec (.ld h false w d a mc) s = .next t ∧ SameButSend s t ∧ Quiet s t c (.ld h false w d a mc)
        ∧ (first = [] → ∃ T, (T, .loadReturn s.ids) ∈ t.timers)
        ∧ Opens s t c (.ld h false w d a mc) (if first = [] then .sent else .waiting) fun o => o.after = first ∧ bad false o ∧ ∀ p ∈ l false,
            ∃ x ∈ o.accs, x.lane = p.1 ∧ x.adr = p.2 ∧ x.done = false ∧ x.page = pageFor s.landed c p.2)
    ∧ (s.issuing (.ldc h w d a mc) = some c → acts c (.ldc h w d a mc) = true → (∀ p ∈ l false, p.2 % w.bytes = 0) → Mapped s c .read (l false) →
      ∃ t T, exec (.ldc h w d a mc) s = .next t ∧ SameButSend s t ∧ Quiet s t c (.ldc h w d a mc) ∧ (T, .loadReturn s.ids) ∈ t.timers
        ∧ Opens s t c (.ldc h w d a mc) .sent fun o => bad false o ∧ ∀ p ∈ l false, ∃ x ∈ o.accs, x.lane = p.1 ∧ x.adr = p.2
            ∧ x.page = pageFor s.landed c p.2 ∧ (s.ccache.findD c.g.frame [] = [] → x.done = false))
    ∧ (let lv := addrs c false a 0#6 4 c.on.lanes
       let x := c.uni 2 b 0
       ∀ fk f, s.issuing (.ldv h d a b k) = some c → acts c (.ldv h d a b k) = true → x.poi = false → k.toNat < forkCount x.val →
        s.forkAt c.g.frame x.val = some fk → s.forks.find fk = some f → (∀ p ∈ lv, p.2 % 4 = 0) → Mapped s c .read lv →
      let first := orderedBefore s c (.ldv h d a b k) (accsFor s c lv)
      ∃ t, exec (.ldv h d a b k) s = .next t ∧ SameButSend s t ∧ Quiet s t c (.ldv h d a b k) ∧ (first = [] → ∃ T, (T, .loadReturn s.ids) ∈ t.timers)
        ∧ OpensIn s t c (.ldv h d a b k) (if first = [] then .sent else .waiting) fun o => o.after = first ∧ o.view = f.views.getD k.toNat 0 ∧ o.vals = [x] ∧ ∀ p ∈ lv,
            ∃ y ∈ o.accs, y.lane = p.1 ∧ y.adr = p.2 ∧ y.done = false ∧ y.page = pageFor s.landed c p.2)

/-- R152, R153, R156, R185, R292, R340, R455, R456: what `ST` begins. On the local store the words change at its issue: the highest lane that
writes a word gives it its value and cleans it, a narrow store changes its bytes of a clean word alone, and every other word stays; behind
accesses that R186 orders before it, it waits in the store buffer and no word changes. On global memory the accesses enter the store buffer for 48 clocks with their data, and no byte of memory changes. -/
def Obligations.StoresBegin : Prop :=
  ∀ (s : State) (c : Iss) (h : Head) (w : Width) (a b : Src) (mc : Mc) (tm : Team),
    let l := fun ls => addrs c ls a mc.ofs w.bytes c.on.lanes
    let i := fun ls => Instr.st h ls w a b mc
    let word := fun k (n : Nat) => (lane (c.srcK 2 b k) n).val
    (s.issuing (i true) = some c → acts c (i true) = true → Clean c (i true) → s.teams.find c.g.team = some tm →
      (∀ p ∈ l true, p.2 % w.bytes = 0 ∧ p.2 + w.bytes ≤ tm.lsBytes) →
      (localBefore s c (i true) ≠ [] → ∃ t, exec (i true) s = .next t ∧ SameButSend s t ∧ Quiet s t c (i true)
        ∧ Opens s t c (i true) (.buffered (s.now + 48)) fun o => o.after = localBefore s c (i true))
      ∧ (localBefore s c (i true) = [] →
      ∃ t tm', exec (i true) s = .next t ∧ SameButWords s t ∧ Quiet s t c (i true) ∧ t.teams.find c.g.team = some tm'
        ∧ (∀ k, k ≠ c.g.team → t.teams.find k = s.teams.find k) ∧ (s.now + 48, .storeBufferSend s.ids) ∈ t.timers
        ∧ (∀ k, (∀ p ∈ l true, k < p.2 / 4 ∨ p.2 + w.bytes ≤ 4 * k) → tm'.word k = tm.word k)
        ∧ (∀ pre p post, l true = pre ++ p :: post → 4 ≤ w.bytes → ∀ j < w.regs,
            (∀ q ∈ post, p.2 / 4 + j < q.2 / 4 ∨ q.2 + w.bytes ≤ 4 * (p.2 / 4 + j)) →
            tm'.word (p.2 / 4 + j) = { tm.word (p.2 / 4 + j) with val := word j p.1, poi := false })
        ∧ (∀ p, l true = [p] → w.bytes < 4 → (tm.word (p.2 / 4)).poi = true → tm'.word (p.2 / 4) = tm.word (p.2 / 4))
        ∧ (∀ p, l true = [p] → w.bytes < 4 → (tm.word (p.2 / 4)).poi = false → ∀ j < 32, (tm'.word (p.2 / 4)).val.getLsbD j =
            if 8 * (p.2 % 4) ≤ j ∧ j < 8 * (p.2 % 4 + w.bytes) then (word 0 p.1).getLsbD (j - 8 * (p.2 % 4)) else (tm.word (p.2 / 4)).val.getLsbD j)))
    ∧ (s.issuing (i false) = some c → acts c (i false) = true → Clean c (i false) → (∀ p ∈ l false, p.2 % w.bytes = 0) →
      Writable s c .write (l false) (fun n => (List.range w.regs).map fun k => lane (c.srcK 2 b k) n) →
      ∃ t, exec (i false) s = .next t ∧ SameButSend s t ∧ Quiet s t c (i false) ∧ (s.now + 48, .storeBufferSend s.ids) ∈ t.timers
        ∧ Opens s t c (i false) (.buffered (s.now + 48)) fun o => ∀ p ∈ l false, ∃ x ∈ o.accs, x.lane = p.1 ∧ x.adr = p.2 ∧ x.done = false
            ∧ x.page = pageFor s.landed c p.2 ∧ x.dat = (List.range w.regs).map fun k => lane (c.srcK 2 b k) p.1)

/-- R156 to R159, R392, R393, R416, R417, R457: words with full/empty bits. `LDWF` and `LDTK` on full words take their values at once, `LDTK`
leaves them empty; on empty ones, and behind accesses that R186 orders before it, the group waits. `STWE` fills empty words, its earlier
accesses being performed. `FESET` begins with no word changed: it sets the bit of each of its words, and with `.Z` its value to a clean 0,
in later clocks (R159); at its end every word from the first that had still to change has changed, and no other word. -/
def Obligations.FullEmptyWords : Prop :=
  ∀ (s : State) (c : Iss) (h : Head) (d : Dst) (a b : Src) (mc : Mc) (tm : Team) (z full : Bool),
    let l := addrs c true a mc.ofs 4 c.on.lanes
    let inside := ∀ p ∈ l, p.2 % 4 = 0 ∧ p.2 + 4 ≤ tm.lsBytes
    let free := ∀ p ∈ l, (tm.word (p.2 / 4)).wait = []
    s.teams.find c.g.team = some tm →
    (∀ i take, (i = .ldwf h d a mc ∧ take = false) ∨ (i = .ldtk h d a mc ∧ take = true) → s.issuing i = some c → acts c i = true → Clean c i →
      inside → free → (l.map Prod.snd).Nodup →
      (localBefore s c i ≠ [] → ∃ t g, exec i s = .next t ∧ SameButWords s t ∧ t.teams = s.teams ∧ t.groups.find s.cur = some g ∧ SameRegs c.g g
        ∧ g.hold = .fewait s.ids s.now ∧ Opens s t c i .waiting fun o => o.after = localBefore s c i)
      ∧ (localBefore s c i = [] → (∀ p ∈ l, (tm.word (p.2 / 4)).full = true) → ∃ t tm' g, exec i s = .next t ∧ SameButWords s t ∧ t.teams.find c.g.team = some tm'
        ∧ t.groups.find s.cur = some g ∧ SameRegs c.g g ∧ (c.g.cont = none → g.hold = .none) ∧ Due s t 17 33 (.loadReturn s.ids)
        ∧ (∀ k, tm'.word k = if take = true ∧ ∃ p ∈ l, p.2 / 4 = k then { tm.word k with full := false } else tm.word k)
        ∧ Opens s t c i .performed fun o => ∀ p ∈ l, ∃ x ∈ o.accs, x.lane = p.1 ∧ x.done = true ∧ x.res = [(tm.word (p.2 / 4)).elem])
      ∧ (localBefore s c i = [] → (∀ p ∈ l, (tm.word (p.2 / 4)).full = false) → ∃ t tm' g, exec i s = .next t ∧ SameButWords s t ∧ t.teams.find c.g.team = some tm'
        ∧ t.groups.find s.cur = some g ∧ SameRegs c.g g ∧ g.hold = .fewait s.ids s.now ∧ (∃ T, (T, .fewaitTimeout s.cur) ∈ t.timers)
        ∧ (∀ p ∈ l, tm'.word (p.2 / 4) = { tm.word (p.2 / 4) with wait := [(s.ids, p.1)] })
        ∧ Opens s t c i .sent fun o => ∀ p ∈ l, ∃ x ∈ o.accs, x.lane = p.1 ∧ x.done = false))
    ∧ (s.issuing (.stwe h a b mc) = some c → acts c (.stwe h a b mc) = true → Clean c (.stwe h a b mc) → inside → free → (l.map Prod.snd).Nodup →
      pendingOf s c (.stwe h a b mc) = [] → s.Inv → (∀ p ∈ l, (tm.word (p.2 / 4)).full = false) →
      ∃ t tm' g, exec (.stwe h a b mc) s = .next t ∧ SameButWords s t ∧ t.teams.find c.g.team = some tm' ∧ t.groups.find s.cur = some g
        ∧ SameRegs c.g g ∧ g.hold = .none ∧ t.agenda = s.agenda ++ [.grant ⟨s.ids, none⟩]
        ∧ Opens s t c (.stwe h a b mc) .performed (fun _ => True)
        ∧ (∀ p ∈ l, tm'.word (p.2 / 4) = ⟨(lane (c.src 2 b) p.1).val, false, true, []⟩)
        ∧ ∀ k, (∀ p ∈ l, p.2 / 4 ≠ k) → tm'.word k = tm.word k)
    ∧ (let ofs := (offsetAt c 1 a 0).1.toNat
       let n := (c.uni 2 b 0).val.toNat
       s.issuing (.feset h z full a b) = some c → acts c (.feset h z full a b) = true → Clean c (.feset h z full a b) → 0 < n → n ≤ 65536 →
        ofs % 4 = 0 → ofs + 4 * n ≤ tm.lsBytes →
      ∃ t, exec (.feset h z full a b) s = .next t ∧ Quiet s t c (.feset h z full a b) ∧ t.teams = s.teams ∧ t.mem = s.mem
        ∧ (localBefore s c (.feset h z full a b) = [] → t.agenda = s.agenda ++ [.fesetComplete s.ids])
        ∧ Opens s t c (.feset h z full a b) .waiting fun o => o.after = localBefore s c (.feset h z full a b) ∧ o.seg = 0 ∧ o.moved = 0
            ∧ o.vals = [clean (BitVec.ofNat 32 ofs), clean (BitVec.ofNat 32 n)])
    ∧ (∀ id o, s.ops.find id = some o → o.ins = .feset h z full a b → o.after = [] →
        let first := (o.vals.getD 0 (clean 0#32)).val.toNat / 4
        let n := (o.vals.getD 1 (clean 0#32)).val.toNat
        (o.moved = 0 → ∃ t o', exec (.fesetComplete id) s = .next t ∧ t.teams = s.teams ∧ t.ops.find id = some o' ∧ o'.st = .sent
          ∧ s.now + 24 + (n - 1) / 64 ≤ o'.moved ∧ o'.moved ≤ s.now + 40 + (n - 1) / 64 ∧ (s.now + 1, .fesetComplete id) ∈ t.timers)
        ∧ (o.moved ≠ 0 → o.moved ≤ s.now → s.Inv → o.team = c.g.team → (∀ k < n, (tm.word (first + k)).wait = []) →
          (∀ k p, s.ops.find k = some p → id ∉ p.after) →
          ∃ t tm', exec (.fesetComplete id) s = .next t ∧ t.teams.find c.g.team = some tm' ∧ t.ops.find id = none
            ∧ (∀ k < n, o.seg ≤ k → tm'.word (first + k) =
                ⟨if z then 0#32 else (tm.word (first + k)).val, (tm.word (first + k)).poi && !z, full, []⟩)
            ∧ ∀ k, (k < first + o.seg ∨ first + n ≤ k) → tm'.word k = tm.word k))

/-- R124, R125, R340 to R343, R347, R348, R441, R442, R471, R472: what atomic operations begin. On the local store `ATOM`, `ACAS` and `RED` are
performed at their issue, unless R186 orders earlier accesses before them, and keep the old values; on global memory these, `XADD` and `XRD` enter the store buffer for 48 clocks with an
access for each lane, and no byte of memory changes. -/
def Obligations.AtomicsBegin : Prop :=
  ∀ (s : State) (c : Iss) (h : Head) (op : Aop) (w64 clr : Bool) (ty : XTy) (d : Dst) (a b : Src) (mc : Mc) (tm : Team),
    let n := if w64 then 8 else 4
    let dat := fun m L => (List.range m).map fun k => lane (c.srcK 2 b k) L
    let globally := fun i n need dat => s.issuing i = some c → acts c i = true → Clean c i →
      (∀ p ∈ addrs c false a mc.ofs n c.on.lanes, p.2 % n = 0) → Writable s c need (addrs c false a mc.ofs n c.on.lanes) dat →
      ∃ t, exec i s = .next t ∧ SameButSend s t ∧ Quiet s t c i ∧ (s.now + 48, .storeBufferSend s.ids) ∈ t.timers
        ∧ Opens s t c i (.buffered (s.now + 48)) fun o => ∀ p ∈ addrs c false a mc.ofs n c.on.lanes, ∃ x ∈ o.accs, x.lane = p.1 ∧ x.adr = p.2
            ∧ x.done = false ∧ x.page = pageFor s.landed c p.2 ∧ x.dat = dat p.1
    let locally := fun i m (new : Lanes → Nat → Nat) => s.issuing i = some c → acts c i = true → Clean c i → s.teams.find c.g.team = some tm →
      (∀ p ∈ addrs c true a mc.ofs n c.on.lanes, p.2 % n = 0 ∧ p.2 + n ≤ tm.lsBytes) → ((addrs c true a mc.ofs n c.on.lanes).map Prod.snd).Nodup →
      localBefore s c i = [] →
      ∃ t tm', exec i s = .next t ∧ SameButWords s t ∧ Quiet s t c i ∧ t.teams.find c.g.team = some tm'
        ∧ (∀ p ∈ addrs c true a mc.ofs n c.on.lanes, (tm.lsRead p.2 n).2 = none →
            (tm'.lsRead p.2 n).1 = leBytes n (new (dat m p.1) (leNat (tm.lsRead p.2 n).1)) ∧ (tm'.lsRead p.2 n).2 = none)
        ∧ (∀ k, (∀ p ∈ addrs c true a mc.ofs n c.on.lanes, k < p.2 / 4 ∨ p.2 + n ≤ 4 * k) → tm'.word k = tm.word k)
        ∧ Opens s t c i (.buffered (s.now + 48)) fun o => ∀ p ∈ addrs c true a mc.ofs n c.on.lanes, ∃ x ∈ o.accs, x.lane = p.1 ∧ x.done = true
            ∧ x.res = (List.range (n / 4)).map fun j => (tm.word (p.2 / 4 + j)).elem
    let regs := if w64 then 2 else 1
    globally (.atom h false op w64 d a b mc) n .write (dat regs) ∧ globally (.acas h false w64 d a b mc) n .write (dat (2 * regs))
    ∧ globally (.red h false op w64 a b mc) n .write (dat regs) ∧ globally (.xadd h ty a b mc) 64 .write (dat 1)
    ∧ globally (.xrd h clr d a mc) 64 (if clr then .write else .read) (fun _ => [])
    ∧ locally (.atom h true op w64 d a b mc) regs (fun x old => atomOp op (8 * n) old (leNat (storeBytesOf n x)))
    ∧ locally (.red h true op w64 a b mc) regs (fun x old => atomOp op (8 * n) old (leNat (storeBytesOf n x)))
    ∧ locally (.acas h true w64 d a b mc) (2 * regs)
        (fun x old => if old = leNat (storeBytesOf n x) then leNat (storeBytesOf n (x.drop (n / 4))) else old)

/-- R188 to R194, R390, R391, R427, R435, R436: a `FENCE` or `PFENCE` with nothing to wait for lets its group go on after the clocks of
its scope; else it holds the group until the operations that it names have ended. An acquiring `PFENCE` discards the frame's constant
cache. `MFENCE` marks the group's next matrix operation. None of them changes a register or memory. R155, R361 to R363, R366, R460:
`CRESZ`, `CFLUSH` and `TLBI` begin: the operation stands with its operand values, registers and memory stay, and its completion comes
later; `TLBI` holds its group, and waits for the group's earlier stores. -/
def Obligations.FencesAndMaintenanceBegin : Prop :=
  (∀ (s : State) (c : Iss) (h : Head) (ord : Ord) (scope : Scope),
    let quiet := fun (i : Instr) (t : State) => t.mem = s.mem ∧ t.teams = s.teams ∧ Quiet s t c i
    let goes := fun (t : State) => ∃ g, t.groups.find s.cur = some g ∧ g.hold = .none ∧ s.now < g.ready ∧ t.ops.find s.ids = none
    let holds := fun (i : Instr) (l : List Nat) (t : State) => (∃ g, t.groups.find s.cur = some g ∧ g.hold = .op s.ids)
      ∧ Opens s t c i .waiting fun o => o.after = l
    let fl := fenceAfter s c (ord ≠ .acq && !narrowScope scope) fun o => (ord ≠ .rel && returnsLoad o.ins) || (ord ≠ .acq && o.unwritten scope)
    let pl := fenceAfter s c (!narrowScope scope) fun o => o.unwritten scope || (acquires o.ins && returnsLoad o.ins)
    (s.issuing (.fence h ord scope) = some c → acts c (.fence h ord scope) = true → ∃ t, exec (.fence h ord scope) s = .next t ∧ quiet (.fence h ord scope) t
      ∧ t.ccache = s.ccache ∧ (fl = [] → s.Inv → goes t) ∧ (fl ≠ [] → holds (.fence h ord scope) fl t))
    ∧ (s.issuing (.pfence h scope) = some c → acts c (.pfence h scope) = true → ∃ t, exec (.pfence h scope) s = .next t ∧ quiet (.pfence h scope) t
      ∧ (pl = [] → s.Inv → goes t ∧ (scope ≠ .grp → scope ≠ .team → t.ccache.find c.g.frame = none)) ∧ (pl ≠ [] → holds (.pfence h scope) pl t))
    ∧ (s.issuing (.mfence h) = some c → acts c (.mfence h) = true → ∃ t g, exec (.mfence h) s = .next t ∧ SameButIssue s t ∧ quiet (.mfence h) t
      ∧ t.groups.find s.cur = some g ∧ g.mfence = true))
  ∧ (∀ (s : State) (c : Iss) (h : Head) (d : Dst) (a b : Src) (inv : Bool) (k : TlbiKind),
    (s.issuing (.cresz h d a) = some c → acts c (.cresz h d a) = true → Clean c (.cresz h d a) →
      ∃ t, exec (.cresz h d a) s = .next t ∧ SameButSend s t ∧ Quiet s t c (.cresz h d a) ∧ Due s t 300 2000 (.creszComplete s.ids)
        ∧ Opens s t c (.cresz h d a) .sent fun o => o.vals = [c.uni 1 a 0])
    ∧ (let x := c.pairAt 1 a 0
       let y := c.uni 2 b 0
       s.issuing (.cflush h inv a b) = some c → acts c (.cflush h inv a b) = true → c.depth = 0 →
        (x.2 = none → y.poi = false → x.1.toNat % 64 = 0 ∧ y.val.toNat % 64 = 0) →
      ∃ t T, exec (.cflush h inv a b) s = .next t ∧ SameButSend s t ∧ Quiet s t c (.cflush h inv a b) ∧ (T, .cflushComplete s.ids) ∈ t.timers
        ∧ Opens s t c (.cflush h inv a b) .sent fun o =>
            o.vals = [clean (x.1.extractLsb' 0 32), clean (x.1.extractLsb' 32 32), ⟨y.val, x.2.isSome || y.poi⟩])
    ∧ (s.issuing (.tlbi h k a b) = some c → acts c (.tlbi h k a b) = true → Clean c (.tlbi h k a b) →
      ∃ t g, exec (.tlbi h k a b) s = .next t ∧ SameButSend s t ∧ Quiet s t c (.tlbi h k a b) ∧ t.groups.find s.cur = some g ∧ g.hold = .op s.ids
        ∧ (writesTo s c.owner none = [] → Due s t 600 2000 (.tlbiComplete s.cur))
        ∧ Opens s t c (.tlbi h k a b) .waiting fun o => o.after = writesTo s c.owner none ∧ (k = .pg → o.vals = [c.uni 2 b 0, c.uni 1 a 0, c.uni 1 a 1])
            ∧ (k = .ctx → o.vals = [c.uni 2 b 0])))


-- engines, the matrix unit, services and worlds at issue

/-- R161, R165, R167, R169, R292, R373, R374, R462, R463: `CPY`, `TLD` and `TST` with legal operands enter the store buffer for 48 clocks
with their operand values, and count in their class; nothing is moved yet. A `CPY` of no bytes completes at its issue. R161, R165, R176,
R292, R369 to R371, R400, R445: `GATH`, `SCAT` and `COLL` with legal operands enter the store buffer for 48 clocks with their operand
values, and count in their class; nothing is moved yet. -/
def Obligations.EngineCommandsBegin : Prop :=
  (∀ (s : State) (c : Iss) (h : Head) (dir : CpyDir) (mc : Bool) (d : Dst) (a b e : Src),
    let enters := fun i vals => ∃ t, exec i s = .next t ∧ Counts s t c (engClass i) ∧ Opens s t c i (.buffered (s.now + 48)) (fun o => o.vals = vals)
      ∧ (s.now + 48, .storeBufferSend s.ids) ∈ t.timers
    let w := c.uni 3 e 0
    let arrives := w.val = 0xFFFFFFFF#32 ∨ (w.val.toNat % 4 = 0 ∧ w.val.toNat + 4 ≤ c.tm.lsBytes)
    (let g := cpyGlo dir
     let fd := c.unis 0 (Dst.asSrc d) (addrRegs g.1)
     let fa := if g.2 then c.unis 1 a 2 else [c.offsetA a]
     let n := c.uni 2 b 0
     s.issuing (.cpy h dir d a b e) = some c → acts c (.cpy h dir d a b e) = true → (∀ x ∈ fd ++ fa ++ [n, w], x.poi = false) →
      n.val.toNat ≤ 2 ^ 24 → n.val.toNat % 4 = 0 → numOf fd % 4 = 0 → numOf fa % 4 = 0 → arrives → (g.1 = true → w.val = 0xFFFFFFFF#32) →
      (g.1 = false → numOf fd + n.val.toNat ≤ c.tm.lsBytes) → (g.2 = false → numOf fa + n.val.toNat ≤ c.tm.lsBytes) →
      (n.val ≠ 0#32 → enters (.cpy h dir d a b e) (fd ++ fa ++ [n, w]))
      ∧ (n.val = 0#32 → ∃ t g, exec (.cpy h dir d a b e) s = .next t ∧ t.mem = s.mem ∧ t.groups.find s.cur = some g ∧ SameRegs c.g g
          ∧ g.counted = retiring (c.g.counted ++ [⟨s.ids, .cpy, false⟩]) s.ids))
    ∧ ∀ i load, (i = .tld h mc d a b e ∧ load = true) ∨ (i = .tst h d a b e ∧ load = false ∧ mc = false) →
       let fd := c.uni 0 (Dst.asSrc d) 0
       let rc := c.unis 1 a 16
       let x := numOf rc
       let bx := Shape.ofNum x
       let coords := c.unis 2 b (recRank x)
       let fc := c.unis 3 e (if mc then 2 else 1)
       let m := (c.uni 3 e 1).val.toNat
       s.issuing i = some c → acts c i = true → (∀ y ∈ [fd] ++ rc ++ coords ++ fc, y.poi = false) → recBad x false mc = false →
        b.idx.toNat + recRank x ≤ min 128 (16 * c.tm.sgr) → (mc = true → m < 2 ^ 16 ∧ m.testBit (c.g.frame % 16) = true) →
        (load = false → w.val = 0xFFFFFFFF#32) → arrives → bx.base % 16 = 0 → fd.val.toNat % (if bx.perm = 0 then 4 else 512) = 0 →
        fd.val.toNat + bx.bytes ≤ c.tm.lsBytes → enters i ([fd] ++ rc ++ coords ++ fc))
  ∧ (∀ (s : State) (c : Iss) (h : Head) (kind : CollKind) (rop : CollOp) (d : Dst) (a b e : Src),
    let enters := fun i vals => ∃ t, exec i s = .next t ∧ Counts s t c (engClass i) ∧ Opens s t c i (.buffered (s.now + 48)) (fun o => o.vals = vals)
      ∧ (s.now + 48, .storeBufferSend s.ids) ∈ t.timers
    let fd := c.uni 0 (Dst.asSrc d) 0
    let fb := c.uni 2 b 0
    let w := c.uni 3 e 0
    let arrives := w.val = 0xFFFFFFFF#32 ∨ (w.val.toNat % 4 = 0 ∧ w.val.toNat + 4 ≤ c.tm.lsBytes)
    (∀ i load, (i = .gath h d a b e ∧ load = true) ∨ (i = .scat h d a b e ∧ load = false) →
      let v := [fd] ++ c.unis 1 a 4 ++ [fb, w]
      let f := gathFields v
      s.issuing i = some c → acts c i = true → (∀ x ∈ v, x.poi = false) → 4 ≤ f.2.1 → f.2.1 ≤ 65536 → f.2.1 % 4 = 0 → 1 ≤ f.2.2 → f.2.2 ≤ 65536 →
        f.1 % 4 = 0 → fd.val.toNat % 4 = 0 → fb.val.toNat % 4 = 0 → (load = false → w.val = 0xFFFFFFFF#32) → arrives →
        fd.val.toNat + f.2.1 * f.2.2 ≤ c.tm.lsBytes → fb.val.toNat + 4 * f.2.2 ≤ c.tm.lsBytes → enters i v)
    ∧ (let de := c.unis 1 a 8
       let x := numOf de
       let k : Coll := ⟨kind, rop, bitsOf x 47 0, bitsOf x 55 48, bitsOf x 63 56, bitsOf x 84 64⟩
       let r := c.tm.index - k.tbase
       ∀ nd, s.issuing (.coll h kind rop d a b e) = some c → acts c (.coll h kind rop d a b e) = true → (∀ y ∈ [fd] ++ de ++ [fb, w], y.poi = false) →
        c.nd = some nd → nd.eff.gang = true → (rop ≠ .fadd → kind ≠ .bcast ∧ kind ≠ .allgather) → bitsOf x 95 85 = 0 → bitsOf x 255 128 = 0 →
        1 ≤ k.nmm1 → 1 ≤ k.nelem → k.nelem ≤ 1048576 → k.root ≤ k.nmm1 → k.tbase + k.nmm1 < nd.eff.nteam → k.tbase ≤ c.tm.index →
        c.tm.index ≤ k.tbase + k.nmm1 → (rop = .bfadd → k.nelem % 2 = 0) → fd.val.toNat % 4 = 0 → fb.val.toNat % 4 = 0 → arrives →
        (k.writes r ≠ 0 → fd.val.toNat + k.writes r * k.block ≤ c.tm.lsBytes) → (k.reads r ≠ 0 → fb.val.toNat + k.reads r * k.block ≤ c.tm.lsBytes) →
        enters (.coll h kind rop d a b e) ([fd] ++ de ++ [fb, w])))

/-- R134, R137, R138, R143, R344 to R346, R349, R428, R465: a matrix instruction with legal operands takes its place behind the queue of its
frame's unit with its operand values and the group's `MFENCE` mark, and counts. An `MMA` traps `ILLCONV` unless all 32 lanes are Active and
guard-true, and what R134 names when its map is not legal. -/
def Obligations.MatrixCommandsBegin : Prop :=
  ∀ (s : State) (c : Iss) (g0 : Group) (h : Head) (d : Dst) (a b : Src),
    let enters := fun i vals => ∃ t, exec i s = .next t ∧ Counts s t c .mtx ∧ Opens s t c i .performed (fun o => o.vals = vals)
      ∧ (∃ g, t.groups.find s.cur = some g ∧ g.mfence = false)
      ∧ ∃ q, t.mxq.find c.g.frame = some (s.mxq.findD c.g.frame [] ++ [q]) ∧ q.op = s.ids ∧ q.mark = c.g.mfence ∧ q.start = none
    let map := [c.uni 1 a 0, c.uni 1 a 1, c.uni 1 a 2, c.uni 1 a 3]
    let fails := mapFail c.tm.lsBytes (c.uni 1 a 0).val (c.uni 1 a 1).val (c.uni 1 a 2).val (c.uni 1 a 3).val
    let x : Elem := if a.cls = .imm then clean (a.idx.zeroExtend 32) else c.uni 1 a 0
    let fits := fun al n => x.poi = true ∨ (x.val.toNat % al = 0 ∧ x.val.toNat + n ≤ c.tm.lsBytes)
    (s.issuing (.mma h d a b) = some c → c.on = 0xFFFFFFFF#32 → (map.any Elem.poi = true ∨ fails = none) → enters (.mma h d a b) map)
    ∧ (s.issuing (.mma h d a b) = some c → c.on ≠ 0xFFFFFFFF#32 → s.issuer = some g0 → CanTrap g0 →
        ∃ t, exec (.mma h d a b) s = .next t ∧ Trapped s t s.cur g0 2#4 0#64 c.pc c.act)
    ∧ (∀ k, s.issuing (.mma h d a b) = some c → c.on = 0xFFFFFFFF#32 → map.any Elem.poi = false → fails = some k → s.issuer = some g0 → CanTrap g0 →
        ∃ t, exec (.mma h d a b) s = .next t ∧ Trapped s t s.cur g0 k.code ((srcField a).setWidth 64) c.pc c.act)
    ∧ (s.issuing (.tldb h d a) = some c → acts c (.tldb h d a) = true → fits 512 32768 → enters (.tldb h d a) [x])
    ∧ (s.issuing (.azro h d) = some c → acts c (.azro h d) = true → enters (.azro h d) [])
    ∧ (s.issuing (.ald h d a) = some c → acts c (.ald h d a) = true → fits 256 8192 → enters (.ald h d a) [x])
    ∧ (s.issuing (.ast h a b) = some c → acts c (.ast h a b) = true → fits 256 8192 → enters (.ast h a b) [x])
    ∧ (s.issuing (.ard h d a b) = some c → acts c (.ard h d a b) = true → ((c.uni 2 b 0).poi = true ∨ (c.uni 2 b 0).val.toNat < 64) →
        enters (.ard h d a b) [c.uni 2 b 0])

/-- R161, R261, R263, R288, R364, R396, R408 to R410, R459, R470: `FORKW`, `CHOOSE` and `WDROP` with legal operands count and hold their group until
they retire; `LAUNCH` and `SVC` count and let it go on. A service call in a view is for the services that are safe there alone. -/
def Obligations.WorldAndServiceCallsBegin : Prop :=
  ∀ (s : State) (c : Iss) (h : Head) (d : Dst) (a b : Src) (n : BitVec 12),
    let begins := fun (i : Instr) st vals lo hi step => ∃ t, exec i s = .next t ∧ Counts s t c .svc ∧ Quiet s t c i ∧ Due s t lo hi step
      ∧ Opens s t c i st (fun o => o.vals = vals) ∧ ∃ g, t.groups.find s.cur = some g ∧ (holdsSvc i = true → g.hold = .op s.ids)
    let clean_ := fun i => s.issuing i = some c ∧ acts c i = true ∧ Clean c i
    (clean_ (.forkw h d a b) → 2 ≤ (c.uni 1 a 0).val.toNat → (c.uni 1 a 0).val.toNat ≤ 16 →
      begins (.forkw h d a b) .sent [c.uni 1 a 0, c.uni 2 b 0, c.uni 2 b 1] 1500 4000 (.forkwRetire s.ids))
    ∧ (clean_ (.choose h d a b) → (c.uni 2 b 0).val.toNat < forkCount (c.uni 1 a 0).val →
      begins (.choose h d a b) .sent [c.uni 1 a 0, c.uni 2 b 0] 1500 4000 (.chooseRetire s.ids))
    ∧ (clean_ (.wdrop h a) → begins (.wdrop h a) .sent [c.uni 1 a 0] 2000 42000 (.wdropRetire s.ids))
    ∧ (clean_ (.launch h d a) → pendingOf s c (.launch h d a) = [] →
      begins (.launch h d a) .waiting [c.uni 1 a 0, c.uni 1 a 1] 1200 3500 (.launchRetire s.ids))
    ∧ (clean_ (.svc h n a b) → (c.depth = 0 ∨ viewSafeSvc n.toNat = true) →
      begins (.svc h n a b) .sent
        ((tab32 fun L => if Mask.has c.on L then clean (lane (c.src 1 a) L).val else clean 0#32) ++ [c.uni 2 b 0, clean (c.g.csr.sidx.setWidth 32)])
        200 800 (.svcBatchArrival s.ids))


-- accesses at their homes and their results

/-- R73, R85, R186, R197, R198, R254, R411 to R413: `LOAD_RETURN` sends a load's result on the return path, no earlier than 7 clocks later,
and ends the load: what each lane has read already, or, when its homes answer, the bytes at its address now as its view reads them,
little-endian, sign- or zero-extended, or the payload of a poisoned sector. Memory stays, where the caches have room for what is read. A load
of the local store that has waited reads its words now. -/
def Obligations.LoadsReturn : Prop :=
  ∀ (s : State) (id : Nat) (o : Op) (u : DstUse) (g : Group), s.Inv → s.ops.find id = some o → s.groups.find o.dest = some g → o.ins.dst? = some u →
    (o.st = .performed → ∃ t, exec (.loadReturn id) s = .next t ∧ t.ops.find id = none ∧ t.mem = s.mem
      ∧ Returns s t o u fun n k => lane (regOf o.accs k) n)
    ∧ (∀ w, IsLoad s o w → o.st = .sent → o.after = [] → o.held = [] → (o.accs.map Acc.lane).Nodup → Roomy s o → NothingMarked s o →
      (∀ a ∈ o.accs, ∀ b ∈ o.accs, a.pageD.swm = true → b.pageD.swm = false → secOf a.pa ≠ secOf b.pa) →
      (∀ a ∈ o.accs, a.lane < 32 ∧ (a.done = false → AtHome s o a ∧ a.dat = [])) →
      ∃ t f, exec (.loadReturn id) s = .next t ∧ t.ops.find id = none ∧ t.mem = s.mem ∧ Returns s t o u f
        ∧ ∀ a ∈ o.accs, (a.done = true → ∀ k < u.span, f a.lane k = a.res.getD k (clean 0#32))
          ∧ (a.done = false → ∀ k < w.regs, k < u.span →
            let x := readAcc s o a w.bytes
            let v := leNat x.1
            (∀ p, x.2 = some p → f a.lane k = ⟨p, true⟩)
            ∧ (x.2 = none → 4 ≤ w.bytes → f a.lane k = clean (BitVec.ofNat 32 (v / 2 ^ (32 * k))))
            ∧ (x.2 = none → (w = .n8 ∨ w = .n16) → f a.lane k = clean (BitVec.ofNat 32 v))
            ∧ (x.2 = none → w = .s8 → f a.lane k = clean ((BitVec.ofNat 8 v).signExtend 32))
            ∧ (x.2 = none → w = .s16 → f a.lane k = clean ((BitVec.ofNat 16 v).signExtend 32))))
    ∧ (∀ h w d a mc tm, o.ins = .ld h true w d a mc → o.st = .waiting → o.after = [] → s.teams.find o.team = some tm →
      ∃ t o', exec (.loadReturn id) s = .next t ∧ t.mem = s.mem ∧ Due s t 17 33 (.loadReturn id) ∧ t.ops.find id = some o' ∧ o'.st = .performed
        ∧ o'.accs = o.accs.map (tm.lsLoad w))

/-- R186, R292, R343, R456: `STORE_BUFFER_SEND`: an entry whose 48 clocks have not passed, or that is ordered behind others, stays; else a store or
atomic to global memory leaves for its home, a local-store store ends, a local-store atomic goes on to its return, and an engine command
reaches its engine. No byte of memory changes. -/
def Obligations.StoreBufferSends : Prop :=
  ∀ (s : State) (id til : Nat) (o : Op), s.Inv → s.ops.find id = some o → o.st = .buffered til →
    (s.now < til → exec (.storeBufferSend id) s = .next { s with timers := s.timers ++ [(til, .storeBufferSend id)] })
    ∧ (til ≤ s.now → o.after ≠ [] → ∃ t, exec (.storeBufferSend id) s = .next t ∧ t.mem = s.mem ∧ t.ops.find id = some { o with st := .waiting })
    ∧ (til ≤ s.now → o.after = [] →
      ((∃ h w a b mc, o.ins = .st h false w a b mc) → ∃ t T e, exec (.storeBufferSend id) s = .next t ∧ t.mem = s.mem
        ∧ t.ops.find id = some { o with st := .sent, sentAt := s.now, early := e } ∧ (T, .grant ⟨id, none⟩) ∈ t.timers ∧ s.now < T)
      ∧ ((∃ h w a b mc, o.ins = .st h true w a b mc) → ∃ t, exec (.storeBufferSend id) s = .next t ∧ t.mem = s.mem ∧ t.ops.find id = none)
      ∧ (isAtomic o.ins = true → genLocal o.ins = false → ∃ t T, exec (.storeBufferSend id) s = .next t ∧ t.mem = s.mem
        ∧ t.ops.find id = some { o with st := .sent, sentAt := s.now } ∧ (T, .homeSideAtomic ⟨id, none⟩) ∈ t.timers ∧ s.now < T)
      ∧ (isAtomic o.ins = true → genLocal o.ins = true → ∃ t, exec (.storeBufferSend id) s = .next t ∧ t.mem = s.mem
        ∧ t.ops.find id = some { o with st := .performed })
      ∧ ((∃ h dir d a b e, o.ins = .cpy h dir d a b e) → ∃ t T o', exec (.storeBufferSend id) s = .next t ∧ t.mem = s.mem
        ∧ t.ops.find id = some o' ∧ o'.st = .sent ∧ o'.ins = o.ins ∧ o'.seg = o.seg ∧ (T, .engineDelivery id 0) ∈ t.timers ∧ s.now < T))

/-- R183, R197, R250, R254, R456: `GRANT` performs a store of the base view whose homes answer and permit it: each byte stored to takes the
data of the highest lane that stores it, but that a poisoned sector, unless the store covers all of it, stays as it is; every other byte of
memory is as it was, and so is the poison of a sector that no lane stores to. A sector that the store covers is clean. -/
def Obligations.StoresReachMemory : Prop :=
  ∀ (s : State) (id : Nat) (o : Op) (h : Head) (w : Width) (a b : Src) (mc : Mc),
    s.Inv → s.ops.find id = some o → o.ins = .st h false w a b mc → o.st = .sent → Roomy s o → (o.early = true ∨ NoEarly s o.frame) →
    (∀ x ∈ o.accs, x.done = false ∧ AtHome s o x ∧ writePermitted s o false x = true ∧ writeView o x = 0 ∧ x.pageD.swm = false
      ∧ x.pa % w.bytes = 0 ∧ x.dat.length = w.regs ∧ ∀ e ∈ x.dat, e.poi = false) →
    let covered := fun sec => coversSector o.accs w.bytes sec
    ∃ t, exec (.grant ⟨id, none⟩) s = .next t ∧ t.ops.find id = none
      ∧ (∀ pre x post, o.accs = pre ++ x :: post → (s.mem.bad.find (secOf x.pa) = none ∨ covered (secOf x.pa) = true) →
          ∀ j < w.bytes, (∀ y ∈ post, x.pa + j < y.pa ∨ y.pa + w.bytes ≤ x.pa + j) →
          t.mem.byte (x.pa + j) = byteOf (x.dat.getD (j / 4) (clean 0#32)).val (j % 4))
      ∧ (∀ x ∈ o.accs, covered (secOf x.pa) = true → t.mem.bad.find (secOf x.pa) = none)
      ∧ (∀ x ∈ o.accs, covered (secOf x.pa) = false → t.mem.bad.find (secOf x.pa) = s.mem.bad.find (secOf x.pa)
          ∧ (s.mem.bad.find (secOf x.pa) ≠ none → ∀ j < 64, t.mem.byte (64 * secOf x.pa + j) = s.mem.byte (64 * secOf x.pa + j)))
      ∧ (∀ m, (∀ x ∈ o.accs, m < x.pa ∨ x.pa + w.bytes ≤ m) → t.mem.byte m = s.mem.byte m)
      ∧ ∀ sec, (∀ x ∈ o.accs, secOf x.pa ≠ sec) → t.mem.bad.find sec = s.mem.bad.find sec

/-- R183, R192, R342, R343, R348, R441, R442, R471, R472: `HOME_SIDE_ATOMIC` performs each lane as one read, operation and write at its address,
keeps the old value for the lane, and changes no other byte; `ATOMIC_RETURN` then returns the old values, and `RED_ACK` clears the
scoreboard. -/
def Obligations.AtomicsReachMemory : Prop :=
  ∀ (s : State) (id : Nat) (o : Op), s.Inv → s.ops.find id = some o → isAtomic o.ins = true → genLocal o.ins = false →
    (let n := accBytes o.ins
     o.st = .sent → o.dest ≠ 2 ^ 30 → NoEarly s o.frame → NothingMarked s o →
      (∀ x ∈ o.accs, x.done = false ∧ AtHome s o x ∧ (writesHome o.ins = true → writePermitted s o true x = true) ∧ o.view = 0 ∧ x.pa % n = 0 ∧ s.mem.bad.find (secOf x.pa) = none
        ∧ (n = 64 → (s.mem.num x.pa 64).testBit 499 = false)) → (o.accs.map Acc.pa).Nodup →
      ∃ t T, exec (.homeSideAtomic ⟨id, none⟩) s = .next t ∧ (T, endStep o id) ∈ t.timers ∧ s.now ≤ T
        ∧ (∃ o', t.ops.find id = some o' ∧ o'.st = .performed ∧ o'.accs.map Acc.lane = o.accs.map Acc.lane
          ∧ ∀ x ∈ o'.accs, x.done = true ∧ (x.dat = [] ∨ (x.dat.headD (clean 0#32)).poi = false →
              (n < 64 → ∀ j < n / 4, x.res[j]? = some (clean (BitVec.ofNat 32 (s.mem.num (x.pa + 4 * j) 4))))
              ∧ (n = 64 → x.res = [clean (BitVec.ofNat 32 (cellF32 (s.mem.num x.pa 64)))] ∨ ∃ h ty a b mc, o.ins = .xadd h ty a b mc)))
        ∧ (∀ x ∈ o.accs, ∀ l, rmw (atomKind o.ins) x.dat (s.mem.bytes x.pa n) none = some l → t.mem.bytes x.pa n = l)
        ∧ (∀ x ∈ o.accs, rmw (atomKind o.ins) x.dat (s.mem.bytes x.pa n) none = none → t.mem.bytes x.pa n = s.mem.bytes x.pa n)
        ∧ ∀ m, (∀ x ∈ o.accs, m < x.pa ∨ x.pa + n ≤ m) → t.mem.byte m = s.mem.byte m)
    ∧ (∀ u g, o.st = .performed → s.groups.find o.dest = some g →
        (o.ins.dst? = some u → ∃ t, exec (.atomicReturn id) s = .next t ∧ t.ops.find id = none ∧ t.mem = s.mem
          ∧ Returns s t o u fun n k => lane (regOf o.accs k) n)
        ∧ ∃ t g', exec (.redAck id) s = .next t ∧ t.ops.find id = none ∧ t.mem = s.mem ∧ t.groups.find o.dest = some g'
          ∧ ∀ b, o.ins.sbs = some b → (⟨s.now + 1, .sb b⟩ : Pend) ∈ g'.pend)

/-- R124, R125, R127, R128, R342, R348: what the atomic operations compute. An integer operation of `ATOM` and `RED` as its table says; `ACAS`
stores only over an equal value. `XADD` adds a finite addend to a cell exactly, in units of 2^-149, while the sum fits; a NaN or an infinity
sets its flag alone. `XRD` reads the cell rounded once to F32. -/
def Obligations.AtomicArithmetic : Prop :=
  (∀ (op : Aop) (n x y : Nat), n = 32 ∨ n = 64 → AtomIs op (BitVec.ofNat n x) (BitVec.ofNat n y) (BitVec.ofNat n (atomOp op n x y)))
  ∧ (∀ (w64 : Bool) (x y : Lanes) (old : List Byte),
      let n := if w64 then 8 else 4
      old.length = n → x.length = n / 4 → y.length = n / 4 →
      (leNat old = leNat (storeBytesOf n x) → rmw (.acas w64) (x ++ y) old none = some (storeBytesOf n y))
      ∧ (leNat old ≠ leNat (storeBytesOf n x) → rmw (.acas w64) (x ++ y) old none = none))
  ∧ (∀ (ty : XTy) (cell : Nat) (w : Word),
      let f := fmtOf ty
      let x := w.toNat % 2 ^ f.width
      let sum := (cellVal cell : ℚ) + f.rat x * 2 ^ 149
      (f.Finite x → -(2 : ℚ) ^ 495 ≤ sum → sum < 2 ^ 495 →
        (cellVal (cellAdd f cell (clean w)) : ℚ) = sum ∧ cellAdd f cell (clean w) / 2 ^ 496 = cell / 2 ^ 496)
      ∧ (∀ n, f.num x = .inf n → ∀ j, (cellAdd f cell (clean w)).testBit j = (cell.testBit j || (j == if n then 498 else 497)))
      ∧ (∀ n, f.num x = .nan n → ∀ j, (cellAdd f cell (clean w)).testBit j = (cell.testBit j || j == 496)))
  ∧ ∀ cell : Nat, cell < 2 ^ 496 → ∃ neg m e, (Num.fin neg m e).rat = (cellVal cell : ℚ) / 2 ^ 149
      ∧ cellF32 cell = (f32.round .rn false false neg m e).1


-- engines and the matrix unit at work

/-- R164, R168, R169, R176, R195, R246, R283, R373: `ENGINE_DELIVERY` of a `CPY` from global memory whose last sector is due moves its bytes, in their
order, to its words of the local store, clean; every other word and all memory stay, and the command's end is due. `ENGINE_COMPLETE` of a
command with nothing left to move takes its operation away, retires it from its counter, and clears its scoreboard. -/
def Obligations.EnginesDeliverAndComplete : Prop :=
  ∀ (s : State) (id : Nat) (o : Op), s.Inv → id < streamBase → s.ops.find id = some o → o.st = .sent →
    (∀ h d a b e x0 lo hi n w tm key first (reads : List Acc),
      let dst := x0.val.toNat
      let src := lo.val.toNat + 2 ^ 32 * hi.val.toNat
      let lastWord := min (16 * key + 16) (n.val.toNat / 4)
      o.ins = .cpy h .gl d a b e → o.vals = [x0, lo, hi, n, w] → (∀ y ∈ o.vals, y.poi = false) → w.val = 0xFFFFFFFF#32 → o.held = [] →
      o.parts = [⟨key, first, none, reads, none, false, false⟩] → o.seg = (s.cmd o).segs → 64 * key < n.val.toNat → n.val.toNat % 4 = 0 →
      s.teams.find o.team = some tm → dst % 4 = 0 → src % 4 = 0 → dst + n.val.toNat ≤ tm.lsBytes → s.unitStopped o.ctx (.copy o.frame) = false →
      (s.timers.any fun p => p.2 = .engineDelivery id (o.seg - 1)) = false → s.agenda = [] → (reads.map Acc.adr).Nodup →
      (∀ y ∈ reads, y.adr % 64 = 0 ∧ y.done = false ∧ AtHome s o y ∧ (readAcc s o y 64).2 = none) →
      (∀ k, 16 * key ≤ k → k < lastWord → ∃ y ∈ reads, y.adr = (src + 4 * k) / 64 * 64) → Roomy s { o with accs := reads } →
      ∃ t tm', exec (.engineDelivery id (o.seg - 1)) s = .next t ∧ t.mem = s.mem ∧ t.teams.find o.team = some tm'
        ∧ t.ops.find id = some { o with parts := [] } ∧ .engineComplete id ∈ t.agenda
        ∧ (∀ k, 16 * key ≤ k → k < lastWord → ∀ y ∈ reads, y.adr = (src + 4 * k) / 64 * 64 →
            tm'.word (dst / 4 + k) = { tm.word (dst / 4 + k) with
              val := BitVec.ofNat 32 (leNat (((readAcc s o y 64).1.drop ((src + 4 * k) % 64)).take 4)), poi := false })
        ∧ ∀ k, (k < dst / 4 + 16 * key ∨ dst / 4 + lastWord ≤ k) → tm'.word k = tm.word k)
    ∧ (∀ g, s.groups.find o.gid = some g → o.dest = o.gid → g.cont = none → (∀ h dir d a b e, o.ins = .cpy h dir d a b e → dir ≠ .gg) →
        (∀ h kind rop d a b e, o.ins = .coll h kind rop d a b e → o.moved = 1) →
        ((∀ h kind rop d a b e, o.ins ≠ .coll h kind rop d a b e) → o.parts = [] ∧ o.held = [] ∧ (s.cmd o).segs ≤ o.seg) → o.seg < 2 ^ 40 →
        (collOf o = none → o.escape = none) → o.after = [] →
      ∃ t g', exec (.engineComplete id) s = .next t ∧ t.mem = s.mem ∧ t.ops.find id = none ∧ t.groups.find o.gid = some g' ∧ SameRegs g g'
        ∧ g'.counted = retiring g.counted id ∧ ∀ b, o.ins.sbs = some b → (⟨s.now + 1, .sb b⟩ : Pend) ∈ g'.pend)

/-- R174, R175, R473: a `TLD.MC` request that reaches a home slice within 4,000 clocks of the opening of an entry of its key joins it, behind
the sectors that have left; else it opens one, which serves its stream and closes 4,000 clocks later. The expiry of an entry whose stream has
ended removes it. -/
def Obligations.MulticastMerges : Prop :=
  ∀ (s : State) (id slice : Nat) (o : Op), s.ops.find id = some o →
    ((s.merge.find? fun kv => kv.2.slice = slice && kv.2.key = mergeKey o && s.now < kv.2.opened + 4000) = none →
      ∃ t m, exec (.multicastRequest id slice) s = .next t ∧ t.merge.find s.ids = some m ∧ m.slice = slice ∧ m.key = mergeKey o ∧ m.opened = s.now
        ∧ m.ops = [(id, 0)] ∧ m.sent = 0 ∧ .engineDelivery (streamBase + s.ids) 0 ∈ t.agenda ∧ (s.now + 4000, .mergeWindowExpiry s.ids) ∈ t.timers
        ∧ t.mem = s.mem ∧ t.teams = s.teams ∧ t.groups = s.groups)
    ∧ (∀ e m, (s.merge.find? fun kv => kv.2.slice = slice && kv.2.key = mergeKey o && s.now < kv.2.opened + 4000) = some (e, m) → m.sent = 0 → m.early = 0 →
      m.secs ≠ [] → ∃ t o', exec (.multicastRequest id slice) s = .next t ∧ t.merge.find e = some { m with ops := m.ops ++ [(id, 0)] }
        ∧ t.mem = s.mem ∧ t.teams = s.teams ∧ t.groups = s.groups ∧ t.ops.find id = some o'
        ∧ o'.parts = o.parts.map fun p => if p.first = 0 && p.reads.any (fun a => Config.slice (secOf a.pa) = slice && !m.secs.contains (secOf a.pa))
            then { p with first := 1 } else p)
    ∧ ∀ e m, s.merge.find e = some m →
      (m.sent = m.secs.length ∧ m.resent = m.resends.length → exec (.mergeWindowExpiry e) s = .next { s with merge := s.merge.del e })
      ∧ (m.sent < m.secs.length → exec (.mergeWindowExpiry e) s = .next s)

/-- R139, R140, R142, R143, R344, R346, R349: `MATRIX_OP_START`: the first operation of an idle unit starts, and its completion is due; `AZRO` makes
its accumulator zero, `ALD` takes its words from the local store, and `ARD` reads its lanes' words. `MATRIX_OP_COMPLETE` of a `TLDB`, whose
words of the local store have not changed since its issue, makes them its tile; that of an `AST` stores its accumulator's words; an operation
that left its effect to its completion has it then; an `ARD` sends its result, and the others retire. -/
def Obligations.MatrixUnitMoves : Prop :=
  ∀ (s : State) (frame id : Nat) (o : Op) (q : MxOp) (tm : Team) (g : Group),
    s.Inv → s.ops.find id = some o → o.frame = frame → q.op = id → s.mxq.find frame = some [q] → s.teams.find o.team = some tm →
    (q.start = none → s.unitStopped o.ctx (.matrix frame) = false → s.seen.findD (2 ^ 25 + frame) 0 ≤ s.now → AMap.wf tm.accs = true →
      ∃ t q' tm', exec (.matrixOpStart frame) s = .next t ∧ t.mem = s.mem ∧ t.mxq.find frame = some [q'] ∧ q'.op = id ∧ q'.start = some s.now
        ∧ s.now < q'.finish ∧ (∃ T, (T, .matrixOpComplete id) ∈ t.timers) ∧ t.teams.find o.team = some tm' ∧ (∀ k, tm'.word k = tm.word k)
        ∧ (∀ h d, o.ins = .azro h d → ∀ k, cellAt (tm'.accum d.idx.toNat) k = clean 0#32)
        ∧ (∀ h d a x, o.ins = .ald h d a → o.vals = [x] → ∀ k < 2048,
            cellAt (tm'.accum d.idx.toNat) k = if x.poi then x else (tm.word (x.val.toNat / 4 + k)).elem)
        ∧ (∀ h d a b x, o.ins = .ard h d a b → o.vals = [x] → (∀ y ∈ o.accs, y.dat = []) → ∃ o', t.ops.find id = some o'
            ∧ o'.accs = o.accs.map fun y => { y with done := true, res := [if x.poi then x else cellAt (tm.accum a.idx.toNat) (64 * y.lane + x.val.toNat)] }))
    ∧ (∀ h d a b u, o.ins = .ard h d a b → o.ins.dst? = some u → q.start.isSome = true → q.late = false → q.finish ≤ s.now + 7 → o.seg = 0 →
        (∀ x, s.ctxs.find o.ctx = some x → x.run = .resident) → s.groups.find o.dest = some g →
      ∃ t, exec (.matrixOpComplete id) s = .next t ∧ t.mem = s.mem ∧ t.teams = s.teams ∧ t.ops.find id = some { o with seg := 1 }
        ∧ Returns s t o u fun n k => lane (regOf o.accs k) n)
    ∧ (q.start.isSome = true → q.finish ≤ s.now → (∀ x, s.ctxs.find o.ctx = some x → x.run = .resident) → s.groups.find o.gid = some g →
        o.dest = o.gid → g.cont = none → (∀ h d a b, o.ins ≠ .ard h d a b) →
      ∃ t tm' g', exec (.matrixOpComplete id) s = .next t ∧ t.mem = s.mem ∧ t.ops.find id = none ∧ t.mxq.find frame = some []
        ∧ t.teams.find o.team = some tm' ∧ t.groups.find o.gid = some g' ∧ SameRegs g g' ∧ g'.counted = retiring g.counted id
        ∧ (∀ b, o.ins.sbs = some b → (⟨s.now + 1, .sb b⟩ : Pend) ∈ g'.pend)
        ∧ (∀ h d a x, o.ins = .tldb h d a → o.vals = [x] → q.words = [] → (∀ k, tm'.word k = tm.word k) ∧ ∀ k < 8192,
            cellAt (tm'.tiles.findD d.idx.toNat []) k = if x.poi then x else (tm.word (x.val.toNat / 4 + k)).elem)
        ∧ (∀ h d, o.ins = .azro h d → q.late = true → AMap.wf tm.accs = true → ∀ k, cellAt (tm'.accum d.idx.toNat) k = clean 0#32)
        ∧ (∀ h a b x l, o.ins = .ast h a b → o.vals = x :: l →
            (if q.late then l = [] else l.length = 2048) → x.poi = false → x.val.toNat % 4 = 0 →
            x.val.toNat + 8192 ≤ tm.lsBytes → (∀ k < 2048, (tm'.word (x.val.toNat / 4 + k)).elem
                = if q.late then cellAt (tm.accum b.idx.toNat) k else l.getD k (clean 0#32))
              ∧ ∀ k, (k < x.val.toNat / 4 ∨ x.val.toNat / 4 + 2048 ≤ k) → tm'.word k = tm.word k))

/-- R121, R122, R130 to R133, R135, R146: in its completion clock an `MMA` adds to each of the 32 × 64 words of its accumulator the product of a row of A, as its map
finds it in the local store, and a column of its tile: exactly and modulo 2^32 for integer types, and for floating-point types in eight
chunks of the row, each added exactly and rounded once to F32. A poisoned word of the row, the column or the accumulator poisons the element with
its payload, and nothing else of the team changes. -/
def Obligations.MatrixProducts : Prop :=
  ∀ (s : State) (id : Nat) (o : Op) (q : MxOp) (tm : Team) (h : Head) (d : Dst) (a b : Src) (w0 w1 w2 w3 : Word) (ta tb : MTy),
    let m := OpMap.ofWords w0 w1 w2 w3
    let tile := tm.tiles.findD b.idx.toNat []
    let acc := tm.accum d.idx.toNat
    let row := fun i => (List.range 128).map fun k => (tm.word (m.wordOf i k)).elem
    let rowScale := fun i => (List.range 8).map fun k => (tm.word ((m.ascl + 32 * i) / 4 + k)).elem
    let col := fun j => (List.range 128).map fun k => cellAt tile (128 * j + k)
    let colScale := fun j => (List.range 8).map fun k => (tm.word ((m.bscl + 32 * j) / 4 + k)).elem
    s.Inv → s.ops.find id = some o → o.ins = .mma h d a b → o.vals = [clean w0, clean w1, clean w2, clean w3] → m.shape = some (ta, tb) →
    s.mxq.find o.frame = some [q] → q.op = id → q.start.isSome = true → q.finish ≤ s.now → q.words = [] → q.tiles = [] → q.accs = [] →
    (∀ x, s.ctxs.find o.ctx = some x → x.run = .resident) → s.teams.find o.team = some tm →
    ∃ t tm', exec (.matrixOpComplete id) s = .next t ∧ t.mem = s.mem ∧ t.teams.find o.team = some tm' ∧ (∀ k, tm'.word k = tm.word k) ∧ tm'.tiles = tm.tiles
      ∧ (∀ k, k ≠ d.idx.toNat - 32 → tm'.accs.find k = tm.accs.find k)
      ∧ ∀ i < 32, ∀ j < 64,
        let old := cellAt acc (64 * i + j)
        let new := cellAt (tm'.accum d.idx.toNat) (64 * i + j)
        let all := poisonOrder ta (row i) (rowScale i) ++ poisonOrder tb (col j) (colScale j) ++ [old]
        (∀ e, all.find? Elem.poi = some e → new = e)
        ∧ (all.find? Elem.poi = none → ta.int = true →
            new = clean (BitVec.ofInt 32 (old.val.toNat + ∑ k ∈ Finset.range 512, intAt ta (row i) k * intAt tb (col j) k)))
        ∧ (all.find? Elem.poi = none → ta.int = false → ∃ r : Nat → Nat, r 0 = old.val.toNat ∧ new = clean (BitVec.ofNat 32 (r 8))
          ∧ ∀ c < 8, f32.Finite (r c) → (∀ k < 512 / ta.bits,
                (∃ n u e, floatAt ta (row i) (rowScale i) (c * (512 / ta.bits) + k) = .fin n u e)
                ∧ ∃ n u e, floatAt tb (col j) (colScale j) (c * (512 / ta.bits) + k) = .fin n u e) →
              ∃ neg u e, (Num.fin neg u e).rat = f32.rat (r c) + ∑ k ∈ Finset.range (512 / ta.bits),
                  (floatAt ta (row i) (rowScale i) (c * (512 / ta.bits) + k)).rat * (floatAt tb (col j) (colScale j) (c * (512 / ta.bits) + k)).rat
                ∧ r (c + 1) = (f32.round .rn false false neg u e).1)


-- queues, teams and nodes

/-- R52, R53, R55, R56, R59, R305: an accepted kick sets `WRIDX` of the queue's descriptor, and its first packet is due; a kick of another
function changes nothing, and a read returns `WRIDX`. When the lead processor's round comes to the queue, a `NODE` packet registers its node with its effective fields, a `QFENCE` packet holds its queue until the earlier
nodes have finished, and its completion writes the signal. -/
def Obligations.QueuesLaunchNodes : Prop :=
  ∀ (s : State) (q : Nat), s.Inv →
    (∀ func v, (s.power = .recovery ∨ 1024 ≤ q ∨ s.qd q 86 80 ≠ func) → exec (.kickRegisterWrite func q v) s = .next s)
    ∧ (∀ (v : BitVec 64), s.power ≠ .held → s.power ≠ .recovery → q < 1024 → s.ctxPaired (s.qd q 111 96) = false → s.qd q 257 256 = 0 → s.funcHolds (s.qd q 86 80) = true →
        s.ctxParts (s.qd q 111 96) ≠ [] → 4 ≤ s.qd q 68 64 → s.qd q 68 64 ≤ 20 → s.qd q 11 0 = 0 → s.qd q 255 192 < v.toNat →
        v.toNat ≤ s.qd q 191 128 + 2 ^ s.qd q 68 64 → (∀ k < 64, s.mem.bad.find (secOf (s.qdAt q + k)) = none) →
      ∃ t, exec (.kickRegisterWrite (s.qd q 86 80) q v) s = .next t ∧ t.mem.num (s.qdAt q + 24) 8 = v.toNat
        ∧ (∀ a, (a < s.qdAt q + 24 ∨ s.qdAt q + 32 ≤ a) → t.mem.byte a = s.mem.byte a)
        ∧ (t.ctxs.find (s.qd q 111 96)).isSome = true ∧ Due s t 1500 4000 (.nodePacket q))
    ∧ (∀ func, s.kickRead func q = if q < 1024 ∧ s.qd q 86 80 = func then BitVec.ofNat 64 (s.qd q 255 192) else 0#64)
    ∧ (∀ x b c, s.queueGoes q = true → s.packet q = some x → packetOk x = true →
      let ctx := s.qd q 111 96
      let waits := { s with queues := s.queues.put q { s.queueOf q with due := true } }
      s.ctxs.find ctx = some c → c.visitAt ≤ s.now →
      (waits.nextDue ctx c ≠ some q → exec (.nodePacket q) s = .next { waits with timers := s.timers ++ [(s.now + 1, .nodePacket q)] })
      ∧ (waits.nextDue ctx c = some q → bitsOf x 7 0 = 2 → ∃ t c', exec (.nodePacket q) s = .next t ∧ .qfencePacket q ∈ t.agenda ∧ t.mem = s.mem
          ∧ t.queues.find q = some { s.queueOf q with due := false } ∧ t.ctxs.find ctx = some c' ∧ c'.turn = q ∧ s.now < c'.visitAt)
      ∧ (bitsOf x 7 0 = 2 → ∃ t, exec (.qfencePacket q) s = .next t ∧ .qfenceComplete q ∈ t.agenda
          ∧ ∃ qu, t.queues.find q = some qu ∧ qu.nodes = (s.queueOf q).nodes ∧ qu.fence = some (signalOf s q x))
      ∧ (let va := bitsOf x 127 64
         let r := Rcb.ofBytes b
         let pk := parentOf s ctx r.parent none
         let par := pk.join.bind fun k => s.nodes.find k
         let e := effective (s.pceil (s.lead ctx)) r (par.map Node.eff)
         waits.nextDue ctx c = some q → bitsOf x 7 0 = 1 → s.unfinished ctx < 4096 → s.readRcb ctx 0 va true = .ok b → s.nodeAt ctx va = none →
          launchable s ctx va b r e pk = true →
        ∃ t n qu, exec (.nodePacket q) s = .next t ∧ t.nodes.find s.ids = some n ∧ n.ctx = ctx ∧ n.rcbva = va ∧ n.eff = e ∧ n.parent = pk.join
          ∧ n.queue = some q ∧ n.sig = some (signalOf s q x) ∧ n.st = (if bitsOf (leNat b) 319 288 = 0 then .ready else .waiting)
          ∧ (n.st = .ready → .teamReservation ctx ∈ t.agenda) ∧ t.queues.find q = some qu ∧ qu.nodes = (s.queueOf q).nodes ++ [s.ids]))
    ∧ ∀ g pa c, (s.queueOf q).fence = some g → s.queueDrained q = true → s.ctxs.find (s.qd q 111 96) = some c → c.run = .resident → g.va ≠ 0 →
        s.deviceWrite (s.leadFrame (s.qd q 111 96)) (s.qd q 111 96) g.va = .ok pa → (∀ k < 8, s.mem.bad.find (secOf (pa + k)) = none) →
      ∃ t b, exec (.qfenceComplete q) s = .next t ∧ t.queues.find q = some ⟨[], none, b⟩ ∧ t.mem.num pa 8 = g.val.toNat
        ∧ (∀ a, (a < pa ∨ pa + 8 ≤ a) → t.mem.byte a = s.mem.byte a)
        ∧ (g.irq = true → .msix g.func g.vec ∈ t.outbox)

/-- R28, R45, R63 to R66: the next team of the head node is reserved on the first frame that fits it, in the order of R65, and the node runs; the teams of a
partition start at least 8 clocks apart, and a head that has waited 20 µs limits the others. At its start every group of the team is resident with its 32 threads at the kernel. A group
that retires leaves its slot, and the last one retires its team. -/
def Obligations.TeamsComeAndGo : Prop :=
  ∀ (s : State) (ctx nk gid tk f : Nat) (c : Ctx) (n : Node) (g : Group) (tm : Team), s.Inv →
    (∀ rest, s.ctxs.find ctx = some c → c.run = .resident → s.placeable ctx = (nk, n) :: rest → s.nodes.find nk = some n → n.ctx = ctx →
        (n.st = .ready ∨ n.st = .running) → n.eff.gang = false → s.canPlace nk n = true → s.frameFor c nk n.eff = some f →
        (c.limit.any s.limits = true → c.limit = some (nk, n.tnext)) →
      (s.nextStart (partOf f) = s.now →
        ∃ t tm' n' c', exec (.teamReservation ctx) s = .next t ∧ t.teams.find s.ids = some tm' ∧ tm'.node = nk ∧ tm'.index = n.tnext ∧ tm'.frame = f
        ∧ tm'.started = false ∧ tm'.vgr = n.eff.vgr ∧ tm'.sgr = n.eff.sgr ∧ tm'.lgr = n.eff.lgr ∧ tm'.startAt = max s.now (s.lastStart nk)
        ∧ s.now + 595 ≤ tm'.issueAt ∧ tm'.issueAt ≤ s.now + 1980
        ∧ (if tm'.startAt = s.now then .teamStart s.ids ∈ t.agenda else (tm'.startAt, .teamStart s.ids) ∈ t.timers)
        ∧ t.nodes.find nk = some n' ∧ n'.tnext = n.tnext + 1 ∧ n'.st = .running
        ∧ t.ctxs.find ctx = some c' ∧ c'.lastFrame = some f ∧ c'.headAt = none ∧ .teamReservation ctx ∈ t.agenda)
      ∧ (s.nextStart (partOf f) ≠ s.now → ∃ t, exec (.teamReservation ctx) s = .next t ∧ t.teams = s.teams ∧ t.nodes = s.nodes
        ∧ (s.nextStart (partOf f), .teamReservation ctx) ∈ t.timers))
    ∧ (∀ h t0, s.ctxs.find ctx = some c → c.headAt = some (h, t0) → t0 + 20000 ≤ s.now → exec (.headBackfillLimit ctx) s
        = .next { s with ctxs := s.ctxs.put ctx { c with limit := some (h, (s.nodes.find h).elim 0 Node.tnext) } })
    ∧ (s.teams.find tk = some tm → tm.started = false → tm.groups = [] → tm.frame < 256 → s.nodes.find tm.node = some n → s.ctxs.find n.ctx = some c → c.run = .resident →
        n.eff.groups ≤ 32 → (∀ kv ∈ s.groups, kv.1 < 1024 * tm.frame ∨ 1024 * tm.frame + 1024 ≤ kv.1) →
      (c.limit.any s.limits = true → c.limit ≠ some (tm.node, tm.index) → exec (.teamStart tk) s = .next { s with timers := s.timers ++ [(s.now + 8, .teamStart tk)] })
      ∧ ((c.limit.any s.limits = true → c.limit = some (tm.node, tm.index)) →
      ∃ t tm', exec (.teamStart tk) s = .next t ∧ t.teams.find tk = some tm' ∧ tm'.started = true ∧ tm'.groups.length = n.eff.groups
        ∧ ∀ i < n.eff.groups, ∃ k e, k ∈ tm'.groups ∧ t.groups.find k = some e ∧ e.idx = i ∧ e.team = tk ∧ e.frame = tm.frame ∧ e.rod = i % 16
          ∧ e.csr.tmode = false ∧ e.csr.prio = n.eff.prio ∧ e.csr.vid = n.runView ∧ e.active = none ∧ e.ready = max s.now tm.issueAt
          ∧ ∀ m < 32, (e.th m).st = .run ∧ (e.th m).pc = BitVec.ofNat 57 n.eff.kernel ∧ (e.th m).mr = 0xFFFFFFFF#32))
    ∧ (s.groups.find gid = some g → g.finished = true → s.teams.find g.team = some tm → gid ∈ tm.groups → s.resizing tm.frame = false →
      ∃ t, exec (.groupRetire gid) s = .next t ∧ t.groups.find gid = none
        ∧ (tm.groups ≠ [gid] → ∃ tm', t.teams.find g.team = some tm' ∧ tm'.groups = tm.groups.erase gid)
        ∧ (tm.groups = [gid] → t.teams.find g.team = none ∧ (s.nodes.find tm.node = some n → n.tdone + 1 < n.eff.nteam →
            ∃ n', t.nodes.find tm.node = some n' ∧ n'.tdone = n.tdone + 1 ∧ n'.st = n.st)))

/-- R69, R97: a group that has been held more than 16 clocks, one whose residence of 64 clocks is over, and one that a ready pending group outranks
give their place in the active set to the pending group that R69 chooses, which may issue from the fourth clock on; the outgoing group's
latches and operand cache become invalid, and every other group stays. -/
def Obligations.SwapsExchangeGroups : Prop :=
  ∀ (s : State) (gid k rod : Nat) (g p : Group), s.groups.find gid = some g → s.groups.find k = some p → k ≠ gid →
    s.nextIn (rodKey g.frame g.rod) = some (k, p) →
    let swapped := fun (t : State) => SameButGroups s t ∧ (∃ g', t.groups.find gid = some g' ∧ g'.active = none ∧ g'.q = [] ∧ g'.o = [] ∧ g'.hm = 0#4
        ∧ g'.threads = (g.upTo s.now).threads ∧ g'.v = (g.upTo s.now).v ∧ g'.s = (g.upTo s.now).s)
      ∧ (∃ p', t.groups.find k = some p' ∧ p'.active = some (s.now + 4) ∧ p'.swapEnd = s.now + 4 ∧ SameRegs p p')
      ∧ ∀ m, m ≠ gid → m ≠ k → t.groups.find m = s.groups.find m
    (heldLong s g = true → ∃ t, exec (.swapHeldGroup gid) s = .next t ∧ swapped t)
    ∧ (residenceOver s g = true → ∃ t, exec (.swapResidenceExpiry gid) s = .next t ∧ swapped t)
    ∧ (s.outranked rod = some gid → ∃ t, exec (.swapOutranked rod) s = .next t ∧ swapped t)

/-- R46, R199, R202, R263, R267: a node whose teams and children have finished and whose accesses have been performed becomes DONE, a rival
COMPLETE; a guarded node first becomes COMMITTING, and commits while its view's sectors find room. Its parent, its queue and the next teams
are looked at again. Each step of a commit takes one sector of the view, and replaces it whole in the parent, here the base view, as one write; a
sector whose value in the parent has changed since the copy was taken becomes poisoned with cause CONFLICT instead. -/
def Obligations.NodesFinish : Prop :=
  (∀ (s : State) (nk : Nat) (n : Node), s.Inv → s.nodes.find nk = some n → s.kidsFinished nk = true → s.nodeBusy nk = false → n.st = .joining →
    (n.eff.guarded = false → n.eff.paired = false → n.rival = none → n.priv = none → ∃ t n', exec (.nodeDone nk) s = .next t ∧ t.nodes.find nk = some n'
        ∧ n'.st = .done ∧ (∀ q, n.queue = some q → .qfenceComplete q ∈ t.agenda) ∧ .teamReservation n.ctx ∈ t.agenda)
    ∧ (n.eff.guarded = false → n.rival.isSome = true → n.priv = none → ∃ t n', exec (.rivalComplete nk) s = .next t ∧ t.nodes.find nk = some n'
        ∧ n'.st = .complete ∧ t.mem = s.mem
        ∧ ∀ k o h d a b, s.ops.find k = some o → o.ins = .choose h d a b → o.ctx = n.ctx → o.st = .waiting → .chooseRetire k ∈ t.agenda)
    ∧ (n.eff.guarded = true → (∀ kv ∈ s.views, kv.2.node = some nk → kv.2.commit.getD [] = []) →
      let part := s.lead n.ctx
      let v := n.priv.getD 0
      s.commitFits part v = true → ∃ t n', exec (.nodeCommitting nk) s = .next t ∧ t.nodes.find nk = some n' ∧ n'.st = .committing ∧ n'.waits = false
        ∧ Due s t (2000 + s.copiesOf part v) (6000 + 4 * s.copiesOf part v + 300 * s.spilledOf part v) (commitEnd n nk)))
  ∧ ∀ (s : State) (nk k : Nat) (n : Node) (v : View), s.Inv → s.nodes.find nk = some n →
    (s.views.find? fun kv => kv.2.node = some nk && (kv.2.commit.getD []) ≠ []) = some (k, v) → k = viewKey v.part v.id → v.parent = 0 →
    s.views.find k = some v → AMap.wf v.secs = true → (∀ x ∈ v.commit.getD [], ∃ c, v.secs.find x = some c ∧ c.bytes.length = 64) →
    ∃ t x v', exec (.nodeCommitting nk) s = .next t ∧ x ∈ v.commit.getD [] ∧ t.views.find k = some v' ∧ v'.commit = some ((v.commit.getD []).erase x)
      ∧ ∀ c, v.secs.find x = some c →
        (c.changed = false → c.poison = none → t.mem.bytes (64 * x) 64 = c.bytes ∧ t.mem.bad.find x = none
          ∧ ∀ m, (m < 64 * x ∨ 64 * x + 64 ≤ m) → t.mem.byte m = s.mem.byte m)
        ∧ (c.changed = false → ∀ w, c.poison = some w → t.mem.bad.find x = some w)
        ∧ (c.changed = true → s.csrBits offEQCTL 5 5 = 0 → ∃ w, t.mem.bad.find x = some w ∧ causeOf w = 7#4)


-- the ends of maintenance and world operations

/-- R155, R158, R159, R363, R460: the ends of `CRESZ` (the count written and the L1 ways that pass to the store emptied, or a refusal that changes nothing; with `NWB`
nothing is written), `CFLUSH` (dirty sectors written back,
kept clean or dropped), `FESET`, `TLBI` (its translations gone; the group goes on when none is in use), and the full/empty timeout, which traps
`FEWAIT` with the resume mask of the lanes not performed. -/
def Obligations.MaintenanceCompletes : Prop :=
  ∀ (s : State) (id : Nat) (o : Op) (g : Group), s.Inv → s.ops.find id = some o → s.groups.find o.dest = some g →
    let kept (w : Word) : Elem := (o.accs.head?.bind fun a => a.dat.head?).getD (clean w)
    (∀ h d a, o.ins = .cresz h d a → earlierCresz s id o = false →
      let v := (o.vals.getD 0 (clean 0#32)).val.toNat
      let n := s.storeWays o.frame
      let res (x : Nat) (z : Bool) : List Pend := if d.nwb then []
        else [⟨s.now, .ws d.idx.toNat (kept (BitVec.ofNat 32 x))⟩, ⟨s.now, .wfBits 0 4#4 (if z then 4#4 else 0#4)⟩]
      ∃ t, exec (.creszComplete id) s = .next t ∧ .teamReservation o.ctx ∈ t.agenda
        ∧ (creszRefused s o.frame v = true → Ended s t id o (res n true) ∧ t.ways = s.ways ∧ t.l1 = s.l1 ∧ t.mem = s.mem)
        ∧ (creszRefused s o.frame v = false → Ended s t id o (res v false) ∧ t.ways.find o.frame = some v ∧ (v ≤ n → t.l1 = s.l1)
          ∧ (n < v → AMap.wf (s.l1.findD o.frame []) = true → ∀ sec x, (s.l1.findD o.frame []).find sec = some x →
              (t.l1.findD o.frame []).find sec = if 16 ≤ v + x.way then none else some x)))
    ∧ (∀ h inv a b lo hi n, o.ins = .cflush h inv a b → o.vals = [lo, hi, n] → o.after = [] → s.mig = [] →
      let m := s.l1.findD o.frame []
      let secs := if n.poi then m.keys else sectorsIn s o.frame o.ctx (lo.val.toNat + hi.val.toNat * 2 ^ 32) n.val.toNat
      let home := fun sec x => x.dirty = true ∧ ((s.beadsOf (dieOf o.frame) sec).hold.find o.frame).isNone = true
      AMap.wf m = true → (∀ sec x, m.find sec = some x → x.bytes.length = 64) →
      ∃ t, exec (.cflushComplete id) s = .next t ∧ Ended s t id o []
        ∧ (∀ sec ∈ secs, ∀ x, m.find sec = some x → (t.l1.findD o.frame []).find sec = (if inv then none else some { x with dirty := false })
          ∧ (home sec x → x.poison = none → t.mem.bytes (64 * sec) 64 = x.bytes))
        ∧ (∀ sec, sec ∉ secs → (t.l1.findD o.frame []).find sec = m.find sec)
        ∧ ∀ k, (∀ x, secOf k ∈ secs → m.find (secOf k) = some x → ¬ home (secOf k) x) → t.mem.byte k = s.mem.byte k)
    ∧ (∀ h z full a b, o.ins = .feset h z full a b → o.after = [] → o.moved ≠ 0 → o.moved ≤ s.now →
      ∃ t, exec (.fesetComplete id) s = .next t ∧ Ended s t id o [])
    ∧ (∀ h k a b, o.ins = .tlbi h k a b → o.after = [] → g.hold = .op id →
      (o.seg = 0 → ∃ t, exec (.tlbiComplete o.dest) s = .next t ∧ (∀ f l, t.tlb.find f = some l → ∀ e ∈ l, tlbiCovers o e.ctx e.page = false)
          ∧ t.ops.find id = some { o with seg := 1, moved := s.ids } ∧ t.agenda = s.agenda ++ [.tlbiComplete o.dest])
      ∧ (o.seg ≠ 0 → stillUses s o o.moved = true → exec (.tlbiComplete o.dest) s = .next { s with timers := s.timers ++ [(s.now + 16, .tlbiComplete o.dest)] })
      ∧ (o.seg ≠ 0 → stillUses s o o.moved = false → ∃ t g', exec (.tlbiComplete o.dest) s = .next t ∧ t.ops.find id = none
          ∧ t.groups.find o.dest = some g' ∧ g'.hold = .none ∧ SameRegs g g'))
    ∧ (∀ since, g.hold = .fewait id since → CanTrap g →
      let rest := o.accs.filter fun a => !a.done
      (s.now ≤ since + s.fetmo (partOf g.frame) → exec (.fewaitTimeout o.dest) s = .next s)
      ∧ (since + s.fetmo (partOf g.frame) < s.now → ∃ t g', exec (.fewaitTimeout o.dest) s = .next t ∧ t.ops.find id = none
          ∧ Trapped s t o.dest { g with hold := .none } 11#4 (BitVec.ofNat 64 ((rest.head?).elim 0 Acc.adr)) o.pc (BitVec.ofNat 32 o.seg)
          ∧ t.groups.find o.dest = some g' ∧ ∀ n < 32, Mask.has g'.resume n = rest.any fun a => a.lane = n))

/-- R199, R263, R264, R364, R396, R409, R470, R481: the ends of `LAUNCH` (its node registered and READY or FAILED, with the status of Table 17.2), `FORKW`
(a handle, views and READY rivals, or the reason in `f0`), `CHOOSE` (at once for a dead handle; else after the commit or failure of its rival, which
ends the fork) and `WDROP` (the fork ends). -/
def Obligations.WorldCallsRetire : Prop :=
  ∀ (s : State) (id : Nat) (o : Op) (g : Group) (d : Dst), s.Inv → s.ops.find id = some o → s.groups.find o.dest = some g →
    let kept (w : Word) : Elem := (o.accs.head?.bind fun a => a.dat.head?).getD (clean w)
    let status (w : Word) := if d.nwb then [] else [(⟨s.now + 1, .ws d.idx.toNat (kept w)⟩ : Pend)]
    let addr (k : Nat) := ((o.vals.getD (k + 1) (clean 0#32)).val ++ (o.vals.getD k (clean 0#32)).val).toNat
    (∀ h a, o.ins = .launch h d a → s.unfinished o.ctx < 4096 →
      (∀ e, s.readRcb o.ctx o.view (addr 0) true = .error e → ∃ t, exec (.launchRetire id) s = .next t ∧ Ended s t id o (status 2#32) ∧ t.nodes = s.nodes)
      ∧ ∀ x, s.readRcb o.ctx o.view (addr 0) true = .ok x →
        ((s.nodeAt o.ctx (addr 0)).isSome = true → ∃ t, exec (.launchRetire id) s = .next t ∧ Ended s t id o (status 3#32) ∧ t.nodes = s.nodes)
        ∧ (s.nodeAt o.ctx (addr 0) = none →
          let r := Rcb.ofBytes x
          let pk := parentOf s o.ctx r.parent (s.nodeOf o)
          let par := pk.join.bind fun k => s.nodes.find k
          let ok := launchable s o.ctx (addr 0) x r (effective (s.pceil (s.lead o.ctx)) r (par.map Node.eff)) pk
          ∃ t n, exec (.launchRetire id) s = .next t ∧ Ended s t id o (status (if ok then 0#32 else 1#32)) ∧ t.nodes.find s.ids = some n
            ∧ n.ctx = o.ctx ∧ n.rcbva = addr 0 ∧ n.parent = pk.join
            ∧ n.st = (if !ok then .failed else if bitsOf (leNat x) 319 288 = 0 then .ready else .waiting)))
    ∧ (∀ h a b nk n x, o.ins = .forkw h d a b → s.nodeOf o = some nk → s.nodes.find nk = some n → s.readRcb o.ctx o.view (addr 1) false = .ok x →
      let cnt := (o.vals.getD 0 (clean 0#32)).val.toNat
      let e := effective (s.pceil (s.lead o.ctx)) (Rcb.ofBytes x) (some n.eff)
      let each := if e.guarded then 2 else 1
      s.unfinished o.ctx + cnt ≤ 4096 → launchable s o.ctx (addr 1) x (Rcb.ofBytes x) { e with guarded := false } (some (some nk)) = true →
      s.viewDepth (s.lead o.ctx) o.view + each ≤ 4 → (s.ancestry s.nodes.length nk).all (fun a =>
        (s.nodes.find a).elim true fun m => s.viewsOf a + cnt * each ≤ m.eff.bview) = true →
      ∀ k vs, k < 64 → (∀ j ≤ k, (s.forks.find (64 * partOf o.frame + j)).elim false Fork.live = decide (j < k)) →
        takeViews s (s.lead o.ctx) cnt = some vs →
        let gen := (s.forks.find (64 * partOf o.frame + k)).elim 0#22 Fork.gen
        ∃ t f, exec (.forkwRetire id) s = .next t
          ∧ Ended s t id o (status (gen ++ BitVec.ofNat 4 (cnt - 1) ++ BitVec.ofNat 6 k) ++ if d.nwb then [] else [⟨s.now + 1, .wfBits 0 5#4 0#4⟩])
          ∧ t.forks.find (64 * partOf o.frame + k) = some f ∧ f.live = true ∧ f.gen = gen ∧ f.issuer = nk ∧ f.views = vs ∧ f.view = o.view
          ∧ ∀ i < cnt, ∃ m v, f.rivals[i]? = some (s.ids + i) ∧ t.nodes.find (s.ids + i) = some m ∧ m.st = .ready ∧ m.parent = some nk ∧ m.eff = e
            ∧ m.view = vs.getD i 0 ∧ t.views.find (viewKey (s.lead o.ctx) (vs.getD i 0)) = some v ∧ v.parent = o.view ∧ v.secs = [])
    ∧ (∀ h a b, o.ins = .choose h d a b →
      let k := (o.vals.getD 1 (clean 0#32)).val.toNat
      (s.forkAt o.frame o.handle = none → o.st = .sent → o.seg = 0 → ∃ t, exec (.chooseRetire id) s = .next t ∧ Ended s t id o (status 2#32))
      ∧ ∀ fk f, s.forkAt o.frame o.handle = some fk → s.forks.find fk = some f → s.insideFork fk o.view = false → s.behindWorldOp id o = false →
        let v := f.views.getD k 0
        (∀ m, o.st = .sent → o.seg = 0 → s.rivalNode fk k = some m → m.2.st = .complete → s.commitFits f.vpart v = true → ∃ t, exec (.chooseRetire id) s = .next t
          ∧ t.ops.find id = some { o with seg := 1 } ∧ Due s t (500 + s.copiesOf f.vpart v) (2000 + 4 * s.copiesOf f.vpart v + 300 * s.spilledOf f.vpart v) (.chooseRetire id))
        ∧ (∀ m, o.seg = 0 → s.rivalNode fk k = some m → m.2.st.finished = false → m.2.st ≠ .complete →
            ∃ t, exec (.chooseRetire id) s = .next t ∧ t.ops.find id = some { o with st := .waiting, seg := 4 } ∧ t.forks = s.forks)
        ∧ (o.seg = 1 → ∃ t f', exec (.chooseRetire id) s = .next t ∧ t.ops.find id = none ∧ t.forks.find fk = some f' ∧ f'.live = false
          ∧ f'.gen = f.gen + 1#22 ∧ .teamReservation o.ctx ∈ t.agenda ∧ ∀ g', t.groups.find o.dest = some g' →
            ∀ p ∈ status (if (s.views.find (viewKey f.vpart v)).elim false View.escaped then 0x100#32 else 0#32), p ∈ g'.pend)
        ∧ (o.seg = 2 → ∃ t, exec (.chooseRetire id) s = .next t ∧ Ended s t id o (status 1#32) ∧ t.forks = s.forks)
        ∧ (o.seg = 3 → ∃ t, exec (.chooseRetire id) s = .next t ∧ Ended s t id o (status 3#32) ∧ t.forks = s.forks))
    ∧ (∀ h a, o.ins = .wdrop h a →
      (s.forkAt o.frame o.handle = none → ∃ t, exec (.wdropRetire id) s = .next t ∧ Ended s t id o [] ∧ t.nodes = s.nodes ∧ t.views = s.views)
      ∧ ∀ fk f, s.forkAt o.frame o.handle = some fk → s.forks.find fk = some f → s.insideFork fk o.view = false → s.behindWorldOp id o = false →
        ∃ t f', exec (.wdropRetire id) s = .next t ∧ t.ops.find id = none ∧ t.forks.find fk = some f' ∧ f'.live = false ∧ f'.gen = f.gen + 1#22
          ∧ .teamReservation o.ctx ∈ t.agenda)


-- homes, snoops and beads

/-- R203 to R210, R213, R214, R216, R219, R227, R232, R483: A request at its home with nothing to snoop outside changes the directory as Table 9.2
says and is answered with the sector, or, when its stamp has passed or the firewall forbids it, is refused with no effect; a write-back by the owner
reaches memory, one by another is dropped; the last answer to a snoop brings its data and lets the request go on. A snoop of another package's home
is answered from what the die holds. Beads move inside a die: all 64 for a persistent request, one access before its release, back on eviction. -/
def Obligations.HomesServeAndBeadsMove : Prop :=
  ∀ (s : State) (a : Agent) (sec st : Nat), s.Inv → s.power ≠ .held → s.deadCell (s.cellOf (Agent.pkg a)) = false → sec < 2 ^ 46 →
    let d := s.dirOf sec
    let quiet := fun (n : Nat) w => s.migAt (64 * n) false = none ∧ s.migAt (64 * n) true = none ∧ (s.transOf n).cur = none ∧ s.unswept n = false
      ∧ s.awaited (some a) w n = []
    let data := fun (n : Nat) (x : List Byte × Option Word) => OutMsg.readData (s.portTo a n) 0 x.1 x.2.isSome (Config.sectorCrc x.1)
    let sends := fun (t : State) => t.mem = s.mem ∧ t.outbox = s.outbox ++ [data sec ((s.baseSector sec).bytes, (s.baseSector sec).poison)]
    let mine := fun (t : State) => (t.dirOf sec).st = .m ∧ (t.dirOf sec).holders = [a]
    let refused (n : Nat) : Host.Outcome State Fault Refusal := .next { s with outbox := s.outbox ++ [.reply (s.portTo a n) [1]] }
    (st < s.ftime → (∀ g, exec (.readShared ⟨a, st⟩ g sec) s = refused sec) ∧ exec (.readForOwnership ⟨a, st⟩ sec) s = refused sec
      ∧ exec (.upgrade ⟨a, st⟩ sec) s = refused sec ∧ ∀ pa n l p, exec (.uncacheableRead ⟨a, st⟩ pa n) s = refused (secOf pa)
        ∧ exec (.uncacheableWrite ⟨a, st⟩ pa l p) s = refused (secOf pa))
    ∧ (s.ftime ≤ st →
      (∀ g, quiet sec false → s.absentAt (64 * sec) = false → ∃ t, exec (.readShared ⟨a, st⟩ g sec) s = .next t ∧ sends t
        ∧ (d.st = .i → (t.dirOf sec).st = (if g then .s else .e) ∧ (t.dirOf sec).holders = [a])
        ∧ (d.st ≠ .i → d.holders = [a] → t.dir = s.dir)
        ∧ (d.st ≠ .i → d.holders ≠ [a] → (t.dirOf sec).st = .s ∧ ∀ b, b ∈ (t.dirOf sec).holders ↔ b ∈ d.holders ∨ b = a))
      ∧ (quiet sec true → s.admits a (64 * sec) = true →
        (∃ t, exec (.readForOwnership ⟨a, st⟩ sec) s = .next t ∧ sends t ∧ mine t)
        ∧ ∃ t, exec (.upgrade ⟨a, st⟩ sec) s = .next t ∧ mine t ∧ (a ∉ d.holders → sends t)
          ∧ (a ∈ d.holders → t.mem = s.mem ∧ t.outbox = s.outbox ++ [.reply (s.portTo a sec) [0]]))
      ∧ (quiet sec true → s.admits a (64 * sec) = false → exec (.readForOwnership ⟨a, st⟩ sec) s = refused sec ∧ exec (.upgrade ⟨a, st⟩ sec) s = refused sec)
      ∧ (∀ pa n, quiet (secOf pa) false → s.absentAt pa = false → exec (.uncacheableRead ⟨a, st⟩ pa n) s
          = .next { s with outbox := s.outbox ++ [data (secOf pa) (s.readBytes 0 0 pa n)] })
      ∧ (∀ pa l p, quiet (secOf pa) true → (s.admits a pa = false → exec (.uncacheableWrite ⟨a, st⟩ pa l p) s = refused (secOf pa))
          ∧ (s.admits a pa = true → ∃ t, exec (.uncacheableWrite ⟨a, st⟩ pa l p) s = .next t ∧ t.outbox = s.outbox ++ [.reply (s.portTo a (secOf pa)) [0]]
            ∧ (∀ w, p = some w → ∀ k < l.length, t.mem.bad.find (secOf (pa + k)) = some w)
            ∧ (p = none → (∀ k < l.length, s.mem.bad.find (secOf (pa + k)) = none) →
                t.mem.bytes pa l.length = l ∧ ∀ m, (m < pa ∨ pa + l.length ≤ m) → t.mem.byte m = s.mem.byte m)))
      ∧ (∀ x : SectorData, x.bytes.length = 64 → s.migAt (64 * sec) true = none →
          (((d.st = .m ∨ d.st = .e) ∧ d.holders = [a]) → a ∉ (s.transOf sec).await → ∃ t, exec (.writeBack ⟨a, st⟩ sec x) s = .next t
            ∧ (x.crcOk = true → x.poison = none → t.mem.bytes (64 * sec) 64 = x.bytes) ∧ (x.crcOk = true → t.mem.bad.find sec = x.poison)
            ∧ (x.crcOk = false → ∃ w, t.mem.bad.find sec = some w ∧ causeOf w = 1#4) ∧ (t.dirOf sec).st = .i ∧ (t.dirOf sec).holders = [])
          ∧ (¬ ((d.st = .m ∨ d.st = .e) ∧ d.holders = [a]) → exec (.writeBack ⟨a, st⟩ sec x) s = .next s))
      ∧ ((d.st = .s ∨ d.st = .e) → a ∈ d.holders → ∃ t, exec (.cleanEviction ⟨a, st⟩ sec) s = .next t ∧ t.mem = s.mem
          ∧ (t.dirOf sec).holders = d.holders.erase a))
    ∧ (s.ownHome sec = true → a ∈ d.holders → d.st ≠ .i → ∀ w k, s.trans.find sec = some ⟨some w, [a], []⟩ → w.op = some k →
      let goes := fun (t : State) => t.trans.find sec = none ∧ w.req ∈ t.agenda
      exec (.invalidate a sec .writtenBack) s = .next s
      ∧ (∃ t, exec (.downgrade a sec .notHeld) s = .next t ∧ goes t ∧ t.mem = s.mem ∧ (t.dirOf sec).holders = d.holders.erase a)
      ∧ ∀ x : SectorData, x.bytes.length = 64 → x.crcOk = true → x.poison = none →
        let back := fun (t : State) => t.mem.bytes (64 * sec) 64 = x.bytes ∧ goes t
        (∃ t, exec (.invalidate a sec (.dirty x)) s = .next t ∧ back t ∧ (t.dirOf sec).holders = d.holders.erase a)
        ∧ (∃ t, exec (.downgrade a sec (.dirty x)) s = .next t ∧ back t ∧ (t.dirOf sec).holders = d.holders ∧ (t.dirOf sec).st = .s)
        ∧ (a = .host s.ownPkg → ∃ t, exec (.backInvalidate sec (.dirty x)) s = .next t ∧ back t ∧ (t.dirOf sec).holders = d.holders.erase a))
    ∧ (∀ k r ans, k < 4 → a = .rdc s.ownPkg k → s.homeOf sec = some r → r.pkg ≠ s.ownPkg → s.deadCell (s.cellOf r.pkg) = false →
      let tells := fun (t : State) x => t.mem = s.mem ∧ t.outbox = s.outbox ++ [.answer (s.portFor k sec) r.pkg a sec x]
      (a ∈ d.holders → d.st ≠ .i → ∃ t, exec (.invalidate a sec ans) s = .next t ∧ (t.dirOf sec).holders = d.holders.erase a
          ∧ tells t (if d.st = .m then .dirty ⟨(s.baseSector sec).bytes, (s.baseSector sec).poison, true⟩ else .clean))
      ∧ (a ∈ d.holders → ∃ t, exec (.downgrade a sec ans) s = .next t ∧ (t.dirOf sec).st = .s ∧ (t.dirOf sec).holders = d.holders
          ∧ tells t (if d.st = .m then .dirty ⟨(s.baseSector sec).bytes, (s.baseSector sec).poison, true⟩ else .clean))
      ∧ (a ∉ d.holders → ∃ t, exec (.invalidate a sec ans) s = .next t ∧ t.dir = s.dir
          ∧ tells t (if (s.seen.find (backKey k sec)).isSome then .writtenBack else .notHeld)))
    ∧ ∀ f, f < 256 → (∀ k, AMap.wf (s.l1.findD k []) = true) → AMap.wf (s.beadsOf (dieOf f) sec).hold = true →
      let die := dieOf f
      let b := s.beadsOf die sec
      let all := fun (t : State) => t.beadsOf die sec = ⟨[(f, 64)], some f⟩ ∧ t.mem = s.mem
        ∧ ∀ k ∈ b.hold.keys, k ≠ f → (t.l1.findD k []).find sec = none
      let asks := fun (t : State) r => t.breqs.find (breqKey f sec) = some r ∧ (s.now + 64, .transientRetry f sec) ∈ t.timers ∧ t.mem = s.mem
        ∧ b.hold.findD f 0 ≤ (t.beadsOf die sec).hold.findD f 0
      (∀ w, (beadsEnough s f sec w = true ∨ (s.breqs.find (breqKey f sec)).isSome = true → exec (.transientRequest f sec w) s = .next s)
        ∧ (beadsEnough s f sec w = false → s.breqs.find (breqKey f sec) = none → ∃ t, exec (.transientRequest f sec w) s = .next t ∧ asks t ⟨w, 1, false, 0, false⟩))
      ∧ (∀ q, s.breqs.find (breqKey f sec) = some q → q.persist = false →
        (beadsEnough s f sec q.write = true → exec (.transientRetry f sec) s = .next { s with breqs := s.breqs.del (breqKey f sec) })
        ∧ (beadsEnough s f sec q.write = false → q.tries < 4 → ∃ t, exec (.transientRetry f sec) s = .next t ∧ asks t { q with tries := q.tries + 1 })
        ∧ (beadsEnough s f sec q.write = false → 4 ≤ q.tries → b.Whole →
            (∀ kv ∈ s.breqs, dieOf (kv.1 % 256) = die → kv.2.persist = false ∧ kv.2.active = false) →
          ∃ t, exec (.transientRetry f sec) s = .next t ∧ all t ∧ Due s t 120 600 (.persistentRequest f sec)
            ∧ t.breqs.find (breqKey f sec) = some { q with persist := true, since := s.ids, active := true }))
      ∧ (∀ q, s.breqs.find (breqKey f sec) = some q → q.active = true → beadsTaken s f sec = false → b.Whole →
        let waits := s.ops.find? fun kv => kv.2.frame = f && kv.2.st = .sent && kv.2.accs.any fun x =>
          !x.done && x.page.elim false fun p => secOf (p.paOf x.adr) = sec
        (∀ id o i, q.persist = true → waits = some (id, o) → opStep id o.ins = some i → ∃ t, exec (.persistentRequest f sec) s = .next t ∧ all t
          ∧ t.breqs.find (breqKey f sec) = some { q with persist := false } ∧ i ∈ t.agenda ∧ .persistentRequest f sec ∈ t.agenda)
        ∧ (q.persist = false ∨ waits = none → ∃ t, exec (.persistentRequest f sec) s = .next t ∧ t.breqs.find (breqKey f sec) = none ∧ t.mem = s.mem))
      ∧ (AMap.wf b.hold = true → (b.hold.find f).isSome = true → ∃ t, exec (.beadEviction f sec) s = .next t ∧ t.mem = s.mem
          ∧ (t.l1.findD f []).find sec = none ∧ (t.beadsOf die sec).hold = b.hold.del f ∧ (t.beadsOf die sec).owner ≠ some f)
      ∧ ∀ x, s.migAt (64 * sec) true = none → x.bytes.length = 64 → x.poison = none →
        let kept := fun (t : State) => t.mem.bytes (64 * sec) 64 = (if x.dirty then x.bytes else s.mem.bytes (64 * sec) 64)
          ∧ ∀ m, (m < 64 * sec ∨ 64 * sec + 64 ≤ m) → t.mem.byte m = s.mem.byte m
        ((s.l1.findD f []).find sec = some x → ∃ t, exec (.swmEviction f sec) s = .next t ∧ kept t ∧ (t.l1.findD f []).find sec = none)
        ∧ ∀ k, s.inRdc die sec = some (k, x) → AMap.wf (s.rdc.findD k []) = true → ∃ t, exec (.swmEviction (256 + die) sec) s = .next t ∧ kept t
          ∧ (t.rdc.findD k []).find sec = none


-- links, cells and the host

/-- R201, R215, R219 to R229, R298, R304: LINKS AND CELLS: a link that comes up or fails, heartbeats and their loss, the declaration that a cell is
dead with its five sweeps, which leave no directory entry that names it and poison what it owned, re-admission, the loss of a package of the own cell,
which halts every context, and requests that no home answers: a load takes TIMEOUT poison, a store becomes a lost store. THE HOST: writes reach memory
when the firewall permits, reads and snoops are answered, a warm restart drops its sectors, and marks are cleared. -/
def Obligations.LinksCellsAndHost : Prop :=
  ∀ s : State, s.Inv →
    (s.power = .held → ∀ i, (∃ l, i = .linkUp l ∨ i = .linkReplayExhausted l) ∨ (∃ p k, i = .heartbeat p k) ∨ (∃ c, i = .cellDownMessage c)
      ∨ (∃ tc pa l, i = .hostMemWrite tc pa l) ∨ (∃ pa n, i = .hostMemRead pa n) ∨ (∃ x v, i = .hostSnoop x v) → exec i s = .next s)
    ∧ (s.power ≠ .held →
      let declares := fun i cell => ∃ t, exec i s = .next t ∧ t.deadCell cell = true ∧ t.mem = s.mem
        ∧ ∀ h < 5, Due s t 200000 2000000 (.peerSweepComplete cell h)
      let watched (pkg at_ : Nat) (t : List (Nat × Instr)) := if t.any fun x => x.2 = .heartbeatLoss pkg then t else t ++ [(max (s.now + 1) at_, .heartbeatLoss pkg)]
      (∀ l, ∃ t, exec (.linkUp l) s = .next t ∧ t.portUp (linkKey l) = true ∧ (t.csrBits offTWINCFG 2 2 = 1 ↔ t.portUp 16 = true ∧ t.portUp 17 = true))
      ∧ (∀ l, ∃ t, exec (.linkReplayExhausted l) s = .next t ∧ t.portUp (linkKey l) = false ∧ (∀ n, l = .host n → .warmRestart n ∈ t.agenda)
          ∧ (∀ n, l = .twin n → .twinLinkDown ∈ t.agenda) ∧ (∀ n, l = .fabric n → t.upPlanes = [] → ∀ p ∈ s.peers, .cellfail p true ∈ t.agenda))
      ∧ (∀ l, ∃ t, exec (.linkLevelReplay l) s = .next t
          ∧ (t.csr (offERRCNT (linkDie l) 5)).toNat = min (2 ^ 32 - 1) ((s.csr (offERRCNT (linkDie l) 5)).toNat + 1))
      ∧ exec .heartbeatSend s = .next { s with outbox := s.outbox ++ s.upPlanes.map (fun k => .heartbeat k s.ftime),
                                               timers := s.timers ++ [(s.now + 10000, .heartbeatSend)] }
      ∧ (∀ pkg plane, pkg < 256 → pkg ≠ s.ownPkg →
        (s.deadCell (s.cellOf pkg) = true → exec (.heartbeat pkg plane) s = .next s ∧ exec (.heartbeatLoss pkg) s = .next s)
        ∧ (s.deadCell (s.cellOf pkg) = false →
          (s.portUp (plane % 16) = true → exec (.heartbeat pkg plane) s
            = .next { s with seen := s.seen.put pkg s.now, timers := watched pkg (s.now + s.lossClocks) s.timers })
          ∧ (s.now < s.seen.findD pkg 0 + s.lossClocks → exec (.heartbeatLoss pkg) s
            = .next { s with timers := watched pkg (s.seen.findD pkg 0 + s.lossClocks) s.timers })
          ∧ (s.seen.findD pkg 0 + s.lossClocks ≤ s.now →
            (s.cellOf pkg = s.cellOf s.ownPkg → exec (.heartbeatLoss pkg) s = .next { s with agenda := s.agenda ++ [.cellfail pkg false] })
            ∧ (s.cellOf pkg ≠ s.cellOf s.ownPkg → s.cellOf pkg < 256 → declares (.heartbeatLoss pkg) (s.cellOf pkg)))))
      ∧ (∀ k b, k < 8 → b < 32 → s.deadCell (32 * k + b) = false → 32 * k + b ≠ s.cellOf s.ownPkg →
          declares (.cellDownMessage (32 * k + b)) (32 * k + b) ∧ declares (.celldnWrite k (1#32 <<< b)) (32 * k + b))
      ∧ (∀ k v, k < 8 → ∃ t, exec (.cellraWrite k v) s = .next t ∧ ∀ b < 32, t.deadCell (32 * k + b) = (s.deadCell (32 * k + b) && !v.getLsbD b))
      ∧ (∀ cell home x, s.deadCell cell = true → s.trans = [] → x ∈ s.namedBy cell home →
        let dead (a : Agent) : Bool := s.cellOf (Agent.pkg a) = cell
        (s.dirOf x).holders.any dead = true →
        ∃ t, exec (.peerSweepComplete cell home) s = .next t
          ∧ ((s.dirOf x).st = .s → (t.dirOf x).holders = (s.dirOf x).holders.filter fun a => !dead a)
          ∧ ((s.dirOf x).st = .m ∨ (s.dirOf x).st = .e → (t.dirOf x).st = .i ∧ (t.dirOf x).holders = []
            ∧ (s.csrBits offEQCTL 5 5 = 0 → (t.mem.bad.find x).isSome = true)))
      ∧ (∀ pkg planes, pkg ∈ s.peers → s.seen.find (lostKey pkg) = none → (planes = false → s.seen.findD pkg 0 + s.lossClocks ≤ s.now) →
        ∃ t, exec (.cellfail pkg planes) s = .next t ∧ t.gonePkg pkg = true ∧ (∀ k ∈ s.upPlanes, .cellDown k (s.cellOf s.ownPkg) ∈ t.outbox)
          ∧ ∀ k c, s.ctxs.find k = some c → c.parts ≠ [] → c.run = .resident → ∃ c', t.ctxs.find k = some c' ∧ c'.run = .halting)
      ∧ (∀ id o x, s.ops.find id = some o → o.asked = [x] → x.st = .pending →
        let late := x.sent + s.csrBits offTOUT 16 0 * 1000 + 24000
        (s.now < late → exec (.requestLost id) s = .next { s with ops := s.ops.put id o, timers := s.timers ++ [(s.lostAt x.sent, .requestLost id)] })
        ∧ (late ≤ s.now → (∃ q ∈ o.reqs, askKey o q.1 = x.key ∧ (s.homeSt o q.2 q.1 = .noPath ∨ s.homeSt o q.2 q.1 = .ask)) →
            ∀ i, o.stepOf id = some i → exec (.requestLost id) s
              = .next { s with ops := s.ops.put id { o with asked := [{ x with st := .lost }] }, agenda := s.agenda ++ [i] }))
      ∧ (∀ id o, s.ops.find id = some o → o.st = .sent →
        (∀ h w a b mc x rest, o.ins = .st h false w a b mc → o.accs = x :: rest →
          (∀ y ∈ o.accs, y.done = false ∧ (s.homeSt o true y = .lost ∨ s.homeSt o true y = .refused ∨ s.homeSt o true y = .absent
            ∨ ∃ d, s.homeSt o true y = .dead d)) →
          ∃ t, exec (.grant ⟨id, none⟩) s = .next t ∧ t.ops.find id = some { o with st := .lost }
            ∧ (s.faultOn (partOf o.frame) = true → ∃ key r, t.recs.find key = some r ∧ r.kind = 7 ∧ r.op = id
              ∧ (s.homeSt o true x = .lost → r.cause = 4) ∧ (∀ d, s.homeSt o true x = .dead d → r.cause = 8)
              ∧ (s.homeSt o true x = .refused ∨ s.homeSt o true x = .absent → r.cause = 5)
              ∧ ∀ g', t.groups.find o.gid = some g' → key ∈ g'.lost))
        ∧ ∀ w u g, IsLoad s o w → o.ins.dst? = some u → s.groups.find o.dest = some g → (o.accs.map Acc.lane).Nodup → NothingMarked s o → o.held = [] →
          (∀ a ∈ o.accs, a.lane < 32 ∧ (a.done = false → (∀ w, s.homeSt o w a = .lost) ∧ s.hostGone a.pa = false ∧ a.dat = [])) →
          ∃ t f, exec (.loadReturn id) s = .next t ∧ t.ops.find id = none ∧ Returns s t o u f
            ∧ ∀ a ∈ o.accs, a.done = false → ∀ k < u.span, k < 4 → (f a.lane k).poi = true ∧ causeOf (f a.lane k).val = 4#4)
      ∧ (∀ pa n, s.mig = [] → s.trans = [] → s.ownMemory pa n = true → (∀ x ∈ sectorsOf pa n, s.unswept x = false) →
        (∀ tc (l : List Byte), l.length = n → (∀ x ∈ sectorsOf pa n, s.awaited (some s.hostAgent) true x = []) → ∃ t, exec (.hostMemWrite tc pa l) s = .next t
          ∧ t.outbox = s.outbox ++ (if tc < twinClass && (s.partOfPa pa).elim false s.partPaired then [.twinWrite pa l] else [])
          ∧ (s.admits s.hostAgent pa = false → t.mem = s.mem)
          ∧ (s.admits s.hostAgent pa = true → (∀ x ∈ sectorsOf pa n, s.mem.bad.find x = none) →
              t.mem.bytes pa n = l ∧ ∀ m, (m < pa ∨ pa + n ≤ m) → t.mem.byte m = s.mem.byte m))
        ∧ ((∀ x ∈ sectorsOf pa n, s.awaited (some s.hostAgent) false x = []) → s.absentAt pa = false → ∃ t, exec (.hostMemRead pa n) s = .next t
          ∧ t.mem = s.mem ∧ (let x := s.readBytes 0 0 pa n
            t.outbox = s.outbox ++ [.readData (s.portTo s.hostAgent (secOf pa)) 0 x.1 x.2.isSome (Config.sectorCrc x.1)])
          ∧ ∀ x ∈ sectorsOf pa n, s.hostAgent ∈ (t.dirOf x).holders))
      ∧ (∀ sec, sec < 2 ^ 46 →
        let dirty := fun (t : State) d => (t.inRdc d sec).elim false (fun p => p.2.dirty) = true
        let base := s.baseSector sec
        ∀ inv, ∃ t, exec (.hostSnoop sec inv) s = .next t
          ∧ ((∃ d < 4, dirty s d) → t.outbox = s.outbox ++ [.readData (s.portTo s.hostAgent sec) 0 base.bytes base.poison.isSome (Config.sectorCrc base.bytes)])
          ∧ ((∀ d < 4, ¬ dirty s d) → t.outbox = s.outbox ++ [.reply (s.portTo s.hostAgent sec) [if (List.range 4).all (fun d => (s.inRdc d sec).isNone) then 0 else 1]])
          ∧ (inv = false → t.mem = s.mem ∧ ∀ d < 4, ¬ dirty t d)
          ∧ (inv = true → (∀ d < 4, ∀ k x, s.inRdc d sec = some (k, x) → AMap.wf (s.rdc.findD k []) = true → (t.rdc.findD k []).find sec = none)
            ∧ ∀ m, (m < 64 * sec ∨ 64 * sec + 64 ≤ m) → t.mem.byte m = s.mem.byte m)))
    ∧ (∀ link, (s.seen.find (warmKey link) = none → ∃ t, exec (.warmRestart link) s = .next t ∧ .warmRestart link ∈ t.agenda
        ∧ ∀ k c, s.ctxs.find k = some c → c.run = .resident → (∃ p ∈ c.parts, s.csrBits (offPARTCFG p) 42 42 = 1) →
          ∃ c', t.ctxs.find k = some c' ∧ c'.run = .cutting)
      ∧ ((s.seen.find (warmKey link)).isSome = true → s.hostMapped (fun r => r = .cutting) = [] → ∃ t, exec (.warmRestart link) s = .next t
        ∧ t.seen.find (warmKey link) = none ∧ ∀ x < 2 ^ 46, (s.hostPa (64 * x) = true → ∀ d < 4, t.inRdc d x = none
            ∧ ((s.inRdc d x).elim false (fun p => p.2.dirty) = true → x ∈ t.mem.hgone))
          ∧ (s.trans = [] → (s.dirOf x).st ≠ .i → s.hostAgent ∉ (t.dirOf x).holders)))
    ∧ (∀ n, (s.csrBits offHGCMD 32 32 = 1 → exec (.hgcmdClear n) s = .next s)
      ∧ (s.csrBits offHGCMD 32 32 = 0 → ∃ t, exec (.hgcmdClear n) s = .next t ∧ t.csrBits offHGCMD 32 32 = 1 ∧ Due s t 1 20000 .hostgoneClearComplete
        ∧ ∀ x, x ∈ t.mem.hgone ↔ x ∈ s.mem.hgone ∧ inClear s (s.csrBits offHGBASE 51 12 * 4096) n.toNat x = false))
    ∧ ∃ t, exec .hostgoneClearComplete s = .next t ∧ t.csrBits offHGCMD 32 32 = 0 ∧ t.mem = s.mem


-- the supervisor's commands

/-- R221, R237, R242 to R244, R247 to R249, R259: FAULT COMMANDS: `FQCMD` answers 1, 2 or 3 and does nothing else, or answers 0 and is accepted, at
once or once the threads have parked; REPLAY then lets them run again from the oldest faulting load or sends a lost store again, CANCEL lets them
resume to the trap `PAGEX`, which they take at their next issue. A record behind a full ring is written when there is room. HOME COMMANDS: MARK and
SWOPEN open a range, which RELEASE and SWCLOSE end; its parked requests go on. `VWCMD` lets the writes of a full view be tried again, or sends them
to the trap `VIEWFULL`. -/
def Obligations.FaultAndHomeCommands : Prop :=
  ∀ s : State, s.Inv →
    (∀ part seq, let stat (n : Nat) : Host.Outcome State Fault Refusal := .next { s with sys := s.sys.put (offFQSTAT part) (BitVec.ofNat 64 n) }
      (s.openRec part seq = none →
        let saved := ∃ kv ∈ s.saved, ∃ x ∈ kv.2.recs, x.2.part = part ∧ x.2.seq = seq ∧ x.2.status = 0
        (¬ saved → exec (.fqcmdReplay part seq) s = stat 1 ∧ exec (.fqcmdCancel part seq) s = stat 1)
        ∧ (saved → exec (.fqcmdReplay part seq) s = stat 2 ∧ exec (.fqcmdCancel part seq) s = stat 2))
      ∧ ∀ key r, s.openRec part seq = some (key, r) →
        let begun := fun t c => t.recs.find key = some { r with cmd := some c } ∧ Due s t 2000 8000 (.replayReissue part seq)
        let applied := fun i c => ∃ t, exec i s = .next t ∧ begun t c ∧ t.csr (offFQSTAT part) = 0#64
        let held := fun i c => ∃ t, exec i s = .next t ∧ t.recs.find key = some { r with cmd := some c } ∧ t.timers = s.timers ∧ t.csr (offFQSTAT part) = 0#64
        let ok := s.resident r.ctx = true ∧ regionTaken s key r = false
        (s.resident r.ctx = false → exec (.fqcmdReplay part seq) s = stat 2 ∧ exec (.fqcmdCancel part seq) s = stat 2)
        ∧ (s.resident r.ctx = true → regionTaken s key r = true → exec (.fqcmdReplay part seq) s = stat 1 ∧ exec (.fqcmdCancel part seq) s = stat 1)
        ∧ (ok → 8 ≤ r.rcnt → exec (.fqcmdReplay part seq) s = stat 3)
        ∧ (ok → recParked s key r = true →
          (r.rcnt < 8 → applied (.fqcmdReplay part seq) 3) ∧ (r.kind ≠ 4 → r.kind ≠ 5 → applied (.fqcmdCancel part seq) 4))
        ∧ (ok → recParked s key r = false → (r.rcnt < 8 → held (.fqcmdReplay part seq) 1) ∧ held (.fqcmdCancel part seq) 2)
        ∧ (recParked s key r = false → exec (.fqcmdDeferredApply part seq) s = .next s)
        ∧ (recParked s key r = true → r.kind ≠ 4 → r.kind ≠ 5 →
          (r.cmd = some 1 → ∃ t, exec (.fqcmdDeferredApply part seq) s = .next t ∧ begun t 3)
          ∧ (r.cmd = some 2 → ∃ t, exec (.fqcmdDeferredApply part seq) s = .next t ∧ begun t 4))
        ∧ (∀ g, s.groups.find r.gid = some g →
          let becomes := fun (f : Thread → Thread) => ∃ t g', exec (.replayReissue part seq) s = .next t ∧ t.groups.find r.gid = some g' ∧ SameRegs g g'
            ∧ ∀ n < 32, g'.th n = (if Mask.has (recThreads g key r) n then f (g.th n) else g.th n)
          (r.cmd = some 3 → r.kind ≤ 3 → becomes fun th => { th with pc := (if r.kind = 0 then th.oldest else th.pc), park := none,
                                                                       faults := (if r.kind = 0 then [] else th.faults) })
          ∧ (∀ k x, r.cmd = some 4 → r.kind ≤ 3 → (regionRecs g key r).head? = some k → s.recs.find k = some x →
              becomes fun th => { th with doom := some ⟨4#4, BitVec.ofNat 64 x.va, false⟩, park := none,
                                          faults := (if r.kind = 0 then [] else th.faults) })
          ∧ (r.cmd = some 4 → r.kind = 7 → (∀ kv ∈ s.ops, r.op ∉ kv.2.after) → ∃ t g', exec (.replayReissue part seq) s = .next t
              ∧ t.recs.find key = none ∧ t.ops.find r.op = none ∧ t.groups.find r.gid = some g'
              ∧ ∀ n < 32, (g.th n).park = some .lost → (g'.th n).doom = some ⟨4#4, BitVec.ofNat 64 r.va, true⟩))
        ∧ ∀ o, r.cmd = some 3 → r.kind = 7 → s.ops.find r.op = some o → ∃ t, exec (.replayReissue part seq) s = .next t
          ∧ t.recs.find key = none ∧ t.ops.find r.op = some { o with st := .sent, issued := s.now, sentAt := s.now, asked := [] }
          ∧ (o.ins.isWord = true → homeSide o.ins = false → ∃ T, (T, .grant ⟨r.op, none⟩) ∈ t.timers))
    ∧ (∀ g i pc d, s.issuer = some g → CanTrap g → g.pc? = some pc → i.isWord = true → genLocal i = false →
        doomed g (g.atPc pc) = some d → d.cause = 4#4 ∨ d.cause = 10#4 →
        ∃ t, exec i s = .next t ∧ Trapped s t s.cur (g.undoom (g.atPc pc) d) d.cause d.info pc (g.atPc pc))
    ∧ (∀ part, (s.waitRec.findD part [] = [] ∨ s.faultFull part = true → exec (.faultBufferDrain part) s = .next s)
      ∧ ∀ r l, s.waitRec.findD part [] = r :: l → s.faultFull part = false → r.part = part → s.csrBits (offFQBASE part) 51 0 % 64 = 0 →
        let wr := (s.csr (offFQWR part)).toNat
        ∃ t, exec (.faultBufferDrain part) s = .next t ∧ t.waitRec.findD part [] = l ∧ (t.csr (offFQWR part)).toNat = (wr + 1) % 2 ^ 32
          ∧ t.mem.bytes (s.csrBits (offFQBASE part) 51 0 + 64 * (wr % 2 ^ s.csrBits (offFQCTL part) 4 0)) 64 = r.bytes (BitVec.ofNat 32 wr))
    ∧ (∀ size n r, rangeBytes size = some n → s.region (s.csrBits offMIGSRC 51 0) = some r → r.pkg = s.ownPkg → r.host = false →
      let base := s.csrBits offMIGSRC 51 0 / n * n
      let dst := s.csrBits offMIGDST 51 0
      (∃ t, exec (.mark size) s = .next t ∧ t.mig = s.mig ++ [⟨base, n, false, [], []⟩] ∧ t.csrBits offMIGCTL 5 5 = 1 ∧ .markComplete ∈ t.agenda
        ∧ t.mem = s.mem ∧ ∀ x, inRange base n (secAt x) = true → (s.transOf x).cur = none → (s.dirOf x).holders.filter s.external = [] → (t.dirOf x).st = .i)
      ∧ (∃ t, exec (.swopen size) s = .next t ∧ t.mig = s.mig ++ [⟨base, n, true, [], []⟩] ∧ t.mem = s.mem)
      ∧ ∀ m, (s.mig.find? (fun x => x.src = base && !x.window) = some m → ∃ t, exec (.release size) s = .next t
          ∧ ∀ w ∈ m.parked, w.op.isSome = true → rebaseReq m.src m.size dst w.req ∈ t.agenda)
        ∧ (s.mig.find? (fun x => x.src = base && x.window) = some m → m.parked = [] → ∃ t, exec (.swclose size) s = .next t ∧ t.mem = s.mem
          ∧ t.mig = s.mig.filter (fun x => !(x.src = base && x.window)) ∧ (∀ x, inRange base n (secAt x) = true → (t.dirOf x).st = .i)
          ∧ ∀ x, inRange base n (secAt x) = true → (∀ k, (t.l1.findD k []).find x = none) ∧ ∀ k, (t.rdc.findD k []).find x = none))
    ∧ (s.csrBits offMIGCTL 5 5 = 0 → exec .markComplete s = .next s)
    ∧ (s.csrBits offMIGCTL 5 5 = 1 →
      ((∃ m ∈ s.mig, m.window = false ∧ s.heldIn m.src m.size ≠ []) →
        ∃ t, exec .markComplete s = .next t ∧ (s.now + 64, .markComplete) ∈ t.timers ∧ t.csrBits offMIGCTL 5 5 = 1 ∧ t.mig = s.mig ∧ t.mem = s.mem)
      ∧ ((∀ m ∈ s.mig, m.window = false → s.heldIn m.src m.size = []) →
        ∃ t, exec .markComplete s = .next t ∧ t.csrBits offMIGCTL 5 5 = 0 ∧ t.mig = s.mig))
    ∧ ∀ part view, (∀ kv ∈ s.nodes, kv.2.waits = false) → (∀ kv ∈ s.ops, kv.2.parts = [] ∧ kv.2.st ≠ .parkedHome) →
      let full (th : Thread) := match th.park with | some (.viewFull a) => some a | _ => none
      ∀ k g, s.groups.find k = some g → inView s g part view = true →
        let becomes := fun i (f : Thread → Nat → Thread) => ∃ t g', exec i s = .next t ∧ t.groups.find k = some g' ∧ SameRegs g g'
          ∧ ∀ n < 32, g'.th n = (match full (g.th n) with | some a => f (g.th n) a | none => g.th n)
        becomes (.vwcmdResume part view) (fun th _ => { th with park := none })
        ∧ becomes (.vwcmdFail part view) fun th a => { th with park := none, doom := some ⟨10#4, BitVec.ofNat 64 a, false⟩ }


-- halts and pre-emption

/-- R275 to R284: A unit that the halt line reaches stops, the fabric of a die once its requests have ended; with the last one the halt completes: the
teams are gone, the nodes that ran are FAILED, and the context is HALTED. DRAIN, CUT, RESET and RESTORE are ignored while `BUSY` is 1, refused where
R279 says, and else begin; they end as R280 to R284 say, with their result in `PCMD`: the context saved and off its partitions, discarded, or resident
again with its teams on the frames that fit them. -/
def Obligations.PreemptionCommands : Prop :=
  ∀ (s : State) (ctx : Nat) (c : Ctx), s.Inv → s.ctxs.find ctx = some c →
    let runs := fun (t : State) r => ∃ c', t.ctxs.find ctx = some c' ∧ c'.run = r
    let res := fun (t : State) n => t.csrBits offPCMD 19 19 = 0 ∧ t.csrBits offPCMD 22 20 = n
    let free := s.csrBits offPCMD 19 19 = 0
    let noTeam := fun (t : State) => ∀ kv ∈ s.ctxTeams ctx, t.teams.find kv.1 = none
    let cutting := fun i => ∃ t, exec i s = .next t ∧ runs t .cutting ∧ Due s t 5000 20000 (.cutSave ctx)
      ∧ (s.now + 1000 * s.csrBits offCUTDL 16 0, .cutDeadlineExpiry ctx) ∈ t.timers
    let discarded := fun (t : State) => t.ctxs.find ctx = none ∧ t.saved.find ctx = none ∧ noTeam t
      ∧ ∀ k n n', s.nodes.find k = some n → n.ctx = ctx → n.st.finished = false → n.rival = none → t.nodes.find k = some n' → n'.st = .cancelled
    let mine := fun (p : Preempt) => p.ctx = ctx && p.op ≠ 5
    (c.run ≠ .halting → ∀ u, exec (.haltLineArrival ctx u) s = .next s)
    ∧ (c.run = .halting → ∀ u, u ∈ c.units → u ∉ c.stopped →
      ((∀ d, u = .fabric d → requestsEnded s ctx d = true ∨ s.seen.findD (haltKey ctx d) s.now + s.csrBits offTOUT 16 0 * 1000 + 24000 ≤ s.now) → ∃ t c', exec (.haltLineArrival ctx u) s = .next t ∧ t.ctxs.find ctx = some c'
          ∧ c'.run = .halting ∧ c'.stopped = c.stopped ++ [u] ∧ ((∀ v ∈ c.units, v ∈ c.stopped ++ [u]) → .haltComplete ctx ∈ t.agenda))
      ∧ ∀ d, u = .fabric d → requestsEnded s ctx d = false → s.now < s.seen.findD (haltKey ctx d) s.now + s.csrBits offTOUT 16 0 * 1000 + 24000 →
        ∃ t c', exec (.haltLineArrival ctx u) s = .next t ∧ t.ctxs.find ctx = some c' ∧ c'.stopped = c.stopped
          ∧ (s.now + 64, .haltLineArrival ctx u) ∈ t.timers)
    ∧ (c.run = .halting → (∀ u ∈ c.units, u ∈ c.stopped) → ∃ t, exec (.haltComplete ctx) s = .next t ∧ runs t .halted ∧ noTeam t
      ∧ ∀ k n, s.nodes.find k = some n → n.ctx = ctx → n.rival = none → (n.st = .running ∨ n.st = .joining ∨ n.st = .committing) →
        (∀ n', t.nodes.find k = some n' → n'.st = .failed) ∧ (s.views = [] → s.forks = [] → (t.nodes.find k).isSome = true))
    ∧ (s.csrBits offPCMD 19 19 = 1 → exec (.drain ctx) s = .next s ∧ exec (.cut ctx) s = .next s ∧ ∀ p, exec (.restore ctx p) s = .next s)
    ∧ (free → c.run ≠ .resident → ∃ t, exec (.drain ctx) s = .next t ∧ res t 3 ∧ t.ctxs = s.ctxs)
    ∧ (free → c.run = .resident → ∃ t, exec (.drain ctx) s = .next t ∧ runs t .draining ∧ t.csrBits offPCMD 19 19 = 1 ∧ .drainComplete ctx ∈ t.agenda
      ∧ (s.now + 1000 * s.csrBits offDRAINDL 16 0, .drainDeadlineExpiry ctx) ∈ t.timers ∧ ∀ kv ∈ s.ctxTeams ctx, kv.2.started = false → t.teams.find kv.1 = none)
    ∧ (c.run = .draining → s.ctxTeams ctx ≠ [] → exec (.drainComplete ctx) s = .next s)
    ∧ (c.run = .draining → s.ctxTeams ctx = [] → s.nodesSettled ctx = true → (∀ kv ∈ s.ops, kv.2.ctx = ctx → kv.2.pending = false) →
        s.saveMapped ctx (stopOfs c.nparts [] 0 + 65536) = true → ∃ t c', exec (.drainComplete ctx) s = .next t ∧ t.ctxs.find ctx = some c' ∧ c'.run = .cut
        ∧ c'.parts = [] ∧ (t.saved.find ctx).isSome = true ∧ (s.pre.any mine = true → res t 0))
    ∧ (∀ p, s.pre.find? (fun p => p.ctx = ctx && p.op = 1) = some p →
      (s.now < p.due + 1000 * s.csrBits offDRAINDL 16 0 → exec (.drainDeadlineExpiry ctx) s = .next s)
      ∧ (p.due + 1000 * s.csrBits offDRAINDL 16 0 ≤ s.now → c.run = .draining → cutting (.drainDeadlineExpiry ctx)))
    ∧ (free → s.resident ctx = true → cutting (.cut ctx))
    ∧ (free → s.resident ctx = false → ∃ t, exec (.cut ctx) s = .next t ∧ res t 3 ∧ t.ctxs = s.ctxs)
    ∧ (c.run = .cutting → s.settled ctx = true → (∀ kv ∈ s.ctxGroups ctx, kv.2.hold = .none) →
        s.saveMapped ctx (stopOfs c.nparts (s.saveTeams ctx) (s.pendRecords ctx).length + 65536) = true →
        ∃ t c', exec (.cutSave ctx) s = .next t ∧ t.ctxs.find ctx = some c' ∧ c'.run = .cut ∧ c'.parts = [] ∧ (t.saved.find ctx).isSome = true ∧ noTeam t
          ∧ ∀ kv ∈ s.ctxGroups ctx, t.groups.find kv.1 = none)
    ∧ (∀ p, s.pre.find? (fun p => p.ctx = ctx && (p.op = 2 || p.op = 5)) = some p →
      (s.now < p.due + 1000 * s.csrBits offCUTDL 16 0 → exec (.cutDeadlineExpiry ctx) s = .next s)
      ∧ (p.due + 1000 * s.csrBits offCUTDL 16 0 ≤ s.now → ∃ t, exec (.cutDeadlineExpiry ctx) s = .next t ∧ discarded t ∧ (s.pre.any mine = true → res t 2)))
    ∧ (free → s.pre = [] → ∃ t, exec (.reset ctx) s = .next t ∧ t.csrBits offPCMD 19 19 = 1 ∧ Due s t 20000 60000 (.reset ctx) ∧ t.ctxs = s.ctxs)
    ∧ (∀ p, s.pre.find? (fun p => p.ctx = ctx && p.op = 4) = some p → p.due ≤ s.now → ∃ t, exec (.reset ctx) s = .next t ∧ discarded t ∧ res t 0)
    ∧ ∀ parts : BitVec 16, let ps := (List.range 16).filter fun p => parts.getLsbD p
      free → s.ck = [] →
      (c.run ≠ .cut → ∃ t, exec (.restore ctx parts) s = .next t ∧ res t 3 ∧ t.ctxs = s.ctxs)
      ∧ (c.run = .cut → (∀ p ∈ ps, s.partEn p = true ∧ s.partCtx p = ctx ∧ ∀ kv ∈ s.ctxs, p ∉ kv.2.parts) →
        (s.saved.find ctx = none → headerAt (fun o n => s.mem.num (s.csa (ps.headD 0) + o) n) = none →
          ∃ t, exec (.restore ctx parts) s = .next t ∧ res t 5 ∧ t.ctxs = s.ctxs)
        ∧ (s.restorable ctx ps = none → ∃ t, exec (.restore ctx parts) s = .next t ∧ res t 5 ∧ t.ctxs = s.ctxs)
        ∧ ∀ sv, s.saved.find ctx = some sv → sv.recs = [] → AMap.wf sv.teams = true →
          let good := headerOk (leNat (s.mem.bytes (s.csa (ps.headD 0) + headerOfs c.nparts) 128)) ctx c.nparts sv (s.liveNodes ctx).length
          let t0 := s.apply (.ctx ctx (some { c with parts := ps }))
          let place := placeSaved t0 (ps.flatMap fun p => (List.range 16).map fun k => 16 * p + k) (t0.savedTeams ctx sv)
          (good = true → ps.length < sv.parts.length → ∃ t, exec (.restore ctx parts) s = .next t ∧ res t 4 ∧ t.ctxs = s.ctxs)
          ∧ (sv.parts.length ≤ ps.length → good = true → place = none → ∃ t, exec (.restore ctx parts) s = .next t ∧ res t 4 ∧ t.ctxs = s.ctxs)
          ∧ ∀ l u, sv.parts.length ≤ ps.length → good = true → place = some (l, u) →
            ∃ t c', exec (.restore ctx parts) s = .next t ∧ t.ctxs.find ctx = some c' ∧ c'.run = .resident ∧ c'.parts = ps ∧ t.saved.find ctx = none ∧ res t 0
              ∧ ∀ p ∈ l, ∃ tm, t.teams.find p.1.tk = some tm ∧ tm.frame = p.2)


-- services, strikes, checkpoints

/-- R288 to R296, R298 to R303, R459: A batch that reaches its service frame is answered, at once by the services of Table 18.5; the reply block is
written, and the call retires in the next clock, with `SVCERR` to come for status 1 to 3. A strike is counted; a covered unit does its work again
later with the same values, and after a third restart what it wrote in 48 clocks is SOFT poison. A lane that fails a known-answer operation is flagged.
Checkpoint commands begin, or end with the result of Table 13.2; a shard is written with its poison map, or checked before it is loaded. -/
def Obligations.ServicesStrikesAndCheckpoints : Prop :=
  ∀ s : State, s.Inv →
    (∀ id o h a b (n : BitVec 12), s.ops.find id = some o → o.ins = .svc h n a b →
      let replies := fun (t : State) w l => ∃ T, s.now + 100 ≤ T ∧ (T, .svcReply id w l) ∈ t.timers
      (o.st ≠ .sent → exec (.svcBatchArrival id) s = .next s)
      ∧ (o.st = .sent → ∃ t, exec (.svcBatchArrival id) s = .next t ∧ t.ops.find id = some { o with st := .performed }
        ∧ ((n = 0#12 ∨ n = 2#12) → replies t 0#32 []) ∧ (n = 1#12 → replies t 0#32 (num 8 s.ftime)) ∧ (3 ≤ n.toNat → n.toNat < 256 → replies t 1#32 [])
        ∧ (256 ≤ n.toNat → t.timers = s.timers))
      ∧ ∀ c w l, s.ctxs.find o.ctx = some c →
        (o.st = .performed → o.seg = 0 → c.run ≠ .halted → s.replyAt o % 64 = 0 → ∃ t, exec (.svcReply id w l) s = .next t
          ∧ t.mem.bytes (s.replyAt o) 256 = replyBytes o w (s.rseqOf o id + 1) l ∧ (s.now + 1, .svcReply id w l) ∈ t.timers
          ∧ t.ops.find id = some { o with seg := 1, moved := w.toNat }
          ∧ ∀ m, (m < s.replyAt o ∨ s.replyAt o + 256 ≤ m) → t.mem.byte m = s.mem.byte m)
        ∧ (o.seg = 0 → c.run = .halted → s.replyAt o % 64 = 0 → ∃ t, exec (.svcReply id w l) s = .next t
          ∧ t.mem.bytes (s.replyAt o) 256 = replyBytes o 4#32 (s.rseqOf o id + 1) [])
        ∧ ∀ g, o.st = .performed → o.seg = 1 → c.run ≠ .halted → o.dest = o.gid → s.groups.find o.gid = some g → ∃ t g', exec (.svcReply id w l) s = .next t
          ∧ Ended s t id o [] ∧ t.groups.find o.gid = some g' ∧ g'.counted = retiring g.counted id
          ∧ g'.deferred = g.deferred ++ (let x := o.moved % 2 ^ 32
              if 1 ≤ x ∧ x ≤ 3 then [⟨.svc, id, 12#4, BitVec.ofNat 64 (x + n.toNat * 2 ^ 32)⟩] else []))
    ∧ (∀ u frame n r,
      let die := dieOf frame
      let strikes := fun (t : State) e => exec (.strike u frame n ⟨r, e⟩) s = .next t
      let counts := fun (t : State) k => (t.csr (offERRCNT die 2)).toNat = min (2 ^ 32 - 1) ((s.csr (offERRCNT die 2)).toNat + k)
      (u ≠ .rod → u ≠ .helper → u ≠ .matrix →
        (∃ t, strikes t none ∧ counts t 1 ∧ t.groups = s.groups)
        ∧ (∃ t, strikes t (some .corrected) ∧ (t.csr (offERRCNT die 0)).toNat = min (2 ^ 32 - 1) ((s.csr (offERRCNT die 0)).toNat + 1) ∧ t.groups = s.groups)
        ∧ (∀ k g m L, s.groups.find k = some g → L < 32 → ∃ t g' w, strikes t (some (.vreg k m L)) ∧ t.groups.find k = some g'
          ∧ causeOf w = 1#4 ∧ lane (g'.vreg m) L = ⟨w, true⟩)
        ∧ (∀ k g m, s.groups.find k = some g → ∃ t g' w, strikes t (some (.ureg k m)) ∧ t.groups.find k = some g' ∧ causeOf w = 1#4 ∧ g'.sreg m = ⟨w, true⟩)
        ∧ (∀ k tm m, s.teams.find k = some tm → ∃ t tm' w, strikes t (some (.word k m)) ∧ t.teams.find k = some tm' ∧ causeOf w = 1#4
          ∧ (tm'.word m).val = w ∧ (tm'.word m).poi = true)
        ∧ ∀ sec, ∃ t w, strikes t (some (.sector 5 sec)) ∧ causeOf w = 1#4 ∧ t.mem.bad.find sec = some w)
      ∧ (u = .rod ∨ u = .helper → (∀ kv ∈ s.ops, kv.2.after = []) → ∃ t, strikes t none ∧ counts t (r + 1) ∧ ∀ k g, (k, g) ∈ rewound s u frame n →
          let now := g.upTo s.now
          ∃ g', t.groups.find k = some g'
          ∧ (r ≤ 2 → now.start? s.now = none → SameRegs now g' ∧ g'.pend.map Pend.kind = now.pend.map Pend.kind ∧ s.now + 56 ≤ g'.ready)
          ∧ (∀ x, r = 0 → now.start? s.now = some x → g'.threads = x.threads ∧ g'.v = x.v ∧ g'.s = x.s ∧ g'.c = x.c ∧ g'.f = x.f ∧ g'.q = x.q ∧ g'.o = x.o
            ∧ g'.hm = x.hm ∧ g'.csr = x.csr ∧ g'.pend.map Pend.kind = x.pend.map Pend.kind ∧ x.clk + 56 ≤ g'.ready ∧ g'.ready ≤ x.clk + 64)
          ∧ (2 < r → ∃ w, causeOf w = 8#4 ∧ ∀ x ∈ g'.wlog, s.now ≤ x.clk + 48 → ∀ m, x.reg = .v m → ∀ L < 32, Mask.has x.m L = true →
              lane (g'.vreg m) L = ⟨w, true⟩))
      ∧ (u = .matrix → r ≤ 2 → ∃ t, strikes t none ∧ counts t (r + 1) ∧ s.now + 48 ≤ t.seen.findD (mxHoldKey frame) 0
          ∧ ((∀ q ∈ s.mxq.findD frame [], ∀ o, s.ops.find q.op = some o → o.seg ≠ 1) → t.groups = s.groups)
          ∧ t.mxq.findD frame [] = (s.mxq.findD frame []).map fun q =>
            let busy (t : Nat) : Bool := (s.ops.find q.op).elim false fun o => s.now < t + (mxTiming o.ins).2.1
            match q.start with
            | some t => { q with finish := q.finish + 48 * (r + 1), start := some (if busy t then t + 48 * (r + 1) else t) }
            | none => q))
    ∧ (∀ frame q, exec (.matrixKatPass frame q) s = .next s)
    ∧ (∀ rod op bad, (bad = none ∨ rodIdle s rod = false → exec (.katInject rod op bad) s = .next s)
      ∧ ∀ L, bad = some L → (s.kat = false → exec (.katInject rod op bad) s = .next s) ∧ (s.kat = true → rod < 4096 → rodIdle s rod = true → ∃ t, exec (.katInject rod op bad) s = .next t ∧ t.groups = s.groups
        ∧ t.rodBits (offLANEFLAG (rod / 16)) (rod % 16) = s.rodBits (offLANEFLAG (rod / 16)) (rod % 16) ||| (1#32 <<< (L % 32))))
    ∧ (let ends := fun (t : State) n => t.csrBits offCKCMD 2 2 = 0 ∧ t.csrBits offCKCMD 5 3 = n ∧ t.ck.find 0 = none
      let goes := fun (t : State) => t.csrBits offCKCMD 2 2 = 1 ∧ Due s t 9000000 30000000 .ckptShardDone ∧ t.mem = s.mem
      (∀ desc, s.csrBits offCKCMD 2 2 = 1 → exec (.ckptSave desc) s = .next s ∧ exec (.ckptLoad desc) s = .next s)
      ∧ (∀ desc, s.csrBits offCKCMD 2 2 = 0 →
        let d := s.ckDesc desc
        ((∀ c, s.ctxs.find d.ctx = some c → c.run ≠ .cut) → ∃ t, exec (.ckptSave desc) s = .next t ∧ ends t 1)
        ∧ (∀ c, s.ctxs.find d.ctx = some c → c.run = .cut → (s.ckArea d.ctx = none → ∃ t, exec (.ckptSave desc) s = .next t ∧ ends t 4)
          ∧ ((s.ckArea d.ctx).isSome = true → ∃ t, exec (.ckptSave desc) s = .next t ∧ goes t))
        ∧ (s.manifest d = none → ∃ t, exec (.ckptLoad desc) s = .next t ∧ ends t 2)
        ∧ ∀ m, s.manifest d = some m →
          let good := Config.trusted (s.mem.bytes (s.csr offTKLBASE).toNat keyListBytes) m.key m.body m.sig
          (good = false → ∃ t, exec (.ckptLoad desc) s = .next t ∧ ends t 2) ∧ (good = true → 1 ≤ m.shards → ∃ t, exec (.ckptLoad desc) s = .next t ∧ goes t))
      ∧ (s.ck.find 0 = none → exec .ckptShardDone s = .next s)
      ∧ (∀ c, s.ck.find 0 = some c → c.load = false →
        let d := s.ckDesc c.desc
        (s.ckArea d.ctx = none → ∃ t, exec .ckptShardDone s = .next t ∧ ends t 4)
        ∧ ∀ base n h, s.ckArea d.ctx = some (base, n, h) →
          let l := ckPieces s d base n false (2 ^ 30 * c.shard) (shardLen (ckLen d n) c.shard)
          let x := shardBytes s (l.filterMap Prod.fst)
          let lost := s.ckLost (shardAt d c.shard) || (l.filterMap Prod.fst).any s.ckLost
          ((∃ p ∈ l, p.1 = none) → ∃ t, exec .ckptShardDone s = .next t ∧ ends t 4)
          ∧ ((∀ p ∈ l, p.1 ≠ none) → lost = true → ∃ t, exec .ckptShardDone s = .next t ∧ ends t 5)
          ∧ ((∀ p ∈ l, p.1 ≠ none) → lost = false → c.total ≤ c.shard + 1 → ∃ t, exec .ckptShardDone s = .next t ∧ ends t 0)
          ∧ ((∀ p ∈ l, p.1 ≠ none) → lost = false → c.shard + 1 < c.total → shardAt d c.shard % 64 = 0 → ∃ t c', exec .ckptShardDone s = .next t ∧ t.ck.find 0 = some c'
            ∧ c'.shard = c.shard + 1 ∧ c'.digests = c.digests ++ sha256 (x.1 ++ x.2) ∧ t.mem.bytes (shardAt d c.shard) x.1.length = x.1
            ∧ t.mem.bytes (shardAt d c.shard + x.1.length) x.2.length = x.2))
      ∧ ∀ c m, s.ck.find 0 = some c → c.load = true → s.manifest (s.ckDesc c.desc) = some m →
        let d := s.ckDesc c.desc
        let n := shardLen m.len c.shard
        let l := ckPieces s { d with ranges := m.ranges } (s.csa (s.ckLead d.ctx)) m.area true (2 ^ 30 * c.shard) n
        let dat := s.mem.bytes (shardAt d c.shard) n
        let map := s.mem.bytes (shardAt d c.shard + n) (2 ^ 21)
        (s.ckLost (shardAt d c.shard) || (l.filterMap Prod.fst).any s.ckLost) = false →
        (sha256 (dat ++ map) ≠ (m.digs.drop (32 * c.shard)).take 32 → ∃ t, exec .ckptShardDone s = .next t ∧ ends t 3 ∧ t.mem = s.mem)
        ∧ (sha256 (dat ++ map) = (m.digs.drop (32 * c.shard)).take 32 → (∀ p ∈ l, p.1 ≠ none) → ((l.filterMap Prod.fst).map secOf).Nodup →
          ∃ t, exec .ckptShardDone s = .next t ∧ (c.total ≤ c.shard + 1 → ends t 0) ∧ ∀ k a, (l.filterMap Prod.fst)[k]? = some a →
            (maskHas map k = false → t.mem.bytes (64 * secOf a) 64 = (dat.drop (64 * k)).take 64 ∧ t.mem.bad.find (secOf a) = none)
            ∧ (maskHas map k = true → t.mem.bad.find (secOf a) = some (BitVec.ofNat 32 (leNat ((dat.drop (64 * k)).take 4))))))


-- the twin, bring-up, attestation

/-- R24, R305 to R311: A write or a kick that the twin mirrors is performed here; the twin's digest wakes the node that waits for it, none in time
halts the context, and a link that goes down halts every paired context; a mirrored rollback rolls the node back. A rail out of tolerance leaves the
reset state; good rails with good images start bring-up, which ends with the clocks at 0. The replies' bytes are the model's choice (log entry 75):
each SPDM request in its order is answered once and enters the transcript, one out of order changes nothing else. -/
def Obligations.TwinBootAndAttestation : Prop :=
  ∀ s : State, s.Inv →
    let replied := fun (l : List Byte) => (Host.Outcome.next { s with outbox := s.outbox ++ [.reply hostPort l] } : Host.Outcome State Fault Refusal)
    let halts := fun (t : State) k => ∃ c, t.ctxs.find k = some c ∧ c.run = .halting
    (s.power = .held → ∀ i, (∃ a l, i = .twinWriteMirror a l) ∨ (∃ q v, i = .twinKickMirror q v) ∨ (∃ k d, i = .twinDigestArrival k d)
      ∨ (∃ k, i = .rollbackMirror k) → exec i s = .next s)
    ∧ (∀ pa n (l : List Byte), s.power ≠ .held → s.mig = [] → s.trans = [] → s.ownMemory pa n = true → l.length = n →
      (∀ x ∈ sectorsOf pa n, s.awaited (some s.hostAgent) true x = [] ∧ s.unswept x = false ∧ s.mem.bad.find x = none) → s.admits s.hostAgent pa = true →
      ∃ t, exec (.twinWriteMirror pa l) s = .next t ∧ t.mem.bytes pa n = l ∧ t.outbox = s.outbox ∧ ∀ m, (m < pa ∨ pa + n ≤ m) → t.mem.byte m = s.mem.byte m)
    ∧ (∀ (q : Nat) (v : BitVec 64), s.power ≠ .held → s.mig = [] → s.trans = [] → q < 1024 → s.qd q 257 256 = 0 → s.funcHolds (s.qd q 86 80) = true →
      s.ctxParts (s.qd q 111 96) ≠ [] → 4 ≤ s.qd q 68 64 → s.qd q 68 64 ≤ 20 → s.qd q 11 0 = 0 → s.qd q 255 192 < v.toNat →
      v.toNat ≤ s.qd q 191 128 + 2 ^ s.qd q 68 64 → (∀ k < 64, s.mem.bad.find (secOf (s.qdAt q + k)) = none) →
      ∃ t, exec (.twinKickMirror q v) s = .next t ∧ t.mem.num (s.qdAt q + 24) 8 = v.toNat ∧ Due s t 1500 4000 (.nodePacket q) ∧ t.outbox = s.outbox)
    ∧ (∀ key d, s.power ≠ .held → ∃ t, exec (.twinDigestArrival key d) s = .next t ∧ (key, d) ∈ t.twin.theirs ∧ t.twin.mine = s.twin.mine
      ∧ ∀ nk n, (∃ p ∈ s.twin.mine, p.1 = key) → s.nodeOfKey key = some nk → s.nodes.find nk = some n → exchangeStep n nk key ∈ t.agenda)
    ∧ (∀ key, ((∀ p ∈ s.twin.mine, p.1 ≠ key) ∨ (∃ p ∈ s.twin.theirs, p.1 = key) → exec (.twinDigestTimeout key) s = .next s)
      ∧ ∀ nk n c, (∃ p ∈ s.twin.mine, p.1 = key) → (∀ p ∈ s.twin.theirs, p.1 ≠ key) → s.nodeOfKey key = some nk → s.nodes.find nk = some n →
        s.ctxs.find n.ctx = some c → c.run = .resident → ∃ t, exec (.twinDigestTimeout key) s = .next t ∧ halts t n.ctx)
    ∧ (∃ t, exec .twinLinkDown s = .next t ∧ t.csrBits offTWINCFG 2 2 = 0 ∧ t.twin = ⟨[], []⟩ ∧ ∀ kv ∈ s.pairedCtxs, halts t kv.1)
    ∧ (∀ key nk n, s.power ≠ .held → s.nodes.find? (fun kv => kv.2.eff.paired && !kv.2.st.finished && (s.twinKey kv.2 key.sstep = key)) = some (nk, n) →
      ∃ t n', exec (.rollbackMirror key) s = .next t ∧ t.nodes.find nk = some n' ∧ n'.st = .ready ∧ n'.req = n.req + 1 ∧ n'.digest = 0#64
        ∧ .teamReservation n.ctx ∈ t.agenda)
    ∧ exec .railOutOfTolerance s = .next { State.reset with free := s.free, ids := s.ids, outbox := s.outbox }
    ∧ (∀ im, (s.power ≠ .held → exec (.railsGood im) s = .next s)
      ∧ (s.power = .held → bootOk im = false → exec (.railsGood im) s = .next { s with power := .recovery, idKeyOk := im.identity })
      ∧ (s.power = .held → bootOk im = true → ∃ t, exec (.railsGood im) s = .next t ∧ t.power = .bringup ∧ t.idKeyOk = true ∧ t.kat = true
          ∧ t.measure = Config.romHash :: im.hashes ∧ Due s t 800000000 1800000000 .bringupComplete))
    ∧ (s.power ≠ .bringup → exec .bringupComplete s = .next s)
    ∧ (s.power = .bringup → ∃ t, exec .bringupComplete s = .next t ∧ t.power = .up ∧ t.now = 0 ∧ (10000, .heartbeatSend) ∈ t.timers
      ∧ (∀ p ∈ s.timers, (p.1 - s.now, p.2) ∈ t.timers) ∧ ∀ pkg < 256, ∃ T, (T, .heartbeatLoss pkg) ∈ t.timers)
    ∧ (s.power = .held → exec .configurationRequest s = .next s) ∧ (s.power = .bringup → exec .configurationRequest s = replied [2])
    ∧ ((s.power = .up ∨ s.power = .recovery) → exec .configurationRequest s = replied [0])
    ∧ (∀ l, (s.power = .recovery → exec (.mctpFirmwareUpdate l) s = .next { s with fwq := s.fwq ++ [l] })
      ∧ (s.power ≠ .recovery → exec (.mctpFirmwareUpdate l) s = .next s))
    ∧ (s.power = .up →
      let answers := fun i (req reply : List Byte) (p : Spdm) => exec i s
        = .next { s with spdm := { p with trans := p.trans ++ req ++ reply }, outbox := s.outbox ++ [.reply hostPort reply] }
      let wrong := replied [0x7F, 0x04]
      let l := s.measurements
      answers .getVersion [0x84] [0x04, 0x13] ⟨true, false, false, []⟩
      ∧ (s.spdm.version = true → answers .getCapabilities [0xE1] [0x61, 0x16] { s.spdm with caps := true }) ∧ (s.spdm.version = false → exec .getCapabilities s = wrong)
      ∧ (∀ o, (s.spdm.caps = true → answers (.negotiateAlgorithms o) (0xE3 :: o) [0x63, 0x02, 0x01] { s.spdm with algs := true })
        ∧ (s.spdm.caps = false → exec (.negotiateAlgorithms o) s = wrong))
      ∧ (s.spdm.algs = false → exec .getDigests s = wrong ∧ (∀ k o n, exec (.getCertificate k o n) s = wrong) ∧ (∀ x, exec (.challenge x) s = wrong)
        ∧ ∀ k x, exec (.getMeasurements k x) s = wrong)
      ∧ (s.spdm.algs = true → answers .getDigests [0x81] (0x01 :: sha256 certChain) s.spdm
        ∧ (∀ o n, answers (.getCertificate 0 o n) (0x82 :: num 8 0 ++ num 8 o ++ num 8 n) (0x02 :: (certChain.drop o).take n) s.spdm)
        ∧ (∀ x : BitVec 256, let req := 0x83 :: num 32 x.toNat
            let body := 0x03 :: sha256 certChain ++ num 32 x.toNat ++ sha256 l.flatten
            answers (.challenge x) req (body ++ signed (s.spdm.trans ++ req ++ body)) s.spdm)
        ∧ ∀ k (x : BitVec 256), let req := 0xE0 :: num 1 k ++ num 32 x.toNat
          let body := fun b => 0x60 :: b ++ num 32 x.toNat
          let reply := fun b => answers (.getMeasurements k x) req (body b ++ signed (s.spdm.trans ++ req ++ body b)) s.spdm
          (k = 0 → reply (num 1 l.length)) ∧ (k = 255 → reply l.flatten) ∧ (1 ≤ k → k ≤ l.length → k ≠ 255 → reply (l.getD (k - 1) []))
          ∧ (l.length < k → k ≠ 255 → exec (.getMeasurements k x) s = wrong)))


-- partitions and system CSRs

/-- R5, R279, R296, R304, R312 to R316: `PARTCFG` is governed as R313 says: an enabled partition changes `FETMO` and `PCEIL` alone, one that is
disabled is scrubbed, enabling is refused while a lane lacks a spare or a partition of the context differs, and else replaces the marked lanes. A
function-level reset discards the contexts of its partitions. The event ring takes what waits as there is room. A write to a system CSR of another
size or width is dropped, one to a command register is that command, and a value out of range is held to its limits. -/
def Obligations.PartitionsAndSystemCsrs : Prop :=
  ∀ s : State, s.Inv →
    (∀ (n : Nat) (v : BitVec 64), (16 ≤ n ∨ s.power = .held → exec (.partcfgWrite n v) s = .next s) ∧ (n < 16 → s.power ≠ .held →
      let off := offPARTCFG n
      let x := v.toNat
      let new := fun (t : State) => t.csrBits off 41 28 = clamp 1 10000 (bitsOf x 41 28) ∧ t.csrBits off 48 44 = min 23 (bitsOf x 48 44)
      let scrub := s.csrBits off 49 49 = 1
      let twin := s.csrBits offTWINCFG 0 0 = 1 ∧ s.csrBits offTWINCFG 2 2 = 1
      let set := putBits (tuned (BitVec.ofNat 64 (bitsOf x 48 0)) x) 43 43 (if twin then bitsOf x 43 43 else 0)
      (scrub → ∃ t, exec (.partcfgWrite n v) s = .next t ∧ t.csr off = s.csr off ∧ (bitsOf x 0 0 = 0 → t = s))
      ∧ (¬ scrub → s.partEn n = true → (bitsOf x 0 0 = 1 ∨ s.inUse n = true) → ∃ t, exec (.partcfgWrite n v) s = .next t ∧ new t
        ∧ t.csrBits off 27 0 = s.csrBits off 27 0 ∧ t.csrBits off 43 42 = s.csrBits off 43 42 ∧ t.mem = s.mem)
      ∧ (¬ scrub → s.partEn n = true → bitsOf x 0 0 = 0 → s.inUse n = false → ∃ t, exec (.partcfgWrite n v) s = .next t ∧ t.partEn n = false
        ∧ t.csrBits off 49 49 = 1 ∧ Due s t 40000000 120000000 (.scrubComplete n)
        ∧ (∀ f ∈ partFrames n, t.l1.findD f [] = []) ∧ t.rdc.findD n [] = [] ∧ (∀ d < 4, t.l2.findD (16 * d + n) [] = [])
        ∧ (∀ a, s.partOfPa a = some n → t.mem.byte a = 0#8)
        ∧ ((∀ f ∈ partFrames n, s.l1.findD f [] = []) → s.rdc.findD n [] = [] → ∀ a, s.partOfPa a ≠ some n → t.mem.byte a = s.mem.byte a))
      ∧ (¬ scrub → s.partEn n = false →
        (bitsOf x 0 0 = 0 → ∃ t, exec (.partcfgWrite n v) s = .next t ∧ new t ∧ t.partEn n = false ∧ t.csrBits off 27 1 = bitsOf x 27 1)
        ∧ (bitsOf x 0 0 = 1 → ((s.unrepairable n).isSome = true ∨ mismatch s n set = true) → ∃ t, exec (.partcfgWrite n v) s = .next t ∧ t.partEn n = false
          ∧ t.spare = s.spare)
        ∧ (bitsOf x 0 0 = 1 → s.unrepairable n = none → mismatch s n set = false → ∃ t, exec (.partcfgWrite n v) s = .next t ∧ new t ∧ t.partEn n = true
          ∧ t.csrBits off 27 1 = bitsOf x 27 1 ∧ t.csrBits off 42 42 = bitsOf x 42 42 ∧ t.csrBits off 43 43 = (if twin then bitsOf x 43 43 else 0)
          ∧ ∀ k r, k < 16 → r < 16 → t.ways.find (16 * n + k) = none
            ∧ t.rodBits (offLANEFLAG (16 * n + k)) r = s.rodBits (offLANEFLAG (16 * n + k)) r &&& ~~~ s.toReplace (16 * n + k) r))))
    ∧ (∀ n, ∃ t, exec (.scrubComplete n) s = .next t ∧ t.csrBits (offPARTCFG n) 49 49 = 0 ∧ t.mem = s.mem)
    ∧ (∀ func, ∃ t, exec (.functionLevelReset func) s = .next t
      ∧ ∀ p < 16, s.partEn p = true → s.partFunc p = func → t.ctxs.find (s.partCtx p) = none)
    ∧ (∀ v, exec (.eqlostWrite v) s = .next { s with sys := s.sys.put offEQLOST 0#64 })
    ∧ (s.waitEv = [] ∨ s.eventFull = true ∨ s.csrBits offEQCTL 5 5 = 0 → exec .eventBufferDrain s = .next s)
    ∧ (∀ b l, s.waitEv = b :: l → b.length = 256 → s.eventFull = false → s.csrBits offEQCTL 5 5 = 1 →
      let wr := (s.csr offEQWR).toNat
      ∃ t, exec .eventBufferDrain s = .next t ∧ t.waitEv = l ∧ (t.csr offEQWR).toNat = (wr + 1) % 2 ^ 32
        ∧ t.mem.bytes (s.csrBits offEQBASE 51 12 * 4096 + 256 * (wr % 2 ^ s.csrBits offEQCTL 4 0)) b.length = b)
    ∧ ∀ (off size : Nat) (v : BitVec 64), (s.power = .held → exec (.systemCsrWrite off size v) s = .next s) ∧ (s.power ≠ .held →
      let goes := fun o n i => exec (.systemCsrWrite o n v) s = .next { s with agenda := s.agenda ++ [i] }
      let x := v.toNat
      let command := fun i => ∃ t, exec (.systemCsrWrite offPCMD 8 v) s = .next t ∧ t.agenda = s.agenda ++ [i] ∧ t.csrBits offPCMD 47 32 = bitsOf x 47 32
      ((size ≠ 4 ∧ size ≠ 8) ∨ off % size ≠ 0 ∨ sysWidth off = 0 ∨ (sysWidth off = 64 ∧ size ≠ 8) → exec (.systemCsrWrite off size v) s = .next s)
      ∧ exec (.systemCsrWrite offEQWR 4 v) s = .next s ∧ goes offEQLOST 4 (.eqlostWrite (BitVec.ofNat 32 x))
      ∧ (∀ n < 16, goes (offPARTCFG n) 8 (.partcfgWrite n v) ∧ exec (.systemCsrWrite (offFQWR n) 4 v) s = .next s
        ∧ exec (.systemCsrWrite (offVOASIZE n) 4 v) s = .next { s with sys := s.sys.put (offVOASIZE n) (BitVec.ofNat 64 (max 256 (x % 2 ^ 32))) }
        ∧ (bitsOf x 1 0 = 1 → goes (offFQCMD n) 8 (.fqcmdReplay n (BitVec.ofNat 32 (bitsOf x 63 32))))
        ∧ (bitsOf x 1 0 = 2 → goes (offFQCMD n) 8 (.fqcmdCancel n (BitVec.ofNat 32 (bitsOf x 63 32)))))
      ∧ (s.csrBits offPCMD 19 19 = 1 → exec (.systemCsrWrite offPCMD 8 v) s = .next s)
      ∧ (s.csrBits offPCMD 19 19 = 0 → (bitsOf x 2 0 = 1 → command (.drain (bitsOf x 18 3))) ∧ (bitsOf x 2 0 = 2 → command (.cut (bitsOf x 18 3)))
        ∧ (bitsOf x 2 0 = 3 → command (.restore (bitsOf x 18 3) (BitVec.ofNat 16 (bitsOf x 47 32)))) ∧ (bitsOf x 2 0 = 4 → command (.reset (bitsOf x 18 3))))
      ∧ (bitsOf (x % 2 ^ 32) 1 0 = 1 → goes offVWCMD 4 (.vwcmdResume (bitsOf (x % 2 ^ 32) 5 2) (bitsOf (x % 2 ^ 32) 13 6)))
      ∧ ∀ o, o = offTOUT ∨ o = offDRAINDL ∨ o = offCUTDL → exec (.systemCsrWrite o 4 v) s
          = .next { s with sys := s.sys.put o (BitVec.ofNat 64 (clamp 10 100000 (bitsOf (x % 2 ^ 32) 16 0))) })
end

