-- ==== Sys2Proof/Laws/Map.lean ====
section
/-!
SUPPORT. Map.lean: the finite maps of Word.lean and the bytes of memory: what a read finds after a write, and that every
write keeps the canonical form.
-/
namespace Sys2Proof.Machine

@[simp] theorem AMap_find_put_self {α : Type} (m : AMap α) (k : Nat) (a : α) : AMap.find (AMap.put m k a) k = some a := by
  induction m with
  | nil => simp [AMap.put, AMap.find]
  | cons p m ih =>
    obtain ⟨j, b⟩ := p
    simp only [AMap.put]
    split
    · simp [AMap.find]
    · split
      · simp [AMap.find]
      · rename_i h1 h2
        simp [AMap.find, h1, h2, ih]

theorem AMap_find_put_ne {α : Type} (m : AMap α) {k n : Nat} (a : α) (h : n ≠ k) :
    AMap.find (AMap.put m k a) n = AMap.find m n := by
  induction m with
  | nil => simp only [AMap.put, AMap.find]; split <;> first | omega | simp
  | cons p m ih =>
    obtain ⟨j, b⟩ := p
    simp only [AMap.put]
    split
    · simp only [AMap.find]
      repeat' split
      all_goals first | omega | rfl
    · split
      · simp only [AMap.find]
        repeat' split
        all_goals first | omega | rfl
      · simp only [AMap.find, ih]

/-- A key below all of a canonical map's keys is not in it. -/
theorem AMap_find_above {α : Type} (m : AMap α) {k n : Nat} (h : AMap.above m k = true) (hn : n ≤ k) : AMap.find m n = none := by
  cases m with
  | nil => rfl
  | cons p m =>
    obtain ⟨j, b⟩ := p
    simp only [AMap.above, Bool.and_eq_true, decide_eq_true_eq] at h
    simp only [AMap.find]
    rw [if_neg (by omega), if_pos (by omega)]

theorem AMap_above_le {α : Type} (m : AMap α) {k n : Nat} (h : AMap.above m k = true) (hn : n ≤ k) : AMap.above m n = true := by
  cases m with
  | nil => rfl
  | cons p m =>
    obtain ⟨j, b⟩ := p
    simp only [AMap.above, Bool.and_eq_true, decide_eq_true_eq] at h ⊢
    exact ⟨by omega, h.2⟩

theorem AMap_wf_of_above {α : Type} (m : AMap α) {k : Nat} (h : AMap.above m k = true) : AMap.wf m = true := by
  cases m with
  | nil => rfl
  | cons p m =>
    obtain ⟨j, b⟩ := p
    simp only [AMap.above, Bool.and_eq_true] at h
    exact h.2

theorem AMap_above_put {α : Type} (m : AMap α) {k n : Nat} (a : α) (h : AMap.above m n = true) (hn : n < k) :
    AMap.above (AMap.put m k a) n = true := by
  induction m generalizing n with
  | nil => simpa [AMap.put, AMap.above] using hn
  | cons p m ih =>
    obtain ⟨j, b⟩ := p
    simp only [AMap.above, Bool.and_eq_true, decide_eq_true_eq] at h
    simp only [AMap.put]
    split
    · simp only [AMap.above, Bool.and_eq_true, decide_eq_true_eq]
      exact ⟨hn, ‹k < j›, h.2⟩
    · split
      · simp only [AMap.above, Bool.and_eq_true, decide_eq_true_eq]
        subst_vars
        exact ⟨hn, h.2⟩
      · simp only [AMap.above, Bool.and_eq_true, decide_eq_true_eq]
        exact ⟨h.1, ih h.2 (by omega)⟩

theorem AMap_wf_put {α : Type} (m : AMap α) (k : Nat) (a : α) (h : AMap.wf m = true) : AMap.wf (AMap.put m k a) = true := by
  cases m with
  | nil => rfl
  | cons p m =>
    obtain ⟨j, b⟩ := p
    simp only [AMap.wf] at h
    simp only [AMap.put]
    split
    · simp only [AMap.wf, AMap.above, Bool.and_eq_true, decide_eq_true_eq]
      exact ⟨‹k < j›, h⟩
    · split
      · subst_vars; exact h
      · exact AMap_above_put m a h (by omega)

theorem AMap_above_del {α : Type} (m : AMap α) {k n : Nat} (h : AMap.above m n = true) : AMap.above (AMap.del m k) n = true := by
  induction m generalizing n with
  | nil => rfl
  | cons p m ih =>
    obtain ⟨j, b⟩ := p
    simp only [AMap.above, Bool.and_eq_true, decide_eq_true_eq] at h
    simp only [AMap.del]
    split
    · simp only [AMap.above, Bool.and_eq_true, decide_eq_true_eq]; exact h
    · split
      · exact AMap_above_le m h.2 (by omega)
      · simp only [AMap.above, Bool.and_eq_true, decide_eq_true_eq]
        exact ⟨h.1, ih h.2⟩

theorem AMap_wf_del {α : Type} (m : AMap α) (k : Nat) (h : AMap.wf m = true) : AMap.wf (AMap.del m k) = true := by
  cases m with
  | nil => rfl
  | cons p m =>
    obtain ⟨j, b⟩ := p
    simp only [AMap.wf] at h
    simp only [AMap.del]
    split
    · exact h
    · split
      · exact AMap_wf_of_above m h
      · exact AMap_above_del m h

theorem AMap_find_del_self {α : Type} (m : AMap α) (k : Nat) (h : AMap.wf m = true) : AMap.find (AMap.del m k) k = none := by
  induction m with
  | nil => rfl
  | cons p m ih =>
    obtain ⟨j, b⟩ := p
    simp only [AMap.wf] at h
    simp only [AMap.del]
    split
    · simp only [AMap.find]; rw [if_neg (by omega), if_pos ‹_›]
    · split
      · subst_vars; exact AMap_find_above m h (Nat.le_refl _)
      · simp only [AMap.find]
        rw [if_neg ‹_›, if_neg ‹_›]
        exact ih (AMap_wf_of_above m h)

theorem AMap_find_del_ne {α : Type} (m : AMap α) {k n : Nat} (h : AMap.wf m = true) (hn : n ≠ k) :
    AMap.find (AMap.del m k) n = AMap.find m n := by
  induction m with
  | nil => rfl
  | cons p m ih =>
    obtain ⟨j, b⟩ := p
    simp only [AMap.wf] at h
    simp only [AMap.del]
    split
    · rfl
    · split
      · subst_vars
        simp only [AMap.find]
        rw [if_neg (Ne.symm hn)]
        split
        · exact AMap_find_above m h (by omega)
        · rfl
      · simp only [AMap.find, ih (AMap_wf_of_above m h)]

theorem setO_wf {α : Type} (m : AMap α) (k : Nat) (x : Option α) (h : AMap.wf m = true) : AMap.wf (setO m k x) = true := by
  cases x with
  | none => exact AMap_wf_del m k h
  | some a => exact AMap_wf_put m k a h

@[simp] theorem setO_some {α : Type} (m : AMap α) (k : Nat) (a : α) : setO m k (some a) = AMap.put m k a := rfl

@[simp] theorem find_setO_self {α : Type} (m : AMap α) (k : Nat) (a : α) : AMap.find (setO m k (some a)) k = some a :=
  AMap_find_put_self m k a

theorem find_setO_none {α : Type} (m : AMap α) (k : Nat) (h : AMap.wf m = true) : AMap.find (setO m k none) k = none :=
  AMap_find_del_self m k h

theorem find_setO_ne {α : Type} (m : AMap α) {k n : Nat} (x : Option α) (h : AMap.wf m = true) (hn : n ≠ k) :
    AMap.find (setO m k x) n = AMap.find m n := by
  cases x with
  | none => exact AMap_find_del_ne m h hn
  | some a => exact AMap_find_put_ne m a hn

/-- An entry put leaves the others, whether or not the map is canonical. -/
theorem find_setO_some_ne {α : Type} (m : AMap α) {k n : Nat} (a : α) (hn : n ≠ k) :
    AMap.find (setO m k (some a)) n = AMap.find m n := AMap_find_put_ne m a hn

theorem AMap_mem_put {α : Type} (m : AMap α) (k : Nat) (a : α) (p : Nat × α) (h : p ∈ AMap.put m k a) : p = (k, a) ∨ p ∈ m := by
  induction m with
  | nil => simpa [AMap.put] using h
  | cons q m ih =>
    obtain ⟨j, b⟩ := q
    simp only [AMap.put] at h
    split at h
    · simpa using h
    · split at h
      · rcases List.mem_cons.1 h with h | h
        · exact .inl h
        · exact .inr (List.mem_cons_of_mem _ h)
      · rcases List.mem_cons.1 h with h | h
        · exact .inr (h ▸ List.mem_cons_self)
        · rcases ih h with h | h
          · exact .inl h
          · exact .inr (List.mem_cons_of_mem _ h)

theorem AMap_mem_del {α : Type} (m : AMap α) (k : Nat) (p : Nat × α) (h : p ∈ AMap.del m k) : p ∈ m := by
  induction m with
  | nil => simp [AMap.del] at h
  | cons q m ih =>
    obtain ⟨j, b⟩ := q
    simp only [AMap.del] at h
    split at h
    · exact h
    · split at h
      · exact List.mem_cons_of_mem _ h
      · rcases List.mem_cons.1 h with h | h
        · exact h ▸ List.mem_cons_self
        · exact List.mem_cons_of_mem _ (ih h)

/-- Storing a byte keeps memory canonical. -/
theorem Mem_setByte_wf (m : Mem) (a : Nat) (b : Byte) (h : m.wf = true) : (m.setByte a b).wf = true := by
  simp only [Mem.wf, Mem.setByte, Bool.and_eq_true, List.all_eq_true] at h ⊢
  refine ⟨setO_wf _ _ _ h.1, fun p hp => ?_⟩
  by_cases hb : b = 0#8
  · simp only [hb, if_pos] at hp
    exact h.2 p (AMap_mem_del _ _ _ hp)
  · simp only [hb, if_neg, not_false_iff] at hp
    rcases AMap_mem_put _ _ _ _ hp with h' | h'
    · subst h'; simpa using hb
    · exact h.2 p h'

/-- The byte stored is read back. -/
theorem Mem_byte_setByte_self (m : Mem) (a : Nat) (b : Byte) (h : m.wf = true) : (m.setByte a b).byte a = b := by
  simp only [Mem.wf, Bool.and_eq_true] at h
  simp only [Mem.byte, Mem.setByte, AMap.findD]
  by_cases hb : b = 0#8
  · rw [if_pos hb, find_setO_none _ _ h.1, hb]; rfl
  · rw [if_neg hb, find_setO_self]; rfl

/-- A store leaves every other byte. -/
theorem Mem_byte_setByte_ne (m : Mem) (a n : Nat) (b : Byte) (h : m.wf = true) (hn : n ≠ a) :
    (m.setByte a b).byte n = m.byte n := by
  simp only [Mem.wf, Bool.and_eq_true] at h
  simp only [Mem.byte, Mem.setByte, AMap.findD]
  rw [find_setO_ne _ _ h.1 hn]

end Sys2Proof.Machine
end

