-- ==== Sys2Proof/Laws/State.lean ====
section
/-!
SUPPORT. State.lean: what each act leaves in each field of State, and what a list of acts and an effect do.
-/
namespace Sys2Proof.Machine

@[simp] theorem apply_now (s : State) (a : Act) : (s.apply a).now = (match a with | .now x => x | _ => s.now) := by
  cases a <;> rfl

@[simp] theorem apply_ftOff (s : State) (a : Act) : (s.apply a).ftOff = (match a with | .ftOff x => x | _ => s.ftOff) := by
  cases a <;> rfl

@[simp] theorem apply_power (s : State) (a : Act) : (s.apply a).power = (match a with | .power x => x | _ => s.power) := by
  cases a <;> rfl

@[simp] theorem apply_agenda (s : State) (a : Act) : (s.apply a).agenda = (match a with | .agenda x => x | _ => s.agenda) := by
  cases a <;> rfl

@[simp] theorem apply_timers (s : State) (a : Act) : (s.apply a).timers = (match a with | .timers x => x | _ => s.timers) := by
  cases a <;> rfl

@[simp] theorem apply_turns (s : State) (a : Act) : (s.apply a).turns = (match a with | .turns x => x | _ => s.turns) := by
  cases a <;> rfl

@[simp] theorem apply_cur (s : State) (a : Act) : (s.apply a).cur = (match a with | .cur x => x | _ => s.cur) := by
  cases a <;> rfl

@[simp] theorem apply_free (s : State) (a : Act) : (s.apply a).free = (match a with | .free x => x | _ => s.free) := by
  cases a <;> rfl

@[simp] theorem apply_ids (s : State) (a : Act) : (s.apply a).ids = (match a with | .ids x => x | _ => s.ids) := by
  cases a <;> rfl

@[simp] theorem apply_outbox (s : State) (a : Act) : (s.apply a).outbox = (match a with | .outbox x => x | _ => s.outbox) := by
  cases a <;> rfl

@[simp] theorem apply_mem (s : State) (a : Act) : (s.apply a).mem = (match a with | .hgone x => { s.mem with hgone := x } | .byte a b => s.mem.setByte a b | .bad k x => { s.mem with bad := setO s.mem.bad k x } | _ => s.mem) := by
  cases a <;> rfl

@[simp] theorem apply_sys (s : State) (a : Act) : (s.apply a).sys = (match a with | .sys k x => setO s.sys k x | _ => s.sys) := by
  cases a <;> rfl

@[simp] theorem apply_regions (s : State) (a : Act) : (s.apply a).regions = (match a with | .regions x => x | _ => s.regions) := by
  cases a <;> rfl

@[simp] theorem apply_groups (s : State) (a : Act) : (s.apply a).groups = (match a with | .group k x => setO s.groups k x | _ => s.groups) := by
  cases a <;> rfl

@[simp] theorem apply_teams (s : State) (a : Act) : (s.apply a).teams = (match a with | .team k x => setO s.teams k x | _ => s.teams) := by
  cases a <;> rfl

@[simp] theorem apply_nodes (s : State) (a : Act) : (s.apply a).nodes = (match a with | .node k x => setO s.nodes k x | _ => s.nodes) := by
  cases a <;> rfl

@[simp] theorem apply_ctxs (s : State) (a : Act) : (s.apply a).ctxs = (match a with | .ctx k x => setO s.ctxs k x | _ => s.ctxs) := by
  cases a <;> rfl

@[simp] theorem apply_queues (s : State) (a : Act) : (s.apply a).queues = (match a with | .queue k x => setO s.queues k x | _ => s.queues) := by
  cases a <;> rfl

@[simp] theorem apply_rods (s : State) (a : Act) : (s.apply a).rods = (match a with | .rod k x => setO s.rods k x | _ => s.rods) := by
  cases a <;> rfl

@[simp] theorem apply_mxq (s : State) (a : Act) : (s.apply a).mxq = (match a with | .mx k x => setO s.mxq k x | _ => s.mxq) := by
  cases a <;> rfl

@[simp] theorem apply_ops (s : State) (a : Act) : (s.apply a).ops = (match a with | .op k x => setO s.ops k x | _ => s.ops) := by
  cases a <;> rfl

@[simp] theorem apply_ways (s : State) (a : Act) : (s.apply a).ways = (match a with | .ways k x => setO s.ways k x | _ => s.ways) := by
  cases a <;> rfl

@[simp] theorem apply_spare (s : State) (a : Act) : (s.apply a).spare = (match a with | .spare k x => setO s.spare k x | _ => s.spare) := by
  cases a <;> rfl

@[simp] theorem apply_orig (s : State) (a : Act) : (s.apply a).orig = (match a with | .orig k x => setO s.orig k x | _ => s.orig) := by
  cases a <;> rfl

@[simp] theorem apply_tlb (s : State) (a : Act) : (s.apply a).tlb = (match a with | .tlb k x => setO s.tlb k x | _ => s.tlb) := by
  cases a <;> rfl

@[simp] theorem apply_walk (s : State) (a : Act) : (s.apply a).walk = (match a with | .walk k x => setO s.walk k x | _ => s.walk) := by
  cases a <;> rfl

@[simp] theorem apply_ccache (s : State) (a : Act) : (s.apply a).ccache = (match a with | .ccache k x => setO s.ccache k x | _ => s.ccache) := by
  cases a <;> rfl

@[simp] theorem apply_views (s : State) (a : Act) : (s.apply a).views = (match a with | .view k x => setO s.views k x | _ => s.views) := by
  cases a <;> rfl

@[simp] theorem apply_forks (s : State) (a : Act) : (s.apply a).forks = (match a with | .fork k x => setO s.forks k x | _ => s.forks) := by
  cases a <;> rfl

@[simp] theorem apply_recs (s : State) (a : Act) : (s.apply a).recs = (match a with | .fr k x => setO s.recs k x | _ => s.recs) := by
  cases a <;> rfl

@[simp] theorem apply_waitRec (s : State) (a : Act) : (s.apply a).waitRec = (match a with | .waitRec k x => setO s.waitRec k x | _ => s.waitRec) := by
  cases a <;> rfl

@[simp] theorem apply_waitEv (s : State) (a : Act) : (s.apply a).waitEv = (match a with | .waitEv x => x | _ => s.waitEv) := by
  cases a <;> rfl

@[simp] theorem apply_l1 (s : State) (a : Act) : (s.apply a).l1 = (match a with | .l1 k x => setO s.l1 k x | _ => s.l1) := by
  cases a <;> rfl

@[simp] theorem apply_marks (s : State) (a : Act) : (s.apply a).marks = (match a with | .marks k x => setO s.marks k x | _ => s.marks) := by
  cases a <;> rfl

@[simp] theorem apply_beads (s : State) (a : Act) : (s.apply a).beads = (match a with | .beads k x => setO s.beads k x | _ => s.beads) := by
  cases a <;> rfl

@[simp] theorem apply_breqs (s : State) (a : Act) : (s.apply a).breqs = (match a with | .breq k x => setO s.breqs k x | _ => s.breqs) := by
  cases a <;> rfl

@[simp] theorem apply_dir (s : State) (a : Act) : (s.apply a).dir = (match a with | .dir k x => setO s.dir k x | _ => s.dir) := by
  cases a <;> rfl

@[simp] theorem apply_trans (s : State) (a : Act) : (s.apply a).trans = (match a with | .trans k x => setO s.trans k x | _ => s.trans) := by
  cases a <;> rfl

@[simp] theorem apply_rdc (s : State) (a : Act) : (s.apply a).rdc = (match a with | .rdc k x => setO s.rdc k x | _ => s.rdc) := by
  cases a <;> rfl

@[simp] theorem apply_l2 (s : State) (a : Act) : (s.apply a).l2 = (match a with | .l2 k x => setO s.l2 k x | _ => s.l2) := by
  cases a <;> rfl

@[simp] theorem apply_merge (s : State) (a : Act) : (s.apply a).merge = (match a with | .merge k x => setO s.merge k x | _ => s.merge) := by
  cases a <;> rfl

@[simp] theorem apply_ports (s : State) (a : Act) : (s.apply a).ports = (match a with | .port k x => setO s.ports k x | _ => s.ports) := by
  cases a <;> rfl

@[simp] theorem apply_seen (s : State) (a : Act) : (s.apply a).seen = (match a with | .seen k x => setO s.seen k x | _ => s.seen) := by
  cases a <;> rfl

@[simp] theorem apply_mig (s : State) (a : Act) : (s.apply a).mig = (match a with | .mig x => x | _ => s.mig) := by
  cases a <;> rfl

@[simp] theorem apply_pre (s : State) (a : Act) : (s.apply a).pre = (match a with | .pre x => x | _ => s.pre) := by
  cases a <;> rfl

@[simp] theorem apply_saved (s : State) (a : Act) : (s.apply a).saved = (match a with | .saved k x => setO s.saved k x | _ => s.saved) := by
  cases a <;> rfl

@[simp] theorem apply_ck (s : State) (a : Act) : (s.apply a).ck = (match a with | .ck k x => setO s.ck k x | _ => s.ck) := by
  cases a <;> rfl

@[simp] theorem apply_twin (s : State) (a : Act) : (s.apply a).twin = (match a with | .twin x => x | _ => s.twin) := by
  cases a <;> rfl

@[simp] theorem apply_spdm (s : State) (a : Act) : (s.apply a).spdm = (match a with | .spdm x => x | _ => s.spdm) := by
  cases a <;> rfl

@[simp] theorem apply_fwq (s : State) (a : Act) : (s.apply a).fwq = (match a with | .fwq x => x | _ => s.fwq) := by
  cases a <;> rfl

@[simp] theorem apply_measure (s : State) (a : Act) : (s.apply a).measure = (match a with | .measure x => x | _ => s.measure) := by
  cases a <;> rfl

@[simp] theorem apply_idKeyOk (s : State) (a : Act) : (s.apply a).idKeyOk = (match a with | .idKeyOk x => x | _ => s.idKeyOk) := by
  cases a <;> rfl

@[simp] theorem apply_kat (s : State) (a : Act) : (s.apply a).kat = (match a with | .kat x => x | _ => s.kat) := by
  cases a <;> rfl

@[simp] theorem run_nil (s : State) : s.run [] = s := rfl

@[simp] theorem run_cons (s : State) (a : Act) (l : List Act) : s.run (a :: l) = (s.apply a).run l := rfl

@[simp] theorem run_append (s : State) (l k : List Act) : s.run (l ++ k) = (s.run l).run k := List.foldl_append

/-- The state that an effect leaves. -/
def State.does (s : State) (e : Eff) : State := s.run (e s)

theorem fire_eq (s : State) (e : Eff) : fire s e = .next (s.does e) := rfl

@[simp] theorem does_skip (s : State) : s.does skip = s := rfl

@[simp] theorem does_act (s : State) (a : Act) : s.does (act a) = s.apply a := rfl

@[simp] theorem does_andThen (s : State) (a b : Eff) : s.does (andThen a b) = (s.does a).does b := by
  simp [State.does, andThen]

@[simp] theorem does_seqs_nil (s : State) : s.does (seqs []) = s := rfl

@[simp] theorem does_seqs_cons (s : State) (a : Eff) (l : List Eff) : s.does (seqs (a :: l)) = (s.does a).does (seqs l) :=
  does_andThen s a (seqs l)

@[simp] theorem does_each_nil {α : Type} (s : State) (f : α → Eff) : s.does (each [] f) = s := rfl

@[simp] theorem does_each_cons {α : Type} (s : State) (a : α) (l : List α) (f : α → Eff) :
    s.does (each (a :: l) f) = (s.does (f a)).does (each l f) := does_seqs_cons s (f a) (l.map f)

@[simp] theorem does_when (s : State) (b : Bool) (e : Eff) : s.does (when b e) = if b then s.does e else s := by
  cases b <;> rfl

@[simp] theorem does_on (s : State) (f : State → Eff) : s.does (on f) = s.does (f s) := rfl

@[simp] theorem does_onSome_some {α : Type} (s : State) (a : α) (f : α → Eff) : s.does (onSome (some a) f) = s.does (f a) := rfl

@[simp] theorem does_onSome_none {α : Type} (s : State) (f : α → Eff) : s.does (onSome none f) = s := rfl

@[simp] theorem does_fresh (s : State) (f : Nat → Eff) : s.does (fresh f) = (s.apply (.ids (s.ids + 1))).does (f s.ids) := rfl

@[simp] theorem does_freely (s : State) (f : Nat → Eff) : s.does (freely f) = (s.apply (.free (s.free + 1))).does (f s.free) := rfl

/-- An effect given by its acts. -/
theorem does_acts (s : State) (l : List Act) : s.does (fun _ => l) = s.run l := rfl

@[simp] theorem does_upGroup_some (s : State) (k : Nat) (f : Group → Group) (x : Group) (h : s.groups.find k = some x) :
    s.does (upGroup k f) = s.apply (.group k (some (f x))) := by simp [State.does, upGroup, h]

@[simp] theorem does_upGroup_none (s : State) (k : Nat) (f : Group → Group) (h : s.groups.find k = none) : s.does (upGroup k f) = s := by
  simp [State.does, upGroup, h]

@[simp] theorem does_upTeam_some (s : State) (k : Nat) (f : Team → Team) (x : Team) (h : s.teams.find k = some x) :
    s.does (upTeam k f) = s.apply (.team k (some (f x))) := by simp [State.does, upTeam, h]

@[simp] theorem does_upTeam_none (s : State) (k : Nat) (f : Team → Team) (h : s.teams.find k = none) : s.does (upTeam k f) = s := by
  simp [State.does, upTeam, h]

@[simp] theorem does_upNode_some (s : State) (k : Nat) (f : Node → Node) (x : Node) (h : s.nodes.find k = some x) :
    s.does (upNode k f) = s.apply (.node k (some (f x))) := by simp [State.does, upNode, h]

@[simp] theorem does_upNode_none (s : State) (k : Nat) (f : Node → Node) (h : s.nodes.find k = none) : s.does (upNode k f) = s := by
  simp [State.does, upNode, h]

@[simp] theorem does_upCtx_some (s : State) (k : Nat) (f : Ctx → Ctx) (x : Ctx) (h : s.ctxs.find k = some x) :
    s.does (upCtx k f) = s.apply (.ctx k (some (f x))) := by simp [State.does, upCtx, h]

@[simp] theorem does_upCtx_none (s : State) (k : Nat) (f : Ctx → Ctx) (h : s.ctxs.find k = none) : s.does (upCtx k f) = s := by
  simp [State.does, upCtx, h]

@[simp] theorem does_upQueue_some (s : State) (k : Nat) (f : Queue → Queue) (x : Queue) (h : s.queues.find k = some x) :
    s.does (upQueue k f) = s.apply (.queue k (some (f x))) := by simp [State.does, upQueue, h]

@[simp] theorem does_upQueue_none (s : State) (k : Nat) (f : Queue → Queue) (h : s.queues.find k = none) : s.does (upQueue k f) = s := by
  simp [State.does, upQueue, h]

@[simp] theorem does_upRod_some (s : State) (k : Nat) (f : Rod → Rod) (x : Rod) (h : s.rods.find k = some x) :
    s.does (upRod k f) = s.apply (.rod k (some (f x))) := by simp [State.does, upRod, h]

@[simp] theorem does_upRod_none (s : State) (k : Nat) (f : Rod → Rod) (h : s.rods.find k = none) : s.does (upRod k f) = s := by
  simp [State.does, upRod, h]

@[simp] theorem does_upMx_some (s : State) (k : Nat) (f : List MxOp → List MxOp) (x : List MxOp) (h : s.mxq.find k = some x) :
    s.does (upMx k f) = s.apply (.mx k (some (f x))) := by simp [State.does, upMx, h]

@[simp] theorem does_upMx_none (s : State) (k : Nat) (f : List MxOp → List MxOp) (h : s.mxq.find k = none) : s.does (upMx k f) = s := by
  simp [State.does, upMx, h]

@[simp] theorem does_upOp_some (s : State) (k : Nat) (f : Op → Op) (x : Op) (h : s.ops.find k = some x) :
    s.does (upOp k f) = s.apply (.op k (some (f x))) := by simp [State.does, upOp, h]

@[simp] theorem does_upOp_none (s : State) (k : Nat) (f : Op → Op) (h : s.ops.find k = none) : s.does (upOp k f) = s := by
  simp [State.does, upOp, h]

@[simp] theorem does_upWays_some (s : State) (k : Nat) (f : Nat → Nat) (x : Nat) (h : s.ways.find k = some x) :
    s.does (upWays k f) = s.apply (.ways k (some (f x))) := by simp [State.does, upWays, h]

@[simp] theorem does_upWays_none (s : State) (k : Nat) (f : Nat → Nat) (h : s.ways.find k = none) : s.does (upWays k f) = s := by
  simp [State.does, upWays, h]

@[simp] theorem does_upSpare_some (s : State) (k : Nat) (f : Nat → Nat) (x : Nat) (h : s.spare.find k = some x) :
    s.does (upSpare k f) = s.apply (.spare k (some (f x))) := by simp [State.does, upSpare, h]

@[simp] theorem does_upSpare_none (s : State) (k : Nat) (f : Nat → Nat) (h : s.spare.find k = none) : s.does (upSpare k f) = s := by
  simp [State.does, upSpare, h]

@[simp] theorem does_upOrig_some (s : State) (k : Nat) (f : BitVec 19 → BitVec 19) (x : BitVec 19) (h : s.orig.find k = some x) :
    s.does (upOrig k f) = s.apply (.orig k (some (f x))) := by simp [State.does, upOrig, h]

@[simp] theorem does_upOrig_none (s : State) (k : Nat) (f : BitVec 19 → BitVec 19) (h : s.orig.find k = none) : s.does (upOrig k f) = s := by
  simp [State.does, upOrig, h]

@[simp] theorem does_upTlb_some (s : State) (k : Nat) (f : List TlbE → List TlbE) (x : List TlbE) (h : s.tlb.find k = some x) :
    s.does (upTlb k f) = s.apply (.tlb k (some (f x))) := by simp [State.does, upTlb, h]

@[simp] theorem does_upTlb_none (s : State) (k : Nat) (f : List TlbE → List TlbE) (h : s.tlb.find k = none) : s.does (upTlb k f) = s := by
  simp [State.does, upTlb, h]

@[simp] theorem does_upWalk_some (s : State) (k : Nat) (f : List WalkE → List WalkE) (x : List WalkE) (h : s.walk.find k = some x) :
    s.does (upWalk k f) = s.apply (.walk k (some (f x))) := by simp [State.does, upWalk, h]

@[simp] theorem does_upWalk_none (s : State) (k : Nat) (f : List WalkE → List WalkE) (h : s.walk.find k = none) : s.does (upWalk k f) = s := by
  simp [State.does, upWalk, h]

@[simp] theorem does_upCcache_some (s : State) (k : Nat) (f : AMap Sector → AMap Sector) (x : AMap Sector) (h : s.ccache.find k = some x) :
    s.does (upCcache k f) = s.apply (.ccache k (some (f x))) := by simp [State.does, upCcache, h]

@[simp] theorem does_upCcache_none (s : State) (k : Nat) (f : AMap Sector → AMap Sector) (h : s.ccache.find k = none) : s.does (upCcache k f) = s := by
  simp [State.does, upCcache, h]

@[simp] theorem does_upView_some (s : State) (k : Nat) (f : View → View) (x : View) (h : s.views.find k = some x) :
    s.does (upView k f) = s.apply (.view k (some (f x))) := by simp [State.does, upView, h]

@[simp] theorem does_upView_none (s : State) (k : Nat) (f : View → View) (h : s.views.find k = none) : s.does (upView k f) = s := by
  simp [State.does, upView, h]

@[simp] theorem does_upFork_some (s : State) (k : Nat) (f : Fork → Fork) (x : Fork) (h : s.forks.find k = some x) :
    s.does (upFork k f) = s.apply (.fork k (some (f x))) := by simp [State.does, upFork, h]

@[simp] theorem does_upFork_none (s : State) (k : Nat) (f : Fork → Fork) (h : s.forks.find k = none) : s.does (upFork k f) = s := by
  simp [State.does, upFork, h]

@[simp] theorem does_upFr_some (s : State) (k : Nat) (f : FRec → FRec) (x : FRec) (h : s.recs.find k = some x) :
    s.does (upFr k f) = s.apply (.fr k (some (f x))) := by simp [State.does, upFr, h]

@[simp] theorem does_upFr_none (s : State) (k : Nat) (f : FRec → FRec) (h : s.recs.find k = none) : s.does (upFr k f) = s := by
  simp [State.does, upFr, h]

@[simp] theorem does_upWaitRec_some (s : State) (k : Nat) (f : List FRec → List FRec) (x : List FRec) (h : s.waitRec.find k = some x) :
    s.does (upWaitRec k f) = s.apply (.waitRec k (some (f x))) := by simp [State.does, upWaitRec, h]

@[simp] theorem does_upWaitRec_none (s : State) (k : Nat) (f : List FRec → List FRec) (h : s.waitRec.find k = none) : s.does (upWaitRec k f) = s := by
  simp [State.does, upWaitRec, h]

@[simp] theorem does_upL1_some (s : State) (k : Nat) (f : AMap Sector → AMap Sector) (x : AMap Sector) (h : s.l1.find k = some x) :
    s.does (upL1 k f) = s.apply (.l1 k (some (f x))) := by simp [State.does, upL1, h]

@[simp] theorem does_upL1_none (s : State) (k : Nat) (f : AMap Sector → AMap Sector) (h : s.l1.find k = none) : s.does (upL1 k f) = s := by
  simp [State.does, upL1, h]

@[simp] theorem does_upMarks_some (s : State) (k : Nat) (f : List Nat → List Nat) (x : List Nat) (h : s.marks.find k = some x) :
    s.does (upMarks k f) = s.apply (.marks k (some (f x))) := by simp [State.does, upMarks, h]

@[simp] theorem does_upMarks_none (s : State) (k : Nat) (f : List Nat → List Nat) (h : s.marks.find k = none) : s.does (upMarks k f) = s := by
  simp [State.does, upMarks, h]

@[simp] theorem does_upBeads_some (s : State) (k : Nat) (f : Beads → Beads) (x : Beads) (h : s.beads.find k = some x) :
    s.does (upBeads k f) = s.apply (.beads k (some (f x))) := by simp [State.does, upBeads, h]

@[simp] theorem does_upBeads_none (s : State) (k : Nat) (f : Beads → Beads) (h : s.beads.find k = none) : s.does (upBeads k f) = s := by
  simp [State.does, upBeads, h]

@[simp] theorem does_upBreq_some (s : State) (k : Nat) (f : BeadReq → BeadReq) (x : BeadReq) (h : s.breqs.find k = some x) :
    s.does (upBreq k f) = s.apply (.breq k (some (f x))) := by simp [State.does, upBreq, h]

@[simp] theorem does_upBreq_none (s : State) (k : Nat) (f : BeadReq → BeadReq) (h : s.breqs.find k = none) : s.does (upBreq k f) = s := by
  simp [State.does, upBreq, h]

@[simp] theorem does_upDir_some (s : State) (k : Nat) (f : Dir → Dir) (x : Dir) (h : s.dir.find k = some x) :
    s.does (upDir k f) = s.apply (.dir k (some (f x))) := by simp [State.does, upDir, h]

@[simp] theorem does_upDir_none (s : State) (k : Nat) (f : Dir → Dir) (h : s.dir.find k = none) : s.does (upDir k f) = s := by
  simp [State.does, upDir, h]

@[simp] theorem does_upTrans_some (s : State) (k : Nat) (f : Trans → Trans) (x : Trans) (h : s.trans.find k = some x) :
    s.does (upTrans k f) = s.apply (.trans k (some (f x))) := by simp [State.does, upTrans, h]

@[simp] theorem does_upTrans_none (s : State) (k : Nat) (f : Trans → Trans) (h : s.trans.find k = none) : s.does (upTrans k f) = s := by
  simp [State.does, upTrans, h]

@[simp] theorem does_upRdc_some (s : State) (k : Nat) (f : AMap Sector → AMap Sector) (x : AMap Sector) (h : s.rdc.find k = some x) :
    s.does (upRdc k f) = s.apply (.rdc k (some (f x))) := by simp [State.does, upRdc, h]

@[simp] theorem does_upRdc_none (s : State) (k : Nat) (f : AMap Sector → AMap Sector) (h : s.rdc.find k = none) : s.does (upRdc k f) = s := by
  simp [State.does, upRdc, h]

@[simp] theorem does_upL2_some (s : State) (k : Nat) (f : AMap Nat → AMap Nat) (x : AMap Nat) (h : s.l2.find k = some x) :
    s.does (upL2 k f) = s.apply (.l2 k (some (f x))) := by simp [State.does, upL2, h]

@[simp] theorem does_upL2_none (s : State) (k : Nat) (f : AMap Nat → AMap Nat) (h : s.l2.find k = none) : s.does (upL2 k f) = s := by
  simp [State.does, upL2, h]

@[simp] theorem does_upMerge_some (s : State) (k : Nat) (f : Merge → Merge) (x : Merge) (h : s.merge.find k = some x) :
    s.does (upMerge k f) = s.apply (.merge k (some (f x))) := by simp [State.does, upMerge, h]

@[simp] theorem does_upMerge_none (s : State) (k : Nat) (f : Merge → Merge) (h : s.merge.find k = none) : s.does (upMerge k f) = s := by
  simp [State.does, upMerge, h]

@[simp] theorem does_upPort_some (s : State) (k : Nat) (f : LinkSt → LinkSt) (x : LinkSt) (h : s.ports.find k = some x) :
    s.does (upPort k f) = s.apply (.port k (some (f x))) := by simp [State.does, upPort, h]

@[simp] theorem does_upPort_none (s : State) (k : Nat) (f : LinkSt → LinkSt) (h : s.ports.find k = none) : s.does (upPort k f) = s := by
  simp [State.does, upPort, h]

@[simp] theorem does_upSeen_some (s : State) (k : Nat) (f : Nat → Nat) (x : Nat) (h : s.seen.find k = some x) :
    s.does (upSeen k f) = s.apply (.seen k (some (f x))) := by simp [State.does, upSeen, h]

@[simp] theorem does_upSeen_none (s : State) (k : Nat) (f : Nat → Nat) (h : s.seen.find k = none) : s.does (upSeen k f) = s := by
  simp [State.does, upSeen, h]

@[simp] theorem does_upSaved_some (s : State) (k : Nat) (f : Saved → Saved) (x : Saved) (h : s.saved.find k = some x) :
    s.does (upSaved k f) = s.apply (.saved k (some (f x))) := by simp [State.does, upSaved, h]

@[simp] theorem does_upSaved_none (s : State) (k : Nat) (f : Saved → Saved) (h : s.saved.find k = none) : s.does (upSaved k f) = s := by
  simp [State.does, upSaved, h]

@[simp] theorem does_upCk_some (s : State) (k : Nat) (f : Ckpt → Ckpt) (x : Ckpt) (h : s.ck.find k = some x) :
    s.does (upCk k f) = s.apply (.ck k (some (f x))) := by simp [State.does, upCk, h]

@[simp] theorem does_upCk_none (s : State) (k : Nat) (f : Ckpt → Ckpt) (h : s.ck.find k = none) : s.does (upCk k f) = s := by
  simp [State.does, upCk, h]

@[simp] theorem does_upSys_some (s : State) (k : Nat) (f : BitVec 64 → BitVec 64) (x : BitVec 64) (h : s.sys.find k = some x) :
    s.does (upSys k f) = s.apply (.sys k (some (f x))) := by simp [State.does, upSys, h]

@[simp] theorem does_upSys_none (s : State) (k : Nat) (f : BitVec 64 → BitVec 64) (h : s.sys.find k = none) : s.does (upSys k f) = s := by
  simp [State.does, upSys, h]

/-- An effect keeps what `q` reads of the state. -/
def Eff.Keeps {β : Type} (e : Eff) (q : State → β) : Prop := ∀ s, q (s.does e) = q s

/-- Every act of an effect keeps `q` (so the effect keeps it). -/
theorem keeps_of_acts {β : Type} {e : Eff} {q : State → β} (h : ∀ s, ∀ a ∈ e s, ∀ t, q (State.apply t a) = q t) : e.Keeps q := by
  intro s
  have key : ∀ (l : List Act), (∀ a ∈ l, ∀ t, q (State.apply t a) = q t) → ∀ t, q (State.run t l) = q t := by
    intro l
    induction l with
    | nil => intro _ t; rfl
    | cons a l ih =>
      intro hl t
      rw [run_cons, ih (fun b hb => hl b (List.mem_cons_of_mem _ hb)), hl a List.mem_cons_self]
  exact key (e s) (h s) s

theorem keeps_skip {β : Type} (q : State → β) : skip.Keeps q := fun _ => rfl

theorem keeps_act {β : Type} {q : State → β} {a : Act} (h : ∀ s : State, q (s.apply a) = q s) : (act a).Keeps q := h

theorem keeps_andThen {β : Type} {q : State → β} {a b : Eff} (ha : a.Keeps q) (hb : b.Keeps q) : (andThen a b).Keeps q := by
  intro s; rw [does_andThen, hb, ha]

theorem keeps_seqs {β : Type} {q : State → β} {l : List Eff} (h : ∀ e ∈ l, e.Keeps q) : (seqs l).Keeps q := by
  induction l with
  | nil => exact fun _ => rfl
  | cons a l ih => exact keeps_andThen (h a List.mem_cons_self) (ih fun e he => h e (List.mem_cons_of_mem _ he))

theorem keeps_each {α β : Type} {q : State → β} (l : List α) {f : α → Eff} (h : ∀ a ∈ l, (f a).Keeps q) : (each l f).Keeps q := by
  refine keeps_seqs fun e he => ?_
  obtain ⟨a, ha, rfl⟩ := List.mem_map.1 he
  exact h a ha

theorem keeps_when {β : Type} {q : State → β} (b : Bool) {e : Eff} (h : b = true → e.Keeps q) : (when b e).Keeps q := by
  cases b
  · exact keeps_skip q
  · exact h rfl

theorem keeps_on {β : Type} {q : State → β} {f : State → Eff} (h : ∀ s, (f s).Keeps q) : (on f).Keeps q := fun s => h s s

theorem keeps_onSome {α β : Type} {q : State → β} (o : Option α) {f : α → Eff} (h : ∀ a, (f a).Keeps q) : (onSome o f).Keeps q := by
  cases o with
  | none => exact keeps_skip q
  | some a => exact h a

theorem keeps_fresh {β : Type} {q : State → β} {f : Nat → Eff} (h0 : ∀ (s : State) n, q (s.apply (.ids n)) = q s)
    (h : ∀ n, (f n).Keeps q) : (fresh f).Keeps q := by
  intro s; rw [does_fresh, h, h0]

theorem keeps_freely {β : Type} {q : State → β} {f : Nat → Eff} (h0 : ∀ (s : State) n, q (s.apply (.free n)) = q s)
    (h : ∀ n, (f n).Keeps q) : (freely f).Keeps q := by
  intro s; rw [does_freely, h, h0]

/-- A property that every act keeps holds after every effect. -/
theorem does_induction {P : State → Prop} (h : ∀ s a, P s → P (State.apply s a)) (s : State) (e : Eff) (hs : P s) : P (s.does e) := by
  have key : ∀ (l : List Act) (t : State), P t → P (t.run l) := by
    intro l
    induction l with
    | nil => exact fun _ ht => ht
    | cons a l ih => exact fun t ht => ih _ (h t a ht)
  exact key (e s) s hs

end Sys2Proof.Machine
end

