-- ==== Sys2Proof/Laws/Issue.lean ====
section
/-!
SUPPORT. Issue.lean: what the issue of an instruction does, once: where it goes when nothing stops it, what its answer leads to, and
where the results of fixed latency stand.
-/
namespace Sys2Proof.Machine

theorem mem_addPend (l : List Pend) (p q : Pend) : q ∈ addPend l p ↔ q = p ∨ q ∈ l := by
  induction l with
  | nil => simp [addPend]
  | cons a l ih =>
    simp only [addPend]
    split
    · simp
    · simp only [List.mem_cons, ih]
      constructor
      · rintro (h | h | h) <;> simp [h]
      · rintro (h | h | h) <;> simp [h]

theorem mem_foldl_addPend (k l : List Pend) (q : Pend) : q ∈ k.foldl addPend l ↔ q ∈ k ∨ q ∈ l := by
  induction k generalizing l with
  | nil => simp
  | cons a k ih =>
    simp only [List.foldl_cons, ih, mem_addPend, List.mem_cons]
    constructor
    · rintro (h | h | h) <;> simp [h]
    · rintro ((h | h) | h) <;> simp [h]

/-- A result in flight is one of those added or one that was there. -/
theorem mem_pends (g : Group) (l : List Pend) (q : Pend) : q ∈ (g.pends l).pend ↔ q ∈ l ∨ q ∈ g.pend := mem_foldl_addPend l g.pend q

theorem landed_eq {s : State} {g : Group} (h : s.issuer = some g) : s.landed = s.apply (.group s.cur (some g)) := by
  simp [State.landed, h]

theorem issuer_eq {s : State} {g0 : Group} (h : s.groups.find s.cur = some g0) : s.issuer = some (g0.upTo s.now) := by
  simp [State.issuer, h]

/-- What holds of an instruction that gets as far as its checks, in terms of the group that issues it. -/
structure Gets (s : State) (gid : Nat) (g : Group) (i : Instr) (pc : BitVec 57) (a : Mask) : Prop where
  legal : i.legal = true
  gang : needsGang (issOf s gid g i pc a) i = false
  doom : doomed g a = none
  skip : skipped g i.guard = false
  helper : (g.cont.isSome && !i.onHelper) = false
  uniform : (g.cont.isSome && i.writesUniform) = false
  lost : (decide (g.lost ≠ []) && i.parksOnLost) = false
  holds : (holders (issOf s gid g i pc a) i).2 = 0#32
  active : a ≠ 0#32
  feset : genLocal i = true → s.fesetsOf ((g.cont.map Prod.fst).getD gid) = []

theorem gets_iff {s : State} {gid : Nat} {g : Group} {i : Instr} {pc : BitVec 57} {a : Mask} :
    gets s (issOf s gid g i pc a) i = true ↔ Gets s gid g i pc a := by
  have hd : doomed (issOf s gid g i pc a).g a = doomed g a := by
    simp only [issOf]; split <;> rfl
  have hk : skipped (issOf s gid g i pc a).g i.guard = skipped g i.guard := by
    simp only [issOf]; split <;> rfl
  have hc : (issOf s gid g i pc a).g.cont = g.cont := by simp only [issOf]; split <;> rfl
  have hl : (issOf s gid g i pc a).g.lost = g.lost := by simp only [issOf]; split <;> rfl
  have ho : (issOf s gid g i pc a).owner = (g.cont.map Prod.fst).getD gid := by rw [Iss.owner, hc]; rfl
  have ha : (issOf s gid g i pc a).act = a := rfl
  unfold gets
  simp only [ha]
  simp only [hd, hk, hc, hl, ho, Bool.and_eq_true, Bool.or_eq_true, Bool.not_eq_true', decide_eq_true_eq, Option.isNone_iff_eq_none,
    and_assoc]
  constructor
  · rintro ⟨h1, h2, h3, h4, h5, h6, h7, h8, h9⟩
    refine ⟨h1, h2, h3, h4, ?_, ?_, h6, h7, h8, fun h => h9.resolve_left (by simp [h])⟩
    · cases hx : g.cont.isSome <;> simp_all
    · cases hx : g.cont.isSome <;> simp_all
  · rintro ⟨h1, h2, h3, h4, h5, h5', h6, h7, h8, h9⟩
    refine ⟨h1, h2, h3, h4, ?_, h6, h7, h8, ?_⟩
    · cases hx : g.cont.isSome <;> simp_all
    · cases hx : genLocal i
      · exact .inl rfl
      · exact .inr (h9 hx)

/-- The parts of `State.reaching`. -/
theorem reaching_iff {s : State} {i : Instr} {c : Iss} :
    s.reaching i = some c ↔ ∃ g0 pc, s.groups.find s.cur = some g0 ∧ (g0.upTo s.now).pc? = some pc
      ∧ Gets s s.cur (g0.upTo s.now) i pc ((g0.upTo s.now).atPc pc)
      ∧ c = issOf s s.cur (g0.upTo s.now) i pc ((g0.upTo s.now).atPc pc) := by
  constructor
  · intro h
    unfold State.reaching at h
    cases hg : s.groups.find s.cur with
    | none => simp [State.issuer, hg] at h
    | some g0 =>
      simp only [State.issuer, hg, Option.map_some] at h
      cases hp : (g0.upTo s.now).pc? with
      | none => simp [hp] at h
      | some pc =>
        simp only [hp] at h
        split at h
        · rename_i hc
          exact ⟨g0, pc, rfl, hp, gets_iff.1 hc, (Option.some.inj h).symm⟩
        · simp at h
  · rintro ⟨g0, pc, hg, hp, h, rfl⟩
    unfold State.reaching
    simp only [State.issuer, hg, Option.map_some, hp]
    rw [if_pos (gets_iff.2 h)]

theorem and_not_zero (a : Mask) : a &&& ~~~ (0#32) = a := by
  rw [BitVec.not_zero, BitVec.and_allOnes]

theorem landed_cont (g : Group) (p : Pend) : (g.landed p).cont = g.cont := by
  unfold Group.landed
  cases p.kind <;> rfl

theorem upTo_cont (g : Group) (t : Nat) : (g.upTo t).cont = g.cont := by
  have h : ∀ (l : List Pend) (g : Group), (l.foldl Group.landed g).cont = g.cont := by
    intro l
    induction l with
    | nil => exact fun _ => rfl
    | cons p l ih => exact fun g => (ih _).trans (landed_cont g p)
  exact h _ _

/-- A group with no `FESET` under way has none to finish. -/
theorem finishFesets_none {s : State} {k : Nat} {b : Bool} (h : b = true → s.fesetsOf k = []) :
    s.does (when b (finishFesets k)) = s := by
  rw [does_when]
  split
  · rename_i hb
    rw [finishFesets, does_on, h hb]
    rfl
  · rfl

/-- The part of an issue behind its first fetch of the group. -/
theorem issueEff_does {s : State} {i : Instr} {g0 g : Group} {gid : Nat} {pc : BitVec 57} {body : Iss → State → Res}
    (hg : s.groups.find gid = some g0) (hu : g0.upTo s.now = g) (hp : g.pc? = some pc) (h : Gets s gid g i pc (g.atPc pc)) :
    s.does (issueEff gid g0 i body) = (s.apply (.group gid (some g))).does (answer (issOf s gid g i pc (g.atPc pc)) i
      (checked (issOf s gid g i pc (g.atPc pc)) (s.apply (.group gid (some g))) i body)) := by
  have hk : g0.cont = g.cont := by rw [← hu, upTo_cont]
  unfold issueEff
  rw [does_andThen, finishFesets_none (by rw [hk]; exact h.feset), does_on]
  simp only [hg, Option.getD_some, hu]
  generalize ha : g.atPc pc = a at *
  have h4' : ¬ (g.lost ≠ [] && i.parksOnLost) = true := by rw [h.lost]; exact Bool.false_ne_true
  have h5 := h.holds
  simp only [hp, ha, h.doom]
  rw [does_andThen, does_act]
  generalize s.apply (.group gid (some g)) = s1
  rw [if_neg (by simp [h.legal, h.gang]), if_neg (by rw [h.helper]; decide), if_neg (by rw [h.skip]; decide), if_neg (by rw [h.uniform]; decide),
    if_neg h4', does_andThen, h5]
  rw [and_not_zero, if_neg h.active, does_when, if_pos rfl, does_on]
  simp

/-- AN ISSUE THAT REACHES ITS CHECKS has the effect of the answer of its checks and its meaning. -/
theorem issue_reaching {s : State} {i : Instr} {c : Iss} (h : s.reaching i = some c) (body : Iss → State → Res) :
    issue i s body = .next (s.landed.does (answer c i (checked c s.landed i body))) := by
  obtain ⟨g0, pc, hg, hp, hG, rfl⟩ := reaching_iff.1 h
  rw [issue, hg, landed_eq (issuer_eq hg)]
  exact congrArg _ (issueEff_does hg rfl hp hG)

theorem issuing_iff {s : State} {i : Instr} {c : Iss} : s.issuing i = some c ↔ s.reaching i = some c ∧ passes c i = true := by
  simp [State.issuing, Option.filter_eq_some_iff]

/-- The checks of an instruction that passes them leave its meaning. -/
theorem checked_passes {c : Iss} {s : State} {i : Instr} (h : passes c i = true) (ha : acts c i = true) (body : Iss → State → Res) :
    checked c s i body = body c s := by
  simp only [passes, Bool.and_eq_true, Bool.or_eq_true, Bool.not_eq_true', Option.isNone_iff_eq_none] at h
  obtain ⟨⟨⟨h1, h2⟩, h3⟩, h4⟩ := h
  have hn : ¬ ((decide (c.on = 0#32) && !i.actsIdle) = true) := by
    simp only [acts, Bool.or_eq_true, decide_eq_true_eq, ne_eq] at ha
    simp only [Bool.and_eq_true, decide_eq_true_eq, Bool.not_eq_true', not_and]
    intro h0
    rcases ha with ha | ha
    · exact absurd h0 ha
    · simp [ha]
  unfold checked
  rw [if_neg (by simp [h1]), h2]
  simp only
  cases hs : staleField c i with
  | none =>
    simp only [h4]
    rw [if_neg hn]
  | some u =>
    have hc : c.g.csr.chk = false := by simpa [hs] using h3
    simp only [h4, hc]
    rw [if_neg hn]

/-- AN ISSUE THAT NOTHING STOPS has the effect of its meaning's answer. -/
theorem issue_answer {s : State} {i : Instr} {c : Iss} (h : s.issuing i = some c) (ha : acts c i = true) (body : Iss → State → Res) :
    issue i s body = .next (s.landed.does (answer c i (body c s.landed))) := by
  rw [issuing_iff] at h
  rw [issue_reaching h.1, checked_passes h.2 ha]

theorem gid_of_reaching {s : State} {i : Instr} {c : Iss} (h : s.reaching i = some c) : c.gid = s.cur := by
  obtain ⟨g0, pc, _, _, _, rfl⟩ := reaching_iff.1 h
  rfl

theorem t_of_reaching {s : State} {i : Instr} {c : Iss} (h : s.reaching i = some c) : c.t = s.now := by
  obtain ⟨g0, pc, _, _, _, rfl⟩ := reaching_iff.1 h
  rfl

/-- Storing the landed group again leaves the counter of free values as it is. -/
theorem landed_free (s : State) : s.landed.free = s.free := by
  unfold State.landed
  split <;> simp

/-- AN ISSUE WITH AN EFFECT `e` first has the effects of every issue (`State.begun`), then `e`. -/
theorem answer_done {s : State} {i : Instr} {c : Iss} (h : s.reaching i = some c) (e : Eff) :
    s.landed.does (answer c i (.done e)) = (s.begun c i).does e := by
  have hg := gid_of_reaching h
  simp only [answer, does_freely, does_seqs_cons, does_seqs_nil, does_act, does_when, landed_free, hg, State.begun]
  cases c.g.cont.isSome <;> rfl

theorem issue_done {s : State} {i : Instr} {c : Iss} (h : s.issuing i = some c) (ha : acts c i = true) {body : Iss → State → Res} {e : Eff}
    (hb : body c s.landed = .done e) : issue i s body = .next ((s.begun c i).does e) := by
  rw [issue_answer h ha, hb, answer_done (issuing_iff.1 h).1]

/-- An effect that ends no group. -/
def Eff.Stays (e : Eff) : Prop := ∀ (s : State) (k : Nat), (s.groups.find k).isSome = true → ((s.does e).groups.find k).isSome = true

theorem stays_of_keeps {e : Eff} (h : e.Keeps State.groups) : e.Stays := fun s k hk => by rw [h s]; exact hk

theorem stays_skip : skip.Stays := fun _ _ h => h

theorem stays_andThen {a b : Eff} (ha : a.Stays) (hb : b.Stays) : (andThen a b).Stays := fun s k h => by
  rw [does_andThen]; exact hb _ _ (ha _ _ h)

theorem stays_seqs {l : List Eff} (h : ∀ e ∈ l, e.Stays) : (seqs l).Stays := by
  induction l with
  | nil => exact stays_skip
  | cons a l ih => exact stays_andThen (h a List.mem_cons_self) (ih fun e he => h e (List.mem_cons_of_mem _ he))

theorem stays_each {α : Type} (l : List α) {f : α → Eff} (h : ∀ a ∈ l, (f a).Stays) : (each l f).Stays := by
  refine stays_seqs fun e he => ?_
  obtain ⟨a, ha, rfl⟩ := List.mem_map.1 he
  exact h a ha

theorem stays_when (b : Bool) {e : Eff} (h : e.Stays) : (when b e).Stays := by
  cases b
  · exact stays_skip
  · exact h

theorem stays_on {f : State → Eff} (h : ∀ s, (f s).Stays) : (on f).Stays := fun s => h s s

theorem stays_onSome {α : Type} (o : Option α) {f : α → Eff} (h : ∀ a, (f a).Stays) : (onSome o f).Stays := by
  cases o with
  | none => exact stays_skip
  | some a => exact h a

theorem stays_group (n : Nat) (g : Group) : (act (.group n (some g))).Stays := fun s k h => by
  rw [does_act, apply_groups]
  by_cases hk : k = n
  · rw [hk, find_setO_self]; rfl
  · rw [find_setO_some_ne _ _ hk]; exact h

theorem stays_upGroup (n : Nat) (f : Group → Group) : (upGroup n f).Stays := fun s k h => by
  cases hn : s.groups.find n with
  | none => rw [does_upGroup_none _ _ _ hn]; exact h
  | some g => rw [does_upGroup_some _ _ _ _ hn]; exact stays_group n (f g) s k h

theorem upRod_groups (s : State) (k : Nat) (f : Rod → Rod) : (s.does (upRod k f)).groups = s.groups := by
  simp only [State.does, upRod]
  split <;> simp

theorem stays_upRod (n : Nat) (f : Rod → Rod) : (upRod n f).Stays := stays_of_keeps fun s => upRod_groups s n f

theorem stays_settleRets (key : Nat) : (settleRets key).Stays :=
  stays_on fun _ => stays_onSome _ fun _ => stays_when _ <| stays_andThen (stays_of_keeps fun s => by rw [does_act, apply_groups])
    (stays_andThen (stays_each _ fun _ _ => stays_when _ <| stays_on fun _ => stays_each _ fun _ _ => stays_when _ (stays_upGroup _ _))
      stays_skip)

theorem stays_flagsUp (c : Iss) (L : Nat) (b : BitVec 6) : (c.flagsUp L b).Stays := stays_onSome _ fun _ => stays_upGroup _ _

/-- After the issue itself the group is still there. -/
theorem begun_group (s : State) (c : Iss) (i : Instr) : ((s.begun c i).groups.find s.cur).isSome = true := by
  have h0 : ∀ e : Eff, e.Stays → (((((s.landed.apply (.free (s.free + 1))).apply
      (.group s.cur (some ((afterIssue c i s.free).logged c.g i c.t)))).does e).groups.find s.cur).isSome = true) := fun e he =>
    he _ _ (by rw [apply_groups, find_setO_self]; rfl)
  have h1 := stays_onSome c.g.cont fun p => stays_when (staleField c i).isSome
    (stays_upGroup p.1 fun g => { g with csr := { g.csr with stale := true } })
  unfold State.begun
  split
  · exact h0 _ h1
  · exact stays_upRod _ _ _ _ (h0 _ h1)

theorem srcLanes_get {α : Type} (f : Nat → α) (d : α) {n : Nat} (h : n < 32) : (tab32 f).getD n d = f n := by
  simp [tab32, h]

theorem lane_tab32 (f : Nat → Elem) {n : Nat} (h : n < 32) : lane (tab32 f) n = f n := srcLanes_get f _ h

theorem mask_mem_lanes {m : Mask} {n : Nat} : n ∈ Mask.lanes m ↔ n < 32 ∧ Mask.has m n = true := by
  simp [Mask.lanes]

/-- The value that the lanes share is the one that a uniform destination receives. -/
theorem common_shared {m : Mask} {f : Nat → LaneOut} {k n : Nat} (hn : n < 32) (hm : Mask.has m n = true)
    (hall : ∀ j < 32, Mask.has m j = true → f j = f n) : common m f k = f n := by
  unfold common
  cases hl : Mask.lanes m with
  | nil =>
    have : n ∈ Mask.lanes m := mask_mem_lanes.2 ⟨hn, hm⟩
    simp [hl] at this
  | cons a l =>
    have hmem : ∀ j, j ∈ a :: l → f j = f n := fun j hj =>
      hall j (mask_mem_lanes.1 (hl ▸ hj)).1 (mask_mem_lanes.1 (hl ▸ hj)).2
    have ha := hmem a List.mem_cons_self
    simp only
    rw [if_pos]
    · exact ha
    · simp only [List.all_eq_true, decide_eq_true_eq]
      intro b hb
      rw [hmem b (List.mem_cons_of_mem _ hb), ha]

theorem freeSlot_ge (l : List Slot) (n t : Nat) : t ≤ freeSlot l n t := by
  induction n generalizing t with
  | zero => exact Nat.le_refl _
  | succ n ih =>
    simp only [freeSlot]
    split
    · exact Nat.le_trans (Nat.le_succ t) (ih (t + 1))
    · exact Nat.le_refl _

theorem best_pos (i : Instr) : 0 < i.best := by
  unfold Instr.best
  split <;> decide

theorem ubest_pos (i : Instr) : 0 < i.ubest := by
  unfold Instr.ubest
  split
  · decide
  · exact best_pos i

theorem delay_ge (lo hi n : Nat) : lo ≤ delay lo hi n := Nat.le_add_right _ _

theorem has_ne_zero {m : Mask} {n : Nat} (h : Mask.has m n = true) : m ≠ 0#32 := by
  rintro rfl
  simp [Mask.has] at h

/-- The entries of a vector result in flight. -/
theorem mem_vecPends (i : Instr) (d : Dst) (span : Nat) (hm : BitVec 4) (m : Mask) (L : Nat) (x : Nat → Lanes) :
    (⟨L, .push hm m (x 0)⟩ : Pend) ∈ vecPends i d span hm m L x
      ∧ (d.nwb = false → ∀ k < span, (⟨if k < 6 then L + 2 else L + 3, .wv (d.idx.toNat + k) m (x k)⟩ : Pend) ∈ vecPends i d span hm m L x) := by
  constructor
  · simp [vecPends]
  · intro hn k hk
    simp only [vecPends, hn, Bool.false_eq_true, if_false, List.mem_append, List.mem_map, List.mem_range]
    exact .inr ⟨k, hk, rfl⟩

theorem mem_takes (g : Group) (l : List Pend) (L : Nat) (q : Pend) (h : q ∈ l) : q ∈ (g.takes l L).pend := (mem_pends g l q).2 (.inl h)

theorem latchClk_gt {c : Iss} (i : Instr) (hc : c.t < c.coll) : c.t < c.latchClk i := by
  have hb := best_pos i
  unfold Iss.latchClk
  split
  · omega
  · exact Nat.lt_of_lt_of_le (by unfold Iss.nominal; omega) (freeSlot_ge _ _ _)

theorem plainClk_gt {c : Iss} (i : Instr) (n : Nat) (hc : c.t < c.coll) : c.t < c.plainClk i n := by
  have h1 := ubest_pos i
  have h2 := delay_ge i.ubest (i.ubest + 4) n
  have hb := best_pos i
  unfold Iss.plainClk Iss.nominal
  split
  · omega
  · split <;> omega

theorem lanesOf_get {c : Iss} (f : Nat → LaneOut) (k : Nat) {n : Nat} (hn : c.on.has n = true) (h : n < 32) :
    lane (c.lanesOf f k) n = (f n).elem k := by
  rw [Iss.lanesOf, lane_tab32 _ h, if_pos hn]

theorem lands_vec {c : Iss} {i : Instr} {u : DstUse} {f : Nat → LaneOut} {g : Group} {L : Nat} (hcls : u.dst.cls = .v) :
    Lands u c.on true f (g.takes (c.vecResults i u f g.hm L) L) L := by
  refine ⟨fun _ => ?_, fun hnwb _ k hk => ?_, fun _ h => ?_, fun _ h => ?_, fun _ h => ?_⟩
  · exact ⟨_, _, mem_takes _ _ _ _ (List.mem_append_left _ (List.mem_append_left _ (List.mem_append_left _ (mem_vecPends _ _ _ _ _ _ _).1))),
      fun n hn hlt => lanesOf_get f 0 hn hlt⟩
  · exact ⟨_, mem_takes _ _ _ _ (List.mem_append_left _ (List.mem_append_left _ (List.mem_append_left _ ((mem_vecPends _ _ _ _ _ _ _).2 hnwb k hk)))),
      fun n hn hlt => lanesOf_get f k hn hlt⟩
  all_goals rw [hcls] at h; cases h

theorem lands_plain {c : Iss} {i : Instr} {u : DstUse} {f : Nat → LaneOut} {g : Group} {n L : Nat} :
    Lands u c.on false f (g.takes (c.plainResults i u f n L) L) L := by
  have key : ∀ k ∈ c.plainWrites u f n, (⟨L, k⟩ : Pend) ∈ (g.takes (c.plainResults i u f n L) L).pend := fun k hk =>
    mem_takes _ _ _ _ (List.mem_append_left _ (List.mem_append_left _ (List.mem_append_left _ (List.mem_map.2 ⟨k, hk, rfl⟩))))
  refine ⟨fun h => (by cases h), fun _ h => (by cases h), fun hnwb hcls m hm hon hall k hk => key _ ?_, fun hnwb hcls hlt hon => ?_,
    fun hnwb hcls hge m hm hon hall => key _ ?_⟩
  · have h0 := has_ne_zero hon
    rw [← common_shared (k := n) hm hon hall]
    simpa [Iss.plainWrites, hnwb, h0, hcls] using hk
  · refine ⟨tab32 fun m => (f m).flag, key _ ?_, fun m hm _ => srcLanes_get _ _ hm⟩
    simp [Iss.plainWrites, hnwb, hon, hcls, hlt]
  · have h0 := has_ne_zero hon
    rw [← common_shared (k := n) hm hon hall]
    simp [Iss.plainWrites, hnwb, h0, hcls, Nat.not_lt.2 hge]

/-- A RESULT OF FIXED LATENCY IS SENT as the destination's class says (R73, R80, R85, R89). -/
theorem putG_sends {c : Iss} {i : Instr} {useGuard : Bool} {f : Nat → LaneOut} {t : State} {g : Group} {u : DstUse}
    (hu : i.dst? = some u) (hg : t.groups.find c.gid = some g) (hc : c.t < c.coll) :
    Sends (t.does (c.putG i useGuard f)) c i (fun n => if useGuard then c.guarded (f n) n else f n) := by
  have there : ∀ (s : State) (e : Eff), e.Stays → (s.groups.find c.gid).isSome = true → ∃ g', (s.does e).groups.find c.gid = some g' :=
    fun s e he h => Option.isSome_iff_exists.1 (he s _ h)
  have hg' : (t.groups.find c.gid).isSome = true := by rw [hg]; rfl
  cases hv : i.vecResult with
  | true =>
    have hcls : u.dst.cls = .v := by
      simp only [Instr.vecResult, hu, Bool.and_eq_true, decide_eq_true_eq] at hv
      exact hv.2
    simp only [Iss.putG, hu, hv, if_true, does_seqs_cons, does_seqs_nil]
    obtain ⟨g', h'⟩ := there _ _ (stays_flagsUp c (c.latchClk i) (raised c.on fun n => if useGuard then c.guarded (f n) n else f n))
      (stays_when c.g.cont.isNone (stays_andThen (stays_upRod (rodKey c.g.frame c.g.rod) fun r =>
        { r with slots := r.slots ++ [⟨c.latchClk i, c.t, regWrites u.dst u.span (c.latchClk i)⟩] })
        (stays_settleRets (rodKey c.g.frame c.g.rod))) t c.gid hg')
    rw [does_upGroup_some _ _ _ _ h']
    refine ⟨u, _, c.latchClk i, hu, by rw [apply_groups, find_setO_self], latchClk_gt i hc, by rw [hv]; exact lands_vec hcls, ?_⟩
    exact mem_takes _ _ _ _ (List.mem_append_left _ (List.mem_append_left _ (List.mem_append_right _ (List.mem_singleton.2 rfl))))
  | false =>
    simp only [Iss.putG, hu, hv, Bool.false_eq_true, if_false, does_freely, does_andThen]
    obtain ⟨g', h'⟩ := there (t.apply (.free (t.free + 1))) _ (stays_flagsUp c (c.plainClk i t.free)
      (raised c.on fun n => if useGuard then c.guarded (f n) n else f n)) (by rw [apply_groups]; exact hg')
    rw [does_upGroup_some _ _ _ _ h']
    refine ⟨u, _, c.plainClk i t.free, hu, by rw [apply_groups, find_setO_self], plainClk_gt i t.free hc, by rw [hv]; exact lands_plain, ?_⟩
    exact mem_takes _ _ _ _ (List.mem_append_left _ (List.mem_append_left _ (List.mem_append_right _ (List.mem_singleton.2 rfl))))

theorem foldl_max_ge (l : List ReadAt) (a : Nat) : a ≤ l.foldl (fun m r => max m r.clk) a := by
  induction l generalizing a with
  | nil => exact Nat.le_refl _
  | cons r l ih => exact Nat.le_trans (Nat.le_max_left _ _) (ih _)

theorem coll_of_reaching {s : State} {i : Instr} {c : Iss} (h : s.reaching i = some c) : c.t < c.coll := by
  obtain ⟨g0, pc, _, _, _, rfl⟩ := reaching_iff.1 h
  exact Nat.lt_of_lt_of_le (Nat.lt_succ_self _) (foldl_max_ge _ _)

theorem acts_fixed {c : Iss} {i : Instr} (h : i.fixed = true) : acts c i = true := by
  have : i.actsIdle = true := by
    unfold Instr.actsIdle
    split
    · rfl
    · exact h
  simp [acts, this]

/-- AN INSTRUCTION OF FIXED LATENCY THAT NOTHING STOPS sends the result of its lanes. -/
theorem issue_put_sends {s : State} {i : Instr} {c : Iss} {useGuard : Bool} {body : Iss → State → Res} {f : Nat → LaneOut} {u : DstUse}
    (h : s.issuing i = some c) (hf : i.fixed = true) (hu : i.dst? = some u) (hb : body c s.landed = .done (c.putG i useGuard f)) :
    ∃ t, issue i s body = .next t ∧ Sends t c i (fun n => if useGuard then c.guarded (f n) n else f n) := by
  have hr := (issuing_iff.1 h).1
  obtain ⟨g, hg⟩ := Option.isSome_iff_exists.1 (begun_group s c i)
  exact ⟨_, issue_done h (acts_fixed hf) hb, putG_sends hu (g := g) (by rw [gid_of_reaching hr]; exact hg) (coll_of_reaching hr)⟩

/-- The same for the instructions whose lanes are `alu`'s. -/
theorem alu_sends {s : State} {i : Instr} {c : Iss} {f : Iss → Nat → LaneOut} {u : DstUse}
    (h : s.issuing i = some c) (hf : i.fixed = true) (hu : i.dst? = some u) :
    ∃ t, alu i s f = .next t ∧ SendsGuarded t c i (f c) := issue_put_sends (useGuard := true) h hf hu rfl

end Sys2Proof.Machine
end

