-- ==== Sys2Proof/Laws/Keep.lean ====
section
/-!
SUPPORT. Keep.lean: every act keeps the invariant, so every effect does; and what the shared operations change.
-/
namespace Sys2Proof.Machine

/-- An act keeps the invariant. -/
theorem apply_keeps_inv {s : State} (h : s.Inv) (a : Act) : (s.apply a).Inv := by
  cases a with
  | byte a b => exact { h with mem := Mem_setByte_wf _ _ _ h.mem, bad := h.bad }
  | bad k x => exact { h with mem := h.mem, bad := setO_wf _ _ _ h.bad }
  | hgone x => exact { h with mem := h.mem, bad := h.bad }
  | group k x => exact { h with groups := setO_wf _ _ _ h.groups }
  | team k x => exact { h with teams := setO_wf _ _ _ h.teams }
  | node k x => exact { h with nodes := setO_wf _ _ _ h.nodes }
  | ctx k x => exact { h with ctxs := setO_wf _ _ _ h.ctxs }
  | queue k x => exact { h with queues := setO_wf _ _ _ h.queues }
  | rod k x => exact { h with rods := setO_wf _ _ _ h.rods }
  | mx k x => exact { h with mxq := setO_wf _ _ _ h.mxq }
  | op k x => exact { h with ops := setO_wf _ _ _ h.ops }
  | ways k x => exact { h with ways := setO_wf _ _ _ h.ways }
  | spare k x => exact { h with spare := setO_wf _ _ _ h.spare }
  | orig k x => exact { h with orig := setO_wf _ _ _ h.orig }
  | tlb k x => exact { h with tlb := setO_wf _ _ _ h.tlb }
  | walk k x => exact { h with walk := setO_wf _ _ _ h.walk }
  | ccache k x => exact { h with ccache := setO_wf _ _ _ h.ccache }
  | view k x => exact { h with views := setO_wf _ _ _ h.views }
  | fork k x => exact { h with forks := setO_wf _ _ _ h.forks }
  | fr k x => exact { h with recs := setO_wf _ _ _ h.recs }
  | waitRec k x => exact { h with waitRec := setO_wf _ _ _ h.waitRec }
  | l1 k x => exact { h with l1 := setO_wf _ _ _ h.l1 }
  | marks k x => exact { h with marks := setO_wf _ _ _ h.marks }
  | beads k x => exact { h with beads := setO_wf _ _ _ h.beads }
  | breq k x => exact { h with breqs := setO_wf _ _ _ h.breqs }
  | dir k x => exact { h with dir := setO_wf _ _ _ h.dir }
  | trans k x => exact { h with trans := setO_wf _ _ _ h.trans }
  | rdc k x => exact { h with rdc := setO_wf _ _ _ h.rdc }
  | l2 k x => exact { h with l2 := setO_wf _ _ _ h.l2 }
  | merge k x => exact { h with merge := setO_wf _ _ _ h.merge }
  | port k x => exact { h with ports := setO_wf _ _ _ h.ports }
  | seen k x => exact { h with seen := setO_wf _ _ _ h.seen }
  | saved k x => exact { h with saved := setO_wf _ _ _ h.saved }
  | ck k x => exact { h with ck := setO_wf _ _ _ h.ck }
  | sys k x => exact { h with sys := setO_wf _ _ _ h.sys }
  | _ => exact { h with }

/-- A list of acts keeps the invariant. -/
theorem run_keeps_inv {s : State} (h : s.Inv) (l : List Act) : (s.run l).Inv := by
  induction l generalizing s with
  | nil => exact h
  | cons a l ih => exact ih (apply_keeps_inv h a)

/-- A step made of an effect answers a next state, which keeps the invariant. -/
theorem fire_keeps_inv {s t : State} {e : Eff} (h : s.Inv) (ht : fire s e = .next t) : t.Inv := by
  cases ht
  exact run_keeps_inv h _

/-- An instruction word keeps the invariant. -/
theorem issue_keeps_inv {s t : State} {i : Instr} {body : Iss → State → Res} (h : s.Inv) (ht : issue i s body = .next t) : t.Inv := by
  unfold issue at ht
  split at ht
  · cases ht
  · exact fire_keeps_inv h ht

/-- `andThen` is the second effect on the state that the first leaves. -/
theorem run_andThen (s : State) (a b : Eff) : s.run (andThen a b s) = (s.run (a s)).run (b (s.run (a s))) := run_append ..

/-- A published pair of clocks bounds the delay drawn from it. -/
theorem delay_le {lo hi : Nat} (h : lo ≤ hi) (n : Nat) : delay lo hi n ≤ hi := by
  have := Nat.mod_lt (Config.jitter n) (show 0 < hi - lo + 1 by omega)
  unfold delay
  omega

/-- A step put off by a published pair of clocks is due inside it, and nothing but the timers and the free values has changed. -/
theorem later_due (s : State) {lo hi : Nat} (h : lo ≤ hi) (i : Instr) :
    Due s (s.run (later lo hi i s)) lo hi i ∧ ∃ l, s.run (later lo hi i s) = { s with free := s.free + 1, timers := s.timers ++ l } := by
  refine ⟨⟨s.now + delay lo hi s.free, Nat.add_le_add_left (Nat.le_add_right ..) _, Nat.add_le_add_left (delay_le h _) _, ?_⟩, _, rfl⟩
  exact List.mem_append_right _ (List.mem_singleton.2 rfl)

/-- The trap that a group without a trap mode and with a handler takes (R270, R272). -/
theorem takeTrap_traps {s : State} {gid : Nat} {g : Group} {cause : Trap} {info : BitVec 64} {tpc : BitVec 57} {T : Mask}
    (hg : s.groups.find gid = some g) (hc : CanTrap g) :
    Trapped s (s.run (takeTrap gid cause info tpc T s)) gid g cause.code info tpc T := by
  obtain ⟨-, hm, hv⟩ := hc
  unfold takeTrap on
  simp only [hg, hm, hv, Bool.false_or, decide_false, Bool.false_eq_true, ↓reduceIte, freely, upGroup]
  have hg' : (s.apply (.free (s.free + 1))).groups.find gid = some g := hg
  rw [hg']
  refine ⟨_, find_setO_self .., ⟨rfl, rfl, rfl, rfl, rfl⟩, rfl, rfl, ?_, ?_, Nat.add_le_add_left (Nat.le_add_right 12 _) _, ?_⟩
  · intro n hn ht
    simp [Group.th, tab32, hn, ht]
  · intro n hn ht
    simp [Group.th, tab32, hn, ht]
  · exact Nat.add_le_add_left (delay_le (by omega) _) _

end Sys2Proof.Machine
end

