-- ==== Sys2Proof/Laws/PerInstr.lean ====
section
/-!
SUPPORT. PerInstr.lean: facts about every constructor of Instr, one lemma each.
-/

/-- Exactly the instruction words of Table 14.10 have an encoding. -/
def Sys2Proof.Laws.Encodes.Statement (i : Sys2Proof.Instr) : Prop := (Sys2Proof.encodeRaw i).isSome = i.isWord

namespace Sys2Proof.Laws.Encodes
open Sys2Proof

theorem nop (h : Head) : Statement (.nop h) := rfl
theorem mov (h : Head) (d : Dst) (a : Opnd) : Statement (.mov h d a) := by cases a <;> rfl
theorem movl (n : Hint) (d : Dst) (imm : Word) : Statement (.movl n d imm) := rfl
theorem unify (h : Head) (d : Dst) (a : Src) : Statement (.unify h d a) := rfl
theorem iadd (h : Head) (ty : ITy) (sat : Bool) (d : Dst) (a : Src) (b : Opnd) : Statement (.iadd h ty sat d a b) := by cases b <;> rfl
theorem isub (h : Head) (ty : ITy) (sat : Bool) (d : Dst) (a : Src) (b : Opnd) : Statement (.isub h ty sat d a b) := by cases b <;> rfl
theorem imul (h : Head) (ty : ITy) (sat : Bool) (m : MulMode) (d : Dst) (a : Src) (b : Opnd) : Statement (.imul h ty sat m d a b) := by cases b <;> rfl
theorem imad (h : Head) (ty : ITy) (sat : Bool) (m : MulMode) (d : Dst) (a b c : Src) : Statement (.imad h ty sat m d a b c) := rfl
theorem imin (h : Head) (ty : ITy) (d : Dst) (a : Src) (b : Opnd) : Statement (.imin h ty d a b) := by cases b <;> rfl
theorem imax (h : Head) (ty : ITy) (d : Dst) (a : Src) (b : Opnd) : Statement (.imax h ty d a b) := by cases b <;> rfl
theorem iabs (h : Head) (ty : ITy) (sat : Bool) (d : Dst) (a : Src) : Statement (.iabs h ty sat d a) := rfl
theorem lea (h : Head) (ty : ITy) (k : BitVec 2) (d : Dst) (a : Src) (b : Opnd) : Statement (.lea h ty k d a b) := by cases b <;> rfl
theorem lop3 (h : Head) (op1 op2 : Lop) (d : Dst) (a b c : Src) : Statement (.lop3 h op1 op2 d a b c) := rfl
theorem shl (h : Head) (w64 : Bool) (d : Dst) (a : Src) (b : Opnd) : Statement (.shl h w64 d a b) := by cases b <;> rfl
theorem shr (h : Head) (w64 arith : Bool) (d : Dst) (a : Src) (b : Opnd) : Statement (.shr h w64 arith d a b) := by cases b <;> rfl
theorem shf (h : Head) (right : Bool) (d : Dst) (a b c : Src) : Statement (.shf h right d a b c) := rfl
theorem popc (h : Head) (w64 : Bool) (d : Dst) (a : Src) : Statement (.popc h w64 d a) := rfl
theorem clz (h : Head) (w64 : Bool) (d : Dst) (a : Src) : Statement (.clz h w64 d a) := rfl
theorem brev (h : Head) (w64 : Bool) (d : Dst) (a : Src) : Statement (.brev h w64 d a) := rfl
theorem bfx (h : Head) (signed : Bool) (d : Dst) (a b : Src) : Statement (.bfx h signed d a b) := rfl
theorem bfi (h : Head) (d : Dst) (a b c : Src) : Statement (.bfi h d a b c) := rfl
theorem bil (h : Head) (three : Bool) (d : Dst) (a b c : Src) : Statement (.bil h three d a b c) := rfl
theorem bdil (h : Head) (three : Bool) (d : Dst) (a b : Src) : Statement (.bdil h three d a b) := rfl
theorem prmt (h : Head) (d : Dst) (a b c : Src) : Statement (.prmt h d a b c) := rfl
theorem cmp (h : Head) (ty : ITy) (d : Dst) (a : Src) (b : Opnd) : Statement (.cmp h ty d a b) := by cases b <;> rfl
theorem sel (h : Head) (cc : Cc) (d : Dst) (a b c : Src) : Statement (.sel h cc d a b c) := rfl
theorem shfl (h : Head) (m : ShflMode) (d : Dst) (a b c : Src) : Statement (.shfl h m d a b c) := rfl
theorem vote (h : Head) (m : VoteMode) (d : Dst) (a : Src) : Statement (.vote h m d a) := rfl
theorem lred (h : Head) (op : LaneOp) (d : Dst) (a : Src) : Statement (.lred h op d a) := rfl
theorem lscan (h : Head) (op : LaneOp) (excl : Bool) (d : Dst) (a : Src) : Statement (.lscan h op excl d a) := rfl
theorem fadd (h : Head) (neg sat : Bool) (rnd : Rnd) (d : Dst) (a b : Src) : Statement (.fadd h neg sat rnd d a b) := rfl
theorem fmul (h : Head) (neg sat : Bool) (rnd : Rnd) (d : Dst) (a b : Src) : Statement (.fmul h neg sat rnd d a b) := rfl
theorem ffma (h : Head) (neg sat : Bool) (rnd : Rnd) (d : Dst) (a b c : Src) : Statement (.ffma h neg sat rnd d a b c) := rfl
theorem fmin (h : Head) (d : Dst) (a b : Src) : Statement (.fmin h d a b) := rfl
theorem fmax (h : Head) (d : Dst) (a b : Src) : Statement (.fmax h d a b) := rfl
theorem fcmp (h : Head) (d : Dst) (a b : Src) : Statement (.fcmp h d a b) := rfl
theorem fclass (h : Head) (d : Dst) (a : Src) : Statement (.fclass h d a) := rfl
theorem frnd (h : Head) (sat : Bool) (rnd : Rnd) (d : Dst) (a : Src) : Statement (.frnd h sat rnd d a) := rfl
theorem fscale (h : Head) (sat : Bool) (rnd : Rnd) (d : Dst) (a b : Src) : Statement (.fscale h sat rnd d a b) := rfl
theorem ffn (h : Head) (f : FfnOp) (d : Dst) (a : Src) : Statement (.ffn h f d a) := rfl
theorem fdiv (h : Head) (sat : Bool) (rnd : Rnd) (d : Dst) (a b : Src) : Statement (.fdiv h sat rnd d a b) := rfl
theorem fsqrt (h : Head) (sat : Bool) (rnd : Rnd) (d : Dst) (a : Src) : Statement (.fsqrt h sat rnd d a) := rfl
theorem cvt (h : Head) (sat : Bool) (rnd : Rnd) (dst src : CvtTy) (d : Dst) (a : Src) : Statement (.cvt h sat rnd dst src d a) := rfl
theorem pfma (h : Head) (bf neg sat : Bool) (rnd : Rnd) (d : Dst) (a b c : Src) : Statement (.pfma h bf neg sat rnd d a b c) := rfl
theorem dot4 (h : Head) (ta tb : DotTy) (d : Dst) (a b c : Src) : Statement (.dot4 h ta tb d a b c) := rfl
theorem fdot2 (h : Head) (bf neg sat : Bool) (rnd : Rnd) (d : Dst) (a b c : Src) : Statement (.fdot2 h bf neg sat rnd d a b c) := rfl
theorem mma (h : Head) (d : Dst) (a b : Src) : Statement (.mma h d a b) := rfl
theorem tldb (h : Head) (d : Dst) (a : Src) : Statement (.tldb h d a) := rfl
theorem azro (h : Head) (d : Dst) : Statement (.azro h d) := rfl
theorem ald (h : Head) (d : Dst) (a : Src) : Statement (.ald h d a) := rfl
theorem ast (h : Head) (a b : Src) : Statement (.ast h a b) := rfl
theorem ard (h : Head) (d : Dst) (a b : Src) : Statement (.ard h d a b) := rfl
theorem mfence (h : Head) : Statement (.mfence h) := rfl
theorem ld (h : Head) (ls : Bool) (w : Width) (d : Dst) (a : Src) (mc : Mc) : Statement (.ld h ls w d a mc) := rfl
theorem st (h : Head) (ls : Bool) (w : Width) (a b : Src) (mc : Mc) : Statement (.st h ls w a b mc) := rfl
theorem ldc (h : Head) (w : Width) (d : Dst) (a : Src) (mc : Mc) : Statement (.ldc h w d a mc) := rfl
theorem ldv (h : Head) (d : Dst) (a b : Src) (k : BitVec 4) : Statement (.ldv h d a b k) := rfl
theorem ldwf (h : Head) (d : Dst) (a : Src) (mc : Mc) : Statement (.ldwf h d a mc) := rfl
theorem ldtk (h : Head) (d : Dst) (a : Src) (mc : Mc) : Statement (.ldtk h d a mc) := rfl
theorem stwe (h : Head) (a b : Src) (mc : Mc) : Statement (.stwe h a b mc) := rfl
theorem feset (h : Head) (z full : Bool) (a b : Src) : Statement (.feset h z full a b) := rfl
theorem fence (h : Head) (ord : Ord) (scope : Scope) : Statement (.fence h ord scope) := rfl
theorem pfence (h : Head) (scope : Scope) : Statement (.pfence h scope) := rfl
theorem atom (h : Head) (ls : Bool) (op : Aop) (w64 : Bool) (d : Dst) (a b : Src) (mc : Mc) : Statement (.atom h ls op w64 d a b mc) := rfl
theorem acas (h : Head) (ls w64 : Bool) (d : Dst) (a b : Src) (mc : Mc) : Statement (.acas h ls w64 d a b mc) := rfl
theorem red (h : Head) (ls : Bool) (op : Aop) (w64 : Bool) (a b : Src) (mc : Mc) : Statement (.red h ls op w64 a b mc) := rfl
theorem xadd (h : Head) (ty : XTy) (a b : Src) (mc : Mc) : Statement (.xadd h ty a b mc) := rfl
theorem xrd (h : Head) (clr : Bool) (d : Dst) (a : Src) (mc : Mc) : Statement (.xrd h clr d a mc) := rfl
theorem cpy (h : Head) (dir : CpyDir) (d : Dst) (a b c : Src) : Statement (.cpy h dir d a b c) := rfl
theorem tld (h : Head) (mcast : Bool) (d : Dst) (a b c : Src) : Statement (.tld h mcast d a b c) := rfl
theorem tst (h : Head) (d : Dst) (a b c : Src) : Statement (.tst h d a b c) := rfl
theorem gath (h : Head) (d : Dst) (a b c : Src) : Statement (.gath h d a b c) := rfl
theorem scat (h : Head) (d : Dst) (a b c : Src) : Statement (.scat h d a b c) := rfl
theorem coll (h : Head) (kind : CollKind) (rop : CollOp) (d : Dst) (a b c : Src) : Statement (.coll h kind rop d a b c) := rfl
theorem waitc (h : Head) (k : CtrCls) (a : Src) : Statement (.waitc h k a) := rfl
theorem cntr (h : Head) (k : CtrCls) (d : Dst) : Statement (.cntr h k d) := rfl
theorem bra (h : Head) (off : BitVec 24) : Statement (.bra h off) := rfl
theorem brd (h : Head) (d : Dst) (meet : BitVec 12) (off : BitVec 24) : Statement (.brd h d meet off) := rfl
theorem brx (h : Head) (a : Src) : Statement (.brx h a) := rfl
theorem call (h : Head) (d : Dst) (off : BitVec 24) : Statement (.call h d off) := rfl
theorem ret (h : Head) (a : Src) : Statement (.ret h a) := rfl
theorem meet (h : Head) (a : Src) : Statement (.meet h a) := rfl
theorem exit (h : Head) : Statement (.exit h) := rfl
theorem bar (h : Head) (n : BitVec 3) : Statement (.bar h n) := rfl
theorem sstep (h : Head) : Statement (.sstep h) := rfl
theorem sleep (h : Head) (a : Src) : Statement (.sleep h a) := rfl
theorem forkw (h : Head) (d : Dst) (a b : Src) : Statement (.forkw h d a b) := rfl
theorem choose (h : Head) (d : Dst) (a b : Src) : Statement (.choose h d a b) := rfl
theorem wdrop (h : Head) (a : Src) : Statement (.wdrop h a) := rfl
theorem pclr (h : Head) (d : Dst) (a b : Src) : Statement (.pclr h d a b) := rfl
theorem ptst (h : Head) (d : Dst) (a : Src) : Statement (.ptst h d a) := rfl
theorem pset (h : Head) (d : Dst) (a : Src) : Statement (.pset h d a) := rfl
theorem launch (h : Head) (d : Dst) (a : Src) : Statement (.launch h d a) := rfl
theorem trap (h : Head) (code : BitVec 12) : Statement (.trap h code) := rfl
theorem svc (h : Head) (n : BitVec 12) (a b : Src) : Statement (.svc h n a b) := rfl
theorem rtt (h : Head) : Statement (.rtt h) := rfl
theorem csrr (h : Head) (d : Dst) (csr : BitVec 12) : Statement (.csrr h d csr) := rfl
theorem csrw (h : Head) (csr : BitVec 12) (a : Src) : Statement (.csrw h csr a) := rfl
theorem cresz (h : Head) (d : Dst) (a : Src) : Statement (.cresz h d a) := rfl
theorem cflush (h : Head) (inv : Bool) (a b : Src) : Statement (.cflush h inv a b) := rfl
theorem tlbi (h : Head) (k : TlbiKind) (a b : Src) : Statement (.tlbi h k a b) := rfl
theorem kickRegisterWrite (func queue : Nat) (v : BitVec 64) : Statement (.kickRegisterWrite func queue v) := rfl
theorem nodePacket (queue : Nat) : Statement (.nodePacket queue) := rfl
theorem qfencePacket (queue : Nat) : Statement (.qfencePacket queue) := rfl
theorem qfenceComplete (queue : Nat) : Statement (.qfenceComplete queue) := rfl
theorem teamReservation (ctx : Nat) : Statement (.teamReservation ctx) := rfl
theorem headBackfillLimit (ctx : Nat) : Statement (.headBackfillLimit ctx) := rfl
theorem teamStart (team : Nat) : Statement (.teamStart team) := rfl
theorem swapHeldGroup (gid : Nat) : Statement (.swapHeldGroup gid) := rfl
theorem swapResidenceExpiry (gid : Nat) : Statement (.swapResidenceExpiry gid) := rfl
theorem swapOutranked (rod : Nat) : Statement (.swapOutranked rod) := rfl
theorem groupRetire (gid : Nat) : Statement (.groupRetire gid) := rfl
theorem nodeCommitting (node : Nat) : Statement (.nodeCommitting node) := rfl
theorem nodeDone (node : Nat) : Statement (.nodeDone node) := rfl
theorem fewaitTimeout (gid : Nat) : Statement (.fewaitTimeout gid) := rfl
theorem engineDelivery (id n : Nat) : Statement (.engineDelivery id n) := rfl
theorem engineComplete (id : Nat) : Statement (.engineComplete id) := rfl
theorem multicastRequest (id slice : Nat) : Statement (.multicastRequest id slice) := rfl
theorem mergeWindowExpiry (entry : Nat) : Statement (.mergeWindowExpiry entry) := rfl
theorem matrixOpStart (frame : Nat) : Statement (.matrixOpStart frame) := rfl
theorem matrixOpComplete (id : Nat) : Statement (.matrixOpComplete id) := rfl
theorem barrierRelease (team bar : Nat) : Statement (.barrierRelease team bar) := rfl
theorem sstepArrive (gid : Nat) : Statement (.sstepArrive gid) := rfl
theorem superstepRelease (node : Nat) : Statement (.superstepRelease node) := rfl
theorem sleepExpiry (gid : Nat) : Statement (.sleepExpiry gid) := rfl
theorem waitcSatisfied (gid : Nat) : Statement (.waitcSatisfied gid) := rfl
theorem loadReturn (id : Nat) : Statement (.loadReturn id) := rfl
theorem atomicReturn (id : Nat) : Statement (.atomicReturn id) := rfl
theorem redAck (id : Nat) : Statement (.redAck id) := rfl
theorem creszComplete (id : Nat) : Statement (.creszComplete id) := rfl
theorem cflushComplete (id : Nat) : Statement (.cflushComplete id) := rfl
theorem launchRetire (id : Nat) : Statement (.launchRetire id) := rfl
theorem forkwRetire (id : Nat) : Statement (.forkwRetire id) := rfl
theorem chooseRetire (id : Nat) : Statement (.chooseRetire id) := rfl
theorem wdropRetire (id : Nat) : Statement (.wdropRetire id) := rfl
theorem rivalComplete (node : Nat) : Statement (.rivalComplete node) := rfl
theorem storeBufferSend (id : Nat) : Statement (.storeBufferSend id) := rfl
theorem readShared (a : Sender) (guarded : Bool) (sec : Nat) : Statement (.readShared a guarded sec) := rfl
theorem readForOwnership (a : Sender) (sec : Nat) : Statement (.readForOwnership a sec) := rfl
theorem upgrade (a : Sender) (sec : Nat) : Statement (.upgrade a sec) := rfl
theorem writeBack (a : Sender) (sec : Nat) (d : SectorData) : Statement (.writeBack a sec d) := rfl
theorem cleanEviction (a : Sender) (sec : Nat) : Statement (.cleanEviction a sec) := rfl
theorem uncacheableRead (a : Sender) (pa len : Nat) : Statement (.uncacheableRead a pa len) := rfl
theorem uncacheableWrite (a : Sender) (pa : Nat) (bytes : List Byte) (poison : Option Word) : Statement (.uncacheableWrite a pa bytes poison) := rfl
theorem homeSideAtomic (id : HomeAtomic) : Statement (.homeSideAtomic id) := rfl
theorem invalidate (a : Agent) (sec : Nat) (ans : SnoopAnswer) : Statement (.invalidate a sec ans) := rfl
theorem downgrade (a : Agent) (sec : Nat) (ans : SnoopAnswer) : Statement (.downgrade a sec ans) := rfl
theorem backInvalidate (sec : Nat) (ans : SnoopAnswer) : Statement (.backInvalidate sec ans) := rfl
theorem transientRequest (frame sec : Nat) (write : Bool) : Statement (.transientRequest frame sec write) := rfl
theorem transientRetry (frame sec : Nat) : Statement (.transientRetry frame sec) := rfl
theorem persistentRequest (frame sec : Nat) : Statement (.persistentRequest frame sec) := rfl
theorem beadEviction (frame sec : Nat) : Statement (.beadEviction frame sec) := rfl
theorem swmEviction (place sec : Nat) : Statement (.swmEviction place sec) := rfl
theorem requestLost (id : Nat) : Statement (.requestLost id) := rfl
theorem linkReplayExhausted (l : Link) : Statement (.linkReplayExhausted l) := rfl
theorem heartbeatSend : Statement (.heartbeatSend) := rfl
theorem heartbeatLoss (pkg : Nat) : Statement (.heartbeatLoss pkg) := rfl
theorem cellDownMessage (cell : Nat) : Statement (.cellDownMessage cell) := rfl
theorem peerSweepComplete (cell home : Nat) : Statement (.peerSweepComplete cell home) := rfl
theorem cellfail (pkg : Nat) (planes : Bool) : Statement (.cellfail pkg planes) := rfl
theorem celldnWrite (k : Nat) (v : Word) : Statement (.celldnWrite k v) := rfl
theorem cellraWrite (k : Nat) (v : Word) : Statement (.cellraWrite k v) := rfl
theorem hostMemWrite (tc pa : Nat) (bytes : List Byte) : Statement (.hostMemWrite tc pa bytes) := rfl
theorem hostMemRead (pa len : Nat) : Statement (.hostMemRead pa len) := rfl
theorem hostSnoop (sec : Nat) (inv : Bool) : Statement (.hostSnoop sec inv) := rfl
theorem warmRestart (link : Nat) : Statement (.warmRestart link) := rfl
theorem hgcmdClear (pages : Word) : Statement (.hgcmdClear pages) := rfl
theorem hostgoneClearComplete : Statement (.hostgoneClearComplete) := rfl
theorem fqcmdReplay (part : Nat) (seq : Word) : Statement (.fqcmdReplay part seq) := rfl
theorem fqcmdCancel (part : Nat) (seq : Word) : Statement (.fqcmdCancel part seq) := rfl
theorem fqcmdDeferredApply (part : Nat) (seq : Word) : Statement (.fqcmdDeferredApply part seq) := rfl
theorem replayReissue (part : Nat) (seq : Word) : Statement (.replayReissue part seq) := rfl
theorem faultBufferDrain (part : Nat) : Statement (.faultBufferDrain part) := rfl
theorem mark (size : BitVec 2) : Statement (.mark size) := rfl
theorem markComplete : Statement (.markComplete) := rfl
theorem release (size : BitVec 2) : Statement (.release size) := rfl
theorem swopen (size : BitVec 2) : Statement (.swopen size) := rfl
theorem swclose (size : BitVec 2) : Statement (.swclose size) := rfl
theorem vwcmdResume (part view : Nat) : Statement (.vwcmdResume part view) := rfl
theorem vwcmdFail (part view : Nat) : Statement (.vwcmdFail part view) := rfl
theorem haltLineArrival (ctx : Nat) (u : StopUnit) : Statement (.haltLineArrival ctx u) := rfl
theorem haltComplete (ctx : Nat) : Statement (.haltComplete ctx) := rfl
theorem drain (ctx : Nat) : Statement (.drain ctx) := rfl
theorem drainComplete (ctx : Nat) : Statement (.drainComplete ctx) := rfl
theorem drainDeadlineExpiry (ctx : Nat) : Statement (.drainDeadlineExpiry ctx) := rfl
theorem cut (ctx : Nat) : Statement (.cut ctx) := rfl
theorem cutSave (ctx : Nat) : Statement (.cutSave ctx) := rfl
theorem cutDeadlineExpiry (ctx : Nat) : Statement (.cutDeadlineExpiry ctx) := rfl
theorem restore (ctx : Nat) (parts : BitVec 16) : Statement (.restore ctx parts) := rfl
theorem reset (ctx : Nat) : Statement (.reset ctx) := rfl
theorem svcBatchArrival (id : Nat) : Statement (.svcBatchArrival id) := rfl
theorem svcReply (id : Nat) (status : Word) (data : List Byte) : Statement (.svcReply id status data) := rfl
theorem strike (u : StrikeUnit) (frame n : Nat) (restarts : StrikeEnd) : Statement (.strike u frame n restarts) := rfl
theorem katInject (rod : Nat) (op : Nat) (bad : Option Nat) : Statement (.katInject rod op bad) := rfl
theorem matrixKatPass (frame quadrant : Nat) : Statement (.matrixKatPass frame quadrant) := rfl
theorem ckptSave (desc : Nat) : Statement (.ckptSave desc) := rfl
theorem ckptLoad (desc : Nat) : Statement (.ckptLoad desc) := rfl
theorem ckptShardDone : Statement (.ckptShardDone) := rfl
theorem twinWriteMirror (pa : Nat) (bytes : List Byte) : Statement (.twinWriteMirror pa bytes) := rfl
theorem twinKickMirror (queue : Nat) (v : BitVec 64) : Statement (.twinKickMirror queue v) := rfl
theorem twinDigestArrival (key : TwinKey) (digest : BitVec 64) : Statement (.twinDigestArrival key digest) := rfl
theorem twinDigestTimeout (key : TwinKey) : Statement (.twinDigestTimeout key) := rfl
theorem twinLinkDown : Statement (.twinLinkDown) := rfl
theorem railOutOfTolerance : Statement (.railOutOfTolerance) := rfl
theorem railsGood (im : BootImages) : Statement (.railsGood im) := rfl
theorem bringupComplete : Statement (.bringupComplete) := rfl
theorem configurationRequest : Statement (.configurationRequest) := rfl
theorem mctpFirmwareUpdate (msg : List Byte) : Statement (.mctpFirmwareUpdate msg) := rfl
theorem getVersion : Statement (.getVersion) := rfl
theorem getCapabilities : Statement (.getCapabilities) := rfl
theorem negotiateAlgorithms (offer : List Byte) : Statement (.negotiateAlgorithms offer) := rfl
theorem getDigests : Statement (.getDigests) := rfl
theorem getCertificate (slot ofs len : Nat) : Statement (.getCertificate slot ofs len) := rfl
theorem challenge (nonce : BitVec 256) : Statement (.challenge nonce) := rfl
theorem getMeasurements (index : Nat) (nonce : BitVec 256) : Statement (.getMeasurements index nonce) := rfl
theorem partcfgWrite (n : Nat) (v : BitVec 64) : Statement (.partcfgWrite n v) := rfl
theorem scrubComplete (n : Nat) : Statement (.scrubComplete n) := rfl
theorem functionLevelReset (func : Nat) : Statement (.functionLevelReset func) := rfl
theorem eqlostWrite (v : Word) : Statement (.eqlostWrite v) := rfl
theorem eventBufferDrain : Statement (.eventBufferDrain) := rfl
theorem systemCsrWrite (off size : Nat) (v : BitVec 64) : Statement (.systemCsrWrite off size v) := rfl
theorem linkUp (l : Link) : Statement (.linkUp l) := rfl
theorem linkLevelReplay (l : Link) : Statement (.linkLevelReplay l) := rfl
theorem grant (id : Answered) : Statement (.grant id) := rfl
theorem heartbeat (pkg plane : Nat) : Statement (.heartbeat pkg plane) := rfl
theorem rollbackMirror (key : TwinKey) : Statement (.rollbackMirror key) := rfl
theorem tlbiComplete (gid : Nat) : Statement (.tlbiComplete gid) := rfl
theorem fesetComplete (id : Nat) : Statement (.fesetComplete id) := rfl

end Sys2Proof.Laws.Encodes
end

