-- ==== Sys2Proof/Tests/Slice0.lean ====
section
/-!
SUPPORT. Slice0.lean: the model's own tests: words written out from the encodings of the spec, ill-formed terms, results that the spec works
out, and, for each statement, a state and operands that meet its hypotheses.
-/
namespace Sys2Proof.Tests
open Sys2Proof Machine

-- one thread: each thread of Lean reserves a stack of its own
set_option Elab.async false

/-- No hints. -/
def hint0 : Hint := ⟨0, false, 0, 0, false, 0, false, 0⟩
/-- No guard and no hints. -/
def head0 : Head := ⟨.al, hint0⟩
/-- A vector source. -/
def sv (n : BitVec 8) : Src := ⟨false, .v, n⟩
/-- A uniform source. -/
def ss (n : BitVec 8) : Src := ⟨false, .s, n⟩
/-- A latch source. -/
def sq (n : BitVec 8) : Src := ⟨false, .q, n⟩
/-- An immediate source of class 7. -/
def si (n : BitVec 8) : Src := ⟨false, .imm, n⟩
/-- A vector destination. -/
def dv (n : BitVec 8) : Dst := ⟨false, .v, n⟩
/-- A uniform destination. -/
def ds (n : BitVec 8) : Dst := ⟨false, .s, n⟩
/-- A condition-register destination. -/
def dc (n : BitVec 8) : Dst := ⟨false, .cf, n⟩
/-- A tile or accumulator destination. -/
def dt (n : BitVec 8) : Dst := ⟨false, .ta, n⟩

/-- An operation of group 0 under way, from the clock of reset. -/
def op0 (i : Instr) : Op := ⟨i, 0, 0, 0, 0, 0, 0, 0, 0, 0, 0, 1, [], [], 0, .sent, [], 0, 0, [], [], none, 0, (0, 0), false, [], [], 0⟩

-- decoding

/-- Each word decodes to a well-formed instruction, the one that stands at its place. -/
abbrev Reads (l : List Nat) (m : List Instr) : Prop := l.map (decodeTableWord 96) = m.map some ∧ m.all Instr.wf = true

/-- What holds of every entry holds of an entry that is found. -/
theorem found_all {α : Type} (p : Nat → α → Bool) (m : AMap α) (h : (m.all fun kv => p kv.1 kv.2) = true) {k : Nat} {a : α} (hf : m.find k = some a) : p k a = true := by
  induction m with
  | nil => cases hf
  | cons x m ih =>
    simp only [List.all_cons, Bool.and_eq_true] at h
    simp only [AMap.find] at hf
    split at hf
    · cases hf; exact ‹x.1 = k› ▸ h.1
    · first | exact ih h.2 hf | (split at hf <;> first | exact ih h.2 hf | cases hf)
/-- Room in the caches, nothing marked, and no write seen early, each as one question. -/
def room (s : State) (o : Op) : Bool := (s.l1.all fun kv => kv.2.length + o.accs.length ≤ wayL1) && s.rdc.all fun kv => kv.2.length + o.accs.length ≤ wayL2
theorem roomy_of {s : State} {o : Op} (h : room s o = true) : Roomy s o := by
  simp only [room, Bool.and_eq_true] at h
  exact ⟨fun k m e => by simpa using found_all (fun _ m => decide (m.length + o.accs.length ≤ wayL1)) _ h.1 e,
    fun k m e => by simpa using found_all (fun _ m => decide (m.length + o.accs.length ≤ wayL2)) _ h.2 e⟩
theorem meetsRoomy {s : State} (o : Option Op) (P : Op → Prop) [DecidablePred P] (h : (o.any fun a => decide (P a) && room s a) = true) :
    ∃ a, o = some a ∧ P a ∧ Roomy s a := by
  cases o with
  | none => cases h
  | some a =>
    simp only [Option.any_some, Bool.and_eq_true] at h
    exact ⟨a, rfl, of_decide_eq_true h.1, roomy_of h.2⟩
theorem roomy_nil {s : State} {o : Op} (h : s.l1 = [] ∧ s.rdc = []) : Roomy s o := roomy_of (by simp [room, h.1, h.2])
theorem noEarly_of {s : State} {f : Nat} (h : (s.ops.all fun kv => !kv.2.early) = true) : NoEarly s f :=
  fun k p e _ => by simpa using found_all (fun _ o => !o.early) _ h e
theorem noMark_of {s : State} {o : Op} (h : s.marks = []) : NothingMarked s o := fun _ k l e => by rw [h] at e; cases e

/-- The words that the spec encodes: Tables 14.11, 15.5, 15.8, 16.10, 17.4, 17.11, 18.4, 19.4, 19.8, 20.1 and 20.6. -/
theorem test_decode_worked_words :
    Reads
    [0x210098019008402604205C6C,
     0x01007E00E001000000000000,
     0x600015000001FFFFF6000000,
     0x608098028012000008000000,
     0x260000010008000E80000000,
     0x04D80000A0120007D0000000,
     0x402000014004000584001000,
     0x300000C40210C00000000000,
     0x40A001000004012982000000,
     0x508200E00220240244000000,
     0x2100000004000380000107C0,
     0x0E013080602202000001D800,
     0x700000228E0622000000C000]
      [.ffma ⟨.lane 1 .lt, ⟨1, false, 1, 3, true, 1, true, 3⟩⟩ false false .dyn (dv 12) ⟨true, .v, 4⟩ (sq 1) ⟨false, .o, 2⟩,
       .movl hint0 (dv 7) 0x3F800000,
       .bra ⟨.uni 0 .ne, hint0⟩ 0xFFFFFB,
       .brd ⟨.lane 1 .lt, hint0⟩ (dv 20) 9 4,
       .cvt head0 false .dyn .e4m3 .f32 (dv 8) (sv 4),
       .isub head0 .n32 true (dv 5) (sv 9) (.imm 1000),
       .ld ⟨.al, ⟨0, false, 0, 2, false, 0, false, 0⟩⟩ false .w32 (dv 10) (sv 2) ⟨.acq, .dev, 2⟩,
       .mma head0 (dt 32) (ss 8) ⟨false, .ta, 0⟩,
       .st head0 false .w32 (sv 2) (sv 9) ⟨.rel, .dev, 1⟩,
       .tld head0 true ⟨false, .imm, 0⟩ (ss 16) (ss 32) (ss 34),
       .ffma ⟨.al, ⟨0, false, 4, 0, true, 15, false, 0⟩⟩ false false .dyn (dv 0) (sq 0) (sv 28) (sv 0),
       .cmp ⟨.lane 2 .gt, ⟨0, false, 7, 3, false, 0, false, 0⟩⟩ .s32 (dc 3) (sv 17) (.reg (sv 16)),
       .forkw ⟨.al, ⟨0, false, 3, 0, false, 0, false, 0⟩⟩ (ds 20) (si 3) (ss 16)] := by decide +kernel

/-- Move family (Table 14.10): words written out from Tables 14.3 to 14.10. -/
theorem test_decode_move :
    Reads
    [0x000001000000000000000000,
     0x008000006404000000000000,
     0x00C000212001FFFFFC000000,
     0x01800020A022000000000000]
      [.nop head0,
       .mov head0 (dv 3) (.reg (sq 2)),
       .mov head0 (ds 9) (.imm 0xFFFFFE#24),
       .unify head0 (ds 5) (sv 17)] := by decide +kernel

/-- Integer instructions: words written out from Tables 14.3 to 14.10. -/
theorem test_decode_integer :
    Reads
    [0x041800002004006000000000,
     0x04C000002004002004000000,
     0x050400008004006000000000,
     0x059200008002004006000000,
     0x06300000800C010000000000,
     0x06800000800CFFE000000000,
     0x07280000800C000000000000,
     0x07B400004A00208000000000,
     0x083A0000200400600A000000,
     0x08E000004008000042000000,
     0x09020000400800A000000000,
     0x09820000400800A00E000000]
      [.iadd head0 .n32 true (dv 1) (sv 2) (.reg (sv 3)),
       .isub head0 .s32 false (dv 1) (sv 2) (.imm 0x001002#24),
       .imul head0 .s32 false .wide (dv 4) (sv 2) (.reg (sv 3)),
       .imad head0 .n32 false .hi (dv 4) (sv 1) (sv 2) (sv 3),
       .imin head0 .n64 (dv 4) (sv 6) (.reg (sv 8)),
       .imax head0 .s32 (dv 4) (sv 6) (.reg (si 0xFF)),
       .iabs head0 .s64 true (dv 4) (sv 6),
       .lea head0 .n64 2 (dv 2) ⟨false, .z, 0⟩ (.reg (ss 4)),
       .lop3 head0 .andn .xnor (dv 1) (sv 2) (sv 3) (sv 5),
       .shl head0 true (dv 2) (sv 4) (.imm 33#24),
       .shr head0 false true (dv 2) (sv 4) (.reg (sv 5)),
       .shf head0 true (dv 2) (sv 4) (sv 5) (sv 7)] := by decide +kernel

/-- Bit instructions, compare and select: words written out from Tables 14.3 to 14.10. -/
theorem test_decode_bit :
    Reads
    [0x0A2000006008000000000000,
     0x0A800000600A000000000000,
     0x0B2000004008000000000000,
     0x0B820000400800A000000000,
     0x0C000000400800A00E000000,
     0x0C820000400800A00E000000,
     0x0D000000400800A000000000,
     0x0D800000400800A00E000000,
     0x0E5000802008000014000000,
     0x0E900000400800A806000000]
      [.popc head0 true (dv 3) (sv 4),
       .clz head0 false (dv 3) (sv 5),
       .brev head0 true (dv 2) (sv 4),
       .bfx head0 true (dv 2) (sv 4) (sv 5),
       .bfi head0 (dv 2) (sv 4) (sv 5) (sv 7),
       .bil head0 true (dv 2) (sv 4) (sv 5) (sv 7),
       .bdil head0 false (dv 2) (sv 4) (sv 5),
       .prmt head0 (dv 2) (sv 4) (sv 5) (sv 7),
       .cmp head0 .n32 (dc 1) (sv 4) (.imm 10#24),
       .sel head0 .hs (dv 2) (sv 4) (sv 5) ⟨false, .cf, 3⟩] := by decide +kernel

/-- Lane family: words written out from Tables 14.3 to 14.10. -/
theorem test_decode_lane :
    Reads
    [0x10040000400800A00E000000,
     0x108600004008000000000000,
     0x112400004008000000000000,
     0x119E00004008000000000000]
      [.shfl head0 .down (dv 2) (sv 4) (sv 5) (sv 7),
       .vote head0 .ballot (dv 2) (sv 4),
       .lred head0 .fmin (dv 2) (sv 4),
       .lscan head0 .xor true (dv 2) (sv 4)] := by decide +kernel

/-- Floating-point family: words written out from Tables 14.3 to 14.10. -/
theorem test_decode_float :
    Reads
    [0x20320000400800A000000000,
     0x20840000400800A000000000,
     0x21800000400800A000000000,
     0x22000000400800A000000000,
     0x22800080400800A000000000,
     0x230000004008000000000000,
     0x239600004008000000000000,
     0x24080000400800A000000000,
     0x248A00004008000000000000,
     0x25100000400800A000000000,
     0x258200004008000000000000,
     0x261000004008000EC2000000,
     0x26E00000400800A00E000000,
     0x27580000400800A00E000000,
     0x27940000400800A00E000000]
      [.fadd head0 true true .rn (dv 2) (sv 4) (sv 5),
       .fmul head0 false false .rz (dv 2) (sv 4) (sv 5),
       .fmin head0 (dv 2) (sv 4) (sv 5),
       .fmax head0 (dv 2) (sv 4) (sv 5),
       .fcmp head0 (dc 2) (sv 4) (sv 5),
       .fclass head0 (dv 2) (sv 4),
       .frnd head0 true .ru (dv 2) (sv 4),
       .fscale head0 false .rd (dv 2) (sv 4) (sv 5),
       .ffn head0 .cos (dv 2) (sv 4),
       .fdiv head0 true .dyn (dv 2) (sv 4) (sv 5),
       .fsqrt head0 false .rn (dv 2) (sv 4),
       .cvt head0 true .dyn .s8 .f16 (dv 2) (sv 4),
       .pfma head0 true true false .dyn (dv 2) (sv 4) (sv 5) (sv 7),
       .dot4 head0 .s8 .n8 (dv 2) (sv 4) (sv 5) (sv 7),
       .fdot2 head0 false false true .rz (dv 2) (sv 4) (sv 5) (sv 7)] := by decide +kernel

/-- Matrix family: words written out from Tables 14.3 to 14.10. -/
theorem test_decode_matrix :
    Reads
    [0x308000C06208000000000000,
     0x310000C7E000000000000000,
     0x318000C42E00000000000000,
     0x320001000208C44000000000,
     0x328000010C44E12000000000,
     0x330001000000000000000000]
      [.tldb head0 (dt 3) (ss 4),
       .azro head0 (dt 63),
       .ald head0 (dt 33) (si 0),
       .ast head0 (ss 4) ⟨false, .ta, 34⟩,
       .ard head0 (dv 8) ⟨false, .ta, 34⟩ (si 9),
       .mfence head0] := by decide +kernel

/-- Memory family: words written out from Tables 14.3 to 14.10. -/
theorem test_decode_memory :
    Reads
    [0x41280000420800007E000000,
     0x41A00000420820E016000000,
     0x426000004006000002000000,
     0x42E000004006000004000000,
     0x436001000006008006000000,
     0x43CC01000206208000000000,
     0x443A01000000000000000000,
     0x448801000000000000000000,
     0x45140000400800E584000000,
     0x45C200004006010000000000,
     0x460201000008010900000000,
     0x46840100000800E000000000,
     0x470200004008000000000000]
      [.ldc head0 .w64 (dv 2) (ss 4) ⟨.none, .grp, 63⟩,
       .ldv head0 (dv 2) (ss 4) (ss 7) 11,
       .ldwf head0 (dv 2) (sv 3) ⟨.none, .grp, 1⟩,
       .ldtk head0 (dv 2) (sv 3) ⟨.none, .grp, 2⟩,
       .stwe head0 (sv 3) (sv 4) ⟨.none, .grp, 3⟩,
       .feset head0 true false (ss 3) (ss 4),
       .fence head0 .ar .sys,
       .pfence head0 .cell,
       .atom head0 false .max false (dv 2) (sv 4) (sv 7) ⟨.acq, .dev, 2⟩,
       .acas head0 true true (dv 2) (sv 3) (sv 8) ⟨.none, .grp, 0⟩,
       .red head0 false .add true (sv 4) (sv 8) ⟨.rel, .die, 0⟩,
       .xadd head0 .bf16 (sv 4) (sv 7) ⟨.none, .grp, 0⟩,
       .xrd head0 true (dv 2) (sv 4) ⟨.none, .grp, 0⟩] := by decide +kernel

/-- Engine family: words written out from Tables 14.3 to 14.10. -/
theorem test_decode_engine :
    Reads
    [0x50040020420820CFFE000000,
     0x51000020422020CFFE000000,
     0x51800020420820C212000000,
     0x52000020420820CFFE000000,
     0x52A80020421020C212000000,
     0x530601000E04000000000000,
     0x538800206000000000000000]
      [.cpy head0 .gg (ds 2) (ss 4) (ss 6) (si 0xFF),
       .tst head0 (ds 2) (ss 16) (ss 6) (si 0xFF),
       .gath head0 (ds 2) (ss 4) (ss 6) (ss 9),
       .scat head0 (ds 2) (ss 4) (ss 6) (si 0xFF),
       .coll head0 .allreduce .bfadd (ds 2) (ss 8) (ss 6) (ss 9),
       .waitc head0 .col (si 2),
       .cntr head0 .svc (ds 3)] := by decide +kernel

/-- Control family: words written out from Tables 14.3 to 14.10. -/
theorem test_decode_control :
    Reads
    [0x610001000208000000000000,
     0x61800000C000000020000000,
     0x62000100000C000000000000,
     0x628001000028000000000000,
     0x630001000000000000000000,
     0x638A01000000000000000000,
     0x640001000000000000000000,
     0x648001000E80000000000000]
      [.brx head0 (ss 4),
       .call head0 (dv 6) 16#24,
       .ret head0 (sv 6),
       .meet head0 (sv 20),
       .exit head0,
       .bar head0 5,
       .sstep head0,
       .sleep head0 (si 64)] := by decide +kernel

/-- Worlds, poison and tasks: words written out from Tables 14.3 to 14.10. -/
theorem test_decode_world :
    Reads
    [0x708000204208E02000000000,
     0x710001000208000000000000,
     0x71800000400800A000000000,
     0x720000804008000000000000,
     0x728000004008000000000000,
     0x730000204208000000000000]
      [.choose head0 (ds 2) (ss 4) (si 1),
       .wdrop head0 (ss 4),
       .pclr head0 (dv 2) (sv 4) (sv 5),
       .ptst head0 (dc 2) (sv 4),
       .pset head0 (dv 2) (sv 4),
       .launch head0 (ds 2) (ss 4)] := by decide +kernel

/-- System family: words written out from Tables 14.3 to 14.10. -/
theorem test_decode_system :
    Reads
    [0x800001000000001578000000,
     0x80800100000820A006000000,
     0x810001000000000000000000,
     0x818000204000000006000000,
     0x820001000208000002000000,
     0x828000204E10000000000000,
     0x83020100020820E000000000,
     0x83820100000020E000000000]
      [.trap head0 0xABC,
       .svc head0 3 (sv 4) (ss 5),
       .rtt head0,
       .csrr head0 (ds 2) 3,
       .csrw head0 1 (ss 4),
       .cresz head0 (ds 2) (si 8),
       .cflush head0 true (ss 4) (ss 7),
       .tlbi head0 .ctx ⟨false, .v, 0⟩ (ss 7)] := by decide +kernel


/-- R433: the all-zero word is a `NOP`. -/
theorem test_zero_word_is_nop : decodeTableWord 96 0 = some (.nop head0) := by decide +kernel

-- ill-formed instructions

/-- R338, R339: a step of the machine's own is no instruction word. -/
theorem test_ill_not_a_word : (Instr.heartbeatSend).wf = false := by decide +kernel

/-- R327, R328, R335, R339: guards and hints that are not legal. -/
theorem test_ill_guards_and_hints : ([.nop ⟨.lane 1 .al, hint0⟩, .nop ⟨.uni 0 .al, hint0⟩, .bra ⟨.lane 1 .lt, hint0⟩ 4, .fence ⟨.lane 1 .lt, hint0⟩ .acq .dev,
    .rtt ⟨.lane 0 .eq, hint0⟩, .nop ⟨.al, { hint0 with sbs := 7 }⟩, .nop ⟨.al, { hint0 with lhm := 1 }⟩, .nop ⟨.al, { hint0 with ocap := true }⟩,
    .mov ⟨.al, { hint0 with ocap := true }⟩ (ds 1) (.reg (ss 2))] : List Instr).all (fun i => i.wf = false) = true := by decide +kernel

/-- R43, R77, R80, R81, R83, R92, R103: operands whose class, index, pair or dead mark is not legal. -/
theorem test_ill_operands : ([.mov head0 (dv 1) (.reg ⟨true, .s, 2⟩), .mov head0 (dv 1) (.reg (ss 128)), .mov head0 (dv 1) (.reg (sq 4)),
    .mov head0 (ds 1) (.reg (sv 2)), .mov head0 ⟨true, .s, 2⟩ (.reg (sv 2)), .unify head0 (dv 1) (sv 2), .iadd head0 .s64 false (dv 1) (sv 2) (.reg (sv 4)),
    .iadd head0 .s64 false (dv 2) (sv 3) (.reg (sv 4)), .iadd head0 .s32 false (ds 2) ⟨false, .z, 0⟩ (.reg (ss 4)), .cmp head0 .s32 (dc 4) (sv 2) (.reg (ss 4)),
    .waitc head0 .cpy (sv 1), .ld head0 false .w32 (dv 1) (si 0) ⟨.none, .grp, 0⟩, .ld head0 false .w128 (dv 2) (sv 2) ⟨.none, .grp, 0⟩,
    .mma head0 (dt 3) (ss 8) ⟨false, .ta, 0⟩, .mma head0 (dt 32) (ss 6) ⟨false, .ta, 0⟩, .tldb head0 (dt 33) (ss 8), .cpy head0 .gl ⟨true, .v, 0⟩ (ss 4) (ss 6) (ss 8)]
    : List Instr).all (fun i => i.wf = false) = true := by decide +kernel

/-- R182, R332, R339, Tables 14.8 and 14.9: forms that an entry forbids. -/
theorem test_ill_forms : ([.imul head0 .s32 true .hi (dv 1) (sv 2) (.reg (sv 3)), .imul head0 .s64 false .wide (dv 2) (sv 4) (.reg (sv 6)),
    .iabs head0 .n32 false (dv 1) (sv 2), .lop3 head0 .and .x (dv 1) (sv 2) (sv 3) (sv 4), .bil head0 false (dv 1) (sv 2) (sv 3) (sv 4),
    .sel head0 .eq (dv 1) (sv 2) (sv 3) ⟨false, .cf, 4⟩, .cvt head0 false .dyn .f32 .f32 (dv 1) (sv 2), .dot4 head0 .e4m3 .s8 (dv 1) (sv 2) (sv 3) (sv 4),
    .ld head0 false .w32 (dv 1) (sv 2) ⟨.rel, .dev, 0⟩, .ld head0 true .w32 (dv 1) (sv 2) ⟨.acq, .dev, 0⟩, .ld head0 false .w32 (dv 1) (sv 2) ⟨.none, .dev, 0⟩,
    .st head0 false .s8 (sv 2) (sv 4) ⟨.none, .grp, 0⟩, .fence head0 .none .dev, .atom head0 false .fadd true (dv 2) (sv 4) (sv 6) ⟨.none, .grp, 0⟩,
    .red head0 false .exch false (sv 2) (sv 4) ⟨.none, .grp, 0⟩, .csrr head0 (dv 1) 0xC, .csrw head0 2 (ss 2), .tlbi head0 .all (ss 2) (ss 4)]
    : List Instr).all (fun i => i.wf = false) = true := by decide +kernel

/-- R326, R339: words with a reserved OP, modifier, guard bit, hint bit or a field that is not 0 where it is unused. -/
theorem test_ill_words : ∀ w ∈ [0x004 * 2 ^ 87, 0x108 * 2 ^ 87, 0x000 * 2 ^ 87 + 2 ^ 81, 0x00A * 2 ^ 87 + 3 * 2 ^ 81, 0x049 * 2 ^ 87 + 8 * 2 ^ 81, 2 ^ 73, 2 ^ 79, 1, 2,
    2 ^ 25, 2 ^ 37, 2 ^ 49, 0x0C6 * 2 ^ 87 + 2 ^ 61], decodeTableWord 96 w = none := by decide +kernel

-- states that meet the hypotheses of the statements

/-- What an option holds meets a condition. -/
theorem meets {α : Type} (o : Option α) (P : α → Prop) [DecidablePred P] (h : (o.any fun a => decide (P a)) = true) : ∃ a, o = some a ∧ P a := by
  cases o with
  | none => cases h
  | some a => exact ⟨a, rfl, of_decide_eq_true h⟩

/-- A group about to issue, with every register 0. -/
def s0 : State := State.reset.withFetchWord 96 0
/-- The same with its group changed. -/
def sg (f : Group → Group) : State := { s0 with groups := s0.groups.put 0 (f (placedGroup s0.now)) }
/-- `v1` and `v2` hold the F32 values that the statements single out: lane n of `v1` against lane n of `v2`. -/
def sf : State := sg fun g =>
  let x : List Word := [0x7FC00000, 0x7F800000, 0x7F800000, 0x3F800000, 0x80000000, 0x00000001, 0xBF800000, 0x7FA00000, 0xFF800000, 0, 0x3F800000, 0x7F800000]
  let y : List Word := [0x3F800000, 0xFF800000, 0x7F800000, 0x3F800000, 0x80000000, 0x40000000, 0x3F800000, 0x7FC00000, 0, 0x3F800000, 0x80000000, 0]
  { g with v := (g.v.put 1 (tab32 fun n => ⟨x.getD n 0, false⟩)).put 2 (tab32 fun n => ⟨y.getD n 0, false⟩) }

/-- Hypotheses of FixedLatencyFrame. -/
theorem meets_FixedLatencyFrame : (s0.issuing (.iadd head0 .s32 false (dv 1) (sv 2) (.reg (sv 3)))).isSome = true
    ∧ (Instr.iadd head0 .s32 false (dv 1) (sv 2) (.reg (sv 3))).fixed = true := by decide +kernel

/-- Hypotheses of the statements of results: each of the instructions that they name issues. -/
theorem meets_results : ([.nop head0, .mov head0 (dv 1) (.reg (sv 2)), .mov head0 (dv 1) (.imm 0xFFFFFF), .movl hint0 (dv 1) 5,
    .unify head0 (ds 1) (sv 2), .iadd head0 .n32 true (dv 1) (sv 2) (.imm 3), .isub head0 .s64 true (dv 2) (sv 4) (.reg (sv 6)),
    .iadd head0 .s64 false (dv 2) (sv 4) (.imm 3), .isub head0 .n32 false (ds 1) (ss 2) (.imm 3), .imin head0 .n64 (dv 2) (sv 4) (.imm 3),
    .imax head0 .s32 (dv 2) (sv 4) (.reg (sv 5)), .iabs head0 .s32 true (dv 2) (sv 4), .iabs head0 .s64 false (dv 2) (sv 4),
    .imul head0 .s32 true .lo (dv 1) (sv 2) (.imm 3), .imul head0 .n64 false .hi (dv 2) (sv 4) (.imm 3), .imul head0 .n32 false .wide (dv 2) (sv 4) (.imm 3),
    .imad head0 .s32 false .lo (dv 1) (sv 2) (sv 3) (sv 4), .imad head0 .s32 false .hi (dv 1) (sv 2) (sv 3) (sv 4), .imad head0 .s32 false .wide (dv 2) (sv 4) (sv 6) (sv 8),
    .lea head0 .n64 3 (dv 2) (sv 4) (.reg (sv 6)), .shl head0 true (dv 2) (sv 4) (.reg (sv 6)), .shl head0 false (dv 2) (sv 4) (.imm 63), .shr head0 true true (dv 2) (sv 4) (.imm 63),
    .shf head0 true (dv 1) (sv 2) (sv 3) (sv 4), .lop3 head0 .xor .x (dv 1) (sv 2) (sv 3) srcZero, .lop3 head0 .and .or (dv 1) (sv 2) (sv 3) (sv 4),
    .popc head0 true (dv 1) (sv 2), .clz head0 true (dv 1) (sv 2), .brev head0 true (dv 2) (sv 4), .bfx head0 true (dv 1) (sv 2) (sv 3), .bfi head0 (dv 1) (sv 2) (sv 3) (sv 4),
    .bil head0 true (dv 1) (sv 2) (sv 3) (sv 4), .bdil head0 true (dv 1) (sv 2) (sv 3), .prmt head0 (dv 1) (sv 2) (sv 3) (sv 4), .cmp head0 .n64 (dc 3) (sv 2) (.imm 0x800000),
    .sel head0 .eq (dv 1) (sv 2) (sv 3) ⟨false, .cf, 3⟩, .shfl head0 .up (dv 1) (sv 2) (sv 3) (sv 4), .vote head0 .ballot (dv 1) (sv 2), .lred head0 .add (dv 1) (sv 2),
    .lscan head0 .fadd true (dv 1) (sv 2), .fadd head0 true true .rd (dv 1) (sv 2) (sv 3), .fmul head0 true true .rd (dv 1) (sv 2) (sv 3), .ffma head0 true true .rd (dv 1) (sv 2) (sv 3) (sv 4),
    .fmin head0 (dv 1) (sv 2) (sv 3), .fmax head0 (dv 1) (sv 2) (sv 3), .fcmp head0 (dc 0) (sv 2) (sv 3), .fclass head0 (dv 1) (sv 2), .frnd head0 true .ru (dv 1) (sv 2),
    .fscale head0 true .ru (dv 1) (sv 2) (sv 3), .fdiv head0 true .ru (dv 1) (sv 2) (sv 3), .fsqrt head0 true .ru (dv 1) (sv 2), .ffn head0 .rcp (dv 1) (sv 2),
    .cvt head0 true .dyn .s8 .f32 (dv 1) (sv 4), .cvt head0 true .dyn .s64 .f32 (dv 2) (sv 4), .cvt head0 false .dyn .mx .f32 (dv 1) (sv 2), .pfma head0 true true true .ru (dv 1) (sv 2) (sv 3) (sv 4),
    .fdot2 head0 true true true .ru (dv 1) (sv 2) (sv 3) (sv 4), .dot4 head0 .s8 .n8 (dv 1) (sv 2) (sv 3) (sv 4), .dot4 head0 .e4m3 .e5m2 (dv 1) (sv 2) (sv 3) (sv 4),
    .ptst head0 (dc 0) (sv 2), .pset head0 (dv 1) (sv 2), .pclr head0 (dv 1) (sv 2) (sv 3), .cntr head0 .cpy (ds 1), .csrr head0 (dv 2) 0xB, .csrr head0 (ds 1) 5]
    : List Instr).all (fun i => (s0.issuing i).isSome) = true := by decide +kernel

/-- UnifyResult: with every lane Active and guard-true, and, under a guard that no lane meets, with none. -/
theorem meets_UnifyResult : ((s0.issuing (.unify head0 (ds 1) (sv 2))).any fun c => decide ((Mask.lanes c.on).length = 32)) = true
    ∧ ((s0.issuing (.unify ⟨.lane 0 .nv, hint0⟩ (ds 1) (sv 2))).any fun c => decide (Mask.lanes c.on = [])) = true := by decide +kernel

/-- FloatArithmeticResults, FloatCompareResults and FloatFunctionResults: lanes of `sf` with a NaN, infinities of either sign, finite values,
zeros, a subnormal, a negative value and a signalling NaN. -/
theorem meets_FloatArithmeticResults : ∃ c, sf.issuing (.fadd head0 false false .dyn (dv 3) (sv 1) (sv 2)) = some c ∧
    let X := fun n => f32.num (c.at32 1 (sv 1) n).1.toNat
    let Y := fun n => f32.num (c.at32 2 (sv 2) n).1.toNat
    (X 0).isNan = true ∧ X 1 = .inf false ∧ Y 1 = .inf true ∧ X 2 = .inf false ∧ Y 2 = .inf false ∧ X 3 = .fin false 0x800000 (-23) ∧ (X 4).isZero = true ∧ (X 4).neg = true
      ∧ (Y 4).neg = true ∧ f32.subnormal (c.at32 1 (sv 1) 5).1.toNat = true ∧ X 6 = .fin true 0x800000 (-23) ∧ Y 6 = .fin false 0x800000 (-23) ∧ (X 7).isSig = true ∧ (Y 7).isNan = true
      ∧ X 8 = .inf true ∧ (X 9).isZero = true ∧ (Y 10).isZero = true ∧ X 11 = .inf false ∧ (Y 11).isZero = true := meets _ _ (by decide +kernel)

-- control

/-- BranchesMoveThreads: a branch and a call; aligned targets in every lane, and one that is no multiple of 4 in the lowest. -/
theorem meets_BranchesMoveThreads :
    (∃ c, s0.issuing (.bra head0 4) = some c ∧ acts c (.bra head0 4) = true) ∧ (s0.issuing (.call head0 (dv 2) 4)).isSome = true
    ∧ (∃ c, s0.issuing (.ret head0 (sv 2)) = some c ∧ acts c (.ret head0 (sv 2)) = true ∧ Clean c (.ret head0 (sv 2))
      ∧ ∀ n < 32, Mask.has c.act n = true → (c.pairAt 1 (sv 2) n).1.toNat % 4 = 0 ∧ (c.pairAt 1 (sv 2) n).1.toNat < 2 ^ 57)
    ∧ ∃ c, (sg fun g => { g with s := g.s.put 4 ⟨2, false⟩, csr := { g.csr with tvec := 0x20000 } }).issuing (.brx head0 (ss 4)) = some c
      ∧ acts c (.brx head0 (ss 4)) = true ∧ Clean c (.brx head0 (ss 4)) ∧ CanTrap c.g ∧ Mask.has c.act 0 = true ∧ (c.pairAt 1 (ss 4) 0).1.toNat % 4 ≠ 0 := by
  unfold Clean CanTrap
  exact ⟨meets _ _ (by decide +kernel), by decide +kernel, meets _ _ (by decide +kernel), meets _ _ (by decide +kernel)⟩

/-- DivergentBranch: without ejection; with thread 5 held at another meeting point; and with the four threads that do not branch ejected. -/
theorem meets_DivergentBranch :
    let i : Instr := .brd ⟨.lane 0 .ne, hint0⟩ (dv 20) 9 4
    let s (e : Nat) := sg fun g => { g with c := g.c.put 0 (tab32 fun n => if n < 4 then ⟨4, false, 0⟩ else flag0), csr := { g.csr with ejth := e } }
    (∃ c, (s 0).issuing i = some c ∧ Clean c i ∧ c.g.csr.ejth = 0 ∧ c.g.cont = none)
    ∧ (∃ c, (sg fun g => { g with csr := { g.csr with ejth := 0 }, threads := tab32 fun n => if n = 5 then { g.th n with pc := 0x30000, st := .held } else g.th n }).issuing i = some c ∧ Clean c i
      ∧ c.g.cont = none ∧ (c.g.th 5).st = .held ∧ c.g.join = 0 ∧ c.g.csr.ejth = 0 ∧ mrOf (s0.entryOf c.g) (c.g.th 5).pc ≠ mrOf (s0.entryOf c.g) (c.pc + 9 * 12#57)
      ∧ Mask.has c.act 5 = false
      ∧ ∀ n < 32, (c.g.th n).st = .exited ∨ Mask.has c.act n = true ∨ ((c.g.th n).st = .held ∧ (c.g.th n).pc = (c.g.th 5).pc))
    ∧ ∃ c, (s 4).issuing i = some c ∧ Clean c i ∧ c.g.cont = none ∧ c.g.csr.tmode = false ∧ c.g.csr.ejth ≠ 0 ∧ c.g.join = 0 ∧ c.on ≠ 0#32 ∧ c.act &&& ~~~ c.on ≠ 0#32
      ∧ countOf (c.act &&& ~~~ c.on) ≤ c.g.csr.ejth ∧ countOf (c.act &&& ~~~ c.on) + (s 4).landed.helperUse c.g.frame (c.g.rod / 4) ≤ Config.helperSlots
      ∧ (s 4).cur < Config.contBase := by
  unfold Clean
  exact ⟨meets _ _ (by decide +kernel), meets _ _ (by decide +kernel), meets _ _ (by decide +kernel)⟩

/-- MeetHoldsAndReleases: lane 31 runs elsewhere with the same meeting point; all lanes are at the `MEET`. -/
theorem meets_MeetHoldsAndReleases :
    let x := mrOf (s0.entryOf (placedGroup s0.now)) 0x10000
    let s (away : Bool) := sg fun g => { g with threads := tab32 fun n => { g.th n with mr := x, pc := if away && n = 31 then 0x20000 else 0x10000 } }
    let m := fun (c : Iss) => Mask.of fun n => Mask.has c.on n && (c.g.th n).mr = x
    (∃ c, (s true).issuing (.meet head0 (sv 2)) = some c ∧ acts c (.meet head0 (sv 2)) = true ∧ Clean c (.meet head0 (sv 2)) ∧ c.g.cont = none
      ∧ mrOf ((s true).entryOf c.g) c.pc = x ∧ Mask.has (m c) 31 = false ∧ (c.g.th 31).st = .run ∧ (c.g.th 31).mr = x)
    ∧ ∃ c, (s false).issuing (.meet head0 (sv 2)) = some c ∧ acts c (.meet head0 (sv 2)) = true ∧ Clean c (.meet head0 (sv 2)) ∧ c.g.cont = none
      ∧ mrOf ((s false).entryOf c.g) c.pc = x ∧ m c ≠ 0#32 ∧ c.g.join = 0 ∧ ∀ n < 32, Mask.has (m c) n = false → (c.g.th n).st = .exited := by
  unfold Clean
  exact ⟨meets _ _ (by decide +kernel), meets _ _ (by decide +kernel)⟩

/-- The invariant, as one question. -/
theorem inv_of {s : State} (h : (s.mem.wf && AMap.wf s.mem.bad && AMap.wf s.sys && AMap.wf s.groups && AMap.wf s.teams && AMap.wf s.nodes && AMap.wf s.ctxs && AMap.wf s.queues
    && AMap.wf s.rods && AMap.wf s.mxq && AMap.wf s.ops && AMap.wf s.ways && AMap.wf s.spare && AMap.wf s.orig && AMap.wf s.tlb && AMap.wf s.walk && AMap.wf s.ccache
    && AMap.wf s.views && AMap.wf s.forks && AMap.wf s.recs && AMap.wf s.waitRec && AMap.wf s.l1 && AMap.wf s.marks && AMap.wf s.beads && AMap.wf s.breqs && AMap.wf s.dir
    && AMap.wf s.trans && AMap.wf s.rdc && AMap.wf s.l2 && AMap.wf s.merge && AMap.wf s.ports && AMap.wf s.seen && AMap.wf s.saved && AMap.wf s.ck) = true) : s.Inv := by
  simp only [Bool.and_eq_true] at h
  exact ⟨h.1.1.1.1.1.1.1.1.1.1.1.1.1.1.1.1.1.1.1.1.1.1.1.1.1.1.1.1.1.1.1.1.1, h.1.1.1.1.1.1.1.1.1.1.1.1.1.1.1.1.1.1.1.1.1.1.1.1.1.1.1.1.1.1.1.1.2,
    h.1.1.1.1.1.1.1.1.1.1.1.1.1.1.1.1.1.1.1.1.1.1.1.1.1.1.1.1.1.1.1.2, h.1.1.1.1.1.1.1.1.1.1.1.1.1.1.1.1.1.1.1.1.1.1.1.1.1.1.1.1.1.1.2,
    h.1.1.1.1.1.1.1.1.1.1.1.1.1.1.1.1.1.1.1.1.1.1.1.1.1.1.1.1.1.2, h.1.1.1.1.1.1.1.1.1.1.1.1.1.1.1.1.1.1.1.1.1.1.1.1.1.1.1.1.2,
    h.1.1.1.1.1.1.1.1.1.1.1.1.1.1.1.1.1.1.1.1.1.1.1.1.1.1.1.2, h.1.1.1.1.1.1.1.1.1.1.1.1.1.1.1.1.1.1.1.1.1.1.1.1.1.1.2,
    h.1.1.1.1.1.1.1.1.1.1.1.1.1.1.1.1.1.1.1.1.1.1.1.1.1.2, h.1.1.1.1.1.1.1.1.1.1.1.1.1.1.1.1.1.1.1.1.1.1.1.1.2,
    h.1.1.1.1.1.1.1.1.1.1.1.1.1.1.1.1.1.1.1.1.1.1.1.2, h.1.1.1.1.1.1.1.1.1.1.1.1.1.1.1.1.1.1.1.1.1.1.2, h.1.1.1.1.1.1.1.1.1.1.1.1.1.1.1.1.1.1.1.1.1.2,
    h.1.1.1.1.1.1.1.1.1.1.1.1.1.1.1.1.1.1.1.1.2, h.1.1.1.1.1.1.1.1.1.1.1.1.1.1.1.1.1.1.1.2, h.1.1.1.1.1.1.1.1.1.1.1.1.1.1.1.1.1.1.2,
    h.1.1.1.1.1.1.1.1.1.1.1.1.1.1.1.1.1.2, h.1.1.1.1.1.1.1.1.1.1.1.1.1.1.1.1.2, h.1.1.1.1.1.1.1.1.1.1.1.1.1.1.1.2, h.1.1.1.1.1.1.1.1.1.1.1.1.1.1.2,
    h.1.1.1.1.1.1.1.1.1.1.1.1.1.2, h.1.1.1.1.1.1.1.1.1.1.1.1.2, h.1.1.1.1.1.1.1.1.1.1.1.2, h.1.1.1.1.1.1.1.1.1.1.2, h.1.1.1.1.1.1.1.1.1.2,
    h.1.1.1.1.1.1.1.1.2, h.1.1.1.1.1.1.1.2, h.1.1.1.1.1.1.2, h.1.1.1.1.1.2, h.1.1.1.1.2, h.1.1.1.2, h.1.1.2, h.1.2, h.2⟩

/-- A continuation of lane 3 of a group, about to issue. -/
def sc : State :=
  { s0 with groups := (s0.groups.put 0 { placedGroup s0.now with join := 1 }).put Config.contBase
              { placedGroup s0.now with cont := some (0, 3), threads := tab32 fun n => ⟨0x10000, 0, 0, if n = 3 then .run else .exited, false, [], none, 0, none⟩ },
            cur := Config.contBase }

/-- ExitEndsThreads: a group, and a continuation whose group stands. -/
theorem meets_ExitEndsThreads : (∃ c, s0.issuing (.exit head0) = some c ∧ acts c (.exit head0) = true ∧ c.g.cont = none)
    ∧ (∃ c, sc.issuing (.exit head0) = some c ∧ acts c (.exit head0) = true ∧ c.g.cont = some (0, 3)) ∧ 0 ≠ sc.cur ∧ sc.Inv ∧ (sc.groups.find 0).isSome = true :=
  ⟨meets _ _ (by decide +kernel), meets _ _ (by decide +kernel), by decide +kernel, inv_of (by decide +kernel), by decide +kernel⟩

/-- WaitsBegin: a barrier, a superstep, a sleep, a satisfied wait and one for a counter above its bound. -/
theorem meets_WaitsBegin :
    (∃ c, s0.issuing (.bar head0 5) = some c ∧ acts c (.bar head0 5) = true ∧ pendingOf s0 c (.bar head0 5) = [] ∧ (s0.teams.find c.g.team).isSome = true)
    ∧ (∃ c, s0.issuing (.sstep head0) = some c ∧ acts c (.sstep head0) = true ∧ (c.nd.any fun n => n.eff.gang) = true)
    ∧ (∃ c, s0.issuing (.sleep head0 (si 0xFF)) = some c ∧ acts c (.sleep head0 (si 0xFF)) = true ∧ (lane (c.src 1 (si 0xFF)) 0).poi = false)
    ∧ (∃ c, s0.issuing (.waitc head0 .mtx (si 0)) = some c ∧ acts c (.waitc head0 .mtx (si 0)) = true ∧ Clean c (.waitc head0 .mtx (si 0))
      ∧ c.g.counter .mtx ≤ (lane (c.src 1 (si 0)) 0).val.toNat ∧ c.g.deferredOf .mtx = none)
    ∧ ∃ c, (sg fun g => { g with counted := [⟨7, .mtx, false⟩] }).issuing (.waitc head0 .mtx (si 0)) = some c ∧ acts c (.waitc head0 .mtx (si 0)) = true
      ∧ Clean c (.waitc head0 .mtx (si 0)) ∧ (lane (c.src 1 (si 0)) 0).val.toNat < c.g.counter .mtx := by
  unfold Clean
  exact ⟨meets _ _ (by decide +kernel), meets _ _ (by decide +kernel), meets _ _ (by decide +kernel), meets _ _ (by decide +kernel), meets _ _ (by decide +kernel)⟩

/-- WaitsEnd: a barrier with an arrival, a drained group, a superstep at which every group has arrived, a sleep that is over, a wait that is met. -/
theorem meets_WaitsEnd :
    ((placedTeam.bars.put 3 ⟨[(0, 2)], false⟩).find 3 = some ⟨(0, 2) :: [], false⟩)
    ∧ (sg fun g => { g with hold := .sstep false }).drained 0 { placedGroup s0.now with hold := .sstep false } = true ∧ (s0.teams.find 0).isSome = true ∧ (s0.nodes.find 0).isSome = true
    ∧ s0.superstepOver 0 { placedNode with sarrive := [0] } = true ∧ placedNode.eff.paired = false
    ∧ (∃ g, (sg fun g => { g with hold := .sleep 0 }).groups.find 0 = some g ∧ g.hold = .sleep 0 ∧ 0 ≤ s0.now)
    ∧ ∃ g, (sg fun g => { g with hold := .waitc .cpy 0 0x10000 1 }).groups.find 0 = some g ∧ g.hold = .waitc .cpy 0 0x10000 1 ∧ g.counter .cpy ≤ 0 ∧ g.deferredOf .cpy = none :=
  ⟨by decide +kernel, by decide +kernel, by decide +kernel, by decide +kernel, by decide +kernel, by decide +kernel, meets _ _ (by decide +kernel), meets _ _ (by decide +kernel)⟩

/-- A group with a trap handler. -/
def st : State := sg fun g => { g with csr := { g.csr with tvec := 0x20000 } }

/-- TrapInstructionTraps: with a handler, and without one in a resident context. -/
theorem meets_TrapInstructionTraps :
    (∃ c, st.issuing (.trap head0 9) = some c ∧ acts c (.trap head0 9) = true) ∧ (∃ g, st.issuer = some g ∧ CanTrap g)
    ∧ (∃ c, s0.issuing (.trap head0 9) = some c ∧ acts c (.trap head0 9) = true)
    ∧ ∃ g, s0.issuer = some g ∧ g.cont = none ∧ g.csr.tvec = 0#57 ∧ ((s0.ctxs.find (s0.ctxOf g)).any fun x => x.run = .resident) = true := by
  unfold CanTrap
  exact ⟨meets _ _ (by decide +kernel), meets _ _ (by decide +kernel), meets _ _ (by decide +kernel), meets _ _ (by decide +kernel)⟩

/-- FailedChecksTrap: `RTT` outside trap mode, a register beyond the allocation, an invalid latch under `CHK`, a poisoned uniform guard. -/
theorem meets_FailedChecksTrap :
    (∃ g, st.issuer = some g ∧ CanTrap g)
    ∧ (∃ c, st.reaching (.rtt head0) = some c ∧ privFail c (.rtt head0) = true)
    ∧ (∃ c, st.reaching (.pset head0 (dv 255) (sv 2)) = some c ∧ privFail c (.pset head0 (dv 255) (sv 2)) = false ∧ (allocFail c.tm (.pset head0 (dv 255) (sv 2))).isSome = true)
    ∧ (∃ c, (sg fun g => { g with csr := { g.csr with tvec := 0x20000, chk := true } }).reaching (.pset head0 (dv 1) (sq 0)) = some c
      ∧ privFail c (.pset head0 (dv 1) (sq 0)) = false ∧ allocFail c.tm (.pset head0 (dv 1) (sq 0)) = none ∧ (staleField c (.pset head0 (dv 1) (sq 0))).isSome = true
      ∧ c.g.csr.chk = true)
    ∧ ∃ c, (sg fun g => { g with f := g.f.put 1 ⟨4, true, 0x30000000⟩, csr := { g.csr with tvec := 0x20000 } }).reaching (.nop ⟨.uni 1 .eq, hint0⟩) = some c
      ∧ staleField c (.nop ⟨.uni 1 .eq, hint0⟩) = none ∧ (uniPoison c.g (.uni 1 .eq)).isSome = true ∧ (c.nd.all fun n => !n.eff.guarded && !n.eff.idem) = true := by
  unfold CanTrap
  exact ⟨meets _ _ (by decide +kernel), meets _ _ (by decide +kernel), meets _ _ (by decide +kernel), meets _ _ (by decide +kernel), meets _ _ (by decide +kernel)⟩

/-- ReturnFromTrap, and the CSR writes of PoisonCounterAndCsr: in trap mode; an aligned and a misaligned address, a counted CSR; a system CSR in kernel mode. -/
theorem meets_ReturnFromTrap : (∃ c, (sg fun g => { g with threads := tab32 fun n => { g.th n with inT := true }, csr := { g.csr with tmode := true } }).issuing (.rtt head0) = some c ∧ acts c (.rtt head0) = true)
    ∧ (∃ c, s0.issuing (.csrw head0 1 (ss 4)) = some c ∧ acts c (.csrw head0 1 (ss 4)) = true ∧ Clean c (.csrw head0 1 (ss 4)) ∧ (c.pairAt 1 (ss 4) 0).1.toNat % 4 = 0)
    ∧ (∃ c, st.issuing (.csrw head0 3 (si 2)) = some c ∧ acts c (.csrw head0 3 (si 2)) = true ∧ Clean c (.csrw head0 3 (si 2)) ∧ (c.pairAt 1 (si 2) 0).1.toNat % 4 ≠ 0)
    ∧ ∃ c, s0.issuing (.csrw head0 7 (si 9)) = some c ∧ acts c (.csrw head0 7 (si 9)) = true ∧ Clean c (.csrw head0 7 (si 9)) := by
  unfold Clean
  exact ⟨meets _ _ (by decide +kernel), meets _ _ (by decide +kernel), meets _ _ (by decide +kernel), meets _ _ (by decide +kernel)⟩

-- memory at issue

/-- Addresses: the pair `v2` global, `v8` into the local store, lane by lane 16 bytes apart; `v9` the same below; the pair `s4` global; `s6` a fork handle. -/
def sm (f : Team → Team) : State :=
  let s := sg fun g =>
    { g with v := ((g.v.put 2 (tab32 fun n => clean (BitVec.ofNat 32 (0x10400 + 16 * n)))).put 8 (tab32 fun n => clean (BitVec.ofNat 32 (16 * n)))),
             s := ((g.s.put 4 (clean 0x10400)).put 5 (clean 0)).put 6 (clean 0x440) }
  { s with teams := s.teams.put 0 (f placedTeam), forks := s.forks.put 0 ⟨true, 0, 1, 0, 0, [], [1, 2]⟩ }
/-- No memory control. -/
def mc0 : Mc := ⟨.none, .grp, 0⟩
/-- A state with an operation of every lane of its group under way. -/
def under (i : Instr) (s : State) : State := { s with ops := s.ops.put 5 { op0 i with mask := 0xFFFFFFFF#32 }, ids := 6 }
/-- Words 0, 4, 8, … of the local store full. -/
def fullTeam (t : Team) : Team := { t with words := (List.range 32).map fun n => (4 * n, ⟨7, false, true, []⟩) }

/-- LoadsBegin: local, global, constant, and in a live rival's view. -/
theorem meets_LoadsBegin :
    let s := sm id
    (∃ c, s.issuing (.ld head0 true .s16 (dv 1) (sv 8) mc0) = some c ∧ acts c (.ld head0 true .s16 (dv 1) (sv 8) mc0) = true
      ∧ (addrs c true (sv 8) 0 2 (accLanes c (dv 1))).length = 32 ∧ localBefore s c (.ld head0 true .s16 (dv 1) (sv 8) mc0) = [] ∧ ∀ p ∈ addrs c true (sv 8) 0 2 (accLanes c (dv 1)), p.2 % 2 = 0 ∧ p.2 + 2 ≤ c.tm.lsBytes)
    ∧ (∃ c, s.issuing (.ld head0 false .w128 (dv 12) (sv 2) mc0) = some c ∧ acts c (.ld head0 false .w128 (dv 12) (sv 2) mc0) = true
      ∧ (addrs c false (sv 2) 0 16 (accLanes c (dv 12))).length = 32 ∧ (∀ p ∈ addrs c false (sv 2) 0 16 (accLanes c (dv 12)), p.2 % 16 = 0)
      ∧ Mapped s c .read (addrs c false (sv 2) 0 16 (accLanes c (dv 12))))
    ∧ (∃ c, s.issuing (.ldc head0 .w32 (ds 8) (ss 4) mc0) = some c ∧ acts c (.ldc head0 .w32 (ds 8) (ss 4) mc0) = true
      ∧ (addrs c false (ss 4) 0 4 (accLanes c (ds 8))).length = 1 ∧ (∀ p ∈ addrs c false (ss 4) 0 4 (accLanes c (ds 8)), p.2 % 4 = 0)
      ∧ Mapped s c .read (addrs c false (ss 4) 0 4 (accLanes c (ds 8))))
    ∧ ∃ c, s.issuing (.ldv head0 (dv 1) (sv 2) (ss 6) 1) = some c ∧ acts c (.ldv head0 (dv 1) (sv 2) (ss 6) 1) = true ∧ (c.uni 2 (ss 6) 0).poi = false
      ∧ 1 < forkCount (c.uni 2 (ss 6) 0).val ∧ s.forkAt c.g.frame (c.uni 2 (ss 6) 0).val = some 0 ∧ (s.forks.find 0).isSome = true
      ∧ (∀ p ∈ addrs c false (sv 2) 0 4 c.on.lanes, p.2 % 4 = 0) ∧ Mapped s c .read (addrs c false (sv 2) 0 4 c.on.lanes) := by
  unfold Mapped
  exact ⟨meets _ _ (by decide +kernel), meets _ _ (by decide +kernel), meets _ _ (by decide +kernel), meets _ _ (by decide +kernel)⟩

/-- StoresBegin: a local and a global store of every lane, and a local byte store of one. -/
theorem meets_StoresBegin :
    let s := sm id
    (∃ c, s.issuing (.st head0 true .w64 (sv 8) (sv 2) mc0) = some c ∧ acts c (.st head0 true .w64 (sv 8) (sv 2) mc0) = true ∧ Clean c (.st head0 true .w64 (sv 8) (sv 2) mc0)
      ∧ (s.teams.find c.g.team).isSome = true ∧ localBefore s c (.st head0 true .w64 (sv 8) (sv 2) mc0) = [] ∧ (addrs c true (sv 8) 0 8 c.on.lanes).length = 32
      ∧ ∀ p ∈ addrs c true (sv 8) 0 8 c.on.lanes, p.2 % 8 = 0 ∧ p.2 + 8 ≤ placedTeam.lsBytes)
    ∧ (∃ c, (sg fun g => { g with threads := tab32 fun n => if n = 5 then g.th n else { g.th n with st := .exited } }).issuing (.st head0 true .n8 (si 3) (sv 2) mc0) = some c
      ∧ addrs c true (si 3) 0 1 c.on.lanes = [(5, 3)] ∧ 3 + 1 ≤ placedTeam.lsBytes)
    ∧ ∃ c, s.issuing (.st head0 false .w64 (sv 2) (sv 4) mc0) = some c ∧ acts c (.st head0 false .w64 (sv 2) (sv 4) mc0) = true ∧ Clean c (.st head0 false .w64 (sv 2) (sv 4) mc0)
      ∧ (addrs c false (sv 2) 0 8 c.on.lanes).length = 32 ∧ (∀ p ∈ addrs c false (sv 2) 0 8 c.on.lanes, p.2 % 8 = 0)
      ∧ Writable s c .write (addrs c false (sv 2) 0 8 c.on.lanes) (fun n => (List.range 2).map fun k => lane (c.srcK 2 (sv 4) k) n) := by
  unfold Clean Writable Mapped
  exact ⟨meets _ _ (by decide +kernel), meets _ _ (by decide +kernel), meets _ _ (by decide +kernel)⟩

/-- FullEmptyWords: a take of full words, a wait on empty ones, a fill of empty ones, and a run of words set. -/
theorem meets_FullEmptyWords :
    let ok := fun (s : State) (tm : Team) (i : Instr) (c : Iss) => acts c i = true ∧ Clean c i ∧ localBefore s c i = [] ∧ s.teams.find c.g.team = some tm
      ∧ (∀ p ∈ addrs c true (sv 8) 0 4 c.on.lanes, p.2 % 4 = 0 ∧ p.2 + 4 ≤ tm.lsBytes) ∧ (∀ p ∈ addrs c true (sv 8) 0 4 c.on.lanes, (tm.word (p.2 / 4)).wait = [])
      ∧ ((addrs c true (sv 8) 0 4 c.on.lanes).map Prod.snd).Nodup
    (∃ c, (sm fullTeam).issuing (.ldtk head0 (dv 1) (sv 8) mc0) = some c ∧ ok (sm fullTeam) (fullTeam placedTeam) (.ldtk head0 (dv 1) (sv 8) mc0) c
      ∧ ∀ p ∈ addrs c true (sv 8) 0 4 c.on.lanes, ((fullTeam placedTeam).word (p.2 / 4)).full = true)
    ∧ (∃ c, (sm id).issuing (.ldwf head0 (dv 1) (sv 8) mc0) = some c ∧ ok (sm id) placedTeam (.ldwf head0 (dv 1) (sv 8) mc0) c
      ∧ ∀ p ∈ addrs c true (sv 8) 0 4 c.on.lanes, (placedTeam.word (p.2 / 4)).full = false)
    ∧ (∃ c, (sm id).issuing (.stwe head0 (sv 8) (sv 2) mc0) = some c ∧ ok (sm id) placedTeam (.stwe head0 (sv 8) (sv 2) mc0) c ∧ pendingOf (sm id) c (.stwe head0 (sv 8) (sv 2) mc0) = []
      ∧ ∀ p ∈ addrs c true (sv 8) 0 4 c.on.lanes, (placedTeam.word (p.2 / 4)).full = false)
    ∧ (sm id).Inv
    ∧ ∃ c, (sm id).issuing (.feset head0 true true (si 16) (si 8)) = some c ∧ acts c (.feset head0 true true (si 16) (si 8)) = true ∧ Clean c (.feset head0 true true (si 16) (si 8))
      ∧ (c.uni 2 (si 8) 0).val.toNat = 8 ∧ (offsetAt c 1 (si 16) 0).1.toNat = 16 ∧ 16 + 4 * 8 ≤ placedTeam.lsBytes ∧ localBefore (sm id) c (.feset head0 true true (si 16) (si 8)) = [] := by
  unfold Clean
  exact ⟨meets _ _ (by decide +kernel), meets _ _ (by decide +kernel), meets _ _ (by decide +kernel), inv_of (by decide +kernel), meets _ _ (by decide +kernel)⟩

/-- LoadsBegin, StoresBegin, FullEmptyWords: behind a load with `.ACQ` of the same lanes; a `FESET` about to begin, and one at its end. -/
theorem meets_AccessesWait :
    let s := under (.ld head0 false .w32 (dv 1) (sv 2) ⟨.acq, .dev, 0⟩) (sm id)
    (∀ i ∈ [Instr.ld head0 true .s16 (dv 1) (sv 8) mc0, .st head0 true .w64 (sv 8) (sv 2) mc0, .ldwf head0 (dv 1) (sv 8) mc0, .feset head0 true true (si 16) (si 8)],
      ∃ c, s.issuing i = some c ∧ acts c i = true ∧ Clean c i ∧ localBefore s c i ≠ [])
    ∧ (∃ c, s.issuing (.ld head0 false .w128 (dv 12) (sv 2) mc0) = some c
      ∧ orderedBefore s c (.ld head0 false .w128 (dv 12) (sv 2) mc0) (accsFor s c (addrs c false (sv 2) 0 16 (accLanes c (dv 12)))) ≠ [])
    ∧ (let o := fun m => { op0 (.feset head0 true true (si 16) (si 8)) with vals := [clean 16, clean 8], moved := m }
       let e := fun m => { s0 with now := 9, ops := s0.ops.put 5 (o m) }
       (e 0).ops.find 5 = some (o 0) ∧ (e 1).ops.find 5 = some (o 1) ∧ 1 ≤ (e 1).now ∧ (e 1).Inv ∧ (∃ tm, (e 1).teams.find 0 = some tm ∧ ∀ k < 8, (tm.word (4 + k)).wait = [])
      ∧ ∀ k p, (e 1).ops.find k = some p → 5 ∉ p.after) := by
  unfold Clean
  refine ⟨fun i hi => ?_, meets _ _ (by decide +kernel), by decide +kernel, by decide +kernel, by decide +kernel, inv_of (by decide +kernel),
    meets _ _ (by decide +kernel), fun k p h => ?_⟩
  · simp only [List.mem_cons, List.not_mem_nil, or_false] at hi
    rcases hi with rfl | rfl | rfl | rfl <;> exact meets _ _ (by decide +kernel)
  · by_cases hk : k = 5
    · subst hk; cases h; decide
    · rw [AMap_find_put_ne _ _ hk] at h; cases h

/-- AtomicsBegin: global and local forms; 64-byte cells. -/
theorem meets_AtomicsBegin :
    let s := sm id
    let glob := fun (i : Instr) (a : Src) (n : Nat) (need : Need) => ∃ c, s.issuing i = some c ∧ acts c i = true ∧ Clean c i ∧ addrs c false a 0 n c.on.lanes ≠ []
      ∧ (∀ p ∈ addrs c false a 0 n c.on.lanes, p.2 % n = 0) ∧ Writable s c need (addrs c false a 0 n c.on.lanes) (fun _ => [])
    let loc := fun (i : Instr) (n : Nat) => ∃ c, s.issuing i = some c ∧ acts c i = true ∧ Clean c i ∧ (s.teams.find c.g.team).isSome = true ∧ localBefore s c i = [] ∧ addrs c true (sv 8) 0 n c.on.lanes ≠ []
      ∧ (∀ p ∈ addrs c true (sv 8) 0 n c.on.lanes, p.2 % n = 0 ∧ p.2 + n ≤ placedTeam.lsBytes) ∧ ((addrs c true (sv 8) 0 n c.on.lanes).map Prod.snd).Nodup
    glob (.atom head0 false .umax true (dv 10) (sv 2) (sv 4) mc0) (sv 2) 8 .write ∧ glob (.acas head0 false false (dv 10) (sv 2) (sv 4) mc0) (sv 2) 4 .write
    ∧ glob (.red head0 false .fadd false (sv 2) (sv 4) mc0) (sv 2) 4 .write ∧ glob (.xadd head0 .f16 (ss 4) (sv 4) mc0) (ss 4) 64 .write
    ∧ glob (.xrd head0 true (dv 10) (ss 4) mc0) (ss 4) 64 .write ∧ glob (.xrd head0 false (dv 10) (ss 4) mc0) (ss 4) 64 .read
    ∧ loc (.atom head0 true .exch true (dv 10) (sv 8) (sv 4) mc0) 8 ∧ loc (.red head0 true .add false (sv 8) (sv 4) mc0) 4 ∧ loc (.acas head0 true true (dv 10) (sv 8) (sv 4) mc0) 8 := by
  unfold Clean Writable Mapped
  exact ⟨meets _ _ (by decide +kernel), meets _ _ (by decide +kernel), meets _ _ (by decide +kernel), meets _ _ (by decide +kernel), meets _ _ (by decide +kernel),
    meets _ _ (by decide +kernel), meets _ _ (by decide +kernel), meets _ _ (by decide +kernel), meets _ _ (by decide +kernel)⟩

/-- FencesAndMaintenanceBegin: each issues; with an operation under way an acquiring fence has one to wait for; the maintenance instructions, in kernel mode where they need it. -/
theorem meets_FencesAndMaintenanceBegin :
    let s1 : State := under (.ld head0 false .w32 (dv 1) (sv 2) mc0) s0
    let fl := fun (s : State) (c : Iss) => fenceAfter s c false fun o => returnsLoad o.ins
    let k : State := sg fun g => { g with frame := 256, s := (g.s.put 4 (clean 0x10000)).put 5 (clean 0) }
    (∃ c, s0.issuing (.fence head0 .acq .dev) = some c ∧ acts c (.fence head0 .acq .dev) = true ∧ fl s0 c = []) ∧ s0.Inv
    ∧ (∃ c, s1.issuing (.fence head0 .acq .dev) = some c ∧ acts c (.fence head0 .acq .dev) = true ∧ fl s1 c ≠ [])
    ∧ (∃ c, s0.issuing (.pfence head0 .dev) = some c ∧ acts c (.pfence head0 .dev) = true ∧ fenceAfter s0 c true (fun o => o.unwritten .dev || (acquires o.ins && returnsLoad o.ins)) = [])
    ∧ (∃ c, s0.issuing (.mfence head0) = some c ∧ acts c (.mfence head0) = true)
    ∧ (∃ c, s0.issuing (.cresz head0 (ds 4) (si 8)) = some c ∧ acts c (.cresz head0 (ds 4) (si 8)) = true ∧ Clean c (.cresz head0 (ds 4) (si 8)))
    ∧ (∃ c, k.issuing (.cflush head0 true (ss 4) (si 0)) = some c ∧ acts c (.cflush head0 true (ss 4) (si 0)) = true ∧ c.depth = 0
      ∧ (c.pairAt 1 (ss 4) 0).1.toNat % 64 = 0 ∧ (c.uni 2 (si 0) 0).val.toNat % 64 = 0)
    ∧ ∃ c, k.issuing (.tlbi head0 .pg (ss 4) (si 3)) = some c ∧ acts c (.tlbi head0 .pg (ss 4) (si 3)) = true ∧ Clean c (.tlbi head0 .pg (ss 4) (si 3)) ∧ writesTo k c.owner none = [] := by
  unfold Clean
  exact ⟨meets _ _ (by decide +kernel), inv_of (by decide +kernel), meets _ _ (by decide +kernel), meets _ _ (by decide +kernel), meets _ _ (by decide +kernel), meets _ _ (by decide +kernel),
    meets _ _ (by decide +kernel), meets _ _ (by decide +kernel)⟩

-- engines, the matrix unit, services and worlds at issue

/-- Uniform registers from `s16` on hold the listed words; the pair `s4` holds an address, `s6` 0, and `s7` names no arrival word. -/
def su (l : List Word) : State :=
  sg fun g =>
    let m := (((g.s.put 4 (clean 0x10400)).put 5 (clean 0)).put 6 (clean 0)).put 7 (clean 0xFFFFFFFF)
    { g with s := (List.range l.length).foldl (fun m k => m.put (16 + k) (clean (l.getD k 0))) m }
/-- A shape record: 16 elements of 32 bits in one dimension, all of them in the box. -/
def rec16 : List Word := [0x10400, 0, 16, 0, 0, 0, 0, 0, 0, 0, 0, 0, 0x000F0000, 0, 0, 0x20B00]

/-- EngineCommandsBegin: a copy, one of no bytes, a tensor load and a multicast one, a gather and a collective of two teams. -/
theorem meets_EngineCommandsBegin :
    (∃ c, (su [64]).issuing (.cpy head0 .gl (ds 6) (ss 4) (ss 16) (ss 7)) = some c ∧ acts c (.cpy head0 .gl (ds 6) (ss 4) (ss 16) (ss 7)) = true ∧ (c.uni 2 (ss 16) 0).val = 64#32
      ∧ numOf (c.unis 1 (ss 4) 2) = 0x10400 ∧ numOf (c.unis 0 (Dst.asSrc (ds 6)) 1) = 0 ∧ (c.uni 3 (ss 7) 0).val = 0xFFFFFFFF#32 ∧ 64 ≤ c.tm.lsBytes)
    ∧ (∃ c, (su [0]).issuing (.cpy head0 .gg (ds 4) (ss 4) (ss 16) (si 0xFF)) = some c ∧ (c.uni 2 (ss 16) 0).val = 0#32 ∧ (c.uni 3 (si 0xFF) 0).val = 0xFFFFFFFF#32)
    ∧ (∃ c, (su (rec16 ++ [0])).issuing (.tld head0 false (ds 6) (ss 16) (ss 32) (ss 7)) = some c ∧
      let x := numOf (c.unis 1 (ss 16) 16)
      recBad x false false = false ∧ recRank x = 1 ∧ (Shape.ofNum x).base % 16 = 0 ∧ (Shape.ofNum x).perm = 0 ∧ (Shape.ofNum x).bytes = 64 ∧ 64 ≤ c.tm.lsBytes)
    ∧ (∃ c, (su (rec16 ++ [0, 0, 0xFFFFFFFF, 1])).issuing (.tld head0 true (ds 6) (ss 16) (ss 32) (ss 34)) = some c
      ∧ (c.uni 3 (ss 34) 1).val.toNat.testBit (c.g.frame % 16) = true ∧ (c.uni 3 (ss 34) 0).val = 0xFFFFFFFF#32)
    ∧ (∃ c, (su [0x10000, 0, 4, 2]).issuing (.gath head0 (ds 6) (ss 16) (ss 6) (ss 7)) = some c ∧
      let f := gathFields ([c.uni 0 (Dst.asSrc (ds 6)) 0] ++ c.unis 1 (ss 16) 4 ++ [c.uni 2 (ss 6) 0, c.uni 3 (ss 7) 0])
      f = (0x10000, 4, 2) ∧ 8 ≤ c.tm.lsBytes)
    ∧ ∃ c, (su [4, 1, 0, 0, 0, 0, 0, 0]).issuing (.coll head0 .allreduce .fadd (ds 6) (ss 16) (ss 6) (ss 7)) = some c ∧ (c.nd.any fun n => n.eff.gang) = true := by
  exact ⟨meets _ _ (by decide +kernel), meets _ _ (by decide +kernel), meets _ _ (by decide +kernel), meets _ _ (by decide +kernel), meets _ _ (by decide +kernel), meets _ _ (by decide +kernel)⟩

/-- A `COLL` descriptor that passes every check: two teams, four elements. -/
theorem meets_EngineCommandsBegin_coll :
    let x := 1 * 2 ^ 48 + 4 * 2 ^ 64
    let k : Coll := ⟨.allreduce, .fadd, bitsOf x 47 0, bitsOf x 55 48, bitsOf x 63 56, bitsOf x 84 64⟩
    bitsOf x 95 85 = 0 ∧ bitsOf x 255 128 = 0 ∧ 1 ≤ k.nmm1 ∧ 1 ≤ k.nelem ∧ k.root ≤ k.nmm1 ∧ k.tbase + k.nmm1 < 2 ∧ k.writes 0 ≠ 0 ∧ k.reads 0 ≠ 0 ∧ k.block ≤ 131072 := by decide +kernel

/-- MatrixCommandsBegin: a legal map, one that is not, a map with a poisoned word, a mask with a lane missing, and each of the moves. -/
theorem meets_MatrixCommandsBegin :
    let s := fun (l : List Word) => (su l)
    let mma : Instr := .mma head0 (dt 32) (ss 16) ⟨false, .ta, 0⟩
    (∃ c, (s [0, 0, 0, 0]).issuing mma = some c ∧ c.on = 0xFFFFFFFF#32 ∧ mapFail c.tm.lsBytes (c.uni 1 (ss 16) 0).val (c.uni 1 (ss 16) 1).val (c.uni 1 (ss 16) 2).val (c.uni 1 (ss 16) 3).val = none)
    ∧ (∃ c, (s [4, 0, 0, 0]).issuing mma = some c ∧ c.on = 0xFFFFFFFF#32
      ∧ (mapFail c.tm.lsBytes (c.uni 1 (ss 16) 0).val (c.uni 1 (ss 16) 1).val (c.uni 1 (ss 16) 2).val (c.uni 1 (ss 16) 3).val).isSome = true)
    ∧ (∃ c, s0.issuing (.mma ⟨.lane 0 .nv, hint0⟩ (dt 32) (ss 16) ⟨false, .ta, 0⟩) = some c ∧ c.on ≠ 0xFFFFFFFF#32) ∧ (∃ g, st.issuer = some g ∧ CanTrap g)
    ∧ (∃ c, s0.issuing (.tldb head0 (dt 3) (si 0)) = some c ∧ acts c (.tldb head0 (dt 3) (si 0)) = true ∧ 32768 ≤ c.tm.lsBytes)
    ∧ (∃ c, s0.issuing (.azro head0 (dt 32)) = some c ∧ acts c (.azro head0 (dt 32)) = true)
    ∧ (∃ c, s0.issuing (.ald head0 (dt 32) (si 0)) = some c ∧ acts c (.ald head0 (dt 32) (si 0)) = true)
    ∧ (∃ c, s0.issuing (.ast head0 (si 0) ⟨false, .ta, 32⟩) = some c ∧ acts c (.ast head0 (si 0) ⟨false, .ta, 32⟩) = true)
    ∧ ∃ c, s0.issuing (.ard head0 (dv 1) ⟨false, .ta, 32⟩ (si 63)) = some c ∧ acts c (.ard head0 (dv 1) ⟨false, .ta, 32⟩ (si 63)) = true ∧ (c.uni 2 (si 63) 0).val.toNat < 64 := by
  unfold CanTrap
  exact ⟨meets _ _ (by decide +kernel), meets _ _ (by decide +kernel), meets _ _ (by decide +kernel), meets _ _ (by decide +kernel), meets _ _ (by decide +kernel), meets _ _ (by decide +kernel),
    meets _ _ (by decide +kernel), meets _ _ (by decide +kernel), meets _ _ (by decide +kernel)⟩

/-- WorldAndServiceCallsBegin: two rivals, a choice of the second, an end of a fork, a launch with nothing pending, and a service call in the base view. -/
theorem meets_WorldAndServiceCallsBegin :
    let s := su [0x440, 2]
    (∃ c, s.issuing (.forkw head0 (ds 10) (ss 17) (ss 4)) = some c ∧ acts c (.forkw head0 (ds 10) (ss 17) (ss 4)) = true ∧ Clean c (.forkw head0 (ds 10) (ss 17) (ss 4))
      ∧ (c.uni 1 (ss 17) 0).val.toNat = 2)
    ∧ (∃ c, s.issuing (.choose head0 (ds 10) (ss 16) (si 1)) = some c ∧ acts c (.choose head0 (ds 10) (ss 16) (si 1)) = true ∧ Clean c (.choose head0 (ds 10) (ss 16) (si 1))
      ∧ (c.uni 2 (si 1) 0).val.toNat < forkCount (c.uni 1 (ss 16) 0).val)
    ∧ (∃ c, s.issuing (.wdrop head0 (ss 16)) = some c ∧ acts c (.wdrop head0 (ss 16)) = true ∧ Clean c (.wdrop head0 (ss 16)))
    ∧ (∃ c, s.issuing (.launch head0 (ds 10) (ss 4)) = some c ∧ acts c (.launch head0 (ds 10) (ss 4)) = true ∧ Clean c (.launch head0 (ds 10) (ss 4)) ∧ pendingOf s c (.launch head0 (ds 10) (ss 4)) = [])
    ∧ ∃ c, s.issuing (.svc head0 1 (sv 2) (ss 6)) = some c ∧ acts c (.svc head0 1 (sv 2) (ss 6)) = true ∧ Clean c (.svc head0 1 (sv 2) (ss 6)) ∧ c.depth = 0 := by
  unfold Clean
  exact ⟨meets _ _ (by decide +kernel), meets _ _ (by decide +kernel), meets _ _ (by decide +kernel), meets _ _ (by decide +kernel), meets _ _ (by decide +kernel)⟩

-- accesses at their homes, engines and the matrix unit at work

/-- The state after a step, for a step that answers one. -/
def after (i : Instr) (s : State) : State :=
  match exec i s with
  | .next t => t
  | _ => s
/-- The same with operation 1, the first that comes after `s0`, changed, and `d` clocks later. -/
def upOne (d : Nat) (f : Op → Op) (s : State) : State :=
  { s with now := s.now + d, ops := (s.ops.find 1).elim s.ops fun o => s.ops.put 1 (f o) }

/-- LoadsReturn: a load of every lane, sent; the same once its values have been read; and one of the local store that has waited. -/
theorem meets_LoadsReturn :
    let s := after (.ld head0 false .s8 (dv 1) (sv 2) mc0) (sm id)
    s.Inv ∧ (s.groups.find 0).isSome = true
    ∧ (∃ o, s.ops.find 1 = some o ∧ (o.dest = 0 ∧ o.ins = .ld head0 false .s8 (dv 1) (sv 2) mc0 ∧ o.ins.dst?.isSome = true ∧ o.st = .sent ∧ o.after = [] ∧ o.held = []
      ∧ o.accs.length = 32 ∧ (o.accs.map Acc.lane).Nodup ∧ (∀ a ∈ o.accs, ∀ b ∈ o.accs, a.pageD.swm = true → b.pageD.swm = false → secOf a.pa ≠ secOf b.pa)
      ∧ ∀ a ∈ o.accs, a.lane < 32 ∧ a.done = false ∧ AtHome s o a ∧ a.dat = []) ∧ Roomy s o)
    ∧ (∀ o, NothingMarked s o)
    ∧ (∃ o, (upOne 0 (fun o => { o with st := .performed }) s).ops.find 1 = some o ∧ o.st = .performed)
    ∧ ∃ o, (upOne 0 (fun o => { o with ins := .ld head0 true .s8 (dv 1) (sv 8) mc0, st := .waiting }) s).ops.find 1 = some o ∧ o.st = .waiting ∧ o.after = []
      ∧ (s.teams.find o.team).isSome = true := by
  unfold AtHome
  exact ⟨inv_of (by decide +kernel), by decide +kernel, meetsRoomy _ _ (by decide +kernel), fun _ => noMark_of (by decide +kernel), meets _ _ (by decide +kernel),
    meets _ _ (by decide +kernel)⟩

/-- A global store of every lane, `d` clocks after its issue. -/
def ss1 (d : Nat) : State := upOne d id (after (.st head0 false .w64 (sv 2) (sv 4) mc0) (sm id))

/-- StoreBufferSends: within the 48 clocks and at their end; behind another operation; local stores, atomics on both sides, and a copy. -/
theorem meets_StoreBufferSends :
    let opens := fun (s : State) (p : Op → Bool) => ((s.ops.find 1).any fun o => p o && o.st = .buffered 48) = true
    (ss1 0).Inv ∧ opens (ss1 0) (fun o => o.after = []) ∧ (ss1 47).now = 47 ∧ (ss1 48).now = 48
    ∧ opens (upOne 48 (fun o => { o with after := [9] }) (ss1 0)) (fun o => o.after ≠ [])
    ∧ opens (upOne 48 id (after (.st head0 true .w32 (sv 8) (sv 2) mc0) (sm id))) (fun o => o.ins = .st head0 true .w32 (sv 8) (sv 2) mc0)
    ∧ opens (after (.red head0 false .add false (sv 2) (sv 4) mc0) (sm id)) (fun o => isAtomic o.ins && !genLocal o.ins)
    ∧ opens (after (.red head0 true .add false (sv 8) (sv 4) mc0) (sm id)) (fun o => isAtomic o.ins && genLocal o.ins)
    ∧ opens (after (.cpy head0 .gl (ds 6) (ss 4) (ss 16) (ss 7)) (su [64])) (fun o => o.after = []) :=
  ⟨inv_of (by decide +kernel), by decide +kernel, by decide +kernel, by decide +kernel, by decide +kernel, by decide +kernel, by decide +kernel, by decide +kernel, by decide +kernel⟩

/-- StoresReachMemory: a store of 32 lanes whose homes answer and permit it, with a poisoned sector; and one that covers its sectors, two of them poisoned. -/
theorem meets_StoresReachMemory :
    let s := upOne 48 (fun o => { o with st := .sent }) (ss1 0)
    let bad := fun (s : State) => { s with mem := { s.mem with bad := (s.mem.bad.put 0x410 0x100).put 0x411 0x200 } }
    let dense := upOne 0 (fun o => { o with accs := o.accs.map fun a => { a with adr := 0x10400 + 8 * a.lane } }) s
    let ok := fun (s : State) (c : Bool) => s.Inv ∧ NoEarly s 0 ∧ ∃ o, s.ops.find 1 = some o ∧ (o.ins = .st head0 false .w64 (sv 2) (sv 4) mc0 ∧ o.frame = 0 ∧ o.st = .sent ∧ o.accs.length = 32
      ∧ (∀ x ∈ o.accs, x.done = false ∧ AtHome s o x ∧ writePermitted s o false x = true ∧ writeView o x = 0 ∧ x.pageD.swm = false ∧ x.pa % 8 = 0 ∧ x.dat.length = 2
        ∧ ∀ e ∈ x.dat, e.poi = false) ∧ ∀ x ∈ o.accs, coversSector o.accs 8 (secOf x.pa) = c) ∧ Roomy s o
    ok (bad s) false ∧ ok (bad dense) true := by
  unfold AtHome
  exact ⟨⟨inv_of (by decide +kernel), noEarly_of (by decide +kernel), meetsRoomy _ _ (by decide +kernel)⟩,
    ⟨inv_of (by decide +kernel), noEarly_of (by decide +kernel), meetsRoomy _ _ (by decide +kernel)⟩⟩

/-- AtomicsReachMemory: a fetch-and-add of every lane, one on a cell, and one whose values have been read. -/
theorem meets_AtomicsReachMemory :
    let atHome := fun (s : State) (n : Nat) => s.Inv ∧ NoEarly s 0 ∧ (∀ o, NothingMarked s o) ∧ ∃ o, s.ops.find 1 = some o ∧ isAtomic o.ins = true ∧ genLocal o.ins = false ∧ accBytes o.ins = n ∧ o.frame = 0 ∧ o.st = .sent ∧ o.dest ≠ 2 ^ 30
      ∧ o.accs ≠ [] ∧ (∀ x ∈ o.accs, x.done = false ∧ AtHome s o x ∧ writePermitted s o true x = true ∧ o.view = 0 ∧ x.pa % n = 0 ∧ s.mem.bad.find (secOf x.pa) = none
        ∧ (s.mem.num x.pa 64).testBit 499 = false) ∧ (o.accs.map Acc.pa).Nodup
    let lane5 := fun (s : State) => { s with groups := (s.groups.find 0).elim s.groups fun g => s.groups.put 0 { g with threads := tab32 fun n => if n = 5 then g.th n else { g.th n with st := .exited } } }
    atHome (upOne 48 (fun o => { o with st := .sent }) (after (.atom head0 false .add false (dv 1) (sv 2) (sv 4) mc0) (sm id))) 4
    ∧ atHome (upOne 48 (fun o => { o with st := .sent }) (after (.xrd head0 true (dv 1) (ss 4) mc0) (lane5 (sm id)))) 64
    ∧ ∃ o, (upOne 48 (fun o => { o with st := .performed }) (after (.atom head0 false .add false (dv 1) (sv 2) (sv 4) mc0) (sm id))).ops.find 1 = some o ∧ o.st = .performed
      ∧ o.ins.dst?.isSome = true := by
  unfold AtHome
  exact ⟨⟨inv_of (by decide +kernel), noEarly_of (by decide +kernel), fun _ => noMark_of (by decide +kernel), meets _ _ (by decide +kernel)⟩,
    ⟨inv_of (by decide +kernel), noEarly_of (by decide +kernel), fun _ => noMark_of (by decide +kernel), meets _ _ (by decide +kernel)⟩, meets _ _ (by decide +kernel)⟩

/-- AtomicArithmetic: values at the borders of its clauses. -/
theorem meets_AtomicArithmetic : f32.num 0x7F800000 = .inf false ∧ f32.num 0x7FC00000 = .nan false ∧ f16.num 1 = .fin false 1 (-24) ∧ leNat (storeBytesOf 8 [clean 1, clean 2]) = 1 + 2 * 2 ^ 32 := by
  decide +kernel

/-- EnginesDeliverAndComplete: a copy of 64 bytes whose one sector is due, and a command with nothing left to move. -/
theorem meets_EnginesDeliverAndComplete :
    let rd : Acc := ⟨0, 0x10400, some placedPage, [], false, []⟩
    let s := upOne 48 (fun o => { o with st := .sent, seg := 1, parts := [⟨0, 0, none, [rd], none, false, false⟩] }) (after (.cpy head0 .gl (ds 6) (ss 4) (ss 16) (ss 7)) (su [64]))
    s.Inv ∧ 1 < streamBase ∧ s.agenda = [] ∧ (s.timers.any fun p => p.2 = .engineDelivery 1 0) = false
    ∧ (∃ o, s.ops.find 1 = some o ∧ o.st = .sent ∧ o.ins = .cpy head0 .gl (ds 6) (ss 4) (ss 16) (ss 7) ∧ o.vals = [clean 0, clean 0x10400, clean 0, clean 64, clean 0xFFFFFFFF] ∧ o.held = []
      ∧ o.seg = (s.cmd o).segs ∧ s.unitStopped o.ctx (.copy o.frame) = false ∧ AtHome s o rd ∧ (readAcc s o rd 64).2 = none ∧ (s.teams.find o.team).isSome = true) ∧ (∀ o : Op, Roomy s { o with accs := [rd] })
    ∧ ∃ o, (upOne 0 (fun o => { o with parts := [] }) s).ops.find 1 = some o ∧ o.dest = o.gid ∧ o.parts = [] ∧ o.held = [] ∧ (s.cmd o).segs ≤ o.seg ∧ o.seg < 2 ^ 40 ∧ o.escape = none ∧ o.after = [] := by
  unfold AtHome
  exact ⟨inv_of (by decide +kernel), by decide +kernel, by decide +kernel, by decide +kernel, meets _ _ (by decide +kernel), fun _ => roomy_nil (by decide +kernel), meets _ _ (by decide +kernel)⟩

/-- MulticastMerges: no entry, one that opened less than 4,000 clocks ago, and one whose stream has ended. -/
theorem meets_MulticastMerges :
    let s := after (.tld head0 true (ds 6) (ss 16) (ss 32) (ss 34)) (su (rec16 ++ [0, 0, 0xFFFFFFFF, 1]))
    let e := fun (o : Op) => (⟨0, mergeKey o, 0, [(7, 0)], [0x410], 0, 0, 0, 0⟩ : Merge)
    let s2 := fun o => { s with now := 3999, merge := s.merge.put 3 (e o) }
    let joins := fun (s : State) o => s.merge.find? fun kv => kv.2.slice = 0 && kv.2.key = mergeKey o && s.now < kv.2.opened + 4000
    ((s.ops.find 1).any fun o => joins s o = none && joins (s2 o) o = some (3, e o) && ({ e o with sent := 1 } : Merge).resends.length = 0) = true := by decide +kernel

/-- The matrix queue of frame 0 with one operation of the placed team, started or not. -/
def sx (i : Instr) (start : Option Nat) (s : State) : State :=
  let t := after i s
  { t with now := 100, mxq := (t.mxq.find 0).elim t.mxq fun l => t.mxq.put 0 (l.map fun q => { q with start := start, finish := 90 }) }

/-- One matrix operation of the placed team at the unit of frame 0, in a state that meets the invariant. -/
structure MxReady (s : State) (i : Instr) (b : Option Nat) : Prop where
  inv : s.Inv
  q : s.mxq.find 0 = some [⟨1, 0, false, b, 90, false, [], [], []⟩] ∧ 90 ≤ s.now
  o : ∃ o, s.ops.find 1 = some o ∧ o.ins = i ∧ o.frame = 0 ∧ o.dest = o.gid ∧ s.unitStopped o.ctx (.matrix 0) = false
    ∧ (s.ctxs.find o.ctx).all (fun x => x.run = .resident) = true
  rest : s.seen.findD 33554432 0 ≤ s.now ∧ s.teams.find 0 = some placedTeam

/-- MatrixUnitMoves and MatrixProducts: an operation that waits, one that is due, and an `MMA` with its operand map and its tile. -/
theorem meets_MatrixUnitMoves_start : MxReady (sx (.azro head0 (dt 32)) none s0) (.azro head0 (dt 32)) none :=
  ⟨inv_of (by decide +kernel), by decide +kernel, meets _ _ (by decide +kernel), by decide +kernel⟩
theorem meets_MatrixUnitMoves : MxReady (sx (.tldb head0 (dt 3) (si 0)) (some 50) s0) (.tldb head0 (dt 3) (si 0)) (some 50) :=
  ⟨inv_of (by decide +kernel), by decide +kernel, meets _ _ (by decide +kernel), by decide +kernel⟩
/-- The same with a start of its own, for the forms whose effect comes at the completion, and an `ARD` that is due to answer. -/
theorem meets_MatrixUnitMoves_late :
    let q := fun (i : Instr) (l : Bool) => let s := sx i (some 50) s0; { s with mxq := (s.mxq.find 0).elim s.mxq fun m => s.mxq.put 0 (m.map fun q => { q with late := l }) }
    (((q (.azro head0 (dt 32)) true).mxq.find 0).any fun m => m.all MxOp.late) = true ∧ AMap.wf placedTeam.accs = true
    ∧ (((q (.ast head0 (si 0) ⟨false, .ta, 32⟩) true).ops.find 1).any fun o => o.vals.length = 1 && (o.vals.getD 0 (clean 1)).poi = false) = true ∧ 8192 ≤ placedTeam.lsBytes
    ∧ (((upOne 0 (fun o => { o with vals := o.vals ++ List.replicate 2048 (clean 0) }) (q (.ast head0 (si 0) ⟨false, .ta, 32⟩) false)).ops.find 1).any fun o => o.vals.length = 2049) = true
    ∧ ((sx (.ard head0 (dv 1) ⟨false, .ta, 32⟩ (si 63)) (some 50) s0).ops.find 1).any (fun o => o.seg = 0 && o.vals.length = 1 && o.ins.dst?.isSome && o.accs.all fun y => y.dat = []) = true
    ∧ (((sx (.ard head0 (dv 1) ⟨false, .ta, 32⟩ (si 63)) (some 50) s0).mxq.find 0).any fun m => m.all fun q => !q.late && q.start.isSome && q.finish ≤ 107) = true := by
  refine ⟨?_, ?_, ?_, ?_, ?_, ?_, ?_⟩ <;> decide +kernel
theorem meets_MatrixProducts :
    MxReady (sx (.mma head0 (dt 32) (ss 16) ⟨false, .ta, 3⟩) (some 50) (su [0, 512, 0, 0x22])) (.mma head0 (dt 32) (ss 16) ⟨false, .ta, 3⟩) (some 50)
    ∧ (OpMap.ofWords 0 512 0 0x22).shape.isSome = true :=
  ⟨⟨inv_of (by decide +kernel), by decide +kernel, meets _ _ (by decide +kernel), by decide +kernel⟩, by decide +kernel⟩

-- queues, nodes and teams

/-- Bytes of memory set to a number, little-endian. -/
def withNum (a n x : Nat) (s : State) : State := { s with mem := storeBytes s.mem a (leBytes n x) }
/-- An RCB of one small team. -/
def rcb1 : Nat := 0x10000 + 2 ^ 320 + 2 ^ 389 + 2 ^ 395 + 2 ^ 448 + 512 * 2 ^ 457 + 0x3FF * 2 ^ 544
/-- Partition 0 enabled for context 0; queue 0 with a ring of 16 at VA 0x11000, `RDIDX` 0 and the given `WRIDX`; a packet of the given type for the RCB at
VA 0x12000 in its first slot. -/
def sk (wr ty : Nat) : State :=
  withNum 0x12000 128 rcb1 (withNum 0x11000 64 (ty + 0x12000 * 2 ^ 64) (withNum 0 64 (0x11000 + 4 * 2 ^ 64 + wr * 2 ^ 192) { s0 with sys := s0.sys.put (offPARTCFG 0) 1 }))

/-- QueuesLaunchNodes: kicks that change nothing, one that is accepted, a NODE and a QFENCE packet, and a fence whose signal can be written. -/
theorem meets_QueuesLaunchNodes :
    let g : Signal := ⟨0x13000, 7, true, 0, 0, 0, 0⟩
    let waits := fun (s : State) => { s with queues := s.queues.put 0 { s.queueOf 0 with due := true } }
    let sf : State := { sk 1 2 with queues := (sk 1 2).queues.put 0 ⟨[], some g, false⟩ }
    (sk 0 1).Inv ∧ (sk 1 1).Inv ∧ (sk 0 1).qd 0 86 80 ≠ 1
    ∧ ((sk 0 1).ctxPaired 0 = false ∧ (sk 0 1).qd 0 257 256 = 0 ∧ (sk 0 1).funcHolds ((sk 0 1).qd 0 86 80) = true ∧ (sk 0 1).ctxParts ((sk 0 1).qd 0 111 96) ≠ []
      ∧ (sk 0 1).qd 0 68 64 = 4 ∧ (sk 0 1).qd 0 11 0 = 0 ∧ (sk 0 1).qd 0 255 192 < 16 ∧ 16 ≤ (sk 0 1).qd 0 191 128 + 2 ^ (sk 0 1).qd 0 68 64 ∧ (sk 0 1).power = .up
      ∧ ∀ k < 64, (sk 0 1).mem.bad.find (secOf ((sk 0 1).qdAt 0 + k)) = none)
    ∧ ((sk 1 2).queueGoes 0 = true ∧ ((sk 1 2).packet 0).any (fun x => packetOk x && bitsOf x 7 0 = 2) = true ∧ (sk 1 2).ctxs.find 0 = some placedCtx ∧ placedCtx.visitAt ≤ (sk 1 2).now
      ∧ (waits (sk 1 2)).nextDue 0 placedCtx = some 0
      ∧ (waits { sk 1 2 with queues := (sk 1 2).queues.put 1 ⟨[], none, true⟩ }).nextDue 0 { placedCtx with turn := 0 } = some 1)
    ∧ ((sk 1 1).queueGoes 0 = true ∧ ((sk 1 1).packet 0).any (fun x => packetOk x && bitsOf x 7 0 = 1 && bitsOf x 127 64 = 0x12000) = true ∧ (sk 1 1).unfinished 0 < 4096
      ∧ (sk 1 1).nodeAt 0 0x12000 = none ∧ ((sk 1 1).readRcb 0 0 0x12000 true).toOption.any (fun b =>
        launchable (sk 1 1) 0 0x12000 b (Rcb.ofBytes b) (effective ((sk 1 1).pceil 0) (Rcb.ofBytes b) none) (parentOf (sk 1 1) 0 (Rcb.ofBytes b).parent none)) = true ∧ (waits (sk 1 1)).nextDue 0 placedCtx = some 0)
    ∧ ((sf.queueOf 0).fence = some g ∧ sf.queueDrained 0 = true ∧ (sf.ctxs.find 0).any (fun c => c.run = .resident) = true ∧ (sf.deviceWrite (sf.leadFrame 0) 0 g.va).toOption = some 0x13000
      ∧ ∀ k < 8, sf.mem.bad.find (secOf (0x13000 + k)) = none) :=
  ⟨inv_of (by decide +kernel), inv_of (by decide +kernel), by decide +kernel, by decide +kernel, by decide +kernel, by decide +kernel, by decide +kernel⟩

/-- A READY node without a team, in a context with no team. -/
def sr : State :=
  { s0 with groups := [], teams := [], nodes := s0.nodes.put 0 { placedNode with st := .ready, tnext := 0, eff := { placedRcb with gang := false, vgr := 1, sgr := 1, lgr := 0 } } }

/-- TeamsComeAndGo: a READY node that a frame fits, a head that has waited 20 µs, a team about to start, and a group that has finished. -/
theorem meets_TeamsComeAndGo :
    let done := sg fun g => { g with threads := tab32 fun n => { g.th n with st := .exited } }
    sr.Inv ∧ (∃ c, sr.ctxs.find 0 = some c ∧ c.run = .resident ∧ (sr.placeable 0).map Prod.fst = [0] ∧ (sr.nodes.find 0).any (fun n => n.st = .ready && !n.eff.gang && !n.eff.guarded
        && sr.canPlace 0 n && (sr.frameFor c 0 n.eff).isSome) = true ∧ c.limit = none ∧ sr.nextStart 0 = sr.now
        ∧ ({ sr with teams := sr.teams.put 7 { placedTeam with startAt := 5 } } : State).nextStart 0 ≠ sr.now)
    ∧ (({ placedCtx with headAt := some (0, 5) } : Ctx).headAt = some (0, 5) ∧ 5 + 20000 ≤ 20005)
    ∧ (let s : State := { s0 with groups := [], teams := s0.teams.put 0 { placedTeam with started := false, groups := [] } }
       (s.teams.find 0).any (fun tm => !tm.started && tm.groups = [] && decide (tm.frame < 256)) = true ∧ (s.nodes.find 0).any (fun n => n.ctx = 0 && decide (n.eff.groups ≤ 32)) = true ∧ s.groups = [])
    ∧ done.Inv ∧ ∃ g, done.groups.find 0 = some g ∧ g.finished = true ∧ (done.teams.find g.team).any (fun tm => tm.groups = [0] && !done.resizing tm.frame) = true :=
  ⟨inv_of (by decide +kernel), meets _ _ (by decide +kernel), by decide +kernel, by decide +kernel, inv_of (by decide +kernel), meets _ _ (by decide +kernel)⟩

/-- SwapsExchangeGroups: a group held for 17 clocks, one resident for 64, and one outranked, each with a ready pending group on its rod. -/
theorem meets_SwapsExchangeGroups :
    let p := fun (prio : Nat) => { placedGroup 0 with active := none, idx := 16, csr := { (placedGroup 0).csr with prio := prio } }
    let s := fun (now prio : Nat) (f : Group → Group) => { s0 with now := now, groups := (s0.groups.put 0 (f (placedGroup 0))).put 16 (p prio) }
    let a := s 17 0 (fun g => { g with hold := .sleep 500 })
    let b := s 64 0 id
    let c := s 5 9 id
    let next := fun (s : State) => (s.nextIn 0).map Prod.fst = some 16
    (next a ∧ (a.groups.find 0).any (heldLong a) = true) ∧ (next b ∧ (b.groups.find 0).any (residenceOver b) = true) ∧ next c ∧ c.outranked 0 = some 0 := by decide +kernel

/-- NodesFinish: a plain node, a rival and a guarded node, each joining with nothing left to do. -/
theorem meets_NodesFinish :
    let s := fun (n : Node) => { s0 with groups := [], teams := [], nodes := s0.nodes.put 0 n }
    let n := { placedNode with st := .joining, tdone := 1 }
    let r := { n with rival := some (0, 1) }
    let g := { n with eff := { placedRcb with guarded := true }, priv := some 1 }
    let ready := fun n => (s n).nodes.find 0 = some n ∧ (s n).kidsFinished 0 = true ∧ (s n).nodeBusy 0 = false ∧ n.st = .joining
    (s n).Inv ∧ ready n ∧ ready r ∧ ready g ∧ (s g).commitFits ((s g).lead 0) 1 = true :=
  ⟨inv_of (by decide +kernel), by decide +kernel, by decide +kernel, by decide +kernel, by decide +kernel⟩

/-- NodesFinish: a commit with one sector left: unchanged, poisoned, and changed in the parent. -/
theorem meets_NodesFinish_commit :
    let v := fun (c : VSec) => (⟨0, 1, 0, 1, false, some 0, some [0x500], [(0x500, c)]⟩ : View)
    let s := fun (c : VSec) => { s0 with views := s0.views.put (viewKey 0 1) (v c) }
    let ok := fun (c : VSec) => (s c).Inv ∧ (s c).nodes.find 0 = some placedNode ∧ ((s c).views.find? fun kv => kv.2.node = some 0 && (kv.2.commit.getD []) ≠ []) = some (viewKey 0 1, v c)
      ∧ (s c).views.find (viewKey 0 1) = some (v c) ∧ AMap.wf (v c).secs = true ∧ (v c).secs.find 0x500 = some c ∧ c.bytes.length = 64
    let b := List.replicate 64 (7 : Byte)
    ok ⟨b, none, false, none, 0⟩ ∧ ok ⟨b, some 0x300, false, none, 0⟩ ∧ ok ⟨b, none, true, none, 0⟩ ∧ (s ⟨b, none, true, none, 0⟩).csrBits offEQCTL 5 5 = 0 :=
  ⟨⟨inv_of (by decide +kernel), by decide +kernel⟩, ⟨inv_of (by decide +kernel), by decide +kernel⟩, ⟨inv_of (by decide +kernel), by decide +kernel⟩, by decide +kernel⟩

/-- TeamsComeAndGo: a head that limits the other teams. -/
theorem meets_TeamsComeAndGo_limit : ({ s0 with nodes := s0.nodes.put 1 { placedNode with st := .ready, tnext := 0 } } : State).limits (1, 0) = true
    ∧ (1, 0) ≠ (placedTeam.node, placedTeam.index) := by decide +kernel


-- maintenance, world operations, homes, links and supervisor commands at work

/-- An operation of the group of `s0`, sent, with operand values. -/
def op1 (i : Instr) (vals : Lanes) : Op := { op0 i with pc := 0x10000, vals := vals }
/-- `s` with operation 1. -/
def withOp (o : Op) (s : State) : State := { s with ops := s.ops.put 1 o, ids := 2 }
/-- `n` bytes 0. -/
def zeros (n : Nat) : List Byte := List.replicate n 0

/-- MaintenanceCompletes: a `CRESZ` refused (over 15) and performed; `CFLUSH` of a dirty sector and of all; `TLBI` at its three points; a full/empty
wait before and after its limit. -/
theorem meets_MaintenanceCompletes :
    let czo := fun v => op1 (.cresz head0 (ds 4) (si 8)) [clean v]
    let l1 : AMap Sector := [(1, ⟨zeros 64, none, true, 3⟩)]
    let cf := fun (n : Elem) => withOp (op1 (.cflush head0 true (ss 4) (si 0)) [clean 0, clean 0, n]) { s0 with l1 := s0.l1.put 0 l1 }
    let tlo := { op1 (.tlbi head0 .pg (ss 4) (si 3)) [clean 3, clean 0, clean 0] with moved := 1 }
    let tl := fun o l => withOp o (sg fun g => { g with hold := .op 1, s := l })
    let use := { op1 (.ld head0 false .w32 (dv 1) (sv 2) mc0) [] with accs := [⟨0, 0x10000, some placedPage, [], false, []⟩] }
    let fw := fun now => withOp (op1 (.ld head0 true .w32 (dv 1) (sv 2) mc0) []) { (sg fun g => { g with hold := .fewait 1 0, csr := { g.csr with tvec := 0x20000 } }) with now := now }
    ((withOp (czo 3) s0).Inv ∧ (withOp (czo 3) s0).groups.find 0 = some (placedGroup 0) ∧ earlierCresz (withOp (czo 3) s0) 1 (czo 3) = false)
    ∧ (creszRefused s0 0 16 = true ∧ creszRefused s0 0 15 = false ∧ s0.storeWays 0 < 15 ∧ AMap.wf l1 = true)
    ∧ (cf (clean 0)).Inv ∧ ((cf ⟨0, true⟩).mig = [] ∧ AMap.wf l1 = true ∧ ((cf (clean 0)).beadsOf 0 1).hold.find 0 = none ∧ (l1.find 1).any (fun x => x.dirty && x.bytes.length = 64) = true)
    ∧ (tl tlo []).Inv ∧ (((tl tlo []).groups.find 0).map Group.hold = some (.op 1) ∧ tlo.seg = 0 ∧ stillUses (tl tlo []) { tlo with seg := 1 } 1 = false
      ∧ stillUses ({ tl tlo [] with ops := (tl tlo []).ops.put 0 use }) { tlo with seg := 1, vals := [clean 0, clean 0x10000, clean 0] } 1 = true)
    ∧ (fw 0).Inv ∧ ∃ g, (fw 0).groups.find 0 = some g ∧ g.hold = .fewait 1 0 ∧ CanTrap g ∧ (fw 0).now ≤ 0 + (fw 0).fetmo (partOf g.frame) ∧ 0 + (fw 0x10000000).fetmo (partOf g.frame) < (fw 0x10000000).now := by
  unfold CanTrap
  exact ⟨⟨inv_of (by decide +kernel), by decide +kernel, by decide +kernel⟩, by decide +kernel, inv_of (by decide +kernel), by decide +kernel, inv_of (by decide +kernel), by decide +kernel,
    inv_of (by decide +kernel), meets _ _ (by decide +kernel)⟩

/-- A region control block as in QueuesLaunchNodes, at VA 0x12000. -/
def sr1 : State := withNum 0x12000 128 rcb1 s0
/-- Its fields. -/
def rcb1r : Rcb := Rcb.ofBytes (leBytes 128 rcb1)
/-- A fork of two rivals, complete, with its views. -/
def sk2 : State :=
  let n := { placedNode with st := .complete, tdone := 1, parent := some 0 }
  { s0 with forks := s0.forks.put 0 ⟨true, 0, 1, 0, 0, [10, 11], [1, 2]⟩, nodes := (s0.nodes.put 10 { n with rival := some (0, 0), view := 1 }).put 11 { n with rival := some (0, 1), view := 2 },
            views := (s0.views.put (viewKey 0 1) ⟨0, 1, 0, 1, false, none, none, []⟩).put (viewKey 0 2) ⟨0, 2, 0, 1, false, none, none, []⟩ }

/-- WorldCallsRetire: launches of an unreadable, a registered and a new node; a fork of one rival; a choice of a complete rival and its end, and calls
with dead handles. -/
theorem meets_WorldCallsRetire :
    let la := fun (a : Word) (s : State) => withOp (op1 (.launch head0 (ds 10) (ss 4)) [clean a, clean 0]) s
    let dup : State := { sr1 with nodes := sr1.nodes.put 3 { placedNode with rcbva := 0x12000 } }
    let fo := op1 (.forkw head0 (ds 10) (ss 17) (ss 4)) [clean 1, clean 0x12000, clean 0]
    let f := withOp fo sr1
    let e := effective (f.pceil 0) rcb1r (some placedRcb)
    let co := op1 (.choose head0 (ds 10) (ss 16) (si 1)) [clean 0x440, clean 1]
    let c := withOp co sk2
    let wo := op1 (.wdrop head0 (ss 16)) [clean 0x440]
    (la 0x40000 s0).Inv ∧ (((la 0x40000 s0).readRcb 0 0 0x40000 true).toOption = none ∧ (la 0x12000 dup).unfinished 0 < 4096 ∧ ((la 0x12000 dup).readRcb 0 0 0x12000 true).toOption.isSome = true ∧ ((la 0x12000 dup).nodeAt 0 0x12000).isSome = true
      ∧ ((la 0x12000 sr1).readRcb 0 0 0x12000 true).toOption.isSome = true ∧ (la 0x12000 sr1).nodeAt 0 0x12000 = none)
    ∧ f.Inv ∧ (f.nodeOf fo = some 0 ∧ (f.readRcb 0 0 0x12000 false).toOption.map Rcb.ofBytes = some rcb1r ∧ f.unfinished 0 + 1 ≤ 4096
      ∧ (f.readRcb 0 0 0x12000 false).toOption.any (fun x => launchable f 0 0x12000 x rcb1r { e with guarded := false } (some (some 0))) = true
      ∧ f.viewDepth (f.lead 0) 0 + 1 ≤ 4 ∧ (f.ancestry f.nodes.length 0).all (fun a => (f.nodes.find a).elim true fun m => f.viewsOf a + 1 ≤ m.eff.bview) = true
      ∧ f.forks.find 0 = none ∧ (takeViews f 0 1).isSome = true)
    ∧ c.Inv ∧ (c.forkAt 0 co.handle = some 0 ∧ s0.forkAt 0 co.handle = none ∧ c.insideFork 0 0 = false ∧ c.behindWorldOp 1 co = false ∧ co.st = .sent ∧ co.seg = 0
      ∧ (c.rivalNode 0 1).any (fun m => m.2.st = .complete) = true ∧ c.commitFits 0 2 = true)
    ∧ (wo.handle = 0x440 ∧ (withOp wo sk2).behindWorldOp 1 wo = false) := by
  exact ⟨inv_of (by decide +kernel), by decide +kernel, inv_of (by decide +kernel), ⟨by decide +kernel, by decide +kernel, by decide +kernel, by decide +kernel, by decide +kernel, by decide +kernel, by decide +kernel, rfl⟩,
    inv_of (by decide +kernel), by decide +kernel, by decide +kernel⟩

/-- MaintenanceCompletes and WorldCallsRetire: a `FESET` at its end; a choice of a rival that still runs, and one in each of its later states. -/
theorem meets_CompletesLater :
    let fe := { op1 (.feset head0 true true (si 16) (si 8)) [clean 16, clean 8] with moved := 1 }
    let co := op1 (.choose head0 (ds 10) (ss 16) (si 1)) [clean 0x440, clean 1]
    let run : State := { sk2 with nodes := sk2.nodes.put 11 { placedNode with st := .running, parent := some 0, rival := some (0, 1), view := 2 } }
    ((withOp fe { s0 with now := 9 }).ops.find 1 = some fe ∧ fe.after = [] ∧ fe.moved ≠ 0 ∧ fe.moved ≤ 9)
    ∧ ((withOp co run).rivalNode 0 1).any (fun m => !m.2.st.finished && m.2.st ≠ .complete) = true
    ∧ ∀ k ∈ [1, 2, 3], (withOp { co with seg := k } sk2).forkAt 0 co.handle = some 0 ∧ (withOp { co with seg := k } sk2).behindWorldOp 1 { co with seg := k } = false := by
  refine ⟨?_, ?_, ?_⟩ <;> decide +kernel


/-- A directory with one sector of the first line recorded. -/
def dirS (st : DirSt) (l : List Agent) (s : State) : State := { s with dir := s.dir.put 0 ⟨[⟨.i, []⟩, ⟨st, l⟩, ⟨.i, []⟩, ⟨.i, []⟩], 0⟩ }

/-- HomesServeAndBeadsMove: a stamp that has passed; a sector that nobody holds, one held by the asker and by another, a write that the firewall refuses, a
write-back by the owner and by another, and snoops answered for a request that waits. -/
theorem meets_HomesServeAndBeadsMove :
    let a : Agent := .rdc 0 0
    let quiet := fun (s : State) (n : Nat) w => s.migAt (64 * n) false = none ∧ s.migAt (64 * n) true = none ∧ (s.transOf n).cur = none ∧ s.unswept n = false
      ∧ s.awaited (some a) w n = []
    let d := fun st (l : List Agent) => dirS st l s0
    let fw := withNum 0 8 3 s0
    let w : Waiting := ⟨.rdc 0 1, .readShared ⟨.rdc 0 1, 0⟩ false 1, some 5⟩
    let tr := fun (a : Agent) => { d .m [a] with trans := s0.trans.put 1 ⟨some w, [a], []⟩ }
    s0.Inv ∧ s0.power ≠ .held ∧ 0 < ({ s0 with now := 5 } : State).ftime ∧ s0.ftime ≤ 9 ∧ (s0.deadCell (s0.cellOf (Agent.pkg a)) = false ∧ quiet s0 1 false ∧ quiet s0 1 true
      ∧ s0.admits a 64 = true ∧ s0.absentAt 64 = false ∧ (s0.dirOf 1).st = .i ∧ ∀ k < 8, s0.mem.bad.find (secOf (64 + k)) = none)
    ∧ (d .e [a]).Inv ∧ (quiet (d .e [a]) 1 false ∧ quiet (d .s [.rdc 0 1]) 1 false ∧ quiet (d .s [.rdc 0 1]) 1 true ∧ ((d .e [a]).dirOf 1).holders = [a] ∧ a ∉ ((d .e [a]).transOf 1).await
      ∧ ((d .s [.rdc 0 1]).dirOf 1).holders ≠ [a] ∧ (d .e [a]).ownHome 1 = true ∧ (d .e [a]).migAt 64 true = none)
    ∧ fw.Inv ∧ (quiet fw 1 true ∧ fw.admits a 64 = false)
    ∧ (tr a).Inv ∧ ((tr a).trans.find 1 = some ⟨some w, [a], []⟩ ∧ w.op = some 5 ∧ ((tr a).dirOf 1).st ≠ .i ∧ (tr a).ownHome 1 = true ∧ a ∈ ((tr a).dirOf 1).holders
      ∧ (tr (.host 0)).ownPkg = 0 ∧ (tr (.host 0)).deadCell ((tr (.host 0)).cellOf 0) = false) :=
  ⟨inv_of (by decide +kernel), by decide +kernel, by decide +kernel, by decide +kernel, by decide +kernel, inv_of (by decide +kernel), by decide +kernel,
    inv_of (by decide +kernel), by decide +kernel, inv_of (by decide +kernel), by decide +kernel⟩

/-- HomesServeAndBeadsMove: a sector of another package that the die holds dirty, has written back, and does not hold. -/
theorem meets_HomesServeAndBeadsMove_peer :
    let s : State := { s0 with regions := ⟨2 ^ 42, 2 ^ 37, 1, 0, 0⟩ :: s0.regions }
    let x := 2 ^ 36
    let h : State := { s with dir := s.dir.put (2 ^ 34) ⟨[⟨.m, [.rdc 0 2]⟩, ⟨.i, []⟩, ⟨.i, []⟩, ⟨.i, []⟩], 0⟩ }
    let b : State := { s with seen := s.seen.put (backKey 2 x) 1 }
    h.Inv ∧ b.Inv ∧ x < 2 ^ 46 ∧ (h.homeOf x).map Region.pkg = some 1 ∧ h.ownPkg = 0 ∧ h.deadCell (h.cellOf 1) = false ∧ (.rdc 0 2 ∈ (h.dirOf x).holders ∧ (h.dirOf x).st = .m)
    ∧ .rdc 0 2 ∉ (b.dirOf x).holders ∧ (b.seen.find (backKey 2 x)).isSome = true ∧ (s.seen.find (backKey 2 x)).isSome = false :=
  ⟨inv_of (by decide +kernel), inv_of (by decide +kernel), by decide +kernel, by decide +kernel, by decide +kernel, by decide +kernel, by decide +kernel, by decide +kernel, by decide +kernel, by decide +kernel⟩

/-- HomesServeAndBeadsMove: frames without beads, with some, and with all; attempts that go on and the last; an active request with an access that awaits it, and with
none; a sector in an L1 and in an RDC. -/
theorem meets_HomesServeAndBeadsMove_beads :
    let b (l : AMap Nat) (o : Option Nat) : State := { s0 with beads := s0.beads.put (beadKey 0 1) ⟨l, o⟩ }
    let r (q : BeadReq) (s : State) : State := { s with breqs := s.breqs.put (breqKey 0 1) q }
    let ld := withOp { op1 (.ld head0 false .w32 (dv 1) (sv 2) mc0) [] with accs := [⟨0, 0x10040, some { placedPage with pa := 0 }, [], false, []⟩] }
    let x : Sector := ⟨zeros 64, none, true, 3⟩
    let e : State := { s0 with l1 := s0.l1.put 0 [(1, x)], rdc := s0.rdc.put 2 [(1, x)] }
    (s0.Inv ∧ beadsEnough s0 0 1 true = false ∧ s0.breqs.find (breqKey 0 1) = none ∧ AMap.wf (s0.beadsOf 0 1).hold = true)
    ∧ ((b [(0, 64)] (some 0)).Inv ∧ beadsEnough (b [(0, 64)] (some 0)) 0 1 true = true)
    ∧ (r ⟨true, 1, false, 0, false⟩ s0).Inv ∧ beadsEnough (r ⟨true, 1, false, 0, false⟩ s0) 0 1 true = false ∧ ((r ⟨true, 4, false, 0, false⟩ s0).breqs.find (breqKey 0 1)).isSome = true
    ∧ ((b [(1, 3)] none).beadsOf 0 1).Whole
    ∧ (∀ kv ∈ (r ⟨true, 4, false, 0, false⟩ s0).breqs, dieOf (kv.1 % 256) = 0 → kv.2.persist = false ∧ kv.2.active = false)
    ∧ (beadsTaken (r ⟨true, 4, true, 7, true⟩ s0) 0 1 = false ∧ opStep 1 (.ld head0 false .w32 (dv 1) (sv 2) mc0) = some (.loadReturn 1)
      ∧ (((ld s0).ops.find? fun kv => kv.2.frame = 0 && kv.2.st = .sent && kv.2.accs.any fun x => !x.done && x.page.elim false fun p => secOf (p.paOf x.adr) = 1).map Prod.fst) = some 1)
    ∧ ((b [(0, 3)] none).Inv ∧ ((b [(0, 3)] none).beadsOf 0 1).hold.find 0 = some 3)
    ∧ (e.Inv ∧ (e.l1.findD 0 []).find 1 = some x ∧ e.inRdc 0 1 = some (2, x) ∧ e.migAt 64 true = none ∧ AMap.wf (e.rdc.findD 2 []) = true) := by
  unfold Beads.Whole
  exact ⟨⟨inv_of (by decide +kernel), by decide +kernel⟩, ⟨inv_of (by decide +kernel), by decide +kernel⟩, inv_of (by decide +kernel), by decide +kernel, by decide +kernel,
    ⟨by decide +kernel, by decide +kernel, by decide +kernel, (by decide +kernel : (⟨[(1, 3)], none⟩ : Beads).out < 64)⟩, by decide +kernel, by decide +kernel, ⟨inv_of (by decide +kernel), by decide +kernel⟩,
    ⟨inv_of (by decide +kernel), by decide +kernel⟩⟩

/-- LinksCellsAndHost: heartbeats of a package of the own cell and of another, before and after the loss interval, and of a dead cell; a dead cell whose
agent owns a sector; a store and a load that no home answers; a host read and write, refused and performed; a dirty sector in a cache; a
host link that restarts. -/
theorem meets_LinksCellsAndHost :
    let cell := { s0 with sys := s0.sys.put offCELLCFG 0x10001, ports := s0.ports.put 0 .up }
    let dead := { cell with sys := cell.sys.put (offCELLDN 0) 0x100 }
    let own := dirS .m [.rdc 16 0] dead
    let x := { lane := 0, adr := 0x10400, page := some placedPage, dat := [], done := false, res := [] : Acc }
    let nowhere : State := { s0 with regions := [] }
    let ld := fun q => withOp { op1 (.ld head0 false .w32 (dv 1) (sv 2) mc0) [] with accs := [x], asked := [⟨0x410, q, 0⟩] } nowhere
    let sto := fun q s => withOp { op1 (.st head0 false .w32 (sv 2) (sv 2) mc0) [] with accs := [x], asked := [⟨0x410, q, 0⟩] } s
    let peer : State := { dead with regions := [⟨0, 2 ^ 44, 16, 0, 0⟩] }
    let hr : AMap Sector := [(1, ⟨zeros 64, none, true, 3⟩)]
    let rd := { s0 with rdc := s0.rdc.put 0 hr }
    let wm := { s0 with seen := s0.seen.put (warmKey 0) 1 }
    cell.Inv ∧ (cell.lossClocks = 10000 ∧ 1 ≠ cell.ownPkg ∧ 16 ≠ cell.ownPkg ∧ cell.cellOf 1 = cell.cellOf cell.ownPkg ∧ cell.cellOf 16 = 8 ∧ cell.deadCell 8 = false
      ∧ cell.portUp (0 % 16) = true ∧ cell.now < cell.seen.findD 1 0 + cell.lossClocks ∧ 1 ∈ cell.peers)
    ∧ dead.Inv ∧ (dead.deadCell 8 = true ∧ dead.deadCell (32 * 0 + 9) = false ∧ 32 * 0 + 9 ≠ dead.cellOf dead.ownPkg)
    ∧ own.Inv ∧ (own.deadCell 8 = true ∧ 1 ∈ own.namedBy 8 0 ∧ (own.dirOf 1).holders.any (fun a => own.cellOf (Agent.pkg a) = 8 && a ≠ .host (Agent.pkg a)) = true ∧ (own.dirOf 1).st = .m)
    ∧ ({ cell with now := 20000 }.seen.findD 1 0 + 10000 ≤ 20000 ∧ cell.seen.find (lostKey 1) = none ∧ { cell with ports := [] }.upPlanes = [])
    ∧ (∀ q ∈ [AskSt.lost, .refused], (sto q nowhere).Inv) ∧ (∃ o, (sto .lost nowhere).ops.find 1 = some o ∧ o.st = .sent ∧ (sto .lost nowhere).homeSt o true x = .lost)
    ∧ (∃ o, (sto .refused s0).ops.find 1 = some o ∧ (sto .refused s0).homeSt o true x = .refused) ∧ (∃ o, (sto .got peer).ops.find 1 = some o ∧ (sto .got peer).homeSt o true x = .dead 0)
    ∧ (ld .lost).Inv ∧ (∃ o, (ld .lost).ops.find 1 = some o ∧ o.st = .sent ∧ o.held = [] ∧ (o.accs.map Acc.lane).Nodup
      ∧ (∀ a ∈ o.accs, a.lane < 32 ∧ (a.done = false → (∀ w, (ld .lost).homeSt o w a = .lost) ∧ (ld .lost).hostGone a.pa = false ∧ a.dat = []))) ∧ (∀ o, NothingMarked (ld .lost) o)
    ∧ (∃ o, (ld .pending).ops.find 1 = some o ∧ o.asked = [⟨0x410, .pending, 0⟩] ∧ (∃ q ∈ o.reqs, askKey o q.1 = 0x410 ∧ (ld .pending).homeSt o q.2 q.1 = .noPath) ∧ (o.stepOf 1).isSome = true)
    ∧ (s0.mig = [] ∧ s0.trans = [] ∧ s0.ownMemory 0x10000 8 = true ∧ (∀ n ∈ sectorsOf 0x10000 8, s0.unswept n = false ∧ s0.mem.bad.find n = none) ∧ s0.absentAt 0x10000 = false ∧ (sectorsOf 0x10000 8).map (s0.awaited (some s0.hostAgent) true) = [[]]
      ∧ (sectorsOf 0x10000 8).map (s0.awaited (some s0.hostAgent) false) = [[]] ∧ s0.admits s0.hostAgent 0x10000 = true
      ∧ (withNum 0 8 3 s0).admits s0.hostAgent 0x10000 = false)
    ∧ rd.Inv ∧ (AMap.wf hr = true ∧ (rd.inRdc 0 1).elim false (fun p => p.2.dirty) = true ∧ (List.range 4).map (fun d => s0.inRdc d 1) = [none, none, none, none])
    ∧ (s0.seen.find (warmKey 0) = none ∧ (wm.seen.find (warmKey 0)).isSome = true ∧ wm.hostMapped (fun r => r = .cutting) = [])
    ∧ (s0.csrBits offHGCMD 32 32 = 0 ∧ ({ s0 with sys := s0.sys.put offHGCMD 0x100000000 } : State).csrBits offHGCMD 32 32 = 1) := by
  exact ⟨inv_of (by decide +kernel), by decide +kernel, inv_of (by decide +kernel), by decide +kernel, inv_of (by decide +kernel), by decide +kernel, by decide +kernel,
    fun q hq => by
      simp only [List.mem_cons, List.not_mem_nil, or_false] at hq
      obtain rfl | rfl := hq <;> exact inv_of (by decide +kernel),
    meets _ _ (by decide +kernel), meets _ _ (by decide +kernel), meets _ _ (by decide +kernel), inv_of (by decide +kernel), meets _ _ (by decide +kernel),
    fun _ => noMark_of (by decide +kernel), meets _ _ (by decide +kernel), by decide +kernel, inv_of (by decide +kernel), by decide +kernel, by decide +kernel, by decide +kernel⟩

/-- LinksCellsAndHost: a module held in reset. -/
theorem meets_LinksCellsAndHost_held : State.reset.Inv ∧ State.reset.power = .held := ⟨inv_of (by decide +kernel), rfl⟩


/-- A group whose thread `n` is held as given, with a handler. -/
def held (n : Nat) (p : Park) : State :=
  sg fun g => { g with threads := tab32 fun k => if k = n then { g.th k with park := some p } else g.th k, csr := { g.csr with tvec := 0x20000 } }
/-- An open record of partition 0, number 5, under key 7. -/
def frec (kind rcnt : Nat) (cmd : Option Nat) : FRec :=
  ⟨0, 0x10000, 0x10000, kind, 1, 0, 0, 0, 0, 0, rcnt, false, false, 0, 5, 0, 1, 0, 0, 0, 0, 1, cmd, []⟩
/-- `s` with that record. -/
def withRec (r : FRec) (s : State) : State := { s with recs := s.recs.put 7 r }

/-- FaultAndHomeCommands: no record; a record whose thread has parked, and one whose has not, with and without a command; a lost store; a record that
waits for the ring; home ranges with and without holders; a view in which a write waits. -/
theorem meets_FaultAndHomeCommands :
    let p := fun c => withRec (frec 1 0 c) (held 0 (.lookup 7))
    let run := fun c => withRec (frec 0 0 c) (sg fun g => { g with threads := tab32 fun k => if k = 0 then { g.th k with faults := [⟨7, 0x10000, 3, 1⟩] } else g.th k })
    let halt : State := { run none with ctxs := [] }
    let lost := withOp (op1 (.st head0 false .w32 (sv 2) (sv 2) mc0) []) (withRec (frec 7 0 (some 3)) (held 0 .lost))
    let q := { s0 with waitRec := s0.waitRec.put 0 [frec 1 0 none], sys := s0.sys.put (offFQCTL 0) 0x24 }
    let mg := fun w => ({ s0 with mig := [⟨0, 65536, w, [], []⟩], sys := s0.sys.put offMIGCTL 0x20 } : State)
    let m2 := dirS .s [.rdc 16 0] (mg false)
    s0.Inv ∧ (s0.openRec 0 5 = none ∧ s0.saved = [])
    ∧ (∀ c ∈ [none, some 3, some 4], (p c).Inv) ∧ ((p none).openRec 0 5 = some (7, frec 1 0 none) ∧ (p none).resident 0 = true ∧ regionTaken (p none) 7 (frec 1 0 none) = false
      ∧ recParked (p none) 7 (frec 1 0 none) = true ∧ regionTaken (p (some 3)) 7 (frec 1 0 (some 3)) = true)
    ∧ ((withRec (frec 1 8 none) s0).openRec 0 5 = some (7, frec 1 8 none) ∧ halt.resident 0 = false ∧ recParked (run none) 7 (frec 0 0 none) = false ∧ (run none).openRec 0 5 = some (7, frec 0 0 none))
    ∧ (∃ g, (p (some 4)).groups.find 0 = some g ∧ CanTrap g ∧ Mask.lanes (recThreads g 7 (frec 1 0 (some 4))) = [0])
    ∧ lost.Inv ∧ (lost.openRec 0 5 = some (7, frec 7 0 (some 3)) ∧ (lost.ops.find 1).isSome = true ∧ lost.ops.all (fun kv => !kv.2.after.contains 1) = true)
    ∧ q.Inv ∧ (q.waitRec.findD 0 [] = [frec 1 0 none] ∧ q.faultFull 0 = false ∧ { q with sys := q.sys.put (offFQWR 0) 16 }.faultFull 0 = true ∧ (frec 1 0 none).part = 0 ∧ q.csrBits (offFQBASE 0) 51 0 % 64 = 0)
    ∧ (rangeBytes 0 = some 65536 ∧ s0.csrBits offMIGSRC 51 0 / 65536 * 65536 = 0 ∧ (s0.region (s0.csrBits offMIGSRC 51 0)).any (fun r => r.pkg = s0.ownPkg && !r.host) = true
      ∧ (s0.dirOf 1).holders.filter s0.external = [] ∧ inRange 0 65536 1 = true)
    ∧ (mg false).Inv ∧ (mg true).Inv ∧ ((mg false).mig.find? (fun x => x.src = 0 && !x.window) = some ⟨0, 65536, false, [], []⟩ ∧ (mg true).mig.find? (fun x => x.src = 0 && x.window) = some ⟨0, 65536, true, [], []⟩
      ∧ (mg false).csrBits offMIGCTL 5 5 = 1 ∧ s0.csrBits offMIGCTL 5 5 = 0 ∧ (mg false).heldIn 0 65536 = [] ∧ m2.heldIn 0 65536 ≠ [])
    ∧ (held 3 (.viewFull 0x10400)).Inv ∧ ∃ g, (held 3 (.viewFull 0x10400)).groups.find 0 = some g ∧ CanTrap g ∧ inView (held 3 (.viewFull 0x10400)) g 0 0 = true
      ∧ (∀ kv ∈ (held 3 (.viewFull 0x10400)).nodes, kv.2.waits = false) ∧ (held 3 (.viewFull 0x10400)).ops = []
      ∧ (List.range 32).find? (fun m => (match (g.th m).park with | some (.viewFull a) => some a | _ => none).isSome) = some 3 := by
  unfold CanTrap
  exact ⟨inv_of (by decide +kernel), by decide +kernel,
    fun c hc => by
      simp only [List.mem_cons, List.not_mem_nil, or_false] at hc
      obtain rfl | rfl | rfl := hc
      · exact inv_of (by decide +kernel)
      · exact inv_of (by decide +kernel)
      · exact inv_of (by decide +kernel),
    by decide +kernel, by decide +kernel, meets _ _ (by decide +kernel), inv_of (by decide +kernel), by decide +kernel, inv_of (by decide +kernel), by decide +kernel,
    by decide +kernel, inv_of (by decide +kernel), inv_of (by decide +kernel), by decide +kernel, inv_of (by decide +kernel), meets _ _ (by decide +kernel)⟩

/-- FaultAndHomeCommands: a thread on its way to the trap `PAGEX`, and a record of a context that is saved. -/
theorem meets_FaultAndHomeCommands_doom :
    let d : Doom := ⟨4#4, 0x10000#64, false⟩
    let s := sg fun g => { g with threads := tab32 fun k => if k = 0 then { g.th k with doom := some d } else g.th k, csr := { g.csr with tvec := 0x20000 } }
    let v : State := { s0 with saved := s0.saved.put 3 ⟨3, [0], [], [], [], [], [], [], [(7, frec 1 0 none)]⟩ }
    (∃ g, s.issuer = some g ∧ CanTrap g ∧ g.pc? = some 0x10000#57 ∧ doomed g (g.atPc 0x10000#57) = some d) ∧ (Instr.nop head0).isWord = true ∧ genLocal (.nop head0) = false
    ∧ v.Inv ∧ v.openRec 0 5 = none ∧ (∃ kv ∈ v.saved, ∃ x ∈ kv.2.recs, x.2.part = 0 ∧ x.2.seq = 5 ∧ x.2.status = 0) := by
  unfold CanTrap
  exact ⟨meets _ _ (by decide +kernel), by decide +kernel, by decide +kernel, inv_of (by decide +kernel), by decide +kernel, by decide +kernel⟩

/-- `s0` with the state of its context changed, and a command in progress. -/
def sp (r : CtxRun) (p : List Preempt) : State := { s0 with ctxs := s0.ctxs.put 0 { placedCtx with run := r }, pre := p }
/-- The same with nothing resident. -/
def sp0 (r : CtxRun) (p : List Preempt) : State := { sp r p with groups := [], teams := [], nodes := [] }

/-- PreemptionCommands: a context in each of its states, with and without a command in progress, and one that a CUT has saved. -/
theorem meets_PreemptionCommands :
    let c := fun r => { placedCtx with run := r }
    let all := fun s => ({ s with ctxs := s.ctxs.put 0 { placedCtx with run := .halting, stopped := placedCtx.units } } : State)
    let done := fun op => (⟨op, 0, 0, 0⟩ : Preempt)
    let tm := { placedTeam with lgr := 0, gran := [], nbar := 0, ntile := 0, nacc := 0, vgr := 1, sgr := 1 }
    let n := { placedNode with eff := { placedRcb with lgr := 0, gang := false } }
    let sv : Saved := ⟨0, [0], [], [], [(0, tm)], [(0, placedGroup 0)], [], [], []⟩
    let w := withNum 4194304 24 (0x53374353 + 2 ^ 32 + 2 ^ 128 + 2 ^ 160) (sp0 .cut [])
    let cp := { placedCtx with run := .cut, parts := [] }
    let s : State := { w with nodes := [(0, n)], saved := [(0, sv)], sys := s0.sys.put (offPARTCFG 0) 1, ctxs := [(0, cp)] }
    let t0 := s.apply (.ctx 0 (some { c .cut with parts := [0] }))
    (∀ r ∈ [CtxRun.resident, .halting, .draining, .cutting], (sp r []).Inv ∧ (sp0 r []).Inv) ∧ (s0.ctxs.find 0 = some placedCtx ∧ (sp .halting []).ctxs.find 0 = some (c .halting))
    ∧ StopUnit.fabric 0 ∈ placedCtx.units ∧ (placedCtx.stopped = [] ∧ requestsEnded (sp .halting []) 0 0 = true)
    ∧ (all s0).Inv ∧ ((all s0).ctxs.find 0 = some { placedCtx with run := .halting, stopped := placedCtx.units } ∧ ∀ u ∈ placedCtx.units, u ∈ placedCtx.units)
    ∧ ((sp .resident []).csrBits offPCMD 19 19 = 0 ∧ (sp .resident []).resident 0 = true ∧ (sp .cut []).resident 0 = false ∧ ({ s0 with sys := s0.sys.put offPCMD 0x80000 } : State).csrBits offPCMD 19 19 = 1)
    ∧ ((sp .draining []).ctxTeams 0 ≠ [] ∧ (sp0 .draining []).ctxTeams 0 = [] ∧ (sp0 .draining []).nodesSettled 0 = true ∧ (sp0 .draining []).ops = []
      ∧ (sp0 .draining []).saveMapped 0 (stopOfs 1 [] 0 + 65536) = true)
    ∧ ((sp .draining [done 1]).pre.find? (fun p => p.ctx = 0 && p.op = 1) = some (done 1) ∧ (sp .cutting [done 2]).pre.find? (fun p => p.ctx = 0 && (p.op = 2 || p.op = 5)) = some (done 2)
      ∧ (sp .halted [done 4]).pre.find? (fun p => p.ctx = 0 && p.op = 4) = some (done 4) ∧ 0 < 0 + 1000 * s0.csrBits offDRAINDL 16 0 ∧ 0 < 0 + 1000 * s0.csrBits offCUTDL 16 0)
    ∧ ((sp .cutting []).settled 0 = true ∧ ((sp .cutting []).ctxGroups 0).all (fun kv => kv.2.hold = .none) = true
      ∧ (sp .cutting []).saveMapped 0 (stopOfs 1 ((sp .cutting []).saveTeams 0) ((sp .cutting []).pendRecords 0).length + 65536) = true)
    ∧ s.Inv ∧ (s.partEn 0 = true ∧ s.partCtx 0 = 0 ∧ s.ck = [] ∧ sv.recs = [] ∧ AMap.wf sv.teams = true
      ∧ headerOk (leNat (s.mem.bytes (s.csa 0 + headerOfs 1) 128)) 0 1 sv (s.liveNodes 0).length = true
      ∧ headerOk 0 0 1 sv (s.liveNodes 0).length = false ∧ headerAt (fun o n => (sp0 .cut []).mem.num (s.csa 0 + o) n) = none)
    ∧ (t0.savedTeams 0 sv).length = 1 ∧ (placeSaved t0 ((List.range 16).map fun k => k) (t0.savedTeams 0 sv)).isSome = true := by
  refine ⟨fun r hr => ?_, by decide +kernel, List.mem_eraseDups.mpr (by decide +kernel), by decide +kernel, inv_of (by decide +kernel), ⟨rfl, fun _ h => h⟩, by decide +kernel, by decide +kernel, by decide +kernel, by decide +kernel, inv_of (by decide +kernel), by decide +kernel, by decide +kernel⟩
  simp only [List.mem_cons, List.not_mem_nil, or_false] at hr
  obtain rfl | rfl | rfl | rfl := hr
  all_goals exact ⟨inv_of (by decide +kernel), inv_of (by decide +kernel)⟩

/-- PreemptionCommands: a die with a request under way, before and after the longest time that it is awaited. -/
theorem meets_PreemptionCommands_fabric :
    let x := { lane := 0, adr := 0x10400, page := some placedPage, dat := [], done := false, res := [] : Acc }
    let s := withOp { op1 (.ld head0 false .w32 (dv 1) (sv 2) mc0) [] with accs := [x] } (sp .halting [])
    s.Inv ∧ requestsEnded s 0 0 = false ∧ s.now < s.seen.findD (haltKey 0 0) s.now + s.csrBits offTOUT 16 0 * 1000 + 24000
    ∧ ({ s with now := 10 ^ 9, seen := s.seen.put (haltKey 0 0) 0 } : State).seen.findD (haltKey 0 0) (10 ^ 9) + s.csrBits offTOUT 16 0 * 1000 + 24000 ≤ 10 ^ 9 :=
  ⟨inv_of (by decide +kernel), by decide +kernel, by decide +kernel, by decide +kernel⟩


/-- ServicesStrikesAndCheckpoints: a service call sent, performed, replied to, and of a halted context; a struck rod; an idle rod of a module that runs
its known-answer operations; checkpoints of a context that is cut and of one that is not, with a save area and without, under way, and with a manifest. -/
theorem meets_ServicesStrikesAndCheckpoints :
    let o := op1 (.svc head0 1 (sv 2) (ss 6)) []
    let sv := withOp o s0
    let hd := withNum 4194304 24 (0x53374353 + 2 ^ 32)
    let cut : State := { s0 with ctxs := s0.ctxs.put 0 { placedCtx with run := .cut, parts := [] } }
    let ck := fun load (s : State) => ({ s with ck := [(0, ⟨load, 0x8000, 0, 0, 9, 0, []⟩)] } : State)
    let man := withNum 0x9000 8 (0x4D534B43 + 2 ^ 32) (withNum (0x100000000 + 4194304) 24 (0x53374353 + 2 ^ 32) (withNum 0x8000 24 (0x100000000 * 2 ^ 64 + 0x9000 * 2 ^ 128) s0))
    let l := ckPieces (hd cut) ⟨0, 0, 0, 0, [], []⟩ 0 65536 false 0 65536
    sv.Inv ∧ (sv.ops.find 1 = some o ∧ o.st = .sent ∧ o.dest = o.gid ∧ (sv.groups.find o.gid).isSome = true ∧ sv.ctxs.find o.ctx = some placedCtx ∧ placedCtx.run ≠ .halted ∧ sv.replyAt o % 64 = 0)
    ∧ (rewound s0 .rod 0 0 = [(0, placedGroup 0)] ∧ { s0 with kat := true }.kat = true ∧ rodIdle s0 1 = true ∧ rodIdle s0 0 = false)
    ∧ (s0.csrBits offCKCMD 2 2 = 0 ∧ ({ s0 with sys := s0.sys.put offCKCMD 4 } : State).csrBits offCKCMD 2 2 = 1 ∧ s0.ckArea 0 = none ∧ s0.manifest (s0.ckDesc 0x8000) = none
      ∧ ((hd cut).ctxs.find ((hd cut).ckDesc 0x8000).ctx).any (fun c => c.run = .cut) = true ∧ ((s0.ctxs.find (s0.ckDesc 0x8000).ctx).any fun c => c.run ≠ .cut) = true
      ∧ (hd cut).ckArea 0 = some (0, 65536, 0x53374353 + 2 ^ 32))
    ∧ (ck false (hd cut)).Inv ∧ ((ck false (hd cut)).ck.find 0 = some ⟨false, 0x8000, 0, 0, 9, 0, []⟩ ∧ ckLen ⟨0, 0, 0, 0, [], []⟩ 65536 = 65536 ∧ shardAt ((hd cut).ckDesc 0x8000) 0 % 64 = 0)
    ∧ (l.all (fun p => p.1 ≠ none) = true ∧ ((hd cut).ckLost 0 || (l.filterMap Prod.fst).any (hd cut).ckLost) = false)
    ∧ man.Inv ∧ (man.manifest (man.ckDesc 0x8000)).any (fun m => m.shards = 0 && m.len = 0) = true := by
  exact ⟨inv_of (by decide +kernel), by decide +kernel, by decide +kernel, by decide +kernel, inv_of (by decide +kernel), by decide +kernel, by decide +kernel, inv_of (by decide +kernel), by decide +kernel⟩

/-- ServicesStrikesAndCheckpoints: a reply that retires, and one of a halted context; a struck group with a restart of its own, one without, and one that has written a
register; a matrix unit with an operation; a command whose next shard is to be written, or loaded. -/
theorem meets_ServicesStrikesAndCheckpoints_more :
    let o := { op1 (.svc head0 1 (sv 2) (ss 6)) [] with st := .performed, seg := 1 }
    let h : State := { s0 with ctxs := s0.ctxs.put 0 { placedCtx with run := .halted }, ops := [(1, { o with seg := 0 })] }
    let b := { after (.iadd head0 .n32 false (dv 1) (sv 2) (.imm 3)) s0 with now := 10 }
    let m := after (.azro head0 (dt 32)) s0
    let l := { sg (fun g => { g with wlog := [⟨0, .v 3, 0xFFFFFFFF#32⟩] }) with now := 10 }
    let man := withNum 0x9000 8 (0x4D534B43 + 2 ^ 32) (withNum (0x100000000 + 4194304) 24 (0x53374353 + 2 ^ 32) (withNum 0x8000 24 (0x100000000 * 2 ^ 64 + 0x9000 * 2 ^ 128) s0))
    ((withOp o s0).ops.find 1 = some o ∧ o.dest = o.gid ∧ ((withOp o s0).groups.find o.gid).isSome = true)
    ∧ ((h.ctxs.find o.ctx).map Ctx.run = some .halted ∧ h.replyAt o % 64 = 0)
    ∧ (b.ops.all (fun kv => kv.2.after = []) = true ∧ (b.groups.find 0).any (fun g => ((g.upTo 10).start? 10).isSome) = true ∧ ((placedGroup 0).upTo 10).start? 10 = none)
    ∧ (l.groups.find 0).any (fun g => g.wlog.any fun x => l.now ≤ x.clk + 48) = true
    ∧ ((m.mxq.findD 0 []).all (fun q => (m.ops.find q.op).all fun o => o.seg ≠ 1) = true ∧ (m.mxq.findD 0 []).length = 1)
    ∧ ((man.manifest (man.ckDesc 0x8000)).any fun m =>
        !(man.ckLost (shardAt (man.ckDesc 0x8000) 0) || ((ckPieces man { man.ckDesc 0x8000 with ranges := m.ranges } (man.csa (man.ckLead 0)) m.area true 0 (shardLen m.len 0)).filterMap Prod.fst).any man.ckLost)) = true := by
  refine ⟨?_, ?_, ?_, ?_, ?_, ?_⟩ <;> decide +kernel

/-- TwinBootAndAttestation: a mirrored write and kick; a paired node that waits for its twin's digest, without it and with it; each state of power. -/
theorem meets_TwinBootAndAttestation :
    let n := { placedNode with eff := { placedRcb with paired := true } }
    let key := s0.twinKey n 0xFFFFFFFF#32
    let p := { s0 with nodes := s0.nodes.put 0 n, sys := s0.sys.put (offPARTCFG 0) 0x80000000001 }
    let w := { p with twin := ⟨[(key, 1#64)], []⟩ }
    let q := sk 0 1
    (s0.power ≠ .held ∧ s0.mig = [] ∧ s0.trans = [] ∧ s0.ownMemory 0x10000 8 = true ∧ (∀ x ∈ sectorsOf 0x10000 8, s0.awaited (some s0.hostAgent) true x = [] ∧ s0.unswept x = false ∧ s0.mem.bad.find x = none)
      ∧ s0.admits s0.hostAgent 0x10000 = true)
    ∧ q.Inv ∧ (q.mig = [] ∧ q.trans = [] ∧ q.qd 0 257 256 = 0 ∧ q.funcHolds (q.qd 0 86 80) = true ∧ q.ctxParts (q.qd 0 111 96) ≠ [] ∧ q.qd 0 68 64 = 4 ∧ q.qd 0 11 0 = 0 ∧ q.qd 0 255 192 < 1
      ∧ 1 ≤ q.qd 0 191 128 + 2 ^ q.qd 0 68 64 ∧ q.power ≠ .held ∧ ∀ k < 64, q.mem.bad.find (secOf (q.qdAt 0 + k)) = none)
    ∧ w.Inv ∧ (w.twin.mine = [(key, 1#64)] ∧ w.twin.theirs = [] ∧ w.nodeOfKey key = some 0 ∧ w.nodes.find 0 = some n ∧ (w.ctxs.find n.ctx).map Ctx.run = some .resident ∧ w.pairedCtxs.map Prod.fst = [0]
      ∧ w.nodes.find? (fun kv => kv.2.eff.paired && !kv.2.st.finished && (w.twinKey kv.2 key.sstep = key)) = some (0, n) ∧ s0.twin.mine = [])
    ∧ (bootOk ⟨true, true, true, []⟩ = true ∧ bootOk ⟨true, false, true, []⟩ = false ∧ State.reset.power = .held ∧ s0.power = .up ∧ { s0 with power := .bringup }.power ≠ .held)
    ∧ ({ s0 with spdm := ⟨true, true, true, []⟩ }.spdm.algs = true ∧ s0.spdm.version = false ∧ 1 ≤ s0.measurements.length) := by
  exact ⟨by decide +kernel, inv_of (by decide +kernel), by decide +kernel, inv_of (by decide +kernel), by decide +kernel, by decide +kernel, by decide +kernel⟩

/-- PartitionsAndSystemCsrs: a partition that is disabled, enabled, in use and under scrub, a rod with three marked lanes, and a full and an open event ring. -/
theorem meets_PartitionsAndSystemCsrs :
    let e := { s0 with sys := s0.sys.put (offPARTCFG 0) 1 }
    let z := { s0 with sys := s0.sys.put (offPARTCFG 0) (2 ^ 49) }
    let r := { s0 with sys := s0.sys.put (offREPLIST 0 0) 7 }
    let ev := { s0 with waitEv := [zeros 256], sys := s0.sys.put offEQCTL 0x26 }
    let set := putBits (tuned (BitVec.ofNat 64 (bitsOf 1 48 0)) 1) 43 43 0
    (s0.partEn 0 = false ∧ s0.csrBits (offPARTCFG 0) 49 49 = 0 ∧ e.partEn 0 = true ∧ e.inUse 0 = true ∧ { e with ctxs := [] }.inUse 0 = false ∧ z.csrBits (offPARTCFG 0) 49 49 = 1
      ∧ s0.unrepairable 0 = none ∧ mismatch s0 0 set = false ∧ mismatch e 1 (2#64 ||| set) = true ∧ (r.unrepairable 0).isSome = true)
    ∧ ev.Inv ∧ (ev.waitEv = [zeros 256] ∧ ev.eventFull = false ∧ ev.csrBits offEQCTL 5 5 = 1 ∧ (zeros 256).length = 256)
    ∧ e.Inv ∧ (e.power ≠ .held ∧ (∀ f ∈ partFrames 0, e.l1.findD f [] = []) ∧ e.rdc.findD 0 [] = []) := by
  exact ⟨by decide +kernel, inv_of (by decide +kernel), by decide +kernel, inv_of (by decide +kernel), by decide +kernel⟩

/-- StepRunsTheDecodedInstruction: a word at the PC of the one group that can be asked, bytes that decode to none in a group with a handler, and a
thread of it that a trap awaits. -/
theorem meets_StepRunsTheDecodedInstruction :
    let s := State.reset.withFetchWord 96 0x01007E00E001000000000000
    let bad := { State.reset.withFetchWord 96 0xFF8001000000000000000000 with groups := [(0, { placedGroup 0 with csr := { (placedGroup 0).csr with tvec := 0x20000 } })] }
    let d : Doom := ⟨4#4, 0x10000#64, false⟩
    let doom := { bad with groups := bad.groups.map fun kv => (kv.1, { kv.2 with threads := tab32 fun n => { kv.2.th n with doom := some d } }) }
    let asked := fun s : State => sortBy before (s.groups.filter fun kv => kv.2.cont.isNone && rodKey kv.2.frame kv.2.rod = 0 && kv.2.active.isSome && askable s kv.2)
    let run := fun s : State => s.groups.find 0
    (s.agenda = [] ∧ s.turns = [0] ∧ (asked s).map Prod.fst = [0]) ∧ (bad.agenda = [] ∧ bad.turns = [0] ∧ (asked bad).map Prod.fst = [0])
    ∧ (∃ g, run s = some g ∧ (Group.pc? (g.upTo s.now)).any (fun pc => (doomed (g.upTo s.now) (Group.atPc (g.upTo s.now) pc)).isNone && match s.fetch g.frame 0 (g.upTo s.now).csr.vid pc with
        | .ok l => (match decode l with
          | .ok p => eligible s 0 (g.upTo s.now) p.1
          | .error _ => false)
        | .error _ => false) = true)
    ∧ (doom.agenda = [] ∧ doom.turns = [0] ∧ (asked doom).map Prod.fst = [0])
    ∧ (∃ g, run doom = some g ∧ CanTrap g ∧ (Group.pc? (g.upTo doom.now)).any (fun pc => doomed (g.upTo doom.now) (Group.atPc (g.upTo doom.now) pc) = some d) = true)
    ∧ ∃ g, run bad = some g ∧ CanTrap g ∧ (Group.pc? (g.upTo bad.now)).any (fun pc => match bad.fetch g.frame 0 (g.upTo bad.now).csr.vid pc with
        | .ok l => (match decode l with
          | .ok _ => false
          | .error _ => true)
        | .error _ => false) = true := by
  unfold CanTrap
  exact ⟨by decide +kernel, by decide +kernel, meets _ _ (by decide +kernel), by decide +kernel, meets _ _ (by decide +kernel), meets _ _ (by decide +kernel)⟩

/-- RoundingIsCorrect and QuotientsAndRootsAreCorrect: a value that rounds without overflow, and finite operands. -/
theorem meets_RoundingIsCorrect : f32 ∈ [f32, f16, bf16, e5m2, e4m3, e2m1] ∧ ((f32.round .rn false false false 0x1000001 0).2 &&& flOF = 0#6)
    ∧ f32.Finite 0x3F800000 ∧ f32.Finite 0x40400000 ∧ (rounded .rn false false [f32.num 0x3F800000, f32.num 0x40400000] (divNum (f32.num 0x3F800000) (f32.num 0x40400000))).2 &&& flOF = 0#6
    ∧ (ffn32 .rcp false 0x40400000).2 &&& flOF = 0#6 := by
  refine ⟨by simp, by decide +kernel, ⟨by decide, false, 0x800000, -23, by decide +kernel⟩, ⟨by decide, false, 0xC00000, -22, by decide +kernel⟩, by decide +kernel, by decide +kernel⟩

/-- DecodeReadsBackEncode: an instruction that is well-formed. -/
theorem meets_DecodeReadsBackEncode : (Instr.ffma ⟨.lane 1 .lt, ⟨1, false, 1, 3, true, 1, true, 3⟩⟩ false false .dyn (dv 12) ⟨true, .v, 4⟩ (sq 1) ⟨false, .o, 2⟩).wf = true := by decide +kernel

/-- StepKeepsInvariant: a state that meets the invariant and answers a next state. -/
theorem meets_StepKeepsInvariant : s0.Inv ∧ (match step s0 with
    | .next _ => true
    | _ => false) = true := ⟨inv_of (by decide +kernel), by decide +kernel⟩


-- worked examples of the spec: one instruction, and what it writes

/-- What lane `n` of vector register `r` receives from instruction `i`. -/
def gets (s : State) (i : Instr) (r n : Nat) : Option Elem :=
  ((after i s).groups.find 0).bind fun g => g.pend.findSome? fun p => match p.kind with
    | .wv k m x => if k = r && Mask.has m n then some (lane x n) else none
    | _ => none
/-- Vector registers from `r` on with the given lanes; other lanes hold 0. -/
def vs (l : List (Nat × List Word)) : State :=
  sg fun g => { g with v := l.foldl (fun m p => m.put p.1 (tab32 fun n => clean (p.2.getD n 0))) g.v }

/-- R404: 600 − 1,000 saturates at 0 and 5,000 − 1,000 is 4,000. R380: four F32 values as E4M3, with the overflow and the NaN. -/
theorem test_isub_cvt :
    (let s := vs [(9, [600, 5000])]
     let i : Instr := .isub head0 .n32 true (dv 5) (sv 9) (.imm 1000)
     gets s i 5 0 = some (clean 0) ∧ gets s i 5 1 = some (clean 4000))
    ∧ gets (vs [(4, [0x3E99999A]), (5, [0x43FA0000]), (6, [0xBF800000]), (7, [0x7FC00000])]) (.cvt head0 false .dyn .e4m3 .f32 (dv 8) (sv 4)) 8 0 = some (clean 0x7FB87E2A) := by
  decide +kernel

/-- R406: −2 times 3 as a pair, signed and unsigned. R355: 5, 3 and 6 interleaved, and the second of them back. -/
theorem test_imul_bil :
    (let s := vs [(4, [0xFFFFFFFE]), (5, [3])]
     gets s (.imul head0 .s32 false .wide (dv 8) (sv 4) (.reg (sv 5))) 8 0 = some (clean 0xFFFFFFFA) ∧ gets s (.imul head0 .s32 false .wide (dv 8) (sv 4) (.reg (sv 5))) 9 0 = some (clean 0xFFFFFFFF)
     ∧ gets s (.imul head0 .n32 false .wide (dv 8) (sv 4) (.reg (sv 5))) 9 0 = some (clean 2))
    ∧ gets (vs [(4, [5]), (5, [3]), (6, [6])]) (.bil head0 true (dv 8) (sv 4) (sv 5) (sv 6)) 8 0 = some (clean 0x173)
    ∧ gets (vs [(4, [0x173])]) (.bdil head0 true (dv 8) (sv 4) (si 1)) 8 0 = some (clean 3) := by decide +kernel

/-- R423 (Table 17.8): 2^24, 1, 1 and −2^24 in lanes 0 to 3; the other lanes hold 0, which changes no sum. -/
theorem test_lred_lscan :
    let s := vs [(4, [0x4B800000, 0x3F800000, 0x3F800000, 0xCB800000])]
    let row := fun i => (List.range 4).map fun n => (gets s i 8 n).map Elem.val
    row (.lred head0 .fadd (dv 8) (sv 4)) = [some 0x3F800000, some 0x3F800000, some 0x3F800000, some 0x3F800000]
    ∧ row (.lscan head0 .fadd false (dv 8) (sv 4)) = [some 0x4B800000, some 0x4B800000, some 0x4B800000, some 0x3F800000]
    ∧ row (.lscan head0 .fadd true (dv 8) (sv 4)) = [some 0x80000000, some 0x4B800000, some 0x4B800000, some 0x4B800000] := by decide +kernel

/-- R124, R125: an exact cell that takes 2^30, 1 and −2^30, in either order, reads as 1. -/
theorem test_exact_cell : let add := fun c (w : Word) => cellAdd f32 c (clean w)
    cellF32 (add (add (add 0 0x4E800000) 0x3F800000) 0xCE800000) = 0x3F800000 ∧ cellF32 (add (add (add 0 0x4E800000) 0xCE800000) 0x3F800000) = 0x3F800000 := by decide +kernel

end Sys2Proof.Tests
end

section
/-!
SUPPORT. Effects that stay in the background: reports, writes to memory, and the end of what a view, a team or an operation
held. They keep the clock, the regions, the configuration of the partitions, the contexts, and the lines of the caches.
-/
namespace Sys2Proof.Machine

/-- A system CSR that reports and commands may write: neither `CELLCFG` nor one of a partition's block. -/
def reportCsr (k : Nat) : Prop := k ≠ offCELLCFG ∧ (k < 0x100000 ∨ 0x200000 ≤ k)

/-- An act in the background. -/
def Act.Background : Act → Prop
  | .now _ | .power _ | .timers _ | .regions _ | .spare .. | .ways .. | .ctx .. | .l1 .. | .rdc .. => False
  | .sys k (some _) => reportCsr k
  | .sys _ none => False
  | _ => True

/-- An effect all of whose acts are as `A` says. -/
structure Eff.Only (A : Act → Prop) (e : Eff) : Prop where
  acts : ∀ s, ∀ a ∈ e s, A a

/-- An effect in the background. -/
abbrev Eff.Background (e : Eff) : Prop := e.Only Act.Background

section Only
variable {A : Act → Prop}

theorem only_skip : skip.Only A := ⟨fun _ _ h => nomatch h⟩

theorem only_act {a : Act} (h : A a) : (act a).Only A := ⟨fun _ _ hb => List.mem_singleton.1 hb ▸ h⟩

theorem only_andThen {a b : Eff} (ha : a.Only A) (hb : b.Only A) : (andThen a b).Only A :=
  ⟨fun s _ hx => (List.mem_append.1 hx).elim (ha.acts s _) (hb.acts _ _)⟩

theorem only_seqs_nil : (seqs []).Only A := only_skip

theorem only_seqs_cons {a : Eff} {l : List Eff} (ha : a.Only A) (hl : (seqs l).Only A) : (seqs (a :: l)).Only A := only_andThen ha hl

theorem only_each_mem {α : Type} {l : List α} {f : α → Eff} (h : ∀ a ∈ l, (f a).Only A) : (each l f).Only A := by
  induction l with
  | nil => exact only_skip
  | cons a l ih => exact only_andThen (h a List.mem_cons_self) (ih fun b hb => h b (List.mem_cons_of_mem _ hb))

theorem only_each {α : Type} {l : List α} {f : α → Eff} (h : ∀ a, (f a).Only A) : (each l f).Only A := only_each_mem fun a _ => h a

theorem only_when {b : Bool} {e : Eff} (h : e.Only A) : (when b e).Only A := by
  cases b
  · exact only_skip
  · exact h

theorem only_ite {p : Prop} [Decidable p] {a b : Eff} (ha : a.Only A) (hb : b.Only A) : (if p then a else b).Only A := by
  split
  · exact ha
  · exact hb

theorem only_on {f : State → Eff} (h : ∀ s, (f s).Only A) : (on f).Only A := ⟨fun s => (h s).acts s⟩

theorem only_onSome {α : Type} {o : Option α} {f : α → Eff} (h : ∀ a, (f a).Only A) : (onSome o f).Only A := by
  cases o with
  | none => exact only_skip
  | some a => exact h a

theorem only_freely {f : Nat → Eff} (h0 : ∀ n, A (.free n)) (h : ∀ n, (f n).Only A) : (freely f).Only A := ⟨fun s _ hx => by
  rcases List.mem_cons.1 hx with rfl | hx
  · exact h0 _
  · exact (h _).acts _ _ hx⟩

theorem only_upNode {k : Nat} {f : Node → Node} (h : ∀ x, A (.node k (some x))) : (upNode k f).Only A := ⟨fun s a ha => by
  unfold upNode at ha
  split at ha
  · exact List.mem_singleton.1 ha ▸ h _
  · exact nomatch ha⟩

theorem only_upMarks {k : Nat} {f : List Nat → List Nat} (h : ∀ x, A (.marks k (some x))) : (upMarks k f).Only A := ⟨fun s a ha => by
  unfold upMarks at ha
  split at ha
  · exact List.mem_singleton.1 ha ▸ h _
  · exact nomatch ha⟩

/-- What every such act keeps, the effect keeps. -/
theorem Eff.Only.keeps {β : Type} {q : State → β} {e : Eff} (h : e.Only A) (hq : ∀ a : Act, A a → ∀ s, q (State.apply s a) = q s) :
    e.Keeps q := keeps_of_acts fun s a ha => hq a (h.acts s a ha)

end Only

theorem background_setCsr {k : Nat} (v : BitVec 64) (h : reportCsr k) : (setCsr k v).Background := only_act h

theorem background_soon (i : Instr) : (soon i).Background := only_on fun _ => only_act trivial

theorem background_out (m : OutMsg) : (out m).Background := only_on fun _ => only_act trivial

-- memory and views

theorem background_putBytes (a : Nat) (l : List Byte) : (putBytes a l).Background := by
  induction l generalizing a with
  | nil => exact only_skip
  | cons b l ih => exact ⟨fun s x hx => by
      rcases List.mem_cons.1 hx with rfl | hx
      · exact trivial
      · exact (ih (a + 1)).acts s x hx⟩

theorem background_markChanged (part tgt sec : Nat) : (markChanged part tgt sec).Background :=
  only_on fun _ => only_each fun kv => by
    dsimp only
    split
    · exact only_ite (only_act trivial) only_skip
    · exact only_skip

theorem background_putCopy (part id sec : Nat) (c : VSec) : (putCopy part id sec c).Background :=
  only_on fun _ => only_onSome fun _ =>
    only_andThen (only_act trivial) (only_onSome fun _ => background_putBytes _ _)

theorem background_takeCopy (who part id sec : Nat) : (takeCopy who part id sec).Background :=
  only_on fun _ => only_ite (background_putCopy ..) <| only_freely (fun _ => trivial) fun _ => only_on fun _ => by
    dsimp only
    split
    · exact only_andThen (background_putCopy ..) (background_putCopy ..)
    · exact background_putCopy ..

theorem background_writeBase (sec ofs : Nat) (l : List Byte) (full : Bool) (p : Option Word) (n : Nat) :
    (writeBase sec ofs l full p n).Background :=
  only_on fun _ => only_seqs_cons (background_markChanged ..) <|
    only_seqs_cons (only_ite (background_putBytes ..) (background_putBytes ..)) <|
    only_seqs_cons (only_act trivial) only_seqs_nil

theorem background_writeCopy (who part id sec ofs : Nat) (l : List Byte) (full : Bool) (p : Option Word) (n : Nat) :
    (writeCopy who part id sec ofs l full p n).Background :=
  only_on fun _ => only_seqs_cons (background_markChanged ..) <|
    only_seqs_cons (only_when (background_takeCopy ..)) <|
    only_seqs_cons (only_on fun _ => only_onSome fun _ => background_putCopy ..) only_seqs_nil

theorem background_writeSectorBy (who : Option Nat) (part id sec ofs : Nat) (l : List Byte) (full : Bool) (p : Option Word) :
    (writeSectorBy who part id sec ofs l full p).Background :=
  only_on fun _ => by
    cases p with
    | none => exact only_ite (background_writeBase ..) (only_onSome fun _ => background_writeCopy ..)
    | some w => exact only_freely (fun _ => trivial) fun _ => only_ite (background_writeBase ..) (only_onSome fun _ => background_writeCopy ..)

theorem background_writeSector (part id sec ofs : Nat) (l : List Byte) (full : Bool) (p : Option Word) :
    (writeSector part id sec ofs l full p).Background := background_writeSectorBy ..

theorem background_writeBytesBy (who : Option Nat) (part id a : Nat) (l : List Byte) (p : Option Word) :
    (writeBytesBy who part id a l p).Background := only_each fun _ => background_writeSectorBy ..

theorem background_devWrite (a : Nat) (l : List Byte) : (devWrite a l).Background := background_writeBytesBy ..

theorem background_writeVa {who : Option Nat} {frame ctx part view va : Nat} {l : List Byte} {bad : Nat → Eff}
    (h : ∀ c, (bad c).Background) : (writeVa who frame ctx part view va l bad).Background :=
  only_on fun _ => by
    split
    · exact h _
    · exact background_writeBytesBy ..

-- reports

theorem reportCsr_eqwr : reportCsr offEQWR := by unfold reportCsr; decide

theorem reportCsr_eqlost : reportCsr offEQLOST := by unfold reportCsr; decide

theorem reportCsr_pcmd : reportCsr offPCMD := by unfold reportCsr; decide

theorem reportCsr_errcnt (die cls : Nat) : reportCsr (offERRCNT die cls) := by
  unfold reportCsr offERRCNT offCELLCFG
  omega

theorem background_eventPut (b : List Byte) : (eventPut b).Background :=
  only_on fun _ => only_seqs_cons (background_devWrite ..) <| only_seqs_cons (background_setCsr _ reportCsr_eqwr) <|
    only_seqs_cons (only_when (background_out _)) only_seqs_nil

theorem background_eventLost : eventLost.Background := only_on fun _ => background_setCsr _ reportCsr_eqlost

theorem background_event (ty die part ctx a0 a1 a2 a3 : Nat) (data : List Byte) : (event ty die part ctx a0 a1 a2 a3 data).Background :=
  only_on fun _ => only_ite background_eventLost <|
    only_ite (only_ite (only_act trivial) background_eventLost) (background_eventPut _)

theorem background_countErr (die cls n : Nat) : (countErr die cls n).Background :=
  only_on fun _ => only_andThen (background_setCsr _ (reportCsr_errcnt ..)) (only_when (background_event ..))

theorem background_origin (o : Origin) {f : Word → Eff} (h : ∀ w, (f w).Background) : (origin o f).Background :=
  only_on fun _ => only_seqs_cons (background_devWrite ..) <| only_seqs_cons (only_act trivial) <|
    only_seqs_cons (only_when (background_countErr ..)) <| only_seqs_cons (h _) only_seqs_nil

theorem background_conflict (part id sec view : Nat) : (conflict part id sec view).Background :=
  only_on fun _ => background_origin _ fun _ => only_andThen (background_writeSector ..) (background_event ..)

theorem background_nodeIo (n : Node) (va access cause : Nat) : (nodeIo n va access cause).Background :=
  only_on fun _ => background_event ..

theorem background_rcbWrite (nk : Nat) : (rcbWrite nk).Background := only_on fun s => by
  split
  · exact only_skip
  · exact only_ite only_skip (background_writeVa fun _ => background_nodeIo ..)

theorem background_setState (nk : Nat) (st : NState) : (setState nk st).Background :=
  only_andThen (only_upNode fun _ => trivial) (background_rcbWrite nk)

theorem background_nodeSignal (n : Node) (ok : Bool) : (nodeSignal n ok).Background :=
  only_onSome fun _ => only_on fun _ =>
    only_andThen (only_when (background_writeVa fun _ => background_nodeIo ..)) (only_when (background_out _))

theorem background_setPcmd (ctx parts busy res : Nat) : (setPcmd ctx parts busy res).Background := background_setCsr _ reportCsr_pcmd

theorem background_endCommand (ctx res : Nat) : (endCommand ctx res).Background :=
  only_on fun _ => only_andThen (only_act trivial) (only_when (background_setPcmd ..))

-- homes and what ends

theorem background_swmWriteBack (sec : Nat) (d : SectorData) : (swmWriteBack sec d).Background := only_on fun _ => by
  dsimp only
  split
  · exact background_writeSector ..
  · split
    · exact only_andThen (background_writeSector ..) (only_on fun _ => only_act trivial)
    · exact only_ite only_skip (background_conflict ..)

theorem background_promote (frame sec : Nat) : (promote frame sec).Background :=
  only_on fun _ => only_when <| only_freely (fun _ => trivial) fun _ =>
    only_ite only_skip (only_andThen (only_upMarks fun _ => trivial) (only_each fun _ => background_soon _))

theorem background_dropBeads (frame line : Nat) : (dropBeads frame line).Background :=
  only_on fun _ => only_when (only_act trivial)

theorem background_setDir (line : Nat) (st : DirSt) (l : List Agent) : (setDir line st l).Background :=
  only_on fun _ => only_act trivial

theorem background_freeHost (line : Nat) : (freeHost line).Background :=
  only_on fun _ => only_when (only_freely (fun _ => trivial) fun _ => background_putBytes ..)

theorem background_dropOps (p : Op → Bool) : (dropOps p).Background :=
  only_on fun _ => only_seqs_cons (only_each fun _ => only_act trivial) <|
    only_seqs_cons (only_each fun _ => only_when (only_act trivial)) <|
    only_seqs_cons (only_each fun _ => only_act trivial) <|
    only_seqs_cons (only_each fun _ => only_act trivial) only_seqs_nil

theorem background_detachCalls (ctx : Nat) (lost : Bool) : (detachCalls ctx lost).Background :=
  only_on fun _ => only_each fun _ => only_act trivial

theorem background_chooseAgain : chooseAgain.Background := only_on fun _ => only_each fun kv => by
  split
  · exact only_when (background_soon _)
  · exact only_skip

theorem background_dropTranslations (pt : TlbE → Bool) (pw : WalkE → Bool) : (dropTranslations pt pw).Background :=
  only_on fun _ => only_andThen (only_each fun _ => only_act trivial) (only_each fun _ => only_act trivial)

theorem background_forgetCtx (ctx : Nat) : (forgetCtx ctx).Background := background_dropTranslations ..

-- states behind effects

/-- What is not there is not there once an entry is removed, nor is the entry. -/
theorem find_setO_none_of {α : Type} {m : AMap α} (h : AMap.wf m = true) {k n : Nat} (hn : n ≠ k → AMap.find m n = none) :
    AMap.find (setO m k none) n = none := by
  by_cases hk : n = k
  · rw [hk]; exact find_setO_none _ _ h
  · rw [find_setO_ne _ _ h hk]; exact hn hk

theorem does_inv {s : State} (h : s.Inv) (e : Eff) : (s.does e).Inv := run_keeps_inv h _

theorem does_seqs_append (s : State) (l k : List Eff) : s.does (seqs (l ++ k)) = (s.does (seqs l)).does (seqs k) := by
  induction l generalizing s with
  | nil => rfl
  | cons a l ih => rw [List.cons_append, does_seqs_cons, does_seqs_cons, ih]

/-- What every part of a loop establishes for its own element, and every part keeps, holds of every element behind the loop. -/
theorem does_each_all {α : Type} {f : α → Eff} {Q : α → State → Prop} (hq : ∀ a (s : State), s.Inv → Q a (s.does (f a)))
    (hk : ∀ a b (s : State), s.Inv → Q a s → Q a (s.does (f b))) (l : List α) {s : State} (hi : s.Inv) : ∀ a ∈ l, Q a (s.does (each l f)) := by
  have keep : ∀ (l : List α) (s : State) (a : α), s.Inv → Q a s → Q a (s.does (each l f)) := by
    intro l
    induction l with
    | nil => exact fun _ _ _ h => h
    | cons b l ih => exact fun s a hi h => by rw [does_each_cons]; exact ih _ a (does_inv hi _) (hk a b s hi h)
  induction l generalizing s with
  | nil => exact fun _ h => nomatch h
  | cons b l ih =>
    intro a ha
    rw [does_each_cons]
    rcases List.mem_cons.1 ha with rfl | ha
    · exact keep l _ _ (does_inv hi _) (hq a s hi)
    · exact ih (does_inv hi _) a ha

/-- What an act in the background leaves as it was. -/
structure SameCore (s t : State) : Prop where
  now : t.now = s.now
  regions : t.regions = s.regions
  ctxs : t.ctxs = s.ctxs
  spare : t.spare = s.spare
  l1 : t.l1 = s.l1
  rdc : t.rdc = s.rdc
  csr : ∀ k, ¬ reportCsr k → t.csr k = s.csr k

theorem sameCore_apply {a : Act} (ha : a.Background) (s : State) : SameCore s (s.apply a) := by
  cases a with
  | now | power | timers | regions | spare | ways | ctx | l1 | rdc => exact ha.elim
  | sys j x =>
    cases x with
    | none => exact ha.elim
    | some v =>
      refine ⟨rfl, rfl, rfl, rfl, rfl, rfl, fun k hk => ?_⟩
      have hj : k ≠ j := by rintro rfl; exact hk ha
      rw [State.csr, State.csr, apply_sys, AMap.findD, AMap.findD, find_setO_some_ne _ _ hj]
  | _ => exact ⟨rfl, rfl, rfl, rfl, rfl, rfl, fun _ _ => rfl⟩

/-- What an effect in the background leaves as it was. -/
theorem Eff.Only.sameCore {e : Eff} (h : e.Background) (s : State) : SameCore s (s.does e) where
  now := h.keeps (q := State.now) (fun _ ha t => (sameCore_apply ha t).now) s
  regions := h.keeps (q := State.regions) (fun _ ha t => (sameCore_apply ha t).regions) s
  ctxs := h.keeps (q := State.ctxs) (fun _ ha t => (sameCore_apply ha t).ctxs) s
  spare := h.keeps (q := State.spare) (fun _ ha t => (sameCore_apply ha t).spare) s
  l1 := h.keeps (q := State.l1) (fun _ ha t => (sameCore_apply ha t).l1) s
  rdc := h.keeps (q := State.rdc) (fun _ ha t => (sameCore_apply ha t).rdc) s
  csr k hk := h.keeps (q := fun t => t.csr k) (fun _ ha t => (sameCore_apply ha t).csr k hk) s

end Sys2Proof.Machine
end

section
/-!
SUPPORT. Effects that bring no context into being, and the end of a context by `RESET` (R281).
-/
namespace Sys2Proof.Machine

/-- An effect that brings no context into being. -/
structure Eff.NoNewCtx (e : Eff) : Prop where
  none_stays : ∀ (s : State) (k : Nat), s.Inv → s.ctxs.find k = none → (s.does e).ctxs.find k = none

theorem noNewCtx_of_keeps {e : Eff} (h : e.Keeps State.ctxs) : e.NoNewCtx := ⟨fun s _ _ hk => by rw [h s]; exact hk⟩

theorem Eff.Only.noNewCtx {e : Eff} (h : e.Background) : e.NoNewCtx := noNewCtx_of_keeps fun s => (h.sameCore s).ctxs

theorem noNewCtx_skip : skip.NoNewCtx := ⟨fun _ _ _ h => h⟩

theorem noNewCtx_andThen {a b : Eff} (ha : a.NoNewCtx) (hb : b.NoNewCtx) : (andThen a b).NoNewCtx :=
  ⟨fun s k hi h => by rw [does_andThen]; exact hb.none_stays _ _ (does_inv hi a) (ha.none_stays s k hi h)⟩

theorem noNewCtx_seqs_nil : (seqs []).NoNewCtx := noNewCtx_skip

theorem noNewCtx_seqs_cons {a : Eff} {l : List Eff} (ha : a.NoNewCtx) (hl : (seqs l).NoNewCtx) : (seqs (a :: l)).NoNewCtx :=
  noNewCtx_andThen ha hl

theorem noNewCtx_each {α : Type} {l : List α} {f : α → Eff} (h : ∀ a, (f a).NoNewCtx) : (each l f).NoNewCtx := by
  induction l with
  | nil => exact noNewCtx_skip
  | cons a l ih => exact noNewCtx_andThen (h a) ih

theorem noNewCtx_when {b : Bool} {e : Eff} (h : e.NoNewCtx) : (when b e).NoNewCtx := by
  cases b
  · exact noNewCtx_skip
  · exact h

theorem noNewCtx_ite {p : Prop} [Decidable p] {a b : Eff} (ha : a.NoNewCtx) (hb : b.NoNewCtx) : (if p then a else b).NoNewCtx := by
  split
  · exact ha
  · exact hb

theorem noNewCtx_on {f : State → Eff} (h : ∀ s, (f s).NoNewCtx) : (on f).NoNewCtx := ⟨fun s => (h s).none_stays s⟩

theorem noNewCtx_onSome {α : Type} {o : Option α} {f : α → Eff} (h : ∀ a, (f a).NoNewCtx) : (onSome o f).NoNewCtx := by
  cases o with
  | none => exact noNewCtx_skip
  | some a => exact h a

theorem noNewCtx_upCtx (n : Nat) (f : Ctx → Ctx) : (upCtx n f).NoNewCtx := ⟨fun s k _ h => by
  cases hn : s.ctxs.find n with
  | none => rw [does_upCtx_none _ _ _ hn]; exact h
  | some x =>
    have hkn : k ≠ n := by rintro rfl; rw [hn] at h; cases h
    rw [does_upCtx_some _ _ _ _ hn, apply_ctxs, find_setO_some_ne _ _ hkn]
    exact h⟩

/-- A context that is taken away is gone, and no other comes. -/
theorem noNewCtx_dropCtx (n : Nat) : (act (.ctx n none)).NoNewCtx := ⟨fun s k hi h => by
  rw [does_act, apply_ctxs]
  exact find_setO_none_of hi.ctxs fun _ => h⟩

/-- The act of a field or table other than the contexts. -/
theorem noNewCtx_act {a : Act} (h : ∀ s : State, (s.apply a).ctxs = s.ctxs) : (act a).NoNewCtx := noNewCtx_of_keeps (keeps_act h)

-- what a context held

theorem noNewCtx_stopsBegin (ctx : Nat) : (stopsBegin ctx).NoNewCtx := noNewCtx_upCtx ..

theorem noNewCtx_putStop (ctx ofs : Nat) (b : List Byte) : (putStop ctx ofs b).NoNewCtx :=
  noNewCtx_on fun _ => noNewCtx_onSome fun _ =>
    noNewCtx_ite (noNewCtx_andThen (background_devWrite ..).noNewCtx (noNewCtx_upCtx ..)) (noNewCtx_upCtx ..)

theorem noNewCtx_stopAll (ctx ofs : Nat) (why : StopReason) : (stopAll ctx ofs why).NoNewCtx :=
  noNewCtx_andThen (noNewCtx_stopsBegin ctx) <| noNewCtx_on fun _ => noNewCtx_onSome fun _ => noNewCtx_each fun _ =>
    noNewCtx_on fun _ => noNewCtx_each fun _ => noNewCtx_putStop ..

theorem noNewCtx_dropGroup (gid : Nat) : (dropGroup gid).NoNewCtx := noNewCtx_on fun _ => by
  split
  · exact noNewCtx_skip
  · exact noNewCtx_seqs_cons (background_dropOps _).noNewCtx <|
      noNewCtx_seqs_cons (noNewCtx_each fun _ => noNewCtx_when (noNewCtx_act fun _ => rfl)) <|
      noNewCtx_seqs_cons (noNewCtx_each fun _ => noNewCtx_when (noNewCtx_act fun _ => rfl)) <|
      noNewCtx_seqs_cons (noNewCtx_upCtx ..) <| noNewCtx_seqs_cons (noNewCtx_act fun _ => rfl) noNewCtx_seqs_nil

theorem noNewCtx_dropTeam (tk : Nat) : (dropTeam tk).NoNewCtx := noNewCtx_on fun _ => by
  split
  · exact noNewCtx_skip
  · exact noNewCtx_seqs_cons (noNewCtx_each noNewCtx_dropGroup) <| noNewCtx_seqs_cons (background_dropOps _).noNewCtx <|
      noNewCtx_seqs_cons (noNewCtx_act fun _ => rfl) noNewCtx_seqs_nil

theorem noNewCtx_removeNode (nk : Nat) : (removeNode nk).NoNewCtx :=
  noNewCtx_andThen (noNewCtx_on fun _ => noNewCtx_andThen (noNewCtx_each noNewCtx_dropTeam) (background_dropOps _).noNewCtx)
    (noNewCtx_act fun _ => rfl)

theorem noNewCtx_forgetView (part id : Nat) : (forgetView part id).NoNewCtx := noNewCtx_on fun _ =>
  noNewCtx_seqs_cons (noNewCtx_each fun _ => noNewCtx_when (noNewCtx_act fun _ => rfl)) <|
  noNewCtx_seqs_cons (noNewCtx_each fun _ => noNewCtx_when (noNewCtx_act fun _ => rfl)) <|
  noNewCtx_seqs_cons (noNewCtx_each fun _ => noNewCtx_when (noNewCtx_act fun _ => rfl)) <|
  noNewCtx_seqs_cons (noNewCtx_each fun _ => noNewCtx_when (noNewCtx_act fun _ => rfl)) <|
  noNewCtx_seqs_cons (noNewCtx_each fun _ => noNewCtx_when (noNewCtx_act fun _ => rfl)) noNewCtx_seqs_nil

theorem noNewCtx_dropView (part id : Nat) : (dropView part id).NoNewCtx := noNewCtx_on fun _ =>
  noNewCtx_seqs_cons (noNewCtx_each noNewCtx_removeNode) <|
  noNewCtx_seqs_cons (noNewCtx_each fun _ => noNewCtx_when (noNewCtx_act fun _ => rfl)) <|
  noNewCtx_seqs_cons (noNewCtx_each fun _ => noNewCtx_andThen (noNewCtx_act fun _ => rfl) (noNewCtx_forgetView ..)) <|
  noNewCtx_seqs_cons background_chooseAgain.noNewCtx <|
  noNewCtx_seqs_cons (noNewCtx_each fun _ => noNewCtx_act fun _ => rfl) noNewCtx_seqs_nil

theorem noNewCtx_dropFork (fk : Nat) : (dropFork fk).NoNewCtx := noNewCtx_on fun _ => by
  split
  · exact noNewCtx_skip
  · exact noNewCtx_seqs_cons (noNewCtx_each fun _ =>
        noNewCtx_andThen (noNewCtx_on fun _ => noNewCtx_each noNewCtx_removeNode) (noNewCtx_removeNode _)) <|
      noNewCtx_seqs_cons (noNewCtx_each fun _ => noNewCtx_dropView ..) <|
      noNewCtx_seqs_cons (noNewCtx_act fun _ => rfl) <| noNewCtx_seqs_cons background_chooseAgain.noNewCtx noNewCtx_seqs_nil

theorem noNewCtx_discard (ctx : Nat) : (discard ctx).NoNewCtx := noNewCtx_on fun _ =>
  noNewCtx_seqs_cons (background_detachCalls ..).noNewCtx <|
  noNewCtx_seqs_cons (noNewCtx_each fun _ => noNewCtx_dropTeam _) <|
  noNewCtx_seqs_cons (noNewCtx_each fun _ => noNewCtx_dropFork _) <|
  noNewCtx_seqs_cons (noNewCtx_on fun _ => noNewCtx_each fun _ => noNewCtx_dropView ..) <|
  noNewCtx_seqs_cons (background_dropOps _).noNewCtx <|
  noNewCtx_seqs_cons (noNewCtx_on fun _ => noNewCtx_each fun _ => noNewCtx_when (noNewCtx_act fun _ => rfl)) noNewCtx_seqs_nil

theorem noNewCtx_writeHeader (ctx : Nat) (l : List SaveTeam) (ns : List (Nat × Node)) (n : Nat) : (writeHeader ctx l ns n).NoNewCtx :=
  noNewCtx_on fun _ => noNewCtx_onSome fun _ => noNewCtx_andThen (background_devWrite ..).noNewCtx (background_devWrite ..).noNewCtx

/-- What a `RESET` does before the context itself is taken away (R281). -/
def resetBefore (ctx : Nat) (s : State) : List Eff :=
  [onSome (s.ctxs.find ctx) fun c => when (c.run ≠ .cut) (stopAll ctx (stopOfs c.nparts [] 0) .reset),
    discard ctx, forgetCtx ctx,
    onSome (s.saved.find ctx) fun sv => andThen (upCtx ctx fun c => { c with parts := sv.parts }) (act (.saved ctx none)),
    on fun s => each (s.liveNodes ctx) fun kv =>
      if kv.2.rival.isSome then act (.node kv.1 none) else andThen (setState kv.1 .cancelled) (nodeSignal kv.2 false),
    on fun s => each (s.ctxQueues ctx) fun q => when (s.queues.find q).isSome (act (.queue q none)),
    on fun s => when ((s.ctxs.find ctx).elim false fun c => c.run ≠ .cut) (writeHeader ctx [] [] 0)]

theorem does_resetNow (s : State) (ctx res : Nat) :
    s.does (resetNow ctx res) = (((s.does (seqs (resetBefore ctx s))).apply (.ctx ctx none)).does (endCommand ctx res)) := by
  have h := does_seqs_append s (resetBefore ctx s) [act (.ctx ctx none), endCommand ctx res]
  rw [does_seqs_cons, does_seqs_cons, does_seqs_nil, does_act] at h
  rw [resetNow, does_on]
  exact h

theorem noNewCtx_resetBefore (ctx : Nat) (s : State) : (seqs (resetBefore ctx s)).NoNewCtx :=
  noNewCtx_seqs_cons (noNewCtx_onSome fun _ => noNewCtx_when (noNewCtx_stopAll ..)) <|
  noNewCtx_seqs_cons (noNewCtx_discard ctx) <| noNewCtx_seqs_cons (background_forgetCtx ctx).noNewCtx <|
  noNewCtx_seqs_cons (noNewCtx_onSome fun _ => noNewCtx_andThen (noNewCtx_upCtx ..) (noNewCtx_act fun _ => rfl)) <|
  noNewCtx_seqs_cons (noNewCtx_on fun _ => noNewCtx_each fun _ => noNewCtx_ite (noNewCtx_act fun _ => rfl)
    (noNewCtx_andThen (background_setState ..).noNewCtx (background_nodeSignal ..).noNewCtx)) <|
  noNewCtx_seqs_cons (noNewCtx_on fun _ => noNewCtx_each fun _ => noNewCtx_when (noNewCtx_act fun _ => rfl)) <|
  noNewCtx_seqs_cons (noNewCtx_on fun _ => noNewCtx_when (noNewCtx_writeHeader ..)) noNewCtx_seqs_nil

theorem noNewCtx_resetNow (ctx res : Nat) : (resetNow ctx res).NoNewCtx := ⟨fun s k hi h => by
  rw [does_resetNow]
  have h1 := does_inv hi (seqs (resetBefore ctx s))
  exact (background_endCommand ctx res).noNewCtx.none_stays _ _ (apply_keeps_inv h1 _)
    ((noNewCtx_dropCtx ctx).none_stays _ _ h1 ((noNewCtx_resetBefore ctx s).none_stays s k hi h))⟩

/-- After a `RESET` the context is gone (R281). -/
theorem resetNow_gone {s : State} (hi : s.Inv) (ctx res : Nat) : (s.does (resetNow ctx res)).ctxs.find ctx = none := by
  rw [does_resetNow]
  have h1 := does_inv hi (seqs (resetBefore ctx s))
  refine (background_endCommand ctx res).noNewCtx.none_stays _ _ (apply_keeps_inv h1 _) ?_
  rw [apply_ctxs]
  exact find_setO_none _ _ h1.ctxs

/-- The contexts of a function's enabled partitions. -/
def funcCtxs (s : State) (func : Nat) : List Nat :=
  (((List.range 16).filter fun p => s.partEn p && s.partFunc p = func).map s.partCtx).eraseDups

theorem mem_funcCtxs {s : State} {func p : Nat} (hp : p < 16) (he : s.partEn p = true) (hf : s.partFunc p = func) :
    s.partCtx p ∈ funcCtxs s func := by
  simp only [funcCtxs, List.mem_eraseDups, List.mem_map, List.mem_filter, List.mem_range]
  exact ⟨p, ⟨hp, by simp [he, hf]⟩, rfl⟩

theorem exec_functionLevelReset (func : Nat) (s : State) :
    exec (.functionLevelReset func) s = .next (s.does (each (funcCtxs s func) fun ctx => resetNow ctx 2)) := rfl

/-- A function-level reset takes away the contexts of the function's partitions (R313). -/
theorem functionLevelReset_gone {s : State} (hi : s.Inv) (func : Nat) : ∃ t, exec (.functionLevelReset func) s = .next t
    ∧ ∀ p < 16, s.partEn p = true → s.partFunc p = func → t.ctxs.find (s.partCtx p) = none := by
  have gone := does_each_all (f := fun ctx => resetNow ctx 2) (Q := fun k (t : State) => t.ctxs.find k = none)
    (fun k t ht => resetNow_gone ht k 2) (fun k j t ht => (noNewCtx_resetNow j 2).none_stays t k ht) (funcCtxs s func) hi
  exact ⟨_, exec_functionLevelReset func s, fun p hp he hf => gone _ (mem_funcCtxs hp he hf)⟩

end Sys2Proof.Machine
end

section
/-!
SUPPORT. The fields of a system CSR: what a read of some bits finds after a write of some bits (R5, R315).
-/
namespace Sys2Proof.Machine

theorem testBit_bitsOf (x hi lo i : Nat) : (bitsOf x hi lo).testBit i = (decide (i < hi + 1 - lo) && x.testBit (lo + i)) := by
  rw [bitsOf, Nat.testBit_mod_two_pow, Nat.testBit_div_two_pow, Nat.add_comm i lo]

theorem bitsOf_lt (x hi lo : Nat) : bitsOf x hi lo < 2 ^ (hi + 1 - lo) := Nat.mod_lt _ (Nat.two_pow_pos _)

/-- Bits that two numbers share. -/
theorem bitsOf_congr {x y hi lo : Nat} (h : ∀ i, lo ≤ i → i ≤ hi → x.testBit i = y.testBit i) : bitsOf x hi lo = bitsOf y hi lo := by
  refine Nat.eq_of_testBit_eq fun i => ?_
  rw [testBit_bitsOf, testBit_bitsOf]
  by_cases hi' : i < hi + 1 - lo
  · rw [h (lo + i) (by omega) (by omega)]
  · simp [hi']

theorem getLsbD_putBits (v : BitVec 64) {hi lo : Nat} (x : Nat) (h : hi < 64) (i : Nat) :
    (putBits v hi lo x).getLsbD i = if lo ≤ i ∧ i ≤ hi then x.testBit (i - lo) else v.getLsbD i := by
  simp only [putBits, BitVec.getLsbD_or, BitVec.getLsbD_and, BitVec.getLsbD_not, BitVec.getLsbD_shiftLeft, BitVec.getLsbD_ofNat,
    Nat.testBit_two_pow_sub_one]
  by_cases hin : lo ≤ i ∧ i ≤ hi
  · obtain ⟨h1, h2⟩ := hin
    have h3 : i < 64 := by omega
    have h4 : i - lo < hi + 1 - lo := by omega
    have h5 : i - lo < 64 := by omega
    have h6 : ¬ i < lo := by omega
    simp [h1, h2, h3, h4, h5, h6]
  · rw [if_neg hin]
    by_cases h64 : i < 64
    · have h4 : ¬ (lo ≤ i ∧ i - lo < hi + 1 - lo) := by omega
      by_cases h6 : i < lo
      · simp [h64, h6]
      · have h7 : ¬ (i - lo < hi + 1 - lo) := by omega
        simp [h64, h6, h7]
    · simp [h64, BitVec.getLsbD_of_ge v i (by omega)]

theorem testBit_toNat_putBits (v : BitVec 64) {hi lo : Nat} (x : Nat) (h : hi < 64) (i : Nat) :
    (putBits v hi lo x).toNat.testBit i = if lo ≤ i ∧ i ≤ hi then x.testBit (i - lo) else v.toNat.testBit i := by
  rw [BitVec.testBit_toNat, BitVec.testBit_toNat, getLsbD_putBits v x h]

/-- The bits written are read back. -/
theorem bitsOf_putBits_self (v : BitVec 64) {hi lo x : Nat} (h : hi < 64) (hx : x < 2 ^ (hi + 1 - lo)) :
    bitsOf (putBits v hi lo x).toNat hi lo = x := by
  refine Nat.eq_of_testBit_eq fun i => ?_
  rw [testBit_bitsOf]
  by_cases hi' : i < hi + 1 - lo
  · rw [testBit_toNat_putBits v x h, if_pos (by omega), Nat.add_sub_cancel_left]
    simp [hi']
  · have : x.testBit i = false := Nat.testBit_lt_two_pow (lt_of_lt_of_le hx (Nat.pow_le_pow_right (by omega) (by omega)))
    simp [hi', this]

/-- Other bits stand. -/
theorem bitsOf_putBits_ne (v : BitVec 64) {hi lo : Nat} (x : Nat) (h : hi < 64) {hi' lo' : Nat} (hd : hi' < lo ∨ hi < lo') :
    bitsOf (putBits v hi lo x).toNat hi' lo' = bitsOf v.toNat hi' lo' :=
  bitsOf_congr fun i _ _ => by rw [testBit_toNat_putBits v x h, if_neg (by omega)]

/-- Writing the bits that stand there changes nothing. -/
theorem putBits_bitsOf_self {v : BitVec 64} {hi lo x : Nat} (h : hi < 64) (hx : bitsOf v.toNat hi lo = x) : putBits v hi lo x = v := by
  refine BitVec.eq_of_getLsbD_eq fun i _ => ?_
  rw [getLsbD_putBits v x h, ← hx, testBit_bitsOf]
  split
  · rename_i hin
    have h1 : i - lo < hi + 1 - lo := by omega
    have h2 : lo + (i - lo) = i := by omega
    simp [h1, h2, BitVec.testBit_toNat]
  · rfl

/-- The low bits of a number hold its lower fields. -/
theorem bitsOf_bitsOf_low {x n hi lo : Nat} (hn : n < 64) (h : hi ≤ n) : bitsOf (BitVec.ofNat 64 (bitsOf x n 0)).toNat hi lo = bitsOf x hi lo :=
  bitsOf_congr fun i _ hi' => by
    rw [BitVec.testBit_toNat, BitVec.getLsbD_ofNat, testBit_bitsOf, Nat.zero_add]
    simp [show i < 64 by omega, show i < n + 1 by omega]

theorem clamp_le {lo hi : Nat} (h : lo ≤ hi) (x : Nat) : clamp lo hi x ≤ hi := by
  unfold clamp
  omega

-- `FETMO` and `PCEIL` of `PARTCFG`

theorem bitsOf_tuned_fetmo (v : BitVec 64) (x : Nat) : bitsOf (tuned v x).toNat 41 28 = clamp 1 10000 (bitsOf x 41 28) := by
  rw [tuned, bitsOf_putBits_ne _ _ (by omega) (by omega)]
  exact bitsOf_putBits_self _ (by omega) (lt_of_le_of_lt (clamp_le (by omega) _) (by omega))

theorem bitsOf_tuned_pceil (v : BitVec 64) (x : Nat) : bitsOf (tuned v x).toNat 48 44 = min 23 (bitsOf x 48 44) :=
  bitsOf_putBits_self _ (by omega) (lt_of_le_of_lt (Nat.min_le_left ..) (by omega))

theorem bitsOf_tuned_other (v : BitVec 64) (x : Nat) {hi lo : Nat} (h : hi < 28 ∨ 41 < lo ∧ (hi < 44 ∨ 48 < lo)) :
    bitsOf (tuned v x).toNat hi lo = bitsOf v.toNat hi lo := by
  rw [tuned, bitsOf_putBits_ne _ _ (by omega) (by omega), bitsOf_putBits_ne _ _ (by omega) (by omega)]

-- reading a CSR behind a write

@[simp] theorem csr_apply_sys_self (s : State) (k : Nat) (v : BitVec 64) : (s.apply (.sys k (some v))).csr k = v := by
  rw [State.csr, apply_sys, AMap.findD, find_setO_self, Option.getD_some]

theorem csr_apply_sys_ne (s : State) {k j : Nat} (v : BitVec 64) (h : j ≠ k) : (s.apply (.sys k (some v))).csr j = s.csr j := by
  rw [State.csr, State.csr, apply_sys, AMap.findD, AMap.findD, find_setO_some_ne _ _ h]

@[simp] theorem does_setCsr (s : State) (k : Nat) (v : BitVec 64) : s.does (setCsr k v) = s.apply (.sys k (some v)) := rfl

end Sys2Proof.Machine
end

section
/-!
SUPPORT. `PARTCFG_WRITE` (R313), case by case: what it does to a partition under scrub, to one that is enabled, and to one that is not.
-/
namespace Sys2Proof.Machine

theorem outside_up {s : State} (h : s.power ≠ .held) (e : Eff) : outside s e = .next (s.does e) := by
  rw [outside, decide_eq_true h]
  rfl

theorem outside_held {s : State} (h : s.power = .held) (e : Eff) : outside s e = .next s := by
  rw [outside, h]
  rfl

/-- The value that a write of `x` to the `PARTCFG` of a partition that is not enabled asks for (R305, R313). -/
def partcfgAsked (s : State) (x : Nat) : BitVec 64 :=
  putBits (tuned (BitVec.ofNat 64 (bitsOf x 48 0)) x) 43 43
    (if s.csrBits offTWINCFG 0 0 = 1 ∧ s.csrBits offTWINCFG 2 2 = 1 then bitsOf x 43 43 else 0)

/-- A field of the value asked for that the limits of R313 do not touch. -/
theorem bitsOf_partcfgAsked (s : State) (x : Nat) {hi lo : Nat} (h : hi < 28 ∨ lo = 42 ∧ hi = 42) :
    bitsOf (partcfgAsked s x).toNat hi lo = bitsOf x hi lo := by
  rw [partcfgAsked, bitsOf_putBits_ne _ _ (by omega) (by omega), bitsOf_tuned_other _ _ (by omega), bitsOf_bitsOf_low (by omega) (by omega)]

theorem bitsOf_partcfgAsked_paired (s : State) (x : Nat) : bitsOf (partcfgAsked s x).toNat 43 43
    = if s.csrBits offTWINCFG 0 0 = 1 ∧ s.csrBits offTWINCFG 2 2 = 1 then bitsOf x 43 43 else 0 :=
  bitsOf_putBits_self _ (by omega) (by
    split
    · exact bitsOf_lt x 43 43
    · omega)

/-- What the device makes of the written value is the value asked for: without a twin `PAIRED` is dropped (log entry 68). -/
theorem partcfgAsked_eq (s : State) (x : Nat) :
    (if s.csrBits offTWINCFG 0 0 = 1 && s.csrBits offTWINCFG 2 2 = 1 then tuned (BitVec.ofNat 64 (bitsOf x 48 0)) x
      else putBits (tuned (BitVec.ofNat 64 (bitsOf x 48 0)) x) 43 43 0) = partcfgAsked s x := by
  have hp : bitsOf (tuned (BitVec.ofNat 64 (bitsOf x 48 0)) x).toNat 43 43 = bitsOf x 43 43 := by
    rw [bitsOf_tuned_other _ _ (by omega), bitsOf_bitsOf_low (by omega) (by omega)]
  by_cases h : s.csrBits offTWINCFG 0 0 = 1 ∧ s.csrBits offTWINCFG 2 2 = 1
  · rw [partcfgAsked, if_pos h, putBits_bitsOf_self (by omega) hp, if_pos (by simpa using h)]
  · rw [partcfgAsked, if_neg h, if_neg (by simpa using h)]

section Write
variable {s : State} {n : Nat} {v : BitVec 64}

theorem exec_partcfgWrite_none (h : 16 ≤ n ∨ s.power = .held) : exec (.partcfgWrite n v) s = .next s := by
  change execPartcfgWrite n v s = _
  by_cases hp : s.power = .held
  · rw [execPartcfgWrite, outside_held hp]
  · rw [execPartcfgWrite, outside_up hp, if_pos (h.resolve_right hp)]
    rfl

theorem exec_partcfgWrite_scrub (hn : n < 16) (hp : s.power ≠ .held) (hs : s.csrBits (offPARTCFG n) 49 49 = 1) :
    exec (.partcfgWrite n v) s = .next (s.does (when (bitsOf v.toNat 0 0 = 1) (partRefused n 1))) := by
  change execPartcfgWrite n v s = _
  rw [execPartcfgWrite, outside_up hp, if_neg (by omega), if_pos hs]

theorem exec_partcfgWrite_tune (hn : n < 16) (hp : s.power ≠ .held) (hs : ¬ s.csrBits (offPARTCFG n) 49 49 = 1) (he : s.partEn n = true)
    (hu : bitsOf v.toNat 0 0 = 1 ∨ s.inUse n = true) :
    exec (.partcfgWrite n v) s = .next (s.does (setCsr (offPARTCFG n) (tuned (s.csr (offPARTCFG n)) v.toNat))) := by
  change execPartcfgWrite n v s = _
  rw [execPartcfgWrite, outside_up hp, if_neg (by omega), if_neg hs, if_pos he, if_pos (by simpa using hu)]

theorem exec_partcfgWrite_disable (hn : n < 16) (hp : s.power ≠ .held) (hs : ¬ s.csrBits (offPARTCFG n) 49 49 = 1) (he : s.partEn n = true)
    (h0 : bitsOf v.toNat 0 0 = 0) (hu : s.inUse n = false) :
    exec (.partcfgWrite n v) s = .next (s.does (seqs [setCsr (offPARTCFG n)
      (putBits (putBits (tuned (s.csr (offPARTCFG n)) v.toNat) 0 0 0) 49 49 1), scrub n, later 40000000 120000000 (.scrubComplete n)])) := by
  change execPartcfgWrite n v s = _
  rw [execPartcfgWrite, outside_up hp, if_neg (by omega), if_neg hs, if_pos he, if_neg (by simp [h0, hu])]

theorem exec_partcfgWrite_off (hn : n < 16) (hp : s.power ≠ .held) (hs : ¬ s.csrBits (offPARTCFG n) 49 49 = 1) (he : s.partEn n = false)
    (h0 : bitsOf v.toNat 0 0 = 0) :
    exec (.partcfgWrite n v) s = .next (s.does (setCsr (offPARTCFG n) (putBits (partcfgAsked s v.toNat) 0 0 0))) := by
  change execPartcfgWrite n v s = _
  rw [execPartcfgWrite, outside_up hp, if_neg (by omega), if_neg hs, if_neg (by simp [he])]
  dsimp only
  rw [if_pos h0, partcfgAsked_eq]

/-- A refused enable writes the value asked for with `EN` = 0 (log entry 68), and reports. -/
theorem exec_partcfgWrite_refused (hn : n < 16) (hp : s.power ≠ .held) (hs : ¬ s.csrBits (offPARTCFG n) 49 49 = 1) (he : s.partEn n = false)
    (h1 : bitsOf v.toNat 0 0 = 1) (hr : (s.unrepairable n).isSome = true ∨ mismatch s n (partcfgAsked s v.toNat) = true) :
    ∃ e : Eff, e.Background
      ∧ exec (.partcfgWrite n v) s = .next ((s.does (setCsr (offPARTCFG n) (putBits (partcfgAsked s v.toNat) 0 0 0))).does e) := by
  have hx : exec (.partcfgWrite n v) s = execPartcfgWrite n v s := rfl
  rw [hx, execPartcfgWrite, outside_up hp, if_neg (by omega), if_neg hs, if_neg (by simp [he])]
  dsimp only
  rw [if_neg (by omega), partcfgAsked_eq]
  have refused (why : Nat) : (partRefused n why).Background := only_on fun _ => background_event ..
  cases hq : s.unrepairable n with
  | some p =>
    refine ⟨seqs [event 14 (dieOf p.1) n (bitsOf v.toNat 23 8) p.1 p.2 (s.rodBits (offREPLIST p.1) p.2).toNat 0 [], partRefused n 2],
      only_seqs_cons (background_event ..) (only_seqs_cons (refused 2) only_seqs_nil), ?_⟩
    rw [does_seqs_cons]
  | none =>
    have hm : mismatch s n (partcfgAsked s v.toNat) = true := hr.resolve_left (by simp [hq])
    refine ⟨partRefused n 3, refused 3, ?_⟩
    rw [← does_andThen]
    exact congrArg (fun e => Host.Outcome.next (s.does e)) (if_pos hm)

theorem exec_partcfgWrite_enable (hn : n < 16) (hp : s.power ≠ .held) (hs : ¬ s.csrBits (offPARTCFG n) 49 49 = 1) (he : s.partEn n = false)
    (h1 : bitsOf v.toNat 0 0 = 1) (hr : s.unrepairable n = none) (hm : mismatch s n (partcfgAsked s v.toNat) = false) :
    exec (.partcfgWrite n v) s = .next (s.does (seqs [setCsr (offPARTCFG n) (partcfgAsked s v.toNat), repair n,
      each (partFrames n) fun f => act (.ways f none)])) := by
  change execPartcfgWrite n v s = _
  rw [execPartcfgWrite, outside_up hp, if_neg (by omega), if_neg hs, if_neg (by simp [he])]
  dsimp only
  rw [if_neg (by omega), partcfgAsked_eq, hr]
  exact congrArg (fun e => Host.Outcome.next (s.does e)) (if_neg (by simp [hm]))

end Write

theorem not_reportCsr_partcfg {n : Nat} (hn : n < 16) : ¬ reportCsr (offPARTCFG n) := by
  unfold reportCsr offPARTCFG offPart
  omega

end Sys2Proof.Machine
end

section
/-!
SUPPORT. The repair of lanes when a partition is enabled (R296), and the scrub of one that is disabled (R313, R484).
-/
namespace Sys2Proof.Machine

-- lane repair

/-- The rods of a partition: frame and rod. -/
def partRods (n : Nat) : List (Nat × Nat) := (List.range 256).map fun k => (16 * n + k / 16, k % 16)

/-- The repair of one rod, by what `s` says of its marked lanes (R296). -/
def repairRod (s : State) (p : Nat × Nat) : Eff :=
  when (s.toReplace p.1 p.2 ≠ 0#32) (andThen (act (.spare (16 * p.1 + p.2) (some (s.spare.findD (16 * p.1 + p.2) 0 + (s.toReplace p.1 p.2).toNat))))
    (on fun t => setCsr (offLANEFLAG p.1 (p.2 / 2))
      (t.csr (offLANEFLAG p.1 (p.2 / 2)) &&& ~~~ ((s.toReplace p.1 p.2).zeroExtend 64 <<< (32 * (p.2 % 2))))))

theorem does_repair (s : State) (n : Nat) : s.does (repair n) = s.does (each (partRods n) (repairRod s)) := by
  rw [repair, does_on]
  unfold partRods repairRod
  rfl

theorem mem_partRods {n k r : Nat} (hk : k < 16) (hr : r < 16) : (16 * n + k, r) ∈ partRods n :=
  List.mem_map.2 ⟨16 * k + r, List.mem_range.2 (by omega), Prod.ext (by dsimp only; omega) (by dsimp only; omega)⟩

theorem rod_lt_of_mem {n : Nat} {p : Nat × Nat} (h : p ∈ partRods n) : p.2 < 16 := by
  obtain ⟨k, -, rfl⟩ := List.mem_map.1 h
  exact Nat.mod_lt _ (by omega)

/-- The flag slots of two rods are one only where the rods share it. -/
theorem offLANEFLAG_inj {f k f' k' : Nat} (hk : k < 8) (hk' : k' < 8) (h : offLANEFLAG f k = offLANEFLAG f' k') : f = f' ∧ k = k' := by
  unfold offLANEFLAG at h
  omega

theorem getLsbD_rodBits (s : State) (ofs : Nat → Nat) (r : Nat) {i : Nat} (hi : i < 32) :
    (s.rodBits ofs r).getLsbD i = (s.csr (ofs (r / 2))).getLsbD (32 * (r % 2) + i) := by
  rw [State.rodBits, BitVec.getLsbD_ofNat, State.csrBits, testBit_bitsOf, BitVec.testBit_toNat]
  simp [hi, show i < 32 * (r % 2) + 31 + 1 - 32 * (r % 2) by omega]

/-- A word in one half of 64 bits, read in either half. -/
theorem getLsbD_half (m : Word) {a b i : Nat} (ha : a < 2) (hb : b < 2) (hi : i < 32) :
    (m.zeroExtend 64 <<< (32 * a)).getLsbD (32 * b + i) = (decide (b = a) && m.getLsbD i) := by
  rw [BitVec.zeroExtend, BitVec.getLsbD_shiftLeft, BitVec.getLsbD_setWidth]
  rcases Nat.lt_trichotomy a b with h | rfl | h
  · rw [BitVec.getLsbD_of_ge m (32 * b + i - 32 * a) (by omega)]
    simp [show b ≠ a by omega]
  · rw [Nat.add_sub_cancel_left]
    simp [show 32 * a + i < 64 by omega, show i < 64 by omega]
  · simp [show 32 * b + i < 32 * a by omega, show b ≠ a by omega]

/-- The repair of a rod clears the flags of its replaced lanes, and no other rod's. -/
theorem rodBits_repairRod (s0 s : State) {p q : Nat × Nat} (hp : p.2 < 16) (hq : q.2 < 16) :
    (s.does (repairRod s0 p)).rodBits (offLANEFLAG q.1) q.2
      = s.rodBits (offLANEFLAG q.1) q.2 &&& ~~~ (if q = p then s0.toReplace q.1 q.2 else 0#32) := by
  rw [repairRod, does_when]
  by_cases h0 : s0.toReplace p.1 p.2 = 0#32
  · have hm : (if q = p then s0.toReplace q.1 q.2 else 0#32) = 0#32 := by
      split
      · rename_i h; rw [h, h0]
      · rfl
    rw [if_neg (by simp [h0]), hm, and_not_zero]
  · rw [if_pos (by simp [h0]), does_andThen, does_on, does_setCsr, does_act]
    refine BitVec.eq_of_getLsbD_eq fun i hi => ?_
    rw [BitVec.getLsbD_and, BitVec.getLsbD_not, getLsbD_rodBits _ _ _ hi, getLsbD_rodBits _ _ _ hi]
    by_cases hk : offLANEFLAG q.1 (q.2 / 2) = offLANEFLAG p.1 (p.2 / 2)
    · obtain ⟨h1, h2⟩ := offLANEFLAG_inj (by omega) (by omega) hk
      have hqp : q = p ↔ q.2 % 2 = p.2 % 2 := ⟨fun h => by rw [h], fun h => Prod.ext h1 (by omega)⟩
      rw [hk, csr_apply_sys_self, BitVec.getLsbD_and, BitVec.getLsbD_not, getLsbD_half _ (by omega) (by omega) hi]
      by_cases he : q = p
      · subst he
        simp [State.csr, hi, show 32 * (q.2 % 2) + i < 64 by omega]
      · simp [State.csr, he, mt hqp.2 he, hi, show 32 * (q.2 % 2) + i < 64 by omega]
    · have hne : q ≠ p := by rintro rfl; exact hk rfl
      rw [csr_apply_sys_ne _ _ hk, if_neg hne]
      simp [State.csr, hi]

theorem rodBits_repair (s0 : State) {l : List (Nat × Nat)} (hl : ∀ p ∈ l, p.2 < 16) {q : Nat × Nat} (hq : q.2 < 16) (s : State) :
    (s.does (each l (repairRod s0))).rodBits (offLANEFLAG q.1) q.2
      = s.rodBits (offLANEFLAG q.1) q.2 &&& ~~~ (if q ∈ l then s0.toReplace q.1 q.2 else 0#32) := by
  induction l generalizing s with
  | nil => exact (and_not_zero _).symm
  | cons p l ih =>
    rw [does_each_cons, ih (fun x hx => hl x (List.mem_cons_of_mem _ hx)), rodBits_repairRod s0 s (hl p List.mem_cons_self) hq,
      BitVec.and_assoc]
    congr 1
    by_cases h : q = p
    · rw [if_pos h, if_pos (List.mem_cons.2 (.inl h))]
      split
      · exact BitVec.and_self
      · rw [BitVec.not_zero, BitVec.and_allOnes]
    · have hm : q ∈ p :: l ↔ q ∈ l := by rw [List.mem_cons, or_iff_right h]
      simp only [if_neg h, hm, BitVec.not_zero, BitVec.allOnes_and]

theorem offLANEFLAG_ne_partcfg {n : Nat} (hn : n < 16) (f k : Nat) : offPARTCFG n ≠ offLANEFLAG f k := by
  unfold offPARTCFG offPart offLANEFLAG
  omega

/-- A repair writes spares and lane flags alone. -/
theorem keeps_repair {β : Type} {q : State → β} (hs : ∀ k x (s : State), q (s.apply (.spare k x)) = q s)
    (hf : ∀ f k v (s : State), q (s.apply (.sys (offLANEFLAG f k) (some v))) = q s) (n : Nat) : (repair n).Keeps q :=
  keeps_on fun _ => keeps_each _ fun _ _ => keeps_when _ fun _ => keeps_andThen (fun s => hs _ _ s) (keeps_on fun _ s => hf _ _ _ s)

theorem keeps_repair_partcfg {n m : Nat} (hn : n < 16) : (repair m).Keeps fun s => s.csr (offPARTCFG n) :=
  keeps_repair (fun _ _ _ => rfl) (fun _ _ _ s => csr_apply_sys_ne s _ (offLANEFLAG_ne_partcfg hn _ _)) m

/-- The store ways of a partition's frames go back to its configuration (R154). -/
def clearWays (n : Nat) : Eff := each (partFrames n) fun f => act (.ways f none)

theorem mem_partFrames {n k : Nat} (hk : k < 16) : 16 * n + k ∈ partFrames n := List.mem_map.2 ⟨k, List.mem_range.2 hk, rfl⟩

theorem keeps_clearWays {β : Type} {q : State → β} (h : ∀ k x (s : State), q (s.apply (.ways k x)) = q s) (n : Nat) : (clearWays n).Keeps q :=
  keeps_each _ fun _ _ => keeps_act fun s => h _ _ s

theorem clearWays_none {s : State} (hi : s.Inv) {n k : Nat} (hk : k < 16) : (s.does (clearWays n)).ways.find (16 * n + k) = none := by
  refine does_each_all (f := fun f => act (.ways f none)) (Q := fun f (t : State) => t.ways.find f = none) (fun f t ht => ?_)
    (fun f j t ht h => ?_) (partFrames n) hi _ (mem_partFrames hk)
  · rw [does_act, apply_ways]
    exact find_setO_none_of ht.ways fun h => absurd rfl h
  · rw [does_act, apply_ways]
    exact find_setO_none_of ht.ways fun _ => h

-- caches that give up what they hold

/-- An effect that takes lines from caches at most: the clock, the regions and the configuration stand, and no L1 or RDC comes into being. -/
structure Eff.Evicts (e : Eff) : Prop where
  now : e.Keeps State.now
  regions : e.Keeps State.regions
  csr : ∀ k, ¬ reportCsr k → e.Keeps fun s => s.csr k
  l1 : ∀ (s : State) (k : Nat), s.Inv → s.l1.find k = none → (s.does e).l1.find k = none
  rdc : ∀ (s : State) (k : Nat), s.Inv → s.rdc.find k = none → (s.does e).rdc.find k = none

theorem Eff.Only.evicts {e : Eff} (h : e.Background) : e.Evicts where
  now s := (h.sameCore s).now
  regions s := (h.sameCore s).regions
  csr k hk s := (h.sameCore s).csr k hk
  l1 s k _ hs := by rw [(h.sameCore s).l1]; exact hs
  rdc s k _ hs := by rw [(h.sameCore s).rdc]; exact hs

theorem evicts_skip : skip.Evicts := Eff.Only.evicts only_skip

theorem evicts_andThen {a b : Eff} (ha : a.Evicts) (hb : b.Evicts) : (andThen a b).Evicts where
  now := keeps_andThen ha.now hb.now
  regions := keeps_andThen ha.regions hb.regions
  csr k hk := keeps_andThen (ha.csr k hk) (hb.csr k hk)
  l1 s k hi h := by rw [does_andThen]; exact hb.l1 _ _ (does_inv hi a) (ha.l1 s k hi h)
  rdc s k hi h := by rw [does_andThen]; exact hb.rdc _ _ (does_inv hi a) (ha.rdc s k hi h)

theorem evicts_seqs_nil : (seqs []).Evicts := evicts_skip

theorem evicts_seqs_cons {a : Eff} {l : List Eff} (ha : a.Evicts) (hl : (seqs l).Evicts) : (seqs (a :: l)).Evicts := evicts_andThen ha hl

theorem evicts_each {α : Type} {l : List α} {f : α → Eff} (h : ∀ a, (f a).Evicts) : (each l f).Evicts := by
  induction l with
  | nil => exact evicts_skip
  | cons a l ih => exact evicts_andThen (h a) ih

theorem evicts_when {b : Bool} {e : Eff} (h : e.Evicts) : (when b e).Evicts := by
  cases b
  · exact evicts_skip
  · exact h

theorem evicts_ite {p : Prop} [Decidable p] {a b : Eff} (ha : a.Evicts) (hb : b.Evicts) : (if p then a else b).Evicts := by
  split
  · exact ha
  · exact hb

theorem evicts_on {f : State → Eff} (h : ∀ s, (f s).Evicts) : (on f).Evicts where
  now := keeps_on fun s => (h s).now
  regions := keeps_on fun s => (h s).regions
  csr k hk := keeps_on fun s => (h s).csr k hk
  l1 s := (h s).l1 s
  rdc s := (h s).rdc s

theorem evicts_onSome {α : Type} {o : Option α} {f : α → Eff} (h : ∀ a, (f a).Evicts) : (onSome o f).Evicts := by
  cases o with
  | none => exact evicts_skip
  | some a => exact h a

/-- An entry put where there is one, in any table, adds no other. -/
theorem find_put_of_some {α : Type} {m : AMap α} {n k : Nat} {x y : α} (hn : AMap.find m n = some x) (h : AMap.find m k = none) :
    AMap.find (setO m n (some y)) k = none := by
  have hkn : k ≠ n := by rintro rfl; rw [hn] at h; cases h
  rw [find_setO_some_ne _ _ hkn]
  exact h

theorem evicts_upL1 (n : Nat) (f : AMap Sector → AMap Sector) : (upL1 n f).Evicts := by
  have step (s : State) : s.does (upL1 n f) = s ∨ ∃ x, s.l1.find n = some x ∧ s.does (upL1 n f) = s.apply (.l1 n (some (f x))) := by
    cases hn : s.l1.find n with
    | none => exact .inl (does_upL1_none _ _ _ hn)
    | some x => exact .inr ⟨x, rfl, does_upL1_some _ _ _ _ hn⟩
  refine ⟨fun s => ?_, fun s => ?_, fun k _ s => ?_, fun s k _ h => ?_, fun s k _ h => ?_⟩ <;> rcases step s with h1 | ⟨x, hx, h1⟩ <;> rw [h1]
  case refine_4.inl => exact h
  case refine_4.inr => exact find_put_of_some hx h
  case refine_5.inl => exact h
  case refine_5.inr => exact h
  all_goals rfl

theorem evicts_upRdc (n : Nat) (f : AMap Sector → AMap Sector) : (upRdc n f).Evicts := by
  have step (s : State) : s.does (upRdc n f) = s ∨ ∃ x, s.rdc.find n = some x ∧ s.does (upRdc n f) = s.apply (.rdc n (some (f x))) := by
    cases hn : s.rdc.find n with
    | none => exact .inl (does_upRdc_none _ _ _ hn)
    | some x => exact .inr ⟨x, rfl, does_upRdc_some _ _ _ _ hn⟩
  refine ⟨fun s => ?_, fun s => ?_, fun k _ s => ?_, fun s k _ h => ?_, fun s k _ h => ?_⟩ <;> rcases step s with h1 | ⟨x, hx, h1⟩ <;> rw [h1]
  case refine_4.inl => exact h
  case refine_4.inr => exact h
  case refine_5.inl => exact h
  case refine_5.inr => exact find_put_of_some hx h
  all_goals rfl

theorem evicts_dropL1 (frame line : Nat) : (dropL1 frame line).Evicts := evicts_andThen (background_promote ..).evicts (evicts_upL1 ..)

theorem evicts_dropRdc (die line : Nat) : (dropRdc die line).Evicts := evicts_on fun _ => evicts_onSome fun _ => evicts_upRdc ..

theorem evicts_swmBack (die sec : Nat) (x : Sector) : (swmBack die sec x).Evicts := evicts_on fun _ =>
  evicts_seqs_cons (background_swmWriteBack ..).evicts <| evicts_seqs_cons (evicts_when (background_out _).evicts) <|
  evicts_seqs_cons (evicts_onSome fun _ => evicts_upRdc ..) evicts_seqs_nil

theorem evicts_evictL1 (frame line : Nat) : (evictL1 frame line).Evicts := evicts_on fun _ => evicts_onSome fun _ =>
  evicts_seqs_cons (evicts_when (evicts_swmBack ..)) <| evicts_seqs_cons (evicts_dropL1 ..) <|
  evicts_seqs_cons (background_dropBeads ..).evicts evicts_seqs_nil

theorem evicts_yieldDie (die line : Nat) : (yieldDie die line).Evicts := evicts_on fun _ =>
  evicts_seqs_cons (evicts_each fun _ => evicts_dropL1 ..) <| evicts_seqs_cons (Eff.Only.evicts (only_act trivial)) <|
  evicts_seqs_cons (evicts_dropRdc ..) evicts_seqs_nil

theorem evicts_evictRdc (die line : Nat) : (evictRdc die line).Evicts := evicts_on fun _ => evicts_onSome fun _ =>
  evicts_ite (evicts_andThen (evicts_when (evicts_swmBack ..)) (evicts_dropRdc ..)) <|
  evicts_seqs_cons (evicts_yieldDie ..) <| evicts_seqs_cons (background_setDir ..).evicts <|
  evicts_seqs_cons (evicts_when (background_freeHost _).evicts) <|
  evicts_seqs_cons (evicts_when (evicts_ite (Eff.Only.evicts (only_andThen (only_act trivial) (background_out _))) (background_out _).evicts))
    evicts_seqs_nil

end Sys2Proof.Machine
end

section
/-!
SUPPORT. The scrub of a partition (R313, R484): its caches, its memory, and what stays.
-/
namespace Sys2Proof.Machine

-- the caches of the partition

/-- A frame's L1 gives up what it holds. -/
def giveUpL1 (f : Nat) : Eff := on fun s => andThen (each (s.l1.findD f []).keys (evictL1 f)) (act (.l1 f none))

/-- A partition's ways of its die's RDC give up what they hold. -/
def giveUpRdc (n : Nat) : Eff := on fun s => andThen (each (s.rdc.findD n []).keys (evictRdc (n / 4))) (act (.rdc n none))

/-- A partition's ways of the L2s are empty. -/
def giveUpL2 (n : Nat) : Eff := each (List.range 4) fun d => act (.l2 (16 * d + n) none)

theorem does_emptyCaches (s : State) (n : Nat) :
    s.does (emptyCaches n) = ((s.does (each (partFrames n) giveUpL1)).does (giveUpRdc n)).does (giveUpL2 n) := by
  rw [emptyCaches, does_seqs_cons, does_seqs_cons, does_seqs_cons, does_seqs_nil]
  rfl

theorem evicts_dropL1s (f : Nat) : (act (.l1 f none)).Evicts where
  now _ := rfl
  regions _ := rfl
  csr _ _ _ := rfl
  l1 s k hi h := by rw [does_act, apply_l1]; exact find_setO_none_of hi.l1 fun _ => h
  rdc _ _ _ h := h

theorem evicts_dropRdcs (n : Nat) : (act (.rdc n none)).Evicts where
  now _ := rfl
  regions _ := rfl
  csr _ _ _ := rfl
  l1 _ _ _ h := h
  rdc s k hi h := by rw [does_act, apply_rdc]; exact find_setO_none_of hi.rdc fun _ => h

theorem evicts_giveUpL1 (f : Nat) : (giveUpL1 f).Evicts := evicts_on fun _ => evicts_andThen (evicts_each fun _ => evicts_evictL1 ..) (evicts_dropL1s f)

theorem evicts_giveUpRdc (n : Nat) : (giveUpRdc n).Evicts :=
  evicts_on fun _ => evicts_andThen (evicts_each fun _ => evicts_evictRdc ..) (evicts_dropRdcs n)

theorem evicts_giveUpL2 (n : Nat) : (giveUpL2 n).Evicts := evicts_each fun _ => Eff.Only.evicts (only_act trivial)

theorem evicts_emptyCaches (n : Nat) : (emptyCaches n).Evicts :=
  evicts_seqs_cons (evicts_each evicts_giveUpL1) <| evicts_seqs_cons (evicts_giveUpRdc n) <| evicts_seqs_cons (evicts_giveUpL2 n) evicts_seqs_nil

theorem giveUpL1_none {s : State} (hi : s.Inv) (f : Nat) : (s.does (giveUpL1 f)).l1.find f = none := by
  rw [giveUpL1, does_on, does_andThen, does_act, apply_l1]
  exact find_setO_none _ _ (does_inv hi _).l1

theorem giveUpRdc_none {s : State} (hi : s.Inv) (n : Nat) : (s.does (giveUpRdc n)).rdc.find n = none := by
  rw [giveUpRdc, does_on, does_andThen, does_act, apply_rdc]
  exact find_setO_none _ _ (does_inv hi _).rdc

theorem giveUpL2_none {s : State} (hi : s.Inv) {n d : Nat} (hd : d < 4) : (s.does (giveUpL2 n)).l2.find (16 * d + n) = none := by
  refine does_each_all (f := fun d => act (.l2 (16 * d + n) none)) (Q := fun d (t : State) => t.l2.find (16 * d + n) = none)
    (fun d t ht => ?_) (fun d j t ht h => ?_) (List.range 4) hi d (List.mem_range.2 hd)
  · rw [does_act, apply_l2]
    exact find_setO_none_of ht.l2 fun h => absurd rfl h
  · rw [does_act, apply_l2]
    exact find_setO_none_of ht.l2 fun _ => h

theorem emptyCaches_l1 {s : State} (hi : s.Inv) (n : Nat) : ∀ f ∈ partFrames n, (s.does (emptyCaches n)).l1.find f = none := by
  intro f hf
  have h1 := does_each_all (f := giveUpL1) (Q := fun f (t : State) => t.l1.find f = none) (fun f t ht => giveUpL1_none ht f)
    (fun f j t ht => (evicts_giveUpL1 j).l1 t f ht) (partFrames n) hi f hf
  rw [does_emptyCaches]
  have hi1 := does_inv hi (each (partFrames n) giveUpL1)
  exact (evicts_giveUpL2 n).l1 _ f (does_inv hi1 _) ((evicts_giveUpRdc n).l1 _ f hi1 h1)

theorem emptyCaches_rdc {s : State} (hi : s.Inv) (n : Nat) : (s.does (emptyCaches n)).rdc.find n = none := by
  rw [does_emptyCaches]
  have hi1 := does_inv hi (each (partFrames n) giveUpL1)
  exact (evicts_giveUpL2 n).rdc _ n (does_inv hi1 _) (giveUpRdc_none hi1 n)

theorem emptyCaches_l2 {s : State} (hi : s.Inv) {n d : Nat} (hd : d < 4) : (s.does (emptyCaches n)).l2.find (16 * d + n) = none := by
  rw [does_emptyCaches]
  exact giveUpL2_none (does_inv (does_inv hi _) _) hd

/-- A loop each of whose parts keeps a property keeps it. -/
theorem does_each_keeps {α : Type} {P : State → Prop} (l : List α) {f : α → Eff} (h : ∀ a ∈ l, ∀ s, P s → P (State.does s (f a))) {s : State}
    (hs : P s) : P (s.does (each l f)) := by
  induction l generalizing s with
  | nil => exact hs
  | cons a l ih =>
    rw [does_each_cons]
    exact ih (fun b hb => h b (List.mem_cons_of_mem _ hb)) (h a List.mem_cons_self s hs)

/-- Empty caches write nothing back. -/
theorem emptyCaches_mem {s : State} (hi : s.Inv) {n : Nat} (hl : ∀ f ∈ partFrames n, s.l1.findD f [] = []) (hr : s.rdc.findD n [] = []) :
    (s.does (emptyCaches n)).mem = s.mem := by
  have h1 := does_each_keeps (P := fun t : State => t.Inv ∧ t.mem = s.mem ∧ t.rdc = s.rdc ∧ ∀ f ∈ partFrames n, t.l1.findD f [] = [])
    (partFrames n) (f := giveUpL1) (fun f hf t ⟨ht, hm, hd, hl⟩ => by
      have ht2 : t.does (giveUpL1 f) = t.apply (.l1 f none) := by
        rw [giveUpL1, does_on, hl f hf]
        rfl
      rw [ht2]
      refine ⟨apply_keeps_inv ht _, hm, hd, fun j hj => ?_⟩
      rw [AMap.findD, apply_l1]
      by_cases hjf : j = f
      · rw [hjf, find_setO_none _ _ ht.l1]; rfl
      · rw [find_setO_ne _ _ ht.l1 hjf]; exact hl j hj) ⟨hi, rfl, rfl, hl⟩
  obtain ⟨-, hm, hd, -⟩ := h1
  have h2 : ∀ t : State, t.rdc.findD n [] = [] → t.does (giveUpRdc n) = t.apply (.rdc n none) := fun t h => by
    rw [giveUpRdc, does_on, h]
    rfl
  have h3 : (giveUpL2 n).Keeps State.mem := keeps_each _ fun _ _ => keeps_act fun _ => rfl
  rw [does_emptyCaches, h3, h2 _ (by rw [hd]; exact hr), apply_mem]
  exact hm

-- the memory of the partition

theorem AMap_mem_of_find {α : Type} {m : AMap α} {k : Nat} {a : α} (h : AMap.find m k = some a) : (k, a) ∈ m := by
  induction m with
  | nil => cases h
  | cons p m ih =>
    obtain ⟨j, b⟩ := p
    simp only [AMap.find] at h
    split at h
    · rename_i hj
      cases h
      exact hj ▸ List.mem_cons_self
    · split at h
      · cases h
      · exact List.mem_cons_of_mem _ (ih h)

theorem AMap_find_of_mem {α : Type} {m : AMap α} (hw : AMap.wf m = true) {k : Nat} {a : α} (h : (k, a) ∈ m) : AMap.find m k = some a := by
  induction m with
  | nil => cases h
  | cons p m ih =>
    obtain ⟨j, b⟩ := p
    rcases List.mem_cons.1 h with h | h
    · cases h
      simp [AMap.find]
    · have hf := ih (AMap_wf_of_above m hw) h
      have hj : j < k := by
        by_contra hc
        rw [AMap_find_above m hw (by omega)] at hf
        cases hf
      simp only [AMap.find]
      rw [if_neg (by omega), if_neg (by omega)]
      exact hf

/-- Bytes of a list of cells set to 0, and no other. -/
theorem byte_zeroed (l : List Host.Cell) {s : State} (hi : s.Inv) (a : Nat) :
    (s.does (each l fun c => act (.byte c.1 0#8))).mem.byte a = if a ∈ l.map Prod.fst then 0#8 else s.mem.byte a := by
  induction l generalizing s with
  | nil => rfl
  | cons c l ih =>
    rw [does_each_cons, ih (does_inv hi _), does_act, apply_mem, List.map_cons]
    by_cases hl : a ∈ l.map Prod.fst
    · rw [if_pos hl, if_pos (List.mem_cons_of_mem _ hl)]
    · rw [if_neg hl]
      by_cases hc : a = c.1
      · rw [if_pos (hc ▸ List.mem_cons_self), hc, Mem_byte_setByte_self _ _ _ hi.mem]
      · rw [if_neg (by simp [hc]; simpa using hl), Mem_byte_setByte_ne _ _ _ _ hi.mem hc]

/-- The cells of memory that lie in a partition. -/
def cellsIn (s : State) (n : Nat) : List Host.Cell := s.mem.cells.filter fun c => s.partOfPa c.1 = some n

/-- The bytes of a partition become 0 (R313). -/
def zeroCells (n : Nat) (s : State) : Eff := each (cellsIn s n) fun c => act (.byte c.1 0#8)

/-- A byte of the partition that is not listed reads 0 (log entry 5). -/
theorem byte_cellsZeroed {s : State} (hi : s.Inv) (n a : Nat) :
    (s.does (zeroCells n s)).mem.byte a = if s.partOfPa a = some n then 0#8 else s.mem.byte a := by
  rw [zeroCells, byte_zeroed _ hi]
  by_cases hn : s.partOfPa a = some n
  · rw [if_pos hn]
    split
    · rfl
    · rename_i hc
      rw [Mem.byte, AMap.findD]
      cases hf : AMap.find s.mem.cells a with
      | none => rfl
      | some b => exact absurd (List.mem_map.2 ⟨(a, b), List.mem_filter.2 ⟨AMap_mem_of_find hf, by simpa using hn⟩, rfl⟩) hc
  · rw [if_neg hn, if_neg]
    intro hc
    obtain ⟨c, hmem, rfl⟩ := List.mem_map.1 hc
    rw [cellsIn, List.mem_filter] at hmem
    exact hn (by simpa using hmem.2)

theorem partOfPa_congr {s t : State} (hr : t.regions = s.regions) (hc : t.csr offCELLCFG = s.csr offCELLCFG) (a : Nat) :
    t.partOfPa a = s.partOfPa a := by
  have ho : t.ownPkg = s.ownPkg := by rw [State.ownPkg, State.ownPkg, State.csrBits, State.csrBits, hc]
  have hg : t.region a = s.region a := by rw [State.region, State.region, hr, State.otherPkg, State.otherPkg, ho]
  rw [State.partOfPa, State.partOfPa, hg, ho]

-- what is left of the scrub

/-- The acts of a scrub behind its zeroes: poison, lines of L1s and RDCs that are there, beads, directory, store ways. -/
def Act.Scrubs (s : State) : Act → Prop
  | .bad .. | .beads .. | .dir .. | .ways .. => True
  | .rdc k (some _) => (s.rdc.find k).isSome
  | .l1 k (some _) => (s.l1.find k).isSome
  | _ => False

/-- The scrub of a partition behind its caches and its bytes (R313): poison, and what caches and directory keep of it. -/
def scrubTail (n : Nat) (s : State) : Eff :=
  let mine (pa : Nat) := s.partOfPa pa = some n
  let keep (m : AMap Sector) := m.keep fun x _ => !mine (64 * secAt x)
  seqs [each (s.mem.bad.filter fun c => mine (64 * c.1)) fun c => act (.bad c.1 none),
    each s.rdc fun kv => act (.rdc kv.1 (some (keep kv.2))),
    each s.l1 fun kv => act (.l1 kv.1 (some (keep kv.2))),
    each s.beads fun kv => when (mine (64 * secAt (kv.1 / 4))) (act (.beads kv.1 none)),
    each (s.dirSecs.filter fun q => mine (64 * secAt q.1)) fun q => setDir q.1 .i [],
    each (partFrames n) fun f => act (.ways f none)]

theorem does_scrub (s : State) (n : Nat) :
    s.does (scrub n) = (((s.does (emptyCaches n)).does (zeroCells n (s.does (emptyCaches n)))).does
      (scrubTail n (s.does (emptyCaches n)))) := by
  rw [scrub, does_andThen, does_on, does_seqs_cons]
  rfl

theorem scrubs_scrubTail {s : State} (hi : s.Inv) (n : Nat) : (scrubTail n s).Only (Act.Scrubs s) :=
  only_seqs_cons (only_each fun _ => only_act trivial) <|
  only_seqs_cons (only_each_mem fun kv h => only_act (by rw [Act.Scrubs, AMap_find_of_mem hi.rdc h]; rfl)) <|
  only_seqs_cons (only_each_mem fun kv h => only_act (by rw [Act.Scrubs, AMap_find_of_mem hi.l1 h]; rfl)) <|
  only_seqs_cons (only_each fun _ => only_when (only_act trivial)) <|
  only_seqs_cons (only_each fun _ => only_on fun _ => only_act trivial) <|
  only_seqs_cons (only_each fun _ => only_act trivial) only_seqs_nil

/-- What such an act leaves as it was. -/
structure SameBehind (u s t : State) : Prop where
  now : t.now = s.now
  cells : t.mem.cells = s.mem.cells
  sys : t.sys = s.sys
  l2 : t.l2 = s.l2
  l1 : ∀ k, u.l1.find k = none → t.l1.find k = s.l1.find k
  rdc : ∀ k, u.rdc.find k = none → t.rdc.find k = s.rdc.find k

theorem sameBehind_apply {u : State} {a : Act} (ha : a.Scrubs u) (s : State) : SameBehind u s (s.apply a) := by
  have ne {α : Type} {m : AMap α} {j k : Nat} (hj : (m.find j).isSome = true) (hk : m.find k = none) : k ≠ j := by
    rintro rfl
    rw [hk] at hj
    cases hj
  cases a with
  | bad | beads | dir | ways => exact ⟨rfl, rfl, rfl, rfl, fun _ _ => rfl, fun _ _ => rfl⟩
  | l1 j x =>
    cases x with
    | none => exact ha.elim
    | some m => exact ⟨rfl, rfl, rfl, rfl, fun k hk => find_setO_some_ne _ _ (ne ha hk), fun _ _ => rfl⟩
  | rdc j x =>
    cases x with
    | none => exact ha.elim
    | some m => exact ⟨rfl, rfl, rfl, rfl, fun _ _ => rfl, fun k hk => find_setO_some_ne _ _ (ne ha hk)⟩
  | _ => exact ha.elim

theorem sameBehind_scrubTail {u : State} (hi : u.Inv) (n : Nat) (s : State) : SameBehind u s (s.does (scrubTail n u)) where
  now := (scrubs_scrubTail hi n).keeps (q := State.now) (fun _ ha t => (sameBehind_apply ha t).now) s
  cells := (scrubs_scrubTail hi n).keeps (q := fun t => t.mem.cells) (fun _ ha t => (sameBehind_apply ha t).cells) s
  sys := (scrubs_scrubTail hi n).keeps (q := State.sys) (fun _ ha t => (sameBehind_apply ha t).sys) s
  l2 := (scrubs_scrubTail hi n).keeps (q := State.l2) (fun _ ha t => (sameBehind_apply ha t).l2) s
  l1 k hk := (scrubs_scrubTail hi n).keeps (q := fun t => t.l1.find k) (fun _ ha t => (sameBehind_apply ha t).l1 k hk) s
  rdc k hk := (scrubs_scrubTail hi n).keeps (q := fun t => t.rdc.find k) (fun _ ha t => (sameBehind_apply ha t).rdc k hk) s

/-- Zeroes stored are stored in memory alone. -/
theorem keeps_zeroes {β : Type} {q : State → β} (h : ∀ a b (t : State), q (t.apply (.byte a b)) = q t) (n : Nat) (s : State) :
    (zeroCells n s).Keeps q := keeps_each _ fun _ _ => keeps_act fun t => h _ _ t

/-- What a scrub of partition `n` leaves (R313, R484). -/
structure Scrubbed (s t : State) (n : Nat) : Prop where
  now : t.now = s.now
  csr : ∀ k, ¬ reportCsr k → t.csr k = s.csr k
  l1 : ∀ f ∈ partFrames n, t.l1.find f = none
  rdc : t.rdc.find n = none
  l2 : ∀ d < 4, t.l2.find (16 * d + n) = none
  zero : ∀ a, s.partOfPa a = some n → t.mem.byte a = 0#8
  rest : (∀ f ∈ partFrames n, s.l1.findD f [] = []) → s.rdc.findD n [] = [] → ∀ a, s.partOfPa a ≠ some n → t.mem.byte a = s.mem.byte a

theorem scrub_scrubs {s : State} (hi : s.Inv) (n : Nat) : Scrubbed s (s.does (scrub n)) n := by
  have he := evicts_emptyCaches n
  have hu := does_inv hi (emptyCaches n)
  have hp := partOfPa_congr (he.regions s) (he.csr offCELLCFG (fun h => h.1 rfl) s)
  rw [does_scrub]
  have ht := sameBehind_scrubTail hu n ((s.does (emptyCaches n)).does (zeroCells n (s.does (emptyCaches n))))
  have hb := byte_cellsZeroed hu n
  have byte (a : Nat) : (((s.does (emptyCaches n)).does (zeroCells n (s.does (emptyCaches n)))).does
      (scrubTail n (s.does (emptyCaches n)))).mem.byte a = if s.partOfPa a = some n then 0#8 else (s.does (emptyCaches n)).mem.byte a := by
    rw [← hp a, ← hb a, Mem.byte, Mem.byte, ht.cells]
  constructor
  case now => rw [ht.now, keeps_zeroes (q := State.now) fun _ _ _ => rfl]; exact he.now s
  case csr =>
    intro k hk
    rw [State.csr, ht.sys, keeps_zeroes (q := State.sys) fun _ _ _ => rfl]
    exact he.csr k hk s
  case l1 =>
    intro f hf
    rw [ht.l1 f (emptyCaches_l1 hi n f hf), keeps_zeroes (q := State.l1) fun _ _ _ => rfl]
    exact emptyCaches_l1 hi n f hf
  case rdc =>
    rw [ht.rdc n (emptyCaches_rdc hi n), keeps_zeroes (q := State.rdc) fun _ _ _ => rfl]
    exact emptyCaches_rdc hi n
  case l2 =>
    intro d hd
    rw [ht.l2, keeps_zeroes (q := State.l2) fun _ _ _ => rfl]
    exact emptyCaches_l2 hi hd
  case zero => exact fun a ha => by rw [byte, if_pos ha]
  case rest => exact fun h1 h2 a ha => by rw [byte, if_neg ha, emptyCaches_mem hi h1 h2]

end Sys2Proof.Machine
end

section
/-!
SUPPORT. `PARTCFG_WRITE` (R313), what each of its cases leaves: a clause of the statement each.
-/
namespace Sys2Proof.Machine

theorem csrBits_of_csr {s : State} {k : Nat} {v : BitVec 64} (h : s.csr k = v) (hi lo : Nat) : s.csrBits k hi lo = bitsOf v.toNat hi lo :=
  h ▸ rfl

theorem partEn_eq_false {s : State} {n : Nat} (h : s.csrBits (offPARTCFG n) 0 0 = 0) : s.partEn n = false := by
  rw [State.partEn, h]
  rfl

/-- `FETMO` and `PCEIL` as a write of `x` leaves them (R313). -/
def HasLimits (t : State) (n x : Nat) : Prop :=
  t.csrBits (offPARTCFG n) 41 28 = clamp 1 10000 (bitsOf x 41 28) ∧ t.csrBits (offPARTCFG n) 48 44 = min 23 (bitsOf x 48 44)

theorem hasLimits_tuned {t : State} {n x : Nat} {v : BitVec 64} (h : t.csr (offPARTCFG n) = tuned v x) : HasLimits t n x :=
  ⟨(csrBits_of_csr h ..).trans (bitsOf_tuned_fetmo ..), (csrBits_of_csr h ..).trans (bitsOf_tuned_pceil ..)⟩

theorem hasLimits_asked {s t : State} {n x : Nat} (h : t.csr (offPARTCFG n) = partcfgAsked s x) : HasLimits t n x := by
  constructor
  · rw [csrBits_of_csr h, partcfgAsked, bitsOf_putBits_ne _ _ (by omega) (by omega), bitsOf_tuned_fetmo]
  · rw [csrBits_of_csr h, partcfgAsked, bitsOf_putBits_ne _ _ (by omega) (by omega), bitsOf_tuned_pceil]

theorem hasLimits_asked_off {s t : State} {n x : Nat} (h : t.csr (offPARTCFG n) = putBits (partcfgAsked s x) 0 0 0) : HasLimits t n x := by
  constructor
  · rw [csrBits_of_csr h, bitsOf_putBits_ne _ _ (by omega) (by omega), partcfgAsked, bitsOf_putBits_ne _ _ (by omega) (by omega),
      bitsOf_tuned_fetmo]
  · rw [csrBits_of_csr h, bitsOf_putBits_ne _ _ (by omega) (by omega), partcfgAsked, bitsOf_putBits_ne _ _ (by omega) (by omega),
      bitsOf_tuned_pceil]

theorem bitsOf_en_cleared (v : BitVec 64) : bitsOf (putBits v 0 0 0).toNat 0 0 = 0 := bitsOf_putBits_self v (by omega) (by omega)

/-- `PARTCFG` behind a disable: `EN` clear, `SCRUB` set (R313). -/
def scrubbing (v : BitVec 64) : BitVec 64 := putBits (putBits v 0 0 0) 49 49 1

theorem bitsOf_scrubbing_en (v : BitVec 64) : bitsOf (scrubbing v).toNat 0 0 = 0 := by
  rw [scrubbing, bitsOf_putBits_ne _ _ (by omega) (by omega), bitsOf_en_cleared]

theorem bitsOf_scrubbing_scrub (v : BitVec 64) : bitsOf (scrubbing v).toNat 49 49 = 1 := bitsOf_putBits_self _ (by omega) (by omega)

theorem rodBits_apply_sys_ne (s : State) {k : Nat} {ofs : Nat → Nat} (h : ∀ j, ofs j ≠ k) (v : BitVec 64) (r : Nat) :
    (s.apply (.sys k (some v))).rodBits ofs r = s.rodBits ofs r := by
  rw [State.rodBits, State.csrBits, csr_apply_sys_ne _ _ (h _)]
  rfl

theorem toReplace_apply_partcfg (s : State) {n : Nat} (hn : n < 16) (v : BitVec 64) (f r : Nat) :
    (s.apply (.sys (offPARTCFG n) (some v))).toReplace f r = s.toReplace f r := by
  have h : ∀ j, offREPLIST f j ≠ offPARTCFG n := fun j => by unfold offREPLIST offPARTCFG offPart; omega
  rw [State.toReplace, rodBits_apply_sys_ne s h]
  rfl

/-- `later_due` for the state behind the effect. -/
theorem does_later_due (s : State) {lo hi : Nat} (h : lo ≤ hi) (i : Instr) :
    Due s (s.does (later lo hi i)) lo hi i ∧ ∃ l, s.does (later lo hi i) = { s with free := s.free + 1, timers := s.timers ++ l } :=
  later_due s h i

theorem findD_nil_of_none {α : Type} {m : AMap (List α)} {k : Nat} (h : m.find k = none) : m.findD k [] = [] := by rw [AMap.findD, h]; rfl

section Clauses
variable {s : State} {n : Nat} {v : BitVec 64}

theorem partcfgWrite_scrub (hn : n < 16) (hp : s.power ≠ .held) (hs : s.csrBits (offPARTCFG n) 49 49 = 1) :
    ∃ t, exec (.partcfgWrite n v) s = .next t ∧ t.csr (offPARTCFG n) = s.csr (offPARTCFG n) ∧ (bitsOf v.toNat 0 0 = 0 → t = s) := by
  have hb : (when (decide (bitsOf v.toNat 0 0 = 1)) (partRefused n 1)).Background := only_when (only_on fun _ => background_event ..)
  refine ⟨_, exec_partcfgWrite_scrub hn hp hs, (hb.sameCore s).csr _ (not_reportCsr_partcfg hn), fun h => ?_⟩
  rw [h]
  rfl

theorem partcfgWrite_tune (hn : n < 16) (hp : s.power ≠ .held) (hs : ¬ s.csrBits (offPARTCFG n) 49 49 = 1) (he : s.partEn n = true)
    (hu : bitsOf v.toNat 0 0 = 1 ∨ s.inUse n = true) :
    ∃ t, exec (.partcfgWrite n v) s = .next t ∧ HasLimits t n v.toNat
      ∧ t.csrBits (offPARTCFG n) 27 0 = s.csrBits (offPARTCFG n) 27 0 ∧ t.csrBits (offPARTCFG n) 43 42 = s.csrBits (offPARTCFG n) 43 42
      ∧ t.mem = s.mem := by
  have hc := csr_apply_sys_self s (offPARTCFG n) (tuned (s.csr (offPARTCFG n)) v.toNat)
  exact ⟨_, exec_partcfgWrite_tune hn hp hs he hu, hasLimits_tuned hc,
    (csrBits_of_csr hc ..).trans (bitsOf_tuned_other _ _ (by omega)), (csrBits_of_csr hc ..).trans (bitsOf_tuned_other _ _ (by omega)), rfl⟩

theorem partcfgWrite_disable (hi : s.Inv) (hn : n < 16) (hp : s.power ≠ .held) (hs : ¬ s.csrBits (offPARTCFG n) 49 49 = 1)
    (he : s.partEn n = true) (h0 : bitsOf v.toNat 0 0 = 0) (hu : s.inUse n = false) :
    ∃ t, exec (.partcfgWrite n v) s = .next t ∧ t.partEn n = false ∧ t.csrBits (offPARTCFG n) 49 49 = 1
      ∧ Due s t 40000000 120000000 (.scrubComplete n)
      ∧ (∀ f ∈ partFrames n, t.l1.findD f [] = []) ∧ t.rdc.findD n [] = [] ∧ (∀ d < 4, t.l2.findD (16 * d + n) [] = [])
      ∧ (∀ a, s.partOfPa a = some n → t.mem.byte a = 0#8)
      ∧ ((∀ f ∈ partFrames n, s.l1.findD f [] = []) → s.rdc.findD n [] = [] → ∀ a, s.partOfPa a ≠ some n → t.mem.byte a = s.mem.byte a) := by
  have hx := exec_partcfgWrite_disable hn hp hs he h0 hu
  rw [does_seqs_cons, does_seqs_cons, does_seqs_cons, does_seqs_nil, does_setCsr, ← scrubbing] at hx
  have hcell : offCELLCFG ≠ offPARTCFG n := by unfold offPARTCFG offPart offCELLCFG; omega
  have hpa : ∀ a, State.partOfPa (s.apply (.sys (offPARTCFG n) (some (scrubbing (tuned (s.csr (offPARTCFG n)) v.toNat))))) a = s.partOfPa a :=
    partOfPa_congr rfl (csr_apply_sys_ne s (scrubbing (tuned (s.csr (offPARTCFG n)) v.toNat)) hcell)
  have hsc := scrub_scrubs (apply_keeps_inv hi (.sys (offPARTCFG n) (some (scrubbing (tuned (s.csr (offPARTCFG n)) v.toNat))))) n
  have hcsr := (hsc.csr _ (not_reportCsr_partcfg hn)).trans (csr_apply_sys_self ..)
  revert hx
  generalize (s.apply _).does (scrub n) = u at hsc hcsr ⊢
  obtain ⟨hdue, l, hl⟩ := does_later_due u (show 40000000 ≤ 120000000 by omega) (.scrubComplete n)
  generalize u.does _ = t at hdue hl ⊢
  subst hl
  refine fun hx => ⟨_, hx, partEn_eq_false ((csrBits_of_csr hcsr ..).trans (bitsOf_scrubbing_en _)),
    (csrBits_of_csr hcsr ..).trans (bitsOf_scrubbing_scrub _), ?_, fun f hf => findD_nil_of_none (hsc.l1 f hf), findD_nil_of_none hsc.rdc,
    fun d hd => findD_nil_of_none (hsc.l2 d hd),
    fun a ha => hsc.zero a ((hpa a).trans ha), fun h1 h2 a ha => hsc.rest h1 h2 a (by rw [hpa]; exact ha)⟩
  unfold Due at hdue ⊢
  rw [hsc.now] at hdue
  exact hdue

theorem partcfgWrite_off (hn : n < 16) (hp : s.power ≠ .held) (hs : ¬ s.csrBits (offPARTCFG n) 49 49 = 1) (he : s.partEn n = false)
    (h0 : bitsOf v.toNat 0 0 = 0) :
    ∃ t, exec (.partcfgWrite n v) s = .next t ∧ HasLimits t n v.toNat ∧ t.partEn n = false
      ∧ t.csrBits (offPARTCFG n) 27 1 = bitsOf v.toNat 27 1 := by
  have hc := csr_apply_sys_self s (offPARTCFG n) (putBits (partcfgAsked s v.toNat) 0 0 0)
  refine ⟨_, exec_partcfgWrite_off hn hp hs he h0, hasLimits_asked_off hc, partEn_eq_false ((csrBits_of_csr hc ..).trans (bitsOf_en_cleared _)), ?_⟩
  exact ((csrBits_of_csr hc ..).trans (bitsOf_putBits_ne _ _ (by omega) (by omega))).trans (bitsOf_partcfgAsked s _ (by omega))

theorem partcfgWrite_refused (hn : n < 16) (hp : s.power ≠ .held) (hs : ¬ s.csrBits (offPARTCFG n) 49 49 = 1) (he : s.partEn n = false)
    (h1 : bitsOf v.toNat 0 0 = 1) (hr : (s.unrepairable n).isSome = true ∨ mismatch s n (partcfgAsked s v.toNat) = true) :
    ∃ t, exec (.partcfgWrite n v) s = .next t ∧ t.partEn n = false ∧ t.spare = s.spare := by
  obtain ⟨e, hb, hx⟩ := exec_partcfgWrite_refused hn hp hs he h1 hr
  have hc := ((hb.sameCore _).csr _ (not_reportCsr_partcfg hn)).trans (csr_apply_sys_self s (offPARTCFG n) (putBits (partcfgAsked s v.toNat) 0 0 0))
  exact ⟨_, hx, partEn_eq_false ((csrBits_of_csr hc ..).trans (bitsOf_en_cleared _)), (hb.sameCore _).spare⟩

theorem partcfgWrite_enable (hi : s.Inv) (hn : n < 16) (hp : s.power ≠ .held) (hs : ¬ s.csrBits (offPARTCFG n) 49 49 = 1)
    (he : s.partEn n = false) (h1 : bitsOf v.toNat 0 0 = 1) (hr : s.unrepairable n = none)
    (hm : mismatch s n (partcfgAsked s v.toNat) = false) :
    ∃ t, exec (.partcfgWrite n v) s = .next t ∧ HasLimits t n v.toNat ∧ t.partEn n = true
      ∧ t.csrBits (offPARTCFG n) 27 1 = bitsOf v.toNat 27 1 ∧ t.csrBits (offPARTCFG n) 42 42 = bitsOf v.toNat 42 42
      ∧ t.csrBits (offPARTCFG n) 43 43 = (if s.csrBits offTWINCFG 0 0 = 1 ∧ s.csrBits offTWINCFG 2 2 = 1 then bitsOf v.toNat 43 43 else 0)
      ∧ ∀ k r, k < 16 → r < 16 → t.ways.find (16 * n + k) = none
        ∧ t.rodBits (offLANEFLAG (16 * n + k)) r = s.rodBits (offLANEFLAG (16 * n + k)) r &&& ~~~ s.toReplace (16 * n + k) r := by
  let s1 := s.apply (.sys (offPARTCFG n) (some (partcfgAsked s v.toNat)))
  have hx : exec (.partcfgWrite n v) s = .next ((s1.does (repair n)).does (clearWays n)) := by
    rw [exec_partcfgWrite_enable hn hp hs he h1 hr hm, does_seqs_cons, does_seqs_cons, does_seqs_cons, does_seqs_nil]
    rfl
  have hc : ((s1.does (repair n)).does (clearWays n)).csr (offPARTCFG n) = partcfgAsked s v.toNat :=
    calc _ = (s1.does (repair n)).csr (offPARTCFG n) := keeps_clearWays (q := fun t => t.csr (offPARTCFG n)) (fun _ _ _ => rfl) n _
      _ = s1.csr (offPARTCFG n) := keeps_repair_partcfg hn s1
      _ = _ := csr_apply_sys_self ..
  refine ⟨_, hx, hasLimits_asked hc, ?_, (csrBits_of_csr hc ..).trans (bitsOf_partcfgAsked s _ (by omega)),
    (csrBits_of_csr hc ..).trans (bitsOf_partcfgAsked s _ (by omega)), (csrBits_of_csr hc ..).trans (bitsOf_partcfgAsked_paired ..), fun k r hk hr => ?_⟩
  · rw [State.partEn, csrBits_of_csr hc, bitsOf_partcfgAsked s _ (by omega), h1]
    rfl
  · have hi1 : (s1.does (repair n)).Inv := does_inv (apply_keeps_inv hi _) _
    have hlf : ∀ j, offLANEFLAG (16 * n + k) j ≠ offPARTCFG n := fun j => (offLANEFLAG_ne_partcfg hn _ j).symm
    refine ⟨clearWays_none hi1 hk, ?_⟩
    have hw : (clearWays n).Keeps fun t => t.rodBits (offLANEFLAG (16 * n + k)) r := keeps_clearWays (fun _ _ _ => rfl) n
    rw [show State.rodBits _ _ _ = State.rodBits _ _ _ from hw _, does_repair,
      rodBits_repair s1 (fun _ => rod_lt_of_mem) (q := (16 * n + k, r)) hr s1, if_pos (mem_partRods hk hr), toReplace_apply_partcfg s hn,
      rodBits_apply_sys_ne s hlf]

end Clauses

end Sys2Proof.Machine
end

section
/-!
SUPPORT. What a write of whole sectors by the device leaves in memory (R198), and the event ring (R316).
-/
namespace Sys2Proof.Machine

/-- Byte `x` of memory once the bytes `l` stand at `a`, over a memory whose byte there is `old`. -/
def stored (a : Nat) (l : List Byte) (x : Nat) (old : Byte) : Byte := if a ≤ x then l.getD (x - a) old else old

theorem stored_nil (a x : Nat) (old : Byte) : stored a [] x old = old := ite_self _

theorem stored_cons {a x : Nat} (b : Byte) (l : List Byte) (old : Byte) :
    stored a (b :: l) x old = stored (a + 1) l x (if x = a then b else old) := by
  unfold stored
  rcases Nat.lt_trichotomy x a with h | rfl | h
  · rw [if_neg (by omega), if_neg (by omega), if_neg (by omega)]
  · rw [if_pos (Nat.le_refl _), if_neg (by omega), if_pos rfl, Nat.sub_self, List.getD_cons_zero]
  · rw [if_pos (by omega), if_pos (by omega), if_neg (by omega), show x - a = x - (a + 1) + 1 by omega, List.getD_cons_succ]

/-- The first 64 bytes stored, then the rest behind them. -/
theorem stored_take_drop (a x : Nat) (l : List Byte) (old : Byte) :
    stored (a + 64) (l.drop 64) x (stored a (l.take 64) x old) = stored a l x old := by
  unfold stored
  simp only [List.getD_eq_getElem?_getD, List.getElem?_drop, List.getElem?_take]
  by_cases h : a + 64 ≤ x
  · have h64 : ¬ x - a < 64 := by omega
    have hofs : 64 + (x - (a + 64)) = x - a := by omega
    simp only [h, h64, hofs, show a ≤ x by omega, if_true, if_false, Option.getD_none]
  · rw [if_neg h]
    by_cases h2 : a ≤ x
    · rw [if_pos h2, if_pos h2, if_pos (by omega)]
    · rw [if_neg h2, if_neg h2]

theorem bytes_of_stored {m m0 : Mem} {a : Nat} {l : List Byte} (h : ∀ x, m.byte x = stored a l x (m0.byte x)) : m.bytes a l.length = l := by
  refine List.ext_getElem (by simp [Mem.bytes]) fun k h1 h2 => ?_
  simp [Mem.bytes, h, stored, h2]

theorem putBytes_state (a : Nat) (l : List Byte) (s t : State) : putBytes a l s = putBytes a l t := by
  induction l generalizing a with
  | nil => rfl
  | cons b l ih => exact congrArg (Act.byte a b :: ·) (ih _)

theorem byte_putBytes {s : State} (hi : s.Inv) (a : Nat) (l : List Byte) (x : Nat) :
    (s.does (putBytes a l)).mem.byte x = stored a l x (s.mem.byte x) := by
  induction l generalizing a s with
  | nil => exact (stored_nil ..).symm
  | cons b l ih =>
    have hd : s.does (putBytes a (b :: l)) = (s.apply (.byte a b)).does (putBytes (a + 1) l) := by
      change (s.apply (.byte a b)).run (putBytes (a + 1) l s) = _
      rw [putBytes_state _ _ s (s.apply (.byte a b))]
      rfl
    rw [hd, ih (apply_keeps_inv hi _), stored_cons, apply_mem]
    by_cases hx : x = a
    · rw [if_pos hx, hx, Mem_byte_setByte_self _ _ _ hi.mem]
    · rw [if_neg hx, Mem_byte_setByte_ne _ _ _ _ hi.mem hx]

theorem keeps_markChanged {β : Type} {q : State → β} (h : ∀ k x (s : State), q (s.apply (.view k x)) = q s) (part tgt sec : Nat) :
    (markChanged part tgt sec).Keeps q :=
  keeps_on fun _ => keeps_each _ fun _ _ => by
    dsimp only
    split
    · split
      · exact keeps_act fun s => h _ _ s
      · exact keeps_skip _
    · exact keeps_skip _

theorem keeps_putBytes {β : Type} {q : State → β} (h : ∀ a b (s : State), q (s.apply (.byte a b)) = q s) (a : Nat) (l : List Byte) :
    (putBytes a l).Keeps q := by
  have acts : ∀ s, ∀ x ∈ putBytes a l s, ∃ k b, x = .byte k b := by
    induction l generalizing a with
    | nil => exact fun _ _ hx => nomatch hx
    | cons b l ih => exact fun s x hx => (List.mem_cons.1 hx).elim (fun hx => ⟨a, b, hx⟩) (ih (a + 1) s x)
  refine keeps_of_acts fun s x hx t => ?_
  obtain ⟨k, b, rfl⟩ := acts s x hx
  exact h k b t

/-- What the device writes changes views, bytes and poison alone. -/
theorem keeps_devWrite {β : Type} {q : State → β} (hv : ∀ k x (s : State), q (s.apply (.view k x)) = q s)
    (hb : ∀ a b (s : State), q (s.apply (.byte a b)) = q s) (hp : ∀ k x (s : State), q (s.apply (.bad k x)) = q s) (a : Nat) (l : List Byte) :
    (devWrite a l).Keeps q :=
  keeps_each _ fun p _ => by
    change (writeBase p.1 p.2.1 p.2.2 _ none 0).Keeps q
    refine keeps_on fun s => keeps_seqs fun e he => ?_
    simp only [List.mem_cons, List.not_mem_nil, or_false] at he
    rcases he with rfl | rfl | rfl
    · exact keeps_markChanged hv _ _ _
    · split
      · exact keeps_putBytes hb _ _
      · exact keeps_putBytes hb _ _
    · exact keeps_act fun s => hp _ _ s

/-- A clean write of a whole sector in the base view. -/
theorem byte_writeSectorBy_whole {s : State} (hi : s.Inv) (sec : Nat) (l : List Byte) (x : Nat) :
    (s.does (writeSectorBy none 0 0 sec 0 l true none)).mem.byte x = stored (64 * sec) l x (s.mem.byte x) := by
  have hm : (s.does (markChanged 0 0 sec)).mem = s.mem := keeps_markChanged (fun _ _ _ => rfl) 0 0 sec s
  have hd : s.does (writeSectorBy none 0 0 sec 0 l true none) = ((s.does (markChanged 0 0 sec)).does (putBytes (64 * sec) l)).does
      (act (.bad sec none)) := by
    change s.does (writeBase sec 0 l true none 0) = _
    rw [writeBase, does_on]
    dsimp only
    rw [if_pos (by simp), does_seqs_cons, does_seqs_cons, does_seqs_cons, does_seqs_nil]
    rfl
  rw [hd, ← hm, ← byte_putBytes (does_inv hi _)]
  rfl

theorem byte_writePieces (n : Nat) {s : State} (hi : s.Inv) {a : Nat} (ha : a % 64 = 0) {l : List Byte} (hl : l.length % 64 = 0)
    (hn : l.length ≤ 64 * n) (x : Nat) :
    (s.does (each (pieces n a l) fun q => writeSectorBy none 0 0 q.1 q.2.1 q.2.2 (q.2.2.length = 64 && (none : Option Word).isNone) none)).mem.byte x
      = stored a l x (s.mem.byte x) := by
  induction n generalizing s a l with
  | zero =>
    rw [List.eq_nil_of_length_eq_zero (by omega : l.length = 0), stored_nil]
    rfl
  | succ n ih =>
    cases l with
    | nil => exact (stored_nil ..).symm
    | cons b l =>
      have hp : pieces (n + 1) a (b :: l) = (a / 64, 0, (b :: l).take 64) :: pieces n (a + 64) ((b :: l).drop 64) := by
        simp only [pieces, ha]
        rfl
      have hlen : 64 ≤ (b :: l).length := by
        have := List.length_cons (a := b) (as := l)
        omega
      have hfull : (decide (((b :: l).take 64).length = 64) && (none : Option Word).isNone) = true := by
        rw [List.length_take, Nat.min_eq_left hlen]
        rfl
      rw [hp, does_each_cons, ih (does_inv hi _) (by omega) (by rw [List.length_drop]; omega) (by rw [List.length_drop]; omega)]
      dsimp only
      rw [hfull, byte_writeSectorBy_whole hi, show 64 * (a / 64) = a by omega, stored_take_drop]

/-- What the device writes in whole sectors stands in memory. -/
theorem bytes_devWrite {s : State} (hi : s.Inv) {a : Nat} (ha : a % 64 = 0) {l : List Byte} (hl : l.length % 64 = 0) :
    (s.does (devWrite a l)).mem.bytes a l.length = l :=
  bytes_of_stored fun x => byte_writePieces _ hi ha hl (by omega) x

-- the event ring

theorem exec_eventBufferDrain_skip {s : State} (h : s.waitEv = [] ∨ s.eventFull = true ∨ s.csrBits offEQCTL 5 5 = 0) :
    exec .eventBufferDrain s = .next s := by
  change execEventBufferDrain s = _
  rw [execEventBufferDrain]
  cases hw : s.waitEv with
  | nil => rfl
  | cons b l =>
    have hc : (s.eventFull || decide (s.csrBits offEQCTL 5 5 = 0)) = true := by
      rw [hw] at h
      simpa using h
    exact congrArg (fun e => Host.Outcome.next (s.does e)) (if_pos hc)

theorem exec_eventBufferDrain_put {s : State} {b : List Byte} {l : List (List Byte)} (hw : s.waitEv = b :: l) (hf : s.eventFull = false)
    (he : s.csrBits offEQCTL 5 5 = 1) :
    exec .eventBufferDrain s = .next (((s.apply (.waitEv l)).does (eventPut b)).does (when (!l.isEmpty) (soon .eventBufferDrain))) := by
  change execEventBufferDrain s = _
  have hc : ¬ (s.eventFull || decide (s.csrBits offEQCTL 5 5 = 0)) = true := by simp [hf, he]
  rw [execEventBufferDrain, hw]
  exact (congrArg (fun e => Host.Outcome.next (s.does e)) (if_neg hc)).trans (by rw [does_seqs_cons, does_seqs_cons, does_seqs_cons, does_seqs_nil]; rfl)

theorem keeps_msix {β : Type} {q : State → β} (h : ∀ o (s : State), q (s.apply (.outbox o)) = q s) (func vec : Nat) : (msix func vec).Keeps q :=
  fun s => h _ s

theorem keeps_soon {β : Type} {q : State → β} (h : ∀ o (s : State), q (s.apply (.agenda o)) = q s) (i : Instr) : (soon i).Keeps q := fun s => h _ s

/-- The record that waited longest stands in the ring, and the pointer is one on (R316). -/
theorem eventBufferDrain_put {s : State} (hi : s.Inv) {b : List Byte} {l : List (List Byte)} (hw : s.waitEv = b :: l) (hb : b.length = 256)
    (hf : s.eventFull = false) (he : s.csrBits offEQCTL 5 5 = 1) :
    ∃ t, exec .eventBufferDrain s = .next t ∧ t.waitEv = l ∧ (t.csr offEQWR).toNat = ((s.csr offEQWR).toNat + 1) % 2 ^ 32
      ∧ t.mem.bytes (s.csrBits offEQBASE 51 12 * 4096 + 256 * ((s.csr offEQWR).toNat % 2 ^ s.csrBits offEQCTL 4 0)) b.length = b := by
  generalize hA : s.csrBits offEQBASE 51 12 * 4096 + 256 * ((s.csr offEQWR).toNat % 2 ^ s.csrBits offEQCTL 4 0) = A
  have hA64 : A % 64 = 0 := by omega
  have h1 : (s.apply (.waitEv l)).Inv := apply_keeps_inv hi _
  let u := (s.apply (.waitEv l)).does (devWrite A b)
  let rest : Eff := andThen (when (s.csrBits offEQCTL 6 6 = 1) (msix 0 (s.csrBits offEQCTL 17 7))) (when (!l.isEmpty) (soon .eventBufferDrain))
  have hrest {β : Type} {q : State → β} (ho : ∀ o (s : State), q (s.apply (.outbox o)) = q s) (ha : ∀ o (s : State), q (s.apply (.agenda o)) = q s) :
      rest.Keeps q := keeps_andThen (keeps_when _ fun _ => keeps_msix ho _ _) (keeps_when _ fun _ => keeps_soon ha _)
  refine ⟨(u.apply (.sys offEQWR (some (BitVec.ofNat 64 (((s.csr offEQWR).toNat + 1) % 2 ^ 32))))).does rest, ?_, ?_, ?_, ?_⟩
  · rw [exec_eventBufferDrain_put hw hf he, eventPut, does_on, does_seqs_cons, does_seqs_cons, does_seqs_cons, does_seqs_nil, does_andThen]
    subst hA
    rfl
  · rw [hrest (q := State.waitEv) (fun _ _ => rfl) (fun _ _ => rfl)]
    exact keeps_devWrite (q := State.waitEv) (fun _ _ _ => rfl) (fun _ _ _ => rfl) (fun _ _ _ => rfl) A b _
  · have hc : rest.Keeps fun t => t.csr offEQWR := hrest (fun _ _ => rfl) (fun _ _ => rfl)
    rw [show State.csr _ _ = State.csr _ _ from hc _, csr_apply_sys_self, BitVec.toNat_ofNat, Nat.mod_eq_of_lt]
    exact lt_of_lt_of_le (Nat.mod_lt _ (by omega)) (by omega)
  · rw [hrest (q := State.mem) (fun _ _ => rfl) (fun _ _ => rfl)]
    exact bytes_devWrite h1 hA64 (by omega)

end Sys2Proof.Machine
end

section
/-!
SUPPORT. `SYSTEM_CSR_WRITE` (R315): which writes are dropped, and where the others go.
-/
namespace Sys2Proof.Machine

/-- What a CSR of width `w` takes of a written value (R315). -/
def csrTakes (w : Nat) (v : BitVec 64) : BitVec 64 := if w = 32 then BitVec.ofNat 64 (v.toNat % 2 ^ 32) else v

theorem csrTakes_64 (v : BitVec 64) : csrTakes 64 v = v := rfl

theorem toNat_csrTakes_32 (v : BitVec 64) : (csrTakes 32 v).toNat = v.toNat % 2 ^ 32 := by
  rw [csrTakes, if_pos rfl, BitVec.toNat_ofNat]
  omega

/-- Where a value kept by the CSR at `off` goes: to its partition's block, or to the others. -/
def csrRoute (off : Nat) (v : BitVec 64) : Eff :=
  match partBlock off with
  | some (n, b) => partWrite off n b v
  | none => sysWrite off v

theorem csrRoute_part {off n b : Nat} (h : partBlock off = some (n, b)) (v : BitVec 64) : csrRoute off v = partWrite off n b v := by
  simp only [csrRoute, h]

theorem csrRoute_sys {off : Nat} (h : partBlock off = none) (v : BitVec 64) : csrRoute off v = sysWrite off v := by
  simp only [csrRoute, h]

section Write
variable {s : State} {off size w n b : Nat} {v : BitVec 64}

theorem exec_systemCsrWrite_held (h : s.power = .held) : exec (.systemCsrWrite off size v) s = .next s := by
  change execSystemCsrWrite off size v s = _
  rw [execSystemCsrWrite, outside_held h]

theorem exec_systemCsrWrite_dropped (hp : s.power ≠ .held)
    (h : (size ≠ 4 ∧ size ≠ 8) ∨ off % size ≠ 0 ∨ sysWidth off = 0 ∨ (sysWidth off = 64 ∧ size ≠ 8)) :
    exec (.systemCsrWrite off size v) s = .next s := by
  have hc : (!(decide (size = 4) || decide (size = 8)) || decide (off % size ≠ 0) || decide (sysWidth off = 0)
      || (decide (sysWidth off = 64) && decide (size ≠ 8))) = true := by
    simpa [or_assoc] using h
  change execSystemCsrWrite off size v s = _
  rw [execSystemCsrWrite, outside_up hp]
  exact congrArg (fun e => Host.Outcome.next (s.does e)) (if_pos hc)

theorem exec_systemCsrWrite_kept (hp : s.power ≠ .held) (hs : size = 4 ∨ size = 8) (ha : off % size = 0) (hw : sysWidth off = w)
    (hw0 : w ≠ 0) (hw64 : w = 64 → size = 8) : exec (.systemCsrWrite off size v) s = .next (s.does (csrRoute off (csrTakes w v))) := by
  have hc : ¬ (!(decide (size = 4) || decide (size = 8)) || decide (off % size ≠ 0) || decide (sysWidth off = 0)
      || (decide (sysWidth off = 64) && decide (size ≠ 8))) = true := by
    simp only [ha, hw, hw0]
    simpa using ⟨hs.resolve_left, hw64⟩
  change execSystemCsrWrite off size v s = _
  rw [execSystemCsrWrite, outside_up hp]
  refine (congrArg (fun e => Host.Outcome.next (s.does e)) (if_neg hc)).trans ?_
  subst hw
  unfold csrRoute
  cases partBlock off with
  | none => rfl
  | some p => rfl

/-- A CSR outside the blocks of the partitions. -/
theorem exec_systemCsrWrite_sys (hp : s.power ≠ .held) (hs : size = 4 ∨ size = 8) (ha : off % size = 0) (hw : sysWidth off = w)
    (hw0 : w ≠ 0) (hw64 : w = 64 → size = 8) (hb : partBlock off = none) :
    exec (.systemCsrWrite off size v) s = .next (s.does (sysWrite off (csrTakes w v))) := by
  rw [exec_systemCsrWrite_kept hp hs ha hw hw0 hw64, csrRoute_sys hb]

theorem partBlock_offPart (hn : n < 16) (hb : b < 0x10000) : partBlock (offPart n + b) = some (n, b) := by
  have h : (decide (0x100000 ≤ offPart n + b) && decide (offPart n + b < 0x200000)) = true := by
    rw [Bool.and_eq_true, decide_eq_true_eq, decide_eq_true_eq, offPart]
    omega
  have hn' : (offPart n + b - 0x100000) / 0x10000 = n := by rw [offPart]; omega
  have hb' : (offPart n + b - 0x100000) % 0x10000 = b := by rw [offPart]; omega
  rw [partBlock, if_pos h, hn', hb']

/-- A CSR of a partition's block. -/
theorem exec_systemCsrWrite_part (hp : s.power ≠ .held) (hn : n < 16) (hb : b < 0x10000) (hs : size = 4 ∨ size = 8) (ha : b % size = 0)
    (hw : sysWidth (offPart n + b) = w) (hw0 : w ≠ 0) (hw64 : w = 64 → size = 8) :
    exec (.systemCsrWrite (offPart n + b) size v) s = .next (s.does (partWrite (offPart n + b) n b (csrTakes w v))) := by
  have ho : (offPart n + b) % size = 0 := by
    unfold offPart
    rcases hs with rfl | rfl <;> omega
  rw [exec_systemCsrWrite_kept hp hs ho hw hw0 hw64, csrRoute_part (partBlock_offPart hn hb)]

theorem sysWidth_part (hn : n < 16) (hb : b < 0x10000) (h8 : b % 8 = 0) : sysWidth (offPart n + b)
    = if b = 0 || b = 8 || b = 0x10 || b = 0x18 || b = 0x28 || b = 0x48 then 64
      else if b = 0x20 || b = 0x30 || b = 0x38 || b = 0x40 || b = 0x50 then 32 else 0 := by
  have ho : ¬ (offPart n + b) % 8 ≠ 0 := by unfold offPart; omega
  rw [sysWidth, if_neg ho, partBlock_offPart hn hb]

end Write

section Routes
variable {s : State} {n : Nat} {v : BitVec 64}

theorem systemCsrWrite_eqwr (hp : s.power ≠ .held) : exec (.systemCsrWrite offEQWR 4 v) s = .next s :=
  exec_systemCsrWrite_sys hp (.inl rfl) rfl (w := 32) rfl (by omega) (by omega) rfl

theorem systemCsrWrite_eqlost (hp : s.power ≠ .held) : exec (.systemCsrWrite offEQLOST 4 v) s
    = .next { s with agenda := s.agenda ++ [.eqlostWrite (BitVec.ofNat 32 v.toNat)] } := by
  have hv : BitVec.ofNat 32 (csrTakes 32 v).toNat = BitVec.ofNat 32 v.toNat := by
    rw [toNat_csrTakes_32]
    exact BitVec.eq_of_toNat_eq (by rw [BitVec.toNat_ofNat, BitVec.toNat_ofNat]; omega)
  rw [← hv]
  exact exec_systemCsrWrite_sys hp (.inl rfl) rfl (w := 32) rfl (by omega) (by omega) rfl

theorem systemCsrWrite_partcfg (hp : s.power ≠ .held) (hn : n < 16) :
    exec (.systemCsrWrite (offPARTCFG n) 8 v) s = .next { s with agenda := s.agenda ++ [.partcfgWrite n v] } :=
  exec_systemCsrWrite_part hp hn (b := 0) (by omega) (.inr rfl) rfl (w := 64) (sysWidth_part hn (by omega) rfl) (by omega) (fun _ => rfl)

theorem systemCsrWrite_fqwr (hp : s.power ≠ .held) (hn : n < 16) : exec (.systemCsrWrite (offFQWR n) 4 v) s = .next s :=
  exec_systemCsrWrite_part hp hn (by omega) (.inl rfl) rfl (w := 32) (sysWidth_part hn (by omega) rfl) (by omega) (by omega)

theorem systemCsrWrite_voasize (hp : s.power ≠ .held) (hn : n < 16) : exec (.systemCsrWrite (offVOASIZE n) 4 v) s
    = .next { s with sys := s.sys.put (offVOASIZE n) (BitVec.ofNat 64 (max 256 (v.toNat % 2 ^ 32))) } := by
  have hv : sysValue (offPart n + 0x20) (s.csr (offPart n + 0x20)) (csrTakes 32 v).toNat = BitVec.ofNat 64 (max 256 (v.toNat % 2 ^ 32)) := by
    rw [sysValue, partBlock_offPart hn (by omega), toNat_csrTakes_32]
    have hb : bitsOf (v.toNat % 2 ^ 32) 31 0 = v.toNat % 2 ^ 32 := by rw [bitsOf]; omega
    exact congrArg (fun x => BitVec.ofNat 64 (max 256 x)) hb
  refine (exec_systemCsrWrite_part hp hn (by omega) (.inl rfl) rfl (w := 32) (sysWidth_part hn (by omega) rfl) (by omega) (by omega)).trans ?_
  change Host.Outcome.next (s.apply (.sys (offVOASIZE n) (some (sysValue _ _ _)))) = _
  rw [hv]
  rfl

theorem systemCsrWrite_fqcmd (hp : s.power ≠ .held) (hn : n < 16) :
    exec (.systemCsrWrite (offFQCMD n) 8 v) s = .next (s.does (match bitsOf v.toNat 1 0 with
      | 1 => soon (.fqcmdReplay n (BitVec.ofNat 32 (bitsOf v.toNat 63 32)))
      | 2 => soon (.fqcmdCancel n (BitVec.ofNat 32 (bitsOf v.toNat 63 32)))
      | _ => skip)) :=
  exec_systemCsrWrite_part hp hn (by omega) (.inr rfl) rfl (w := 64) (sysWidth_part hn (by omega) rfl) (by omega) (fun _ => rfl)

/-- Another command is running: a write to `PCMD` is dropped. -/
theorem systemCsrWrite_pcmd_busy (hp : s.power ≠ .held) (hb : s.csrBits offPCMD 19 19 = 1) : exec (.systemCsrWrite offPCMD 8 v) s = .next s := by
  refine (exec_systemCsrWrite_sys hp (.inr rfl) rfl (w := 64) rfl (by omega) (fun _ => rfl) rfl).trans ?_
  change Host.Outcome.next (s.does (when (decide (s.csrBits offPCMD 19 19 = 0)) _)) = _
  rw [hb]
  rfl

/-- A write to `PCMD` while none runs is its command's step, with the partitions in the register. -/
theorem systemCsrWrite_pcmd (hp : s.power ≠ .held) (hb : s.csrBits offPCMD 19 19 = 0) {i : Instr}
    (hi : (match bitsOf v.toNat 2 0 with
      | 1 => soon (.drain (bitsOf v.toNat 18 3))
      | 2 => soon (.cut (bitsOf v.toNat 18 3))
      | 3 => soon (.restore (bitsOf v.toNat 18 3) (BitVec.ofNat 16 (bitsOf v.toNat 47 32)))
      | 4 => soon (.reset (bitsOf v.toNat 18 3))
      | _ => setPcmd (bitsOf v.toNat 18 3) (bitsOf v.toNat 47 32) 0 (s.csrBits offPCMD 22 20)) = soon i) :
    ∃ t, exec (.systemCsrWrite offPCMD 8 v) s = .next t ∧ t.agenda = s.agenda ++ [i] ∧ t.csrBits offPCMD 47 32 = bitsOf v.toNat 47 32 := by
  have hx : exec (.systemCsrWrite offPCMD 8 v) s
      = .next ((s.apply (.sys offPCMD (some (putBits (s.csr offPCMD) 47 32 (bitsOf v.toNat 47 32))))).does (soon i)) := by
    refine (exec_systemCsrWrite_sys hp (.inr rfl) rfl (w := 64) rfl (by omega) (fun _ => rfl) rfl).trans ?_
    change Host.Outcome.next (s.does (when (decide (s.csrBits offPCMD 19 19 = 0)) (andThen _ _))) = _
    rw [hb, ← hi, csrTakes_64, ← does_setCsr, ← does_andThen]
    rfl
  refine ⟨_, hx, rfl, (csrBits_of_csr (csr_apply_sys_self s offPCMD _) ..).trans (bitsOf_putBits_self _ (by omega) (bitsOf_lt ..))⟩

theorem systemCsrWrite_vwcmd (hp : s.power ≠ .held) (h1 : bitsOf (v.toNat % 2 ^ 32) 1 0 = 1) : exec (.systemCsrWrite offVWCMD 4 v) s
    = .next { s with agenda := s.agenda ++ [.vwcmdResume (bitsOf (v.toNat % 2 ^ 32) 5 2) (bitsOf (v.toNat % 2 ^ 32) 13 6)] } := by
  refine (exec_systemCsrWrite_sys hp (.inl rfl) rfl (w := 32) rfl (by omega) (by omega) rfl).trans ?_
  change Host.Outcome.next (s.does (match bitsOf (csrTakes 32 v).toNat 1 0 with
    | 1 => soon (.vwcmdResume (bitsOf (csrTakes 32 v).toNat 5 2) (bitsOf (csrTakes 32 v).toNat 13 6))
    | 2 => soon (.vwcmdFail (bitsOf (csrTakes 32 v).toNat 5 2) (bitsOf (csrTakes 32 v).toNat 13 6))
    | _ => skip)) = _
  rw [toNat_csrTakes_32, h1]
  rfl

/-- The times of the link and of the commands are held to 10 to 100,000. -/
theorem systemCsrWrite_time {o : Nat} (hp : s.power ≠ .held) (ho : o = offTOUT ∨ o = offDRAINDL ∨ o = offCUTDL) :
    exec (.systemCsrWrite o 4 v) s
      = .next { s with sys := s.sys.put o (BitVec.ofNat 64 (clamp 10 100000 (bitsOf (v.toNat % 2 ^ 32) 16 0))) } := by
  rw [← toNat_csrTakes_32]
  rcases ho with rfl | rfl | rfl
  all_goals exact exec_systemCsrWrite_sys hp (.inl rfl) rfl (w := 32) rfl (by omega) (by omega) rfl

end Routes

end Sys2Proof.Machine
end

section
/-!
SUPPORT. O60: the partitions and the system CSRs.
-/
namespace Sys2Proof.Machine

theorem exec_scrubComplete (s : State) (n : Nat) :
    ∃ t, exec (.scrubComplete n) s = .next t ∧ t.csrBits (offPARTCFG n) 49 49 = 0 ∧ t.mem = s.mem :=
  ⟨s.apply (.sys (offPARTCFG n) (some (putBits (s.csr (offPARTCFG n)) 49 49 0))), rfl,
    (csrBits_of_csr (csr_apply_sys_self ..) ..).trans (bitsOf_putBits_self _ (by omega) (by omega)), rfl⟩

/-- Settles O60: each clause is a lemma of the case of `PARTCFG_WRITE`, of the event ring, or of the CSR that it names. -/
theorem partitionsAndSystemCsrs : Obligations.PartitionsAndSystemCsrs := by
  unfold Obligations.PartitionsAndSystemCsrs
  intro s hi
  refine ⟨fun n v => ⟨exec_partcfgWrite_none, fun hn hp => ⟨partcfgWrite_scrub hn hp, partcfgWrite_tune hn hp,
      partcfgWrite_disable hi hn hp, fun hs he => ⟨partcfgWrite_off hn hp hs he, partcfgWrite_refused hn hp hs he,
      partcfgWrite_enable hi hn hp hs he⟩⟩⟩,
    exec_scrubComplete s, functionLevelReset_gone hi, fun _ => rfl, exec_eventBufferDrain_skip, fun b l hw hb hf he => eventBufferDrain_put hi hw hb hf he,
    fun off size v => ⟨exec_systemCsrWrite_held, fun hp => ⟨exec_systemCsrWrite_dropped hp, systemCsrWrite_eqwr hp, systemCsrWrite_eqlost hp,
      fun n hn => ⟨systemCsrWrite_partcfg hp hn, systemCsrWrite_fqwr hp hn, systemCsrWrite_voasize hp hn, fun h => ?_, fun h => ?_⟩,
      systemCsrWrite_pcmd_busy hp, fun hb => ⟨fun h => ?_, fun h => ?_, fun h => ?_, fun h => ?_⟩, systemCsrWrite_vwcmd hp,
      fun o ho => systemCsrWrite_time hp ho⟩⟩⟩
  · exact (systemCsrWrite_fqcmd hp hn).trans (by rw [h]; rfl)
  · exact (systemCsrWrite_fqcmd hp hn).trans (by rw [h]; rfl)
  all_goals exact systemCsrWrite_pcmd hp hb (by rw [h]; rfl)

end Sys2Proof.Machine
end

section
/-!
SUPPORT. An access at its issue: what it changes (R205, R292), and what of its group and of the others stands (R73, R86, R92).
-/
namespace Sys2Proof.Machine

/-- What every such act keeps true, the effect keeps true. -/
theorem Eff.Only.preserves {A : Act → Prop} {P : State → Prop} {e : Eff} (h : e.Only A) (hp : ∀ a, A a → ∀ s, P s → P (State.apply s a))
    {s : State} (hs : P s) : P (s.does e) := by
  have key : ∀ (l : List Act), (∀ a ∈ l, A a) → ∀ t, P t → P (State.run t l) := by
    intro l
    induction l with
    | nil => exact fun _ _ ht => ht
    | cons a l ih => exact fun hl t ht => ih (fun b hb => hl b (List.mem_cons_of_mem _ hb)) _ (hp a (hl a List.mem_cons_self) t ht)
  exact key (e s) (h.acts s) s hs

/-- An act of an access on its way, its group's apart. -/
def Act.Sends : Act → Prop
  | .rod .. | .free _ | .ids _ | .op .. | .timers _ | .tlb .. | .walk .. | .breq .. | .agenda _ => True
  | _ => False

/-- `t` is `s` in which the access `i`, issued as `c`, has begun. -/
structure Sending (s : State) (c : Iss) (i : Instr) (t : State) : Prop where
  same : SameButSend s t
  quiet : Quiet s t c i

theorem sends_groups {a : Act} (ha : a.Sends) (t : State) : (t.apply a).groups = t.groups := by
  cases a
  case group => exact ha.elim
  all_goals rfl

theorem sameButSend_apply {s t : State} (h : SameButSend s t) {a : Act} (ha : a.Sends) : SameButSend s (t.apply a) := by
  cases a with
  | rod | free | ids | op | timers | tlb | walk | breq | agenda => exact (congrArg (State.apply · _) h).trans rfl
  | _ => exact ha.elim

theorem sameButSend_group {s t : State} (h : SameButSend s t) (k : Nat) (x : Option Group) : SameButSend s (t.apply (.group k x)) :=
  (congrArg (State.apply · _) h).trans rfl

theorem Quiet.of_groups {s t t' : State} {c : Iss} {i : Instr} (h : Quiet s t c i) (hg : t'.groups = t.groups) : Quiet s t' c i := by
  unfold Quiet OthersUntouched at h ⊢
  rw [hg]
  exact h

theorem Eff.Only.sending {e : Eff} (h : e.Only Act.Sends) {s : State} {c : Iss} {i : Instr} {t : State} (ht : Sending s c i t) :
    Sending s c i (t.does e) :=
  h.preserves (P := Sending s c i) (fun _ ha _ hu => ⟨sameButSend_apply hu.same ha, hu.quiet.of_groups (sends_groups ha _)⟩) ht

/-- A group with the registers and the results in flight of another, for what comes behind it. -/
theorem SameRegs.trans' {a b g : Group} (h : SameRegs a b) (hg : SameRegs b g) : SameRegs a g :=
  ⟨hg.v.trans h.v, hg.s.trans h.s, hg.c.trans h.c, hg.f.trans h.f, hg.q.trans h.q⟩

/-- The issuing group changes, its registers and its results in flight apart. -/
theorem Sending.changesCur {s : State} {c : Iss} {i : Instr} {t : State} (h : Sending s c i t) {k : Nat} (hk : k = s.cur) {f : Group → Group}
    (hr : ∀ g, SameRegs g (f g)) (hp : ∀ g, (f g).pend = g.pend) : Sending s c i (t.does (upGroup k f)) := by
  obtain ⟨hother, g, hg, hregs, hpend⟩ := h.quiet
  subst hk
  rw [does_upGroup_some _ _ _ _ hg]
  refine ⟨sameButSend_group h.same _ _, fun j hj => ?_, f g, by rw [apply_groups, find_setO_self], hregs.trans' (hr g), by rw [hp]; exact hpend⟩
  rw [apply_groups, find_setO_some_ne _ _ hj]
  exact hother j hj

-- the issue itself

theorem setsSb_sameRegs (i : Instr) (g : Group) : SameRegs g (setsSb i g) ∧ (setsSb i g).pend = g.pend := by
  unfold setsSb
  split
  · exact ⟨⟨rfl, rfl, rfl, rfl, rfl⟩, rfl⟩
  · exact ⟨⟨rfl, rfl, rfl, rfl, rfl⟩, rfl⟩

theorem mayWrite_sbAt {i : Instr} {L : Nat} {p : Pend} (h : p ∈ sbAt i L) : MayWrite i p.kind := by
  unfold sbAt at h
  split at h
  · rename_i n hn
    rw [List.mem_singleton.1 h]
    exact hn
  · exact nomatch h

/-- Dead marks change no register at once (R92). -/
theorem deadMarks_quiet (c : Iss) (i : Instr) (g : Group) :
    SameRegs g (deadMarks c i g) ∧ ∀ p ∈ (deadMarks c i g).pend, p ∈ g.pend ∨ MayWrite i p.kind := by
  unfold deadMarks
  split
  · exact ⟨⟨rfl, rfl, rfl, rfl, rfl⟩, fun p hp => .inl hp⟩
  · refine ⟨⟨rfl, rfl, rfl, rfl, rfl⟩, fun p hp => ?_⟩
    rcases (mem_pends _ _ _).1 hp with hp | hp
    · obtain ⟨u, hu, hp⟩ := List.mem_flatMap.1 hp
      split at hp
      · rename_i hd
        simp only [Bool.and_eq_true, decide_eq_true_eq] at hd
        obtain ⟨k, hk, rfl⟩ := List.mem_map.1 hp
        exact .inr ⟨u, hu, hd.1, hd.2, Nat.le_add_right _ _, Nat.add_lt_add_left (List.mem_range.1 hk) _⟩
      · exact nomatch hp
    · exact .inl hp

/-- The group behind an issue: its registers stand, and what has joined its results in flight is what the instruction may write. -/
theorem afterIssue_quiet (c : Iss) (i : Instr) (n : Nat) :
    SameRegs c.g (afterIssue c i n) ∧ ∀ p ∈ (afterIssue c i n).pend, p ∈ c.g.pend ∨ MayWrite i p.kind := by
  have hi : SameRegs c.g (issued c i n) ∧ (issued c i n).pend = c.g.pend := ⟨⟨rfl, rfl, rfl, rfl, rfl⟩, rfl⟩
  obtain ⟨hs, hsp⟩ := setsSb_sameRegs i (issued c i n)
  obtain ⟨hd, hdp⟩ := deadMarks_quiet c i (setsSb i (issued c i n))
  rw [hsp, hi.2] at hdp
  have hr := (hi.1.trans' hs).trans' hd
  unfold afterIssue
  dsimp only
  split
  · refine ⟨⟨hr.v, hr.s, hr.c, hr.f, hr.q⟩, fun p hp => ?_⟩
    exact ((mem_pends _ _ _).1 hp).elim (fun h => .inr (mayWrite_sbAt h)) (hdp p)
  · exact ⟨⟨hr.v, hr.s, hr.c, hr.f, hr.q⟩, hdp⟩

theorem kept_of_mem {l : List Pend} {p : Pend} (h : p ∈ l) : Kept l p := ⟨p, h, rfl, Nat.le_refl _⟩

theorem untouched_stale (a : Group) : Untouched a { a with csr := { a.csr with stale := true } } :=
  ⟨a.pend, a.past, true, rfl, fun _ => rfl, fun _ hx => .inl (kept_of_mem hx)⟩

theorem untouched_self (a : Group) : Untouched a a := ⟨a.pend, a.past, a.csr.stale, rfl, id, fun _ hx => .inl (kept_of_mem hx)⟩

/-- A continuation that sends `STALE` to its group (R95) leaves the rest as it was. -/
theorem Sending.stale {s : State} {c : Iss} {i : Instr} {t : State} (ht : Sending s c i t) (hothers : ∀ k, k ≠ s.cur → t.groups.find k = s.groups.find k)
    (p : Nat) : Sending s c i (t.does (upGroup p fun g => { g with csr := { g.csr with stale := true } })) := by
  by_cases hp : p = s.cur
  · exact ht.changesCur hp (fun _ => ⟨rfl, rfl, rfl, rfl, rfl⟩) fun _ => rfl
  · cases hg : t.groups.find p with
    | none =>
      rw [does_upGroup_none _ _ _ hg]
      exact ht
    | some x =>
      rw [does_upGroup_some _ _ _ _ hg]
      obtain ⟨hother, g, hgc, hregs, hpend⟩ := ht.quiet
      refine ⟨sameButSend_group ht.same _ _, fun k hk => ?_, g, ?_, hregs, hpend⟩
      · rw [apply_groups]
        by_cases hkp : k = p
        · subst hkp
          rw [find_setO_self, ← hothers k hk, hg]
          refine ⟨fun h => (by cases h), fun a ha => ⟨_, rfl, ?_⟩⟩
          cases ha
          exact untouched_stale x
        · rw [find_setO_some_ne _ _ hkp]
          exact hother k hk
      · rw [apply_groups, find_setO_some_ne _ _ (Ne.symm hp)]
        exact hgc

/-- The issue itself begins every access. -/
theorem begun_sending {s : State} {c : Iss} {i : Instr} (h : s.reaching i = some c) : Sending s c i (s.begun c i) := by
  obtain ⟨g0, pc, hg0, -⟩ := reaching_iff.1 h
  obtain ⟨hr, hp⟩ := afterIssue_quiet c i s.free
  have hg := gid_of_reaching h
  have hland := landed_eq (issuer_eq hg0)
  generalize hgrp : (afterIssue c i s.free).logged c.g i c.t = g
  have hgr : SameRegs c.g g := by subst hgrp; exact ⟨hr.v, hr.s, hr.c, hr.f, hr.q⟩
  have hgp : ∀ p ∈ g.pend, Kept c.g.pend p ∨ MayWrite i p.kind := by subst hgrp; exact fun p h => (hp p h).imp kept_of_mem id
  have hfind (k : Nat) (hk : k ≠ s.cur) : ((s.landed.apply (.free (s.free + 1))).apply (.group s.cur (some g))).groups.find k = s.groups.find k := by
    rw [hland, apply_groups, find_setO_some_ne _ _ hk]
    exact find_setO_some_ne _ _ hk
  have h1 : Sending s c i ((s.landed.apply (.free (s.free + 1))).apply (.group s.cur (some g))) := by
    refine ⟨by rw [hland]; rfl, fun k hk => ?_, g, by rw [apply_groups, find_setO_self], hgr, hgp⟩
    rw [hfind k hk]
    exact ⟨id, fun a ha => ⟨a, ha, untouched_self a⟩⟩
  have h2 : Sending s c i (((s.landed.apply (.free (s.free + 1))).apply (.group s.cur (some g))).does (onSome c.g.cont fun p =>
      when (staleField c i).isSome (upGroup p.1 fun g => { g with csr := { g.csr with stale := true } }))) := by
    cases c.g.cont with
    | none => exact h1
    | some p =>
      rw [does_onSome_some, does_when]
      split
      · exact h1.stale hfind p.1
      · exact h1
  unfold State.begun
  dsimp only
  rw [hgrp]
  split
  · exact h2
  · refine Eff.Only.sending (e := upRod _ _) ⟨fun t a ha => ?_⟩ h2
    unfold upRod at ha
    split at ha
    · rw [List.mem_singleton.1 ha]
      exact trivial
    · exact nomatch ha

end Sys2Proof.Machine
end

section
/-!
SUPPORT. What the issue of a load begins (R153, R234, R236, R411 to R415): its operation, its accesses and its return.
-/
namespace Sys2Proof.Machine

-- effects of an access on its way

/-- An act of the lookups, and of the steps to come, of an access: neither its operation nor its group. -/
def Act.Rides : Act → Prop
  | .free _ | .timers _ | .tlb .. | .walk .. => True
  | _ => False

/-- An act that touches neither the operations nor their counter. -/
def Act.OffOps : Act → Prop
  | .op .. | .ids _ => False
  | _ => True

theorem Eff.Only.mono {A B : Act → Prop} {e : Eff} (h : e.Only A) (hab : ∀ a, A a → B a) : e.Only B := ⟨fun s a ha => hab a (h.acts s a ha)⟩

theorem Eff.Only.sends {e : Eff} (h : e.Only Act.Rides) : e.Only Act.Sends := h.mono fun a ha => by
  cases a with
  | free | timers | tlb | walk => exact trivial
  | _ => exact ha.elim

theorem Eff.Only.offOps {e : Eff} (h : e.Only Act.Rides) : e.Only Act.OffOps := h.mono fun a ha => by
  cases a with
  | free | timers | tlb | walk => exact trivial
  | _ => exact ha.elim

theorem Eff.Only.keeps_ops {e : Eff} (h : e.Only Act.OffOps) : e.Keeps State.ops := h.keeps fun a ha s => by
  cases a
  case op => exact ha.elim
  all_goals rfl

theorem Eff.Only.keeps_ids {e : Eff} (h : e.Only Act.OffOps) : e.Keeps State.ids := h.keeps fun a ha s => by
  cases a
  case ids => exact ha.elim
  all_goals rfl

theorem rides_later (lo hi : Nat) (i : Instr) : (later lo hi i).Only Act.Rides :=
  only_freely (fun _ => trivial) fun _ => only_on fun _ => only_act trivial

theorem rides_fillTlb (frame ctx va : Nat) : (fillTlb frame ctx va).Only Act.Rides := only_on fun _ =>
  only_ite only_skip <| only_andThen (only_act trivial) <| by
    split
    · exact only_freely (fun _ => trivial) fun _ => only_on fun _ => only_act trivial
    · exact only_skip

theorem rides_fillFor (frame ctx : Nat) (l : List (Nat × Nat)) : (fillFor frame ctx l).Only Act.Rides := only_each fun _ => by
  split
  · exact rides_fillTlb ..
  · exact only_skip

theorem rides_askForBeads (o : Op) (write : Bool) (l : List Acc) : (askForBeads o write l).Only Act.Rides :=
  only_each fun _ => only_on fun _ => only_when (rides_later ..)

theorem sends_upOp (id : Nat) (f : Op → Op) : (upOp id f).Only Act.Sends := ⟨fun s a ha => by
  unfold upOp at ha
  split at ha
  · exact List.mem_singleton.1 ha ▸ trivial
  · exact nomatch ha⟩

theorem offOps_upGroup (k : Nat) (f : Group → Group) : (upGroup k f).Only Act.OffOps := ⟨fun s a ha => by
  unfold upGroup at ha
  split at ha
  · exact List.mem_singleton.1 ha ▸ trivial
  · exact nomatch ha⟩

theorem offOps_upRod (k : Nat) (f : Rod → Rod) : (upRod k f).Only Act.OffOps := ⟨fun s a ha => by
  unfold upRod at ha
  split at ha
  · exact List.mem_singleton.1 ha ▸ trivial
  · exact nomatch ha⟩

theorem offOps_contWaits (c : Iss) (id : Nat) : (contWaits c id).Only Act.OffOps := only_when (offOps_upGroup ..)

theorem Sending.contWaits {s : State} {c : Iss} {i : Instr} {t : State} (h : Sending s c i t) (hc : c.gid = s.cur) (id : Nat) :
    Sending s c i (t.does (contWaits c id)) := by
  unfold Machine.contWaits
  rw [does_when]
  split
  · exact h.changesCur hc (fun _ => ⟨rfl, rfl, rfl, rfl, rfl⟩) fun _ => rfl
  · exact h

theorem does_newOp (t : State) (c : Iss) (i : Instr) (st : OpState) (l : List Acc) (vals : Lanes) (after : List Nat) (f : Nat → Eff) :
    t.does (newOp c i st l vals after f)
      = ((t.apply (.ids (t.ids + 1))).apply (.op t.ids (some (opOf c (t.apply (.ids (t.ids + 1))) i st l vals after t.ids)))).does (f t.ids) := by
  rw [newOp, does_fresh, does_on, does_andThen, does_act]

theorem does_newOp_andThen (t : State) (c : Iss) (i : Instr) (st : OpState) (l : List Acc) (vals : Lanes) (after : List Nat) (f g : Nat → Eff) :
    t.does (newOp c i st l vals after fun id => andThen (f id) (g id)) = (t.does (newOp c i st l vals after f)).does (g t.ids) := by
  rw [does_newOp, does_newOp, does_andThen]

/-- A step put off from a state in which an access has begun is due from its issue on. -/
theorem Sending.due {s t : State} {c : Iss} {i : Instr} (h : Sending s c i t) {lo hi : Nat} (hlo : lo ≤ hi) (j : Instr) :
    Due s (t.does (later lo hi j)) lo hi j := by
  have hn : t.now = s.now := (congrArg State.now (show t = _ from h.same)).trans rfl
  have hd := (later_due t hlo j).1
  unfold Due at hd ⊢
  rw [hn] at hd
  exact hd

/-- In `t` operation `id` is the newest, a load in state `st` with the accesses `accs`, behind the operations `after`. -/
structure LoadBegun (c : Iss) (i : Instr) (st : OpState) (accs : List Acc) (after : List Nat) (id : Nat) (t : State) : Prop where
  ids : t.ids = id + 1
  op : ∃ s hs pr, t.ops.find id = some { opOf c s i st accs [] after id with held := hs, pair := pr }

section New
variable {c : Iss} {i : Instr} {st : OpState} {accs : List Acc} {after : List Nat}

/-- A new operation is there, and what follows leaves it. -/
theorem newOp_begun (t : State) {f : Nat → Eff} (hf : (f t.ids).Only Act.OffOps) :
    LoadBegun c i st accs after t.ids (t.does (newOp c i st accs [] after f)) := by
  rw [does_newOp]
  exact ⟨hf.keeps_ids _, _, [], (0, 0), by rw [hf.keeps_ops, apply_ops, find_setO_self]; rfl⟩

theorem Sending.newOp {s t : State} (h : Sending s c i t) {f : Nat → Eff} (hf : ∀ {u}, Sending s c i u → Sending s c i (u.does (f t.ids)))
    (vals : Lanes) : Sending s c i (t.does (Machine.newOp c i st accs vals after f)) := by
  rw [does_newOp]
  have h2 := Eff.Only.sending (e := Machine.andThen (act (.ids (t.ids + 1)))
    (act (.op t.ids (some (opOf c (t.apply (.ids (t.ids + 1))) i st accs vals after t.ids))))) (only_andThen (only_act trivial) (only_act trivial)) h
  rw [does_andThen] at h2
  exact hf h2

end New

-- loads of global memory

/-- A load's access to the page `g`: done at once with the elements that `pre` knows (R414). -/
def loadAccAt (c : Iss) (pre : Page → Nat → Option Lanes) (p : Nat × Nat) (g : Page) : Acc :=
  match pre g p.2 with
  | some x => { accOf c p.1 p.2 (some g) with done := true, res := guardOver (accOf c p.1 p.2 (some g)) x }
  | none => accOf c p.1 p.2 (some g)

/-- The accesses of a load whose pages are found. -/
def loadAccs (s : State) (c : Iss) (pre : Page → Nat → Option Lanes) (l : List (Nat × Nat)) : List Acc :=
  l.filterMap fun p => (pageFor s c p.2).map (loadAccAt c pre p)

theorem loadAccs_none (s : State) (c : Iss) (l : List (Nat × Nat)) : loadAccs s.landed c (fun _ _ => none) l = accsFor s c l := rfl

theorem loadAccAt_fields (c : Iss) (pre : Page → Nat → Option Lanes) (p : Nat × Nat) (g : Page) :
    (loadAccAt c pre p g).lane = p.1 ∧ (loadAccAt c pre p g).adr = p.2 ∧ (loadAccAt c pre p g).page = some g := by
  unfold loadAccAt
  cases pre g p.2 <;> exact ⟨rfl, rfl, rfl⟩

theorem mem_loadAccs {s : State} {c : Iss} {pre : Page → Nat → Option Lanes} {l : List (Nat × Nat)} {p : Nat × Nat} (hp : p ∈ l) {g : Page}
    (hg : pageFor s c p.2 = some g) : loadAccAt c pre p g ∈ loadAccs s c pre l :=
  List.mem_filterMap.2 ⟨p, hp, by rw [hg]; rfl⟩

/-- A load that asks for its beads at its issue (R205). -/
def asksBeads : Instr → Bool
  | .ld .. => true
  | _ => false

/-- The operation of a load with the accesses `ok`, the published clocks `b` and the lanes `ps` whose lookup failed, with their records
`hs`: it returns by itself if it waits for no other. -/
def loadOp (c : Iss) (i : Instr) (first : List Nat) (bad ok ps : List Acc) (b : Nat × Nat) (hs : List Withheld) : Eff :=
  newOp c i (if first = [] then .sent else .waiting) (ok ++ ps ++ bad) [] first fun id =>
    seqs [upOp id fun o => { o with held := hs, pair := b }, contWaits c id,
      when (first = [] && asksBeads i) (on fun s => onSome (s.ops.find id) fun o => askForBeads o o.takesAll ok),
      when (first = []) (later (b.1 - 7) (b.2 - 7) (.loadReturn id))]

/-- The clocks of a load with those that its lookups and its team's traps add. -/
def loadClocks (s : State) (c : Iss) (l : List (Nat × Nat)) (b : Nat × Nat) : Nat × Nat :=
  (b.1 + (extraDelay s c.g.frame (s.ctxOf c.g) l).1, b.2 + (extraDelay s c.g.frame (s.ctxOf c.g) l).2)

/-- The accesses of a load whose lanes have not failed. -/
def unfailed (ps ok : List Acc) : List Acc := ok.filter fun a => !ps.any fun b => b.lane = a.lane

theorem unfailed_nil (ok : List Acc) : unfailed [] ok = ok := List.filter_eq_self.2 fun _ _ => rfl

section Load
variable {s : State} {c : Iss} {i : Instr} {d : Dst} {l : List (Nat × Nat)} {bad : List (Nat × Word)} {pre : Page → Nat → Option Lanes}
  {pair : List Acc → Nat × Nat} {after : List Acc → List Nat}

theorem globalLoad_mapped (hf : failedOf s c.g.frame (s.ctxOf c.g) .read l = []) :
    globalLoad c s i d l bad pre pair after = .done (seqs [fillFor c.g.frame (s.ctxOf c.g) l, failing c d.uniform [] fun ps hs =>
      loadOp c i (after (unfailed ps (loadAccs s c pre l))) (bad.map fun p => doneAcc p.1 p.2) (unfailed ps (loadAccs s c pre l)) ps
        (loadClocks s c l (pair (unfailed ps (loadAccs s c pre l)))) hs]) := by
  unfold globalLoad
  dsimp only
  rw [hf]
  exact if_neg (by simp)

theorem does_failing_nil (t : State) (c : Iss) (u : Bool) (k : List Acc → List Withheld → Eff) : t.does (failing c u [] k) = t.does (k [] []) := by
  unfold failing
  cases u <;> exact does_andThen ..

/-- A load whose lookups all succeed begins (R234, R236, R412). -/
theorem does_globalLoad {e : Eff} (hf : failedOf s c.g.frame (s.ctxOf c.g) .read l = [])
    (he : globalLoad c s i d l bad pre pair after = .done e) (t : State) :
    t.does e = (t.does (fillFor c.g.frame (s.ctxOf c.g) l)).does (loadOp c i (after (loadAccs s c pre l)) (bad.map fun p => doneAcc p.1 p.2)
      (loadAccs s c pre l) [] (loadClocks s c l (pair (loadAccs s c pre l))) []) := by
  rw [globalLoad_mapped hf] at he
  cases he
  rw [does_seqs_cons, does_seqs_cons, does_seqs_nil, does_failing_nil, unfailed_nil]

end Load

section Begin
variable {s : State} {c : Iss} {i : Instr} {first : List Nat} {bad ok : List Acc} {b : Nat × Nat}

theorem loadOp_sending (hc : c.gid = s.cur) {t : State} (h : Sending s c i t) : Sending s c i (t.does (loadOp c i first bad ok [] b [])) := by
  refine h.newOp (fun hu => ?_) []
  rw [does_seqs_cons, does_seqs_cons, does_seqs_cons, does_seqs_cons, does_seqs_nil]
  refine Eff.Only.sending (only_when (rides_later ..).sends) (Eff.Only.sending (only_when ?_) (((sends_upOp ..).sending hu).contWaits hc _))
  exact only_on fun _ => only_onSome fun o => (rides_askForBeads ..).sends

theorem loadOp_begun (t : State) :
    LoadBegun c i (if first = [] then .sent else .waiting) (ok ++ bad) first t.ids (t.does (loadOp c i first bad ok [] b [])) := by
  have hrest (id : Nat) : (seqs [contWaits c id,
      when (first = [] && asksBeads i) (on fun s => onSome (s.ops.find id) fun o => askForBeads o o.takesAll ok),
      when (first = []) (later (b.1 - 7) (b.2 - 7) (.loadReturn id))]).Only Act.OffOps :=
    only_seqs_cons (offOps_contWaits ..) <| only_seqs_cons (only_when (only_on fun _ => only_onSome fun _ => (rides_askForBeads ..).offOps)) <|
      only_seqs_cons (only_when (rides_later ..).offOps) only_seqs_nil
  rw [loadOp, does_newOp, does_seqs_cons, does_upOp_some _ _ _ _ (by rw [apply_ops, find_setO_self]), List.append_nil]
  refine ⟨(hrest _).keeps_ids _, t.apply (.ids (t.ids + 1)), [], b, ?_⟩
  rw [(hrest _).keeps_ops, apply_ops, find_setO_self]

theorem loadOp_returns (hf : first = []) (t : State) :
    ∃ T, (T, .loadReturn t.ids) ∈ (t.does (loadOp c i first bad ok [] b [])).timers := by
  rw [loadOp, does_newOp, does_seqs_cons, does_seqs_cons, does_seqs_cons, does_seqs_cons, does_seqs_nil, does_when, if_pos (by simp [hf])]
  exact ⟨_, List.mem_append_right _ (List.mem_singleton.2 rfl)⟩

end Begin

end Sys2Proof.Machine
end

section
/-!
SUPPORT. What a load of the local store reads (R152, R156, R412): the bytes of its words, and the registers that they make.
-/
namespace Sys2Proof.Machine

-- little-endian bytes (R3)

theorem leBytes_length (n x : Nat) : (leBytes n x).length = n := by
  induction n generalizing x with
  | zero => rfl
  | succ n ih => exact congrArg (· + 1) (ih _)

theorem leBytes_drop (n k x : Nat) : (leBytes n x).drop k = leBytes (n - k) (x / 256 ^ k) := by
  induction k generalizing n x with
  | zero => simp
  | succ k ih =>
    cases n with
    | zero => simp [leBytes]
    | succ n => rw [leBytes, List.drop_succ_cons, ih, Nat.div_div_eq_div_mul, Nat.pow_succ', Nat.succ_sub_succ]

theorem leBytes_take {n k : Nat} (h : k ≤ n) (x : Nat) : (leBytes n x).take k = leBytes k x := by
  induction k generalizing n x with
  | zero => rfl
  | succ k ih =>
    cases n with
    | zero => omega
    | succ n => rw [leBytes, List.take_succ_cons, ih (by omega), leBytes]

theorem leNat_leBytes (n x : Nat) : leNat (leBytes n x) = x % 256 ^ n := by
  induction n generalizing x with
  | zero => rw [Nat.pow_zero, Nat.mod_one]; rfl
  | succ n ih => rw [leBytes, leNat, ih, BitVec.toNat_ofNat, show 2 ^ 8 = 256 from rfl, Nat.pow_succ' (m := 256), Nat.mod_mul]

theorem leNat_append (l m : List Byte) : leNat (l ++ m) = leNat l + 256 ^ l.length * leNat m := by
  induction l with
  | nil => simp [leNat]
  | cons b l ih => rw [List.cons_append, leNat, leNat, ih, List.length_cons, Nat.pow_succ']; ring

/-- The 32-bit words of a number whose bytes are those of a list of words. -/
theorem leNat_words (l : List Word) {k : Nat} (hk : k < l.length) :
    BitVec.ofNat 32 (leNat (l.flatMap fun w => leBytes 4 w.toNat) / 2 ^ (32 * k)) = l[k] := by
  induction l generalizing k with
  | nil => exact absurd hk (Nat.not_lt_zero _)
  | cons w l ih =>
    have hw : w.toNat % 256 ^ 4 = w.toNat := Nat.mod_eq_of_lt w.isLt
    rw [List.flatMap_cons, leNat_append, leNat_leBytes, leBytes_length, hw]
    cases k with
    | zero =>
      refine BitVec.eq_of_toNat_eq ?_
      rw [BitVec.toNat_ofNat, Nat.mul_zero, Nat.pow_zero, Nat.div_one, show 256 ^ 4 = 2 ^ 32 by rfl, Nat.add_mul_mod_self_left,
        Nat.mod_eq_of_lt w.isLt]
      rfl
    | succ k =>
      have h : (w.toNat + 256 ^ 4 * leNat (l.flatMap fun w => leBytes 4 w.toNat)) / 2 ^ (32 * (k + 1))
          = leNat (l.flatMap fun w => leBytes 4 w.toNat) / 2 ^ (32 * k) := by
        rw [Nat.mul_succ, Nat.add_comm (32 * k), Nat.pow_add, ← Nat.div_div_eq_div_mul]
        congr 1
        have := w.isLt
        omega
      rw [h, ih (Nat.lt_of_succ_lt_succ hk), List.getElem_cons_succ]

-- the words of an access

/-- The payload of a poisoned word. -/
def LWord.payload (w : LWord) : Option Word := if w.poi then some w.val else none

/-- A register loaded with `v`, or with a payload. -/
def loadedElem (v : Word) : Option Word → Elem
  | some w => ⟨w, true⟩
  | none => clean v

theorem loadedElem_word (w : LWord) : loadedElem w.val w.payload = ⟨w.val, w.poi⟩ := by
  unfold LWord.payload
  cases h : w.poi <;> rfl

section Read
variable (t : Team) {a n : Nat}

/-- An access inside one word. -/
theorem lsRead_word (hn : 0 < n) (h : a % 4 + n ≤ 4) :
    t.lsRead a n = (((leBytes 4 (t.word (a / 4)).val.toNat).drop (a % 4)).take n, (t.word (a / 4)).payload) := by
  have h1 : (a + n - 1) / 4 + 1 - a / 4 = 1 := by omega
  unfold Team.lsRead
  rw [h1]
  simp only [List.range_one, List.map_singleton, List.flatMap_singleton, Nat.add_zero, List.findSome?_singleton]
  rfl

/-- The number that it reads. -/
theorem leNat_lsRead_word (hn : 0 < n) (h : a % 4 + n ≤ 4) :
    leNat (t.lsRead a n).1 = (t.word (a / 4)).val.toNat / 256 ^ (a % 4) % 256 ^ n := by
  rw [lsRead_word t hn h]
  dsimp only
  rw [leBytes_drop, leBytes_take (by omega), leNat_leBytes]

/-- An access to whole words. -/
theorem lsRead_words {m : Nat} (hm : 0 < m) (ha : a % 4 = 0) :
    (t.lsRead a (4 * m)).1 = ((List.range m).map fun k => (t.word (a / 4 + k)).val).flatMap fun w => leBytes 4 w.toNat := by
  have h1 : (a + 4 * m - 1) / 4 + 1 - a / 4 = m := by omega
  have hlen : ((((List.range m).map fun k => t.word (a / 4 + k)).flatMap fun w => leBytes 4 w.val.toNat)).length = 4 * m := by
    simp [List.length_flatMap, leBytes_length, Function.comp_def, Nat.mul_comm]
  unfold Team.lsRead
  dsimp only
  rw [h1, ha, List.drop_zero, List.take_of_length_le (by omega), List.flatMap_map, List.flatMap_map]

end Read

-- the registers

theorem loadElems_one (w : Width) (l : List Byte) (p : Option Word) (q : List (Option Word)) (h : w.bytes ≤ 4) :
    loadElems w l (p :: q) = [loadedElem (match w with
      | .s8 => (BitVec.ofNat 8 (leNat l)).signExtend 32
      | .s16 => (BitVec.ofNat 16 (leNat l)).signExtend 32
      | _ => BitVec.ofNat 32 (leNat l)) p] := by
  cases w with
  | w64 | w128 => exact absurd h (by decide)
  | _ => cases p <;> rfl

theorem loadElems_wide {w : Width} (l : List Byte) {p : List (Option Word)} (h : 8 ≤ w.bytes) {j : Nat} (hj : j < w.regs) {q : Option Word}
    (hq : p[j]? = some q) : (loadElems w l p)[j]? = some (loadedElem (BitVec.ofNat 32 (leNat l / 2 ^ (32 * j))) q) := by
  have hw : loadElems w l p = (((List.range w.regs).map fun k => BitVec.ofNat 32 (leNat l / 2 ^ (32 * k))).zip (p ++ List.replicate 4 none)).map
      fun x => loadedElem x.1 x.2 := by
    cases w with
    | w64 | w128 => exact List.map_congr_left fun x _ => by cases x.2 <;> rfl
    | _ => exact absurd h (by decide)
  have hz := (List.getElem?_zip_eq_some (l₁ := (List.range w.regs).map fun k => BitVec.ofNat 32 (leNat l / 2 ^ (32 * k)))
    (l₂ := p ++ List.replicate 4 none) (i := j) (z := (BitVec.ofNat 32 (leNat l / 2 ^ (32 * j)), q))).2
    ⟨by simp [hj], by rw [List.getElem?_append_left (List.getElem?_eq_some_iff.1 hq).1]; exact hq⟩
  rw [hw, List.getElem?_map, hz]
  rfl

-- a lane's load

theorem lsLoad_done (t : Team) (w : Width) (a : Acc) : (t.lsLoad w a).done = true := by
  unfold Team.lsLoad
  dsimp only
  split
  · assumption
  · rfl

theorem lsLoad_place (t : Team) (w : Width) (a : Acc) : (t.lsLoad w a).lane = a.lane ∧ (t.lsLoad w a).adr = a.adr := by
  unfold Team.lsLoad
  dsimp only
  split
  · exact ⟨rfl, rfl⟩
  · exact ⟨rfl, rfl⟩

/-- A lane whose access is done before it begins keeps what it has. -/
theorem lsLoad_of_done (t : Team) (w : Width) {a : Acc} (h : a.done = true) : t.lsLoad w a = a := if_pos h

/-- The payloads that a load's registers take. -/
def lsPayloads (t : Team) (w : Width) (a : Nat) : List (Option Word) :=
  (List.range 4).map fun k => if w.bytes ≤ 4 then (t.lsRead a w.bytes).2 else (t.word (a / 4 + k)).payload

/-- A lane whose guard is not poisoned takes the words' registers (R253, R412). -/
theorem lsLoad_res (t : Team) (w : Width) {c : Iss} {L a : Nat} (hg : c.gpoi.getD L none = none) :
    (t.lsLoad w (accOf c L a none)).res = loadElems w (t.lsRead a w.bytes).1 (lsPayloads t w a) := by
  unfold accOf
  rw [hg]
  rfl

theorem toNat_shift_bytes (v : Word) (k : Nat) : (v >>> (8 * k)).toNat = v.toNat / 256 ^ k := by
  rw [BitVec.toNat_ushiftRight, Nat.shiftRight_eq_div_pow, Nat.pow_mul]

/-- The low bytes of a word, zero-extended. -/
theorem ofNat_low_bytes (v : Word) {n : Nat} (h : 8 * n < 32) : BitVec.ofNat 32 (v.toNat % 256 ^ n) = v &&& BitVec.ofNat 32 (2 ^ (8 * n) - 1) := by
  have hp : 256 ^ n = 2 ^ (8 * n) := by rw [Nat.pow_mul]
  have hl : 2 ^ (8 * n) < 2 ^ 32 := Nat.pow_lt_pow_right (by omega) h
  have hm := Nat.mod_lt v.toNat (Nat.two_pow_pos (8 * n))
  refine BitVec.eq_of_toNat_eq ?_
  rw [BitVec.toNat_and, BitVec.toNat_ofNat, BitVec.toNat_ofNat, hp, Nat.mod_eq_of_lt (show 2 ^ (8 * n) - 1 < 2 ^ 32 by omega),
    Nat.and_two_pow_sub_one_eq_mod, Nat.mod_eq_of_lt (by omega)]

/-- The low bytes of a word, as a narrower one. -/
theorem ofNat_low_width (v : Word) (n : Nat) : BitVec.ofNat (8 * n) (v.toNat % 256 ^ n) = v.setWidth (8 * n) := by
  refine BitVec.eq_of_toNat_eq ?_
  rw [BitVec.toNat_ofNat, BitVec.toNat_setWidth, show 256 ^ n = 2 ^ (8 * n) by rw [Nat.pow_mul], Nat.mod_mod]

/-- An aligned access of at most four bytes lies in one word. -/
theorem aligned_in_word {w : Width} {a : Nat} (ha : a % w.bytes = 0) (hw : w.bytes ≤ 4) : 0 < w.bytes ∧ a % 4 + w.bytes ≤ 4 := by
  cases w with
  | w64 | w128 => exact absurd hw (by decide)
  | _ => simp only [Width.bytes] at ha ⊢; omega

section Values
variable (t : Team) {w : Width} {a : Nat}

theorem lsPayloads_word (ha : a % w.bytes = 0) (hw : w.bytes ≤ 4) :
    ∃ l, lsPayloads t w a = (t.word (a / 4)).payload :: l := by
  have h := congrArg Prod.snd (lsRead_word t (aligned_in_word ha hw).1 (aligned_in_word ha hw).2)
  simp only [lsPayloads, if_pos hw, h]
  exact ⟨_, rfl⟩

/-- Whole words are loaded as they stand. -/
theorem lsLoad_words (ha : a % w.bytes = 0) (hw : 4 ≤ w.bytes) {j : Nat} (hj : j < w.regs) :
    (loadElems w (t.lsRead a w.bytes).1 (lsPayloads t w a))[j]? = some ⟨(t.word (a / 4 + j)).val, (t.word (a / 4 + j)).poi⟩ := by
  have hb : w.bytes = 4 * w.regs ∧ w.regs ≤ 4 ∧ (w.bytes ≤ 4 → w = .w32) := by
    cases w with
    | w32 | w64 | w128 => decide
    | _ => exact absurd hw (by decide)
  obtain ⟨h4, hr, h32⟩ := hb
  have ha4 : a % 4 = 0 := Nat.mod_eq_zero_of_dvd (Dvd.dvd.trans ⟨_, h4⟩ (Nat.dvd_of_mod_eq_zero ha))
  have hval : BitVec.ofNat 32 (leNat (t.lsRead a w.bytes).1 / 2 ^ (32 * j)) = (t.word (a / 4 + j)).val := by
    rw [h4, lsRead_words t (by omega) ha4, leNat_words _ (by simpa using hj)]
    simp
  by_cases h8 : w.bytes ≤ 4
  · obtain rfl := h32 h8
    obtain rfl : j = 0 := by simp only [Width.regs] at hj; omega
    obtain ⟨l, hl⟩ := lsPayloads_word t ha h8
    rw [hl, loadElems_one _ _ _ _ h8, ← loadedElem_word, ← hval]
    simp
  · have hq : (lsPayloads t w a)[j]? = some (t.word (a / 4 + j)).payload := by
      simp [lsPayloads, h8, List.getElem?_range (show j < 4 by omega)]
    rw [loadElems_wide _ (by omega) hj hq, hval, loadedElem_word]

/-- A narrow load of a poisoned word takes its payload. -/
theorem lsLoad_narrow_poisoned (ha : a % w.bytes = 0) (hw : w.bytes < 4) (hp : (t.word (a / 4)).poi = true) :
    loadElems w (t.lsRead a w.bytes).1 (lsPayloads t w a) = [⟨(t.word (a / 4)).val, true⟩] := by
  obtain ⟨l, hl⟩ := lsPayloads_word t ha (Nat.le_of_lt hw)
  rw [hl, loadElems_one _ _ _ _ (Nat.le_of_lt hw), LWord.payload, if_pos hp]
  rfl

/-- A narrow load of a clean word extends its bytes. -/
theorem lsLoad_narrow_clean (ha : a % w.bytes = 0) (hw : w.bytes < 4) (hp : (t.word (a / 4)).poi = false) :
    loadElems w (t.lsRead a w.bytes).1 (lsPayloads t w a) =
      [⟨if w = .n8 then (t.word (a / 4)).val >>> (8 * (a % 4)) &&& 0xFF#32
        else if w = .s8 then (((t.word (a / 4)).val >>> (8 * (a % 4))).setWidth 8).signExtend 32
        else if w = .n16 then (t.word (a / 4)).val >>> (8 * (a % 4)) &&& 0xFFFF#32
        else (((t.word (a / 4)).val >>> (8 * (a % 4))).setWidth 16).signExtend 32, false⟩] := by
  obtain ⟨l, hl⟩ := lsPayloads_word t ha (Nat.le_of_lt hw)
  obtain ⟨h0, hin⟩ := aligned_in_word ha (Nat.le_of_lt hw)
  rw [hl, loadElems_one _ _ _ _ (Nat.le_of_lt hw), leNat_lsRead_word t h0 hin, LWord.payload, hp, ← toNat_shift_bytes]
  generalize (t.word (a / 4)).val >>> (8 * (a % 4)) = v
  cases w with
  | n8 => exact congrArg (fun x => [clean x]) (ofNat_low_bytes v (n := 1) (by omega))
  | s8 => exact congrArg (fun x => [clean (BitVec.signExtend 32 x)]) (ofNat_low_width v 1)
  | n16 => exact congrArg (fun x => [clean x]) (ofNat_low_bytes v (n := 2) (by omega))
  | s16 => exact congrArg (fun x => [clean (BitVec.signExtend 32 x)]) (ofNat_low_width v 2)
  | w32 | w64 | w128 => exact absurd hw (by decide)

end Values

end Sys2Proof.Machine
end

section
/-!
SUPPORT. O31: loads at their issue, each with the operation that it begins.
-/
namespace Sys2Proof.Machine

-- the state that the checks of an issue see

theorem landed_localBefore (s : State) (c : Iss) (i : Instr) : localBefore s.landed c i = localBefore s c i := by
  unfold State.landed
  split <;> rfl

theorem landed_orderedBefore (s : State) (c : Iss) (i : Instr) (l : List Acc) : orderedBefore s.landed c i l = orderedBefore s c i l := by
  unfold State.landed
  split <;> rfl

theorem landed_ctxOf (s : State) (g : Group) : s.landed.ctxOf g = s.ctxOf g := by
  unfold State.landed
  split <;> rfl

theorem landed_forkAt (s : State) (frame : Nat) (h : Word) : s.landed.forkAt frame h = s.forkAt frame h := by
  unfold State.landed
  split <;> rfl

theorem landed_forks (s : State) : s.landed.forks = s.forks := by
  unfold State.landed
  split <;> rfl

theorem landed_ccache (s : State) : s.landed.ccache = s.ccache := by
  unfold State.landed
  split <;> rfl

theorem landed_ids (s : State) : s.landed.ids = s.ids := by
  unfold State.landed
  split <;> rfl

/-- The issue itself makes no operation. -/
theorem begun_ids (s : State) (c : Iss) (i : Instr) : (s.begun c i).ids = s.ids := by
  have h1 (t : State) : (t.does (onSome c.g.cont fun p =>
      when (staleField c i).isSome (upGroup p.1 fun g => { g with csr := { g.csr with stale := true } }))).ids = t.ids :=
    Eff.Only.keeps_ids (only_onSome fun _ => only_when (offOps_upGroup ..)) t
  unfold State.begun
  dsimp only
  split
  · exact (h1 _).trans (landed_ids s)
  · exact ((offOps_upRod _ _).keeps_ids _).trans ((h1 _).trans (landed_ids s))

/-- Accesses that are aligned, and inside the local store, pass the checks of R153. -/
theorem aligned_passes {c : Iss} {ls : Bool} {w : Nat} {l : List (Nat × Nat)} (h : ∀ p ∈ l, p.2 % w = 0)
    (hls : ls = true → ∀ p ∈ l, p.2 + w ≤ c.tm.lsBytes) (k : Res) : aligned c ls w l k = k := by
  have h1 : (l.find? fun p => decide (p.2 % w ≠ 0)) = none := List.find?_eq_none.2 fun p hp => by simp [h p hp]
  have h2 : (if ls then l.find? fun p => decide (c.tm.lsBytes < p.2 + w) else none) = none := by
    split
    · rename_i hb
      exact List.find?_eq_none.2 fun p hp => by simpa using hls hb p hp
    · rfl
  unfold aligned
  rw [h1]
  dsimp only
  rw [h2]

/-- An operation that a load has begun stands in the state that follows. -/
theorem LoadBegun.opens {s t : State} {c : Iss} {i : Instr} {st : OpState} {accs : List Acc} {first : List Nat}
    (h : LoadBegun c i st accs first s.ids t) (hc : c.gid = s.cur) {P : Op → Prop}
    (hp : ∀ o : Op, o.accs = accs → o.after = first → P o) : Opens s t c i st P := by
  obtain ⟨u, hs, pr, ho⟩ := h.op
  exact ⟨_, ho, rfl, rfl, hc, rfl, rfl, rfl, hp _ rfl rfl⟩

/-- What follows an operation and leaves it. -/
theorem LoadBegun.behind {c : Iss} {i : Instr} {st : OpState} {accs : List Acc} {first : List Nat} {id : Nat} {t : State}
    (h : LoadBegun c i st accs first id t) {e : Eff} (he : e.Only Act.OffOps) : LoadBegun c i st accs first id (t.does e) :=
  ⟨(he.keeps_ids t).trans h.ids, by rw [he.keeps_ops]; exact h.op⟩

/-- The lanes whose address is poisoned have their payload already. -/
theorem bad_done {l : List (Nat × Word)} {accs : List Acc} {o : Op} (ho : o.accs = accs ++ l.map fun p => doneAcc p.1 p.2) :
    ∀ p ∈ l, ∃ x ∈ o.accs, x.lane = p.1 ∧ x.done = true ∧ x.res = poisoned4 p.2 := fun p hp =>
  ⟨doneAcc p.1 p.2, by rw [ho]; exact List.mem_append_right _ (List.mem_map.2 ⟨p, hp, rfl⟩), rfl, rfl, rfl⟩

-- the local store

section Local
variable {s : State} {c : Iss} {h : Head} {w : Width} {d : Dst} {a : Src} {mc : Mc}

/-- The accesses of a load of the local store. -/
def lsAccs (c : Iss) (w : Width) (d : Dst) (a : Src) (mc : Mc) : List Acc :=
  ((addrs c true a mc.ofs w.bytes (accLanes c d)).map fun p => accOf c p.1 p.2 none)
    ++ (badAddrs c true a mc.ofs w.bytes (accLanes c d)).map fun p => doneAcc p.1 p.2

theorem exec_ld_ls_waits (hi : s.issuing (.ld h true w d a mc) = some c) (ha : acts c (.ld h true w d a mc) = true)
    (hal : ∀ p ∈ addrs c true a mc.ofs w.bytes (accLanes c d), p.2 % w.bytes = 0 ∧ p.2 + w.bytes ≤ c.tm.lsBytes)
    (hw : localBefore s c (.ld h true w d a mc) ≠ []) :
    exec (.ld h true w d a mc) s = .next ((s.begun c (.ld h true w d a mc)).does (newOp c (.ld h true w d a mc) .waiting (lsAccs c w d a mc) []
      (localBefore s c (.ld h true w d a mc)) (contWaits c))) := by
  refine issue_done hi ha ?_
  dsimp only
  rw [aligned_passes (fun p hp => (hal p hp).1) (fun _ p hp => (hal p hp).2), if_pos rfl, landed_localBefore]
  cases hb : localBefore s c (.ld h true w d a mc) with
  | nil => exact absurd hb hw
  | cons b l => rfl

theorem exec_ld_ls_reads (hi : s.issuing (.ld h true w d a mc) = some c) (ha : acts c (.ld h true w d a mc) = true)
    (hal : ∀ p ∈ addrs c true a mc.ofs w.bytes (accLanes c d), p.2 % w.bytes = 0 ∧ p.2 + w.bytes ≤ c.tm.lsBytes)
    (hw : localBefore s c (.ld h true w d a mc) = []) :
    exec (.ld h true w d a mc) s = .next ((s.begun c (.ld h true w d a mc)).does (newOp c (.ld h true w d a mc) .performed
      ((lsAccs c w d a mc).map (c.tm.lsLoad w)) [] [] fun id => andThen (contWaits c id) (later 17 33 (.loadReturn id)))) := by
  refine issue_done hi ha ?_
  dsimp only
  rw [aligned_passes (fun p hp => (hal p hp).1) (fun _ p hp => (hal p hp).2), if_pos rfl, landed_localBefore, hw]
  rfl

/-- A load of the local store behind accesses that R186 orders before it waits for them. -/
theorem ld_ls_waits (hi : s.issuing (.ld h true w d a mc) = some c) (ha : acts c (.ld h true w d a mc) = true)
    (hal : ∀ p ∈ addrs c true a mc.ofs w.bytes (accLanes c d), p.2 % w.bytes = 0 ∧ p.2 + w.bytes ≤ c.tm.lsBytes)
    (hw : localBefore s c (.ld h true w d a mc) ≠ []) :
    ∃ t, exec (.ld h true w d a mc) s = .next t ∧ SameButSend s t ∧ Quiet s t c (.ld h true w d a mc)
      ∧ Opens s t c (.ld h true w d a mc) .waiting fun o => o.after = localBefore s c (.ld h true w d a mc) := by
  have hr := (issuing_iff.1 hi).1
  have hc := gid_of_reaching hr
  have hs := (begun_sending hr).newOp (c := c) (i := .ld h true w d a mc) (st := .waiting) (accs := lsAccs c w d a mc)
    (after := localBefore s c (.ld h true w d a mc)) (f := contWaits c) (fun hu => hu.contWaits hc _) []
  exact ⟨_, exec_ld_ls_waits hi ha hal hw, hs.same, hs.quiet,
    LoadBegun.opens (begun_ids s c _ ▸ newOp_begun _ (offOps_contWaits ..)) hc fun _ _ ho => ho⟩

/-- A load of the local store that waits for nothing reads the words at its issue (log entry 25), and returns 7 clocks before its latency
(log entry 24). -/
theorem ld_ls_reads (hi : s.issuing (.ld h true w d a mc) = some c) (ha : acts c (.ld h true w d a mc) = true)
    (hal : ∀ p ∈ addrs c true a mc.ofs w.bytes (accLanes c d), p.2 % w.bytes = 0 ∧ p.2 + w.bytes ≤ c.tm.lsBytes)
    (hw : localBefore s c (.ld h true w d a mc) = []) :
    ∃ t, exec (.ld h true w d a mc) s = .next t ∧ SameButSend s t ∧ Quiet s t c (.ld h true w d a mc) ∧ Due s t 17 33 (.loadReturn s.ids)
      ∧ Opens s t c (.ld h true w d a mc) .performed fun o => o.accs = (lsAccs c w d a mc).map (c.tm.lsLoad w) := by
  have hr := (issuing_iff.1 hi).1
  have hc := gid_of_reaching hr
  have hs := (begun_sending hr).newOp (c := c) (i := .ld h true w d a mc) (st := .performed) (accs := (lsAccs c w d a mc).map (c.tm.lsLoad w))
    (after := []) (f := contWaits c) (fun hu => hu.contWaits hc _) []
  have hx := exec_ld_ls_reads hi ha hal hw
  rw [does_newOp_andThen, begun_ids] at hx
  have ht := (rides_later 17 33 (.loadReturn s.ids)).sends.sending hs
  have hop := newOp_begun (c := c) (i := .ld h true w d a mc) (st := .performed) (accs := (lsAccs c w d a mc).map (c.tm.lsLoad w)) (after := [])
    (s.begun c (.ld h true w d a mc)) (offOps_contWaits c _)
  rw [begun_ids] at hop
  exact ⟨_, hx, ht.same, ht.quiet, hs.due (by omega) _, (hop.behind (rides_later ..).offOps).opens hc fun _ ho _ => ho⟩

/-- The accesses of such a load hold what its words hold. -/
theorem lsAccs_read {c : Iss} {w : Width} {d : Dst} {a : Src} {mc : Mc} {p : Nat × Nat} (hp : p ∈ addrs c true a mc.ofs w.bytes (accLanes c d))
    (hal : p.2 % w.bytes = 0) :
    ∃ x ∈ (lsAccs c w d a mc).map (c.tm.lsLoad w), x.lane = p.1 ∧ x.adr = p.2 ∧ x.done = true ∧ (c.gpoi.getD p.1 none = none →
      let at_ := fun j => c.tm.word (p.2 / 4 + j)
      let v := (at_ 0).val >>> (8 * (p.2 % 4))
      (4 ≤ w.bytes → ∀ j < w.regs, x.res[j]? = some ⟨(at_ j).val, (at_ j).poi⟩)
      ∧ (w.bytes < 4 → (at_ 0).poi = true → x.res = [⟨(at_ 0).val, true⟩])
      ∧ (w.bytes < 4 → (at_ 0).poi = false → x.res = [⟨if w = .n8 then v &&& 0xFF#32 else if w = .s8 then (v.setWidth 8).signExtend 32
          else if w = .n16 then v &&& 0xFFFF#32 else (v.setWidth 16).signExtend 32, false⟩])) := by
  obtain ⟨hlane, hadr⟩ := lsLoad_place c.tm w (accOf c p.1 p.2 none)
  refine ⟨c.tm.lsLoad w (accOf c p.1 p.2 none), List.mem_map.2 ⟨_, List.mem_append_left _ (List.mem_map.2 ⟨p, hp, rfl⟩), rfl⟩, hlane, hadr,
    lsLoad_done .., fun hg => ?_⟩
  rw [lsLoad_res c.tm w hg]
  exact ⟨fun hw j hj => lsLoad_words c.tm hal hw hj, lsLoad_narrow_poisoned c.tm hal, lsLoad_narrow_clean c.tm hal⟩

/-- Its lanes with a poisoned address keep the payload. -/
theorem lsAccs_bad {c : Iss} {w : Width} {d : Dst} {a : Src} {mc : Mc} {p : Nat × Word}
    (hp : p ∈ badAddrs c true a mc.ofs w.bytes (accLanes c d)) :
    ∃ x ∈ (lsAccs c w d a mc).map (c.tm.lsLoad w), x.lane = p.1 ∧ x.done = true ∧ x.res = poisoned4 p.2 :=
  ⟨doneAcc p.1 p.2, List.mem_map.2 ⟨_, List.mem_append_right _ (List.mem_map.2 ⟨p, hp, rfl⟩), lsLoad_of_done _ _ rfl⟩, rfl, rfl, rfl⟩

end Local

end Sys2Proof.Machine
end

section
/-!
SUPPORT. O31: loads of global memory at their issue.
-/
namespace Sys2Proof.Machine

section Global
variable {s : State} {c : Iss} {i : Instr} {d : Dst} {l : List (Nat × Nat)} {bad : List (Nat × Word)} {pre : Page → Nat → Option Lanes}
  {pair : List Acc → Nat × Nat} {after : List Acc → List Nat}

/-- What the issue of a load of global memory leaves when every lookup succeeds. -/
structure LoadSent (s : State) (c : Iss) (i : Instr) (accs : List Acc) (first : List Nat) (t : State) : Prop where
  sending : Sending s c i t
  begun : LoadBegun c i (if first = [] then .sent else .waiting) accs first s.ids t
  returns : first = [] → ∃ T, (T, .loadReturn s.ids) ∈ t.timers

theorem globalLoad_sent (hr : s.reaching i = some c) (hm : Mapped s c .read l) :
    ∃ e, globalLoad c s.landed i d l bad pre pair after = .done e
      ∧ LoadSent s c i (loadAccs s.landed c pre l ++ bad.map fun p => doneAcc p.1 p.2) (after (loadAccs s.landed c pre l)) ((s.begun c i).does e) := by
  have hf : failedOf s.landed c.g.frame (s.landed.ctxOf c.g) .read l = [] := by rw [landed_ctxOf]; exact hm.1
  have hfill := rides_fillFor c.g.frame (s.landed.ctxOf c.g) l
  have hids : ((s.begun c i).does (fillFor c.g.frame (s.landed.ctxOf c.g) l)).ids = s.ids := (hfill.offOps.keeps_ids _).trans (begun_ids ..)
  refine ⟨_, globalLoad_mapped hf, ?_⟩
  rw [does_globalLoad hf (globalLoad_mapped hf)]
  constructor
  case sending => exact loadOp_sending (gid_of_reaching hr) (hfill.sends.sending (begun_sending hr))
  case begun => exact hids ▸ loadOp_begun _
  case returns => exact fun h => hids ▸ loadOp_returns h _

end Global

/-- Every mapped address has its access, at its page. -/
theorem mem_loadAccs_of_mapped {s : State} {c : Iss} {l : List (Nat × Nat)} (hm : Mapped s c .read l) (pre : Page → Nat → Option Lanes) {p : Nat × Nat}
    (hp : p ∈ l) : ∃ x ∈ loadAccs s.landed c pre l, x.lane = p.1 ∧ x.adr = p.2 ∧ x.page = pageFor s.landed c p.2
      ∧ ((∀ g, pre g p.2 = none) → x.done = false) := by
  obtain ⟨g, hg⟩ := Option.isSome_iff_exists.1 (hm.2 p hp)
  obtain ⟨hlane, hadr, hpage⟩ := loadAccAt_fields c pre p g
  refine ⟨_, mem_loadAccs hp hg, hlane, hadr, hpage.trans hg.symm, fun h => ?_⟩
  unfold loadAccAt
  rw [h g]
  rfl

section Loads
variable {s : State} {c : Iss} {h : Head} {w : Width} {d : Dst} {a b : Src} {mc : Mc} {k : BitVec 4}

theorem exec_ld_global (hi : s.issuing (.ld h false w d a mc) = some c) (ha : acts c (.ld h false w d a mc) = true)
    (hal : ∀ p ∈ addrs c false a mc.ofs w.bytes (accLanes c d), p.2 % w.bytes = 0)
    (hm : Mapped s c .read (addrs c false a mc.ofs w.bytes (accLanes c d))) :
    ∃ t, exec (.ld h false w d a mc) s = .next t
      ∧ LoadSent s c (.ld h false w d a mc) (accsFor s c (addrs c false a mc.ofs w.bytes (accLanes c d))
          ++ (badAddrs c false a mc.ofs w.bytes (accLanes c d)).map fun p => doneAcc p.1 p.2)
        (orderedBefore s c (.ld h false w d a mc) (accsFor s c (addrs c false a mc.ofs w.bytes (accLanes c d)))) t := by
  obtain ⟨e, he, hsent⟩ := globalLoad_sent (d := d) (bad := badAddrs c false a mc.ofs w.bytes (accLanes c d)) (pre := fun _ _ => none)
    (pair := fun ok => let p := loadPair s.landed c.g.frame (s.landed.lead (s.landed.ctxOf c.g)) c.g.csr.vid ok
      let r := remotePair s.landed (.ld h false w d a mc) ok; (p.1 + r.1, p.2 + r.2))
    (after := orderedBefore s.landed c (.ld h false w d a mc)) (issuing_iff.1 hi).1 hm
  rw [loadAccs_none, landed_orderedBefore] at hsent
  refine ⟨_, issue_done hi ha ?_, hsent⟩
  dsimp only
  rw [aligned_passes hal (fun h => (by cases h))]
  exact he

theorem exec_ldc (hi : s.issuing (.ldc h w d a mc) = some c) (ha : acts c (.ldc h w d a mc) = true)
    (hal : ∀ p ∈ addrs c false a mc.ofs w.bytes (accLanes c d), p.2 % w.bytes = 0)
    (hm : Mapped s c .read (addrs c false a mc.ofs w.bytes (accLanes c d))) :
    ∃ t pre, exec (.ldc h w d a mc) s = .next t ∧ (s.ccache.findD c.g.frame [] = [] → ∀ g va, pre g va = none)
      ∧ LoadSent s c (.ldc h w d a mc) (loadAccs s.landed c pre (addrs c false a mc.ofs w.bytes (accLanes c d))
          ++ (badAddrs c false a mc.ofs w.bytes (accLanes c d)).map fun p => doneAcc p.1 p.2) [] t := by
  obtain ⟨e, he, hsent⟩ := globalLoad_sent (i := .ldc h w d a mc) (d := d) (bad := badAddrs c false a mc.ofs w.bytes (accLanes c d))
    (pre := fun p va => if p.uc then none
      else ((s.landed.ccache.findD c.g.frame []).find (lineKey (s.landed.lead (s.landed.ctxOf c.g)) (s.landed.ctxOf c.g) c.g.csr.vid va)).map fun x =>
        loadElems w ((x.bytes.drop (va % 64)).take w.bytes) (List.replicate 4 x.poison))
    (pair := fun ok => if ok.all Acc.done then (20, 36)
      else let p := loadPair s.landed c.g.frame (s.landed.lead (s.landed.ctxOf c.g)) c.g.csr.vid (ok.filter fun a => !a.done); (p.1 + 8, p.2 + 16))
    (after := fun _ => []) (issuing_iff.1 hi).1 hm
  refine ⟨_, _, issue_done hi ha ?_, fun hc g va => ?_, hsent⟩
  · dsimp only
    rw [aligned_passes hal (fun h => (by cases h))]
    exact he
  · rw [landed_ccache, hc]
    split <;> rfl

/-- `LDV` puts the rival's view, and the handle, into its operation (R266). -/
def ldvView (i : Instr) (v : Nat) (x : Elem) : Eff :=
  on fun s => upOp (s.ids - 1) fun o => if o.ins = i then { o with view := v, vals := [x] } else o

theorem exec_ldv {fk : Nat} {f : Fork} (hi : s.issuing (.ldv h d a b k) = some c) (ha : acts c (.ldv h d a b k) = true)
    (hx : (c.uni 2 b 0).poi = false) (hk : k.toNat < forkCount (c.uni 2 b 0).val) (hfk : s.forkAt c.g.frame (c.uni 2 b 0).val = some fk)
    (hf : s.forks.find fk = some f) (hal : ∀ p ∈ addrs c false a 0#6 4 c.on.lanes, p.2 % 4 = 0)
    (hm : Mapped s c .read (addrs c false a 0#6 4 c.on.lanes)) :
    ∃ t, exec (.ldv h d a b k) s = .next (t.does (ldvView (.ldv h d a b k) (f.views.getD k.toNat 0) (c.uni 2 b 0)))
      ∧ LoadSent s c (.ldv h d a b k) (accsFor s c (addrs c false a 0#6 4 c.on.lanes)
          ++ (badAddrs c false a 0#6 4 c.on.lanes).map fun p => doneAcc p.1 p.2)
        (orderedBefore s c (.ldv h d a b k) (accsFor s c (addrs c false a 0#6 4 c.on.lanes))) t := by
  have hill : ¬ (!(c.uni 2 b 0).poi && decide (forkCount (c.uni 2 b 0).val ≤ k.toNat)) = true := by simp [hk]
  have hv : ((s.landed.forks.find fk).elim [] Fork.views).getD k.toNat 0 = f.views.getD k.toNat 0 := by
    rw [landed_forks, hf]
    rfl
  obtain ⟨e, he, hsent⟩ := globalLoad_sent (i := .ldv h d a b k) (d := d) (bad := badAddrs c false a 0#6 4 c.on.lanes) (pre := fun _ _ => none)
    (pair := fun ok =>
      let p := loadPair s.landed c.g.frame (s.landed.lead (s.landed.ctxOf c.g)) (f.views.getD k.toNat 0) ok
      if ok.any fun ac => ((s.landed.views.find (viewKey (s.landed.lead (s.landed.ctxOf c.g)) (f.views.getD k.toNat 0))).bind fun w =>
        w.secs.find (secOf ac.pa)).elim false fun c => c.slot.isSome then (p.1 + 120, p.2 + 300) else p)
    (after := orderedBefore s.landed c (.ldv h d a b k)) (issuing_iff.1 hi).1 hm
  rw [loadAccs_none, landed_orderedBefore] at hsent
  refine ⟨_, (issue_done hi ha (e := andThen e (ldvView (.ldv h d a b k) (f.views.getD k.toNat 0) (c.uni 2 b 0))) ?_).trans (by rw [does_andThen]),
    hsent⟩
  dsimp only
  rw [if_neg hill, aligned_passes hal (fun h => (by cases h)), hx, if_neg Bool.false_ne_true, landed_forkAt, hfk]
  dsimp only at he ⊢
  rw [hv, he]
  rfl

end Loads

/-- The operation of an `LDV` is in the rival's view (R266), and nothing else has changed. -/
theorem LoadSent.inRivalView {s t : State} {c : Iss} {i : Instr} {accs : List Acc} {first : List Nat} (h : LoadSent s c i accs first t)
    (hc : c.gid = s.cur) (v : Nat) (x : Elem) :
    Sending s c i (t.does (ldvView i v x)) ∧ (first = [] → ∃ T, (T, .loadReturn s.ids) ∈ (t.does (ldvView i v x)).timers)
      ∧ OpensIn s (t.does (ldvView i v x)) c i (if first = [] then .sent else .waiting) fun o =>
        o.after = first ∧ o.view = v ∧ o.vals = [x] ∧ o.accs = accs := by
  obtain ⟨u, hs, pr, ho⟩ := h.begun.op
  have hid : t.ids - 1 = s.ids := by rw [h.begun.ids]; rfl
  have hd : t.does (ldvView i v x) = t.apply (.op s.ids (some { opOf c u i (if first = [] then .sent else .waiting) accs [] first s.ids with
      held := hs, pair := pr, view := v, vals := [x] })) := by
    rw [ldvView, does_on, hid, does_upOp_some _ _ _ _ ho]
    exact congrArg (fun o => t.apply (.op s.ids (some o))) (if_pos rfl)
  refine ⟨(only_on fun _ => sends_upOp ..).sending h.sending, fun hf => ?_, ?_⟩
  · rw [hd]
    exact h.returns hf
  · rw [hd]
    exact ⟨_, find_setO_self .., rfl, rfl, hc, rfl, rfl, rfl, rfl, rfl, rfl⟩

theorem Opens.imp {s t : State} {c : Iss} {i : Instr} {st : OpState} {P Q : Op → Prop} (h : Opens s t c i st P) (hpq : ∀ o, P o → Q o) :
    Opens s t c i st Q := by
  obtain ⟨o, ho, hins, hgid, hdest, hmask, hview, hst, hp⟩ := h
  exact ⟨o, ho, hins, hgid, hdest, hmask, hview, hst, hpq o hp⟩

theorem OpensIn.imp {s t : State} {c : Iss} {i : Instr} {st : OpState} {P Q : Op → Prop} (h : OpensIn s t c i st P) (hpq : ∀ o, P o → Q o) :
    OpensIn s t c i st Q := by
  obtain ⟨o, ho, hins, hgid, hdest, hmask, hst, hp⟩ := h
  exact ⟨o, ho, hins, hgid, hdest, hmask, hst, hpq o hp⟩

/-- Settles O31: the operation that each load begins, with its accesses, in the state that its issue leaves. -/
theorem loadsBegin : Obligations.LoadsBegin := by
  unfold Obligations.LoadsBegin
  intro s c h w d a b mc k
  refine ⟨fun hi ha hal => ⟨ld_ls_waits hi ha hal, fun hw => ?_⟩, fun hi ha hal hm => ?_, fun hi ha hal hm => ?_,
    fun fk f hi ha hx hk hfk hf hal hm => ?_⟩
  · obtain ⟨t, hx, hsame, hquiet, hdue, hop⟩ := ld_ls_reads hi ha hal hw
    refine ⟨t, hx, hsame, hquiet, hdue, hop.imp fun o haccs => ?_⟩
    beta_reduce
    rw [haccs]
    exact ⟨fun p hp => lsAccs_bad hp, fun p hp => lsAccs_read hp (hal p hp).1⟩
  · obtain ⟨t, hx, ht⟩ := exec_ld_global hi ha hal hm
    refine ⟨t, hx, ht.sending.same, ht.sending.quiet, ht.returns, ht.begun.opens (gid_of_reaching (issuing_iff.1 hi).1) fun o ho hf =>
      ⟨hf, bad_done ho, fun p hp => ?_⟩⟩
    obtain ⟨x, hxm, hlane, hadr, hpage, hdone⟩ := mem_loadAccs_of_mapped hm (fun _ _ => none) hp
    exact ⟨x, ho ▸ List.mem_append_left _ hxm, hlane, hadr, hdone fun _ => rfl, hpage⟩
  · obtain ⟨t, pre, hx, hpre, ht⟩ := exec_ldc hi ha hal hm
    obtain ⟨T, hT⟩ := ht.returns rfl
    refine ⟨t, T, hx, ht.sending.same, ht.sending.quiet, hT, ht.begun.opens (gid_of_reaching (issuing_iff.1 hi).1) fun o ho _ =>
      ⟨bad_done ho, fun p hp => ?_⟩⟩
    obtain ⟨x, hxm, hlane, hadr, hpage, hdone⟩ := mem_loadAccs_of_mapped hm pre hp
    exact ⟨x, ho ▸ List.mem_append_left _ hxm, hlane, hadr, hpage, fun hc => hdone fun g => hpre hc g p.2⟩
  · obtain ⟨t, he, ht⟩ := exec_ldv hi ha hx hk hfk hf hal hm
    obtain ⟨hs, hret, hop⟩ := ht.inRivalView (gid_of_reaching (issuing_iff.1 hi).1) (f.views.getD k.toNat 0) (c.uni 2 b 0)
    refine ⟨_, he, hs.same, hs.quiet, hret, hop.imp fun o ⟨hfirst, hview, hvals, haccs⟩ => ⟨hfirst, hview, hvals, fun p hp => ?_⟩⟩
    obtain ⟨x, hxm, hlane, hadr, hpage, hdone⟩ := mem_loadAccs_of_mapped hm (fun _ _ => none) hp
    exact ⟨x, haccs ▸ List.mem_append_left _ hxm, hlane, hadr, hdone fun _ => rfl, hpage⟩

end Sys2Proof.Machine
end

section
/-!
SUPPORT. O4: the state after cold reset (R24, R309).
-/
namespace Sys2Proof.Machine

/-- Every table of the state after reset is empty, so its keys rise. -/
theorem reset_inv : State.reset.Inv := by constructor <;> rfl

/-- Settles O4: what the reset state holds can be read off its definition. -/
theorem resetMeetsInvariant : Obligations.ResetMeetsInvariant := by
  unfold Obligations.ResetMeetsInvariant
  exact ⟨reset_inv, rfl, rfl, rfl, rfl, rfl, rfl, rfl, rfl, rfl, rfl⟩

end Sys2Proof.Machine
end

section
/-!
SUPPORT. O54: a read of uncacheable memory at a home that MARK has stopped (R216, R248), and an address beyond the 52 bits of the fabric
physical space, whose sector number wraps to one of the marked range.
-/
namespace Sys2Proof.Machine

theorem keeps_mig_record (r : FRec) : (record r fun _ => skip).Keeps State.mig := by
  have hdev (a : Nat) (l : List Byte) : (devWrite a l).Keeps State.mig := keeps_devWrite (fun _ _ _ => rfl) (fun _ _ _ => rfl) (fun _ _ _ => rfl) a l
  have hfr (k : Nat) (r : FRec) : (act (.fr k (some r))).Keeps State.mig := keeps_act fun _ => rfl
  refine keeps_fresh (fun _ _ => rfl) fun k => keeps_on fun s => ?_
  split
  · refine keeps_andThen (keeps_on fun _ => keeps_andThen (keeps_act fun _ => rfl) ?_) (keeps_skip _)
    exact keeps_andThen (keeps_when _ fun _ => hfr _ _) (keeps_skip _)
  · refine keeps_andThen (keeps_on fun _ => ?_) (keeps_skip _)
    refine keeps_andThen (hdev _ _) (keeps_andThen (keeps_act fun _ => rfl) (keeps_andThen (keeps_when _ fun _ => hfr _ _) ?_))
    exact keeps_andThen (keeps_when _ fun _ => keeps_msix (fun _ _ => rfl) _ _) (keeps_skip _)

theorem keeps_mig_homeRecord (pa frame ctx part : Nat) : (homeRecord pa frame ctx part).Keeps State.mig :=
  keeps_on fun _ => keeps_when _ fun _ => keeps_mig_record _

/-- A range of a home command once request `q` is parked there, if it is the one at `src` that MARK has stopped. -/
def parkedAt (src : Nat) (q : Waiting) (m : MigRange) : MigRange :=
  if m.src = src && m.window = false then { m with parked := m.parked ++ [q] } else m

/-- A read that reaches its home in a range under MARK is parked there (R248). The model looks the range up by the sector's number modulo
2^46. -/
theorem uncacheableRead_parked {s : State} {a : Agent} {st pa n : Nat} {m : MigRange} (hp : s.power ≠ .held)
    (hd : s.deadCell (s.cellOf (Agent.pkg a)) = false) (ht : s.ftime ≤ st) (hm : s.migAt (64 * secAt (secOf pa)) false = some m) :
    ∃ t, exec (.uncacheableRead ⟨a, st⟩ pa n) s = .next t ∧ t.mig = s.mig.map (parkedAt m.src ⟨a, .uncacheableRead ⟨a, st⟩ pa n, none⟩) := by
  have hserve : homeRequest (.uncacheableRead ⟨a, st⟩ pa n) s = seqs [
      upMig m.src false fun m => { m with parked := m.parked ++ [⟨a, .uncacheableRead ⟨a, st⟩ pa n, none⟩] },
      homeRecord (64 * secAt (secOf pa)) 0 0 0, respond a (secOf pa) 2#8] s := by
    simp only [homeRequest, homeServe, homeKey, on, onSome, hd, hm, Nat.not_lt.2 ht, if_false, Bool.false_eq_true]
  refine ⟨_, outside_up hp _, ?_⟩
  rw [State.does, hserve, ← State.does, does_seqs_cons, does_seqs_cons, does_seqs_cons, does_seqs_nil]
  exact keeps_mig_homeRecord (64 * secAt (secOf pa)) 0 0 0 _

/-- A machine that is up with nothing resident, MARK set on the first 2 MiB of its memory. -/
def markedBase : State := { State.reset with power := .up, mig := [⟨0, 2 ^ 21, false, [], []⟩] }

theorem markedBase_inv : markedBase.Inv := by constructor <;> rfl

/-- Refutes O54: the clause on uncacheable reads does not bound the address. At 2^52, beyond the fabric physical space, nothing is marked and
nothing stands in the way of the read, but the home looks for a MARK at the sector's number modulo 2^46, here 0, and parks the read. -/
theorem not_homesServeAndBeadsMove : ¬ Obligations.HomesServeAndBeadsMove := by
  unfold Obligations.HomesServeAndBeadsMove
  intro h
  obtain ⟨-, hserved, -⟩ := h markedBase (.rdc 0 0) 0 0 markedBase_inv (by decide) (by decide) (by decide)
  obtain ⟨-, -, -, hread, -⟩ := hserved (by decide)
  have hanswered := hread (2 ^ 52) 64 (by decide +kernel) (by decide +kernel)
  obtain ⟨t, ht, hparked⟩ := uncacheableRead_parked (s := markedBase) (a := .rdc 0 0) (st := 0) (pa := 2 ^ 52) (n := 64)
    (m := ⟨0, 2 ^ 21, false, [], []⟩) (by decide) (by decide) (by decide) (by decide)
  rw [ht, Host.Outcome.next.injEq] at hanswered
  rw [hanswered] at hparked
  exact absurd (congrArg (List.map fun m => m.parked.length) hparked) (by decide)

end Sys2Proof.Machine
end

section
/-!
SUPPORT. What the device writes of its own accord: bytes and sector copies, events and error counts (R198, R254, R298, R316), and steps to
come. The nodes, the contexts and the configuration of the twin stay.
-/
namespace Sys2Proof.Machine

/-- An act by which the device writes memory or reports. -/
def Act.Reports : Act → Prop
  | .view _ (some _) | .byte .. | .bad .. | .free _ | .outbox _ | .waitEv _ | .timers _ => True
  | .sys k (some _) => k = offEQWR ∨ k = offEQLOST ∨ 0x200000 ≤ k
  | _ => False

/-- An effect that writes memory and reports, and does nothing else. -/
abbrev Eff.Reports (e : Eff) : Prop := e.Only Act.Reports

-- memory and views

theorem reports_putBytes (a : Nat) (l : List Byte) : (putBytes a l).Reports := by
  induction l generalizing a with
  | nil => exact only_skip
  | cons b l ih => exact ⟨fun s x hx => (List.mem_cons.1 hx).elim (fun h => h ▸ trivial) ((ih (a + 1)).acts s x)⟩

theorem reports_markChanged (part tgt sec : Nat) : (markChanged part tgt sec).Reports :=
  only_on fun _ => only_each fun _ => by
    dsimp only
    split
    · exact only_ite (only_act trivial) only_skip
    · exact only_skip

theorem reports_putCopy (part id sec : Nat) (c : VSec) : (putCopy part id sec c).Reports :=
  only_on fun _ => only_onSome fun _ => only_andThen (only_act trivial) (only_onSome fun _ => reports_putBytes ..)

theorem reports_takeCopy (who part id sec : Nat) : (takeCopy who part id sec).Reports :=
  only_on fun _ => only_ite (reports_putCopy ..) <| only_freely (fun _ => trivial) fun _ => only_on fun _ => by
    dsimp only
    split
    · exact only_andThen (reports_putCopy ..) (reports_putCopy ..)
    · exact reports_putCopy ..

theorem reports_writeBase (sec ofs : Nat) (l : List Byte) (full : Bool) (p : Option Word) (n : Nat) : (writeBase sec ofs l full p n).Reports :=
  only_on fun _ => only_andThen (reports_markChanged ..) <| only_andThen (only_ite (reports_putBytes ..) (reports_putBytes ..)) <|
    only_andThen (only_act trivial) only_skip

theorem reports_writeCopy (who part id sec ofs : Nat) (l : List Byte) (full : Bool) (p : Option Word) (n : Nat) :
    (writeCopy who part id sec ofs l full p n).Reports :=
  only_on fun _ => only_andThen (reports_markChanged ..) <| only_andThen (only_when (reports_takeCopy ..)) <|
    only_andThen (only_on fun _ => only_onSome fun _ => reports_putCopy ..) only_skip

theorem reports_writeSectorBy (who : Option Nat) (part id sec ofs : Nat) (l : List Byte) (full : Bool) (p : Option Word) :
    (writeSectorBy who part id sec ofs l full p).Reports :=
  only_on fun s => by
    have go (n : Nat) : Eff.Reports (if id = 0 then writeBase sec ofs l full p n
        else onSome (s.views.find (viewKey part id)) fun v => writeCopy (who.getD (v.node.getD 0)) part id sec ofs l full p n) :=
      only_ite (reports_writeBase ..) (only_onSome fun _ => reports_writeCopy ..)
    cases p with
    | none => exact go 0
    | some w => exact only_freely (fun _ => trivial) go

theorem reports_writeBytesBy (who : Option Nat) (part id a : Nat) (l : List Byte) (p : Option Word) : (writeBytesBy who part id a l p).Reports :=
  only_each fun _ => reports_writeSectorBy ..

-- events, errors and steps to come

theorem reports_out (m : OutMsg) : (out m).Reports := only_on fun _ => only_act trivial

theorem reports_later (lo hi : Nat) (i : Instr) : (later lo hi i).Reports := only_freely (fun _ => trivial) fun _ => only_on fun _ => only_act trivial

theorem reports_eventPut (b : List Byte) : (eventPut b).Reports :=
  only_on fun _ => only_andThen (reports_writeBytesBy ..) <| only_andThen (only_act (.inl rfl)) <|
    only_andThen (only_when (reports_out _)) only_skip

theorem reports_eventLost : eventLost.Reports := only_on fun _ => only_act (.inr (.inl rfl))

theorem reports_event (ty die part ctx a0 a1 a2 a3 : Nat) (data : List Byte) : (event ty die part ctx a0 a1 a2 a3 data).Reports :=
  only_on fun _ => only_ite reports_eventLost <| only_ite (only_ite (only_act trivial) reports_eventLost) (reports_eventPut _)

theorem reports_countErr (die cls n : Nat) : (countErr die cls n).Reports :=
  only_on fun _ => only_andThen (only_act (.inr (.inr (by unfold offERRCNT; omega)))) (only_when (reports_event ..))

theorem reports_rcbWrite (nk : Nat) : (rcbWrite nk).Reports := only_on fun _ => by
  split
  · exact only_skip
  · refine only_ite only_skip (only_on fun _ => ?_)
    split
    · exact only_on fun _ => reports_event ..
    · exact reports_writeBytesBy ..

-- what such an effect leaves

/-- What a report leaves as it was. -/
structure Reported (s t : State) : Prop where
  nodes : t.nodes = s.nodes
  ctxs : t.ctxs = s.ctxs
  twinCfg : t.csr offTWINCFG = s.csr offTWINCFG

theorem reported_apply {a : Act} (ha : a.Reports) (s : State) : Reported s (s.apply a) := by
  cases a with
  | sys k x =>
    cases x with
    | none => exact ha.elim
    | some v => exact ⟨rfl, rfl, csr_apply_sys_ne s v (by
        rcases ha with rfl | rfl | hk
        · decide
        · decide
        · unfold offTWINCFG; omega)⟩
  | node | ctx => exact ha.elim
  | _ => exact ⟨rfl, rfl, rfl⟩

theorem Eff.Only.reported {e : Eff} (h : e.Reports) (s : State) : Reported s (s.does e) where
  nodes := h.keeps (q := State.nodes) (fun _ ha t => (reported_apply ha t).nodes) s
  ctxs := h.keeps (q := State.ctxs) (fun _ ha t => (reported_apply ha t).ctxs) s
  twinCfg := h.keeps (q := fun t => t.csr offTWINCFG) (fun _ ha t => (reported_apply ha t).twinCfg) s

end Sys2Proof.Machine
end

section
/-!
SUPPORT. The twin's account (R305, R307, R308): the fatal fault of a paired context, its loss of the link, and a mirrored rollback.
-/
namespace Sys2Proof.Machine

/-- The context `k` is halting (R275). -/
def Halts (t : State) (k : Nat) : Prop := ∃ c, t.ctxs.find k = some c ∧ c.run = .halting

/-- The context `k` is there and has not halted yet. -/
def NotHalted (t : State) (k : Nat) : Prop := ∃ c, t.ctxs.find k = some c ∧ c.run ≠ .halted

theorem Halts.notHalted {t : State} {k : Nat} (h : Halts t k) : NotHalted t k := by
  obtain ⟨c, hc, hr⟩ := h
  exact ⟨c, hc, by rw [hr]; decide⟩

/-- From `s` to `t` the context `k` comes to halt, the others and the nodes stay. -/
structure HaltsOne (s t : State) (k : Nat) : Prop where
  halts : NotHalted s k → Halts t k
  others : ∀ j, j ≠ k → t.ctxs.find j = s.ctxs.find j
  nodes : t.nodes = s.nodes
  twinCfg : t.csr offTWINCFG = s.csr offTWINCFG

theorem HaltsOne.notHalted {s t : State} {k j : Nat} (h : HaltsOne s t k) (hj : NotHalted s j) : NotHalted t j := by
  by_cases hk : j = k
  · subst hk
    exact (h.halts hj).notHalted
  · rw [NotHalted, h.others j hk]
    exact hj

theorem HaltsOne.stays {s t : State} {k j : Nat} (h : HaltsOne s t k) (hj : Halts s j) : Halts t j := by
  by_cases hk : j = k
  · subst hk
    exact h.halts hj.notHalted
  · rw [Halts, h.others j hk]
    exact hj

/-- A report before the context halts. -/
theorem HaltsOne.after_report {s t : State} {e : Eff} {k : Nat} (he : e.Reports) (h : HaltsOne (s.does e) t k) : HaltsOne s t k where
  halts hs := h.halts (by rw [NotHalted, (he.reported s).ctxs]; exact hs)
  others j hj := by rw [h.others j hj, (he.reported s).ctxs]
  nodes := by rw [h.nodes, (he.reported s).nodes]
  twinCfg := by rw [h.twinCfg, (he.reported s).twinCfg]

theorem does_fatal_running {s : State} {k : Nat} {c : Ctx} (hc : s.ctxs.find k = some c) (hr : c.run ≠ .halting ∧ c.run ≠ .halted)
    (code reason frame gslot tpc info : Nat) :
    s.does (fatal k code reason frame gslot tpc info) = (s.apply (.ctx k (some { c with run := .halting, stopped := [] }))).does
      (andThen (event 1 4 (c.parts.headD noPart) k (code + reason * 2 ^ 8 + frame * 2 ^ 16 + gslot * 2 ^ 32) tpc info 0 [])
        (each c.units fun u => later 20 200 (.haltLineArrival k u))) := by
  rw [fatal, does_on, hc]
  dsimp only
  rw [if_neg (by simpa using hr), does_seqs_cons, does_seqs_cons, does_seqs_cons, does_seqs_nil, does_andThen]
  rfl

/-- A fatal fault halts its context, unless the context is halted (R275). -/
theorem fatal_haltsOne (s : State) (k code reason frame gslot tpc info : Nat) :
    HaltsOne s (s.does (fatal k code reason frame gslot tpc info)) k := by
  cases hc : s.ctxs.find k with
  | none =>
    rw [show s.does (fatal k code reason frame gslot tpc info) = s by rw [fatal, does_on, hc]; rfl]
    exact ⟨fun ⟨_, h, _⟩ => (nomatch hc.symm.trans h), fun _ _ => rfl, rfl, rfl⟩
  | some c =>
    by_cases hr : c.run = .halting ∨ c.run = .halted
    · rw [show s.does (fatal k code reason frame gslot tpc info) = s by rw [fatal, does_on, hc]; dsimp only; rw [if_pos (by simpa using hr)]; rfl]
      refine ⟨fun ⟨c', h, hn⟩ => ?_, fun _ _ => rfl, rfl, rfl⟩
      cases hc.symm.trans h
      exact ⟨c, hc, hr.resolve_right hn⟩
    · rw [does_fatal_running hc (not_or.1 hr)]
      have ht : Eff.Reports _ := only_andThen (reports_event 1 4 (c.parts.headD noPart) k (code + reason * 2 ^ 8 + frame * 2 ^ 16 + gslot * 2 ^ 32) tpc info 0 [])
        (only_each (l := c.units) fun u => reports_later 20 200 (.haltLineArrival k u))
      have hrep := ht.reported (s.apply (.ctx k (some { c with run := .halting, stopped := [] })))
      refine ⟨fun _ => ⟨_, by rw [hrep.ctxs]; exact find_setO_self .., rfl⟩, fun j hj => ?_, hrep.nodes, hrep.twinCfg⟩
      rw [hrep.ctxs]
      exact find_setO_some_ne _ _ hj

/-- A fatal fault on the twin's account halts the context of its node (R308). -/
theorem twinFatal_haltsOne {s : State} {nk : Nat} {n : Node} (hn : s.nodes.find nk = some n) (ty reason a2 a3 : Nat) (key : TwinKey) :
    HaltsOne s (s.does (twinFatal nk ty reason a2 a3 key)) n.ctx := by
  rw [twinFatal, does_on, hn, does_onSome_some, does_andThen]
  exact .after_report (reports_event ..) (fatal_haltsOne ..)

-- no digest in time, and the loss of the link

theorem any_key_iff {α : Type} [DecidableEq α] {β : Type} (l : List (α × β)) (k : α) : (l.any fun p => p.1 = k) = true ↔ ∃ p ∈ l, p.1 = k := by
  rw [List.any_eq_true]
  simp only [decide_eq_true_eq]

theorem any_key_eq_false {α : Type} [DecidableEq α] {β : Type} {l : List (α × β)} {k : α} (h : ∀ p ∈ l, p.1 ≠ k) : (l.any fun p => p.1 = k) = false :=
  List.any_eq_false.2 fun p hp => by simpa using h p hp

theorem twinDigestTimeout_skips {s : State} {key : TwinKey} (h : (∀ p ∈ s.twin.mine, p.1 ≠ key) ∨ ∃ p ∈ s.twin.theirs, p.1 = key) :
    exec (.twinDigestTimeout key) s = .next s := by
  have hc : (!(s.twin.mine.any fun p => p.1 = key) || s.twin.theirs.any (fun p => p.1 = key)) = true := by
    rcases h with h | h
    · rw [any_key_eq_false h]; rfl
    · rw [(any_key_iff _ _).2 h, Bool.or_true]
  exact congrArg (fun e => Host.Outcome.next (s.does e)) (if_pos hc)

theorem twinDigestTimeout_halts {s : State} {key : TwinKey} {nk : Nat} {n : Node} {c : Ctx} (hm : ∃ p ∈ s.twin.mine, p.1 = key)
    (ht : ∀ p ∈ s.twin.theirs, p.1 ≠ key) (hk : s.nodeOfKey key = some nk) (hn : s.nodes.find nk = some n)
    (hc : s.ctxs.find n.ctx = some c) (hr : c.run = .resident) :
    ∃ t, exec (.twinDigestTimeout key) s = .next t ∧ Halts t n.ctx := by
  have hne : ¬ (!(s.twin.mine.any fun p => p.1 = key) || s.twin.theirs.any (fun p => p.1 = key)) = true := by
    rw [(any_key_iff _ _).2 hm, any_key_eq_false ht]
    decide
  let u := s.apply (.twin { s.twin with mine := s.twin.mine.filter fun p => p.1 ≠ key })
  refine ⟨u.does (twinFatal nk 13 4 0 0 key), ?_, (twinFatal_haltsOne (s := u) hn 13 4 0 0 key).halts ⟨c, hc, by rw [hr]; decide⟩⟩
  refine (congrArg (fun e => Host.Outcome.next (s.does e)) (if_neg hne)).trans ?_
  rw [does_andThen, hk]
  rfl

/-- A link that goes down ends a paired context: by the node that waited for a digest, if one of it did. -/
def loseTwin (s : State) (kv : Nat × Ctx) : Eff :=
  match s.twin.mine.findSome? fun p => (s.nodeOfKey p.1).bind fun nk => (s.nodes.find nk).bind fun n => if n.ctx = kv.1 then some (nk, p.1) else none with
  | some (nk, key) => twinFatal nk 13 4 1 0 key
  | none => andThen (event 13 4 (kv.2.parts.headD noPart) kv.1 0 0 1 0 []) (fatal kv.1 0 4 0 0 0 0)

theorem loseTwin_haltsOne {s u : State} (hu : u.nodes = s.nodes) (kv : Nat × Ctx) : HaltsOne u (u.does (loseTwin s kv)) kv.1 := by
  rw [loseTwin]
  split
  next nk key h =>
    obtain ⟨p, -, hp⟩ := List.exists_of_findSome?_eq_some h
    obtain ⟨nk', -, hp⟩ := Option.bind_eq_some_iff.1 hp
    obtain ⟨n, hn, hp⟩ := Option.bind_eq_some_iff.1 hp
    rw [Option.ite_none_right_eq_some] at hp
    obtain ⟨hctx, hp⟩ := hp
    cases hp
    rw [← hctx]
    exact twinFatal_haltsOne (by rw [hu]; exact hn) ..
  next =>
    rw [does_andThen]
    exact .after_report (reports_event ..) (fatal_haltsOne ..)

/-- Every context of a list comes to halt, one after another. -/
theorem each_loseTwin (s : State) (l : List (Nat × Ctx)) {u : State} (hu : u.nodes = s.nodes) (hr : ∀ kv ∈ l, NotHalted u kv.1) :
    (∀ kv ∈ l, Halts (u.does (each l (loseTwin s))) kv.1) ∧ (∀ j, Halts u j → Halts (u.does (each l (loseTwin s))) j)
      ∧ (u.does (each l (loseTwin s))).csr offTWINCFG = u.csr offTWINCFG := by
  induction l generalizing u with
  | nil => exact ⟨fun _ h => (nomatch h), fun _ h => h, rfl⟩
  | cons a l ih =>
    have h1 := loseTwin_haltsOne hu a
    obtain ⟨hall, hstay, hcfg⟩ := ih (h1.nodes.trans hu) fun kv hkv => h1.notHalted (hr kv (List.mem_cons_of_mem _ hkv))
    rw [does_each_cons]
    refine ⟨fun kv hkv => ?_, fun j hj => hstay j (h1.stays hj), hcfg.trans h1.twinCfg⟩
    rcases List.mem_cons.1 hkv with rfl | hkv
    · exact hstay _ (h1.halts (hr _ List.mem_cons_self))
    · exact hall kv hkv

theorem notHalted_of_mem_pairedCtxs {s : State} (hi : s.Inv) {kv : Nat × Ctx} (h : kv ∈ s.pairedCtxs) : NotHalted s kv.1 := by
  obtain ⟨hmem, hp⟩ := List.mem_filter.1 h
  simp only [Bool.and_eq_true, decide_eq_true_eq] at hp
  exact ⟨kv.2, AMap_find_of_mem hi.ctxs hmem, hp.2⟩

theorem twinLinkDown_halts {s : State} (hi : s.Inv) :
    ∃ t, exec .twinLinkDown s = .next t ∧ t.csrBits offTWINCFG 2 2 = 0 ∧ t.twin = ⟨[], []⟩ ∧ ∀ kv ∈ s.pairedCtxs, Halts t kv.1 := by
  let v := putBits (s.csr offTWINCFG) 2 2 0
  obtain ⟨hall, -, hcfg⟩ := each_loseTwin s s.pairedCtxs (u := s.apply (.sys offTWINCFG (some v))) rfl
    fun kv h => notHalted_of_mem_pairedCtxs hi h
  refine ⟨((s.apply (.sys offTWINCFG (some v))).does (each s.pairedCtxs (loseTwin s))).apply (.twin ⟨[], []⟩), ?_, ?_, rfl, hall⟩
  · change Host.Outcome.next (s.does (seqs [setCsrBits offTWINCFG 2 2 0, each s.pairedCtxs (loseTwin s), act (.twin ⟨[], []⟩)])) = _
    rw [does_seqs_cons, does_seqs_cons, does_seqs_cons, does_seqs_nil]
    rfl
  · have hv := hcfg.trans (csr_apply_sys_self s offTWINCFG v)
    exact (csrBits_of_csr hv 2 2).trans (bitsOf_putBits_self _ (by omega) (by omega))

-- the twin's digest and its rollback

theorem twinDigestArrival_kept {s : State} (hp : s.power ≠ .held) (key : TwinKey) (d : BitVec 64) :
    ∃ t, exec (.twinDigestArrival key d) s = .next t ∧ (key, d) ∈ t.twin.theirs ∧ t.twin.mine = s.twin.mine
      ∧ ∀ nk n, (∃ p ∈ s.twin.mine, p.1 = key) → s.nodeOfKey key = some nk → s.nodes.find nk = some n → exchangeStep n nk key ∈ t.agenda := by
  let look : Eff := when (s.twin.mine.any fun p => p.1 = key) (onSome (s.nodeOfKey key) fun nk =>
      onSome (s.nodes.find nk) fun n => soon (exchangeStep n nk key))
  have hlook : look.Keeps State.twin := keeps_when _ fun _ => keeps_onSome _ fun _ => keeps_onSome _ fun _ => keeps_soon (fun _ _ => rfl) _
  let u := s.apply (.twin { s.twin with theirs := (s.twin.theirs.filter fun p => p.1 ≠ key) ++ [(key, d)] })
  refine ⟨u.does look, (outside_up hp _).trans (by rw [does_andThen]; rfl), ?_, ?_, fun nk n hm hk hn => ?_⟩
  · rw [hlook u]
    exact List.mem_append_right _ (List.mem_singleton.2 rfl)
  · rw [hlook u]
    rfl
  · have hany : (s.twin.mine.any fun p => p.1 = key) = true := (any_key_iff _ _).2 hm
    have hl : look = soon (exchangeStep n nk key) := by
      change when _ _ = _
      rw [hany, hk]
      change onSome (s.nodes.find nk) _ = _
      rw [hn]
      rfl
    rw [hl]
    exact List.mem_append_right _ (List.mem_singleton.2 rfl)

/-- A node that has been rolled back is READY again, one request on, with its digest at 0 (R268, R307). -/
theorem rollBackHere_ready {s : State} {nk : Nat} {n : Node} (hn : s.nodes.find nk = some n) (pay : Word) :
    ∃ n', (s.does (rollBackHere nk pay)).nodes.find nk = some n' ∧ n'.st = .ready ∧ n'.req = n.req + 1 ∧ n'.digest = 0#64
      ∧ .teamReservation n.ctx ∈ (s.does (rollBackHere nk pay)).agenda := by
  rw [rollBackHere, does_fresh, does_on, show (s.apply (.ids (s.ids + 1))).nodes.find nk = some n from hn]
  dsimp only
  iterate 9 rw [does_seqs_cons]
  rw [does_seqs_nil, does_act]
  generalize State.does _ (onSome n.priv _) = u
  generalize hx : ({ n with req := n.req + 1, st := .ready, tnext := 0, tdone := 0, priv := none, readyAt := s.ids, sarrive := [], sstep := 0, escaped := false, digest := 0#64, waits := false } : Node) = x
  refine ⟨x, ?_, by rw [← hx], by rw [← hx], by rw [← hx], List.mem_append_right _ (List.mem_singleton.2 rfl)⟩
  rw [keeps_soon (q := State.nodes) (fun _ _ => rfl), ((reports_event ..).reported _).nodes, ((reports_countErr ..).reported _).nodes, ((reports_rcbWrite nk).reported _).nodes]
  exact find_setO_self ..

theorem rollbackMirror_ready {s : State} (hi : s.Inv) {key : TwinKey} {nk : Nat} {n : Node} (hp : s.power ≠ .held)
    (hf : s.nodes.find? (fun kv => kv.2.eff.paired && !kv.2.st.finished && (s.twinKey kv.2 key.sstep = key)) = some (nk, n)) :
    ∃ t n', exec (.rollbackMirror key) s = .next t ∧ t.nodes.find nk = some n' ∧ n'.st = .ready ∧ n'.req = n.req + 1 ∧ n'.digest = 0#64
      ∧ .teamReservation n.ctx ∈ t.agenda := by
  obtain ⟨n', h⟩ := rollBackHere_ready (AMap_find_of_mem hi.nodes (List.mem_of_find?_eq_some hf)) 0#32
  refine ⟨_, n', (outside_up hp _).trans ?_, h⟩
  rw [hf]
  rfl

end Sys2Proof.Machine
end

section
/-!
SUPPORT. A clean write of any bytes to sectors without poison (R198, R254), the recall of a sector by its home (R203, R207), and what the
twin mirrors: writes and kicks (R305).
-/
namespace Sys2Proof.Machine

-- clean writes

/-- The first `k` bytes stored, then the rest behind them. -/
theorem stored_split (k a x : Nat) (l : List Byte) (old : Byte) :
    stored (a + k) (l.drop k) x (stored a (l.take k) x old) = stored a l x old := by
  unfold stored
  simp only [List.getD_eq_getElem?_getD, List.getElem?_drop, List.getElem?_take]
  by_cases h : a + k ≤ x
  · have hk : ¬ x - a < k := by omega
    have hofs : k + (x - (a + k)) = x - a := by omega
    simp only [h, hk, hofs, show a ≤ x by omega, if_true, if_false, Option.getD_none]
  · rw [if_neg h]
    by_cases h2 : a ≤ x
    · rw [if_pos h2, if_pos h2, if_pos (by omega)]
    · rw [if_neg h2, if_neg h2]

theorem stored_outside {a x : Nat} {l : List Byte} (old : Byte) (h : x < a ∨ a + l.length ≤ x) : stored a l x old = old := by
  unfold stored
  split
  · rw [List.getD_eq_default _ _ (by omega)]
  · rfl

theorem does_writeSectorBy_clean {s : State} {sec : Nat} (hb : s.mem.bad.find sec = none) (ofs : Nat) (l : List Byte) (full : Bool) :
    s.does (writeSectorBy none 0 0 sec ofs l full none)
      = ((s.does (markChanged 0 0 sec)).does (putBytes (64 * sec + ofs) l)).apply (.bad sec none) := by
  change s.does (writeBase sec ofs l full none 0) = _
  rw [writeBase, does_on]
  dsimp only
  rw [hb, if_pos (by simp), does_seqs_cons, does_seqs_cons, does_seqs_cons, does_seqs_nil]
  cases full <;> rfl

/-- A clean write to a sector without poison stores its bytes. -/
theorem byte_writeSectorBy_clean {s : State} (hi : s.Inv) {sec : Nat} (hb : s.mem.bad.find sec = none) (ofs : Nat) (l : List Byte) (full : Bool)
    (x : Nat) : (s.does (writeSectorBy none 0 0 sec ofs l full none)).mem.byte x = stored (64 * sec + ofs) l x (s.mem.byte x) := by
  have hm : (s.does (markChanged 0 0 sec)).mem = s.mem := keeps_markChanged (fun _ _ _ => rfl) 0 0 sec s
  rw [does_writeSectorBy_clean hb, ← hm, ← byte_putBytes (does_inv hi _)]
  rfl

/-- A clean write to a sector without poison poisons none. -/
theorem bad_writeSectorBy_clean {s : State} (hi : s.Inv) {sec : Nat} (hb : s.mem.bad.find sec = none) (ofs : Nat) (l : List Byte) (full : Bool)
    {y : Nat} (hy : s.mem.bad.find y = none) : (s.does (writeSectorBy none 0 0 sec ofs l full none)).mem.bad.find y = none := by
  have hm : ((s.does (markChanged 0 0 sec)).does (putBytes (64 * sec + ofs) l)).mem.bad = s.mem.bad :=
    (keeps_putBytes (q := fun t => t.mem.bad) (fun _ _ _ => rfl) _ l _).trans
      (keeps_markChanged (q := fun t => t.mem.bad) (fun _ _ _ => rfl) 0 0 sec s)
  rw [does_writeSectorBy_clean hb]
  change AMap.find (setO _ sec none) y = none
  rw [hm]
  exact find_setO_none_of hi.bad fun _ => hy

theorem byte_writePieces_clean (n : Nat) {s : State} (hi : s.Inv) {a : Nat} {l : List Byte} (hn : a % 64 + l.length ≤ 64 * n)
    (hb : ∀ k < l.length, s.mem.bad.find (secOf (a + k)) = none) (x : Nat) :
    (s.does (each (pieces n a l) fun q => writeSectorBy none 0 0 q.1 q.2.1 q.2.2 (q.2.2.length = 64 && (none : Option Word).isNone) none)).mem.byte x
      = stored a l x (s.mem.byte x) := by
  induction n generalizing s a l with
  | zero =>
    rw [List.eq_nil_of_length_eq_zero (by omega : l.length = 0), stored_nil]
    rfl
  | succ n ih =>
    cases hl : l with
    | nil => exact (stored_nil ..).symm
    | cons b l' =>
      rw [← hl]
      have hp : pieces (n + 1) a l = (a / 64, a % 64, l.take (64 - a % 64)) :: pieces n (a + (64 - a % 64)) (l.drop (64 - a % 64)) := by
        rw [hl]
        rfl
      have h0 : s.mem.bad.find (a / 64) = none := hb 0 (by rw [hl, List.length_cons]; omega)
      rw [hp, does_each_cons, ih (does_inv hi _), byte_writeSectorBy_clean hi h0, show 64 * (a / 64) + a % 64 = a by omega, stored_split]
      · rw [List.length_drop]
        omega
      · intro k hk
        rw [List.length_drop] at hk
        refine bad_writeSectorBy_clean hi h0 _ _ _ ?_
        rw [Nat.add_assoc]
        exact hb _ (by omega)

/-- What the device writes to sectors without poison stands in memory, and nothing else changes there. -/
theorem byte_devWrite_clean {s : State} (hi : s.Inv) {a : Nat} {l : List Byte} (hb : ∀ k < l.length, s.mem.bad.find (secOf (a + k)) = none)
    (x : Nat) : (s.does (devWrite a l)).mem.byte x = stored a l x (s.mem.byte x) :=
  byte_writePieces_clean _ hi (by omega) hb x

-- a home takes a sector

/-- An act by which dies and frames give up a sector. -/
def Act.Recalls : Act → Prop
  | .l1 .. | .marks .. | .free _ | .agenda _ | .beads .. | .rdc .. | .dir .. => True
  | _ => False

/-- An effect by which dies and frames give up sectors, and that does nothing else. -/
abbrev Eff.Recalls (e : Eff) : Prop := e.Only Act.Recalls

theorem recalls_promote (frame sec : Nat) : (promote frame sec).Recalls :=
  only_on fun _ => only_when <| only_freely (fun _ => trivial) fun _ => only_ite only_skip <|
    only_andThen (only_upMarks fun _ => trivial) (only_each fun _ => only_on fun _ => only_act trivial)

theorem recalls_upL1 (k : Nat) (f : AMap Sector → AMap Sector) : (upL1 k f).Recalls := ⟨fun s a ha => by
  unfold upL1 at ha
  split at ha
  · exact List.mem_singleton.1 ha ▸ trivial
  · exact nomatch ha⟩

theorem recalls_upRdc (k : Nat) (f : AMap Sector → AMap Sector) : (upRdc k f).Recalls := ⟨fun s a ha => by
  unfold upRdc at ha
  split at ha
  · exact List.mem_singleton.1 ha ▸ trivial
  · exact nomatch ha⟩

theorem recalls_dropL1 (frame line : Nat) : (dropL1 frame line).Recalls := only_andThen (recalls_promote ..) (recalls_upL1 ..)

theorem recalls_yieldDie (die line : Nat) : (yieldDie die line).Recalls :=
  only_on fun _ => only_andThen (only_each fun _ => recalls_dropL1 ..) <| only_andThen (only_act trivial) <|
    only_andThen (only_on fun _ => only_onSome fun _ => recalls_upRdc ..) only_skip

theorem recalls_setDir (line : Nat) (st : DirSt) (l : List Agent) : (setDir line st l).Recalls := only_on fun _ => only_act trivial

theorem recalls_grantWrite (who : Option Agent) (line : Nat) : (grantWrite who line).Recalls := only_on fun s => by
  refine only_andThen (only_each fun a => ?_) (only_andThen ?_ (only_andThen ?_ only_skip))
  · cases a with
    | rdc p d => exact only_when (recalls_yieldDie ..)
    | hub p => exact only_skip
    | host p => exact only_skip
  · split
    · exact only_when (recalls_yieldDie ..)
    · exact only_skip
  · cases who with
    | none => exact recalls_setDir ..
    | some a => exact recalls_setDir ..

theorem recalls_homeTakes (line : Nat) : (homeTakes line true).Recalls := only_on fun _ => by
  split
  · exact only_skip
  · exact only_when (only_andThen (recalls_grantWrite ..) (only_when (recalls_yieldDie ..)))

theorem recalled_apply {a : Act} (ha : a.Recalls) (s : State) : (s.apply a).mem = s.mem ∧ (s.apply a).outbox = s.outbox := by
  cases a with
  | l1 | marks | free | agenda | beads | rdc | dir => exact ⟨rfl, rfl⟩
  | _ => exact ha.elim

theorem Eff.Only.recalled_mem {e : Eff} (h : e.Recalls) (s : State) : (s.does e).mem = s.mem :=
  h.keeps (q := State.mem) (fun _ ha t => (recalled_apply ha t).1) s

theorem Eff.Only.recalled_outbox {e : Eff} (h : e.Recalls) (s : State) : (s.does e).outbox = s.outbox :=
  h.keeps (q := State.outbox) (fun _ ha t => (recalled_apply ha t).2) s

-- mirrored writes

/-- A host access finds nothing in its way: no range of a home command, no transaction, no sweep and no agent to snoop. -/
theorem hostAccess_free {s : State} {secs : List Nat} {write : Bool} (hm : s.mig = []) (ht : s.trans = [])
    (h : ∀ x ∈ secs, s.awaited (some s.hostAgent) write x = [] ∧ s.unswept x = false) (ahead : Waiting → Bool) (me : Waiting) (go : Eff) :
    hostAccess secs write ahead me go s = go s := by
  have hmig (x : Nat) (w : Bool) : s.migAt x w = none := by rw [State.migAt, hm]; rfl
  have htr (x : Nat) : (s.transOf x).cur = none := by rw [State.transOf, ht]; rfl
  have hnone : ∀ f : Nat → Option Eff, (∀ x ∈ secs, f x = none) → (secs.findSome? f).getD go = go := fun f hf => by
    rw [List.findSome?_eq_none_iff.2 hf]
    rfl
  rw [hostAccess, on, ht, hm]
  refine congrFun (hnone _ fun x hx => ?_) s
  obtain ⟨ha, hu⟩ := h x hx
  simp only [hmig, htr, ha, hu]
  rfl

theorem mem_sectorsOf {pa n k : Nat} (hk : k < n) : secOf (pa + k) ∈ sectorsOf pa n := by
  rw [sectorsOf, if_neg (by omega)]
  exact List.mem_map.2 ⟨(pa + k) / 64 - pa / 64, List.mem_range.2 (by omega), by unfold secOf; omega⟩

/-- A write that the twin mirrors, to memory of this package with nothing in its way, is performed here (R305). -/
theorem twinWriteMirror_performed {s : State} (hi : s.Inv) {pa : Nat} {l : List Byte} (hp : s.power ≠ .held) (hm : s.mig = []) (ht : s.trans = [])
    (ho : s.ownMemory pa l.length = true)
    (h : ∀ x ∈ sectorsOf pa l.length, s.awaited (some s.hostAgent) true x = [] ∧ s.unswept x = false ∧ s.mem.bad.find x = none)
    (ha : s.admits s.hostAgent pa = true) :
    ∃ t, exec (.twinWriteMirror pa l) s = .next t ∧ t.mem.bytes pa l.length = l ∧ t.outbox = s.outbox
      ∧ ∀ m, (m < pa ∨ pa + l.length ≤ m) → t.mem.byte m = s.mem.byte m := by
  have htakes : Eff.Recalls (each (sectorsOf pa l.length) fun x => homeTakes x true) := only_each fun _ => recalls_homeTakes _
  let u := s.does (each (sectorsOf pa l.length) fun x => homeTakes x true)
  have hmem : u.mem = s.mem := htakes.recalled_mem s
  have hbyte (x : Nat) : (u.does (devWrite pa l)).mem.byte x = stored pa l x (s.mem.byte x) := by
    rw [byte_devWrite_clean (does_inv hi _) (fun k hk => by rw [hmem]; exact (h _ (mem_sectorsOf hk)).2.2), hmem]
  refine ⟨u.does (devWrite pa l), ?_, bytes_of_stored hbyte, ?_, fun m hx => by rw [hbyte, stored_outside _ hx]⟩
  · refine (outside_up hp _).trans ?_
    rw [hostWrite, does_on]
    dsimp only
    rw [ho, does_when, if_pos rfl, State.does, hostAccess_free hm ht fun x hx => ⟨(h x hx).1, (h x hx).2.1⟩, ← State.does, does_andThen, ha]
    rfl
  · exact (keeps_devWrite (q := State.outbox) (fun _ _ _ => rfl) (fun _ _ _ => rfl) (fun _ _ _ => rfl) pa l u).trans (htakes.recalled_outbox s)

-- mirrored kicks

/-- The device writes a number in little-endian order, and it is read back there. -/
theorem num_devWrite {s : State} (hi : s.Inv) {a n x : Nat} (hx : x < 256 ^ n) (hb : ∀ k < n, s.mem.bad.find (secOf (a + k)) = none) :
    (s.does (devWrite a (num n x))).mem.num a n = x := by
  have hlen : (num n x).length = n := leBytes_length n x
  have hbytes : (s.does (devWrite a (num n x))).mem.bytes a (num n x).length = num n x :=
    bytes_of_stored (byte_devWrite_clean hi fun k hk => hb k (by rwa [hlen] at hk))
  rw [hlen] at hbytes
  rw [Mem.num, hbytes, num, leNat_leBytes, Nat.mod_eq_of_lt hx]

/-- What an accepted kick does before the lead processor is to take the packet: `WRIDX`, and the context comes to run. -/
def acceptKick (q : Nat) (v : BitVec 64) (ctx : Nat) : Eff := andThen (setWrIdx q v.toNat) (ensureCtx ctx)

/-- A kick that its queue accepts (R53). -/
theorem does_kick_accepted {s : State} {q : Nat} {v : BitVec 64} (hst : s.qd q 257 256 = 0) (hf : s.funcHolds (s.qd q 86 80) = true)
    (hc : s.ctxParts (s.qd q 111 96) ≠ []) (h4 : 4 ≤ s.qd q 68 64) (h20 : s.qd q 68 64 ≤ 20) (hal : s.qd q 11 0 = 0) (hlo : s.qd q 255 192 < v.toNat)
    (hhi : v.toNat ≤ s.qd q 191 128 + 2 ^ s.qd q 68 64) :
    s.does (kick q v) = (s.does (acceptKick q v (s.qd q 111 96))).does (later 1500 4000 (.nodePacket q)) := by
  have hheld : ¬ (!s.funcHolds (s.qd q 86 80) || decide (s.ctxParts (s.qd q 111 96) = [])) = true := by simp [hf, hc]
  have hsize : ¬ (decide (s.qd q 68 64 < 4) || decide (20 < s.qd q 68 64) || decide (s.qd q 11 0 ≠ 0)) = true := by
    simp [hal, Nat.not_lt.2 h4, Nat.not_lt.2 h20]
  rw [kick, does_on]
  dsimp only
  rw [if_neg (by omega), if_neg hheld, if_neg (by simp [hst]), if_neg hsize, if_neg (by omega), if_neg (by omega),
    does_seqs_cons, does_seqs_cons, does_seqs_cons, does_seqs_nil, acceptKick, does_andThen]

theorem keeps_ensureCtx {β : Type} {p : State → β} (h : ∀ k x (s : State), p (s.apply (.ctx k x)) = p s) (ctx : Nat) : (ensureCtx ctx).Keeps p :=
  keeps_on fun _ => keeps_when _ fun _ => keeps_act fun _ => h _ _ _

/-- A kick that a queue accepts sets `WRIDX`, and the lead processor is to take the packet (R53, R54). -/
theorem kick_accepted {s : State} (hi : s.Inv) {q : Nat} {v : BitVec 64} (hst : s.qd q 257 256 = 0) (hf : s.funcHolds (s.qd q 86 80) = true)
    (hc : s.ctxParts (s.qd q 111 96) ≠ []) (h4 : 4 ≤ s.qd q 68 64) (h20 : s.qd q 68 64 ≤ 20) (hal : s.qd q 11 0 = 0) (hlo : s.qd q 255 192 < v.toNat)
    (hhi : v.toNat ≤ s.qd q 191 128 + 2 ^ s.qd q 68 64) (hb : ∀ k < 64, s.mem.bad.find (secOf (s.qdAt q + k)) = none) :
    (s.does (kick q v)).mem.num (s.qdAt q + 24) 8 = v.toNat ∧ Due s (s.does (kick q v)) 1500 4000 (.nodePacket q)
      ∧ (s.does (kick q v)).outbox = s.outbox := by
  let w := s.does (devWrite (s.qdAt q + 24) (num 8 v.toNat))
  have hctx {β : Type} {p : State → β} (h : ∀ k x (s : State), p (s.apply (.ctx k x)) = p s) :
      p (s.does (acceptKick q v (s.qd q 111 96))) = p w := by
    rw [acceptKick, does_andThen, keeps_ensureCtx h, setWrIdx, does_on]
  have hnow : (s.does (acceptKick q v (s.qd q 111 96))).now = s.now :=
    (hctx fun _ _ _ => rfl).trans (keeps_devWrite (q := State.now) (fun _ _ _ => rfl) (fun _ _ _ => rfl) (fun _ _ _ => rfl) _ _ s)
  obtain ⟨⟨T, hT⟩, l, hl⟩ := later_due (s.does (acceptKick q v (s.qd q 111 96))) (show 1500 ≤ 4000 by omega) (.nodePacket q)
  rw [hnow] at hT
  rw [does_kick_accepted hst hf hc h4 h20 hal hlo hhi]
  refine ⟨?_, ⟨T, hT⟩, ?_⟩
  · have hn : w.mem.num (s.qdAt q + 24) 8 = v.toNat :=
      num_devWrite hi v.isLt fun k hk => by rw [Nat.add_assoc]; exact hb _ (by omega)
    rw [State.does, hl]
    exact (congrArg (fun m : Mem => m.num (s.qdAt q + 24) 8) (hctx (p := State.mem) fun _ _ _ => rfl)).trans hn
  · rw [State.does, hl]
    exact (hctx (p := State.outbox) fun _ _ _ => rfl).trans (keeps_devWrite (q := State.outbox) (fun _ _ _ => rfl) (fun _ _ _ => rfl) (fun _ _ _ => rfl) _ _ s)

/-- A kick that the twin mirrors is the kick, with no write of the twin's waiting (R305). -/
theorem exec_twinKickMirror {s : State} {q : Nat} (v : BitVec 64) (hp : s.power ≠ .held) (hm : s.mig = []) (ht : s.trans = []) (hq : q < 1024) :
    exec (.twinKickMirror q v) s = .next (s.does (kick q v)) := by
  refine (outside_up hp _).trans ?_
  rw [if_neg (by omega), ht, hm, if_neg (by decide)]

end Sys2Proof.Machine
end

section
/-!
SUPPORT. Bring-up and attestation (R24, R309 to R311): rails, the start of the clocks, the requests of a host that configures the device,
and the SPDM requests in their order.
-/
namespace Sys2Proof.Machine

section Power
variable {s : State}

theorem railsGood_ignored (im : BootImages) (hp : s.power ≠ .held) : exec (.railsGood im) s = .next s :=
  congrArg (fun e => Host.Outcome.next (s.does e)) (if_pos hp)

theorem railsGood_recovery {im : BootImages} (hp : s.power = .held) (hb : bootOk im = false) :
    exec (.railsGood im) s = .next { s with power := .recovery, idKeyOk := im.identity } := by
  change fire s _ = _
  rw [if_neg (by simpa using hp), if_pos (by rw [hb]; rfl)]
  rfl

/-- Good images start bring-up: the measurements are taken, and its end is due (R309). -/
theorem railsGood_bringup {im : BootImages} (hp : s.power = .held) (hb : bootOk im = true) :
    ∃ t, exec (.railsGood im) s = .next t ∧ t.power = .bringup ∧ t.idKeyOk = true ∧ t.kat = true ∧ t.measure = Config.romHash :: im.hashes
      ∧ Due s t 800000000 1800000000 .bringupComplete := by
  let u : State := { s with power := .bringup, idKeyOk := true, kat := true, measure := Config.romHash :: im.hashes }
  obtain ⟨hdue, l, hl⟩ := later_due u (show 800000000 ≤ 1800000000 by omega) .bringupComplete
  refine ⟨u.does (later 800000000 1800000000 .bringupComplete), ?_, ?_, ?_, ?_, ?_, hdue⟩
  · change fire s _ = _
    rw [if_neg (by simpa using hp), if_neg (by simp [hb]), fire_eq]
    iterate 5 rw [does_seqs_cons]
    rw [does_seqs_nil]
    rfl
  all_goals rw [State.does, hl]

theorem bringupComplete_ignored (hp : s.power ≠ .bringup) : exec .bringupComplete s = .next s :=
  congrArg (fun e => Host.Outcome.next (s.does e)) (if_pos hp)

/-- The interval of a package starts: its loss is looked for, and no step to come is lost (R222). -/
theorem heardNow_watches (u : State) (pkg : Nat) :
    (∃ l, u.does (heardNow pkg) = { u.apply (.seen pkg (some u.now)) with timers := u.timers ++ l })
      ∧ ∃ T, (T, .heartbeatLoss pkg) ∈ (u.does (heardNow pkg)).timers := by
  rw [heardNow, does_on, does_andThen, does_act, watchLoss, does_on, does_when]
  split
  · exact ⟨⟨_, rfl⟩, _, List.mem_append_right _ (List.mem_singleton.2 rfl)⟩
  next h =>
    refine ⟨⟨[], by rw [List.append_nil]; rfl⟩, ?_⟩
    simp only [Bool.not_eq_true', Bool.not_eq_false, List.any_eq_true, decide_eq_true_eq] at h
    obtain ⟨⟨T, i⟩, hmem, rfl⟩ := h
    exact ⟨T, hmem⟩

theorem heardNow_timers {u : State} (pkg : Nat) {p : Nat × Instr} (h : p ∈ u.timers) : p ∈ (u.does (heardNow pkg)).timers := by
  obtain ⟨⟨l, hl⟩, -⟩ := heardNow_watches u pkg
  rw [hl]
  exact List.mem_append_left _ h

theorem keeps_watchAll {β : Type} {q : State → β} (hs : ∀ k x (s : State), q (s.apply (.seen k x)) = q s)
    (ht : ∀ x (s : State), q (s.apply (.timers x)) = q s) : watchAll.Keeps q :=
  keeps_each _ fun _ _ => keeps_on fun _ => keeps_andThen (keeps_act fun _ => hs _ _ _) <|
    keeps_on fun _ => keeps_when _ fun _ => keeps_on fun _ => keeps_act fun _ => ht _ _

/-- With the end of bring-up the clocks count from 0: what was to come keeps its distance, heartbeats begin, and every package is watched (R222, R309). -/
theorem bringupComplete_up (hi : s.Inv) (hp : s.power = .bringup) :
    ∃ t, exec .bringupComplete s = .next t ∧ t.power = .up ∧ t.now = 0 ∧ (10000, .heartbeatSend) ∈ t.timers
      ∧ (∀ p ∈ s.timers, (p.1 - s.now, p.2) ∈ t.timers) ∧ ∀ pkg < 256, ∃ T, (T, .heartbeatLoss pkg) ∈ t.timers := by
  let u : State := { s with power := .up, timers := s.timers.map fun p => (p.1 - s.now, p.2), now := 0 }
  have hiu : u.Inv := run_keeps_inv hi [.power .up, .timers (s.timers.map fun p : Nat × Instr => (p.1 - s.now, p.2)), .now 0]
  let w := u.does watchAll
  have hnow : w.now = 0 := keeps_watchAll (q := State.now) (fun _ _ _ => rfl) (fun _ _ => rfl) u
  have hpow : w.power = .up := keeps_watchAll (q := State.power) (fun _ _ _ => rfl) (fun _ _ => rfl) u
  have hold : ∀ p ∈ s.timers, (p.1 - s.now, p.2) ∈ w.timers := fun p hmem =>
    does_each_keeps (P := fun t => (p.1 - s.now, p.2) ∈ t.timers) _ (fun k _ _ h => heardNow_timers k h) (List.mem_map.2 ⟨p, hmem, rfl⟩)
  have hall : ∀ pkg ∈ List.range 256, ∃ T, (T, .heartbeatLoss pkg) ∈ w.timers :=
    does_each_all (Q := fun pkg t => ∃ T, (T, .heartbeatLoss pkg) ∈ t.timers) (fun k t _ => (heardNow_watches t k).2)
      (by rintro _ k t - ⟨T, h⟩; exact ⟨T, heardNow_timers k h⟩) _ hiu
  refine ⟨w.does (after 10000 .heartbeatSend), ?_, hpow, hnow, List.mem_append_right _ ?_, fun p h => List.mem_append_left _ (hold p h), fun k hk => ?_⟩
  · change fire s _ = _
    rw [if_neg (by simpa using hp), fire_eq]
    iterate 5 rw [does_seqs_cons]
    rw [does_seqs_nil]
    rfl
  · rw [List.mem_singleton, hnow]
  · obtain ⟨T, h⟩ := hall k (List.mem_range.2 hk)
    exact ⟨T, List.mem_append_left _ h⟩

theorem configurationRequest_held (hp : s.power = .held) : exec .configurationRequest s = .next s := by
  change fire s _ = _
  rw [hp]
  rfl

theorem configurationRequest_retry (hp : s.power = .bringup) :
    exec .configurationRequest s = .next { s with outbox := s.outbox ++ [.reply hostPort [2]] } := by
  change fire s _ = .next (s.does (out (.reply hostPort [2])))
  rw [hp]
  rfl

theorem configurationRequest_answered (hp : s.power = .up ∨ s.power = .recovery) :
    exec .configurationRequest s = .next { s with outbox := s.outbox ++ [.reply hostPort [0]] } := by
  change fire s _ = .next (s.does (out (.reply hostPort [0])))
  rcases hp with hp | hp
  · rw [hp]; rfl
  · rw [hp]; rfl

theorem mctpFirmwareUpdate_taken (l : List Byte) (hp : s.power = .recovery) :
    exec (.mctpFirmwareUpdate l) s = .next { s with fwq := s.fwq ++ [l] } := by
  refine (outside_up (by rw [hp]; decide) _).trans ?_
  rw [does_when, if_pos (by simpa using hp)]
  rfl

theorem mctpFirmwareUpdate_ignored (l : List Byte) (hp : s.power ≠ .recovery) : exec (.mctpFirmwareUpdate l) s = .next s := by
  by_cases hh : s.power = .held
  · exact outside_held hh _
  · refine (outside_up hh _).trans ?_
    rw [does_when, if_neg (by simpa using hp)]

end Power

/-- The state once a request has been answered in a session `p`: both enter the transcript, and the reply leaves (R311). -/
def State.answered (s : State) (req reply : List Byte) (p : Spdm) : State :=
  { s with spdm := { p with trans := p.trans ++ req ++ reply }, outbox := s.outbox ++ [.reply hostPort reply] }

/-- The state once a request out of its order has been answered with an error. -/
def State.answeredWrong (s : State) : State := { s with outbox := s.outbox ++ [.reply hostPort [0x7F, 0x04]] }

/-- What `GET_MEASUREMENTS` reports at an index (Table 13.6): the number of the measurements, all of them, or one. -/
def State.measurementAt (s : State) (k : Nat) : List Byte :=
  if k = 0 then num 1 s.measurements.length else if k = 255 then s.measurements.flatten else s.measurements.getD (k - 1) []

section Spdm
variable {s : State} (hp : s.power = .up)
include hp

theorem does_spdmReply (req reply : List Byte) (f : Spdm → Spdm) : s.does (spdmReply req reply f) = s.answered req reply (f s.spdm) := by
  rw [spdmReply, does_on, hp]
  rfl

/-- A request in its order is answered. -/
theorem fire_spdmAfter {ok : Spdm → Bool} (h : ok s.spdm = true) (req reply : List Byte) (f : Spdm → Spdm) :
    fire s (spdmAfter ok (spdmReply req reply f)) = .next (s.answered req reply (f s.spdm)) := by
  rw [fire_eq, spdmAfter, does_on, h, if_pos rfl, does_spdmReply hp]

/-- A request out of its order is answered with an error. -/
theorem fire_spdmAfter_wrong {ok : Spdm → Bool} (h : ok s.spdm = false) (k : Eff) : fire s (spdmAfter ok k) = .next s.answeredWrong := by
  rw [fire_eq, spdmAfter, does_on, h, if_neg Bool.false_ne_true, spdmError, does_on, hp]
  rfl

theorem getCertificate_answered (ha : s.spdm.algs = true) (o n : Nat) : exec (.getCertificate 0 o n) s
    = .next (s.answered (0x82 :: num 8 0 ++ num 8 o ++ num 8 n) (0x02 :: (certChain.drop o).take n) s.spdm) :=
  fire_spdmAfter hp (ok := fun p => p.algs && decide (0 = 0)) (by rw [ha]; rfl) _ _ id

theorem getCertificate_wrong (ha : s.spdm.algs = false) (k o n : Nat) : exec (.getCertificate k o n) s = .next s.answeredWrong :=
  fire_spdmAfter_wrong hp (ok := fun p => p.algs && decide (k = 0)) (by rw [ha]; rfl) _

theorem getMeasurements_answered (ha : s.spdm.algs = true) {k : Nat} (hk : k ≤ s.measurements.length ∨ k = 255) {b : List Byte}
    (hb : s.measurementAt k = b) (x : BitVec 256) :
    exec (.getMeasurements k x) s = .next (s.answered (0xE0 :: num 1 k ++ num 32 x.toNat)
      (0x60 :: b ++ num 32 x.toNat ++ signed (s.spdm.trans ++ (0xE0 :: num 1 k ++ num 32 x.toNat) ++ (0x60 :: b ++ num 32 x.toNat))) s.spdm) := by
  subst hb
  exact fire_spdmAfter hp (ok := fun p => p.algs && (decide (k ≤ s.measurements.length) || decide (k = 255))) (by simpa [ha] using hk) _ _ id

theorem getMeasurements_wrong {k : Nat} (h : s.spdm.algs = false ∨ s.measurements.length < k ∧ k ≠ 255) (x : BitVec 256) :
    exec (.getMeasurements k x) s = .next s.answeredWrong :=
  fire_spdmAfter_wrong hp (ok := fun p => p.algs && (decide (k ≤ s.measurements.length) || decide (k = 255)))
    (by rcases h with h | h
        · rw [h]; rfl
        · simp [h.2, Nat.not_le.2 h.1]) _

end Spdm

end Sys2Proof.Machine
end

section
/-!
SUPPORT. O59: the twin, bring-up and attestation.
-/
namespace Sys2Proof.Machine

theorem mirrors_held {s : State} (hp : s.power = .held) (i : Instr) (h : (∃ a l, i = .twinWriteMirror a l) ∨ (∃ q v, i = .twinKickMirror q v)
    ∨ (∃ k d, i = .twinDigestArrival k d) ∨ ∃ k, i = .rollbackMirror k) : exec i s = .next s := by
  rcases h with ⟨_, _, rfl⟩ | ⟨_, _, rfl⟩ | ⟨_, _, rfl⟩ | ⟨_, rfl⟩
  · exact outside_held hp _
  · exact outside_held hp _
  · exact outside_held hp _
  · exact outside_held hp _

/-- Settles O59: the twin's steps by the halt of one context after another and by the write of clean sectors, bring-up by the steps that come to
be due, attestation request by request. -/
theorem twinBootAndAttestation : Obligations.TwinBootAndAttestation := by
  unfold Obligations.TwinBootAndAttestation
  intro s hi
  refine ⟨mirrors_held, ?write, ?kick, fun key d hp => twinDigestArrival_kept hp key d,
    fun key => ⟨twinDigestTimeout_skips, fun nk n c => twinDigestTimeout_halts⟩, twinLinkDown_halts hi, fun key nk n => rollbackMirror_ready hi, rfl,
    fun im => ⟨railsGood_ignored im, railsGood_recovery, railsGood_bringup⟩, bringupComplete_ignored, bringupComplete_up hi, configurationRequest_held,
    configurationRequest_retry, configurationRequest_answered, fun l => ⟨mctpFirmwareUpdate_taken l, mctpFirmwareUpdate_ignored l⟩, fun hp => ?spdm⟩
  case write =>
    rintro pa _ l hp hm ht ho rfl hx ha
    exact twinWriteMirror_performed hi hp hm ht ho hx ha
  case kick =>
    intro q v hp hm ht hq hst hf hc h4 h20 hal hlo hhi hb
    exact ⟨_, exec_twinKickMirror v hp hm ht hq, kick_accepted hi hst hf hc h4 h20 hal hlo hhi hb⟩
  case spdm =>
    refine ⟨congrArg _ (does_spdmReply hp ..), fun h => fire_spdmAfter hp h .., fun h => fire_spdmAfter_wrong hp h _,
      fun o => ⟨fun h => fire_spdmAfter hp h .., fun h => fire_spdmAfter_wrong hp h _⟩, fun h => ?_, fun h => ?_⟩
    · exact ⟨fire_spdmAfter_wrong hp h _, fun k o n => getCertificate_wrong hp h k o n, fun x => fire_spdmAfter_wrong hp h _,
        fun k x => getMeasurements_wrong hp (.inl h) x⟩
    · refine ⟨fire_spdmAfter hp h .., fun o n => getCertificate_answered hp h o n, fun x => fire_spdmAfter hp h .., fun k x => ?_⟩
      exact ⟨fun h0 => getMeasurements_answered hp h (.inl (by omega)) (if_pos h0) x,
        fun h0 => getMeasurements_answered hp h (.inr h0) (by rw [State.measurementAt, if_neg (by omega), if_pos h0]) x,
        fun h1 hl h0 => getMeasurements_answered hp h (.inl hl) (by rw [State.measurementAt, if_neg (by omega), if_neg h0]) x,
        fun hl h0 => getMeasurements_wrong hp (.inr ⟨hl, h0⟩) x⟩

end Sys2Proof.Machine
end

section
/-!
SUPPORT. The group of an issue once the issue itself has had its effects (R67, R86, R90, R92, R95): what its threads and registers are, and
what has joined its results in flight.
-/
namespace Sys2Proof.Machine

/-- Of two entries put under one key the second stays. -/
theorem AMap_put_put {α : Type} (m : AMap α) (k : Nat) (a b : α) : AMap.put (AMap.put m k a) k b = AMap.put m k b := by
  induction m with
  | nil => simp [AMap.put]
  | cons p m ih =>
    obtain ⟨j, x⟩ := p
    simp only [AMap.put]
    by_cases h1 : k < j
    · simp [h1, AMap.put]
    · by_cases h2 : j = k
      · simp [h2, AMap.put]
      · simp [h1, h2, AMap.put, ih]

theorem th_tab32 {g : Group} {f : Nat → Thread} (h : g.threads = tab32 f) {n : Nat} (hn : n < 32) : g.th n = f n := by
  rw [Group.th, h, srcLanes_get f _ hn]

theorem mapTh_th (g : Group) (m : Mask) (f : Nat → Thread → Thread) {n : Nat} (hn : n < 32) :
    (g.mapTh m f).th n = if m.has n then f n (g.th n) else g.th n :=
  th_tab32 (g := g.mapTh m f) (f := fun n => if m.has n then f n (g.th n) else g.th n) rfl hn

theorem has_of (p : Nat → Bool) {n : Nat} (hn : n < 32) : Mask.has (Mask.of p) n = p n := by
  have key : ∀ (l : List Nat) (a : Mask), (∀ k ∈ l, k < 32) →
      (l.foldl (fun a n => if p n then a ||| (1#32 <<< n) else a) a).getLsbD n = (a.getLsbD n || (decide (n ∈ l) && p n)) := by
    intro l
    induction l with
    | nil => simp
    | cons k l ih =>
      intro a hl
      have hk : k < 32 := hl k List.mem_cons_self
      rw [List.foldl_cons, ih _ fun j hj => hl j (List.mem_cons_of_mem _ hj)]
      by_cases hkn : n = k
      · subst hkn
        cases hp : p n <;> simp [hn]
      · have hbit : (1#32 <<< k).getLsbD n = false := by
          rw [BitVec.getLsbD_shiftLeft, BitVec.getLsbD_one]
          simp only [Bool.and_eq_false_iff, Bool.not_eq_false', decide_eq_true_eq, decide_eq_false_iff_not]
          omega
        cases hp : p k <;> simp [hkn, hbit]
  rw [Mask.has, Mask.of, key _ _ fun k hk => List.mem_range.1 hk]
  simp [hn]

theorem mask_of_ne_zero {p : Nat → Bool} {n : Nat} (hn : n < 32) (hp : p n = true) : Mask.of p ≠ 0#32 := has_ne_zero ((has_of p hn).trans hp)

/-- A set that is not empty has a lane. -/
theorem exists_has {m : Mask} (h : m ≠ 0#32) : ∃ n < 32, Mask.has m n = true := by
  by_contra hn
  push Not at hn
  exact h (BitVec.eq_of_getLsbD_eq fun i hi => by simpa [Mask.has] using hn i hi)

/-- A thread in the Active set is in RUN. -/
theorem run_of_atPc {g : Group} {pc : BitVec 57} {n : Nat} (hn : n < 32) (h : Mask.has (g.atPc pc) n = true) : (g.th n).st = .run := by
  rw [Group.atPc, has_of _ hn, Bool.and_eq_true, Group.runnable, has_of _ hn] at h
  simp only [Bool.and_eq_true, decide_eq_true_eq] at h
  exact h.1.1.1

/-- `g` is the group of the issue `c` of `i` behind the issue itself. -/
structure Issued (c : Iss) (i : Instr) (g : Group) : Prop where
  regs : SameRegs c.g g
  mayWrite : ∀ p ∈ g.pend, Kept c.g.pend p ∨ MayWrite i p.kind
  begins : ∀ p ∈ g.pend, Kept c.g.pend p ∨ (∃ n, p.kind = .dead n) ∨ ∃ n, p.kind = .sb n
  st : ∀ n < 32, (g.th n).st = (c.g.th n).st
  mr : ∀ n < 32, (g.th n).mr = (c.g.th n).mr
  nmr : ∀ n < 32, (g.th n).nmr = (c.g.th n).nmr
  pc : ∀ n < 32, (g.th n).pc = if c.act.has n then c.pc + 12 else (c.g.th n).pc
  cont : g.cont = c.g.cont
  join : g.join = c.g.join
  joinAddr : g.joinAddr = c.g.joinAddr
  team : g.team = c.g.team
  frame : g.frame = c.g.frame
  rod : g.rod = c.g.rod
  csr : ∃ b, g.csr = { c.g.csr with stale := b }

theorem mem_sbAt {i : Instr} {L : Nat} {p : Pend} (h : p ∈ sbAt i L) : ∃ n, p.kind = .sb n := by
  unfold sbAt at h
  split at h
  · rename_i n _
    exact ⟨n, by rw [List.mem_singleton.1 h]⟩
  · exact nomatch h

/-- Dead marks change nothing but the results in flight and the operand cache (R92). -/
theorem deadMarks_eq (c : Iss) (i : Instr) (g : Group) : ∃ l o, deadMarks c i g = { g with pend := l, o := o }
    ∧ ∀ p ∈ l, p ∈ g.pend ∨ ∃ n, p.kind = .dead n := by
  unfold deadMarks
  split
  · exact ⟨g.pend, g.o, rfl, fun p hp => .inl hp⟩
  · refine ⟨_, _, rfl, fun p hp => ?_⟩
    rcases (mem_foldl_addPend _ _ _).1 hp with hp | hp
    · obtain ⟨u, -, hp⟩ := List.mem_flatMap.1 hp
      split at hp
      · obtain ⟨k, -, rfl⟩ := List.mem_map.1 hp
        exact .inr ⟨_, rfl⟩
      · exact nomatch hp
    · exact .inl hp

theorem setsSb_eq (i : Instr) (g : Group) : ∃ x y, setsSb i g = { g with sb := x, sbFar := y } := by
  unfold setsSb
  split
  · exact ⟨g.sb, g.sbFar, rfl⟩
  · exact ⟨_, _, rfl⟩

/-- The group behind an issue, in terms of the one that its hints, ages and PCs give. -/
theorem afterIssue_eq (c : Iss) (i : Instr) (n : Nat) : ∃ l o x y b, afterIssue c i n
      = { issued c i n with pend := l, o := o, sb := x, sbFar := y, csr := { c.g.csr with stale := b } }
    ∧ ∀ p ∈ l, p ∈ c.g.pend ∨ (∃ n, p.kind = .dead n) ∨ ∃ n, p.kind = .sb n := by
  obtain ⟨x, y, hs⟩ := setsSb_eq i (issued c i n)
  obtain ⟨l, o, hd, hl⟩ := deadMarks_eq c i (setsSb i (issued c i n))
  rw [hs] at hd hl
  unfold afterIssue
  dsimp only
  rw [hs, hd]
  split
  · refine ⟨_, o, x, y, _, rfl, fun p hp => ?_⟩
    exact ((mem_foldl_addPend _ _ _).1 hp).elim (fun h => .inr (.inr (mem_sbAt h))) fun h => (hl p h).imp id .inl
  · exact ⟨l, o, x, y, _, rfl, fun p hp => (hl p hp).imp id .inl⟩

theorem afterIssue_issued (c : Iss) (i : Instr) (n : Nat) : Issued c i (afterIssue c i n) := by
  obtain ⟨hr, hw⟩ := afterIssue_quiet c i n
  obtain ⟨l, o, x, y, b, he, hl⟩ := afterIssue_eq c i n
  have hth : ∀ k < 32, (afterIssue c i n).th k
      = if c.act.has k then { (c.g.aged c.act).th k with pc := c.pc + 12 } else (c.g.aged c.act).th k := by
    intro k hk
    rw [he]
    exact mapTh_th (c.g.aged c.act) c.act (fun _ th => { th with pc := c.pc + 12 }) hk
  have hage : ∀ k < 32, (c.g.aged c.act).th k = { c.g.th k with age := ((c.g.aged c.act).th k).age } := by
    intro k hk
    rw [th_tab32 (g := c.g.aged c.act) (f := fun n => { c.g.th n with age := if c.act.has n || (c.g.th n).st ≠ .run then 0 else (c.g.th n).age + 1 })
      rfl hk]
  refine ⟨hr, fun p hp => (hw p hp).imp kept_of_mem id, fun p hp => ?_, fun k hk => ?_, fun k hk => ?_, fun k hk => ?_, fun k hk => ?_, ?_, ?_, ?_,
    ?_, ?_, ?_, ⟨b, ?_⟩⟩
  case refine_1 =>
    rw [he] at hp
    exact (hl p hp).imp kept_of_mem id
  case refine_2 => rw [hth k hk, hage k hk]; split <;> rfl
  case refine_3 => rw [hth k hk, hage k hk]; split <;> rfl
  case refine_4 => rw [hth k hk, hage k hk]; split <;> rfl
  case refine_5 => rw [hth k hk, hage k hk]; split <;> rfl
  case refine_12 => rw [he]
  all_goals rw [he]; rfl

theorem Issued.stale {c : Iss} {i : Instr} {g : Group} (h : Issued c i g) (b : Bool) : Issued c i { g with csr := { g.csr with stale := b } } where
  __ := h
  regs := ⟨h.regs.v, h.regs.s, h.regs.c, h.regs.f, h.regs.q⟩
  csr := by
    obtain ⟨_, hb⟩ := h.csr
    exact ⟨b, by rw [hb]⟩

theorem Issued.logged {c : Iss} {i : Instr} {g : Group} (h : Issued c i g) (old : Group) (t : Nat) : Issued c i (g.logged old i t) where
  __ := h
  regs := ⟨h.regs.v, h.regs.s, h.regs.c, h.regs.f, h.regs.q⟩

/-- The issue itself, as the state with the group stored, then what a continuation sends up, then the bank reads. -/
theorem begun_eq {s : State} {c : Iss} {i : Instr} (h : s.reaching i = some c) :
    ∃ g, Issued c i g ∧ s.begun c i = (((s.apply (.free (s.free + 1))).apply (.group s.cur (some g))).does (onSome c.g.cont fun p =>
        when (staleField c i).isSome (upGroup p.1 fun g => { g with csr := { g.csr with stale := true } }))).does
      (when c.g.cont.isNone (upRod (rodKey g.frame g.rod) fun r =>
        { r with reads := r.reads ++ (i.vreads.zip c.reads).map fun p => (p.1.2.2 % 6, p.2.clk) })) := by
  obtain ⟨g0, pc, hg0, -⟩ := reaching_iff.1 h
  refine ⟨_, (afterIssue_issued c i s.free).logged c.g c.t, ?_⟩
  have hput : (s.landed.apply (.free (s.free + 1))).apply (.group s.cur (some ((afterIssue c i s.free).logged c.g i c.t)))
      = (s.apply (.free (s.free + 1))).apply (.group s.cur (some ((afterIssue c i s.free).logged c.g i c.t))) := by
    rw [landed_eq (issuer_eq hg0)]
    exact congrArg (fun m => { s with free := s.free + 1, groups := m }) (AMap_put_put ..)
  unfold State.begun
  dsimp only
  rw [hput, does_when]
  cases c.g.cont <;> rfl

/-- Behind the issue itself the issuing group is as `Issued` says. -/
theorem begun_issued {s : State} {c : Iss} {i : Instr} (h : s.reaching i = some c) :
    ∃ g, (s.begun c i).groups.find s.cur = some g ∧ Issued c i g := by
  obtain ⟨g, hg, he⟩ := begun_eq h
  have hput : ((s.apply (.free (s.free + 1))).apply (.group s.cur (some g))).groups.find s.cur = some g := find_setO_self ..
  have hrod (t : State) : (t.does (when c.g.cont.isNone (upRod (rodKey g.frame g.rod) fun r =>
      { r with reads := r.reads ++ (i.vreads.zip c.reads).map fun p => (p.1.2.2 % 6, p.2.clk) }))).groups = t.groups :=
    keeps_when _ (fun _ t => upRod_groups t _ _) t
  rw [he, hrod]
  cases c.g.cont with
  | none => exact ⟨g, hput, hg⟩
  | some p =>
    rw [does_onSome_some, does_when]
    split
    · by_cases hp : p.1 = s.cur
      · rw [hp, does_upGroup_some _ _ _ _ hput]
        exact ⟨_, find_setO_self .., hg.stale true⟩
      · cases hx : ((s.apply (.free (s.free + 1))).apply (.group s.cur (some g))).groups.find p.1 with
        | none => rw [does_upGroup_none _ _ _ hx]; exact ⟨g, hput, hg⟩
        | some x => rw [does_upGroup_some _ _ _ _ hx]; exact ⟨g, (find_setO_some_ne _ _ (Ne.symm hp)).trans hput, hg⟩
    · exact ⟨g, hput, hg⟩

/-- An act of an issue that has no effect beyond its groups and its rod. -/
def Act.Issues : Act → Prop
  | .group .. | .rod .. | .free _ => True
  | _ => False

theorem issues_upGroup (k : Nat) (f : Group → Group) : (upGroup k f).Only Act.Issues := ⟨fun s a ha => by
  unfold upGroup at ha
  split at ha
  · exact List.mem_singleton.1 ha ▸ trivial
  · exact nomatch ha⟩

theorem issues_upRod (k : Nat) (f : Rod → Rod) : (upRod k f).Only Act.Issues := ⟨fun s a ha => by
  unfold upRod at ha
  split at ha
  · exact List.mem_singleton.1 ha ▸ trivial
  · exact nomatch ha⟩

theorem sameButIssue_apply {s t : State} (h : SameButIssue s t) {a : Act} (ha : a.Issues) : SameButIssue s (t.apply a) := by
  cases a with
  | group | rod | free => exact (congrArg (State.apply · _) h).trans rfl
  | _ => exact ha.elim

theorem Eff.Only.sameButIssue {e : Eff} (h : e.Only Act.Issues) {s t : State} (ht : SameButIssue s t) : SameButIssue s (t.does e) :=
  h.preserves (P := SameButIssue s) (fun _ ha _ hu => sameButIssue_apply hu ha) ht

theorem begun_sameButIssue {s : State} {c : Iss} {i : Instr} (h : s.reaching i = some c) : SameButIssue s (s.begun c i) := by
  obtain ⟨g, -, he⟩ := begun_eq h
  rw [he]
  exact (only_when (issues_upRod ..)).sameButIssue <| (only_onSome fun _ => only_when (issues_upGroup ..)).sameButIssue rfl

end Sys2Proof.Machine
end

section
/-!
SUPPORT. O8: `UNIFY`.
-/
namespace Sys2Proof.Machine

/-- The element that lane `k` gives the uniform register (R253, R467). -/
def unifyElem (c : Iss) (a : Src) (k : Nat) : Elem :=
  (c.guarded ⟨[(lane (c.src 1 a) k).val], if (lane (c.src 1 a) k).poi then some (lane (c.src 1 a) k).val else none, 0#6⟩ k).elem 0

/-- Whether a lane of `l` differs from lane `k` in its bits or its poison bit (R44). -/
def unifyDiffers (c : Iss) (a : Src) (k : Nat) (l : List Nat) : Bool :=
  l.any fun n => (lane (c.src 1 a) n).val ≠ (lane (c.src 1 a) k).val || (lane (c.src 1 a) n).poi ≠ (lane (c.src 1 a) k).poi

/-- What `UNIFY` sends on its way (R44, R467). -/
def unifyWrites (c : Iss) (d : Dst) (a : Src) : List PendKind :=
  match c.on.lanes with
  | [] => []
  | k :: l => if d.nwb then [] else [.ws d.idx.toNat (unifyElem c a k), .wfBits 0 4#4 (if unifyDiffers c a k l then 4#4 else 0#4)]

/-- The same in flight, with the clearing of its scoreboard. -/
def unifyPends (c : Iss) (h : Head) (d : Dst) (a : Src) : List Pend :=
  (unifyWrites c d a).map (fun k => ⟨c.coll + 3, k⟩) ++ sbAt (.unify h d a) (c.coll + 3 + 1)

theorem exec_unify {s : State} {c : Iss} {h : Head} {d : Dst} {a : Src} (hs : s.issuing (.unify h d a) = some c) :
    exec (.unify h d a) s = .next ((s.begun c (.unify h d a)).does (upGroup c.gid fun g => g.pends (unifyPends c h d a))) :=
  issue_done hs (acts_fixed rfl) rfl

/-- The destination of a legal `UNIFY` that writes is a uniform register. -/
theorem unify_dst {s : State} {c : Iss} {h : Head} {d : Dst} {a : Src} (hs : s.issuing (.unify h d a) = some c) (hd : d.nwb = false) :
    d.cls = .s := by
  obtain ⟨_, _, _, _, hG, _⟩ := reaching_iff.1 (issuing_iff.1 hs).1
  have hl := hG.legal
  simp only [Instr.legal, Instr.head, Bool.and_eq_true, Instr.dst?, Option.all_some, DstUse.legal, hd] at hl
  obtain ⟨⟨⟨-, hdst⟩, -⟩, -⟩ := hl
  simp only [Bool.false_eq_true, if_false, Bool.and_eq_true, List.contains_iff_mem, List.mem_singleton] at hdst
  exact hdst.1

theorem mayWrite_unify {c : Iss} {h : Head} {d : Dst} {a : Src} (hd : d.nwb = false → d.cls = .s) {k : PendKind}
    (hk : k ∈ unifyWrites c d a) : MayWrite (.unify h d a) k := by
  unfold unifyWrites at hk
  split at hk
  · exact nomatch hk
  · split at hk
    · exact nomatch hk
    · rename_i hn
      have hn : d.nwb = false := by simpa using hn
      rcases List.mem_cons.1 hk with rfl | hk
      · exact ⟨⟨1, 1, [.s], d⟩, rfl, hn, hd hn, Nat.le_refl _, Nat.lt_succ_self _⟩
      · rw [List.mem_singleton.1 hk]
        exact ⟨rfl, rfl, h, d, a, rfl, hn⟩

/-- The lane's own element, poisoned or not, unless its guard alone is poisoned. -/
theorem unifyElem_own {c : Iss} {a : Src} {k : Nat} (h : (lane (c.src 1 a) k).poi = true ∨ c.gpoi.getD k none = none) :
    unifyElem c a k = lane (c.src 1 a) k := by
  unfold unifyElem Iss.guarded
  generalize lane (c.src 1 a) k = e at h ⊢
  obtain ⟨v, p⟩ := e
  cases p with
  | true => rfl
  | false => rw [h.resolve_left Bool.false_ne_true]; rfl

theorem unifyElem_guard {c : Iss} {a : Src} {k : Nat} {w : Word} (h : (lane (c.src 1 a) k).poi = false) (hw : c.gpoi.getD k none = some w) :
    unifyElem c a k = ⟨w, true⟩ := by
  unfold unifyElem Iss.guarded
  rw [h, hw]
  rfl

theorem unifyDiffers_iff {c : Iss} {a : Src} {k : Nat} {l : List Nat} :
    unifyDiffers c a k l = true ↔ ∃ n ∈ l, lane (c.src 1 a) n ≠ lane (c.src 1 a) k := by
  have hne (e f : Elem) : (e.val ≠ f.val ∨ e.poi ≠ f.poi) ↔ e ≠ f := by
    obtain ⟨v, p⟩ := e
    obtain ⟨w, q⟩ := f
    rw [ne_eq (Elem.mk v p), Elem.mk.injEq, not_and_or]
  simp only [unifyDiffers, List.any_eq_true, Bool.or_eq_true, decide_eq_true_eq, hne]

/-- Settles O8: the writes of `UNIFY` join what the issue itself has left in flight. -/
theorem unifyResult : Obligations.UnifyResult := by
  unfold Obligations.UnifyResult
  intro s c h d a hs
  have hr := (issuing_iff.1 hs).1
  obtain ⟨g, hg, hI⟩ := begun_issued hr
  refine ⟨_, g.pends (unifyPends c h d a), exec_unify hs, (issues_upGroup ..).sameButIssue (begun_sameButIssue hr), ?find, ?regs, ?pend, ?idle, ?result⟩
  case find => rw [gid_of_reaching hr, does_upGroup_some _ _ _ _ hg]; exact find_setO_self ..
  case regs => exact ⟨hI.regs.v, hI.regs.s, hI.regs.c, hI.regs.f, hI.regs.q⟩
  case pend =>
    intro p hp
    rcases (mem_pends _ _ _).1 hp with hp | hp
    · rcases List.mem_append.1 hp with hp | hp
      · obtain ⟨k, hk, rfl⟩ := List.mem_map.1 hp
        exact .inr (mayWrite_unify (unify_dst hs) hk)
      · exact .inr (mayWrite_sbAt hp)
    · exact hI.mayWrite p hp
  case idle =>
    intro hon p hp
    have hw : unifyWrites c d a = [] := by simp only [unifyWrites, hon]
    rw [unifyPends, hw] at hp
    have hkind : Kept c.g.pend p ∨ (∃ n, p.kind = .dead n) ∨ ∃ n, p.kind = .sb n :=
      ((mem_pends _ _ _).1 hp).elim (fun hp => .inr (.inr (mem_sbAt hp))) (hI.begins p)
    refine hkind.imp id ?_
    rintro (⟨n, hk⟩ | ⟨n, hk⟩)
    · simp [hk]
    · simp [hk]
  case result =>
    intro k l hon
    have sent (hd : d.nwb = false) (w : PendKind) (hw : w = .ws d.idx.toNat (unifyElem c a k)
        ∨ w = .wfBits 0 4#4 (if unifyDiffers c a k l then 4#4 else 0#4)) :
        (⟨c.coll + 3, w⟩ : Pend) ∈ (g.pends (unifyPends c h d a)).pend := by
      refine (mem_pends _ _ _).2 (.inl (List.mem_append_left _ (List.mem_map.2 ⟨w, ?_, rfl⟩)))
      simpa [unifyWrites, hon, hd] using hw
    refine ⟨c.coll + 3, Nat.lt_of_lt_of_le (coll_of_reaching hr) (Nat.le_add_right _ _), fun hd hp => ?_, fun w hd hp hw => ?_, fun hd hn => ?_,
      fun hd hn => ?_⟩
    · exact sent hd _ (.inl (by rw [unifyElem_own hp]))
    · exact sent hd _ (.inl (by rw [unifyElem_guard hp hw]))
    · exact sent hd _ (.inr (by rw [unifyDiffers_iff.2 hn]; rfl))
    · have hsame : unifyDiffers c a k l = false :=
        Bool.eq_false_iff.2 fun h => let ⟨n, hl, hne⟩ := unifyDiffers_iff.1 h; hne (hn n hl)
      exact sent hd _ (.inr (by rw [hsame]; rfl))

end Sys2Proof.Machine
end

section
/-!
SUPPORT. Meeting points (R39, R40, R426): what the release of held threads changes, and which threads `meetCheck` releases.
-/
namespace Sys2Proof.Machine

/-- What a release at meeting points changes of a group: threads, latches, operand cache, hold mask, the clock of its next issue, rewind log. -/
def SameButMeet (a b : Group) : Prop :=
  b = { a with threads := b.threads, q := b.q, o := b.o, hm := b.hm, ready := b.ready, past := b.past }

theorem SameButMeet.trans {a b c : Group} (h : SameButMeet a b) (k : SameButMeet b c) : SameButMeet a c := by
  unfold SameButMeet at h k ⊢
  rw [h] at k
  exact k

theorem release_same (g : Group) (x : BitVec 57) (t : Nat) : SameButMeet g (g.release x t) := rfl

/-- A thread that `MEET` lets go on, as its release leaves it (R40). -/
def Thread.goesOn (th : Thread) : Thread := { th with st := .run, pc := th.pc + 12, mr := th.nmr }

theorem release_th (g : Group) (x : BitVec 57) (t : Nat) {n : Nat} (hn : n < 32) :
    (g.release x t).th n = if (g.th n).st = .held ∧ (g.th n).pc = x then (g.th n).goesOn else g.th n := by
  refine (mapTh_th g (g.heldAt x) (fun _ th => { th with st := .run, pc := x + 12, mr := th.nmr }) hn).trans ?_
  rw [Group.heldAt, has_of _ hn]
  by_cases h : (g.th n).st = .held ∧ (g.th n).pc = x
  · obtain ⟨h1, rfl⟩ := h
    simp [h1, Thread.goesOn]
  · simp [h]

/-- The group once the threads held at the points of `l` have been released, one point after another. -/
def Group.releases (g : Group) (l : List (BitVec 57)) (t : Nat) : Group := l.foldl (fun g x => g.release x t) g

theorem releases_same (g : Group) (l : List (BitVec 57)) (t : Nat) : SameButMeet g (g.releases l t) := by
  induction l generalizing g with
  | nil => rfl
  | cons x l ih => exact (release_same g x t).trans (ih _)

theorem releases_th (g : Group) (l : List (BitVec 57)) (t : Nat) {n : Nat} (hn : n < 32) :
    (g.releases l t).th n = if (g.th n).st = .held ∧ (g.th n).pc ∈ l then (g.th n).goesOn else g.th n := by
  induction l generalizing g with
  | nil => simp [Group.releases]
  | cons x l ih =>
    refine (ih (g.release x t)).trans ?_
    rw [release_th g x t hn]
    by_cases h : (g.th n).st = .held ∧ (g.th n).pc = x
    · rw [if_pos h, if_neg (by simp [Thread.goesOn]), if_pos ⟨h.1, h.2 ▸ List.mem_cons_self⟩]
    · have hm : ((g.th n).st = .held ∧ (g.th n).pc ∈ x :: l) ↔ (g.th n).st = .held ∧ (g.th n).pc ∈ l :=
        and_congr_right fun hs => by rw [List.mem_cons, or_iff_right fun hx => h ⟨hs, hx⟩]
      rw [if_neg h, if_congr hm rfl rfl]

/-- Latches, operand cache and hold mask are invalid behind a release (R97), and stay so. -/
theorem releases_invalid {g : Group} {l : List (BitVec 57)} (h : l ≠ [] ∨ (g.q = [] ∧ g.o = [] ∧ g.hm = 0#4)) (t : Nat) :
    (g.releases l t).q = [] ∧ (g.releases l t).o = [] ∧ (g.releases l t).hm = 0#4 := by
  induction l generalizing g with
  | nil => exact h.resolve_left fun h => h rfl
  | cons x l ih => exact ih (.inr ⟨rfl, rfl, rfl⟩)

/-- The points of a group whose condition R40 is met, `e` its node's kernel entry. -/
def Group.meetPoints (g : Group) (e : Word) : List (BitVec 57) :=
  (((List.range 32).filterMap fun n => if (g.th n).st = .held then some (g.th n).pc else none).eraseDups).filter fun x => g.met x (mrOf e x)

theorem mem_heldAt {g : Group} {x : BitVec 57} {n : Nat} (hn : n < 32) :
    Mask.has (g.heldAt x) n = true ↔ (g.th n).st = .held ∧ (g.th n).pc = x := by
  rw [Group.heldAt, has_of _ hn, Bool.and_eq_true, decide_eq_true_eq, decide_eq_true_eq]

/-- R40: threads are held at the point, each other thread with its `MR` value has exited, and no continuation with that value is out. -/
theorem met_iff {g : Group} {x : BitVec 57} {off : Word} : g.met x off = true ↔
    (∃ n < 32, (g.th n).st = .held ∧ (g.th n).pc = x)
      ∧ (∀ n < 32, (g.th n).mr = off → ((g.th n).st = .held ∧ (g.th n).pc = x) ∨ (g.th n).st = .exited)
      ∧ (g.join = 0 ∨ g.joinAddr ≠ off) := by
  have h0 : g.heldAt x ≠ 0#32 ↔ ∃ n < 32, (g.th n).st = .held ∧ (g.th n).pc = x :=
    ⟨fun h => let ⟨n, hn, hm⟩ := exists_has h; ⟨n, hn, (mem_heldAt hn).1 hm⟩, fun ⟨_, hn, hm⟩ => has_ne_zero ((mem_heldAt hn).2 hm)⟩
  simp only [Group.met, Bool.and_eq_true, decide_eq_true_eq, h0, List.all_eq_true, List.mem_range, Bool.or_eq_true, and_assoc]
  refine and_congr_right fun _ => and_congr_left fun _ => forall_congr' fun n => forall_congr' fun hn => ?_
  rw [mem_heldAt hn, or_assoc, ← imp_iff_not_or]

theorem mem_meetPoints {g : Group} {e : Word} {x : BitVec 57} : x ∈ g.meetPoints e ↔ g.met x (mrOf e x) = true := by
  rw [Group.meetPoints, List.mem_filter, and_iff_right_iff_imp]
  intro h
  obtain ⟨⟨n, hn, hs, hx⟩, -⟩ := met_iff.1 h
  rw [List.mem_eraseDups, List.mem_filterMap]
  exact ⟨n, List.mem_range.2 hn, by rw [if_pos hs, hx]⟩

/-- A group once its meeting points have been looked at, those at `here` first (R40, R426). -/
def Group.meets (g : Group) (e : Word) (here : Option (BitVec 57)) (t : Nat) : Group :=
  (g.releases ((g.meetPoints e).filter fun x => some x = here) t).releases
    ((g.releases ((g.meetPoints e).filter fun x => some x = here) t).meetPoints e) t

theorem meets_same (g : Group) (e : Word) (here : Option (BitVec 57)) (t : Nat) : SameButMeet g (g.meets e here t) :=
  (releases_same ..).trans (releases_same ..)

theorem meets_none (g : Group) (e : Word) (t : Nat) : g.meets e none t = g.releases (g.meetPoints e) t := by
  have h : ((g.meetPoints e).filter fun x => some x = none) = [] := List.filter_eq_nil_iff.2 fun _ _ => by simp
  rw [Group.meets, h]
  rfl

theorem meets_of_no_points {g : Group} {e : Word} (h : g.meetPoints e = []) (here : Option (BitVec 57)) (t : Nat) : g.meets e here t = g := by
  rw [Group.meets, h, List.filter_nil]
  change g.releases (g.meetPoints e) t = g
  rw [h]
  rfl

/-- A thread that is not held stays. -/
theorem meets_th_of_not_held {g : Group} {n : Nat} (hn : n < 32) (h : (g.th n).st ≠ .held) (e : Word) (here : Option (BitVec 57)) (t : Nat) :
    (g.meets e here t).th n = g.th n := by
  have h1 : (g.releases ((g.meetPoints e).filter fun x => some x = here) t).th n = g.th n := by rw [releases_th _ _ _ hn, if_neg fun hh => h hh.1]
  rw [Group.meets, releases_th _ _ _ hn, h1, if_neg fun hh => h hh.1]

/-- A thread held at a point that is not met stays, when the point at which threads have just arrived is not met. -/
theorem meets_th_of_not_met {g : Group} {e : Word} {x : BitVec 57} {here : Option (BitVec 57)} (hh : here = none ∨ here = some x)
    (h : g.met x (mrOf e x) = false) {n : Nat} (hn : n < 32) (hx : (g.th n).pc = x) (t : Nat) : (g.meets e here t).th n = g.th n := by
  have hx' : x ∉ g.meetPoints e := fun hm => by rw [mem_meetPoints, h] at hm; cases hm
  have h1 : ((g.meetPoints e).filter fun x => some x = here) = [] := List.filter_eq_nil_iff.2 fun y hy => by
    rcases hh with rfl | rfl
    · simp
    · simp only [Option.some.injEq, decide_eq_true_eq]
      rintro rfl
      exact hx' hy
  rw [Group.meets, h1]
  refine (releases_th g (g.meetPoints e) t hn).trans (if_neg fun hm => hx' (hx ▸ hm.2))

/-- A thread held at a point that is met goes on. -/
theorem meets_th_of_met {g : Group} {e : Word} {x : BitVec 57} {here : Option (BitVec 57)} (hh : here = none ∨ here = some x)
    (h : g.met x (mrOf e x) = true) {n : Nat} (hn : n < 32) (hs : (g.th n).st = .held) (hx : (g.th n).pc = x) (t : Nat) :
    (g.meets e here t).th n = (g.th n).goesOn := by
  have hp := mem_meetPoints.2 h
  rcases hh with rfl | rfl
  · rw [meets_none, releases_th _ _ _ hn, if_pos ⟨hs, hx.symm ▸ hp⟩]
  · have h1 : (g.releases ((g.meetPoints e).filter fun y => some y = some x) t).th n = (g.th n).goesOn := by
      rw [releases_th _ _ _ hn, if_pos ⟨hs, List.mem_filter.2 ⟨hx.symm ▸ hp, by simp [hx]⟩⟩]
    rw [Group.meets, releases_th _ _ _ hn, h1, if_neg (by simp [Thread.goesOn])]

/-- A release at the point at which threads have just arrived makes latches and operand cache invalid (R97). -/
theorem meets_invalid {g : Group} {e : Word} {x : BitVec 57} (h : g.met x (mrOf e x) = true) (t : Nat) :
    (g.meets e (some x) t).q = [] ∧ (g.meets e (some x) t).o = [] ∧ (g.meets e (some x) t).hm = 0#4 := by
  refine releases_invalid (.inr (releases_invalid (.inl (List.ne_nil_of_mem (a := x) ?_)) t)) t
  exact List.mem_filter.2 ⟨mem_meetPoints.2 h, by simp⟩

-- the effect

theorem does_meetCheck {s : State} {gid : Nat} {g : Group} (hg : s.groups.find gid = some g) (here : Option (BitVec 57)) :
    s.does (meetCheck gid here) = if (g.meetPoints (s.entryOf g)).isEmpty then s
      else (s.apply (.free (s.free + 1))).apply (.group gid (some (g.meets (s.entryOf g) here (s.now + delay 4 12 s.free)))) := by
  rw [meetCheck, does_on, hg]
  dsimp only
  rw [does_when]
  change (if (!(g.meetPoints (s.entryOf g)).isEmpty) = true then _ else s) = _
  cases (g.meetPoints (s.entryOf g)).isEmpty <;> rfl

/-- The group whose meeting points have been looked at. -/
theorem meetCheck_find {s : State} {gid : Nat} {g : Group} (hg : s.groups.find gid = some g) (here : Option (BitVec 57)) :
    ∃ t, (s.does (meetCheck gid here)).groups.find gid = some (g.meets (s.entryOf g) here t) := by
  rw [does_meetCheck hg]
  refine ⟨s.now + delay 4 12 s.free, ?_⟩
  split
  · rename_i h
    rw [meets_of_no_points (List.isEmpty_iff.1 h), hg]
  · exact find_setO_self ..

theorem issues_meetCheck (gid : Nat) (here : Option (BitVec 57)) : (meetCheck gid here).Only Act.Issues := only_on fun _ => by
  split
  · exact only_skip
  · exact only_when (only_freely (fun _ => trivial) fun _ => only_act trivial)

/-- The other groups stay. -/
theorem meetCheck_find_ne (s : State) {gid k : Nat} (hk : k ≠ gid) (here : Option (BitVec 57)) :
    (s.does (meetCheck gid here)).groups.find k = s.groups.find k := by
  cases hg : s.groups.find gid with
  | none =>
    rw [meetCheck, does_on, hg]
    rfl
  | some g =>
    rw [does_meetCheck hg]
    split
    · rfl
    · exact find_setO_some_ne _ _ hk

end Sys2Proof.Machine
end

section
/-!
SUPPORT. O25: `EXIT` of a group's threads and of a continuation (R37, R45, R383).
-/
namespace Sys2Proof.Machine

theorem leaveTrap_st (g : Group) {n : Nat} (hn : n < 32) : (g.leaveTrap.th n).st = (g.th n).st := by
  unfold Group.leaveTrap
  split
  · rw [th_tab32 (f := fun n => { g.th n with inT := false }) rfl hn]
  · rfl

theorem keeps_retireCheck {β : Type} {q : State → β} (h : ∀ l (s : State), q (s.apply (.agenda l)) = q s) (gid : Nat) : (retireCheck gid).Keeps q :=
  keeps_on fun _ => by
    split
    · exact keeps_when _ fun _ => keeps_soon h _
    · exact keeps_skip q

theorem retireCheck_groups (s : State) (gid : Nat) : (s.does (retireCheck gid)).groups = s.groups := keeps_retireCheck (fun _ _ => rfl) gid s

theorem entryOf_congr {s t : State} {a b : Group} (ht : t.teams = s.teams) (hn : t.nodes = s.nodes) (h : a.team = b.team) :
    t.entryOf a = s.entryOf b := by
  rw [State.entryOf, State.entryOf, ht, hn, h]

/-- Behind the issue itself a change of the issuing group that keeps its team, and the look at its meeting points. -/
theorem issued_meets {s : State} {c : Iss} {i : Instr} (h : s.reaching i = some c) {g : Group} (hg : (s.begun c i).groups.find s.cur = some g)
    (hI : Issued c i g) {f : Group → Group} (hf : (f g).team = g.team) (here : Option (BitVec 57)) :
    ∃ T, (((s.begun c i).does (upGroup c.gid f)).does (meetCheck c.gid here)).groups.find s.cur = some ((f g).meets (s.entryOf c.g) here T) := by
  have hu : ((s.begun c i).does (upGroup s.cur f)).groups.find s.cur = some (f g) := by
    rw [does_upGroup_some _ _ _ _ hg]
    exact find_setO_self ..
  have hsame := begun_sameButIssue h
  have he : ((s.begun c i).does (upGroup s.cur f)).entryOf (f g) = s.entryOf c.g := by
    rw [does_upGroup_some _ _ _ _ hg]
    exact entryOf_congr ((congrArg State.teams hsame).trans rfl) ((congrArg State.nodes hsame).trans rfl) (hf.trans hI.team)
  obtain ⟨T, hT⟩ := meetCheck_find hu here
  rw [gid_of_reaching h]
  exact ⟨T, he ▸ hT⟩

/-- The group at an `EXIT` once its threads have ended (R383). -/
def Iss.exits (c : Iss) (g : Group) : Group := (g.mapTh c.on fun _ th => { th with st := .exited }).leaveTrap

theorem exits_team (c : Iss) (g : Group) : (c.exits g).team = g.team := by
  unfold Iss.exits Group.leaveTrap
  split <;> rfl

theorem exits_st {c : Iss} {i : Instr} {g : Group} (hI : Issued c i g) {n : Nat} (hn : n < 32) :
    ((c.exits g).th n).st = if c.on.has n then .exited else (c.g.th n).st := by
  rw [Iss.exits, leaveTrap_st _ hn, mapTh_th _ _ _ hn, ← hI.st n hn]
  split <;> rfl

/-- An `EXIT` of a group's own threads (R383). -/
theorem exec_exit_group {s : State} {c : Iss} {h : Head} (hs : s.issuing (.exit h) = some c) (ha : acts c (.exit h) = true) (hc : c.g.cont = none) :
    exec (.exit h) s = .next ((s.begun c (.exit h)).does (seqs [upGroup c.gid c.exits, meetCheck c.gid none, retireCheck c.gid])) := by
  refine issue_done hs ha ?_
  rw [if_neg (by simp [hc])]
  rfl

/-- An `EXIT` of a continuation (R37). -/
theorem exec_exit_cont {s : State} {c : Iss} {h : Head} (hs : s.issuing (.exit h) = some c) (ha : acts c (.exit h) = true)
    (hc : c.g.cont.isSome = true) : exec (.exit h) s = .next ((s.begun c (.exit h)).does (contEnds c.gid .exited (c.pc + 12))) := by
  refine issue_done hs ha ?_
  rw [if_pos hc]

theorem exit_group {s : State} {c : Iss} {h : Head} (hs : s.issuing (.exit h) = some c) (ha : acts c (.exit h) = true) (hc : c.g.cont = none) :
    ∃ t g, exec (.exit h) s = .next t ∧ t.groups.find s.cur = some g ∧ (∀ n < 32, Mask.has c.on n = true → (g.th n).st = .exited)
      ∧ ∀ n < 32, Mask.has c.on n = false → (c.g.th n).st = .run → (g.th n).st = .run := by
  have hr := (issuing_iff.1 hs).1
  obtain ⟨g, hg, hI⟩ := begun_issued hr
  obtain ⟨T, hT⟩ := issued_meets hr hg hI (exits_team c g) none
  have hst {n : Nat} (hn : n < 32) (hh : ((c.exits g).th n).st ≠ .held) :
      (((c.exits g).meets (s.entryOf c.g) none T).th n).st = if c.on.has n then .exited else (c.g.th n).st := by
    rw [meets_th_of_not_held hn hh, exits_st hI hn]
  refine ⟨_, (c.exits g).meets (s.entryOf c.g) none T, exec_exit_group hs ha hc, ?_, fun n hn ho => ?_, fun n hn ho hrun => ?_⟩
  · rw [does_seqs_cons, does_seqs_cons, does_seqs_cons, does_seqs_nil, retireCheck_groups]
    exact hT
  · rw [hst hn (by rw [exits_st hI hn, if_pos ho]; decide), if_pos ho]
  · have ho : ¬ c.on.has n = true := by simp [ho]
    rw [hst hn (by rw [exits_st hI hn, if_neg ho, hrun]; decide), if_neg ho, hrun]

theorem rejoin_th (g k : Group) (ln : Nat) (st : TState) (pc : BitVec 57) {n : Nat} (hn : n < 32) : (g.rejoin k ln st pc).th n
    = if n = ln then { k.th ln with st := st, pc := pc, inT := false, age := 0 } else g.th n :=
  th_tab32 (g := g.rejoin k ln st pc)
    (f := fun n => if n = ln then ({ k.th ln with st := st, pc := pc, inT := false, age := 0 } : Thread) else g.th n) rfl hn

/-- A continuation that ends leaves its thread with its group, in the state in which it ends, and is gone (R37). -/
theorem contEnds_exited {s : State} (hi : s.Inv) {k p ln : Nat} {x g : Group} {pc : BitVec 57} (hx : s.groups.find k = some x) (hc : x.cont = some (p, ln))
    (hp : p ≠ k) (hg : s.groups.find p = some g) : (s.does (contEnds k .exited pc)).groups.find k = none
      ∧ ∃ g', (s.does (contEnds k .exited pc)).groups.find p = some g' ∧ (ln < 32 → (g'.th ln).st = .exited) := by
  let g1 := (g.upTo s.now).rejoin (x.upTo (s.now + 64)) ln .exited pc
  let u := (s.apply (.group p (some g1))).apply (.group k none)
  have hu : s.does (contEnds k .exited pc) = (u.does (meetCheck p none)).does (retireCheck p) := by
    rw [contEnds, does_on, hx]
    dsimp only
    rw [hc]
    dsimp only
    rw [does_seqs_cons, does_seqs_cons, does_seqs_cons, does_seqs_cons, does_seqs_nil, does_upGroup_some _ _ _ _ hg]
    rfl
  have hwf := (apply_keeps_inv hi (.group p (some g1))).groups
  have hk : u.groups.find k = none := find_setO_none _ _ hwf
  have hp1 : u.groups.find p = some g1 := (find_setO_ne _ none hwf hp).trans (find_setO_self ..)
  obtain ⟨T, hm⟩ := meetCheck_find hp1 none
  rw [hu, retireCheck_groups]
  refine ⟨(meetCheck_find_ne u hp.symm none).trans hk, _, hm, fun hn => ?_⟩
  have he : (g1.th ln).st = .exited := by rw [rejoin_th _ _ _ _ _ hn, if_pos rfl]
  rw [meets_th_of_not_held hn (by rw [he]; decide), he]

/-- The issue itself ends no group and begins none. -/
theorem begun_find_isSome {s : State} {c : Iss} {i : Instr} (h : s.reaching i = some c) {k : Nat} (hk : (s.groups.find k).isSome = true) :
    ((s.begun c i).groups.find k).isSome = true := by
  obtain ⟨g, -, he⟩ := begun_eq h
  rw [he]
  refine stays_when _ (stays_upRod _ _) _ _ (stays_onSome _ (fun p => stays_when _ (stays_upGroup _ _)) _ _ ?_)
  exact stays_group s.cur g (s.apply (.free (s.free + 1))) k hk

theorem begun_inv {s : State} {c : Iss} {i : Instr} (h : s.reaching i = some c) (hi : s.Inv) : (s.begun c i).Inv := by
  obtain ⟨g, -, he⟩ := begun_eq h
  rw [he]
  exact does_inv (does_inv (apply_keeps_inv (apply_keeps_inv hi _) _) _) _

/-- Settles O25: a group's threads end and no meeting point wakes them; a continuation's thread goes back to its group. -/
theorem exitEndsThreads : Obligations.ExitEndsThreads := by
  unfold Obligations.ExitEndsThreads
  intro s c h hs ha
  refine ⟨exit_group hs ha, fun p ln hc hp hi hg => ?_⟩
  have hr := (issuing_iff.1 hs).1
  obtain ⟨x, hx, hI⟩ := begun_issued hr
  obtain ⟨g, hg⟩ := Option.isSome_iff_exists.1 (begun_find_isSome hr (Option.isSome_iff_exists.2 hg))
  refine ⟨_, exec_exit_cont hs ha (by rw [hc]; rfl), ?_⟩
  rw [gid_of_reaching hr]
  exact contEnds_exited (begun_inv hr hi) hx (hI.cont.trans hc) hp hg

end Sys2Proof.Machine
end

section
/-!
SUPPORT. O24: `MEET` holds its threads and releases them (R39, R40, R425, R426).
-/
namespace Sys2Proof.Machine

/-- No operand that is consumed is poisoned, and with `gd` no guard: the instruction goes on. -/
theorem consuming_clean {c : Iss} {s : State} {i : Instr} (h : Clean c i) (slots : List Nat) (gd : Bool) (k : Res) : consuming c s i slots gd k = k := by
  obtain ⟨hu, hg⟩ := h
  have hp : c.poisoned i slots = none := by
    refine List.findSome?_eq_none_iff.2 fun u hm => List.findSome?_eq_none_iff.2 fun n hn => ?_
    obtain ⟨hn, ho⟩ := mask_mem_lanes.1 hn
    rw [hu u (List.mem_of_mem_filter hm) n hn ho]
    rfl
  have hgp : c.guardPoisoned = none := List.findSome?_eq_none_iff.2 fun n hn => by
    obtain ⟨hn, ha⟩ := mask_mem_lanes.1 hn
    rw [hg n hn ha]
    rfl
  unfold consuming
  rw [hp, hgp]
  cases gd <;> rfl

/-- The threads that a `MEET` holds: Active, guard-true ones whose `MR` names it (R39). -/
def Iss.meeting (c : Iss) (x : Word) : Mask := Mask.of fun n => Mask.has c.on n && (c.g.th n).mr = x

/-- The group at a `MEET` once its threads are held, with the `MR` that FA supplies. -/
def Iss.holdsAt (c : Iss) (x : Word) (a : Src) (g : Group) : Group :=
  g.mapTh (c.meeting x) fun n th => { th with st := .held, pc := c.pc, nmr := (lane (c.src 1 a) n).val }

theorem landed_entryOf {s : State} {c : Iss} {i : Instr} (h : s.reaching i = some c) (g : Group) : s.landed.entryOf g = s.entryOf g := by
  obtain ⟨g0, _, hg, -⟩ := reaching_iff.1 h
  rw [landed_eq (issuer_eq hg)]
  rfl

theorem exec_meet {s : State} {c : Iss} {h : Head} {a : Src} (hs : s.issuing (.meet h a) = some c) (ha : acts c (.meet h a) = true)
    (hcl : Clean c (.meet h a)) (hc : c.g.cont = none) :
    exec (.meet h a) s = .next (((s.begun c (.meet h a)).does (upGroup c.gid (c.holdsAt (mrOf (s.entryOf c.g) c.pc) a))).does
      (meetCheck c.gid (some c.pc))) := by
  refine issue_done hs ha (e := andThen _ _) ((consuming_clean hcl _ _ _).trans ?_) |>.trans (congrArg _ (does_andThen ..))
  rw [landed_entryOf (issuing_iff.1 hs).1]
  dsimp only
  rw [if_neg (by simp [hc])]
  rfl

/-- The threads at a `MEET` once they are held: those whose `MR` names it, and no other (R39). -/
theorem holdsAt_th {c : Iss} {i : Instr} {g : Group} (hI : Issued c i g) (x : Word) (a : Src) {n : Nat} (hn : n < 32) :
    (Mask.has (c.meeting x) n = true → ((c.holdsAt x a g).th n).st = .held ∧ ((c.holdsAt x a g).th n).pc = c.pc
        ∧ ((c.holdsAt x a g).th n).nmr = (lane (c.src 1 a) n).val)
      ∧ (Mask.has (c.meeting x) n = false → ((c.holdsAt x a g).th n).st = (c.g.th n).st)
      ∧ ((c.holdsAt x a g).th n).mr = (c.g.th n).mr := by
  rw [Iss.holdsAt, mapTh_th _ _ _ hn, ← hI.mr n hn, ← hI.st n hn]
  cases Mask.has (c.meeting x) n <;> simp

/-- R40: the point at which threads arrive is not met while another thread that runs has its `MR` value. -/
theorem holdsAt_not_met {c : Iss} {i : Instr} {g : Group} (hI : Issued c i g) {x : Word} (a : Src) {k : Nat} (hk : k < 32)
    (hm : Mask.has (c.meeting x) k = false) (hr : (c.g.th k).st = .run) (hx : (c.g.th k).mr = x) : (c.holdsAt x a g).met c.pc x = false := by
  obtain ⟨-, hst, hmr⟩ := holdsAt_th hI x a hk
  have hrun : ((c.holdsAt x a g).th k).st = .run := (hst hm).trans hr
  refine Bool.eq_false_iff.2 fun hmet => ?_
  obtain ⟨-, hall, -⟩ := met_iff.1 hmet
  rcases hall k hk (hmr.trans hx) with h | h
  · rw [hrun] at h; cases h.1
  · rw [hrun] at h; cases h

/-- R40: it is met once no other thread has its `MR` value and no continuation is out. -/
theorem holdsAt_met {c : Iss} {i : Instr} {g : Group} (hI : Issued c i g) {x : Word} (a : Src) (hm : c.meeting x ≠ 0#32) (hj : c.g.join = 0)
    (ho : ∀ n < 32, Mask.has (c.meeting x) n = false → (c.g.th n).st = .exited ∨ (c.g.th n).mr ≠ x) : (c.holdsAt x a g).met c.pc x = true := by
  obtain ⟨k, hk, hkm⟩ := exists_has hm
  obtain ⟨hst, hpc, -⟩ := (holdsAt_th hI x a hk).1 hkm
  refine met_iff.2 ⟨⟨k, hk, hst, hpc⟩, fun n hn hx => ?_, .inl (hI.join.trans hj)⟩
  obtain ⟨hheld, hst, hmr⟩ := holdsAt_th hI x a hn
  cases hb : Mask.has (c.meeting x) n with
  | true => exact .inl ⟨(hheld hb).1, (hheld hb).2.1⟩
  | false => exact .inr ((hst hb).trans ((ho n hn hb).resolve_right fun h => h (hmr.symm.trans hx)))

/-- Settles O24: whether the point at which the threads arrive is met turns on the threads that do not arrive with them. -/
theorem meetHoldsAndReleases : Obligations.MeetHoldsAndReleases := by
  unfold Obligations.MeetHoldsAndReleases
  intro s c h a x m hs ha hcl hc
  have hr := (issuing_iff.1 hs).1
  obtain ⟨g, hg, hI⟩ := begun_issued hr
  obtain ⟨T, hT⟩ := issued_meets (f := c.holdsAt x a) hr hg hI rfl (some c.pc)
  refine ⟨fun ⟨k, hk, hkm, hkr, hkx⟩ => ⟨_, _, exec_meet hs ha hcl hc, hT, fun n hn hm => ?_⟩,
    fun hm0 hj hothers => ⟨_, _, exec_meet hs ha hcl hc, hT, ?_⟩⟩
  · obtain ⟨hst, hpc, hnmr⟩ := (holdsAt_th hI x a hn).1 hm
    rw [meets_th_of_not_met (.inr rfl) (holdsAt_not_met hI a hk hkm hkr hkx) hn hpc]
    exact ⟨hst, hpc, hnmr⟩
  · have hmet := holdsAt_met hI a hm0 hj fun n hn hb => (hothers n hn hb).imp id fun h => h.1
    obtain ⟨hq, ho, hhm⟩ := meets_invalid hmet T
    refine ⟨hq, ho, hhm, fun n hn hm => ?_⟩
    obtain ⟨hst, hpc, hnmr⟩ := (holdsAt_th hI x a hn).1 hm
    rw [meets_th_of_met (.inr rfl) hmet hn hst hpc]
    exact ⟨rfl, congrArg (· + 12#57) hpc, hnmr⟩

end Sys2Proof.Machine
end

section
/-!
SUPPORT. Relations that an effect keeps between the state before it and the state behind it: what every part relates, the whole relates.
-/
namespace Sys2Proof.Machine

/-- A relation on states that a chain of steps keeps. -/
structure Chains (R : State → State → Prop) : Prop where
  refl : ∀ s, R s s
  trans : ∀ {s t u}, R s t → R t u → R s u

/-- The state that an effect leaves is related to the one that it finds. -/
structure Eff.Within (R : State → State → Prop) (e : Eff) : Prop where
  rel : ∀ s, R s (s.does e)

section Within
variable {R : State → State → Prop} (hR : Chains R)
include hR

theorem within_skip : skip.Within R := ⟨fun s => hR.refl s⟩

theorem within_andThen {a b : Eff} (ha : a.Within R) (hb : b.Within R) : (andThen a b).Within R :=
  ⟨fun s => by rw [does_andThen]; exact hR.trans (ha.rel s) (hb.rel _)⟩

theorem within_seqs {l : List Eff} (h : ∀ e ∈ l, e.Within R) : (seqs l).Within R := by
  induction l with
  | nil => exact within_skip hR
  | cons a l ih => exact within_andThen hR (h a List.mem_cons_self) (ih fun e he => h e (List.mem_cons_of_mem _ he))

theorem within_each {α : Type} {l : List α} {f : α → Eff} (h : ∀ a ∈ l, (f a).Within R) : (each l f).Within R := by
  refine within_seqs hR fun e he => ?_
  obtain ⟨a, ha, rfl⟩ := List.mem_map.1 he
  exact h a ha

theorem within_when {b : Bool} {e : Eff} (h : b = true → e.Within R) : (when b e).Within R := by
  cases b
  · exact within_skip hR
  · exact h rfl

theorem within_onSome {α : Type} {o : Option α} {f : α → Eff} (h : ∀ a, (f a).Within R) : (onSome o f).Within R := by
  cases o with
  | none => exact within_skip hR
  | some a => exact h a

theorem within_freely {f : Nat → Eff} (h0 : ∀ (s : State) n, R s (s.apply (.free n))) (h : ∀ n, (f n).Within R) : (freely f).Within R :=
  ⟨fun s => by rw [does_freely]; exact hR.trans (h0 s _) ((h _).rel _)⟩

theorem within_fresh {f : Nat → Eff} (h0 : ∀ (s : State) n, R s (s.apply (.ids n))) (h : ∀ n, (f n).Within R) : (fresh f).Within R :=
  ⟨fun s => by rw [does_fresh]; exact hR.trans (h0 s _) ((h _).rel _)⟩

end Within

/-- An effect and the one behind it, in one state. -/
theorem Chains.andThen {R : State → State → Prop} (hR : Chains R) {s : State} {a b : Eff} (ha : R s (s.does a)) (hb : R (s.does a) ((s.does a).does b)) :
    R s (s.does (andThen a b)) := by
  rw [does_andThen]
  exact hR.trans ha hb

theorem within_on {R : State → State → Prop} {f : State → Eff} (h : ∀ s, R s (s.does (f s))) : (on f).Within R := ⟨h⟩

theorem within_act {R : State → State → Prop} {a : Act} (h : ∀ s, R s (s.apply a)) : (act a).Within R := ⟨h⟩

end Sys2Proof.Machine
end

section
/-!
SUPPORT. O23: `BRD` (R31, R32, R357, R358): the threads that it moves, the destination that it sends, and the threads that it ejects.
-/
namespace Sys2Proof.Machine

-- results that join a group's results in flight

/-- What results on their way change of a group: its results in flight, its rewind log, and the clock of its next issue. -/
def SameButFlight (a b : Group) : Prop := b = { a with pend := b.pend, past := b.past, ready := b.ready }

theorem SameButFlight.trans {a b c : Group} (h : SameButFlight a b) (k : SameButFlight b c) : SameButFlight a c := by
  unfold SameButFlight at h k ⊢
  rw [h] at k
  exact k

/-- In every group only results in flight have changed, and no group has gone. -/
def FlightOnly (s t : State) : Prop := ∀ k a, s.groups.find k = some a → ∃ b, t.groups.find k = some b ∧ SameButFlight a b

theorem flightOnly_chains : Chains FlightOnly where
  refl _ _ a h := ⟨a, h, rfl⟩
  trans h k n a ha :=
    let ⟨_, hb, hab⟩ := h n a ha
    let ⟨c, hc, hbc⟩ := k n _ hb
    ⟨c, hc, hab.trans hbc⟩

theorem flightOnly_of_groups {s t : State} (h : t.groups = s.groups) : FlightOnly s t := fun k a ha => ⟨a, by rw [h]; exact ha, rfl⟩

theorem flight_upGroup (n : Nat) {f : Group → Group} (hf : ∀ g, SameButFlight g (f g)) : (upGroup n f).Within FlightOnly := ⟨fun s k a ha => by
  cases hn : s.groups.find n with
  | none => rw [does_upGroup_none _ _ _ hn]; exact ⟨a, ha, rfl⟩
  | some g =>
    rw [does_upGroup_some _ _ _ _ hn, apply_groups]
    by_cases hk : k = n
    · subst hk
      rw [hn] at ha
      cases ha
      exact ⟨f a, find_setO_self .., hf a⟩
    · exact ⟨a, (find_setO_some_ne _ _ hk).trans ha, rfl⟩⟩

theorem flight_upRod (n : Nat) (f : Rod → Rod) : (upRod n f).Within FlightOnly := ⟨fun s => flightOnly_of_groups (upRod_groups s n f)⟩

theorem flight_settleRets (key : Nat) : (settleRets key).Within FlightOnly :=
  have hR := flightOnly_chains
  have hmove (p : Ret × Ret) : (on fun s => each s.groups fun kv => when (kv.1 = p.1.dest || kv.2.cont.map Prod.fst = some p.1.dest)
      (upGroup kv.1 fun g => g.moveRet p.1 p.2)).Within FlightOnly :=
    within_on fun t => (within_each hR fun kv _ => within_when hR fun _ => flight_upGroup kv.1 (f := fun g => g.moveRet p.1 p.2) fun _ => rfl).rel t
  within_on fun s => (within_onSome hR fun _ => within_when hR fun _ => within_andThen hR (within_act fun _ => flightOnly_of_groups rfl) <|
    within_andThen hR (within_each hR fun p _ => within_when hR fun _ => hmove p) (within_skip hR)).rel s

/-- A result of fixed latency that is sent changes no group but in its results in flight (R73, R107). -/
theorem flight_putG (c : Iss) (i : Instr) (useGuard : Bool) (f : Nat → LaneOut) : (c.putG i useGuard f).Within FlightOnly := by
  have hR := flightOnly_chains
  have hflags (L : Nat) (b : BitVec 6) : (c.flagsUp L b).Within FlightOnly := within_onSome hR fun _ => flight_upGroup _ fun _ => rfl
  unfold Iss.putG
  cases i.dst? with
  | none => exact within_skip hR
  | some u =>
    dsimp only
    split
    · exact within_andThen hR (within_when hR fun _ => within_andThen hR (flight_upRod ..) (flight_settleRets _)) <|
        within_andThen hR (hflags ..) <| within_andThen hR (flight_upGroup _ fun _ => rfl) (within_skip hR)
    · exact within_freely hR (fun _ _ => flightOnly_of_groups rfl) fun _ => within_andThen hR (hflags ..) (flight_upGroup _ fun _ => rfl)

theorem issues_putG (c : Iss) (i : Instr) (useGuard : Bool) (f : Nat → LaneOut) : (c.putG i useGuard f).Only Act.Issues := by
  have hsettle (key : Nat) : (settleRets key).Only Act.Issues := only_on fun _ => only_onSome fun _ => only_when <|
    only_andThen (only_act trivial) <| only_andThen (only_each fun _ => only_when <| only_on fun _ => only_each fun _ => only_when (issues_upGroup ..)) only_skip
  have hflags (L : Nat) (b : BitVec 6) : (c.flagsUp L b).Only Act.Issues := only_onSome fun _ => issues_upGroup ..
  unfold Iss.putG
  cases i.dst? with
  | none => exact only_skip
  | some u =>
    dsimp only
    split
    · exact only_andThen (only_when (only_andThen (issues_upRod ..) (hsettle _))) <| only_andThen (hflags ..) <|
        only_andThen (issues_upGroup ..) only_skip
    · exact only_freely (fun _ => trivial) fun _ => only_andThen (hflags ..) (issues_upGroup ..)

-- the branch

/-- The threads of a `BRD` that do not branch. -/
def Iss.notTaken (c : Iss) : Mask := c.act &&& ~~~ c.on

/-- The minority of a `BRD` (R32). -/
def Iss.minority (c : Iss) : Mask := if countOf c.notTaken ≤ countOf c.on then c.notTaken else c.on

/-- Whether a `BRD` with meeting point `x` ejects its minority in the state `s` (R32). -/
def Iss.ejects (c : Iss) (s : State) (x : Word) : Bool :=
  c.on ≠ 0#32 && c.notTaken ≠ 0#32 && countOf c.minority ≤ c.g.csr.ejth && ejectOk s c.g (countOf c.minority) x

/-- Where a thread goes at a `BRD` (R31). -/
def Iss.brdPc (c : Iss) (off : BitVec 24) (n : Nat) : BitVec 57 := if c.on.has n then c.pc + off.signExtend 57 * 12#57 else c.pc + 12#57

/-- The group at a `BRD` once its threads have moved (R31). -/
def Iss.branches (c : Iss) (x : Word) (off : BitVec 24) (g : Group) : Group := g.mapTh c.act fun n th => { th with mr := x, pc := c.brdPc off n }

/-- The issue of a `BRD` as the one that sends its old `MR` values: from every Active lane, whatever its guard (R358). -/
def Iss.sendsMr (c : Iss) : Iss := { c with on := c.act, gpoi := [] }

/-- What a `BRD` does before it ejects threads: they move, their old `MR` goes to D, and those that branch go on 4 clocks later. -/
def brdMoves (c : Iss) (i : Instr) (x : Word) (off : BitVec 24) (ejects : Bool) : Eff :=
  seqs [upGroup c.gid (c.branches x off), c.sendsMr.put i fun n => out32 (c.g.th n).mr none,
    when ((if ejects then c.on &&& ~~~ c.minority else c.on) ≠ 0#32) (upGroup c.gid fun g => { g with ready := max g.ready (c.t + 4) })]

/-- What a `BRD` does then: the ejection, and the look at the meeting points. -/
def brdEnds (c : Iss) (x : Word) (ejects : Bool) : Eff :=
  seqs [when ejects (ejectAll c.gid c.minority x),
    match c.g.cont with
    | some p => andThen (upGroup p.1 fun g => g.mapTh (1#32 <<< p.2) fun _ th => { th with mr := x }) (meetCheck p.1 none)
    | none => meetCheck c.gid none]

theorem exec_brd {s : State} {c : Iss} {h : Head} {d : Dst} {meet : BitVec 12} {off : BitVec 24} (hs : s.issuing (.brd h d meet off) = some c)
    (hcl : Clean c (.brd h d meet off)) {x : Word} (hx : x = mrOf (s.entryOf c.g) (c.pc + meet.signExtend 57 * 12#57)) :
    exec (.brd h d meet off) s = .next (((s.begun c (.brd h d meet off)).does
      (brdMoves c (.brd h d meet off) x off (c.ejects s.landed x))).does (brdEnds c x (c.ejects s.landed x))) := by
  have hrun (t : State) (a b e f g : Eff) : t.does (seqs [a, b, e, f, g]) = (t.does (seqs [a, b, e])).does (seqs [f, g]) :=
    does_seqs_append t [a, b, e] [f, g]
  rw [brdMoves, brdEnds, ← hrun]
  refine issue_done hs (acts_fixed rfl) ((consuming_clean hcl _ _ _).trans ?_)
  rw [landed_entryOf (issuing_iff.1 hs).1, hx]
  rfl

theorem sameButFlight_regs {c : Iss} {a b : Group} (h : SameRegs c.g a) (hab : SameButFlight a b) : SameRegs c.g b := by
  rw [hab]
  exact ⟨h.v, h.s, h.c, h.f, h.q⟩

/-- The group of a `BRD` behind the moves of its threads: the others are where they were. -/
structure Moved (c : Iss) (x : Word) (off : BitVec 24) (g : Group) : Prop where
  regs : SameRegs c.g g
  st : ∀ n < 32, (g.th n).st = (c.g.th n).st
  nmr : ∀ n < 32, (g.th n).nmr = (c.g.th n).nmr
  mr : ∀ n < 32, (g.th n).mr = if c.act.has n then x else (c.g.th n).mr
  pc : ∀ n < 32, (g.th n).pc = if c.act.has n then c.brdPc off n else (c.g.th n).pc
  join : g.join = c.g.join
  joinAddr : g.joinAddr = c.g.joinAddr
  team : g.team = c.g.team

theorem branches_moved {c : Iss} {i : Instr} {g : Group} (hI : Issued c i g) (x : Word) (off : BitVec 24) : Moved c x off (c.branches x off g) := by
  have hth {n : Nat} (hn : n < 32) := mapTh_th g c.act (fun n th => { th with mr := x, pc := c.brdPc off n }) hn
  refine ⟨⟨hI.regs.v, hI.regs.s, hI.regs.c, hI.regs.f, hI.regs.q⟩, fun n hn => ?_, fun n hn => ?_, fun n hn => ?_, fun n hn => ?_, hI.join, hI.joinAddr,
    hI.team⟩
  · rw [← hI.st n hn, Iss.branches, hth hn]; split <;> rfl
  · rw [← hI.nmr n hn, Iss.branches, hth hn]; split <;> rfl
  · rw [← hI.mr n hn, Iss.branches, hth hn]; split <;> rfl
  · have hpc := hI.pc n hn
    rw [Iss.branches, hth hn]
    split
    · rfl
    · rename_i h
      rw [hpc, if_neg h]

theorem Moved.flight {c : Iss} {x : Word} {off : BitVec 24} {a b : Group} (h : Moved c x off a) (hab : SameButFlight a b) : Moved c x off b := by
  have hth (n : Nat) : b.th n = a.th n := by rw [hab]; rfl
  exact ⟨sameButFlight_regs h.regs hab, fun n hn => by rw [hth, h.st n hn], fun n hn => by rw [hth, h.nmr n hn], fun n hn => by rw [hth, h.mr n hn],
    fun n hn => by rw [hth, h.pc n hn], (congrArg Group.join hab).trans h.join, (congrArg Group.joinAddr hab).trans h.joinAddr,
    (congrArg Group.team hab).trans h.team⟩

/-- The old `MR` values are on their way to D (R31, R358). -/
def MrOnItsWay (c : Iss) (d : Dst) (g : Group) : Prop :=
  d.nwb = false → ∃ L y, c.t < L ∧ (⟨L, .wv d.idx.toNat c.act y⟩ : Pend) ∈ g.pend ∧ ∀ n < 32, Mask.has c.act n = true → lane y n = ⟨(c.g.th n).mr, false⟩

/-- The destination of a legal `BRD` is a vector register, or `_`. -/
theorem brd_vecResult {s : State} {c : Iss} {h : Head} {d : Dst} {meet : BitVec 12} {off : BitVec 24} (hr : s.reaching (.brd h d meet off) = some c) :
    (Instr.brd h d meet off).vecResult = true := by
  obtain ⟨_, _, _, _, hG, _⟩ := reaching_iff.1 hr
  have hl := hG.legal
  simp only [Instr.legal, Instr.head, Bool.and_eq_true, Instr.dst?, Option.all_some, DstUse.legal] at hl
  obtain ⟨⟨⟨-, hdst⟩, -⟩, -⟩ := hl
  have hcls : d.cls = .v := by
    split at hdst
    · simp only [Bool.and_eq_true, decide_eq_true_eq] at hdst
      exact hdst.1.1
    · simp only [Bool.and_eq_true, List.contains_iff_mem, List.mem_singleton] at hdst
      exact hdst.1
  simp [Instr.vecResult, Instr.dst?, hcls]

theorem mrOnItsWay_of_sends {c : Iss} {h : Head} {d : Dst} {meet : BitVec 12} {off : BitVec 24} {t : State} {g : Group}
    (hv : (Instr.brd h d meet off).vecResult = true) (hg : t.groups.find c.gid = some g)
    (hs : Sends t c.sendsMr (.brd h d meet off) fun n => c.sendsMr.guarded (out32 (c.g.th n).mr none) n) : MrOnItsWay c d g := by
  obtain ⟨u, g', L, hu, hg', hL, hlands, -⟩ := hs
  cases hu
  obtain rfl : g = g' := Option.some.inj (hg.symm.trans hg')
  intro hd
  obtain ⟨y, hy, hlane⟩ := hlands.2.1 hd hv 0 Nat.one_pos
  exact ⟨L + 2, y, Nat.lt_of_lt_of_le hL (Nat.le_add_right _ _), hy, fun n hn hact => hlane n hact hn⟩

/-- Behind its moves the group of a `BRD` is there, with its threads moved and the old `MR` values on their way. -/
theorem brdMoves_find {s : State} {c : Iss} {h : Head} {d : Dst} {meet : BitVec 12} {off : BitVec 24} (hr : s.reaching (.brd h d meet off) = some c)
    (x : Word) (ejects : Bool) : ∃ g, ((s.begun c (.brd h d meet off)).does (brdMoves c (.brd h d meet off) x off ejects)).groups.find s.cur = some g
      ∧ Moved c x off g ∧ MrOnItsWay c d g := by
  obtain ⟨g, hg, hI⟩ := begun_issued hr
  rw [← gid_of_reaching hr] at hg ⊢
  rw [brdMoves, does_seqs_cons, does_seqs_cons, does_seqs_cons, does_seqs_nil, does_upGroup_some _ _ _ _ hg]
  generalize ht : (s.begun c (.brd h d meet off)).apply (.group c.gid (some (c.branches x off g))) = t
  have h1 : t.groups.find c.gid = some (c.branches x off g) := by rw [← ht]; exact find_setO_self ..
  obtain ⟨g2, h2, hf⟩ := (flight_putG c.sendsMr (.brd h d meet off) true fun n => out32 (c.g.th n).mr none).rel t _ _ h1
  have hm := (branches_moved hI x off).flight hf
  have hcoll : c.t < c.coll := coll_of_reaching hr
  have hw := mrOnItsWay_of_sends (brd_vecResult hr) h2 (putG_sends (c := c.sendsMr) (i := .brd h d meet off) (useGuard := true) rfl h1
    (show c.sendsMr.t < c.sendsMr.coll from hcoll))
  cases hb : decide ((if ejects then c.on &&& ~~~ c.minority else c.on) ≠ 0#32) with
  | false =>
    rw [does_when, if_neg Bool.false_ne_true]
    exact ⟨g2, h2, hm, hw⟩
  | true =>
    rw [does_when, if_pos rfl, Iss.put, does_upGroup_some _ _ _ _ h2]
    exact ⟨{ g2 with ready := max g2.ready (c.t + 4) }, find_setO_self .., hm.flight rfl, hw⟩

theorem brdMoves_sameButIssue {s : State} {c : Iss} {h : Head} {d : Dst} {meet : BitVec 12} {off : BitVec 24} (hr : s.reaching (.brd h d meet off) = some c)
    (x : Word) (ejects : Bool) : SameButIssue s ((s.begun c (.brd h d meet off)).does (brdMoves c (.brd h d meet off) x off ejects)) :=
  (only_andThen (issues_upGroup ..) <| only_andThen (issues_putG ..) <| only_andThen (only_when (issues_upGroup ..)) only_skip).sameButIssue
    (begun_sameButIssue hr)

-- without ejection

theorem ejects_of_ejth_zero {c : Iss} (h : c.g.csr.ejth = 0) (s : State) (x : Word) : c.ejects s x = false := by
  simp [Iss.ejects, ejectOk, h]

theorem meetPoints_of_none_held {g : Group} (h : ∀ n < 32, (g.th n).st ≠ .held) (e : Word) : g.meetPoints e = [] :=
  List.eq_nil_iff_forall_not_mem.2 fun _ hx => let ⟨⟨n, hn, hs, _⟩, _⟩ := met_iff.1 (mem_meetPoints.1 hx); h n hn hs

/-- What a `BRD` that ejects no thread leaves of its own group: that whose meeting points have been looked at, or, of a continuation, the
group as it was. -/
theorem brdEnds_find {t : State} {c : Iss} {g : Group} (hg : t.groups.find c.gid = some g) (x : Word) (hc : ∀ p, c.g.cont = some p → p.1 ≠ c.gid) :
    ∃ T, (t.does (brdEnds c x false)).groups.find c.gid = some (if c.g.cont.isSome then g else g.meets (t.entryOf g) none T) := by
  rw [brdEnds, does_seqs_cons, does_seqs_cons, does_seqs_nil, does_when, if_neg Bool.false_ne_true]
  cases hcont : c.g.cont with
  | none => exact meetCheck_find hg none
  | some p =>
    have hp := hc p hcont
    dsimp only
    rw [does_andThen, meetCheck_find_ne _ (Ne.symm hp)]
    refine ⟨0, ?_⟩
    cases hx : t.groups.find p.1 with
    | none => rw [does_upGroup_none _ _ _ hx]; exact hg
    | some y => rw [does_upGroup_some _ _ _ _ hx]; exact (find_setO_some_ne _ _ (Ne.symm hp)).trans hg

theorem act_run {s : State} {c : Iss} {i : Instr} (h : s.reaching i = some c) {n : Nat} (hn : n < 32) (ha : Mask.has c.act n = true) :
    (c.g.th n).st = .run := by
  obtain ⟨g0, pc, -, -, -, rfl⟩ := reaching_iff.1 h
  have hth : (issOf s s.cur (g0.upTo s.now) i pc ((g0.upTo s.now).atPc pc)).g.th n = (g0.upTo s.now).th n := by
    simp only [issOf]
    split <;> rfl
  rw [hth]
  exact run_of_atPc hn ha

theorem on_act {s : State} {c : Iss} {i : Instr} (h : s.reaching i = some c) {n : Nat} (ho : Mask.has c.on n = true) : Mask.has c.act n = true := by
  obtain ⟨g0, pc, -, -, -, rfl⟩ := reaching_iff.1 h
  simp only [issOf] at ho ⊢
  split at ho
  · exact (Bool.and_eq_true_iff.1 ((BitVec.getLsbD_and ..).symm.trans ho)).1
  · exact (Bool.and_eq_true_iff.1 ((BitVec.getLsbD_and ..).symm.trans ho)).1

theorem thread_eq {a : Thread} {m : Word} {st : TState} {pc : BitVec 57} (hm : a.mr = m) (hs : a.st = st) (hp : a.pc = pc) :
    a = { a with mr := m, st := st, pc := pc } := by
  subst hm hs hp
  rfl

/-- The look at the meeting points changes neither the results in flight nor the join counter. -/
theorem meets_kept (g : Group) (e : Word) (o : Option (BitVec 57)) (T : Nat) :
    (g.meets e o T).pend = g.pend ∧ (g.meets e o T).join = g.join ∧ (g.meets e o T).joinAddr = g.joinAddr := by
  have h := meets_same g e o T
  unfold SameButMeet at h
  exact ⟨(congrArg Group.pend h).trans rfl, (congrArg Group.join h).trans rfl, (congrArg Group.joinAddr h).trans rfl⟩

section Brd
variable {s : State} {c : Iss} {h : Head} {d : Dst} {meet : BitVec 12} {off : BitVec 24} {x : Word}

/-- A `BRD` with `EJTH` 0 (R31, R357, R358). -/
theorem brd_moves (hs : s.issuing (.brd h d meet off) = some c) (hcl : Clean c (.brd h d meet off))
    (hx : x = mrOf (s.entryOf c.g) (c.pc + meet.signExtend 57 * 12#57)) (hj : c.g.csr.ejth = 0) (hc : ∀ p, c.g.cont = some p → p.1 ≠ s.cur) :
    ∃ t g, exec (.brd h d meet off) s = .next t ∧ t.groups.find s.cur = some g ∧ ((∀ n < 32, (c.g.th n).st ≠ .held) → SameRegs c.g g)
      ∧ (∀ n < 32, (c.g.th n).st ≠ .held → (g.th n).mr = (if c.act.has n then x else (c.g.th n).mr) ∧ (g.th n).st = (c.g.th n).st
        ∧ (g.th n).pc = if c.act.has n then c.brdPc off n else (c.g.th n).pc)
      ∧ MrOnItsWay c d g := by
  have hr := (issuing_iff.1 hs).1
  have hgid := gid_of_reaching hr
  obtain ⟨g, hg, hm, hw⟩ := brdMoves_find hr x false
  rw [← hgid] at hg hc ⊢
  obtain ⟨T, hT⟩ := brdEnds_find hg x hc
  refine ⟨_, _, (exec_brd hs hcl hx).trans (by rw [ejects_of_ejth_zero hj]), hT, fun hn => ?_, fun n hn hh => ?_, fun hd => ?_⟩
  · rw [meets_of_no_points (meetPoints_of_none_held (fun n hn' => by rw [hm.st n hn']; exact hn n hn') _), ite_self]
    exact hm.regs
  · have hth (e : Word) : Group.th (if c.g.cont.isSome then g else g.meets e none T) n = g.th n := by
      split
      · rfl
      · exact meets_th_of_not_held hn (by rw [hm.st n hn]; exact hh) _ _ _
    rw [hth]
    exact ⟨hm.mr n hn, hm.st n hn, hm.pc n hn⟩
  · have hp (e : Word) : Group.pend (if c.g.cont.isSome then g else g.meets e none T) = g.pend := by
      split
      · rfl
      · exact (meets_kept g e none T).1
    rw [hp]
    exact hw hd

/-- The new `MR` of a `BRD` can meet the condition of threads that are held elsewhere (R40). -/
theorem brd_releases (hs : s.issuing (.brd h d meet off) = some c) (hcl : Clean c (.brd h d meet off))
    (hx : x = mrOf (s.entryOf c.g) (c.pc + meet.signExtend 57 * 12#57)) (hc : c.g.cont = none) {k : Nat} (hk : k < 32) (hheld : (c.g.th k).st = .held)
    (hjoin : c.g.join = 0 ∨ c.g.joinAddr ≠ mrOf (s.entryOf c.g) (c.g.th k).pc) (hj : c.g.csr.ejth = 0) (hne : mrOf (s.entryOf c.g) (c.g.th k).pc ≠ x)
    (hall : ∀ n < 32, (c.g.th n).st = .exited ∨ Mask.has c.act n = true ∨ ((c.g.th n).st = .held ∧ (c.g.th n).pc = (c.g.th k).pc)) :
    ∃ t g, exec (.brd h d meet off) s = .next t ∧ t.groups.find s.cur = some g
      ∧ (g.th k).st = .run ∧ (g.th k).pc = (c.g.th k).pc + 12#57 ∧ (g.th k).mr = (c.g.th k).nmr := by
  have hr := (issuing_iff.1 hs).1
  have hgid := gid_of_reaching hr
  obtain ⟨g, hg, hm, -⟩ := brdMoves_find hr x false
  have hsame := brdMoves_sameButIssue hr x false
  rw [← hgid] at hg ⊢
  obtain ⟨T, hT⟩ := brdEnds_find hg x (by simp [hc])
  have he : ((s.begun c (.brd h d meet off)).does (brdMoves c (.brd h d meet off) x off false)).entryOf g = s.entryOf c.g :=
    entryOf_congr ((congrArg State.teams hsame).trans rfl) ((congrArg State.nodes hsame).trans rfl) hm.team
  rw [he, if_neg (by simp [hc])] at hT
  have hpc {n : Nat} (hn : n < 32) (hst : (c.g.th n).st = .held) : (g.th n).pc = (c.g.th n).pc :=
    (hm.pc n hn).trans (if_neg fun ha => by rw [act_run hr hn ha] at hst; cases hst)
  have hmet : g.met (c.g.th k).pc (mrOf (s.entryOf c.g) (c.g.th k).pc) = true := by
    refine met_iff.2 ⟨⟨k, hk, (hm.st k hk).trans hheld, hpc hk hheld⟩, fun n hn hmr => ?_, by rw [hm.join, hm.joinAddr]; exact hjoin⟩
    rcases hall n hn with he | ha | ⟨hst, hp⟩
    · exact .inr ((hm.st n hn).trans he)
    · rw [hm.mr n hn, if_pos ha] at hmr
      exact absurd hmr.symm hne
    · exact .inl ⟨(hm.st n hn).trans hst, (hpc hn hst).trans hp⟩
  have hgo := meets_th_of_met (.inl rfl) hmet hk ((hm.st k hk).trans hheld) (hpc hk hheld) T
  refine ⟨_, _, (exec_brd hs hcl hx).trans (by rw [ejects_of_ejth_zero hj]), hT, ?_⟩
  rw [hgo]
  exact ⟨rfl, congrArg (· + 12#57) (hpc hk hheld), hm.nmr k hk⟩

end Brd

-- ejection

/-- The ejection of one thread (R32, R35). -/
def ejectOne (gid n : Nat) : Eff := freely fun k => fresh fun id => on fun s =>
  match s.groups.find gid with
  | some g => act (.group (Config.contBase + id) (some (g.eject gid n (s.now + delay 8 40 k))))
  | none => skip

theorem does_ejectOne {s : State} {gid : Nat} {g : Group} (hg : s.groups.find gid = some g) (n : Nat) :
    s.does (ejectOne gid n) = ((s.apply (.free (s.free + 1))).apply (.ids (s.ids + 1))).apply
      (.group (Config.contBase + s.ids) (some (g.eject gid n (s.now + delay 8 40 s.free)))) := by
  rw [ejectOne, does_freely, does_fresh, does_on]
  change State.does _ (match s.groups.find gid with | some g => _ | none => _) = _
  rw [hg]
  rfl

/-- Each thread of a list is ejected under a number of its own, and every group that was there stays. -/
theorem ejectEach_find {gid : Nat} {g : Group} (hgid : gid < Config.contBase) (l : List Nat) {s : State} (hg : s.groups.find gid = some g) :
    (∀ k < Config.contBase + s.ids, (s.does (each l (ejectOne gid))).groups.find k = s.groups.find k)
      ∧ ∀ n ∈ l, ∃ k T, Config.contBase ≤ k ∧ (s.does (each l (ejectOne gid))).groups.find k = some (g.eject gid n T) := by
  induction l generalizing s with
  | nil => exact ⟨fun _ _ => rfl, fun _ h => nomatch h⟩
  | cons m l ih =>
    rw [does_each_cons, does_ejectOne hg]
    generalize ht : ((s.apply (.free (s.free + 1))).apply (.ids (s.ids + 1))).apply
      (.group (Config.contBase + s.ids) (some (g.eject gid m (s.now + delay 8 40 s.free)))) = t
    have hids : t.ids = s.ids + 1 := by rw [← ht]; rfl
    have hold (k : Nat) (hk : k < Config.contBase + s.ids) : t.groups.find k = s.groups.find k := by
      rw [← ht]
      exact find_setO_some_ne _ _ (by omega)
    have hnew : t.groups.find (Config.contBase + s.ids) = some (g.eject gid m (s.now + delay 8 40 s.free)) := by
      rw [← ht]
      exact find_setO_self ..
    obtain ⟨hkeep, hej⟩ := ih ((hold gid (by omega)).trans hg)
    refine ⟨fun k hk => (hkeep k (by omega)).trans (hold k hk), fun n hn => ?_⟩
    rcases List.mem_cons.1 hn with rfl | hn
    · exact ⟨_, _, Nat.le_add_right _ _, (hkeep _ (by omega)).trans hnew⟩
    · exact hej n hn

/-- The group whose threads `m` have been ejected towards meeting point `x` (R32). -/
def Group.ejected (g : Group) (m : Mask) (x : Word) : Group :=
  { g.mapTh m fun _ th => { th with st := .ejected } with join := g.join + countOf m, joinAddr := x, past := [] }

theorem ejectAll_find {s : State} {gid : Nat} {g : Group} (hgid : gid < Config.contBase) (hg : s.groups.find gid = some g) (m : Mask) (x : Word) :
    (s.does (ejectAll gid m x)).groups.find gid = some (g.ejected m x)
      ∧ ∀ n < 32, Mask.has m n = true → ∃ k T, k ≠ gid ∧ (s.does (ejectAll gid m x)).groups.find k = some (g.eject gid n T) := by
  obtain ⟨hkeep, hej⟩ := ejectEach_find hgid m.lanes hg
  have hg1 := (hkeep gid (by omega)).trans hg
  have hd : s.does (ejectAll gid m x) = (s.does (each m.lanes (ejectOne gid))).apply (.group gid (some (g.ejected m x))) :=
    (does_andThen ..).trans (does_upGroup_some _ _ _ _ hg1)
  rw [hd]
  refine ⟨find_setO_self .., fun n hn hm => ?_⟩
  obtain ⟨k, T, hk, hf⟩ := hej n (mask_mem_lanes.2 ⟨hn, hm⟩)
  exact ⟨k, T, by omega, (find_setO_some_ne _ _ (by omega)).trans hf⟩

theorem eject_th (g : Group) (gid : Nat) {n m : Nat} (hm : m < 32) (T : Nat) :
    (g.eject gid n T).th m = if m = n then { g.th m with st := .run, age := 0 } else { thread0 with st := .exited } :=
  th_tab32 (g := g.eject gid n T) (f := fun k => if k = n then ({ g.th k with st := .run, age := 0 } : Thread) else { thread0 with st := .exited }) rfl hm

section Brd
variable {s : State} {c : Iss} {h : Head} {d : Dst} {meet : BitVec 12} {off : BitVec 24} {x : Word}

theorem minority_act (hr : s.reaching (.brd h d meet off) = some c) {n : Nat} (hn : Mask.has c.minority n = true) : Mask.has c.act n = true := by
  unfold Iss.minority at hn
  split at hn
  · exact (Bool.and_eq_true_iff.1 ((BitVec.getLsbD_and ..).symm.trans hn)).1
  · exact on_act hr hn

/-- A `BRD` that ejects its minority (R32, R35). -/
theorem brd_ejects (hs : s.issuing (.brd h d meet off) = some c) (hcl : Clean c (.brd h d meet off))
    (hx : x = mrOf (s.entryOf c.g) (c.pc + meet.signExtend 57 * 12#57)) (hc : c.g.cont = none) (hj : c.g.join = 0) (he : c.ejects s.landed x = true)
    (hcur : s.cur < Config.contBase) :
    ∃ t g, exec (.brd h d meet off) s = .next t ∧ t.groups.find s.cur = some g ∧ g.join = countOf c.minority ∧ g.joinAddr = x
      ∧ ∀ n < 32, Mask.has c.minority n = true → (g.th n).st = .ejected
        ∧ ∃ k e, t.groups.find k = some e ∧ e.cont = some (s.cur, n) ∧ (e.th n).st = .run ∧ (e.th n).mr = x ∧ (e.th n).pc = c.brdPc off n
          ∧ ∀ m < 32, m ≠ n → (e.th m).st = .exited := by
  have hr := (issuing_iff.1 hs).1
  have hgid := gid_of_reaching hr
  obtain ⟨g, hg, hm, -⟩ := brdMoves_find hr x true
  rw [← hgid] at hg hcur ⊢
  obtain ⟨hg1, hej⟩ := ejectAll_find hcur hg c.minority x
  obtain ⟨T, hT⟩ := meetCheck_find hg1 none
  have hends (u : State) : u.does (brdEnds c x true) = (u.does (ejectAll c.gid c.minority x)).does (meetCheck c.gid none) := by
    simp only [brdEnds, hc]
    rw [does_seqs_cons, does_seqs_cons, does_seqs_nil, does_when, if_pos rfl]
  refine ⟨_, _, (exec_brd hs hcl hx).trans (by rw [he, hends]), hT, ?_, ?_, fun n hn hmin => ⟨?_, ?_⟩⟩
  · exact (meets_kept ..).2.1.trans (by rw [Group.ejected, hm.join, hj]; exact Nat.zero_add _)
  · exact (meets_kept ..).2.2
  · have hst : ((g.ejected c.minority x).th n).st = .ejected := by
      refine (congrArg Thread.st (mapTh_th g c.minority (fun _ th => { th with st := .ejected }) hn)).trans ?_
      rw [if_pos hmin]
    rw [meets_th_of_not_held hn (by rw [hst]; decide), hst]
  · obtain ⟨k, U, hk, hf⟩ := hej n hn hmin
    have hact := minority_act hr hmin
    refine ⟨k, _, (meetCheck_find_ne _ hk none).trans hf, rfl, ?_, ?_, ?_, fun m hm' hne => by rw [eject_th _ _ hm', if_neg hne]⟩
    · rw [eject_th _ _ hn, if_pos rfl]
    · rw [eject_th _ _ hn, if_pos rfl]
      exact (hm.mr n hn).trans (if_pos hact)
    · rw [eject_th _ _ hn, if_pos rfl]
      exact (hm.pc n hn).trans (if_pos hact)

end Brd

/-- Settles O23: the moves, and behind them either the look at the meeting points or the ejection of the minority. -/
theorem divergentBranch : Obligations.DivergentBranch := by
  unfold Obligations.DivergentBranch
  intro s c h d meet off x notTaken minor hs hcl
  refine ⟨fun hj hc => ?_, fun hc k hk hheld hjoin hj hne _ hall => brd_releases hs hcl rfl hc hk hheld hjoin hj hne hall,
    fun hc htm hj hjoin hon hnot hcnt hroom hcur => ?_⟩
  · obtain ⟨t, g, ht, hg, hregs, hth, hw⟩ := brd_moves hs hcl rfl hj hc
    refine ⟨t, g, ht, hg, hregs, fun n hn hheld => ?_, hw⟩
    obtain ⟨hmr, hst, hpc⟩ := hth n hn hheld
    split
    · rename_i ha
      rw [if_pos ha] at hmr hpc
      exact thread_eq hmr hst hpc
    · rename_i ha
      rw [if_neg ha] at hmr hpc
      exact thread_eq hmr hst hpc
  · have he : c.ejects s.landed x = true := by
      simp only [Iss.ejects, ejectOk, Bool.and_eq_true, decide_eq_true_eq, Bool.or_eq_true, Bool.not_eq_true', Option.isNone_iff_eq_none]
      exact ⟨⟨⟨hon, hnot⟩, hcnt⟩, ⟨⟨⟨hj, hroom⟩, .inl hjoin⟩, htm⟩, hc⟩
    exact brd_ejects hs hcl rfl hc hjoin he hcur

end Sys2Proof.Machine
end

section
/-!
SUPPORT. O5: one step (R34, R67, R325, R339): the agenda, the turn of a rod or a helper, and the clock.
-/
namespace Sys2Proof.Machine

-- a group with its results landed

/-- What every landing of a result keeps, the landing of all that are due keeps. -/
theorem upTo_keeps {β : Type} (q : Group → β) (hq : ∀ g p, q (Group.landed g p) = q g) (h0 : ∀ (g : Group) l, q { g with pend := l } = q g)
    (g : Group) (t : Nat) : q (g.upTo t) = q g := by
  have h : ∀ (l : List Pend) (g : Group), q (l.foldl Group.landed g) = q g := by
    intro l
    induction l with
    | nil => exact fun _ => rfl
    | cons p l ih => exact fun g => (ih _).trans (hq g p)
  exact (h _ _).trans (h0 _ _)

theorem landed_frame (g : Group) (p : Pend) : (g.landed p).frame = g.frame := by
  unfold Group.landed
  cases p.kind <;> rfl

theorem landed_handler (g : Group) (p : Pend) : ((g.landed p).csr.tmode, (g.landed p).csr.tvec) = (g.csr.tmode, g.csr.tvec) := by
  unfold Group.landed
  cases p.kind <;> rfl

theorem upTo_frame (g : Group) (t : Nat) : (g.upTo t).frame = g.frame := upTo_keeps Group.frame landed_frame (fun _ _ => rfl) g t

theorem CanTrap.upTo {g : Group} (h : CanTrap g) (t : Nat) : CanTrap (g.upTo t) := by
  obtain ⟨hc, hm, hv⟩ := h
  have hh := upTo_keeps (fun g => (g.csr.tmode, g.csr.tvec)) landed_handler (fun _ _ => rfl) g t
  exact ⟨(upTo_cont g t).trans hc, (congrArg Prod.fst hh).trans hm, fun hz => hv ((congrArg Prod.snd hh).symm.trans hz)⟩

-- the turn of a group

/-- The trap that a group takes leaves the turns as they are. -/
theorem turns_takeTrap (gid : Nat) (cause : Trap) (info : BitVec 64) (tpc : BitVec 57) (T : Mask) {s : State} {g : Group}
    (hg : s.groups.find gid = some g) (hc : CanTrap g) : (s.does (takeTrap gid cause info tpc T)).turns = s.turns := by
  obtain ⟨-, hm, hv⟩ := hc
  rw [takeTrap, does_on]
  simp only [hg, hm, hv, Bool.false_or, decide_false, Bool.false_eq_true, ↓reduceIte]
  have hg' : (s.apply (.free (s.free + 1))).groups.find gid = some g := hg
  rw [does_freely, does_upGroup_some _ _ _ _ hg']
  rfl

/-- The causes of the traps that await threads name themselves (Table 12.2). -/
theorem trapOf_code {c : BitVec 4} (h : c = 4#4 ∨ c = 10#4) : (trapOf c).code = c := by
  rcases h with rfl | rfl <;> rfl

/-- The groups that a rod's turn asks, in their order (R67). -/
def State.asked (s : State) (k : Nat) : List (Nat × Group) :=
  sortBy before (s.groups.filter fun kv => kv.2.cont.isNone && rodKey kv.2.frame kv.2.rod = k && kv.2.active.isSome && askable s kv.2)

section Turn
variable {s : State} {k gid : Nat} {rest : List Nat} {g : Group} {pc : BitVec 57} {tail : List (Nat × Group)}

theorem turnOf_rod (hk : k < 65536) (hl : s.asked k = (gid, g) :: tail) : turnOf s k = firstTurn s ((gid, g) :: tail) := by
  rw [turnOf, if_pos hk, ← hl]
  rfl

/-- A turn that issues nothing is its effect. -/
theorem step_other (ha : s.agenda = []) (ht : s.turns = k :: rest) {e : Eff} (h : turnOf s k = .other e) : step s = .next (s.does e) := by
  simp only [step, ha, ht, takeTurn, h]
  rfl

/-- A turn that issues is the meaning of its instruction, in the state with the turn taken. -/
theorem step_issue (ha : s.agenda = []) (ht : s.turns = k :: rest) {n : Nat} {i : Instr} (h : turnOf s k = .issue n i) :
    step s = exec i (((s.does (fetchFill s n)).apply (.turns rest)).apply (.cur n)) := by
  simp only [step, ha, ht, takeTurn, h]
  exact congrArg (exec i) (does_andThen s (fetchFill s n) fun _ => [.turns rest, .cur n])

theorem firstTurn_doomed {d : Doom} (hp : Group.pc? (g.upTo s.now) = some pc) (hd : doomed (g.upTo s.now) ((g.upTo s.now).atPc pc) = some d) :
    firstTurn s ((gid, g) :: tail) = .other (andThen (act (.turns (s.turns.drop 1))) (andThen (act (.group gid (some (g.upTo s.now))))
      (takeDoom gid (g.upTo s.now) ((g.upTo s.now).atPc pc) pc d))) := by
  simp only [firstTurn, hp, hd]

/-- The bytes at the PC of a group that no trap awaits decide its turn (R67, R339). -/
theorem firstTurn_word {l : List Byte} (hp : Group.pc? (g.upTo s.now) = some pc) (hd : doomed (g.upTo s.now) ((g.upTo s.now).atPc pc) = none)
    (hl : s.fetch g.frame (s.ctxOf (g.upTo s.now)) (g.upTo s.now).csr.vid pc = .ok l) : firstTurn s ((gid, g) :: tail) = match decode l with
      | .error _ => .other (andThen (act (.turns (s.turns.drop 1)))
          (if (g.upTo s.now).cont.isSome then handBack gid pc else takeTrap gid .illop 0#64 pc ((g.upTo s.now).atPc pc)))
      | .ok p => if eligible s gid (g.upTo s.now) p.1 then .issue gid p.1 else firstTurn s tail := by
  have hw : s.word (g.upTo s.now) pc = .ok ((decode l).map Prod.fst) := by rw [State.word, upTo_frame, hl]
  simp only [firstTurn, hp, hd, hw]
  cases decode l <;> rfl

theorem step_doomed (ha : s.agenda = []) (ht : s.turns = k :: rest) (hk : k < 65536) (hl : s.asked k = (gid, g) :: tail)
    (hp : Group.pc? (g.upTo s.now) = some pc) {d : Doom} (hd : doomed (g.upTo s.now) ((g.upTo s.now).atPc pc) = some d)
    (hcode : d.cause = 4#4 ∨ d.cause = 10#4) (hc : CanTrap g) :
    ∃ t, step s = .next t ∧ t.turns = rest
      ∧ Trapped s t gid ((g.upTo s.now).undoom ((g.upTo s.now).atPc pc) d) d.cause d.info pc ((g.upTo s.now).atPc pc) := by
  refine ⟨_, step_other ha ht ((turnOf_rod hk hl).trans (firstTurn_doomed hp hd)), ?_⟩
  have hc' := hc.upTo s.now
  obtain ⟨hcont, -, -⟩ := hc'
  generalize hu : (s.apply (.turns (s.turns.drop 1))).apply (.group gid (some (g.upTo s.now))) = u
  have hg : u.groups.find gid = some (g.upTo s.now) := by rw [← hu]; exact find_setO_self ..
  rw [does_andThen, does_andThen, does_act, does_act, hu, takeDoom, if_neg (by simp [hcont]), does_andThen, does_upGroup_some _ _ _ _ hg]
  have hg' : (u.apply (.group gid (some ((g.upTo s.now).undoom ((g.upTo s.now).atPc pc) d)))).groups.find gid
      = some ((g.upTo s.now).undoom ((g.upTo s.now).atPc pc) d) := find_setO_self ..
  have hT := takeTrap_traps (cause := trapOf d.cause) (info := d.info) (tpc := pc) (T := (g.upTo s.now).atPc pc) hg' (hc.upTo s.now)
  rw [trapOf_code hcode] at hT
  refine ⟨(turns_takeTrap _ _ _ _ _ hg' (hc.upTo s.now)).trans ?_, ?_⟩
  · rw [← hu, ht]
    rfl
  · rw [← hu] at hT ⊢
    exact hT

theorem step_undecoded (ha : s.agenda = []) (ht : s.turns = k :: rest) (hk : k < 65536) (hl : s.asked k = (gid, g) :: tail)
    (hp : Group.pc? (g.upTo s.now) = some pc) (hd : doomed (g.upTo s.now) ((g.upTo s.now).atPc pc) = none) {l : List Byte}
    (hf : s.fetch g.frame (s.ctxOf (g.upTo s.now)) (g.upTo s.now).csr.vid pc = .ok l) {e : DecErr} (he : decode l = .error e)
    (hg : s.groups.find gid = some g) (hc : CanTrap g) :
    ∃ t, step s = .next t ∧ t.turns = rest ∧ Trapped s t gid g 1#4 0#64 pc ((g.upTo s.now).atPc pc) := by
  have hturn := (turnOf_rod hk hl).trans (firstTurn_word hp hd hf)
  obtain ⟨hcont, -, -⟩ := hc.upTo s.now
  rw [he] at hturn
  dsimp only at hturn
  rw [if_neg (by simp [hcont])] at hturn
  refine ⟨_, step_other ha ht hturn, ?_⟩
  have hg' : (s.apply (.turns (s.turns.drop 1))).groups.find gid = some g := hg
  rw [does_andThen, does_act]
  exact ⟨(turns_takeTrap _ _ _ _ _ hg' hc).trans (by rw [ht]; rfl), takeTrap_traps hg' hc⟩

-- the fills of a fetch

/-- An act of a fill of a TLB or a walk cache. -/
def Act.Fills : Act → Prop
  | .free _ | .tlb .. | .walk .. => True
  | _ => False

theorem fills_fillTlb (frame ctx va : Nat) : (fillTlb frame ctx va).Only Act.Fills := only_on fun _ =>
  only_ite only_skip <| only_andThen (only_act trivial) <| by
    split
    · exact only_freely (fun _ => trivial) fun _ => only_act trivial
    · exact only_skip

theorem fills_fetchFill (s : State) (n : Nat) : (fetchFill s n).Only Act.Fills := by
  unfold fetchFill
  split
  · exact only_skip
  · split
    · exact only_skip
    · exact only_andThen (fills_fillTlb ..) (fills_fillTlb ..)

/-- Fills change the TLBs, the walk caches and the number of free values alone. -/
theorem Eff.Only.fills {e : Eff} (h : e.Only Act.Fills) (s : State) :
    s.does e = { s with tlb := (s.does e).tlb, walk := (s.does e).walk, free := (s.does e).free } :=
  h.preserves (P := fun t => t = { s with tlb := t.tlb, walk := t.walk, free := t.free }) (fun a ha t ht => by
    cases a with
    | free | tlb | walk => rw [ht]; rfl
    | _ => exact ha.elim) rfl

theorem step_decoded (ha : s.agenda = []) (ht : s.turns = k :: rest) (hk : k < 65536) (hl : s.asked k = (gid, g) :: tail)
    (hp : Group.pc? (g.upTo s.now) = some pc) (hd : doomed (g.upTo s.now) ((g.upTo s.now).atPc pc) = none) {l : List Byte}
    (hf : s.fetch g.frame (s.ctxOf (g.upTo s.now)) (g.upTo s.now).csr.vid pc = .ok l) {i : Instr} {more : List Byte} (hi : decode l = .ok (i, more))
    (he : eligible s gid (g.upTo s.now) i = true) :
    ∃ t, step s = exec i t ∧ t.cur = gid ∧ t.turns = rest ∧ t = { s with turns := rest, cur := gid, tlb := t.tlb, walk := t.walk, free := t.free } := by
  have hturn := (turnOf_rod hk hl).trans (firstTurn_word hp hd hf)
  rw [hi] at hturn
  dsimp only at hturn
  rw [if_pos he] at hturn
  refine ⟨_, step_issue ha ht hturn, rfl, rfl, ?_⟩
  conv_lhs => rw [(fills_fetchFill s gid).fills s]
  rfl

end Turn

-- the clock

/-- The clock, the memory and the timers stand, and what is on the agenda stays there. -/
def Awaits (s t : State) : Prop := t.now = s.now ∧ t.mem = s.mem ∧ t.timers = s.timers ∧ ∀ i ∈ s.agenda, i ∈ t.agenda

theorem awaits_chains : Chains Awaits where
  refl _ := ⟨rfl, rfl, rfl, fun _ h => h⟩
  trans h k := ⟨k.1.trans h.1, k.2.1.trans h.2.1, k.2.2.1.trans h.2.2.1, fun i hi => k.2.2.2 i (h.2.2.2 i hi)⟩

theorem awaits_soon (i : Instr) : (soon i).Within Awaits :=
  within_on fun _ => ⟨rfl, rfl, rfl, fun _ h => List.mem_append_left _ h⟩

theorem awaits_upGroup (n : Nat) (f : Group → Group) : (upGroup n f).Within Awaits := ⟨fun s => by
  cases h : s.groups.find n with
  | none => rw [does_upGroup_none _ _ _ h]; exact awaits_chains.refl s
  | some g => rw [does_upGroup_some _ _ _ _ h]; exact ⟨rfl, rfl, rfl, fun _ h => h⟩⟩

theorem awaits_swapIn (n : Nat) : (swapIn n).Within Awaits := within_on fun _ => (awaits_upGroup ..).rel _

theorem awaits_swapFor (n : Nat) : (swapFor n).Within Awaits := within_on fun s => by
  split
  · exact (within_skip awaits_chains).rel s
  · split
    · exact (within_skip awaits_chains).rel s
    · exact (within_andThen awaits_chains (within_on fun _ => (awaits_upGroup ..).rel _) (awaits_swapIn _)).rel s

theorem awaits_fillSlot (k : Nat) : (fillSlot k).Within Awaits := within_on fun s => by
  split
  · split
    · exact (awaits_swapIn _).rel s
    · exact (within_skip awaits_chains).rel s
  · exact (within_skip awaits_chains).rel s

theorem awaits_rodSwaps (k : Nat) : (rodSwaps k).Within Awaits := by
  have hR := awaits_chains
  have hends (gs : List (Nat × Group)) : (each gs fun kv => when kv.2.yielded (upGroup kv.1 fun g => { g with yielded := false })).Within Awaits :=
    within_each hR fun _ _ => within_when hR fun _ => awaits_upGroup ..
  have hsoon (p : State → Bool) (i : Instr) : (on fun s => when (p s) (soon i)).Within Awaits := within_on fun s => (within_when hR fun _ => awaits_soon i).rel s
  refine within_on fun s => ?_
  dsimp only
  split
  · exact (hends _).rel s
  · refine (within_seqs hR fun e he => ?_).rel s
    simp only [List.mem_cons, List.not_mem_nil, or_false] at he
    rcases he with rfl | rfl | rfl | rfl | rfl | rfl
    · exact within_each hR fun _ _ => awaits_fillSlot k
    · exact within_each hR fun _ _ => hsoon _ _
    · exact within_on fun s => (within_when hR fun _ => within_on fun t => (awaits_soon _).rel t).rel s
    · exact within_each hR fun _ _ => hsoon _ _
    · exact within_each hR fun _ _ => within_on fun s => (within_when hR fun _ => awaits_swapFor _).rel s
    · exact hends _

theorem awaits_trackSince : trackSince.Within Awaits :=
  within_on fun s => (within_each awaits_chains fun _ _ => within_when awaits_chains fun _ => awaits_upGroup ..).rel s

/-- The clock advances by one, and every step to come that is due is on the agenda behind it (log entry 3). -/
theorem tick_due (s : State) : (s.does tick).now = s.now + 1 ∧ (s.does tick).mem = s.mem
    ∧ ∀ p ∈ s.timers, if p.1 ≤ (s.does tick).now then p.2 ∈ (s.does tick).agenda else p ∈ (s.does tick).timers := by
  have hR := awaits_chains
  have hgroup (n : Nat) (x : Option Group) : (act (.group n x)).Within Awaits := within_act fun _ => ⟨rfl, rfl, rfl, fun _ h => h⟩
  have hrod (n : Nat) (x : Option Rod) : (act (.rod n x)).Within Awaits := within_act fun _ => ⟨rfl, rfl, rfl, fun _ h => h⟩
  have hland : (on fun s => each s.groups fun kv =>
      let g := kv.2.upTo s.now
      let g := { g with wlog := g.wlog.filter fun w => s.now ≤ w.clk + 48 }
      when (g ≠ kv.2) (act (.group kv.1 (some g)))).Within Awaits :=
    within_on fun s => (within_each hR fun _ _ => within_when hR fun _ => hgroup ..).rel s
  have hrods : (on fun s => each s.rods fun kv => when (kv.2.prune s.now ≠ kv.2) (act (.rod kv.1 (some (kv.2.prune s.now))))).Within Awaits :=
    within_on fun s => (within_each hR fun _ _ => within_when hR fun _ => hrod ..).rel s
  have hswaps : (on fun s => each s.busyRods rodSwaps).Within Awaits := within_on fun s => (within_each hR fun k _ => awaits_rodSwaps k).rel s
  have hturns : (on fun s => act (.turns (if s.power = .up then s.allTurns else []))).Within Awaits := within_on fun _ => ⟨rfl, rfl, rfl, fun _ h => h⟩
  rw [tick, does_on]
  simp only [does_seqs_cons, does_seqs_nil, does_act]
  obtain ⟨hn1, hm1, ht1, ha1⟩ := hR.trans (hland.rel (s.apply (.now (s.now + 1)))) (hrods.rel _)
  generalize ((s.apply (.now (s.now + 1))).does _).does _ = u at *
  obtain ⟨hn2, hm2, ht2, ha2⟩ := hR.trans (hR.trans (awaits_trackSince.rel _) (hswaps.rel _)) (hturns.rel (((u.does _).does trackSince).does _))
  refine ⟨hn2.trans hn1, hm2.trans hm1, fun p hp => ?_⟩
  have hp1 : p ∈ u.timers := ht1 ▸ hp
  split
  · rename_i h
    rw [hn2] at h
    exact ha2 _ (List.mem_append_right _ (List.mem_map.2 ⟨p, List.mem_filter.2 ⟨hp1, decide_eq_true h⟩, rfl⟩))
  · rename_i h
    rw [hn2] at h
    rw [ht2]
    exact List.mem_filter.2 ⟨hp1, decide_eq_true (Nat.lt_of_not_le h)⟩

/-- Settles O5: the agenda first, then the turns, then the clock; a turn by what its first group finds at its PC. -/
theorem stepRunsTheDecodedInstruction : Obligations.StepRunsTheDecodedInstruction := by
  unfold Obligations.StepRunsTheDecodedInstruction
  refine ⟨fun s i l ha => by rw [step, ha]; rfl, fun s k rest gid g pc l tail ha ht hk hl hp => ⟨fun d hd hcode _ hc => step_doomed ha ht hk hl hp hd hcode hc,
    fun hd hf => ⟨fun i more hi he => step_decoded ha ht hk hl hp hd hf hi he, fun e he hg hc => step_undecoded ha ht hk hl hp hd hf he hg hc⟩⟩,
    fun s ha ht => ⟨s.does tick, by rw [step, ha, ht]; rfl, tick_due s⟩⟩

end Sys2Proof.Machine
end

section
/-!
SUPPORT. O51: nodes that finish (R46, R199, R202, R263, R267): their state, what is looked at again, and the sectors of a commit.
-/
namespace Sys2Proof.Machine

-- states that nodes have

/-- What a report keeps of the state, besides what `Reported` names. -/
theorem Eff.Only.reports_now {e : Eff} (h : e.Reports) : e.Keeps State.now := h.keeps fun a ha s => by
  cases a with
  | now => exact ha.elim
  | _ => rfl

theorem reports_nodeIo (n : Node) (va access cause : Nat) : (nodeIo n va access cause).Reports := only_on fun _ => reports_event ..

theorem reports_writeVa {who : Option Nat} {frame ctx part view va : Nat} {l : List Byte} {bad : Nat → Eff} (h : ∀ c, (bad c).Reports) :
    (writeVa who frame ctx part view va l bad).Reports := only_on fun _ => by
  split
  · exact h _
  · exact reports_writeBytesBy ..

theorem reports_nodeSignal (n : Node) (ok : Bool) : (nodeSignal n ok).Reports :=
  only_onSome fun _ => only_on fun _ => only_andThen (only_when (reports_writeVa fun _ => reports_nodeIo ..)) (only_when (reports_out _))

theorem setState_find {s : State} {nk : Nat} {n : Node} (hn : s.nodes.find nk = some n) (st : NState) :
    (s.does (setState nk st)).nodes.find nk = some { n with st := st } := by
  rw [setState, does_andThen, ((reports_rcbWrite nk).reported _).nodes, does_upNode_some _ _ _ _ hn]
  exact find_setO_self ..

theorem setState_now (s : State) (nk : Nat) (st : NState) : (s.does (setState nk st)).now = s.now := by
  rw [setState, does_andThen, (reports_rcbWrite nk).reports_now]
  cases hn : s.nodes.find nk with
  | none => rw [does_upNode_none _ _ _ hn]
  | some n => rw [does_upNode_some _ _ _ _ hn]; rfl

/-- Every node that waits no longer stays as it is. -/
def SparesNodes (s t : State) : Prop := ∀ k x, s.nodes.find k = some x → x.st ≠ .waiting → t.nodes.find k = some x

theorem sparesNodes_chains : Chains SparesNodes where
  refl _ _ _ h _ := h
  trans h k n x hx hw := k n x (h n x hx hw) hw

theorem sparesNodes_of_nodes {s t : State} (h : t.nodes = s.nodes) : SparesNodes s t := fun k x hx _ => by rw [h]; exact hx

theorem Eff.Only.sparesNodes {e : Eff} (h : e.Reports) : e.Within SparesNodes := ⟨fun s => sparesNodes_of_nodes (h.reported s).nodes⟩

theorem sparesNodes_soon (i : Instr) : (soon i).Within SparesNodes := within_on fun _ => sparesNodes_of_nodes rfl

theorem sparesNodes_checkJoin (p : Option Nat) : (checkJoin p).Within SparesNodes :=
  within_onSome sparesNodes_chains fun _ => within_on fun s => by
    split
    · exact (within_when sparesNodes_chains fun _ => sparesNodes_soon _).rel s
    · exact (within_skip sparesNodes_chains).rel s

theorem sparesNodes_afterFinish (n : Node) : (afterFinish n).Within SparesNodes :=
  within_andThen sparesNodes_chains (sparesNodes_checkJoin _) <|
    within_andThen sparesNodes_chains (within_onSome sparesNodes_chains fun _ => sparesNodes_soon _) <|
    within_andThen sparesNodes_chains (sparesNodes_soon _) (within_skip sparesNodes_chains)

/-- A node that becomes READY is the only one that changes. -/
theorem becomesReady_others (s : State) {m k : Nat} (ctx : Nat) (h : k ≠ m) : (s.does (becomesReady m ctx)).nodes.find k = s.nodes.find k := by
  have hup (s : State) (f : Node → Node) : (s.does (upNode m f)).nodes.find k = s.nodes.find k := by
    cases hm : s.nodes.find m with
    | none => rw [does_upNode_none _ _ _ hm]
    | some x => rw [does_upNode_some _ _ _ _ hm]; exact find_setO_some_ne _ _ h
  rw [becomesReady, does_fresh, does_seqs_cons, does_seqs_cons, does_seqs_cons, does_seqs_nil, setState, does_andThen]
  change ((State.does _ (rcbWrite m)).nodes.find k) = _
  rw [((reports_rcbWrite m).reported _).nodes, hup, hup]
  rfl

/-- The decrement of a dependence count changes a node only when it waits (R60). -/
theorem sparesNodes_decrement (n : Node) (j : Nat) : (decrement n j).Within SparesNodes := within_on fun s => by
  have hR := sparesNodes_chains
  have hio (va access c : Nat) : (nodeIo n va access c).Within SparesNodes := (reports_nodeIo ..).sparesNodes
  have hready (m : Nat) (t : State) (ht : t.nodes = s.nodes) :
      SparesNodes t (t.does (when ((s.nodes.find m).elim false fun x => x.st = .waiting) (becomesReady m n.ctx))) := by
    rw [does_when]
    split
    · rename_i hm
      intro k x hx hw
      rw [becomesReady_others _ _ fun hk => ?_, hx]
      rw [ht, hk] at hx
      rw [hx] at hm
      exact hw (of_decide_eq_true hm)
    · exact hR.refl t
  split
  · exact (hio ..).rel s
  · dsimp only
    split
    · split
      · exact (reports_event ..).sparesNodes.rel s
      · have hwrite := reports_writeBytesBy none (s.lead n.ctx) n.rcbView
        refine hR.andThen ((hwrite ..).sparesNodes.rel s) ?_
        rw [does_when]
        split
        · split
          · exact hready _ _ ((hwrite _ _ none).reported s).nodes
          · exact (within_when hR fun _ => (reports_writeVa fun _ => reports_nodeIo ..).sparesNodes).rel _
        · exact hR.refl _
    all_goals exact (hio ..).rel s

-- what is looked at again

theorem mem_agenda_soon (s : State) (i : Instr) : i ∈ (s.does (soon i)).agenda := List.mem_append_right _ List.mem_cons_self

theorem agenda_soon {s : State} {i : Instr} (h : i ∈ s.agenda) (j : Instr) : i ∈ (s.does (soon j)).agenda := List.mem_append_left _ h

theorem afterFinish_agenda (s : State) (n : Node) : (∀ q, n.queue = some q → .qfenceComplete q ∈ (s.does (afterFinish n)).agenda)
    ∧ .teamReservation n.ctx ∈ (s.does (afterFinish n)).agenda := by
  rw [afterFinish, does_seqs_cons, does_seqs_cons, does_seqs_cons, does_seqs_nil]
  refine ⟨fun q hq => agenda_soon ?_ _, mem_agenda_soon ..⟩
  rw [hq, does_onSome_some]
  exact mem_agenda_soon ..

/-- A `CHOOSE` that waits for a rival looks again (R264). -/
theorem chooseAgain_agenda {s : State} (hi : s.Inv) {k : Nat} {o : Op} (ho : s.ops.find k = some o) {h : Head} {d : Dst} {a b : Src}
    (hc : o.ins = .choose h d a b) (hw : o.st = .waiting) : .chooseRetire k ∈ (s.does chooseAgain).agenda := by
  let Q (kv : Nat × Op) (t : State) : Prop := (∃ h d a b, kv.2.ins = .choose h d a b) → kv.2.st = .waiting → .chooseRetire kv.1 ∈ t.agenda
  rw [chooseAgain, does_on]
  refine does_each_all (Q := Q) (fun kv t _ hkv hst => ?_) (fun kv kw t _ hQ hkv hst => ?_) s.ops hi _ (AMap_mem_of_find ho) ⟨h, d, a, b, hc⟩ hw
  · obtain ⟨h, d, a, b, hkv⟩ := hkv
    simp only [hkv, hst, decide_true, does_when, if_true]
    exact mem_agenda_soon ..
  · have hmem := hQ hkv hst
    split
    · rw [does_when]
      split
      · exact agenda_soon hmem _
      · exact hmem
    · exact hmem

theorem doneNode_done {s : State} {nk : Nat} {n : Node} (hn : s.nodes.find nk = some n) :
    (∃ n', (s.does (doneNode nk)).nodes.find nk = some n' ∧ n'.st = .done)
      ∧ (∀ q, n.queue = some q → .qfenceComplete q ∈ (s.does (doneNode nk)).agenda) ∧ .teamReservation n.ctx ∈ (s.does (doneNode nk)).agenda := by
  have hR := sparesNodes_chains
  have hrest : (seqs [each (List.range n.eff.nsucc) (decrement n), nodeSignal n true, afterFinish n]).Within SparesNodes :=
    within_andThen hR (within_each hR fun _ _ => sparesNodes_decrement ..) <| within_andThen hR (reports_nodeSignal ..).sparesNodes <|
      within_andThen hR (sparesNodes_afterFinish _) (within_skip hR)
  have hd : s.does (doneNode nk) = (s.does (setState nk .done)).does
      (seqs [each (List.range n.eff.nsucc) (decrement n), nodeSignal n true, afterFinish n]) := by
    rw [doneNode, does_on]
    simp only [hn, does_seqs_cons]
  refine ⟨⟨{ n with st := .done }, ?_, rfl⟩, ?_⟩
  · rw [hd]
    exact hrest.rel _ _ _ (setState_find hn .done) (by simp)
  · rw [hd, does_seqs_cons, does_seqs_cons, does_seqs_cons, does_seqs_nil]
    exact afterFinish_agenda _ n

-- the steps that end a node

section Ends
variable {s : State} {nk : Nat} {n : Node}

theorem commitPrivate_none (hn : s.nodes.find nk = some n) (hp : n.priv = none) : s.does (commitPrivate nk) = s := by
  rw [commitPrivate, does_on, hn, does_onSome_some, hp, does_onSome_none]

theorem exec_nodeDone (hn : s.nodes.find nk = some n) (hkids : s.kidsFinished nk = true) (hbusy : s.nodeBusy nk = false) (hst : n.st = .joining)
    (hg : n.eff.guarded = false) (hpair : n.eff.paired = false) (hr : n.rival = none) (hp : n.priv = none) :
    exec (.nodeDone nk) s = .next (s.does (doneNode nk)) := by
  have hd : s.does (exchange nk 0xFFFFFFFF#32 (.nodeDone nk) (andThen (commitPrivate nk) (doneNode nk))) = s.does (doneNode nk) := by
    rw [exchange, does_on]
    simp only [hn, hpair, Bool.not_false, if_true]
    rw [does_andThen, commitPrivate_none hn hp]
  change execNodeDone nk s = _
  rw [← hd]
  simp only [execNodeDone, fire, hn, hg, hst, hkids, hr, hbusy]
  rfl

theorem exec_rivalComplete (hn : s.nodes.find nk = some n) (hkids : s.kidsFinished nk = true) (hbusy : s.nodeBusy nk = false) (hst : n.st = .joining)
    (hg : n.eff.guarded = false) (hr : n.rival.isSome = true) (hp : n.priv = none) :
    exec (.rivalComplete nk) s = .next ((s.apply (.node nk (some { n with st := .complete }))).does chooseAgain) := by
  have hd : s.does (seqs [commitPrivate nk, upNode nk fun n => { n with st := .complete }, chooseAgain])
      = (s.apply (.node nk (some { n with st := .complete }))).does chooseAgain := by
    rw [does_seqs_cons, does_seqs_cons, does_seqs_cons, does_seqs_nil, commitPrivate_none hn hp, does_upNode_some _ _ _ _ hn]
  obtain ⟨x, hx⟩ := Option.isSome_iff_exists.1 hr
  change execRivalComplete nk s = _
  rw [← hd]
  simp only [execRivalComplete, fire, hn, hg, hst, hkids, hx, hbusy]
  rfl

/-- An act that puts a step on the agenda. -/
def Act.Soon : Act → Prop
  | .agenda _ => True
  | _ => False

theorem soon_chooseAgain : chooseAgain.Only Act.Soon := only_on fun _ => only_each fun _ => by
  split
  · exact only_when (only_on fun _ => only_act trivial)
  · exact only_skip

theorem reports_commitBegins (part id : Nat) (i : Instr) : (commitBegins part id i).Reports :=
  only_on fun _ => only_onSome fun _ => only_freely (fun _ => trivial) fun _ => only_andThen (only_act trivial) (only_on fun _ => only_act trivial)

/-- What a guarded node does when it comes to commit (R46, R199). -/
theorem exec_nodeCommitting_begins (hn : s.nodes.find nk = some n) (hkids : s.kidsFinished nk = true) (hbusy : s.nodeBusy nk = false)
    (hst : n.st = .joining) (hg : n.eff.guarded = true) (hv : ∀ kv ∈ s.views, kv.2.node = some nk → kv.2.commit.getD [] = [])
    (hfits : s.commitFits (s.lead n.ctx) (n.priv.getD 0) = true) :
    exec (.nodeCommitting nk) s = .next ((s.does (setState nk .committing)).does (seqs [upNode nk fun n => { n with waits := false },
      commitBegins (s.lead n.ctx) (n.priv.getD 0) (.nodeCommitting nk),
      later (s.commitPair (s.lead n.ctx) (n.priv.getD 0) 2000 6000).1 (s.commitPair (s.lead n.ctx) (n.priv.getD 0) 2000 6000).2 (commitEnd n nk)])) := by
  have hnone : (s.views.find? fun kv => kv.2.node = some nk && (kv.2.commit.getD []) ≠ []) = none := by
    refine List.find?_eq_none.2 fun kv hkv h => ?_
    simp only [Bool.and_eq_true, decide_eq_true_eq] at h
    exact h.2 (hv kv hkv h.1)
  change execNodeCommitting nk s = _
  rw [← does_andThen]
  simp only [execNodeCommitting, fire, hn, hnone, hg, hst, hkids, hbusy, hfits]
  rfl

theorem nodeCommitting_commits (hn : s.nodes.find nk = some n) (hkids : s.kidsFinished nk = true) (hbusy : s.nodeBusy nk = false)
    (hst : n.st = .joining) (hg : n.eff.guarded = true) (hv : ∀ kv ∈ s.views, kv.2.node = some nk → kv.2.commit.getD [] = [])
    (hfits : s.commitFits (s.lead n.ctx) (n.priv.getD 0) = true) :
    ∃ t n', exec (.nodeCommitting nk) s = .next t ∧ t.nodes.find nk = some n' ∧ n'.st = .committing ∧ n'.waits = false
      ∧ Due s t (2000 + s.copiesOf (s.lead n.ctx) (n.priv.getD 0))
        (6000 + 4 * s.copiesOf (s.lead n.ctx) (n.priv.getD 0) + 300 * s.spilledOf (s.lead n.ctx) (n.priv.getD 0)) (commitEnd n nk) := by
  have hpair : (s.commitPair (s.lead n.ctx) (n.priv.getD 0) 2000 6000).1 ≤ (s.commitPair (s.lead n.ctx) (n.priv.getD 0) 2000 6000).2 := by
    simp only [State.commitPair]
    omega
  refine ⟨_, { n with st := .committing, waits := false }, exec_nodeCommitting_begins hn hkids hbusy hst hg hv hfits, ?_, rfl, rfl, ?_⟩
  · rw [does_seqs_cons, does_seqs_cons, does_seqs_cons, does_seqs_nil, ((reports_later ..).reported _).nodes, ((reports_commitBegins ..).reported _).nodes,
      does_upNode_some _ _ _ _ (setState_find hn _)]
    exact find_setO_self ..
  · rw [does_seqs_cons, does_seqs_cons, does_seqs_cons, does_seqs_nil, does_upNode_some _ _ _ _ (setState_find hn _)]
    generalize hu : State.does (State.apply _ _) (commitBegins _ _ _) = u
    have hnow : u.now = s.now := by
      rw [← hu, (reports_commitBegins ..).reports_now]
      exact setState_now ..
    obtain ⟨T, hlo, hhi, hT⟩ := (later_due u hpair (commitEnd n nk)).1
    simp only [State.commitPair] at hlo hhi
    exact ⟨T, by omega, by omega, hT⟩

end Ends

end Sys2Proof.Machine
end

section
/-!
SUPPORT. O51: one sector of a commit (R199): the view that loses it, and its write in the base view.
-/
namespace Sys2Proof.Machine

-- the commits that are under way

/-- Each view is still there, with the sectors that its commit has yet to write. -/
def KeepsCommits (s t : State) : Prop :=
  s.Inv → t.Inv ∧ ∀ k v, s.views.find k = some v → ∃ w, t.views.find k = some w ∧ w.commit = v.commit

theorem keepsCommits_chains : Chains KeepsCommits where
  refl _ hi := ⟨hi, fun _ v h => ⟨v, h, rfl⟩⟩
  trans h k hi :=
    let ⟨ht, hst⟩ := h hi
    let ⟨hu, htu⟩ := k ht
    ⟨hu, fun n v hv =>
      let ⟨w, hw, hwv⟩ := hst n v hv
      let ⟨x, hx, hxw⟩ := htu n w hw
      ⟨x, hx, hxw.trans hwv⟩⟩

theorem keepsCommits_of_keeps {e : Eff} (h : e.Keeps State.views) : e.Within KeepsCommits :=
  ⟨fun s hi => ⟨does_inv hi e, fun k v hv => ⟨v, by rw [h s]; exact hv, rfl⟩⟩⟩

theorem keepsCommits_act {a : Act} (h : ∀ s : State, (s.apply a).views = s.views) : (act a).Within KeepsCommits := keepsCommits_of_keeps fun s => h s

/-- An act that changes of the views of `m` their sectors alone. -/
def Act.Marks (m : AMap View) : Act → Prop
  | .view k (some w) => ∃ v, m.find k = some v ∧ w.commit = v.commit
  | _ => False

theorem marks_keepsCommits {m : AMap View} {e : Eff} (h : e.Only (Act.Marks m)) {s : State} (hm : s.views = m) : KeepsCommits s (s.does e) := fun hi =>
  ⟨does_inv hi e, h.preserves (P := fun t => ∀ k v, s.views.find k = some v → ∃ w, t.views.find k = some w ∧ w.commit = v.commit)
    (fun a ha t ht k v hv => by
      cases a with
      | view n x =>
        cases x with
        | none => exact ha.elim
        | some w =>
          obtain ⟨u, hu, hwu⟩ := ha
          by_cases hk : k = n
          · subst hk
            rw [hm, hu] at hv
            cases hv
            exact ⟨w, find_setO_self .., hwu⟩
          · obtain ⟨y, hy, hyv⟩ := ht k v hv
            exact ⟨y, (find_setO_some_ne _ _ hk).trans hy, hyv⟩
      | _ => exact ha.elim) fun k v hv => ⟨v, hv, rfl⟩⟩

theorem keepsCommits_markChanged (part tgt sec : Nat) : (markChanged part tgt sec).Within KeepsCommits := within_on fun s hi => by
  refine marks_keepsCommits (m := s.views) (only_each_mem fun kv hkv => ?_) rfl hi
  dsimp only
  split
  · exact only_ite (only_act ⟨kv.2, AMap_find_of_mem hi.views hkv, rfl⟩) only_skip
  · exact only_skip

theorem keepsCommits_putBytes (a : Nat) (l : List Byte) : (putBytes a l).Within KeepsCommits :=
  keepsCommits_of_keeps (keeps_putBytes (fun _ _ _ => rfl) a l)

theorem keepsCommits_writeBase (sec ofs : Nat) (l : List Byte) (full : Bool) (p : Option Word) (n : Nat) :
    (writeBase sec ofs l full p n).Within KeepsCommits := by
  have hR := keepsCommits_chains
  refine within_on fun s => (within_andThen hR (keepsCommits_markChanged ..) <| within_andThen hR ?_ <|
    within_andThen hR (keepsCommits_act fun _ => rfl) (within_skip hR)).rel s
  split
  · exact keepsCommits_putBytes ..
  · exact keepsCommits_putBytes ..

/-- A write in the base view is `writeBase`, whatever node makes it. -/
theorem writeSectorBy_clean (who : Option Nat) (part sec ofs : Nat) (l : List Byte) (full : Bool) :
    writeSectorBy who part 0 sec ofs l full none = writeBase sec ofs l full none 0 := rfl

theorem writeSectorBy_poisoned (who : Option Nat) (part sec ofs : Nat) (l : List Byte) (full : Bool) (w : Word) :
    writeSectorBy who part 0 sec ofs l full (some w) = freely (writeBase sec ofs l full (some w)) := rfl

theorem keepsCommits_writeSectorBy (who : Option Nat) (part sec ofs : Nat) (l : List Byte) (full : Bool) (p : Option Word) :
    (writeSectorBy who part 0 sec ofs l full p).Within KeepsCommits := by
  cases p with
  | none => exact keepsCommits_writeBase ..
  | some w =>
    rw [writeSectorBy_poisoned]
    exact within_freely keepsCommits_chains (fun s _ => (keepsCommits_act (a := .free _) fun _ => rfl).rel s) fun _ => keepsCommits_writeBase ..

theorem keepsCommits_devWrite (a : Nat) (l : List Byte) : (devWrite a l).Within KeepsCommits :=
  within_each keepsCommits_chains fun _ _ => keepsCommits_writeSectorBy ..

theorem keepsCommits_event (ty die part ctx a0 a1 a2 a3 : Nat) (data : List Byte) : (event ty die part ctx a0 a1 a2 a3 data).Within KeepsCommits := by
  have hR := keepsCommits_chains
  have hlost : eventLost.Within KeepsCommits := keepsCommits_of_keeps fun _ => rfl
  have hput (b : List Byte) : (eventPut b).Within KeepsCommits := within_on fun s => (within_andThen hR (keepsCommits_devWrite ..) <|
    within_andThen hR (keepsCommits_act fun _ => rfl) <| within_andThen hR (within_when hR fun _ => keepsCommits_of_keeps fun _ => rfl) (within_skip hR)).rel s
  refine within_on fun s => ?_
  dsimp only
  split
  · exact hlost.rel s
  · split
    · split
      · exact (keepsCommits_act (a := .waitEv _) fun _ => rfl).rel s
      · exact hlost.rel s
    · exact (hput _).rel s

theorem keepsCommits_origin {o : Origin} (ho : o.cause ≠ .data) {f : Word → Eff} (hf : ∀ w, (f w).Within KeepsCommits) : (origin o f).Within KeepsCommits := by
  have hR := keepsCommits_chains
  exact within_on fun s => (within_andThen hR (keepsCommits_devWrite ..) <| within_andThen hR (keepsCommits_act fun _ => rfl) <|
    within_andThen hR (within_when hR fun h => absurd (of_decide_eq_true h) ho) <| within_andThen hR (hf _) (within_skip hR)).rel s

theorem keepsCommits_conflict (part sec view : Nat) : (conflict part 0 sec view).Within KeepsCommits :=
  within_on fun s => (keepsCommits_origin (show PCause.conflict ≠ .data by decide) fun _ => within_andThen keepsCommits_chains (keepsCommits_writeSectorBy ..) (keepsCommits_event ..)).rel s

-- the write of a sector

/-- A poisoned write in the base view leaves its payload (R250, R254). -/
theorem bad_writeBase (s : State) (sec ofs : Nat) (l : List Byte) (full : Bool) (w : Word) (n : Nat) :
    (s.does (writeBase sec ofs l full (some w) n)).mem.bad.find sec = some w := by
  rw [writeBase, does_on]
  dsimp only
  rw [does_seqs_cons, does_seqs_cons, does_seqs_cons, does_seqs_nil]
  exact find_setO_self ..

theorem bad_writeSectorBy_poisoned (s : State) (who : Option Nat) (part sec ofs : Nat) (l : List Byte) (full : Bool) (w : Word) :
    (s.does (writeSectorBy who part 0 sec ofs l full (some w))).mem.bad.find sec = some w := by
  rw [writeSectorBy_poisoned, does_freely]
  exact bad_writeBase ..

/-- A whole clean write in the base view leaves the sector clean (R254). -/
theorem bad_writeSectorBy_whole {s : State} (hi : s.Inv) (sec : Nat) (l : List Byte) :
    (s.does (writeSectorBy none 0 0 sec 0 l true none)).mem.bad.find sec = none := by
  rw [writeSectorBy_clean, writeBase, does_on]
  dsimp only
  rw [if_pos (by simp), does_seqs_cons, does_seqs_cons, does_seqs_cons, does_seqs_nil]
  exact find_setO_none _ _ (does_inv (does_inv hi _) _).bad

theorem causeOf_payload (c : BitVec 4) (tab : Nat) (seq : BitVec 19) : causeOf (payload c tab seq) = c := by
  refine BitVec.eq_of_getLsbD_eq fun i hi => ?_
  rw [causeOf, BitVec.getLsbD_extractLsb', decide_eq_true hi, Bool.true_and]
  change BitVec.getLsbD (w := 4 + 8 + 1 + 19) (c ++ _ ++ _ ++ seq) (28 + i) = c.getLsbD i
  rw [BitVec.getLsbD_append, if_neg (by omega), BitVec.getLsbD_append, if_neg (by omega), BitVec.getLsbD_append, if_neg (by omega)]
  exact congrArg c.getLsbD (by omega)

/-- A lost event touches no memory (R316). -/
theorem event_mem_of_off {s : State} (h : s.csrBits offEQCTL 5 5 = 0) (ty die part ctx a0 a1 a2 a3 : Nat) (data : List Byte) :
    (s.does (event ty die part ctx a0 a1 a2 a3 data)).mem = s.mem := by
  rw [event, does_on]
  dsimp only
  rw [if_pos h]
  rfl

/-- An act that writes memory or an origin entry, but no CSR. -/
def Act.Stores : Act → Prop
  | .view .. | .byte .. | .bad .. | .free _ | .orig .. => True
  | _ => False

theorem csr_of_stores {e : Eff} (h : e.Only Act.Stores) (k : Nat) (s : State) : (s.does e).csr k = s.csr k :=
  h.keeps (q := fun s => s.csr k) (fun a ha s => by
    cases a with
    | view | byte | bad | free | orig => rfl
    | _ => exact ha.elim) s

theorem stores_writeSectorBy (who : Option Nat) (part sec ofs : Nat) (l : List Byte) (full : Bool) (p : Option Word) :
    (writeSectorBy who part 0 sec ofs l full p).Only Act.Stores := by
  have hput (a : Nat) (l : List Byte) : (putBytes a l).Only Act.Stores := by
    induction l generalizing a with
    | nil => exact only_skip
    | cons b l ih => exact ⟨fun s x hx => by
        rcases List.mem_cons.1 hx with rfl | hx
        · exact trivial
        · exact (ih (a + 1)).acts s x hx⟩
  have hmark (part tgt sec : Nat) : (markChanged part tgt sec).Only Act.Stores := only_on fun _ => only_each fun _ => by
    dsimp only
    split
    · exact only_ite (only_act trivial) only_skip
    · exact only_skip
  have hbase (n : Nat) : (writeBase sec ofs l full p n).Only Act.Stores := only_on fun _ => only_andThen (hmark ..) <|
    only_andThen (only_ite (hput ..) (hput ..)) <| only_andThen (only_act trivial) only_skip
  cases p with
  | none => exact hbase 0
  | some w => exact only_freely (fun _ => trivial) hbase

theorem stores_devWrite (a : Nat) (l : List Byte) : (devWrite a l).Only Act.Stores := only_each fun _ => stores_writeSectorBy ..

/-- A sector in conflict is poisoned with cause CONFLICT (R199, Table 11.1). -/
theorem bad_conflict {s : State} (h : s.csrBits offEQCTL 5 5 = 0) (part sec view : Nat) :
    ∃ w, (s.does (conflict part 0 sec view)).mem.bad.find sec = some w ∧ causeOf w = 7#4 := by
  rw [conflict, does_on]
  dsimp only
  rw [origin, does_on]
  dsimp only
  simp only [does_seqs_cons, does_seqs_nil, does_andThen]
  rw [event_mem_of_off]
  · exact ⟨_, bad_writeSectorBy_poisoned .., causeOf_payload ..⟩
  · rw [State.csrBits, writeSector, csr_of_stores (stores_writeSectorBy ..), does_when, if_neg (by simp), does_act]
    change bitsOf (State.csr (s.does (devWrite _ _)) offEQCTL).toNat 5 5 = 0
    rw [csr_of_stores (stores_devWrite ..)]
    exact h

-- the step of a commit

/-- What one sector `x` of a commit, with copy `c`, leaves in the base view. -/
structure Committed (s t : State) (x : Nat) (c : VSec) : Prop where
  bytes : c.changed = false → c.poison = none → t.mem.bytes (64 * x) 64 = c.bytes
  clean : c.changed = false → c.poison = none → t.mem.bad.find x = none
  others : c.changed = false → c.poison = none → ∀ m, (m < 64 * x ∨ 64 * x + 64 ≤ m) → t.mem.byte m = s.mem.byte m
  poison : c.changed = false → ∀ w, c.poison = some w → t.mem.bad.find x = some w
  conflict : c.changed = true → s.csrBits offEQCTL 5 5 = 0 → ∃ w, t.mem.bad.find x = some w ∧ causeOf w = 7#4

/-- The write of a copy in the base view, or the conflict there (R199). -/
def commitWrite (who : Option Nat) (part id sec : Nat) (c : VSec) : Eff :=
  if c.changed then conflict part 0 sec id else writeSectorBy who part 0 sec 0 c.bytes c.poison.isNone c.poison

theorem keepsCommits_commitWrite (who : Option Nat) (part id sec : Nat) (c : VSec) : (commitWrite who part id sec c).Within KeepsCommits := by
  unfold commitWrite
  split
  · exact keepsCommits_conflict ..
  · exact keepsCommits_writeSectorBy ..

theorem commitWrite_committed {s : State} (hi : s.Inv) (who : Option Nat) (part id sec : Nat) {c : VSec} (hlen : c.bytes.length = 64) :
    Committed s (s.does (commitWrite who part id sec c)) sec c := by
  unfold commitWrite
  cases hc : c.changed with
  | true =>
    rw [if_pos rfl]
    have hno {P : Prop} (h : c.changed = false) : P := Bool.noConfusion (hc.symm.trans h)
    exact ⟨hno, hno, hno, hno, fun _ h => bad_conflict h part sec id⟩
  | false =>
    rw [if_neg Bool.false_ne_true]
    have hno {P : Prop} (h : c.changed = true) : P := Bool.noConfusion (hc.symm.trans h)
    cases hp : c.poison with
    | none =>
      rw [Option.isNone_none, writeSectorBy_clean, ← writeSectorBy_clean none 0]
      have hbyte := byte_writeSectorBy_whole hi sec c.bytes
      have hbytes := bytes_of_stored hbyte
      rw [hlen] at hbytes
      refine ⟨fun _ _ => hbytes, fun _ _ => bad_writeSectorBy_whole hi sec c.bytes, fun _ _ m hm => ?_, fun _ w h => (nomatch hp.symm.trans h), hno⟩
      exact (hbyte m).trans (stored_outside _ (by rw [hlen]; exact hm))
    | some w =>
      have hdirty {P : Prop} (_ : c.changed = false) (h : c.poison = none) : P := nomatch hp.symm.trans h
      refine ⟨hdirty, hdirty, hdirty, fun _ x hx => ?_, hno⟩
      cases hp.symm.trans hx
      exact bad_writeSectorBy_poisoned ..

/-- The view once the commit has taken up one of its sectors. -/
def View.commits (v : View) (sec : Nat) : View := { v with commit := some ((v.commit.getD v.secs.keys).erase sec) }

theorem does_commitSector {s : State} {v : View} {sec : Nat} {c : VSec} (hv : s.views.find (viewKey v.part v.id) = some v) (hp : v.parent = 0)
    (hc : v.secs.find sec = some c) : s.does (commitSector v.part v.id sec)
      = (s.apply (.view (viewKey v.part v.id) (some (v.commits sec)))).does (commitWrite (some (s.commitBy v)) v.part v.id sec c) := by
  have hwrite : (if c.changed then conflict v.part v.parent sec v.id
      else writeSectorBy (some (s.commitBy v)) v.part v.parent sec 0 c.bytes c.poison.isNone c.poison)
      = commitWrite (some (s.commitBy v)) v.part v.id sec c := by rw [commitWrite, hp]
  rw [commitSector, does_on, hv, does_onSome_some, does_andThen, does_act, hc, does_onSome_some, hwrite]
  rfl

theorem exec_nodeCommitting_goes {s : State} {nk k : Nat} {n : Node} {v : View} (hn : s.nodes.find nk = some n)
    (h : (s.views.find? fun kv => kv.2.node = some nk && (kv.2.commit.getD []) ≠ []) = some (k, v)) :
    exec (.nodeCommitting nk) s = .next (s.does (commitGoes v (.nodeCommitting nk))) := by
  change execNodeCommitting nk s = _
  simp only [execNodeCommitting, fire, hn, h]
  rfl

/-- A commit that goes on takes up one of its sectors, and comes again later. -/
theorem does_commitGoes (s : State) {v : View} (i : Instr) (h : v.commit.getD [] ≠ []) : ∃ x f p, x ∈ v.commit.getD []
    ∧ s.does (commitGoes v i) = (((s.apply (.free f)).apply (.free p)).does (commitSector v.part v.id x)).does
      (when (1 < (v.commit.getD []).length) (after (1 + Config.pick (s.free + 1) % 64) i)) := by
  have hlen : Config.pick s.free % max 1 (v.commit.getD []).length < (v.commit.getD []).length := by
    have hpos := List.length_pos_iff.2 h
    rw [Nat.max_eq_right hpos]
    exact Nat.mod_lt _ hpos
  refine ⟨(v.commit.getD [])[Config.pick s.free % max 1 (v.commit.getD []).length], s.free + 1, s.free + 1 + 1, List.getElem_mem _, ?_⟩
  rw [commitGoes, does_freely, does_freely]
  dsimp only
  rw [does_andThen, List.getElem?_eq_getElem hlen, does_onSome_some]
  rfl

theorem nodeCommitting_goes {s : State} {nk k : Nat} {n : Node} {v : View} (hi : s.Inv) (hn : s.nodes.find nk = some n)
    (h : (s.views.find? fun kv => kv.2.node = some nk && (kv.2.commit.getD []) ≠ []) = some (k, v)) (hk : k = viewKey v.part v.id) (hp : v.parent = 0)
    (hv : s.views.find k = some v) (hsecs : ∀ x ∈ v.commit.getD [], ∃ c, v.secs.find x = some c ∧ c.bytes.length = 64) :
    ∃ t x v', exec (.nodeCommitting nk) s = .next t ∧ x ∈ v.commit.getD [] ∧ t.views.find k = some v' ∧ v'.commit = some ((v.commit.getD []).erase x)
      ∧ ∀ c, v.secs.find x = some c → Committed s t x c := by
  have hne : v.commit.getD [] ≠ [] := by
    have hh := List.find?_some h
    simp only [Bool.and_eq_true, decide_eq_true_eq] at hh
    exact hh.2
  obtain ⟨x, f, p, hx, hd⟩ := does_commitGoes s (.nodeCommitting nk) hne
  obtain ⟨c, hc, hlen⟩ := hsecs x hx
  generalize hu : (s.apply (.free f)).apply (.free p) = u at hd
  have huv : u.views = s.views := by rw [← hu]; rfl
  have hum : u.mem = s.mem := by rw [← hu]; rfl
  have huc : u.csrBits offEQCTL 5 5 = s.csrBits offEQCTL 5 5 := by rw [← hu]; rfl
  have hui : u.Inv := by rw [← hu]; exact apply_keeps_inv (apply_keeps_inv hi _) _
  subst hk
  rw [← huv] at hv
  rw [does_commitSector hv hp hc] at hd
  have hwi : (u.apply (.view (viewKey v.part v.id) (some (v.commits x)))).Inv := apply_keeps_inv hui _
  obtain ⟨-, hkeep⟩ := (keepsCommits_commitWrite (some (u.commitBy v)) v.part v.id x c).rel _ hwi
  obtain ⟨v', hv', hcom⟩ := hkeep _ _ (find_setO_self ..)
  have hC := commitWrite_committed hwi (some (u.commitBy v)) v.part v.id x hlen
  generalize State.does (u.apply _) (commitWrite _ _ _ _ _) = w at hd hv' hC
  have hafter {β : Type} (q : State → β) (hq : ∀ l (s : State), q (s.apply (.timers l)) = q s) : q (s.does (commitGoes v (.nodeCommitting nk))) = q w := by
    rw [hd, does_when]
    split
    · exact hq _ _
    · rfl
  refine ⟨_, x, v', exec_nodeCommitting_goes hn h, hx, ?_, ?_, fun y hy => ?_⟩
  · rw [hafter State.views fun _ _ => rfl]
    exact hv'
  · rw [hcom]
    cases hl : v.commit with
    | none => simp [hl] at hne
    | some l => simp [View.commits, hl]
  · cases hc.symm.trans hy
    have hmem := hafter State.mem fun _ _ => rfl
    refine ⟨fun h1 h2 => ?_, fun h1 h2 => ?_, fun h1 h2 m hm => ?_, fun h1 w hw => ?_, fun h1 h2 => ?_⟩
    · rw [hmem]; exact hC.bytes h1 h2
    · rw [hmem]; exact hC.clean h1 h2
    · rw [hmem, hC.others h1 h2 m hm, ← hum]; rfl
    · rw [hmem]; exact hC.poison h1 w hw
    · rw [hmem]; exact hC.conflict h1 (huc.trans h2)

/-- Settles O51: the ends of a node, and the sectors of a commit one by one. -/
theorem nodesFinish : Obligations.NodesFinish := by
  unfold Obligations.NodesFinish
  refine ⟨fun s nk n hi hn hkids hbusy hst => ⟨fun hg hpair hr hp => ?_, fun hg hr hp => ?_, fun hg hv hfits => ?_⟩, ?_⟩
  · obtain ⟨⟨n', hn', hdone⟩, hq, ht⟩ := doneNode_done hn
    exact ⟨_, n', exec_nodeDone hn hkids hbusy hst hg hpair hr hp, hn', hdone, hq, ht⟩
  · refine ⟨_, { n with st := .complete }, exec_rivalComplete hn hkids hbusy hst hg hr hp, ?_, rfl, ?_, fun k o h d a b ho hins _ how =>
      chooseAgain_agenda (apply_keeps_inv hi _) ho hins how⟩
    · rw [soon_chooseAgain.keeps (q := State.nodes) fun a ha s => by cases a with | agenda => rfl | _ => exact ha.elim]
      exact find_setO_self ..
    · exact soon_chooseAgain.keeps (q := State.mem) (fun a ha s => by cases a with | agenda => rfl | _ => exact ha.elim) _
  · exact nodeCommitting_commits hn hkids hbusy hst hg hv hfits
  · intro s nk k n v hi hn h hk hp hv _ hsecs
    obtain ⟨t, x, v', ht, hx, hv', hcom, hC⟩ := nodeCommitting_goes hi hn h hk hp hv hsecs
    exact ⟨t, x, v', ht, hx, hv', hcom, fun c hc => ⟨fun h1 h2 => ⟨(hC c hc).bytes h1 h2, (hC c hc).clean h1 h2, (hC c hc).others h1 h2⟩,
      (hC c hc).poison, (hC c hc).conflict⟩⟩

end Sys2Proof.Machine
end

section
/-!
SUPPORT. O49: the views that nodes take before their teams are placed (R51, R267), which decide no frame (R64).
-/
namespace Sys2Proof.Machine

-- finite maps

theorem find_mapVal {α : Type} (m : AMap α) (f : α → α) (k : Nat) : (m.mapVal f).find k = (m.find k).map f := by
  induction m with
  | nil => rfl
  | cons p m ih =>
    obtain ⟨j, b⟩ := p
    simp only [AMap.mapVal, List.map_cons, AMap.find] at ih ⊢
    split
    · rfl
    · split
      · rfl
      · exact ih

/-- A new value that `f` does not tell from the old one. -/
theorem mapVal_put {α : Type} {m : AMap α} {k : Nat} {x a : α} (h : m.find k = some x) {f : α → α} (hf : f a = f x) :
    (m.put k a).mapVal f = m.mapVal f := by
  induction m with
  | nil => cases h
  | cons p m ih =>
    obtain ⟨j, b⟩ := p
    simp only [AMap.find] at h
    simp only [AMap.put]
    by_cases hjk : j = k
    · subst hjk
      simp only [if_true, Option.some.injEq] at h
      subst h
      simp [AMap.mapVal, hf]
    · rw [if_neg hjk] at h
      by_cases hkj : k < j
      · rw [if_pos hkj] at h
        cases h
      · rw [if_neg hkj] at h
        rw [if_neg hkj, if_neg hjk]
        exact congrArg _ (ih h)

theorem keys_filter_mapVal {α : Type} (m : AMap α) (f : α → α) {p : Nat × α → Bool} (hp : ∀ k a, p (k, f a) = p (k, a)) :
    ((m.mapVal f).filter p).map Prod.fst = (m.filter p).map Prod.fst := by
  induction m with
  | nil => rfl
  | cons q m ih =>
    obtain ⟨j, b⟩ := q
    simp only [AMap.mapVal, List.map_cons, List.filter_cons, hp] at ih ⊢
    split
    · exact congrArg (j :: ·) ih
    · exact ih

-- nodes apart from their views

/-- A node without the views that it has settled. -/
def Node.noViews (n : Node) : Node := { n with view := 0, priv := none }

/-- Only views, the views of nodes, and the number of free values have changed. -/
def SameButViews (s t : State) : Prop :=
  t.nodes.mapVal Node.noViews = s.nodes.mapVal Node.noViews ∧ t = { s with nodes := t.nodes, views := t.views, free := t.free }

theorem sameButViews_chains : Chains SameButViews where
  refl _ := ⟨rfl, rfl⟩
  trans h k := by
    obtain ⟨hn, hs⟩ := h
    obtain ⟨kn, ks⟩ := k
    refine ⟨kn.trans hn, ?_⟩
    rw [hs] at ks
    exact ks

theorem sameButViews_upNode (nk : Nat) {f : Node → Node} (hf : ∀ n, (f n).noViews = n.noViews) : (upNode nk f).Within SameButViews := ⟨fun s => by
  cases h : s.nodes.find nk with
  | none => rw [does_upNode_none _ _ _ h]; exact sameButViews_chains.refl s
  | some x => rw [does_upNode_some _ _ _ _ h]; exact ⟨mapVal_put h (hf x), rfl⟩⟩

theorem sameButViews_settleView (nk : Nat) : (settleView nk).Within SameButViews :=
  have hR := sameButViews_chains
  within_on fun s => (within_onSome hR fun n => by
    dsimp only
    generalize (if n.needsView then s.freeView (s.lead n.ctx) else none) = o
    cases o with
    | none => exact sameButViews_upNode nk fun _ => rfl
    | some k => exact within_andThen hR (within_act fun _ => ⟨rfl, rfl⟩) <| within_andThen hR (within_act fun _ => ⟨rfl, rfl⟩) <|
        within_andThen hR (sameButViews_upNode nk fun _ => rfl) (within_skip hR)).rel s

section Fits
variable {s t : State} (h : SameButViews s t)
include h

theorem SameButViews.find (k : Nat) : (t.nodes.find k).map Node.noViews = (s.nodes.find k).map Node.noViews := by
  rw [← find_mapVal, ← find_mapVal, h.1]

/-- What a node is apart from its views is the same in both states. -/
theorem SameButViews.elim {β : Type} (k : Nat) (d : β) {q : Node → β} (hq : ∀ n, q n.noViews = q n) :
    (t.nodes.find k).elim d q = (s.nodes.find k).elim d q := by
  have he (o : Option Node) : o.elim d q = (o.map Node.noViews).elim d q := by
    cases o with
    | none => rfl
    | some n => exact (hq n).symm
  rw [he, he (s.nodes.find k), h.find]

theorem SameButViews.node {k : Nat} {n : Node} (hn : s.nodes.find k = some n) :
    ∃ m, t.nodes.find k = some m ∧ m = { n with view := m.view, priv := m.priv } := by
  have hf := h.find k
  rw [hn] at hf
  obtain ⟨m, hm, hmn⟩ := Option.map_eq_some_iff.1 hf
  refine ⟨m, hm, ?_⟩
  have hback (x : Node) : x = { x.noViews with view := x.view, priv := x.priv } := rfl
  rw [hback m, hmn]
  rfl

theorem SameButViews.teams : t.teams = s.teams := by rw [h.2]

theorem SameButViews.effOf : t.effOf = s.effOf := funext fun tm => h.elim tm.node _ fun _ => rfl

theorem SameButViews.taken : t.taken = s.taken := by
  unfold State.taken
  rw [h.effOf, h.teams]

theorem SameButViews.below (n k : Nat) : t.below n k = s.below n k := by
  induction n generalizing k with
  | zero => rfl
  | succ n ih =>
    have hkids (k : Nat) : (t.nodes.filter fun kv => kv.2.parent = some k).map Prod.fst = (s.nodes.filter fun kv => kv.2.parent = some k).map Prod.fst := by
      rw [← keys_filter_mapVal t.nodes Node.noViews fun _ _ => rfl, h.1]
      exact keys_filter_mapVal s.nodes Node.noViews fun _ _ => rfl
    simp only [State.below, hkids, funext ih]

theorem SameButViews.length : t.nodes.length = s.nodes.length := by
  have hl := congrArg List.length h.1
  simpa only [AMap.mapVal, List.length_map] using hl

theorem SameButViews.descendants (k : Nat) : t.descendants k = s.descendants k := by
  unfold State.descendants
  rw [h.below, h.length]

theorem SameButViews.ancestry (n k : Nat) : t.ancestry n k = s.ancestry n k := by
  induction n generalizing k with
  | zero => rfl
  | succ n ih =>
    have hpar : (t.nodes.find k).bind Node.parent = (s.nodes.find k).bind Node.parent := by
      have hb (o : Option Node) : o.bind Node.parent = o.elim none Node.parent := by cases o <;> rfl
      rw [hb, hb (s.nodes.find k), h.elim k none fun _ => rfl]
    rw [State.ancestry, State.ancestry, hpar, funext ih]

theorem SameButViews.budgetsHold (nk frame lgr : Nat) : t.budgetsHold nk frame lgr = s.budgetsHold nk frame lgr := by
  unfold State.budgetsHold
  rw [h.ancestry, h.length]
  refine congrArg (fun q => List.all _ q) (funext fun a => ?_)
  simp only [h.descendants, h.teams]
  exact h.elim a true fun _ => rfl

theorem SameButViews.freeGran (frame : Nat) : t.freeGran frame = s.freeGran frame := by rw [h.2]; rfl

theorem SameButViews.resizing (frame : Nat) : t.resizing frame = s.resizing frame := by rw [h.2]; rfl

/-- The views of nodes decide no frame (R64). -/
theorem SameButViews.frameFor (c : Ctx) (nk : Nat) (e : Rcb) : t.frameFor c nk e = s.frameFor c nk e := by
  have hfits (f : Nat) : t.fits nk f e = s.fits nk f e := by
    unfold State.fits
    rw [h.taken, h.freeGran, h.resizing, h.budgetsHold]
  simp only [State.frameFor, hfits]

end Fits

end Sys2Proof.Machine
end

section
/-!
SUPPORT. O49: the reservation of a team (R64 to R66).
-/
namespace Sys2Proof.Machine

/-- The team that a node `x` gets on frame `f` (R64, R66). -/
structure Reserved (s : State) (nk f : Nat) (x : Node) (tm : Team) : Prop where
  node : tm.node = nk
  index : tm.index = x.tnext
  frame : tm.frame = f
  started : tm.started = false
  vgr : tm.vgr = x.eff.vgr
  sgr : tm.sgr = x.eff.sgr
  lgr : tm.lgr = x.eff.lgr
  startAt : tm.startAt = max (s.nextStart (partOf f)) (s.lastStart nk)
  issueLo : s.now + 595 ≤ tm.issueAt
  issueHi : tm.issueAt ≤ s.now + 1980

/-- The start of a team is to come (R66). -/
def Starts (t : State) (tk : Nat) (tm : Team) : Prop :=
  if tm.startAt = t.now then .teamStart tk ∈ t.agenda else (tm.startAt, .teamStart tk) ∈ t.timers

/-- The team that `reserveOn` makes. -/
def newTeam (s : State) (nk f : Nat) (x : Node) : Team :=
  let k := Config.pick (s.free + 1) % ((s.freeGran f).length + 1)
  { node := nk, index := x.tnext, frame := f, vframe := s.vframe f, started := false, groups := [], lgr := x.eff.lgr,
    gran := ((s.freeGran f).drop k ++ (s.freeGran f).take k).take x.eff.lgr, startAt := max (s.nextStart (partOf f)) (s.lastStart nk),
    issueAt := s.now + delay 595 1980 s.free, vgr := x.eff.vgr, sgr := x.eff.sgr, nbar := x.eff.nbar, ntile := x.eff.ntile, nacc := x.eff.nacc,
    words := [], bars := [], tiles := [], accs := [] }

theorem newTeam_reserved (s : State) (nk f : Nat) (x : Node) : Reserved s nk f x (newTeam s nk f x) :=
  ⟨rfl, rfl, rfl, rfl, rfl, rfl, rfl, rfl, Nat.add_le_add_left (Nat.le_add_right ..) _, Nat.add_le_add_left (delay_le (by omega) _) _⟩

/-- The state once a node has its next team, whose start is still to be set. -/
def State.withTeam (s : State) (nk f : Nat) (x : Node) (c : Ctx) : State :=
  (((((s.apply (.free (s.free + 1))).apply (.free (s.free + 1 + 1))).apply (.ids (s.ids + 1))).apply (.team s.ids (some (newTeam s nk f x)))).apply
    (.node nk (some { x with tnext := x.tnext + 1 }))).apply (.ctx x.ctx (some { c with lastFrame := some f }))

section Reserve
variable {s : State} {nk f : Nat} {x : Node} {c : Ctx}

theorem does_reserveOn (hx : s.nodes.find nk = some x) (hc : s.ctxs.find x.ctx = some c) : s.does (reserveOn nk f)
    = (s.withTeam nk f x c).does (if (newTeam s nk f x).startAt = s.now then soon (.teamStart s.ids) else at_ (newTeam s nk f x).startAt (.teamStart s.ids)) := by
  rw [reserveOn, does_freely, does_freely, does_fresh, does_on]
  change State.does _ (match s.nodes.find nk with | none => skip | some x => _) = _
  rw [hx]
  dsimp only
  rw [does_seqs_cons, does_act, does_seqs_cons, does_upNode_some _ _ _ x, does_seqs_cons, does_upCtx_some _ _ _ c, does_seqs_cons, does_seqs_nil]
  · rfl
  · simpa only [apply_ctxs] using hc
  · simpa only [apply_nodes] using hx

theorem withTeam_now : (s.withTeam nk f x c).now = s.now := by
  simp only [State.withTeam, apply_now]

theorem withTeam_teams : (s.withTeam nk f x c).teams = setO s.teams s.ids (some (newTeam s nk f x)) := by simp only [State.withTeam, apply_teams]

theorem withTeam_nodes : (s.withTeam nk f x c).nodes = setO s.nodes nk (some { x with tnext := x.tnext + 1 }) := by simp only [State.withTeam, apply_nodes]

theorem withTeam_ctxs : (s.withTeam nk f x c).ctxs = setO s.ctxs x.ctx (some { c with lastFrame := some f }) := by simp only [State.withTeam, apply_ctxs]

/-- The step that the start of the new team sets touches the agenda and the timers alone. -/
theorem keeps_start {β : Type} {q : State → β} (ha : ∀ l (s : State), q (s.apply (.agenda l)) = q s) (ht : ∀ l (s : State), q (s.apply (.timers l)) = q s)
    (p : Prop) [Decidable p] (i : Instr) (n : Nat) : (if p then soon i else at_ n i).Keeps q := fun s => by
  split
  · exact ha _ s
  · exact ht _ s

theorem reserveOn_reserves (hx : s.nodes.find nk = some x) (hc : s.ctxs.find x.ctx = some c) {t : State} (ht : s.does (reserveOn nk f) = t) :
    t.now = s.now ∧ t.teams.find s.ids = some (newTeam s nk f x) ∧ t.nodes.find nk = some { x with tnext := x.tnext + 1 }
      ∧ t.ctxs.find x.ctx = some { c with lastFrame := some f } ∧ Starts t s.ids (newTeam s nk f x) := by
  subst ht
  rw [does_reserveOn hx hc]
  have hkeep {β : Type} {q : State → β} (ha : ∀ l (s : State), q (s.apply (.agenda l)) = q s) (ht : ∀ l (s : State), q (s.apply (.timers l)) = q s) :=
    keeps_start ha ht ((newTeam s nk f x).startAt = s.now) (.teamStart s.ids) (newTeam s nk f x).startAt (s.withTeam nk f x c)
  have hnow := (hkeep (q := State.now) (fun _ _ => rfl) fun _ _ => rfl).trans withTeam_now
  refine ⟨hnow, ?_, ?_, ?_, ?_⟩
  · rw [hkeep (q := State.teams) (fun _ _ => rfl) fun _ _ => rfl, withTeam_teams, find_setO_self]
  · rw [hkeep (q := State.nodes) (fun _ _ => rfl) fun _ _ => rfl, withTeam_nodes, find_setO_self]
  · rw [hkeep (q := State.ctxs) (fun _ _ => rfl) fun _ _ => rfl, withTeam_ctxs, find_setO_self]
  · unfold Starts
    rw [hnow]
    split
    · exact mem_agenda_soon ..
    · exact List.mem_append_right _ List.mem_cons_self

end Reserve

-- the placing of a node

/-- The views that a node needs are settled before its team is reserved (R267). -/
def State.viewsSettled (s : State) (nk : Nat) : State := s.does (each (s.viewLine s.nodes.length nk) settleView)

theorem viewsSettled_sameButViews (s : State) (nk : Nat) : SameButViews s (s.viewsSettled nk) :=
  (within_each sameButViews_chains fun _ _ => sameButViews_settleView _).rel s

section Place
variable {s : State} {nk f : Nat} {n : Node} {c : Ctx}

theorem reservation_settled {u : State} (h : SameButViews s u) (hn : s.nodes.find nk = some n) (hc : s.ctxs.find n.ctx = some c)
    (hg : n.eff.gang = false) (hf : s.frameFor c nk n.eff = some f) : reservation u nk = some (reserveOn nk f u) := by
  obtain ⟨m, hm, hmn⟩ := h.node hn
  have heff : m.eff = n.eff := by rw [hmn]
  have hctx : m.ctx = n.ctx := by rw [hmn]
  have hcu : u.ctxs.find n.ctx = some c := by rw [h.2]; exact hc
  have hfu : u.frameFor c nk n.eff = some f := (h.frameFor c nk n.eff).trans hf
  unfold reservation
  rw [hm]
  dsimp only
  rw [heff, hctx, hg, if_neg Bool.false_ne_true, Option.bind_some]
  change (u.ctxs.find n.ctx).bind _ = _
  rw [hcu, Option.bind_some]
  change (u.frameFor c nk n.eff).map _ = _
  rw [hfu]
  rfl

theorem does_placeNode (hn : s.nodes.find nk = some n) (hc : s.ctxs.find n.ctx = some c) (hg : n.eff.gang = false)
    (hf : s.frameFor c nk n.eff = some f) : s.does (placeNode nk)
      = ((s.viewsSettled nk).does (reserveOn nk f)).does (when (n.st = .ready) (setState nk .running)) := by
  have hres : (s.viewsSettled nk).does (on fun s _ => (reservation s nk).getD []) = (s.viewsSettled nk).does (reserveOn nk f) := by
    change (s.viewsSettled nk).run ((reservation (s.viewsSettled nk) nk).getD []) = _
    rw [reservation_settled (viewsSettled_sameButViews s nk) hn hc hg hf]
    rfl
  rw [placeNode, does_on, hn, does_onSome_some, does_seqs_cons, does_seqs_cons, does_seqs_cons, does_seqs_nil, ← hres]
  rfl

end Place

/-- What neither a node nor a report touches, a change of a node's state keeps. -/
theorem keeps_setState {β : Type} {q : State → β} {nk : Nat} (hn : ∀ k x (s : State), q (s.apply (.node k x)) = q s) (hr : (rcbWrite nk).Keeps q)
    (st : NState) : (setState nk st).Keeps q := fun s => by
  rw [setState, does_andThen, hr]
  cases h : s.nodes.find nk with
  | none => rw [does_upNode_none _ _ _ h]
  | some x => rw [does_upNode_some _ _ _ _ h]; exact hn ..

theorem setState_teams (nk : Nat) (st : NState) : (setState nk st).Keeps State.teams :=
  keeps_setState (fun _ _ _ => rfl) ((reports_rcbWrite nk).keeps fun a ha s => by
    cases a with
    | team => exact ha.elim
    | _ => rfl) st

theorem setState_agenda (nk : Nat) (st : NState) : (setState nk st).Keeps State.agenda :=
  keeps_setState (fun _ _ _ => rfl) ((reports_rcbWrite nk).keeps fun a ha s => by
    cases a with
    | agenda => exact ha.elim
    | _ => rfl) st

theorem setState_timers (nk : Nat) (st : NState) : (setState nk st).Keeps State.timers :=
  keeps_setState (fun _ _ _ => rfl) ((background_rcbWrite nk).keeps fun a ha s => by
    cases a with
    | timers => exact ha.elim
    | _ => rfl) st

theorem setState_ctxs (nk : Nat) (st : NState) : (setState nk st).Keeps State.ctxs :=
  keeps_setState (fun _ _ _ => rfl) (fun s => ((reports_rcbWrite nk).reported s).ctxs) st

/-- A node whose team has been placed runs (R45). -/
theorem runs_find {s : State} {nk : Nat} {x : Node} (hx : s.nodes.find nk = some x) {b : Bool} (hb : b = true ∨ x.st = .running) :
    (s.does (when b (setState nk .running))).nodes.find nk = some { x with st := .running } := by
  rw [does_when]
  split
  · exact setState_find hx .running
  · rename_i h
    rcases hb with hb | hb
    · exact absurd hb h
    · rw [hx, ← hb]

theorem Reserved.of_views {s u : State} (h : SameButViews s u) {nk f : Nat} {n m : Node} (hm : m = { n with view := m.view, priv := m.priv }) {tm : Team}
    (hr : Reserved u nk f m tm) : Reserved s nk f n tm := by
  have heff : m.eff = n.eff := by rw [hm]
  have hnext : m.tnext = n.tnext := by rw [hm]
  have hnow : u.now = s.now := by rw [h.2]
  have hstart : u.nextStart (partOf f) = s.nextStart (partOf f) := by rw [State.nextStart, State.nextStart, h.teams, hnow]
  have hlast : u.lastStart nk = s.lastStart nk := by rw [State.lastStart, State.lastStart, h.teams]
  obtain ⟨hnode, hindex, hframe, hstarted, hvgr, hsgr, hlgr, hat, hlo, hhi⟩ := hr
  rw [heff] at hvgr hsgr hlgr
  rw [hnow] at hlo hhi
  exact ⟨hnode, hindex.trans hnext, hframe, hstarted, hvgr, hsgr, hlgr, by rw [hat, hstart, hlast], hlo, hhi⟩

theorem Starts.mono {t u : State} {tk : Nat} {tm : Team} (h : Starts t tk tm) (hnow : u.now = t.now) (ha : ∀ i ∈ t.agenda, i ∈ u.agenda)
    (ht : u.timers = t.timers) : Starts u tk tm := by
  unfold Starts at h ⊢
  rw [hnow, ht]
  split
  · rename_i he
    rw [if_pos he] at h
    exact ha _ h
  · rename_i he
    rw [if_neg he] at h
    exact h

-- the reservation as a step

section Step
variable {s : State} {ctx nk f : Nat} {c : Ctx} {n : Node} {rest : List (Nat × Node)}

/-- The head of the order is placed when it can be (R65). -/
theorem exec_teamReservation (hc : s.ctxs.find ctx = some c) (hr : c.run = .resident) (hp : s.placeable ctx = (nk, n) :: rest)
    (hcan : s.canPlace nk n = true) (hlim : c.limit.any s.limits = true → c.limit = some (nk, n.tnext)) :
    exec (.teamReservation ctx) s = .next (s.does (tryPlace ctx c (nk, n) (upCtx ctx fun c => { c with headAt := none }))) := by
  have hwhen : (!c.limit.any s.limits || decide (c.limit = some (nk, n.tnext))) = true := by
    cases h : c.limit.any s.limits with
    | false => rfl
    | true => rw [Bool.not_true, Bool.false_or]; exact decide_eq_true (hlim h)
  change execTeamReservation ctx s = _
  simp only [execTeamReservation, fire, hc, hr, hp, hcan]
  rw [if_neg (by simp), if_pos trivial, hwhen]
  rfl

theorem nextStart_ge (s : State) (p : Nat) : s.now ≤ s.nextStart p := by
  have h : ∀ (l : List Nat) (m : Nat), m ≤ l.foldl max m := by
    intro l
    induction l with
    | nil => exact fun m => Nat.le_refl m
    | cons a l ih => exact fun m => Nat.le_trans (Nat.le_max_left m a) (ih _)
  exact h _ _

theorem teamReservation_waits (hc : s.ctxs.find ctx = some c) (hr : c.run = .resident) (hp : s.placeable ctx = (nk, n) :: rest)
    (hg : n.eff.gang = false) (hcan : s.canPlace nk n = true) (hf : s.frameFor c nk n.eff = some f)
    (hlim : c.limit.any s.limits = true → c.limit = some (nk, n.tnext)) (hne : s.nextStart (partOf f) ≠ s.now) :
    ∃ t, exec (.teamReservation ctx) s = .next t ∧ t.teams = s.teams ∧ t.nodes = s.nodes ∧ (s.nextStart (partOf f), .teamReservation ctx) ∈ t.timers := by
  have hlt : s.now < s.nextStart (partOf f) := Nat.lt_of_le_of_ne (nextStart_ge ..) (Ne.symm hne)
  have hturn : s.turnFor c nk n = some (s.nextStart (partOf f)) := by
    simp only [State.turnFor, hg, Bool.false_eq_true, if_false, hf, Option.bind_some, hlt, if_true]
  refine ⟨_, exec_teamReservation hc hr hp hcan hlim, ?_⟩
  rw [tryPlace, does_on]
  dsimp only
  rw [hturn]
  dsimp only
  rw [does_when]
  split
  · exact ⟨rfl, rfl, List.mem_append_right _ List.mem_cons_self⟩
  · rename_i h
    rw [Bool.not_eq_true', Bool.not_eq_false] at h
    exact ⟨rfl, rfl, List.contains_iff_mem.1 h⟩

theorem teamReservation_reserves (hc : s.ctxs.find ctx = some c) (hr : c.run = .resident) (hp : s.placeable ctx = (nk, n) :: rest)
    (hn : s.nodes.find nk = some n) (hctx : n.ctx = ctx) (hst : n.st = .ready ∨ n.st = .running) (hg : n.eff.gang = false)
    (hcan : s.canPlace nk n = true) (hf : s.frameFor c nk n.eff = some f) (hlim : c.limit.any s.limits = true → c.limit = some (nk, n.tnext))
    (hnow : s.nextStart (partOf f) = s.now) :
    ∃ t tm n', exec (.teamReservation ctx) s = .next t ∧ t.teams.find s.ids = some tm ∧ Reserved s nk f n tm ∧ t.now = s.now ∧ Starts t s.ids tm
      ∧ t.nodes.find nk = some n' ∧ n'.tnext = n.tnext + 1 ∧ n'.st = .running
      ∧ t.ctxs.find ctx = some { c with lastFrame := some f, headAt := none } ∧ .teamReservation ctx ∈ t.agenda := by
  have hturn : s.turnFor c nk n = none := by
    simp only [State.turnFor, hg, Bool.false_eq_true, if_false, hf, Option.bind_some, hnow, Nat.lt_irrefl]
  subst hctx
  have hsame := viewsSettled_sameButViews s nk
  obtain ⟨m, hm, hmn⟩ := hsame.node hn
  have hmctx : m.ctx = n.ctx := by rw [hmn]
  have hcu : (s.viewsSettled nk).ctxs.find m.ctx = some c := by rw [hsame.2, hmctx]; exact hc
  have hidu : (s.viewsSettled nk).ids = s.ids := by rw [hsame.2]
  have hnowu : (s.viewsSettled nk).now = s.now := by rw [hsame.2]
  obtain ⟨hnow1, hteam1, hnode1, hctx1, hstart1⟩ := reserveOn_reserves (f := f) hm hcu rfl
  have hres := (newTeam_reserved (s.viewsSettled nk) nk f m).of_views hsame hmn
  rw [hidu] at hteam1 hstart1
  rw [hmctx] at hctx1
  rw [hnowu] at hnow1
  have hd : s.does (tryPlace n.ctx c (nk, n) (upCtx n.ctx fun c => { c with headAt := none })) = ((((s.viewsSettled nk).does (reserveOn nk f)).does
      (when (n.st = .ready) (setState nk .running))).does (upCtx n.ctx fun c => { c with headAt := none })).does (soon (.teamReservation n.ctx)) := by
    rw [tryPlace, does_on]
    dsimp only
    rw [hturn]
    dsimp only
    rw [does_seqs_cons, does_seqs_cons, does_seqs_cons, does_seqs_nil, does_placeNode hn hc hg hf]
  generalize (s.viewsSettled nk).does (reserveOn nk f) = u at *
  have hkeep {β : Type} {q : State → β} (h : (setState nk .running).Keeps q) : q (u.does (when (n.st = .ready) (setState nk .running))) = q u := by
    rw [does_when]
    split
    · exact h u
    · rfl
  have hrun := runs_find (b := decide (n.st = .ready)) hnode1 (hst.imp decide_eq_true fun h => by rw [← h, hmn])
  have hctx2 := (congrArg (fun m => AMap.find m n.ctx) (hkeep (setState_ctxs nk .running))).trans hctx1
  refine ⟨_, newTeam (s.viewsSettled nk) nk f m, { m with tnext := m.tnext + 1, st := .running },
    (exec_teamReservation hc hr hp hcan hlim).trans (congrArg _ hd), ?_, hres, ?_, ?_, ?_, by rw [hmn], rfl, ?_, mem_agenda_soon ..⟩
  all_goals rw [does_upCtx_some _ _ _ _ hctx2]
  · exact (congrArg (fun m => AMap.find m s.ids) (hkeep (setState_teams nk .running))).trans hteam1
  · exact (hkeep fun t => setState_now t nk .running).trans hnow1
  · exact hstart1.mono (hkeep fun t => setState_now t nk .running) (fun i hi => List.mem_append_left _ ((hkeep (setState_agenda nk .running)).symm ▸ hi))
      (hkeep (setState_timers nk .running))
  · exact hrun
  · exact find_setO_self ..

end Step

end Sys2Proof.Machine
end

section
/-!
SUPPORT. O49: the head's limit, and the start of a team (R28, R63, R65, R66).
-/
namespace Sys2Proof.Machine

-- free numbers

/-- Among more numbers than are used there is a free one (pigeonhole). -/
theorem freeId_free {used : List Nat} {n : Nat} (h : used.length < n) (lo pick : Nat) :
    ∃ x, freeId used lo n pick = some x ∧ lo ≤ x ∧ x < lo + n ∧ x ∉ used := by
  cases hf : freeId used lo n pick with
  | none =>
    have hused : ∀ x ∈ (List.range (used.length + 1)).map fun k => lo + (pick + k) % n, x ∈ used := fun x hx => by
      simpa using List.find?_eq_none.1 hf x hx
    have hnodup : ((List.range (used.length + 1)).map fun k => lo + (pick + k) % n).Nodup := by
      refine List.Nodup.map_on (fun x hx y hy hxy => ?_) List.nodup_range
      have hmod : x ≡ y [MOD n] := Nat.ModEq.add_left_cancel' pick (Nat.add_left_cancel hxy)
      have hxn : x < n := Nat.lt_of_lt_of_le (List.mem_range.1 hx) h
      have hyn : y < n := Nat.lt_of_lt_of_le (List.mem_range.1 hy) h
      rwa [Nat.ModEq, Nat.mod_eq_of_lt hxn, Nat.mod_eq_of_lt hyn] at hmod
    have hle := (List.subperm_of_subset hnodup hused).length_le
    simp at hle
  | some x =>
    obtain ⟨k, -, rfl⟩ := List.mem_map.1 (List.mem_of_find?_eq_some hf)
    have hfree := List.find?_some hf
    simp only [Bool.not_eq_true', List.contains_eq_mem, decide_eq_false_iff_not] at hfree
    have hlt := Nat.mod_lt (pick + k) (Nat.lt_of_le_of_lt (Nat.zero_le _) h)
    exact ⟨_, rfl, Nat.le_add_right .., Nat.add_lt_add_left hlt _, hfree⟩

theorem length_filter_put {α : Type} (m : AMap α) (k : Nat) (a : α) (p : Nat × α → Bool) :
    ((m.put k a).filter p).length ≤ (m.filter p).length + 1 := by
  induction m with
  | nil =>
    simp only [AMap.put, List.filter_cons, List.filter_nil]
    split <;> simp
  | cons q m ih =>
    obtain ⟨j, b⟩ := q
    have hcons (l : List (Nat × α)) (x : Nat × α) : (l.filter p).length ≤ ((x :: l).filter p).length ∧ ((x :: l).filter p).length ≤ (l.filter p).length + 1 := by
      rw [List.filter_cons]
      split <;> simp
    simp only [AMap.put]
    split
    · exact (hcons _ _).2
    · split
      · exact (hcons m (k, a)).2.trans (Nat.succ_le_succ (hcons m (j, b)).1)
      · rw [List.filter_cons, List.filter_cons]
        split
        · exact Nat.succ_le_succ ih
        · exact ih

theorem does_each_range {P : Nat → State → Prop} {f : Nat → Eff} (N : Nat) (h : ∀ j < N, ∀ s, P j s → P (j + 1) (s.does (f j))) {s : State} (h0 : P 0 s) :
    P N (s.does (each (List.range N) f)) := by
  induction N with
  | zero => exact h0
  | succ N ih =>
    rw [each, List.range_succ, List.map_append, does_seqs_append, List.map_singleton, does_seqs_cons, does_seqs_nil]
    exact h N (Nat.lt_succ_self N) _ (ih fun j hj => h j (Nat.lt_succ_of_lt hj))

-- the groups of a team at its start

/-- Group `i` of a team as it starts (R28, Table 2.2). -/
structure AtStart (s : State) (tk : Nat) (tm : Team) (n : Node) (i : Nat) (e : Group) : Prop where
  idx : e.idx = i
  team : e.team = tk
  frame : e.frame = tm.frame
  rod : e.rod = i % 16
  tmode : e.csr.tmode = false
  prio : e.csr.prio = n.eff.prio
  vid : e.csr.vid = n.runView
  active : e.active = none
  ready : e.ready = max s.now tm.issueAt
  threads : ∀ m < 32, (e.th m).st = .run ∧ (e.th m).pc = BitVec.ofNat 57 n.eff.kernel ∧ (e.th m).mr = 0xFFFFFFFF#32

/-- Whether a group's number is a slot of a frame (R238). -/
def inFrame (frame : Nat) (kv : Nat × Group) : Bool := 1024 * frame ≤ kv.1 && kv.1 < 1024 * frame + 1024

/-- The first `j` groups of a team stand in slots of their own. -/
structure Starting (s : State) (tk : Nat) (tm : Team) (n : Node) (j : Nat) (t : State) : Prop where
  now : t.now = s.now
  nodes : t.nodes = s.nodes
  slots : (t.groups.filter (inFrame tm.frame)).length ≤ j
  team : ∃ L, t.teams.find tk = some { tm with started := true, groups := L } ∧ L.length = j
    ∧ ∀ i < j, ∃ k e, k ∈ L ∧ t.groups.find k = some e ∧ AtStart s tk tm n i e

/-- The number of the slot that `startGroup` takes. -/
def slotFor (t : State) (frame idx : Nat) : Nat :=
  let base := 1024 * frame + 64 * (idx % 16)
  (freeId ((t.groups.filter fun kv => base ≤ kv.1 && kv.1 < base + 64).map fun kv => kv.1) base 64 (Config.pick t.free)).getD base

/-- The slot that a group takes at its start is a free one of its rod. -/
theorem slotFor_free {t : State} {frame idx : Nat} (h : (t.groups.filter (inFrame frame)).length < 64) :
    t.groups.find (slotFor t frame idx) = none ∧ 1024 * frame ≤ slotFor t frame idx ∧ slotFor t frame idx < 1024 * frame + 1024 := by
  have hrod : idx % 16 < 16 := Nat.mod_lt _ (by omega)
  have hsub : (t.groups.filter fun kv => 1024 * frame + 64 * (idx % 16) ≤ kv.1 && kv.1 < 1024 * frame + 64 * (idx % 16) + 64).Sublist
      (t.groups.filter (inFrame frame)) := by
    refine List.monotone_filter_right _ fun kv hkv => ?_
    simp only [inFrame, Bool.and_eq_true, decide_eq_true_eq] at hkv ⊢
    omega
  obtain ⟨x, hx, hlo, hhi, hfree⟩ := freeId_free (used := (t.groups.filter fun kv => 1024 * frame + 64 * (idx % 16) ≤ kv.1
    && kv.1 < 1024 * frame + 64 * (idx % 16) + 64).map fun kv => kv.1) (n := 64)
    (by rw [List.length_map]; exact Nat.lt_of_le_of_lt hsub.length_le h) (1024 * frame + 64 * (idx % 16)) (Config.pick t.free)
  have hslot : slotFor t frame idx = x := by simp only [slotFor, hx, Option.getD_some]
  rw [hslot]
  refine ⟨?_, by omega, by omega⟩
  cases hg : t.groups.find x with
  | none => rfl
  | some e =>
    refine absurd (List.mem_map.2 ⟨(x, e), List.mem_filter.2 ⟨AMap_mem_of_find hg, ?_⟩, rfl⟩) hfree
    simp only [Bool.and_eq_true, decide_eq_true_eq]
    exact ⟨hlo, hhi⟩

/-- The group that `startGroup` makes for a team `tm` of a node `n` (Table 2.2). -/
def groupFor (tk idx : Nat) (tm : Team) (n : Node) (now sidx : Nat) : Group :=
  { groupAtStart tk idx tm.frame (idx % 16) (BitVec.ofNat 57 n.eff.kernel) (BitVec.ofNat 64 n.rcbva) (BitVec.ofNat 64 n.eff.args) tm.sgr
      (csrAtStart (BitVec.ofNat 18 sidx) n.eff.prio n.runView) now with ready := max now tm.issueAt }

theorem groupFor_atStart (s : State) (tk idx : Nat) (tm : Team) (n : Node) (sidx : Nat) : AtStart s tk tm n idx (groupFor tk idx tm n s.now sidx) where
  idx := rfl
  team := rfl
  frame := rfl
  rod := rfl
  tmode := rfl
  prio := rfl
  vid := rfl
  active := rfl
  ready := rfl
  threads m hm := by
    have hth : (groupFor tk idx tm n s.now sidx).th m = ⟨BitVec.ofNat 57 n.eff.kernel, 0xFFFFFFFF#32, 0xFFFFFFFF#32, .run, false, [], none, 0, none⟩ :=
      th_tab32 (f := fun _ => ⟨BitVec.ofNat 57 n.eff.kernel, 0xFFFFFFFF#32, 0xFFFFFFFF#32, .run, false, [], none, 0, none⟩) rfl hm
    rw [hth]
    exact ⟨rfl, rfl, rfl⟩

theorem does_startGroup {t : State} {tk : Nat} {tm : Team} {n : Node} (hteam : t.teams.find tk = some tm) (hn : t.nodes.find tm.node = some n) (idx : Nat) :
    ∃ sidx, t.does (startGroup tk idx) = (((t.apply (.free (t.free + 1))).apply (.group (slotFor t tm.frame idx) (some (groupFor tk idx tm n t.now sidx)))).does
      (upCtx n.ctx fun c => { c with sidx := c.sidx ++ [sidx] })).does (upTeam tk fun x => { x with groups := x.groups ++ [slotFor t tm.frame idx] }) := by
  refine ⟨(freeId (((t.ctxs.find n.ctx).map Ctx.sidx).getD []) 0 (16384 * ((t.ctxs.find n.ctx).map Ctx.nparts).getD 1) (Config.pick t.free)).getD 0, ?_⟩
  rw [startGroup, does_freely, does_on]
  change State.does _ (match t.teams.find tk with | none => skip | some t => _) = _
  rw [hteam]
  change State.does _ (match t.nodes.find tm.node with | none => skip | some x => _) = _
  rw [hn]
  dsimp only
  rw [does_seqs_cons, does_seqs_cons, does_seqs_cons, does_seqs_nil]
  rfl

/-- A context's record of its `SIDX` values touches no group, team or node. -/
theorem keeps_upCtx {β : Type} {q : State → β} (h : ∀ k x (s : State), q (s.apply (.ctx k x)) = q s) (k : Nat) (f : Ctx → Ctx) : (upCtx k f).Keeps q := fun s => by
  cases hc : s.ctxs.find k with
  | none => rw [does_upCtx_none _ _ _ hc]
  | some c => rw [does_upCtx_some _ _ _ _ hc]; exact h ..

theorem startGroup_starts {s t : State} {tk : Nat} {tm : Team} {n : Node} {j : Nat} (hn : s.nodes.find tm.node = some n) (hj : j < 32)
    (h : Starting s tk tm n j t) : Starting s tk tm n (j + 1) (t.does (startGroup tk j)) := by
  obtain ⟨hnow, hnodes, hslots, L, hteam, hL, hgroups⟩ := h
  obtain ⟨hfree, hlo, hhi⟩ := slotFor_free (idx := j) (Nat.lt_of_le_of_lt hslots (by omega : j < 64))
  obtain ⟨sidx, hd⟩ := does_startGroup (n := n) hteam (by rw [hnodes]; exact hn) j
  generalize slotFor t tm.frame j = k at *
  generalize hu : State.does _ (upCtx _ _) = u at hd
  have hkeep {β : Type} {q : State → β} (h : ∀ k x (s : State), q (s.apply (.ctx k x)) = q s) : q u = q _ := hu ▸ keeps_upCtx h _ _ _
  have hteamu : u.teams.find tk = some { tm with started := true, groups := L } :=
    (congrArg (fun m => AMap.find m tk) (hkeep (q := State.teams) fun _ _ _ => rfl)).trans hteam
  have hgroupsu : u.groups = setO t.groups k (some (groupFor tk j tm n s.now sidx)) := by
    rw [← hnow]
    exact hkeep (q := State.groups) fun _ _ _ => rfl
  rw [does_upTeam_some _ _ _ _ hteamu] at hd
  rw [hd]
  refine ⟨(hkeep (q := State.now) fun _ _ _ => rfl).trans hnow, (hkeep (q := State.nodes) fun _ _ _ => rfl).trans hnodes, ?_,
    L ++ [k], find_setO_self .., by rw [List.length_append, hL, List.length_singleton], fun i hi => ?_⟩
  · change (u.groups.filter (inFrame tm.frame)).length ≤ j + 1
    rw [hgroupsu]
    exact (length_filter_put ..).trans (Nat.succ_le_succ hslots)
  · change ∃ m e, m ∈ L ++ [k] ∧ u.groups.find m = some e ∧ _
    rw [hgroupsu]
    rcases Nat.lt_succ_iff_lt_or_eq.1 hi with hi | rfl
    · obtain ⟨m, e, hm, he, hat⟩ := hgroups i hi
      have hmk : m ≠ k := fun hmk => by rw [hmk, hfree] at he; cases he
      exact ⟨m, e, List.mem_append_left _ hm, (find_setO_some_ne _ _ hmk).trans he, hat⟩
    · exact ⟨k, _, List.mem_append_right _ List.mem_cons_self, find_setO_self .., groupFor_atStart ..⟩

-- the steps

section Step
variable {s : State} {tk ctx : Nat} {tm : Team} {n : Node} {c : Ctx}

/-- Once the head has waited, it limits the others (R65). -/
theorem exec_headBackfillLimit {h t0 : Nat} (hc : s.ctxs.find ctx = some c) (hh : c.headAt = some (h, t0)) (hw : t0 + 20000 ≤ s.now) :
    exec (.headBackfillLimit ctx) s = .next { s with ctxs := s.ctxs.put ctx { c with limit := some (h, (s.nodes.find h).elim 0 Node.tnext) } } := by
  change Host.Outcome.next (s.does (upCtx ctx _)) = _
  rw [does_upCtx_some _ _ _ _ hc, hh]
  dsimp only
  rw [if_pos hw]
  rfl

/-- Whether the start of a team has to wait for the head (R65). -/
def Ctx.defers (c : Ctx) (s : State) (tm : Team) : Bool := !decide (c.limit = some (tm.node, tm.index)) && c.limit.any s.limits

theorem exec_teamStart (ht : s.teams.find tk = some tm) (hs : tm.started = false) (hn : s.nodes.find tm.node = some n) (hc : s.ctxs.find n.ctx = some c)
    (hr : c.run = .resident) : exec (.teamStart tk) s = .next (s.does (if c.defers s tm then after 8 (.teamStart tk)
      else seqs [upTeam tk fun t => { t with started := true }, each (List.range n.eff.groups) (startGroup tk),
        when (c.limit = some (tm.node, tm.index)) (andThen (upCtx n.ctx fun c => { c with limit := none }) (soon (.teamReservation n.ctx)))])) := by
  have heff : s.effOf tm = n.eff := by rw [State.effOf, hn, Option.elim_some]
  change execTeamStart tk s = _
  simp only [execTeamStart, fire, ht, hn, Option.elim_some, hc, hs, hr, heff, Option.bind_some]
  rfl

theorem starting_zero (ht : s.teams.find tk = some tm) (hg : tm.groups = []) (hfree : ∀ kv ∈ s.groups, kv.1 < 1024 * tm.frame ∨ 1024 * tm.frame + 1024 ≤ kv.1) :
    Starting s tk tm n 0 (s.does (upTeam tk fun t => { t with started := true })) := by
  rw [does_upTeam_some _ _ _ _ ht]
  refine ⟨rfl, rfl, ?_, [], ?_, rfl, fun i hi => absurd hi (Nat.not_lt_zero i)⟩
  · refine Nat.le_of_eq (List.length_eq_zero_iff.2 (List.filter_eq_nil_iff.2 fun kv hkv h => ?_))
    have hout := hfree kv hkv
    simp only [inFrame, Bool.and_eq_true, decide_eq_true_eq] at h
    omega
  · rw [← hg]
    exact find_setO_self ..

theorem teamStart_starts (ht : s.teams.find tk = some tm) (hs : tm.started = false) (hg : tm.groups = []) (hn : s.nodes.find tm.node = some n)
    (hc : s.ctxs.find n.ctx = some c) (hr : c.run = .resident) (h32 : n.eff.groups ≤ 32)
    (hfree : ∀ kv ∈ s.groups, kv.1 < 1024 * tm.frame ∨ 1024 * tm.frame + 1024 ≤ kv.1)
    (hlim : c.limit.any s.limits = true → c.limit = some (tm.node, tm.index)) :
    ∃ t, exec (.teamStart tk) s = .next t ∧ Starting s tk tm n n.eff.groups t := by
  have hdefers : c.defers s tm = false := by
    cases hl : c.limit.any s.limits with
    | false => rw [Ctx.defers, hl, Bool.and_false]
    | true => rw [Ctx.defers, decide_eq_true (hlim hl)]; rfl
  refine ⟨_, exec_teamStart ht hs hn hc hr, ?_⟩
  rw [hdefers, if_neg Bool.false_ne_true, does_seqs_cons, does_seqs_cons, does_seqs_cons, does_seqs_nil]
  have hstart := does_each_range n.eff.groups (fun j hj t h => startGroup_starts hn (Nat.lt_of_lt_of_le hj h32) h) (starting_zero (n := n) ht hg hfree)
  generalize State.does _ (each _ _) = u at *
  have hkeep {β : Type} {q : State → β} (h : ∀ k x (s : State), q (s.apply (.ctx k x)) = q s) (ha : ∀ l (s : State), q (s.apply (.agenda l)) = q s) :
      q (u.does (when (c.limit = some (tm.node, tm.index)) (andThen (upCtx n.ctx fun c => { c with limit := none }) (soon (.teamReservation n.ctx))))) = q u := by
    rw [does_when]
    split
    · rw [does_andThen]
      exact (ha _ _).trans (keeps_upCtx h _ _ u)
    · rfl
  obtain ⟨hnow, hnodes, hslots, L, hteam, hL, hgroups⟩ := hstart
  have hgr := hkeep (q := State.groups) (fun _ _ _ => rfl) fun _ _ => rfl
  refine ⟨(hkeep (q := State.now) (fun _ _ _ => rfl) fun _ _ => rfl).trans hnow, (hkeep (q := State.nodes) (fun _ _ _ => rfl) fun _ _ => rfl).trans hnodes,
    hgr ▸ hslots, L, ?_, hL, fun i hi => ?_⟩
  · rw [hkeep (q := State.teams) (fun _ _ _ => rfl) fun _ _ => rfl]
    exact hteam
  · rw [hgr]
    exact hgroups i hi

end Step

end Sys2Proof.Machine
end

section
/-!
SUPPORT. O49: the retirement of a group and of its team (R45): no group and no team comes into being behind it.
-/
namespace Sys2Proof.Machine

-- acts that make no group and no team

/-- An act that puts no group and no team in its place. -/
def Act.Removes : Act → Prop
  | .group _ (some _) | .team _ (some _) => False
  | _ => True

/-- No group and no team comes into being. -/
def NoneNew (s t : State) : Prop := s.Inv → t.Inv ∧ (∀ k, s.groups.find k = none → t.groups.find k = none) ∧ ∀ k, s.teams.find k = none → t.teams.find k = none

theorem noneNew_chains : Chains NoneNew where
  refl _ hi := ⟨hi, fun _ h => h, fun _ h => h⟩
  trans h k hi :=
    let ⟨ht, hg, hm⟩ := h hi
    let ⟨hu, kg, km⟩ := k ht
    ⟨hu, fun n hn => kg n (hg n hn), fun n hn => km n (hm n hn)⟩

theorem Eff.Only.noneNew {e : Eff} (h : e.Only Act.Removes) : e.Within NoneNew := ⟨fun s hi =>
  h.preserves (P := fun t => t.Inv ∧ (∀ k, s.groups.find k = none → t.groups.find k = none) ∧ ∀ k, s.teams.find k = none → t.teams.find k = none)
    (fun a ha t ht => by
      obtain ⟨hti, hg, hm⟩ := ht
      cases a with
      | group n x =>
        cases x with
        | none => exact ⟨apply_keeps_inv hti _, fun k hk => find_setO_none_of hti.groups fun _ => hg k hk, hm⟩
        | some _ => exact ha.elim
      | team n x =>
        cases x with
        | none => exact ⟨apply_keeps_inv hti _, hg, fun k hk => find_setO_none_of hti.teams fun _ => hm k hk⟩
        | some _ => exact ha.elim
      | _ => exact ⟨apply_keeps_inv hti _, hg, hm⟩) ⟨hi, fun _ h => h, fun _ h => h⟩⟩

theorem noneNew_upGroup (n : Nat) (f : Group → Group) : (upGroup n f).Within NoneNew := ⟨fun s hi => by
  cases hn : s.groups.find n with
  | none => rw [does_upGroup_none _ _ _ hn]; exact noneNew_chains.refl s hi
  | some g =>
    rw [does_upGroup_some _ _ _ _ hn]
    refine ⟨apply_keeps_inv hi _, fun k hk => (find_setO_some_ne _ _ fun hkn => ?_).trans hk, fun _ h => h⟩
    rw [hkn, hn] at hk
    cases hk⟩

theorem Eff.Only.removes {e : Eff} (h : e.Reports) : e.Only Act.Removes := h.mono fun a ha => by
  cases a with
  | group | team => exact ha.elim
  | _ => exact trivial

theorem only_upCtx {A : Act → Prop} {k : Nat} {f : Ctx → Ctx} (h : ∀ x, A (.ctx k (some x))) : (upCtx k f).Only A := ⟨fun s a ha => by
  unfold upCtx at ha
  split at ha
  · exact List.mem_singleton.1 ha ▸ h _
  · exact nomatch ha⟩

theorem removes_soon (i : Instr) : (soon i).Only Act.Removes := only_on fun _ => only_act trivial

theorem removes_superstepCheck (nk : Nat) : (superstepCheck nk).Only Act.Removes :=
  only_on fun _ => only_onSome fun _ => only_when (reports_later ..).removes

theorem removes_checkJoin (p : Option Nat) : (checkJoin p).Only Act.Removes := only_onSome fun _ => only_on fun _ => by
  split
  · exact only_when (removes_soon _)
  · exact only_skip

theorem removes_setState (nk : Nat) (st : NState) : (setState nk st).Only Act.Removes :=
  only_andThen (only_upNode fun _ => trivial) (reports_rcbWrite nk).removes

-- what ends with a node

theorem removes_dropOps (p : Op → Bool) : (dropOps p).Only Act.Removes := only_on fun _ =>
  only_andThen (only_each fun _ => only_act trivial) <| only_andThen (only_each fun _ => only_when (only_act trivial)) <|
    only_andThen (only_each fun _ => only_act trivial) <| only_andThen (only_each fun _ => only_act trivial) only_skip

theorem removes_dropGroup (gid : Nat) : (dropGroup gid).Only Act.Removes := only_on fun _ => by
  split
  · exact only_skip
  · exact only_andThen (removes_dropOps _) <| only_andThen (only_each fun _ => only_when (only_act trivial)) <|
      only_andThen (only_each fun _ => only_when (only_act trivial)) <| only_andThen (only_upCtx fun _ => trivial) <| only_andThen (only_act trivial) only_skip

theorem removes_dropTeam (tk : Nat) : (dropTeam tk).Only Act.Removes := only_on fun _ => by
  split
  · exact only_skip
  · exact only_andThen (only_each fun _ => removes_dropGroup _) <| only_andThen (removes_dropOps _) <| only_andThen (only_act trivial) only_skip

theorem removes_removeNode (nk : Nat) : (removeNode nk).Only Act.Removes :=
  only_andThen (only_on fun _ => only_andThen (only_each fun _ => removes_dropTeam _) (removes_dropOps _)) (only_act trivial)

theorem removes_chooseAgain : chooseAgain.Only Act.Removes := soon_chooseAgain.mono fun a ha => by
  cases a with
  | agenda => exact trivial
  | _ => exact ha.elim

theorem removes_forgetView (part id : Nat) : (forgetView part id).Only Act.Removes := only_on fun _ =>
  only_andThen (only_each fun _ => only_when (only_act trivial)) <| only_andThen (only_each fun _ => only_when (only_act trivial)) <|
    only_andThen (only_each fun _ => only_when (only_act trivial)) <| only_andThen (only_each fun _ => only_when (only_act trivial)) <|
    only_andThen (only_each fun _ => only_when (only_act trivial)) only_skip

theorem removes_dropView (part id : Nat) : (dropView part id).Only Act.Removes := only_on fun _ =>
  only_andThen (only_each fun _ => removes_removeNode _) <| only_andThen (only_each fun _ => only_when (only_act trivial)) <|
    only_andThen (only_each fun _ => only_andThen (only_act trivial) (removes_forgetView ..)) <| only_andThen removes_chooseAgain <|
    only_andThen (only_each fun _ => only_act trivial) only_skip

theorem removes_dropFork (fk : Nat) : (dropFork fk).Only Act.Removes := only_on fun _ => by
  split
  · exact only_skip
  · exact only_andThen (only_each fun _ => only_andThen (only_on fun _ => only_each fun _ => removes_removeNode _) (removes_removeNode _)) <|
      only_andThen (only_each fun _ => removes_dropView ..) <| only_andThen (only_act trivial) <| only_andThen removes_chooseAgain only_skip

theorem removes_nodeJoins (nk : Nat) : (nodeJoins nk).Only Act.Removes :=
  only_andThen (removes_setState ..) <| only_andThen (only_on fun _ => only_each fun _ => removes_dropFork _) <|
    only_andThen (removes_checkJoin _) only_skip

-- the team

/-- What follows when a team has retired. -/
def teamGone (nk : Nat) (n : Node) : Eff :=
  seqs [superstepCheck nk, soon (.teamReservation n.ctx),
    on fun s => when ((s.ctxs.find n.ctx).elim false fun c => c.run = .draining) (soon (.drainComplete n.ctx)),
    when (n.tdone + 1 = n.eff.nteam) (nodeJoins nk)]

theorem removes_teamGone (nk : Nat) (n : Node) : (teamGone nk n).Only Act.Removes :=
  only_andThen (removes_superstepCheck _) <| only_andThen (removes_soon _) <| only_andThen (only_on fun _ => only_when (removes_soon _)) <|
    only_andThen (only_when (removes_nodeJoins _)) only_skip

/-- An act on operations, records, contexts, groups and steps to come: no team, and no node. -/
def Act.Aside : Act → Prop
  | .op .. | .fr .. | .ctx .. | .group .. | .free _ | .timers _ | .agenda _ => True
  | _ => False

theorem Eff.Only.aside_teams {e : Eff} (h : e.Only Act.Aside) : e.Keeps State.teams := h.keeps fun a ha s => by
  cases a with
  | team => exact ha.elim
  | _ => rfl

theorem Eff.Only.aside_nodes {e : Eff} (h : e.Only Act.Aside) : e.Keeps State.nodes := h.keeps fun a ha s => by
  cases a with
  | node => exact ha.elim
  | _ => rfl

theorem aside_soon (i : Instr) : (soon i).Only Act.Aside := only_on fun _ => only_act trivial

theorem aside_later (lo hi : Nat) (i : Instr) : (later lo hi i).Only Act.Aside := only_freely (fun _ => trivial) fun _ => only_on fun _ => only_act trivial

theorem aside_superstepCheck (nk : Nat) : (superstepCheck nk).Only Act.Aside := only_on fun _ => only_onSome fun _ => only_when (aside_later ..)

theorem aside_upGroup (k : Nat) (f : Group → Group) : (upGroup k f).Only Act.Aside := ⟨fun s a ha => by
  unfold upGroup at ha
  split at ha
  · exact List.mem_singleton.1 ha ▸ trivial
  · exact nomatch ha⟩

theorem aside_swapIn (k : Nat) : (swapIn k).Only Act.Aside := only_on fun _ => aside_upGroup ..

theorem aside_fillSlot (k : Nat) : (fillSlot k).Only Act.Aside := only_on fun _ => only_ite (by
  split
  · exact aside_swapIn _
  · exact only_skip) only_skip

theorem aside_barrierCheck (tk bar : Nat) : (barrierCheck tk bar).Only Act.Aside := only_on fun _ => only_when (aside_later ..)

/-- Before the node's last team retires, the node and its team count stay (R45). -/
theorem aside_teamGone {nk : Nat} {n : Node} (h : n.tdone + 1 ≠ n.eff.nteam) : (teamGone nk n).Only Act.Aside :=
  only_andThen (aside_superstepCheck _) <| only_andThen (aside_soon _) <| only_andThen (only_on fun _ => only_when (aside_soon _)) <|
    only_andThen (by rw [decide_eq_false h]; exact only_skip) only_skip

section Team
variable {w : State} {tk : Nat} {tm : Team}

/-- The operations of a team that has retired name its node. -/
def opsOutlive (s : State) (tk nk : Nat) : Eff := each s.ops fun kv => when (kv.2.team = tk) (act (.op kv.1 (some { kv.2 with team := retiredTeam nk })))

theorem aside_opsOutlive (s : State) (tk nk : Nat) : (opsOutlive s tk nk).Only Act.Aside := only_each fun _ => only_when (only_act trivial)

theorem does_teamRetires (ht : w.teams.find tk = some tm) : w.does (teamRetires tk) = (((((w.does (opsOutlive w tk tm.node)).apply (.team tk none)).does
    (upNode tm.node fun n => { n with tdone := n.tdone + 1 })).does (rcbWrite tm.node)).does (onSome (w.nodes.find tm.node) (teamGone tm.node))) := by
  rw [teamRetires, does_on]
  simp only [ht]
  rw [does_seqs_cons, does_seqs_cons, does_seqs_cons, does_seqs_cons, does_seqs_cons, does_seqs_nil]
  rfl

theorem removes_teamRetires (tk : Nat) : (teamRetires tk).Only Act.Removes := only_on fun _ => by
  split
  · exact only_skip
  · exact only_andThen (only_each fun _ => only_when (only_act trivial)) <| only_andThen (only_act trivial) <| only_andThen (only_upNode fun _ => trivial) <|
      only_andThen (reports_rcbWrite _).removes <| only_andThen (only_onSome fun _ => removes_teamGone ..) only_skip

/-- A team that retires is gone (R45). -/
theorem teamRetires_gone (hi : w.Inv) (ht : w.teams.find tk = some tm) : (w.does (teamRetires tk)).teams.find tk = none := by
  have hrest : (seqs [upNode tm.node fun n => { n with tdone := n.tdone + 1 }, rcbWrite tm.node, onSome (w.nodes.find tm.node) (teamGone tm.node)]).Only
      Act.Removes := only_andThen (only_upNode fun _ => trivial) <| only_andThen (reports_rcbWrite _).removes <|
    only_andThen (only_onSome fun _ => removes_teamGone ..) only_skip
  have hi' := does_inv hi (opsOutlive w tk tm.node)
  obtain ⟨-, -, hkeep⟩ := hrest.noneNew.rel ((w.does (opsOutlive w tk tm.node)).apply (.team tk none)) (apply_keeps_inv hi' _)
  have hgone := hkeep tk (find_setO_none _ _ hi'.teams)
  rw [does_seqs_cons, does_seqs_cons, does_seqs_cons, does_seqs_nil] at hgone
  rw [does_teamRetires ht]
  exact hgone

/-- Its node counts it, and goes on when it has teams left. -/
theorem teamRetires_counted {n : Node} (ht : w.teams.find tk = some tm) (hn : w.nodes.find tm.node = some n) (hlt : n.tdone + 1 < n.eff.nteam) :
    (w.does (teamRetires tk)).nodes.find tm.node = some { n with tdone := n.tdone + 1 } := by
  have hn' : ((w.does (opsOutlive w tk tm.node)).apply (.team tk none)).nodes.find tm.node = some n :=
    (congrArg (fun m => AMap.find m tm.node) ((aside_opsOutlive w tk tm.node).aside_nodes w)).trans hn
  rw [does_teamRetires ht, hn, does_onSome_some, (aside_teamGone (Nat.ne_of_lt hlt)).aside_nodes, ((reports_rcbWrite _).reported _).nodes,
    does_upNode_some _ _ _ _ hn']
  exact find_setO_self ..

end Team

-- the group

section Group
variable {s : State} {gid : Nat} {g : Group} {tm : Team}

/-- What a group that retires has left goes on under a number of its own (R238). -/
def leavings (s : State) (gid : Nat) : Eff :=
  seqs [each s.ops fun kv => when (kv.2.dest = gid || kv.2.gid = gid) (act (.op kv.1 (some { kv.2 with
      dest := if kv.2.dest = gid then 2 ^ 30 else kv.2.dest, gid := if kv.2.gid = gid then retiredGid gid else kv.2.gid }))),
    each s.recs fun kv => when (kv.2.gid = gid) (act (.fr kv.1 (some { kv.2 with gid := retiredGid gid })))]

theorem aside_leavings (s : State) (gid : Nat) : (leavings s gid).Only Act.Aside :=
  only_andThen (only_each fun _ => only_when (only_act trivial)) <| only_andThen (only_each fun _ => only_when (only_act trivial)) only_skip

/-- What follows a group that has left its slot (R69, R178, R179). -/
def slotLeft (g : Group) (tm : Team) : Eff := seqs [fillSlot (rodKey g.frame g.rod), each (tm.bars.keys) (barrierCheck g.team), superstepCheck tm.node]

theorem aside_slotLeft (g : Group) (tm : Team) : (slotLeft g tm).Only Act.Aside :=
  only_andThen (aside_fillSlot _) <| only_andThen (only_each fun _ => aside_barrierCheck ..) <| only_andThen (aside_superstepCheck _) only_skip

theorem noneNew_slotLeft (g : Group) (tm : Team) : (slotLeft g tm).Within NoneNew := by
  have hR := noneNew_chains
  have hfill : (fillSlot (rodKey g.frame g.rod)).Within NoneNew := within_on fun s => by
    split
    · split
      · exact (show (swapIn _).Within NoneNew from within_on fun _ => (noneNew_upGroup ..).rel _).rel s
      · exact (within_skip hR).rel s
    · exact (within_skip hR).rel s
  have hbar (b : Nat) : (barrierCheck g.team b).Only Act.Removes := only_on fun _ => only_when (reports_later ..).removes
  exact within_andThen hR hfill <| within_andThen hR (within_each hR fun b _ => (hbar b).noneNew) <|
    within_andThen hR (removes_superstepCheck _).noneNew (within_skip hR)

/-- The state in which a group has left its team and its slot. -/
def State.without (s : State) (gid : Nat) (g : Group) (tm : Team) : State :=
  (((s.does (leavings s gid)).apply (.team g.team (some { tm with groups := tm.groups.erase gid }))).does
    (upCtx (s.ctxOf g) fun c => { c with sidx := c.sidx.filter fun x => x ≠ g.csr.sidx.toNat })).apply (.group gid none)

theorem exec_groupRetire (hg : s.groups.find gid = some g) (hf : g.finished = true) (ht : s.teams.find g.team = some tm) (hr : s.resizing tm.frame = false) :
    exec (.groupRetire gid) s = .next (((s.without gid g tm).does (slotLeft g tm)).does (when (tm.groups = [gid]) (teamRetires g.team))) := by
  have ht' : (s.does (leavings s gid)).teams.find g.team = some tm := (congrArg (fun m => AMap.find m g.team) ((aside_leavings s gid).aside_teams s)).trans ht
  change execGroupRetire gid s = _
  simp only [execGroupRetire, fire, hg, hf, ht, hr]
  rw [if_neg (by simp), if_neg (by simp)]
  refine congrArg Host.Outcome.next ?_
  change s.does (seqs ([_, _] ++ [_, _, _] ++ [_, _, _] ++ [_])) = _
  rw [does_seqs_append, does_seqs_append, does_seqs_append]
  change State.does (State.does (State.does (s.does (leavings s gid)) _) (slotLeft g tm)) _ = _
  rw [does_seqs_cons, does_seqs_cons, does_seqs_cons, does_seqs_nil, does_upTeam_some _ _ _ _ ht', does_seqs_cons, does_seqs_nil]
  rfl

theorem without_inv (hi : s.Inv) : (s.without gid g tm).Inv := apply_keeps_inv (does_inv (apply_keeps_inv (does_inv hi _) _) _) _

theorem without_groups (hi : s.Inv) : (s.without gid g tm).groups.find gid = none :=
  find_setO_none _ _ (does_inv (apply_keeps_inv (does_inv hi _) _) _).groups

theorem without_teams : (s.without gid g tm).teams.find g.team = some { tm with groups := tm.groups.erase gid } := by
  have hk := keeps_upCtx (q := State.teams) (fun _ _ _ => rfl) (s.ctxOf g) (fun c => { c with sidx := c.sidx.filter fun x => x ≠ g.csr.sidx.toNat })
    ((s.does (leavings s gid)).apply (.team g.team (some { tm with groups := tm.groups.erase gid })))
  exact (congrArg (fun m => AMap.find m g.team) hk).trans (find_setO_self ..)

theorem without_nodes : (s.without gid g tm).nodes = s.nodes :=
  (keeps_upCtx (q := State.nodes) (fun _ _ _ => rfl) _ _ _).trans ((aside_leavings s gid).aside_nodes s)

theorem groupRetire_leaves (hi : s.Inv) (hg : s.groups.find gid = some g) (hf : g.finished = true) (ht : s.teams.find g.team = some tm)
    (hr : s.resizing tm.frame = false) : ∃ t, exec (.groupRetire gid) s = .next t ∧ t.groups.find gid = none
      ∧ (tm.groups ≠ [gid] → t.teams.find g.team = some { tm with groups := tm.groups.erase gid })
      ∧ (tm.groups = [gid] → t.teams.find g.team = none ∧ ∀ n, s.nodes.find tm.node = some n → n.tdone + 1 < n.eff.nteam →
          t.nodes.find tm.node = some { n with tdone := n.tdone + 1 }) := by
  have hwi : ((s.without gid g tm).does (slotLeft g tm)).Inv := does_inv (without_inv hi) _
  obtain ⟨-, hkeep, -⟩ := (noneNew_slotLeft g tm).rel _ (without_inv (gid := gid) (g := g) (tm := tm) hi)
  have hgone := hkeep gid (without_groups hi)
  have hteam : ((s.without gid g tm).does (slotLeft g tm)).teams.find g.team = some { tm with groups := tm.groups.erase gid } :=
    (congrArg (fun m => AMap.find m g.team) ((aside_slotLeft g tm).aside_teams _)).trans without_teams
  have hnodes : ((s.without gid g tm).does (slotLeft g tm)).nodes = s.nodes := ((aside_slotLeft g tm).aside_nodes _).trans without_nodes
  refine ⟨_, exec_groupRetire hg hf ht hr, ?_, fun hlast => ?_, fun hlast => ?_⟩
  · obtain ⟨-, hk, -⟩ := (within_when noneNew_chains (b := decide (tm.groups = [gid])) fun _ => (removes_teamRetires g.team).noneNew).rel _ hwi
    exact hk gid hgone
  · rw [does_when, decide_eq_false hlast, if_neg Bool.false_ne_true]
    exact hteam
  · rw [does_when, decide_eq_true hlast, if_pos rfl]
    exact ⟨teamRetires_gone hwi hteam, fun n hn hlt => teamRetires_counted (tm := { tm with groups := tm.groups.erase gid }) hteam (by rw [hnodes]; exact hn) hlt⟩

end Group

/-- Settles O49: the reservation, the head's limit, the start, and the retirement. -/
theorem teamsComeAndGo : Obligations.TeamsComeAndGo := by
  unfold Obligations.TeamsComeAndGo
  intro s ctx nk gid tk f c n g tm hi
  refine ⟨fun rest hc hr hp hn hctx hst hg hcan hf hlim => ⟨fun hnow => ?_, teamReservation_waits hc hr hp hg hcan hf hlim⟩,
    fun h t0 hc hh hw => exec_headBackfillLimit hc hh hw,
    fun ht hs hg _ hn hc hr h32 hfree => ⟨fun hlim hne => ?_, fun hlim => ?_⟩, fun hg hf ht _ hr => ?_⟩
  · obtain ⟨t, tm, n', he, hteam, hres, htnow, hstart, hn', hnext, hrun, hc', hagain⟩ := teamReservation_reserves hc hr hp hn hctx hst hg hcan hf hlim hnow
    refine ⟨t, tm, n', _, he, hteam, hres.node, hres.index, hres.frame, hres.started, hres.vgr, hres.sgr, hres.lgr, by rw [hres.startAt, hnow],
      hres.issueLo, hres.issueHi, ?_, hn', hnext, hrun, hc', rfl, rfl, hagain⟩
    rw [← htnow]
    exact hstart
  · have hdefers : c.defers s tm = true := by rw [Ctx.defers, hlim, decide_eq_false hne]; rfl
    rw [exec_teamStart ht hs hn hc hr, hdefers, if_pos rfl]
    rfl
  · obtain ⟨t, he, -, -, -, L, hteam, hL, hgroups⟩ := teamStart_starts ht hs hg hn hc hr h32 hfree hlim
    refine ⟨t, _, he, hteam, rfl, hL, fun i hi => ?_⟩
    obtain ⟨k, e, hk, hke, hat⟩ := hgroups i hi
    exact ⟨k, e, hk, hke, hat.idx, hat.team, hat.frame, hat.rod, hat.tmode, hat.prio, hat.vid, hat.active, hat.ready, hat.threads⟩
  · obtain ⟨t, he, hgone, hstay, hlast⟩ := groupRetire_leaves hi hg hf ht hr
    refine ⟨t, he, hgone, fun h => ⟨_, hstay h, rfl⟩, fun h => ⟨(hlast h).1, fun hn hlt => ⟨_, (hlast h).2 n hn hlt, rfl, rfl⟩⟩⟩

end Sys2Proof.Machine
end

section
/-!
SUPPORT. O22: branches (R67, R331, R356, R360, R361, R443): the threads that they move, and the trap of a target that is no multiple of 4.
-/
namespace Sys2Proof.Machine

/-- A group with the threads of `m` at new addresses, which issues again 4 clocks after `t` (R67). -/
def Group.jumps (g : Group) (m : Mask) (f : Nat → BitVec 57) (t : Nat) : Group :=
  { g.mapTh m fun n th => { th with pc := f n } with ready := max g.ready (t + 4) }

theorem jumps_th (g : Group) (m : Mask) (f : Nat → BitVec 57) (t : Nat) {n : Nat} (hn : n < 32) :
    (g.jumps m f t).th n = if m.has n then { g.th n with pc := f n } else g.th n :=
  mapTh_th g m (fun n th => { th with pc := f n }) hn

/-- In `t` the group in `cur` has its Active threads at the addresses `f`, and issues no earlier than 4 clocks on. -/
structure Jumped (s t : State) (c : Iss) (f : Nat → BitVec 57) (g : Group) : Prop where
  frame : SameButIssue s t
  there : t.groups.find s.cur = some g
  regs : SameRegs c.g g
  ready : s.now + 4 ≤ g.ready
  st : ∀ n < 32, (g.th n).st = (c.g.th n).st
  mr : ∀ n < 32, (g.th n).mr = (c.g.th n).mr
  pc : ∀ n < 32, (g.th n).pc = if Mask.has c.act n then f n else (c.g.th n).pc

/-- A jump behind the issue itself and behind what joins the results in flight. -/
theorem jump_jumped {s u : State} {c : Iss} {i : Instr} (hr : s.reaching i = some c) (hu : SameButIssue s u) {a b : Group} (hI : Issued c i a)
    (hab : SameButFlight a b) (hb : u.groups.find s.cur = some b) (f : Nat → BitVec 57) :
    Jumped s (u.does (jump c c.act f)) c f (b.jumps c.act f c.t) := by
  have hth (n : Nat) : b.th n = a.th n := by rw [hab]; rfl
  have hd : u.does (jump c c.act f) = u.apply (.group s.cur (some (b.jumps c.act f c.t))) := by
    rw [jump, gid_of_reaching hr]
    exact does_upGroup_some _ _ _ _ hb
  obtain ⟨hv, hss, hc, hf, hq⟩ := sameButFlight_regs hI.regs hab
  refine ⟨(issues_upGroup ..).sameButIssue hu, ?_, ⟨hv, hss, hc, hf, hq⟩, ?_, fun n hn => ?_, fun n hn => ?_, fun n hn => ?_⟩
  · rw [hd]
    exact find_setO_self ..
  · rw [← t_of_reaching hr]
    exact Nat.le_max_right ..
  · rw [jumps_th _ _ _ _ hn, ← hI.st n hn, ← hth]; split <;> rfl
  · rw [jumps_th _ _ _ _ hn, ← hI.mr n hn, ← hth]; split <;> rfl
  · rw [jumps_th _ _ _ _ hn, hth]
    split
    · rfl
    · rename_i hact
      rw [hI.pc n hn, if_neg hact]

/-- A jump right behind the issue itself. -/
theorem begun_jumped {s : State} {c : Iss} {i : Instr} (hr : s.reaching i = some c) (f : Nat → BitVec 57) :
    ∃ g, Jumped s ((s.begun c i).does (jump c c.act f)) c f g := by
  obtain ⟨g, hg, hI⟩ := begun_issued hr
  exact ⟨_, jump_jumped hr (begun_sameButIssue hr) hI (b := g) rfl hg f⟩

-- BRA and CALL

section Call
variable {s : State} {c : Iss} {h : Head} {d : Dst} {off : BitVec 24}

theorem exec_bra (hs : s.issuing (.bra h off) = some c) (ha : acts c (.bra h off) = true) :
    exec (.bra h off) s = .next ((s.begun c (.bra h off)).does (jump c c.act fun _ => branchTo c.pc off)) := issue_done hs ha rfl

theorem exec_call (hs : s.issuing (.call h d off) = some c) :
    exec (.call h d off) s = .next (((s.begun c (.call h d off)).does
      (c.put (.call h d off) fun _ => outW true ((c.pc + 12#57).setWidth 64) none)).does (jump c c.act fun _ => branchTo c.pc off)) :=
  (issue_done hs (acts_fixed rfl) rfl).trans (congrArg _ (does_andThen ..))

/-- A jump leaves the results on their way. -/
theorem sends_jump {t : State} {i : Instr} {f : Nat → LaneOut} (hs : Sends t c i f) (m : Mask) (p : Nat → BitVec 57) :
    Sends (t.does (jump c m p)) c i f := by
  obtain ⟨u, g, L, hu, hg, hL, hlands, hflags⟩ := hs
  refine ⟨u, g.jumps m p c.t, L, hu, ?_, hL, hlands, hflags⟩
  rw [jump, does_upGroup_some _ _ _ _ hg]
  exact find_setO_self ..

/-- A `CALL` moves its threads, and the address behind it is on its way. -/
theorem call_jumped (hs : s.issuing (.call h d off) = some c) : ∃ t g, exec (.call h d off) s = .next t
    ∧ Jumped s t c (fun _ => branchTo c.pc off) g
    ∧ SendsGuarded t c (.call h d off) fun _ => outW true ((c.pc + 12#57).setWidth 64) none := by
  have hr := (issuing_iff.1 hs).1
  obtain ⟨g, hg, hI⟩ := begun_issued hr
  obtain ⟨b, hb, hab⟩ := (flight_putG c (.call h d off) true fun _ => outW true ((c.pc + 12#57).setWidth 64) none).rel _ _ _ hg
  have hg' : (s.begun c (.call h d off)).groups.find c.gid = some g := by rw [gid_of_reaching hr]; exact hg
  exact ⟨_, _, exec_call hs, jump_jumped hr ((issues_putG ..).sameButIssue (begun_sameButIssue hr)) hI hab hb _,
    sends_jump (putG_sends (useGuard := true) rfl hg' (coll_of_reaching hr)) _ _⟩

end Call

-- BRX and RET

section Register
variable {s : State} {c : Iss} {h : Head} {a : Src} {i : Instr}

/-- `BRX` and `RET` are one instruction but for their name (R360, R443). -/
theorem exec_regBranch (hi : i = .brx h a ∨ i = .ret h a) : exec i s = issue i s fun c s => regBranch c s i a := by
  rcases hi with rfl | rfl <;> rfl

theorem regBranch_aligned {t : State} (hcl : Clean c i)
    (hal : ∀ n < 32, Mask.has c.act n = true → (c.pairAt 1 a n).1.toNat % 4 = 0 ∧ (c.pairAt 1 a n).1.toNat < 2 ^ 57) :
    regBranch c t i a = .done (andThen (jump c c.act fun n => (c.pairAt 1 a n).1.setWidth 57) skip) := by
  have hfind : (c.act.lanes.find? fun n => decide ((targetAt c a n).toNat % 4 ≠ 0)) = none := List.find?_eq_none.2 fun n hm => by
    obtain ⟨hn, ha⟩ := mask_mem_lanes.1 hm
    exact fun h => of_decide_eq_true h (hal n hn ha).1
  have hfar : (c.act.lanes.filter fun n => decide (2 ^ 57 ≤ (targetAt c a n).toNat)) = [] := List.filter_eq_nil_iff.2 fun n hm => by
    obtain ⟨hn, ha⟩ := mask_mem_lanes.1 hm
    exact fun h => (of_decide_eq_true h).not_gt (hal n hn ha).2
  rw [regBranch, consuming_clean hcl]
  dsimp only
  rw [hfind, hfar]
  dsimp only
  rw [if_neg (by simp)]
  rfl

/-- The lowest Active lane whose target is no multiple of 4 is the one that the trap names. -/
theorem regBranch_misaligned {t : State} (hcl : Clean c i) {k : Nat} (hk : k < 32) (hact : Mask.has c.act k = true)
    (hmis : (c.pairAt 1 a k).1.toNat % 4 ≠ 0) (hlow : ∀ n < k, Mask.has c.act n = true → (c.pairAt 1 a n).1.toNat % 4 = 0) :
    regBranch c t i a = .trap .misalign (c.pairAt 1 a k).1 := by
  have hfind : (c.act.lanes.find? fun n => decide ((targetAt c a n).toNat % 4 ≠ 0)) = some k := by
    rw [Mask.lanes, List.find?_filter, List.find?_range_eq_some]
    refine ⟨decide_eq_true ⟨hact, decide_eq_true hmis⟩, List.mem_range.2 hk, fun n hn => congrArg not (decide_eq_false ?_)⟩
    rintro ⟨hb, hmis'⟩
    exact of_decide_eq_true hmis' (hlow n hn hb)
  rw [regBranch, consuming_clean hcl]
  dsimp only
  rw [hfind]
  rfl

/-- A branch to aligned targets moves each thread to its own. -/
theorem regBranch_jumped (hi : i = .brx h a ∨ i = .ret h a) (hs : s.issuing i = some c) (ha : acts c i = true) (hcl : Clean c i)
    (hal : ∀ n < 32, Mask.has c.act n = true → (c.pairAt 1 a n).1.toNat % 4 = 0 ∧ (c.pairAt 1 a n).1.toNat < 2 ^ 57) :
    ∃ t g, exec i s = .next t ∧ Jumped s t c (fun n => (c.pairAt 1 a n).1.setWidth 57) g := by
  obtain ⟨g, hg⟩ := begun_jumped (issuing_iff.1 hs).1 fun n => (c.pairAt 1 a n).1.setWidth 57
  refine ⟨_, g, (exec_regBranch hi).trans ((issue_done hs ha (regBranch_aligned hcl hal)).trans ?_), hg⟩
  rw [does_andThen, does_skip]

/-- The group that issues is the one of its issue, but for the clock that `.CLK` has read. -/
theorem issuer_of_reaching (hr : s.reaching i = some c) : ∃ g, s.issuer = some g ∧ g.cont = c.g.cont ∧ g.csr = c.g.csr := by
  obtain ⟨g0, pc, hg, -, -, rfl⟩ := reaching_iff.1 hr
  refine ⟨_, issuer_eq hg, ?_, ?_⟩ <;> · simp only [issOf]; split <;> rfl

/-- An instruction that answers a trap takes it with nothing else changed (R270). -/
theorem issue_trapped (hs : s.issuing i = some c) (ha : acts c i = true) (hc : CanTrap c.g) {body : Iss → State → Res} {k : Trap} {info : BitVec 64}
    (hb : body c s.landed = .trap k info) :
    ∃ g, s.issuer = some g ∧ ∃ t, issue i s body = .next t ∧ Trapped s t s.cur g k.code info c.pc c.act := by
  have hr := (issuing_iff.1 hs).1
  obtain ⟨g, hg, hcont, hcsr⟩ := issuer_of_reaching hr
  obtain ⟨hc0, hm, hv⟩ := hc
  have hland : s.landed.groups.find s.cur = some g := by rw [landed_eq hg]; exact find_setO_self ..
  have htrap : Trapped s.landed (s.landed.does (takeTrap s.cur k info c.pc c.act)) s.cur g k.code info c.pc c.act :=
    takeTrap_traps hland ⟨hcont.trans hc0, by rw [hcsr]; exact hm, by rw [hcsr]; exact hv⟩
  have hans : answer c i (.trap k info) = takeTrap s.cur k info c.pc c.act := by
    rw [answer, gid_of_reaching hr, hc0]
    rfl
  refine ⟨g, hg, _, (issue_answer hs ha body).trans (by rw [hb, hans]), ?_⟩
  rw [landed_eq hg] at htrap ⊢
  exact htrap

end Register

/-- Settles O22: the four branches by the jump behind their issue, and the trap of a target that is no multiple of 4. -/
theorem branchesMoveThreads : Obligations.BranchesMoveThreads := by
  unfold Obligations.BranchesMoveThreads
  refine ⟨fun s c h d off => ⟨fun hs ha => ?_, fun hs => ?_⟩, ?_⟩
  · obtain ⟨g, hJ⟩ := begun_jumped (issuing_iff.1 hs).1 fun _ => branchTo c.pc off
    exact ⟨_, exec_bra hs ha, hJ.frame, g, hJ.there, hJ.regs, hJ.ready, fun n hn => ⟨hJ.st n hn, hJ.mr n hn, hJ.pc n hn⟩⟩
  · obtain ⟨t, g, he, hJ, hsends⟩ := call_jumped hs
    exact ⟨t, he, hJ.frame, ⟨g, hJ.there, hJ.regs, hJ.ready, fun n hn => ⟨hJ.st n hn, hJ.mr n hn, hJ.pc n hn⟩⟩, _, hsends, fun _ _ _ => rfl⟩
  intro s c h a i hi f hs ha hcl
  refine ⟨fun hal => ?_, fun k hk hc hact hmis hlow => ?_⟩
  · obtain ⟨t, g, he, hJ⟩ := regBranch_jumped hi hs ha hcl hal
    exact ⟨t, he, hJ.frame, g, hJ.there, hJ.regs, fun n hn => ⟨hJ.st n hn, hJ.pc n hn⟩⟩
  · obtain ⟨g, hg, t, he, htrap⟩ := issue_trapped hs ha hc (body := fun c s => regBranch c s i a) (regBranch_misaligned hcl hk hact hmis hlow)
    exact ⟨g, hg, t, (exec_regBranch hi).trans he, htrap⟩

end Sys2Proof.Machine
end

section
/-!
SUPPORT. O50: the exchange of two groups of a rod (R69, R97).
-/
namespace Sys2Proof.Machine

/-- A group as it leaves the active set in clock `t` (R69, R97). -/
def Group.leaving (g : Group) (t : Nat) : Group := { (g.upTo t).invalidate with active := none, hm := 0#4, since := t, yielded := false }

/-- A group as it enters the active set in clock `t` (R69, R70). -/
def Group.entering (p : Group) (t : Nat) : Group := { p with active := some (t + 4), swapEnd := t + 4, since := t, yielded := false }

theorem does_swapOut {s : State} {gid : Nat} {g : Group} (h : s.groups.find gid = some g) :
    s.does (swapOut gid) = s.apply (.group gid (some (g.leaving s.now))) := does_upGroup_some _ _ _ _ h

theorem does_swapIn {s : State} {k : Nat} {p : Group} (h : s.groups.find k = some p) :
    s.does (swapIn k) = s.apply (.group k (some (p.entering s.now))) := does_upGroup_some _ _ _ _ h

section Swap
variable {s : State} {gid k : Nat} {g p : Group}

theorem does_swapFor (hg : s.groups.find gid = some g) (hp : s.groups.find k = some p) (hk : k ≠ gid)
    (hn : s.nextIn (rodKey g.frame g.rod) = some (k, p)) : s.does (swapFor gid)
      = (s.apply (.group gid (some (g.leaving s.now)))).apply (.group k (some (p.entering s.now))) := by
  have hp' : (s.apply (.group gid (some (g.leaving s.now)))).groups.find k = some p := (find_setO_some_ne _ _ hk).trans hp
  simp only [swapFor, does_on, hg, hn, does_andThen]
  rw [does_swapOut hg, does_swapIn hp', apply_now]

/-- The two groups of a swap, and all that stays. -/
structure Swapped (s t : State) (gid k : Nat) (g p : Group) : Prop where
  others : SameButGroups s t
  out : t.groups.find gid = some (g.leaving s.now)
  into : t.groups.find k = some (p.entering s.now)
  stay : ∀ m, m ≠ gid → m ≠ k → t.groups.find m = s.groups.find m

theorem swapFor_swapped (hg : s.groups.find gid = some g) (hp : s.groups.find k = some p) (hk : k ≠ gid)
    (hn : s.nextIn (rodKey g.frame g.rod) = some (k, p)) : Swapped s (s.does (swapFor gid)) gid k g p := by
  rw [does_swapFor hg hp hk hn]
  exact { others := rfl
          out := (find_setO_some_ne _ _ hk.symm).trans (find_setO_self ..)
          into := find_setO_self ..
          stay := fun _ hm hm' => (find_setO_some_ne _ _ hm').trans (find_setO_some_ne _ _ hm) }

theorem exec_swapHeldGroup (hg : s.groups.find gid = some g) (h : heldLong s g = true) :
    exec (.swapHeldGroup gid) s = .next (s.does (swapFor gid)) := by
  rw [show exec (.swapHeldGroup gid) s = execSwapHeldGroup gid s from rfl, execSwapHeldGroup, hg]
  simp only [h]
  rfl

theorem exec_swapResidenceExpiry (hg : s.groups.find gid = some g) (h : residenceOver s g = true) :
    exec (.swapResidenceExpiry gid) s = .next (s.does (swapFor gid)) := by
  rw [show exec (.swapResidenceExpiry gid) s = execSwapResidenceExpiry gid s from rfl, execSwapResidenceExpiry, hg]
  simp only [h]
  rfl

theorem exec_swapOutranked {rod : Nat} (h : s.outranked rod = some gid) : exec (.swapOutranked rod) s = .next (s.does (swapFor gid)) := by
  rw [show exec (.swapOutranked rod) s = execSwapOutranked rod s from rfl, execSwapOutranked, h]
  rfl

end Swap

/-- Settles O50: each of the three steps is the swap of its group. -/
theorem swapsExchangeGroups : Obligations.SwapsExchangeGroups := by
  unfold Obligations.SwapsExchangeGroups
  intro s gid k rod g p hg hp hk hn swapped
  have h : swapped (s.does (swapFor gid)) := by
    obtain ⟨hothers, hout, hinto, hstay⟩ := swapFor_swapped hg hp hk hn
    exact ⟨hothers, ⟨_, hout, rfl, rfl, rfl, rfl, rfl, rfl, rfl⟩, ⟨_, hinto, rfl, rfl, ⟨rfl, rfl, rfl, rfl, rfl⟩⟩, hstay⟩
  exact ⟨fun hh => ⟨_, exec_swapHeldGroup hg hh, h⟩, fun hr => ⟨_, exec_swapResidenceExpiry hg hr, h⟩, fun ho => ⟨_, exec_swapOutranked ho, h⟩⟩

end Sys2Proof.Machine
end

section
/-!
SUPPORT. O39: a load in whose caches the line of a view takes the place of an `SWM` copy (R231, R257).
-/
namespace Sys2Proof.Machine

/-- A load of two lanes in view 1 of partition 0, from a frame of die 1. Lane 0 reads sector 0x410 of die 0; lane 1 reads an `SWM` page whose sector is
numbered as the caches number the line of sector 0x410 in that view. -/
def aliasLoad : Op :=
  { ins := .ld ⟨.al, ⟨0, false, 0, 0, false, 0, false, 0⟩⟩ false .w32 ⟨false, .v, 1⟩ ⟨false, .v, 2⟩ ⟨.none, .grp, 0⟩,
    gid := 0, dest := 0, team := 0, frame := 64, part := 0, ctx := 0, view := 1, pc := 0, issued := 0, seq := 0, mask := 3,
    accs := [⟨0, 0x10400, some placedPage, [], false, []⟩,
      ⟨1, 0x10400, some { placedPage with pa := 2 ^ 52 + 0x10000, swm := true }, [], false, []⟩],
    vals := [], hm := 0, st := .sent, after := [], seg := 0, moved := 0, held := [], parts := [], escape := none, fdom := 0, pair := (0, 0),
    early := false, lows := [], asked := [], sentAt := 0 }

/-- The load under way, in an empty memory; the RDC of its die has the `SWM` copy, all bytes of it 255. -/
def aliasState : State :=
  { State.reset with
    power := .up, groups := State.reset.groups.put 0 (placedGroup 0), ops := State.reset.ops.put 1 aliasLoad,
    rdc := State.reset.rdc.put 4 [(2 ^ 46 + 0x410, ⟨List.replicate 64 255, none, false, 0⟩)] }

theorem aliasState_inv : aliasState.Inv := by constructor <;> decide +kernel

theorem aliasState_roomy : Roomy aliasState aliasLoad := by
  refine ⟨fun k m h => (nomatch h), fun k m h => ?_⟩
  rcases eq_or_ne k 4 with rfl | hk
  · cases (AMap_find_put_self State.reset.rdc 4 _).symm.trans h
    decide
  · exact nomatch (AMap_find_put_ne State.reset.rdc _ hk).symm.trans h

/-- Whether every load result in flight to a group has 0 in lane 1. -/
def laneOneZero (g : Group) : Bool := g.pend.all fun p =>
  match p.kind with
  | .ret _ _ x => lane x 1 = clean 0#32
  | _ => true

/-- Lane 1 receives what view 1 reads at sector 0x410, which is 0: lane 0's line is put over the `SWM` copy before either lane is read. -/
theorem aliasLoad_laneOneZero {t : State} {g : Group} (ht : exec (.loadReturn 1) aliasState = .next t) (hg : t.groups.find 0 = some g) :
    laneOneZero g = true := by
  have h : (match exec (.loadReturn 1) aliasState with
    | .next t => (t.groups.find 0).all laneOneZero
    | _ => false) = true := by decide +kernel
  rw [ht] at h
  dsimp only at h
  rwa [hg] at h

/-- The sectors of an `SWM` access and of a coherent one differ, but the line of the coherent one has the number of the `SWM` sector. -/
theorem aliasLoad_alias : ∀ a ∈ aliasLoad.accs, ∀ b ∈ aliasLoad.accs, a.pageD.swm = true → b.pageD.swm = false →
    secOf a.pa ≠ secOf b.pa ∧ secOf a.pa = accLine aliasLoad false b := by decide +kernel

/-- Refutes O39: the second clause keeps the sectors of `SWM` and other accesses apart, but not the lines that they have in the caches. Here the
line that the load brings in for its lane 0, in view 1, has the number of the `SWM` sector of lane 1 (an address of 2^52 or more), so that lane 1
returns 0 where the frame's own copy held 255 in each byte. -/
theorem not_loadsReturn : ¬ Obligations.LoadsReturn := by
  unfold Obligations.LoadsReturn
  intro h
  obtain ⟨-, hsent, -⟩ := h aliasState 1 aliasLoad ⟨1, 1, [.v], ⟨false, .v, 1⟩⟩ (placedGroup 0) aliasState_inv (by decide +kernel) (by decide +kernel) rfl
  obtain ⟨t, f, ht, -, -, hret, hread⟩ := hsent .w32 (.inl ⟨_, _, _, _, rfl⟩) rfl rfl rfl (by decide) aliasState_roomy (nomatch ·)
    (fun a ha b hb hs hn => (aliasLoad_alias a ha b hb hs hn).1) (by unfold AtHome; decide +kernel)
  obtain ⟨g, L, hg, -, hvector, -, -⟩ := hret
  obtain ⟨⟨x, hx, hlane⟩, -⟩ := hvector (by decide)
  have hzero : lane x 1 = clean 0#32 := of_decide_eq_true (List.all_eq_true.1 (aliasLoad_laneOneZero ht hg) _ hx)
  obtain ⟨-, hnow⟩ := hread _ (List.mem_cons_of_mem _ (List.mem_cons_self ..))
  have hswm : f 1 0 = clean 0xFFFFFFFF#32 := (hnow rfl 0 (by decide) (by decide)).2.1 (by decide +kernel) (by decide)
  exact absurd ((hzero.symm.trans (hlane 1 (by decide) (by decide))).trans hswm) (by decide)

end Sys2Proof.Machine
end

section
/-!
SUPPORT. What the lead processor reads does not depend on the queues, nor on a context's place in the round (R54, R58, R59).
-/
namespace Sys2Proof.Machine

/-- `s` with other records of queues and contexts. -/
def State.turned (s : State) (Q : AMap Queue) (C : AMap Ctx) (f : Nat) : State := { s with queues := Q, ctxs := C, free := f }

section Turned
variable (s : State) (Q : AMap Queue) (C : AMap Ctx) (f : Nat)

theorem sectorIn_turned (part n id sec : Nat) : (s.turned Q C f).sectorIn part n id sec = s.sectorIn part n id sec := by
  induction n generalizing id with
  | zero => rfl
  | succ n ih =>
    simp only [State.sectorIn, ih]
    rfl

theorem readBytes_turned (part id a n : Nat) : (s.turned Q C f).readBytes part id a n = s.readBytes part id a n := by
  simp only [State.readBytes, State.sector, sectorIn_turned]

theorem qd_turned (q hi lo : Nat) : (s.turned Q C f).qd q hi lo = s.qd q hi lo := by
  simp only [State.qd, State.readNum, readBytes_turned]
  rfl

theorem signalOf_turned (q x : Nat) : signalOf (s.turned Q C f) q x = signalOf s q x := by
  simp only [signalOf, qd_turned]

theorem deviceBytes_turned (part view pa n : Nat) : (s.turned Q C f).deviceBytes part view pa n = s.deviceBytes part view pa n := by
  simp only [State.deviceBytes, readBytes_turned]
  rfl

theorem walkFrom_turned (die ctx va level table : Nat) : (s.turned Q C f).walkFrom die ctx va level table = s.walkFrom die ctx va level table := by
  induction level generalizing table with
  | zero =>
    unfold State.walkFrom
    simp only [deviceBytes_turned]
    rfl
  | succ level ih =>
    unfold State.walkFrom
    simp only [deviceBytes_turned, ih]
    rfl

theorem runDepth_turned (part n : Nat) : (s.turned Q C f).runDepth part n = s.runDepth part n := by
  induction n with
  | zero => rfl
  | succ n ih =>
    funext nk
    simp only [State.runDepth, ih]
    rfl

end Turned

section Context
variable {s : State} {ctx : Nat} {c c' : Ctx} {C : AMap Ctx} (hc : s.ctxs.find ctx = some c) (hC : C.find ctx = some c') (hp : c'.parts = c.parts)
  (Q : AMap Queue) (f : Nat)

include hc hC hp

theorem lead_turned : (s.turned Q C f).lead ctx = s.lead ctx := by
  change Option.elim (C.find ctx) _ _ = Option.elim (s.ctxs.find ctx) _ _
  rw [hc, hC, Option.elim_some, Option.elim_some, hp]

theorem leadFrame_turned : (s.turned Q C f).leadFrame ctx = s.leadFrame ctx := by
  rw [State.leadFrame, lead_turned hc hC hp, State.leadFrame]

theorem xlbase_turned : (s.turned Q C f).xlbase ctx = s.xlbase ctx := by
  change (match C.find ctx with | some c => s.csrBits (offXLBASE (c.parts.headD 0)) 51 0 | none => 0) = s.xlbase ctx
  rw [State.xlbase, hc, hC]
  dsimp only
  rw [hp]

theorem lookup_turned (frame va : Nat) (n : Need) : (s.turned Q C f).lookup frame ctx va n = s.lookup frame ctx va n := by
  simp only [State.lookup, State.findPage, walkFrom_turned, xlbase_turned hc hC hp]
  rfl

theorem deviceRead_turned (frame part view va n : Nat) (wr : Bool) :
    (s.turned Q C f).deviceRead frame ctx part view va n wr = s.deviceRead frame ctx part view va n wr := by
  simp only [State.deviceRead, lookup_turned hc hC hp, deviceBytes_turned]

theorem readRcb_turned (view va : Nat) (wr : Bool) : (s.turned Q C f).readRcb ctx view va wr = s.readRcb ctx view va wr := by
  rw [State.readRcb, leadFrame_turned hc hC hp, lead_turned hc hC hp, deviceRead_turned hc hC hp, State.readRcb]

theorem deviceWrite_turned (frame va : Nat) : (s.turned Q C f).deviceWrite frame ctx va = s.deviceWrite frame ctx va := by
  simp only [State.deviceWrite, lookup_turned hc hC hp]
  rfl

theorem packet_turned {q : Nat} (hq : s.qd q 111 96 = ctx) : (s.turned Q C f).packet q = s.packet q := by
  subst hq
  simp only [State.packet, State.readVa, qd_turned, leadFrame_turned hc hC hp, lead_turned hc hC hp, deviceRead_turned hc hC hp]

theorem launchable_turned (va : Nat) (b : List Byte) (r e : Rcb) (pk : Option (Option Nat)) :
    launchable (s.turned Q C f) ctx va b r e pk = launchable s ctx va b r e pk := by
  have hfind : (s.turned Q C f).ctxs.find ctx = some c' := hC
  have hpaired : Ctx.paired (s.turned Q C f) c' = Ctx.paired s c := by rw [Ctx.paired, hp]; rfl
  have hfits : couldFit (s.turned Q C f) c' e = couldFit s c e := by rw [couldFit, Ctx.frames, hp]; rfl
  have hgang : gangFits (s.turned Q C f) c' e = gangFits s c e := by rw [gangFits, Ctx.frames, hp]; rfl
  simp only [launchable, hc, hfind, hpaired, hfits, hgang, lead_turned hc hC hp, runDepth_turned]
  rfl

end Context

end Sys2Proof.Machine
end

section
/-!
SUPPORT. O48: kicks, the lead processor's visit to a queue, its packets, and the end of a fence (R52 to R59).
-/
namespace Sys2Proof.Machine

-- what stays

theorem Eff.Only.reported_queues {e : Eff} (h : e.Reports) : e.Keeps State.queues := h.keeps fun a ha _ => by
  cases a with
  | queue => exact ha.elim
  | sys | _ => rfl

theorem Eff.Only.reported_agenda {e : Eff} (h : e.Reports) : e.Keeps State.agenda := h.keeps fun a ha _ => by
  cases a with
  | agenda => exact ha.elim
  | _ => rfl

theorem reports_passPacket (q : Nat) : (passPacket q).Reports := only_on fun _ => only_on fun _ => reports_writeBytesBy ..

/-- The record of a queue changes in whether it waits for its turn, and nothing else of the queues does. -/
theorem setDue_queue (s : State) (q : Nat) (b : Bool) : (s.does (setDue q b)).queues.find q = some { s.queueOf q with due := b } := find_setO_self ..

theorem queueOf_of_find {s : State} {q : Nat} {x : Queue} (h : s.queues.find q = some x) : s.queueOf q = x := by
  rw [State.queueOf, AMap.findD, h, Option.getD_some]

theorem nextPacket_queue (s : State) (q : Nat) : ∃ b, (s.does (nextPacket q)).queues.find q = some { s.queueOf q with due := b } := by
  rw [nextPacket, does_on]
  split
  · exact ⟨true, setDue_queue s q true⟩
  · exact ⟨false, setDue_queue s q false⟩

theorem keeps_nextPacket {β : Type} {p : State → β} (hq : ∀ k x (s : State), p (s.apply (.queue k x)) = p s) (ht : ∀ l (s : State), p (s.apply (.timers l)) = p s)
    (q : Nat) : (nextPacket q).Keeps p := keeps_on fun s => by
  have hdue (b : Bool) : (setDue q b).Keeps p := keeps_on fun _ => keeps_act fun _ => hq ..
  split
  · exact keeps_andThen (hdue true) (keeps_on fun _ => keeps_act fun _ => ht ..)
  · exact hdue false

-- the kick

section Kick
variable {s : State} {q func : Nat} {v : BitVec 64}

theorem kickRegisterWrite_ignored (h : s.power = .recovery ∨ 1024 ≤ q ∨ s.qd q 86 80 ≠ func) : exec (.kickRegisterWrite func q v) s = .next s := by
  change outside s _ = _
  rw [if_pos (by simpa [or_assoc] using h), outside, fire_eq, does_when, does_skip, ite_self]

theorem kickRegisterWrite_kicks (hp : s.power ≠ .held) (hr : s.power ≠ .recovery) (hq : q < 1024) (hc : s.ctxPaired (s.qd q 111 96) = false) :
    exec (.kickRegisterWrite (s.qd q 86 80) q v) s = .next (s.does (kick q v)) := by
  refine (outside_up hp _).trans ?_
  rw [if_neg (by simp [hr, hq]), does_andThen, hc]
  rfl

/-- A context with partitions runs once it is ensured. -/
theorem ensureCtx_isSome {ctx : Nat} (h : s.ctxParts ctx ≠ []) : ((s.does (ensureCtx ctx)).ctxs.find ctx).isSome = true := by
  rw [ensureCtx, does_on, does_when]
  split
  · exact congrArg Option.isSome (find_setO_self ..)
  next hn => simpa [h, Option.isSome_iff_ne_none] using hn

variable (hst : s.qd q 257 256 = 0) (hf : s.funcHolds (s.qd q 86 80) = true)
    (hc : s.ctxParts (s.qd q 111 96) ≠ []) (h4 : 4 ≤ s.qd q 68 64) (h20 : s.qd q 68 64 ≤ 20) (hal : s.qd q 11 0 = 0) (hlo : s.qd q 255 192 < v.toNat)
    (hhi : v.toNat ≤ s.qd q 191 128 + 2 ^ s.qd q 68 64)
include hst hf hc h4 h20 hal hlo hhi

/-- The context of an accepted kick runs. -/
theorem kick_ctx : ((s.does (kick q v)).ctxs.find (s.qd q 111 96)).isSome = true := by
  have hlater (u : State) : (u.does (later 1500 4000 (.nodePacket q))).ctxs = u.ctxs := by rw [((reports_later ..).reported u).ctxs]
  have hparts : (s.does (setWrIdx q v.toNat)).ctxParts = s.ctxParts :=
    (keeps_on (q := State.ctxParts) fun t => keeps_devWrite (fun _ _ _ => rfl) (fun _ _ _ => rfl) (fun _ _ _ => rfl) _ _) s
  rw [does_kick_accepted hst hf hc h4 h20 hal hlo hhi, hlater, acceptKick, does_andThen]
  exact ensureCtx_isSome (by rw [hparts]; exact hc)

/-- An accepted kick changes no byte but those of `WRIDX`. -/
theorem kick_byte (hi : s.Inv) (hb : ∀ k < 64, s.mem.bad.find (secOf (s.qdAt q + k)) = none) {a : Nat}
    (ha : a < s.qdAt q + 24 ∨ s.qdAt q + 32 ≤ a) : (s.does (kick q v)).mem.byte a = s.mem.byte a := by
  have hlen : (num 8 v.toNat).length = 8 := leBytes_length ..
  obtain ⟨-, l, hl⟩ := later_due (s.does (acceptKick q v (s.qd q 111 96))) (show 1500 ≤ 4000 by omega) (.nodePacket q)
  have hmem : (s.does (acceptKick q v (s.qd q 111 96))).mem = (s.does (devWrite (s.qdAt q + 24) (num 8 v.toNat))).mem := by
    rw [acceptKick, does_andThen, keeps_ensureCtx (p := State.mem) fun _ _ _ => rfl, setWrIdx, does_on]
  rw [does_kick_accepted hst hf hc h4 h20 hal hlo hhi, State.does, hl]
  change (State.mem _).byte a = _
  rw [hmem, byte_devWrite_clean hi (fun k hk => by rw [Nat.add_assoc]; exact hb _ (by omega)), stored_outside _ (by omega)]

end Kick

theorem kickRead_eq (s : State) (func q : Nat) :
    s.kickRead func q = if q < 1024 ∧ s.qd q 86 80 = func then BitVec.ofNat 64 (s.qd q 255 192) else 0#64 := by
  have h : (decide (1024 ≤ q) || decide (s.qd q 86 80 ≠ func)) = true ↔ ¬ (q < 1024 ∧ s.qd q 86 80 = func) := by
    simp only [Bool.or_eq_true, decide_eq_true_eq, not_and_or, Nat.not_lt]
  rw [State.kickRead]
  by_cases hq : q < 1024 ∧ s.qd q 86 80 = func
  · rw [if_neg (fun h' => h.1 h' hq), if_pos hq]
  · rw [if_pos (h.2 hq), if_neg hq]

-- the visit

/-- Queue `q` waits for its turn. -/
def State.waits (s : State) (q : Nat) : State := { s with queues := s.queues.put q { s.queueOf q with due := true } }

/-- A context whose queue `q` has just been visited; the next visit comes no earlier than `t`. -/
def Ctx.turnTo (c : Ctx) (q t : Nat) : Ctx := { c with turn := q, visitAt := t }

/-- The lead processor at queue `q` of a context: from now on it is this queue that it has visited last. -/
def State.visited (s : State) (q : Nat) (c : Ctx) : State :=
  s.turned ((s.waits q).queues.put q { s.queueOf q with due := false })
    (s.ctxs.put (s.qd q 111 96) (c.turnTo q (s.now + 1 + Config.pick s.free % 256))) (s.free + 1)

section Visit
variable {s : State} {q : Nat} {c : Ctx} (hg : s.queueGoes q = true) (hc : s.ctxs.find (s.qd q 111 96) = some c) (hv : c.visitAt ≤ s.now)

include hc in
theorem does_visit : (s.waits q).does (visit q) = s.visited q c := by
  have hqd : (s.waits q).qd q 111 96 = s.qd q 111 96 := qd_turned s _ s.ctxs s.free q 111 96
  have hqueue : (s.waits q).queueOf q = { s.queueOf q with due := true } := queueOf_of_find (find_setO_self ..)
  have hdue : ((s.waits q).apply (.free (s.free + 1))).does (setDue q false)
      = (s.waits q).turned ((s.waits q).queues.put q { s.queueOf q with due := false }) s.ctxs (s.free + 1) := by
    change State.apply _ (.queue q (some { (s.waits q).queueOf q with due := false })) = _
    rw [hqueue]
    rfl
  rw [visit, does_freely, does_on, does_andThen]
  change (State.does (State.does ((s.waits q).apply (.free (s.free + 1))) (setDue q false)) (upCtx ((s.waits q).qd q 111 96) _)) = _
  rw [hqd, hdue]
  exact does_upCtx_some _ _ _ c hc

include hg hc hv

theorem exec_nodePacket : exec (.nodePacket q) s
    = .next ((s.waits q).does (if (s.waits q).nextDue (s.qd q 111 96) c ≠ some q then after 1 (.nodePacket q) else andThen (visit q) (takePacket q))) := by
  have hqd : (s.waits q).qd q 111 96 = s.qd q 111 96 := qd_turned s _ s.ctxs s.free q 111 96
  have hfind : (s.waits q).ctxs.find (s.qd q 111 96) = some c := hc
  have hnow : (s.waits q).now = s.now := rfl
  change Host.Outcome.next (s.does _) = _
  rw [hg]
  change Host.Outcome.next (s.does (andThen _ _)) = _
  rw [does_andThen, does_on]
  change Host.Outcome.next ((s.waits q).does _) = _
  dsimp only
  rw [show s.does (setDue q true) = s.waits q from rfl, hqd, hfind, does_onSome_some, hnow, if_neg (Nat.not_lt.2 hv)]

theorem nodePacket_waits (hn : (s.waits q).nextDue (s.qd q 111 96) c ≠ some q) :
    exec (.nodePacket q) s = .next { s.waits q with timers := s.timers ++ [(s.now + 1, .nodePacket q)] } := by
  rw [exec_nodePacket hg hc hv, if_pos hn]
  rfl

theorem nodePacket_visits (hn : (s.waits q).nextDue (s.qd q 111 96) c = some q) :
    exec (.nodePacket q) s = .next ((s.visited q c).does (takePacket q)) := by
  rw [exec_nodePacket hg hc hv, if_neg (not_not_intro hn), does_andThen, does_visit hc]

end Visit

-- what the lead processor reads at its visit

section Visited
variable {s : State} {q : Nat} {c : Ctx}

theorem qd_visited (hi lo : Nat) : (s.visited q c).qd q hi lo = s.qd q hi lo := qd_turned ..

theorem signalOf_visited (x : Nat) : signalOf (s.visited q c) q x = signalOf s q x := signalOf_turned ..

variable (hc : s.ctxs.find (s.qd q 111 96) = some c)
include hc

theorem packet_visited : (s.visited q c).packet q = s.packet q := by
  rw [State.visited]
  exact packet_turned (c' := c.turnTo q _) hc (AMap_find_put_self ..) rfl _ _ rfl

theorem readRcb_visited (view va : Nat) (wr : Bool) : (s.visited q c).readRcb (s.qd q 111 96) view va wr = s.readRcb (s.qd q 111 96) view va wr := by
  rw [State.visited]
  exact readRcb_turned (c' := c.turnTo q _) hc (AMap_find_put_self ..) rfl _ _ view va wr

theorem lead_visited : (s.visited q c).lead (s.qd q 111 96) = s.lead (s.qd q 111 96) := by
  rw [State.visited]
  exact lead_turned (c' := c.turnTo q _) hc (AMap_find_put_self ..) rfl _ _

theorem launchable_visited (va : Nat) (b : List Byte) (r e : Rcb) (pk : Option (Option Nat)) :
    launchable (s.visited q c) (s.qd q 111 96) va b r e pk = launchable s (s.qd q 111 96) va b r e pk := by
  rw [State.visited]
  exact launchable_turned (c' := c.turnTo q _) hc (AMap_find_put_self ..) rfl _ _ va b r e pk

end Visited

-- the registration of a node

/-- The node that a registration makes (R48, R51, R59). -/
def Node.registered (s : State) (ctx view va : Nat) (b : List Byte) (issuer queue : Option Nat) (sig : Option Signal) : Node :=
  let r := Rcb.ofBytes b
  let pk := parentOf s ctx r.parent issuer
  let par := pk.join.bind fun k => s.nodes.find k
  { ctx := ctx, rcbva := va, eff := effective (s.pceil (s.lead ctx)) r (par.map Node.eff),
    st := if bitsOf (leNat b) 319 288 = 0 then .ready else .waiting, req := 0, tdone := 0, tnext := 0,
    parent := pk.join, view := par.elim 0 Node.runView, rcbView := view, priv := none, escaped := false, rival := none,
    order := (s.ctxs.find ctx).elim 0 Ctx.regs, readyAt := s.ids, queue := queue, sig := sig, sarrive := [], sstep := 0,
    digest := 0#64, waits := false }

/-- A node is entered in the device and in its RCB. -/
def enterNode (ctx id : Nat) (n : Node) : Eff :=
  seqs [act (.node id (some n)), upCtx ctx fun c => { c with regs := c.regs + 1 }, rcbWrite id]

section Registration
variable {s : State} {ctx view va : Nat} {b : List Byte} {issuer queue : Option Nat} {sig : Option Signal}

theorem does_registerNode (hb : s.readRcb ctx view va true = .ok b) (hn : s.nodeAt ctx va = none)
    (hl : launchable s ctx va b (Rcb.ofBytes b) (Node.registered s ctx view va b issuer queue sig).eff (parentOf s ctx (Rcb.ofBytes b).parent issuer) = true)
    (k : Reg → Eff) : s.does (registerNode ctx view va issuer queue sig k)
      = ((((s.apply (.ids (s.ids + 1))).does (enterNode ctx s.ids (Node.registered s ctx view va b issuer queue sig))).does
          (when (bitsOf (leNat b) 319 288 = 0) (soon (.teamReservation ctx)))).does (k (.node s.ids true))) := by
  simp only [Node.registered] at hl
  rw [registerNode, does_on, hb]
  dsimp only
  rw [hn, if_neg (by decide), does_fresh, hl, if_pos rfl]
  iterate 5 rw [does_seqs_cons]
  rw [does_seqs_nil, enterNode]
  iterate 3 rw [does_seqs_cons]
  rw [does_seqs_nil]
  rfl

end Registration

/-- What entering a node leaves, and the node. -/
structure Entered (s t : State) (id : Nat) (n : Node) : Prop where
  node : t.nodes.find id = some n
  queues : t.queues = s.queues
  agenda : t.agenda = s.agenda

theorem enterNode_entered (s : State) (ctx id : Nat) (n : Node) : Entered s (s.does (enterNode ctx id n)) id n := by
  have hctx {β : Type} {p : State → β} (h : ∀ k x (s : State), p (s.apply (.ctx k x)) = p s) (u : State) :
      p (u.does (upCtx ctx fun c => { c with regs := c.regs + 1 })) = p u := keeps_upCtx h ctx _ u
  rw [enterNode, does_seqs_cons, does_seqs_cons, does_seqs_cons, does_seqs_nil, does_act]
  refine ⟨?_, ?_, ?_⟩
  · rw [((reports_rcbWrite id).reported _).nodes, hctx (p := State.nodes) fun _ _ _ => rfl]
    exact find_setO_self ..
  · rw [(reports_rcbWrite id).reported_queues, hctx (p := State.queues) fun _ _ _ => rfl]
    rfl
  · rw [(reports_rcbWrite id).reported_agenda, hctx (p := State.agenda) fun _ _ _ => rfl]
    rfl

/-- A queue goes on after its packet has registered a node. -/
def passNode (q id : Nat) : Eff := on fun s =>
  seqs [act (.queue q (some { s.queueOf q with nodes := (s.queueOf q).nodes ++ [id] })), passPacket q, nextPacket q]

theorem keeps_passNode {β : Type} {p : State → β} (hq : ∀ k x (s : State), p (s.apply (.queue k x)) = p s) (ht : ∀ l (s : State), p (s.apply (.timers l)) = p s)
    {q : Nat} (hp : (passPacket q).Keeps p) (id : Nat) : (passNode q id).Keeps p :=
  keeps_on fun _ => keeps_andThen (keeps_act fun _ => hq ..) (keeps_andThen hp (keeps_andThen (keeps_nextPacket hq ht q) (keeps_skip _)))

theorem passNode_queue (s : State) (q id : Nat) : ∃ b, (s.does (passNode q id)).queues.find q
    = some { s.queueOf q with nodes := (s.queueOf q).nodes ++ [id], due := b } := by
  rw [passNode, does_on, does_seqs_cons, does_seqs_cons, does_seqs_cons, does_seqs_nil, does_act]
  generalize hu : State.does _ (passPacket q) = u
  have hfind : u.queues.find q = some { s.queueOf q with nodes := (s.queueOf q).nodes ++ [id] } := by
    rw [← hu, (reports_passPacket q).reported_queues]
    exact find_setO_self ..
  obtain ⟨b, hb⟩ := nextPacket_queue u q
  exact ⟨b, by rw [hb, queueOf_of_find hfind]⟩

-- the packets

section Packet
variable {s : State} {q x : Nat} {c : Ctx} (hc : s.ctxs.find (s.qd q 111 96) = some c) (hx : s.packet q = some x) (hok : packetOk x = true)
include hx hok

/-- A fence holds its queue from now on, and looks whether the queue's nodes have finished (R55). -/
theorem qfencePacket_holds (hg : s.queueGoes q = true) (hty : bitsOf x 7 0 = 2) : ∃ t, exec (.qfencePacket q) s = .next t ∧ .qfenceComplete q ∈ t.agenda
    ∧ t.queues.find q = some { s.queueOf q with fence := some (signalOf s q x) } := by
  let u := s.apply (.queue q (some { s.queueOf q with fence := some (signalOf s q x) }))
  refine ⟨(u.does (passPacket q)).does (soon (.qfenceComplete q)), ?_, List.mem_append_right _ (List.mem_singleton.2 rfl), ?_⟩
  · change Host.Outcome.next (s.does _) = _
    rw [hg, hx]
    change Host.Outcome.next (s.does (if (!packetOk x || decide (bitsOf x 7 0 ≠ 2)) = true then _ else _)) = _
    rw [if_neg (by simp [hok, hty]), does_seqs_cons, does_seqs_cons, does_seqs_cons, does_seqs_nil]
    rfl
  · rw [keeps_soon (q := State.queues) fun _ _ => rfl, (reports_passPacket q).reported_queues]
    exact find_setO_self ..

include hc

/-- A `QFENCE` is taken by its own step. -/
theorem takePacket_fence (hty : bitsOf x 7 0 = 2) : (s.visited q c).does (takePacket q) = (s.visited q c).does (soon (.qfencePacket q)) := by
  rw [takePacket, does_on, packet_visited hc, hx]
  dsimp only
  rw [hok, if_neg (by decide), if_pos hty]

/-- The node of a `NODE` packet, as the lead processor registers it at its visit. -/
def State.packetNode (s : State) (q x : Nat) (b : List Byte) (c : Ctx) : Node :=
  Node.registered (s.visited q c) (s.qd q 111 96) 0 (bitsOf x 127 64) b none (some q) (some (signalOf s q x))

omit hx hok in
theorem packetNode_eff (b : List Byte) : (s.packetNode q x b c).eff = effective (s.pceil (s.lead (s.qd q 111 96))) (Rcb.ofBytes b)
    (((parentOf s (s.qd q 111 96) (Rcb.ofBytes b).parent none).join.bind fun k => s.nodes.find k).map Node.eff) := by
  simp only [State.packetNode, Node.registered, lead_visited hc]
  rfl

variable {b : List Byte} (hty : bitsOf x 7 0 = 1) (hlt : s.unfinished (s.qd q 111 96) < 4096)
  (hb : s.readRcb (s.qd q 111 96) 0 (bitsOf x 127 64) true = .ok b) (hn : s.nodeAt (s.qd q 111 96) (bitsOf x 127 64) = none)
  (hl : launchable s (s.qd q 111 96) (bitsOf x 127 64) b (Rcb.ofBytes b) (s.packetNode q x b c).eff
    (parentOf s (s.qd q 111 96) (Rcb.ofBytes b).parent none) = true)
include hty hlt hb hn hl

/-- A `NODE` packet whose node passes its checks registers it (R55, R59). -/
theorem takePacket_node :
    (s.visited q c).does (takePacket q) = (((((s.visited q c).apply (.ids (s.ids + 1))).does
      (enterNode (s.qd q 111 96) s.ids (s.packetNode q x b c))).does
        (when (bitsOf (leNat b) 319 288 = 0) (soon (.teamReservation (s.qd q 111 96))))).does (passNode q s.ids)) := by
  have hunf : (s.visited q c).unfinished (s.qd q 111 96) = s.unfinished (s.qd q 111 96) := rfl
  rw [takePacket, does_on, packet_visited hc, hx]
  dsimp only
  rw [hok, if_neg (by decide), if_neg (by omega), qd_visited, hunf, if_neg (by omega), signalOf_visited,
    does_registerNode ((readRcb_visited hc ..).trans hb) hn ((launchable_visited hc ..).trans hl)]
  rfl

/-- The node that a packet has registered, and its queue. -/
theorem takePacket_registers :
    ∃ t qu, (s.visited q c).does (takePacket q) = t ∧ t.nodes.find s.ids = some (s.packetNode q x b c)
      ∧ ((s.packetNode q x b c).st = .ready → .teamReservation (s.qd q 111 96) ∈ t.agenda)
      ∧ t.queues.find q = some qu ∧ qu.nodes = (s.queueOf q).nodes ++ [s.ids] := by
  have hin := enterNode_entered ((s.visited q c).apply (.ids (s.ids + 1))) (s.qd q 111 96) s.ids (s.packetNode q x b c)
  rw [takePacket_node hc hx hok hty hlt hb hn hl]
  generalize State.does _ (enterNode _ _ _) = u at hin
  let w := u.does (when (bitsOf (leNat b) 319 288 = 0) (soon (.teamReservation (s.qd q 111 96))))
  have hsoon {β : Type} {p : State → β} (h : ∀ l (s : State), p (s.apply (.agenda l)) = p s) : p w = p u :=
    keeps_when _ (fun _ => keeps_soon h _) u
  have hqueue : w.queueOf q = { s.queueOf q with due := false } := by
    refine queueOf_of_find ?_
    rw [hsoon (p := State.queues) fun _ _ => rfl, hin.queues]
    exact AMap_find_put_self ..
  obtain ⟨d, hd⟩ := passNode_queue w q s.ids
  refine ⟨_, _, rfl, ?_, fun hst => ?_, hd, by rw [hqueue]⟩
  · rw [keeps_passNode (p := State.nodes) (fun _ _ _ => rfl) (fun _ _ => rfl) fun u => ((reports_passPacket q).reported u).nodes,
      hsoon (p := State.nodes) fun _ _ => rfl, hin.node]
  · rw [keeps_passNode (p := State.agenda) (fun _ _ _ => rfl) (fun _ _ => rfl) (reports_passPacket q).reported_agenda]
    have h0 : bitsOf (leNat b) 319 288 = 0 := by
      by_contra h0
      exact nomatch (if_neg h0).symm.trans hst
    rw [decide_eq_true h0]
    exact List.mem_append_right _ (List.mem_singleton.2 rfl)

end Packet

-- the end of a fence

section Fence
variable {s : State} {q : Nat} {g : Signal} {c : Ctx}

/-- A write of the base view is the same in every partition. -/
theorem writeBytesBy_base (part a : Nat) (l : List Byte) : writeBytesBy none part 0 a l none = devWrite a l := by
  have h (sec ofs : Nat) (b : List Byte) (full : Bool) : writeSectorBy none part 0 sec ofs b full none = writeSectorBy none 0 0 sec ofs b full none := by
    simp only [writeSectorBy, if_true]
  rw [devWrite, writeBytes, writeBytesBy, writeBytesBy]
  simp only [h]

theorem does_writeVa_base {frame ctx part va pa : Nat} (h : s.deviceWrite frame ctx va = .ok pa) (l : List Byte) (bad : Nat → Eff) :
    s.does (writeVa none frame ctx part 0 va l bad) = s.does (devWrite pa l) := by
  rw [writeVa, does_on, h]
  dsimp only
  rw [writeBytesBy_base]

/-- A completion signal for success whose address can be written (R56). -/
theorem does_sendSignal {ctx pa : Nat} (hva : g.va ≠ 0) (h : s.deviceWrite (s.leadFrame ctx) ctx g.va = .ok pa) (io : Nat → Eff) :
    s.does (sendSignal ctx 0 g true io) = (s.does (devWrite pa (num 8 g.val.toNat))).does (when g.irq (msix g.func g.vec)) := by
  rw [sendSignal, does_on]
  dsimp only
  rw [if_pos rfl, does_andThen, does_when s, if_pos (decide_eq_true hva), does_writeVa_base h]

theorem exec_qfenceComplete (hf : (s.queueOf q).fence = some g) (hd : s.queueDrained q = true) (hc : s.ctxs.find (s.qd q 111 96) = some c)
    (hr : c.run = .resident) : exec (.qfenceComplete q) s = .next (((s.apply (.queue q (some ⟨[], none, false⟩))).does
      (sendSignal (s.qd q 111 96) 0 g true fun c => packetIo q 0 g.va 3 c)).does (nextPacket q)) := by
  change Host.Outcome.next (s.does _) = _
  rw [hf]
  dsimp only
  rw [hd, if_neg (by decide), hc, Option.elim_some, hr, if_neg (by decide), does_seqs_cons, does_seqs_cons, does_seqs_cons, does_seqs_nil]
  rfl

/-- A drained fence writes its signal, and its queue starts anew (R55, R56). -/
theorem qfenceComplete_signals (hi : s.Inv) {pa : Nat} (hf : (s.queueOf q).fence = some g) (hd : s.queueDrained q = true)
    (hc : s.ctxs.find (s.qd q 111 96) = some c) (hr : c.run = .resident) (hva : g.va ≠ 0)
    (hw : s.deviceWrite (s.leadFrame (s.qd q 111 96)) (s.qd q 111 96) g.va = .ok pa) (hb : ∀ k < 8, s.mem.bad.find (secOf (pa + k)) = none) :
    ∃ t b, exec (.qfenceComplete q) s = .next t ∧ t.queues.find q = some ⟨[], none, b⟩ ∧ t.mem.num pa 8 = g.val.toNat
      ∧ (∀ a, (a < pa ∨ pa + 8 ≤ a) → t.mem.byte a = s.mem.byte a) ∧ (g.irq = true → .msix g.func g.vec ∈ t.outbox) := by
  let u := s.apply (.queue q (some ⟨[], none, false⟩))
  have hu : u.deviceWrite (u.leadFrame (s.qd q 111 96)) (s.qd q 111 96) g.va = .ok pa := (deviceWrite_turned hc hc rfl _ s.free _ _).trans hw
  let w := u.does (devWrite pa (num 8 g.val.toNat))
  have hlen : (num 8 g.val.toNat).length = 8 := leBytes_length ..
  have hmsix {β : Type} {p : State → β} (h : ∀ o (s : State), p (s.apply (.outbox o)) = p s) : p (w.does (when g.irq (msix g.func g.vec))) = p w :=
    keeps_when _ (fun _ => keeps_msix h _ _) w
  have hqueue : (w.does (when g.irq (msix g.func g.vec))).queueOf q = ⟨[], none, false⟩ := queueOf_of_find <| by
    rw [hmsix (p := State.queues) fun _ _ => rfl,
      keeps_devWrite (q := State.queues) (fun _ _ _ => rfl) (fun _ _ _ => rfl) (fun _ _ _ => rfl) pa (num 8 g.val.toNat) u]
    exact find_setO_self ..
  have hmem : ((w.does (when g.irq (msix g.func g.vec))).does (nextPacket q)).mem = w.mem :=
    (keeps_nextPacket (p := State.mem) (fun _ _ _ => rfl) (fun _ _ => rfl) q _).trans (hmsix (p := State.mem) fun _ _ => rfl)
  obtain ⟨b, hb'⟩ := nextPacket_queue (w.does (when g.irq (msix g.func g.vec))) q
  rw [hqueue] at hb'
  refine ⟨_, b, (exec_qfenceComplete hf hd hc hr).trans (by rw [does_sendSignal hva hu]), hb', ?_, fun a ha => ?_, fun hirq => ?_⟩
  · rw [hmem]
    exact num_devWrite (apply_keeps_inv hi _) g.val.isLt hb
  · rw [hmem, byte_devWrite_clean (apply_keeps_inv hi _) (by rw [hlen]; exact hb), stored_outside _ (by omega)]
    rfl
  · rw [keeps_nextPacket (p := State.outbox) (fun _ _ _ => rfl) (fun _ _ => rfl) q, hirq]
    exact List.mem_append_right _ (List.mem_singleton.2 rfl)

end Fence

/-- Settles O48: the kick by its acceptance, a packet by the lead processor's visit, and the fence by its signal. -/
theorem queuesLaunchNodes : Obligations.QueuesLaunchNodes := by
  unfold Obligations.QueuesLaunchNodes
  intro s q hi
  refine ⟨fun func v h => kickRegisterWrite_ignored h, fun v hp hr hq hc hst hf hpa h4 h20 hal hlo hhi hb => ?_, fun func => kickRead_eq s func q,
    fun x b c hg hx hok => ?_, fun g pa c hf hd hc hr hva hw hb => qfenceComplete_signals hi hf hd hc hr hva hw hb⟩
  · obtain ⟨hnum, hdue, -⟩ := kick_accepted hi hst hf hpa h4 h20 hal hlo hhi hb
    exact ⟨_, kickRegisterWrite_kicks hp hr hq hc, hnum, fun a ha => kick_byte hst hf hpa h4 h20 hal hlo hhi hi hb ha,
      kick_ctx hst hf hpa h4 h20 hal hlo hhi, hdue⟩
  · intro ctx waits hc hv
    refine ⟨fun hn => nodePacket_waits hg hc hv hn, fun hn hty => ?_, fun hty => ?_, ?_⟩
    · refine ⟨(s.visited q c).does (soon (.qfencePacket q)), _, (nodePacket_visits hg hc hv hn).trans (by rw [takePacket_fence hc hx hok hty]), List.mem_append_right _ (List.mem_singleton.2 rfl), rfl,
        AMap_find_put_self .., AMap_find_put_self .., rfl, ?_⟩
      change s.now < s.now + 1 + Config.pick s.free % 256
      omega
    · obtain ⟨t, he, hagenda, hqueue⟩ := qfencePacket_holds hx hok hg hty
      exact ⟨t, he, hagenda, _, hqueue, rfl, rfl⟩
    · intro va r pk par e hn hty hlt hb hnone hl
      obtain ⟨t, qu, ht, hnode, hready, hqueue, hnodes⟩ := takePacket_registers hc hx hok hty hlt hb hnone (by rw [packetNode_eff hc]; exact hl)
      exact ⟨t, _, qu, (nodePacket_visits hg hc hv hn).trans (by rw [ht]), hnode, rfl, rfl, packetNode_eff hc b, rfl, rfl, rfl, rfl, hready, hqueue, hnodes⟩

end Sys2Proof.Machine
end

section
/-!
SUPPORT. O29: an instruction that fails a check of its issue (R84, R95, R255, R270, R338).
-/
namespace Sys2Proof.Machine

section Check
variable {s : State} {c : Iss} {g : Group} {i : Instr} {body : Iss → State → Res}

/-- The meaning of an instruction word is its issue by the group in `cur`, with a body of its own. -/
theorem exec_word (h : i.isWord = true) (s : State) : ∃ body, exec i s = issue i s body := by
  cases i with
  | nop | mov | movl | unify | iadd | isub | imul | imad | imin | imax | iabs | lea | lop3 | shl | shr | shf | popc | clz | brev | bfx | bfi | bil | bdil
  | prmt | cmp | sel | shfl | vote | lred | lscan | fadd | fmul | ffma | fmin | fmax | fcmp | fclass | frnd | fscale | ffn | fdiv | fsqrt | cvt | pfma
  | dot4 | fdot2 | mma | tldb | azro | ald | ast | ard | mfence | ld | st | ldc | ldv | ldwf | ldtk | stwe | feset | fence | pfence | atom | acas | red
  | xadd | xrd | cpy | tld | tst | gath | scat | coll | waitc | cntr | bra | brd | brx | call | ret | meet | exit | bar | sstep | sleep | forkw | choose
  | wdrop | pclr | ptst | pset | launch | trap | svc | rtt | csrr | csrw | cresz | cflush | tlbi => exact ⟨_, rfl⟩
  | _ => exact (Bool.false_ne_true h).elim

-- the checks, in their order

theorem checked_priv (hp : privFail c i = true) : checked c s i body = .trap .priv 0#64 := if_pos hp

theorem checked_alloc {info : BitVec 64} (hp : privFail c i = false) (ha : allocFail c.tm i = some info) : checked c s i body = .trap .alloc info := by
  rw [checked, if_neg (by simp [hp]), ha]

theorem checked_stale {u : Use} (hp : privFail c i = false) (ha : allocFail c.tm i = none) (hu : staleField c i = some u) (hc : c.g.csr.chk = true) :
    checked c s i body = .trap .stale (fieldInfo u.slot (srcField u.src)) := by
  rw [checked, if_neg (by simp [hp]), ha, hu, hc]

theorem checked_guard {w : Word} (hp : privFail c i = false) (ha : allocFail c.tm i = none) (hu : staleField c i = none) (hw : uniPoison c.g i.guard = some w) :
    checked c s i body = consume c s 4 (c.act.lanes.headD 0) w := by
  rw [checked, if_neg (by simp [hp]), ha, hu, hw]

/-- Consumed poison traps in a node that is neither guarded nor idempotent (R255). -/
theorem consume_traps (hn : ∀ n, c.nd = some n → n.eff.guarded = false ∧ n.eff.idem = false) (slot ln : Nat) (w : Word) :
    consume c s slot ln w = .trap (if causeOf w = PCause.pagex.code then .pagex else .poison) (poisonInfo slot ln w) := by
  unfold consume
  dsimp only
  split
  · rfl
  · cases hd : c.nd with
    | none => rfl
    | some n =>
      obtain ⟨hg, hi⟩ := hn n hd
      dsimp only
      rw [if_neg (by simp [hg, hi])]

-- the trap

/-- A trap that a group can take changes the group and the counter of free values alone. -/
theorem takeTrap_sameButIssue {gid : Nat} (hg : s.groups.find gid = some g) (hc : CanTrap g) (cause : Trap) (info : BitVec 64) (tpc : BitVec 57) (T : Mask) :
    SameButIssue s (s.does (takeTrap gid cause info tpc T)) := by
  obtain ⟨-, hm, hv⟩ := hc
  rw [takeTrap, does_on]
  simp only [hg, hm, hv, Bool.false_or, decide_false, Bool.false_eq_true, ↓reduceIte]
  exact (only_freely (fun _ => trivial) fun _ => issues_upGroup ..).sameButIssue rfl

/-- An instruction whose checks answer a trap takes it, with nothing else changed (R270). -/
theorem issue_checked_traps (hr : s.reaching i = some c) (hg : s.issuer = some g) (hc : CanTrap g) {k : Trap} {info : BitVec 64}
    (hb : checked c s.landed i body = .trap k info) :
    ∃ t, issue i s body = .next t ∧ Trapped s t s.cur g k.code info c.pc c.act ∧ SameButIssue s t := by
  obtain ⟨g', hg', hcont, -⟩ := issuer_of_reaching hr
  obtain rfl : g = g' := Option.some.inj (hg.symm.trans hg')
  have hland : s.landed.groups.find s.cur = some g := by rw [landed_eq hg]; exact find_setO_self ..
  have hans : answer c i (.trap k info) = takeTrap s.cur k info c.pc c.act := by
    rw [answer, gid_of_reaching hr, ← hcont, hc.1]
    rfl
  have htrap := takeTrap_traps (cause := k) (info := info) (tpc := c.pc) (T := c.act) hland hc
  have hsame := takeTrap_sameButIssue hland hc k info c.pc c.act
  refine ⟨_, (issue_reaching hr body).trans (by rw [hb, hans]), ?_, ?_⟩
  · rw [landed_eq hg] at htrap ⊢
    exact htrap
  · rw [landed_eq hg] at hsame ⊢
    exact hsame

end Check

/-- Settles O29: each check that fails is the answer of the issue, and the trap that it names is taken. -/
theorem failedChecksTrap : Obligations.FailedChecksTrap := by
  unfold Obligations.FailedChecksTrap
  intro s c g i hg hr hc hw
  obtain ⟨body, hexec⟩ := exec_word hw s
  rw [hexec]
  refine ⟨fun hp => issue_checked_traps hr hg hc (checked_priv hp), fun info hp ha => issue_checked_traps hr hg hc (checked_alloc hp ha),
    fun u hp ha hu hchk => issue_checked_traps hr hg hc (checked_stale hp ha hu hchk), fun w hp ha hu hpoi hn => ?_⟩
  have htrap := issue_checked_traps (body := body) hr hg hc ((checked_guard hp ha hu hpoi).trans (consume_traps hn 4 (c.act.lanes.headD 0) w))
  rwa [apply_ite Trap.code] at htrap

end Sys2Proof.Machine
end

section
/-!
SUPPORT. O21: the poison instructions, the counters and the CSRs (R96, R106, R107, R162, R163, R256, R333, R368, R376, R377).
-/
namespace Sys2Proof.Machine

-- the poison instructions

/-- An element as its value and its payload. -/
def Elem.split (e : Elem) : Word × Option Word := (e.val, if e.poi then some e.val else none)

/-- What `PTST` makes of an element (R256). -/
def ptstOut (d : Dst) (x : Word × Option Word) : LaneOut :=
  if d.cls = .cf then outFlags (flags false x.2.isNone false x.2.isSome) none 0#6 else out32 (x.2.getD 0#32) none

/-- What `PSET` makes of an element (R256). -/
def psetOut (x : Word × Option Word) : LaneOut := out32 0#32 (some (x.2.getD (setPayload x.1)))

/-- What `PCLR` makes of two elements (R256). -/
def pclrOut (x y : Word × Option Word) : LaneOut := if x.2.isSome then out32 y.1 y.2 else out32 x.1 none

section Poison
variable {s : State} {c : Iss} {h : Head} {d : Dst} {a b : Src}

/-- An instruction whose lanes take no payload from a poisoned guard sends what its lanes make. -/
theorem exec_putG_sends {i : Instr} {f : Iss → Nat → LaneOut} {u : DstUse} (hs : s.issuing i = some c) (hf : i.fixed = true) (hu : i.dst? = some u)
    (hx : exec i s = issue i s fun c _ => .done (c.putG i false (f c))) : ∃ t, exec i s = .next t ∧ Sends t c i (f c) := by
  rw [hx]
  exact issue_put_sends (useGuard := false) hs hf hu rfl

theorem ptst_sends (hs : s.issuing (.ptst h d a) = some c) :
    ∃ t, exec (.ptst h d a) s = .next t ∧ Sends t c (.ptst h d a) fun n => ptstOut d (lane (c.src 1 a) n).split :=
  exec_putG_sends (f := fun c n => ptstOut d (lane (c.src 1 a) n).split) hs rfl rfl rfl

theorem pset_sends (hs : s.issuing (.pset h d a) = some c) :
    ∃ t, exec (.pset h d a) s = .next t ∧ Sends t c (.pset h d a) fun n => psetOut (lane (c.src 1 a) n).split :=
  exec_putG_sends (f := fun c n => psetOut (lane (c.src 1 a) n).split) hs rfl rfl rfl

theorem pclr_sends (hs : s.issuing (.pclr h d a b) = some c) :
    ∃ t, exec (.pclr h d a b) s = .next t ∧ Sends t c (.pclr h d a b) fun n => pclrOut (lane (c.src 1 a) n).split (lane (c.src 2 b) n).split :=
  exec_putG_sends (f := fun c n => pclrOut (lane (c.src 1 a) n).split (lane (c.src 2 b) n).split) hs rfl rfl rfl

end Poison

theorem ptstOut_eq (d : Dst) (e : Elem) : ptstOut d e.split
    = if d.cls = .cf then outFlags (if e.poi then 1#4 else 4#4) none 0#6 else out32 (if e.poi then e.val else 0#32) none := by
  unfold ptstOut Elem.split
  cases e.poi <;> simp [flags]

theorem ptstOut_reads (d : Dst) (e : Elem) : (ptstOut d e.split).poi = none ∧ (ptstOut d e.split).flg = 0#6
    ∧ (d.cls = .cf → (ptstOut d e.split).flag.fl = if e.poi then 1#4 else 4#4)
    ∧ (d.cls ≠ .cf → (ptstOut d e.split).vals = [if e.poi then e.val else 0#32]) := by
  rw [ptstOut_eq]
  by_cases hd : d.cls = .cf
  · rw [if_pos hd]
    refine ⟨rfl, rfl, fun _ => ?_, fun hn => absurd hd hn⟩
    cases e.poi <;> rfl
  · rw [if_neg hd]
    exact ⟨rfl, rfl, fun h => absurd h hd, fun _ => rfl⟩

/-- The payload that `PSET` gives a clean value (R256): its cause is DATA where bits 31 to 28 name none of the nine. -/
theorem setPayload_bits (w : Word) : (setPayload w).extractLsb' 0 28 = w.extractLsb' 0 28
    ∧ (setPayload w).extractLsb' 28 4 = if 1 ≤ w.toNat / 2 ^ 28 ∧ w.toNat / 2 ^ 28 ≤ 9 then w.extractLsb' 28 4 else PCause.data.code := by
  have hk : (causeOf w).toNat = w.toNat / 2 ^ 28 := by
    rw [causeOf, BitVec.extractLsb'_toNat, Nat.shiftRight_eq_div_pow]
    have := w.isLt
    omega
  unfold setPayload
  dsimp only
  rw [hk]
  by_cases hr : 1 ≤ w.toNat / 2 ^ 28 ∧ w.toNat / 2 ^ 28 ≤ 9
  · rw [if_pos hr, if_neg (by simp only [Bool.or_eq_true, decide_eq_true_eq]; omega)]
    exact ⟨rfl, rfl⟩
  · rw [if_neg hr, if_pos (by simp only [Bool.or_eq_true, decide_eq_true_eq]; omega)]
    exact ⟨BitVec.extractLsb'_append_eq_right, BitVec.extractLsb'_append_eq_left⟩

theorem psetOut_poi (e : Elem) : (psetOut e.split).poi = some (if e.poi then e.val else setPayload e.val) := by
  unfold psetOut Elem.split
  cases e.poi <;> rfl

theorem pclrOut_eq (e f : Elem) : pclrOut e.split f.split = if e.poi then out32 f.val (if f.poi then some f.val else none) else out32 e.val none := by
  unfold pclrOut Elem.split
  cases e.poi <;> rfl

-- what CSRR reads

theorem setWidth_low_word {w : Nat} (x : BitVec w) : (x.setWidth 64).extractLsb' 0 32 = x.setWidth 32 := by
  rw [← BitVec.setWidth_eq_extractLsb' (by decide), BitVec.setWidth_setWidth_of_le _ (by decide)]

theorem setWidth_high_word {w : Nat} (x : BitVec w) : (x.setWidth 64).extractLsb' 32 32 = (x >>> 32).setWidth 32 := by
  ext j hj
  simp only [BitVec.getElem_extractLsb', BitVec.getLsbD_setWidth, BitVec.getElem_setWidth, BitVec.getLsbD_ushiftRight, Bool.and_eq_right_iff_imp,
    decide_eq_true_eq]
  omega

/-- The low word of `GSTAT` (R96, R271, R289). -/
theorem gstat_low (r : GCsr) : r.gstat.extractLsb' 0 32
    = (BitVec.ofBool r.stale).setWidth 32 ||| (BitVec.ofBool r.tmode).setWidth 32 <<< 1 ||| r.sidx.setWidth 32 <<< 4 := by
  rw [← BitVec.setWidth_eq_extractLsb' (by decide), GCsr.gstat]
  simp [BitVec.setWidth_setWidth_of_le]

/-- A pair's two words. -/
theorem outW_pair (x : BitVec 64) : (outW true x none).vals = [x.setWidth 32, (x >>> 32).setWidth 32] := by
  have hl := setWidth_low_word x
  have hh := setWidth_high_word x
  rw [BitVec.setWidth_eq] at hl hh
  rw [← hl, ← hh]
  rfl

/-- A system CSR reads 0 outside kernel mode (R333). -/
theorem csrRead_user {c : Iss} {n : BitVec 12} (hn : 0x100 ≤ n.toNat) (hk : c.g.kernel = false) (s : State) : csrRead c s n = 0#64 := by
  unfold csrRead
  dsimp only
  split
  case h_13 => rw [hk]; rfl
  all_goals omega

theorem csrWide_system {n : BitVec 12} (hn : 0x100 ≤ n.toNat) : csrWide n = false := by
  simp only [csrWide, ← BitVec.toNat_inj, BitVec.toNat_ofNat, Bool.or_eq_false_iff, decide_eq_false_iff_not]
  omega

theorem csrr_makes {s : State} {c : Iss} {h : Head} {d : Dst} {csr : BitVec 12} (hs : s.issuing (.csrr h d csr) = some c) :
    ∃ t, exec (.csrr h d csr) s = .next t ∧ SendsGuarded t c (.csrr h d csr) fun _ => outW (csrWide csr) (csrRead c s.landed csr) none :=
  issue_put_sends (body := fun c s => .done (c.put (.csrr h d csr) fun _ => outW (csrWide csr) (csrRead c s csr) none)) (useGuard := true) hs rfl rfl rfl

/-- What `CSRR` makes of the CSRs of the group (R96, R106, R271, R333, R376). -/
theorem csrr_reads (c : Iss) (s : State) (csr : BitVec 12) :
    let o := outW (csrWide csr) (csrRead c s csr) none
    o.poi = none
      ∧ (csr = 0#12 → o.vals.headD 0#32 = (BitVec.ofBool c.g.csr.stale).setWidth 32 ||| (BitVec.ofBool c.g.csr.tmode).setWidth 32 <<< 1
          ||| c.g.csr.sidx.setWidth 32 <<< 4)
      ∧ (csr = 2#12 → o.vals = [c.g.csr.tcause.setWidth 32]) ∧ (csr = 5#12 → o.vals = [c.g.csr.fpflg.setWidth 32])
      ∧ (csr = 3#12 → o.vals = [c.g.csr.tpc.setWidth 32, (c.g.csr.tpc >>> 32).setWidth 32])
      ∧ (csr = 4#12 → o.vals = [c.g.csr.taddr.setWidth 32, (c.g.csr.taddr >>> 32).setWidth 32])
      ∧ (0x100 ≤ csr.toNat → c.g.kernel = false → o.vals = [0#32]) := by
  intro o
  refine ⟨rfl, ?gstat, ?tcause, ?fpflg, ?tpc, ?taddr, fun hn hk => ?system⟩
  case gstat => rintro rfl; exact gstat_low _
  case tcause => rintro rfl; exact congrArg ([·]) (setWidth_low_word _)
  case fpflg => rintro rfl; exact congrArg ([·]) (setWidth_low_word _)
  case tpc => rintro rfl; exact congrArg₂ ([·, ·]) (setWidth_low_word _) (setWidth_high_word _)
  case taddr => rintro rfl; exact outW_pair _
  case system =>
    change (outW (csrWide csr) (csrRead c s csr) none).vals = _
    rw [csrWide_system hn, csrRead_user hn hk]
    rfl

-- what CSRW writes

/-- `CSRW` field by field (Table 14.8). -/
theorem csrWrite_eq (ceil : Nat) (n : BitVec 12) (v : BitVec 64) (r : GCsr) : csrWrite ceil n v r =
    { r with
      stale := if n = 0#12 then r.stale && !v.getLsbD 0 else r.stale
      tvec := if n = 1#12 then v.setWidth 57 else r.tvec
      tpc := if n = 3#12 then v.setWidth 57 else r.tpc
      fpflg := if n = 5#12 then r.fpflg &&& ~~~ v.setWidth 6 else r.fpflg
      rm := if n = 6#12 then v.setWidth 2 else r.rm
      ftz := if n = 6#12 then v.getLsbD 2 else r.ftz
      ejth := if n = 7#12 then min 8 (v.toNat % 2 ^ 32) else r.ejth
      chk := if n = 8#12 then v.getLsbD 0 else r.chk
      prio := if n = 9#12 then min ceil (v.toNat % 2 ^ 32) else r.prio } := by
  simp only [← BitVec.toNat_inj, BitVec.toNat_ofNat]
  unfold csrWrite
  split
  case h_9 h0 h1 h3 h5 h6 h7 h8 h9 =>
    rw [if_neg h0, if_neg h1, if_neg h3, if_neg h5, if_neg h6, if_neg h6, if_neg h7, if_neg h8, if_neg h9]
  all_goals simp [*]

/-- No continuation issues an instruction that helper cores do not execute (R36). -/
theorem cont_of_not_onHelper {s : State} {c : Iss} {i : Instr} (hr : s.reaching i = some c) (hh : i.onHelper = false) : c.g.cont = none := by
  obtain ⟨g0, pc, -, -, hG, rfl⟩ := reaching_iff.1 hr
  have hcont : (issOf s s.cur (g0.upTo s.now) i pc ((g0.upTo s.now).atPc pc)).g.cont = (g0.upTo s.now).cont := by
    simp only [issOf]
    split <;> rfl
  have hhelper := hG.helper
  rw [hh] at hhelper
  rw [hcont]
  exact Option.not_isSome_iff_eq_none.1 (by simpa using hhelper)

/-- Of the CSRs an issue changes `STALE` alone (R95, R96). -/
theorem afterIssue_csr (c : Iss) (i : Instr) (n : Nat) : (afterIssue c i n).csr = { c.g.csr with stale := c.g.csr.stale || (staleField c i).isSome } := by
  obtain ⟨x, y, hs⟩ := setsSb_eq i (issued c i n)
  obtain ⟨l, o, hd, -⟩ := deadMarks_eq c i (setsSb i (issued c i n))
  unfold afterIssue
  dsimp only
  rw [hd, hs]
  split <;> rfl

/-- The group behind the issue itself, with its CSRs, when no continuation issues. -/
theorem begun_csr {c : Iss} (hc : c.g.cont = none) (s : State) (i : Instr) :
    ∃ g, (s.begun c i).groups.find s.cur = some g ∧ Issued c i g ∧ g.csr = { c.g.csr with stale := c.g.csr.stale || (staleField c i).isSome } := by
  refine ⟨_, ?_, (afterIssue_issued c i s.free).logged c.g c.t, afterIssue_csr c i s.free⟩
  unfold State.begun
  dsimp only
  rw [hc]
  exact (congrArg (AMap.find · s.cur) (upRod_groups ..)).trans (find_setO_self ..)

/-- What `CSRW` answers for a value that it writes (R377). -/
def csrwRes (c : Iss) (s : State) (csr : BitVec 12) (v : BitVec 64) : Res :=
  if (csr = 1#12 || csr = 3#12) && v.toNat % 4 ≠ 0 then .trap .misalign v
  else if csr.toNat < 0x100 then .done (upGroup c.gid fun g => { g with csr := csrWrite (s.ceilOf g) csr v g.csr })
  else .done (soon (.systemCsrWrite (Config.firmwareCsr csr) 8 v))

/-- The meaning of `CSRW` behind its checks (R377). -/
def csrwBody (h : Head) (csr : BitVec 12) (a : Src) (c : Iss) (s : State) : Res :=
  consuming c s (.csrw h csr a) [1] false (csrwRes c s csr (if csrWide csr then (c.pairAt 1 a 0).1 else (c.uni 1 a 0).val.setWidth 64))

/-- The value that a `CSRW` of a legal encoding writes. -/
def csrwValue (c : Iss) (csr : BitVec 12) (a : Src) : BitVec 64 :=
  if csr = 1#12 ∨ csr = 3#12 then (c.pairAt 1 a 0).1 else (lane (c.src 1 a) 0).val.setWidth 64

section Csrw
variable {s : State} {c : Iss} {h : Head} {csr : BitVec 12} {a : Src}

theorem exec_csrw (h : Head) (csr : BitVec 12) (a : Src) (s : State) : exec (.csrw h csr a) s = issue (.csrw h csr a) s (csrwBody h csr a) := rfl

/-- Of the wide CSRs `CSRW` writes the trap addresses alone (R377). -/
theorem csrw_wide (hr : s.reaching (.csrw h csr a) = some c) : csrWide csr = decide (csr = 1#12 ∨ csr = 3#12) := by
  obtain ⟨_, _, _, _, hG, _⟩ := reaching_iff.1 hr
  have hl := hG.legal
  simp only [Instr.legal, Instr.head, Instr.formOk, Bool.and_eq_true, decide_eq_true_eq] at hl
  obtain ⟨-, ⟨⟨-, h4⟩, hB⟩, -⟩ := hl
  simp [csrWide, h4, hB]

/-- The answer of a `CSRW` with no poisoned operand. -/
theorem csrw_answer (hr : s.reaching (.csrw h csr a) = some c) (hcl : Clean c (.csrw h csr a)) (t : State) :
    csrwBody h csr a c t = csrwRes c t csr (csrwValue c csr a) := by
  rw [csrwBody, consuming_clean hcl, csrw_wide hr, csrwValue]
  simp only [decide_eq_true_eq]
  rfl

/-- A `CSRW` of a CSR of the group writes it, and no other CSR (R96, R106, R107, R377). -/
theorem csrw_writes (hs : s.issuing (.csrw h csr a) = some c) (ha : acts c (.csrw h csr a) = true) (hcl : Clean c (.csrw h csr a))
    (hal : csr = 1#12 ∨ csr = 3#12 → (csrwValue c csr a).toNat % 4 = 0) (hlt : csr.toNat < 0x100) :
    ∃ t g, exec (.csrw h csr a) s = .next t ∧ SameButIssue s t ∧ t.groups.find s.cur = some g ∧ SameRegs c.g g
      ∧ g.csr = csrWrite (s.ceilOf c.g) csr (csrwValue c csr a)
          { c.g.csr with stale := c.g.csr.stale || (staleField c (.csrw h csr a)).isSome } := by
  have hr := (issuing_iff.1 hs).1
  obtain ⟨g, hg, hI, hcsr⟩ := begun_csr (cont_of_not_onHelper hr rfl) s (.csrw h csr a)
  have hres : csrwRes c s.landed csr (csrwValue c csr a)
      = .done (upGroup c.gid fun g => { g with csr := csrWrite (s.landed.ceilOf g) csr (csrwValue c csr a) g.csr }) := by
    rw [csrwRes, if_neg (by simpa using hal), if_pos hlt]
  have hceil : s.landed.ceilOf g = s.ceilOf c.g := by
    obtain ⟨g0, hg0, -⟩ := issuer_of_reaching hr
    rw [landed_eq hg0]
    simp only [State.ceilOf, State.ctxOf, hI.team]
    rfl
  refine ⟨_, { g with csr := csrWrite (s.landed.ceilOf g) csr (csrwValue c csr a) g.csr },
    (exec_csrw h csr a s).trans (issue_done hs ha ((csrw_answer hr hcl _).trans hres)), (issues_upGroup ..).sameButIssue (begun_sameButIssue hr), ?_, ?_, congrArg₂ (csrWrite · csr (csrwValue c csr a) ·) hceil hcsr⟩
  · rw [gid_of_reaching hr, does_upGroup_some _ _ _ _ hg]
    exact find_setO_self ..
  · exact ⟨hI.regs.v, hI.regs.s, hI.regs.c, hI.regs.f, hI.regs.q⟩

/-- A trap address that is no multiple of 4 raises `MISALIGN` (R377; `TADDR` by log entry 15). -/
theorem csrw_misaligned {g : Group} (hs : s.issuing (.csrw h csr a) = some c) (ha : acts c (.csrw h csr a) = true) (hcl : Clean c (.csrw h csr a))
    (hcsr : csr = 1#12 ∨ csr = 3#12) (hmis : (csrwValue c csr a).toNat % 4 ≠ 0) (hg : s.issuer = some g) (hc : CanTrap g) :
    ∃ t, exec (.csrw h csr a) s = .next t ∧ Trapped s t s.cur g 5#4 (csrwValue c csr a) c.pc c.act := by
  have hr := (issuing_iff.1 hs).1
  have hres : csrwRes c s.landed csr (csrwValue c csr a) = .trap .misalign (csrwValue c csr a) := by
    rw [csrwRes, if_pos (by simp [hcsr, hmis])]
  obtain ⟨t, ht, htrap, -⟩ := issue_checked_traps (body := csrwBody h csr a) hr hg hc
    ((checked_passes (issuing_iff.1 hs).2 ha _).trans ((csrw_answer hr hcl _).trans hres))
  exact ⟨t, ht, htrap⟩

/-- A `CSRW` of a system CSR is a write of firmware's CSR at its offset (R333, R377). -/
theorem csrw_system (hs : s.issuing (.csrw h csr a) = some c) (ha : acts c (.csrw h csr a) = true) (hcl : Clean c (.csrw h csr a))
    (hge : 0x100 ≤ csr.toNat) :
    ∃ t, exec (.csrw h csr a) s = .next t ∧ t.agenda = s.agenda ++ [.systemCsrWrite (Config.firmwareCsr csr) 8 (csrwValue c csr a)] := by
  have hr := (issuing_iff.1 hs).1
  have hne : ¬ (csr = 1#12 ∨ csr = 3#12) := by
    rintro (rfl | rfl)
    · exact absurd hge (by decide)
    · exact absurd hge (by decide)
  have hres : csrwRes c s.landed csr (csrwValue c csr a) = .done (soon (.systemCsrWrite (Config.firmwareCsr csr) 8 (csrwValue c csr a))) := by
    rw [csrwRes, if_neg (by simp [hne]), if_neg (by omega)]
  refine ⟨_, (exec_csrw h csr a s).trans (issue_done hs ha ((csrw_answer hr hcl _).trans hres)), ?_⟩
  exact congrArg (· ++ _) ((congrArg State.agenda (begun_sameButIssue hr)).trans rfl)

end Csrw

/-- Settles O21: each instruction that reads by what its lanes make, and `CSRW` by its answer for the value that it writes. -/
theorem poisonCounterAndCsr : Obligations.PoisonCounterAndCsr := by
  unfold Obligations.PoisonCounterAndCsr
  refine ⟨fun s c h d a b k csr => ?reads, fun s c h csr a => ?writes⟩
  case writes =>
    intro v hs ha hcl
    refine ⟨fun hal hlt => ?_, fun g hcsr hmis hg hc => csrw_misaligned hs ha hcl hcsr hmis hg hc, fun hge => csrw_system hs ha hcl hge⟩
    obtain ⟨t, g, ht, hsame, hg, hregs, hcsr⟩ := csrw_writes hs ha hcl hal hlt
    rw [csrWrite_eq] at hcsr
    refine ⟨t, g, ht, hsame, hg, hregs, fun h0 => ?_, fun h0 => ?_, ?_⟩
    · rw [hcsr]; exact if_pos h0
    · rw [hcsr]; exact if_neg h0
    · rw [hcsr]
      exact ⟨rfl, rfl, rfl, rfl, rfl, rfl, rfl, rfl, rfl, rfl, rfl, rfl⟩
  intro x
  refine ⟨fun hs => ?ptst, fun hs => ?pset, fun hs => ?pclr, fun hs => ?cntr, fun hs => ?csrr⟩
  case ptst =>
    obtain ⟨t, ht, hsend⟩ := ptst_sends hs
    exact ⟨t, _, ht, hsend, fun n => ptstOut_reads d (x n)⟩
  case pset =>
    obtain ⟨t, ht, hsend⟩ := pset_sends hs
    refine ⟨t, _, ht, hsend, fun n => ⟨fun hp => ?_, fun hp => ⟨setPayload (x n).val, ?_, setPayload_bits _⟩⟩⟩
    · exact (psetOut_poi (x n)).trans (by rw [if_pos hp])
    · exact (psetOut_poi (x n)).trans (by rw [hp]; rfl)
  case pclr =>
    obtain ⟨t, ht, hsend⟩ := pclr_sends hs
    refine ⟨t, _, ht, hsend, fun n => ⟨fun hp => ?_, fun hp => ?_⟩⟩
    · exact (pclrOut_eq (x n) _).trans (by rw [hp]; rfl)
    · exact (pclrOut_eq (x n) _).trans (by rw [if_pos hp])
  case cntr =>
    obtain ⟨t, ht, hsend⟩ := alu_sends (i := .cntr h k d) (f := fun c _ => out32 (BitVec.ofNat 32 (c.g.counter k)) none) hs rfl rfl
    exact ⟨t, ht, _, hsend, fun _ _ _ => rfl⟩
  case csrr =>
    obtain ⟨t, ht, hsend⟩ := csrr_makes hs
    exact ⟨t, ht, _, hsend, fun _ _ _ => csrr_reads c s.landed csr⟩

end Sys2Proof.Machine
end

section
/-!
SUPPORT. O6: what a result of fixed latency changes (R73, R80 to R92, R95, R107): its rod, and results in flight.
-/
namespace Sys2Proof.Machine

-- results in flight that may come later

theorem Kept.later {l : List Pend} {p q : Pend} (h : Kept l p) (hk : p.kind = q.kind) (hc : p.clk ≤ q.clk) : Kept l q :=
  let ⟨r, hr, hk', hc'⟩ := h
  ⟨r, hr, hk'.trans hk, hc'.trans hc⟩

/-- What is kept, or of a kind of its own, stays so over a second change. -/
theorem kept_or_trans {P : PendKind → Prop} {l m n : List Pend} (hm : ∀ p ∈ m, Kept l p ∨ P p.kind) (hn : ∀ p ∈ n, Kept m p ∨ P p.kind) :
    ∀ p ∈ n, Kept l p ∨ P p.kind := by
  intro p hp
  rcases hn p hp with ⟨q, hq, hk, hc⟩ | hw
  · exact (hm q hq).imp (·.later hk hc) (hk ▸ ·)
  · exact .inr hw

/-- A result in flight that is exchanged for a later one of its kind is kept. -/
theorem kept_replacePend {p q : Pend} (hk : p.kind = q.kind) (hc : p.clk ≤ q.clk) (l : List Pend) : ∀ x ∈ replacePend p q l, Kept l x := by
  intro x hx
  unfold replacePend at hx
  split at hx
  · rename_i hp
    rcases (mem_addPend _ _ _).1 hx with rfl | hx
    · exact ⟨p, List.contains_iff_mem.1 hp, hk, hc⟩
    · exact kept_of_mem (List.mem_of_mem_erase hx)
  · exact kept_of_mem hx

theorem kept_replacePends {r : List (Pend × Pend)} (h : ∀ p ∈ r, p.1.kind = p.2.kind ∧ p.1.clk ≤ p.2.clk) (l : List Pend) :
    ∀ x ∈ r.foldl (fun l p => replacePend p.1 p.2 l) l, Kept l x := by
  induction r generalizing l with
  | nil => exact fun x hx => kept_of_mem hx
  | cons p r ih =>
    obtain ⟨hk, hc⟩ := h p List.mem_cons_self
    intro x hx
    obtain ⟨q, hq, hk', hc'⟩ := ih (fun q hq => h q (List.mem_cons_of_mem _ hq)) _ x hx
    exact (kept_replacePend hk hc l q hq).later hk' hc'

/-- A result on the return path that takes its place is put off (R73). -/
theorem placeRet_shift (w : List (Nat × Nat)) (before : List Ret) (fuel : Nat) (r : Ret) : ∃ d, placeRet w before fuel r = r.shift d := by
  have hshift (d : Nat) (r : Ret) : (r.shift 1).shift d = r.shift (1 + d) := by
    simp [Ret.shift, Nat.add_assoc]
  induction fuel generalizing r with
  | zero => exact ⟨0, by simp [placeRet, Ret.shift]⟩
  | succ fuel ih =>
    unfold placeRet
    split
    · obtain ⟨d, hd⟩ := ih (r.shift 1)
      exact ⟨1 + d, by rw [hd, hshift]⟩
    · exact ⟨0, by simp [Ret.shift]⟩

/-- Each result on a return path, beside its new place. -/
theorem placeRets_shift (w : List (Nat × Nat)) (l : List Ret) : ∀ p ∈ l.zip (placeRets w l), ∃ d, p.2 = p.1.shift d := by
  have key (n : Nat) : ∀ (l before : List Ret), ∃ m, l.foldl (fun before r => before ++ [placeRet w before n r]) before = before ++ m
      ∧ ∀ p ∈ l.zip m, ∃ d, p.2 = p.1.shift d := by
    intro l
    induction l with
    | nil => exact fun before => ⟨[], (List.append_nil _).symm, nofun⟩
    | cons r l ih =>
      intro before
      obtain ⟨m, hm, hp⟩ := ih (before ++ [placeRet w before n r])
      refine ⟨placeRet w before n r :: m, hm.trans (by rw [List.append_assoc]; rfl), fun p h => ?_⟩
      rcases List.mem_cons.1 h with rfl | h
      · exact placeRet_shift ..
      · exact hp p h
  obtain ⟨m, hm, hp⟩ := key (l.length + w.length + 1) l []
  rw [placeRets, hm]
  exact hp

/-- A group whose returned result is put off is untouched (R73). -/
theorem moveRet_untouched (g : Group) (r : Ret) (d : Nat) : Untouched g (g.moveRet r (r.shift d)) := by
  refine ⟨_, _, g.csr.stale, rfl, id, fun x hx => .inl (kept_replacePends (fun p hp => ?_) g.pend x hx)⟩
  have hz : r.pend.zip (r.shift d).pend = r.pend.map fun p => (p, { p with clk := p.clk + d }) :=
    (congrArg (List.zip · _) (List.map_id _).symm).trans List.zip_map'
  rw [hz] at hp
  obtain ⟨q, -, rfl⟩ := List.mem_map.1 hp
  exact ⟨rfl, Nat.le_add_right _ _⟩

theorem pends_flg_untouched (g : Group) (L : Nat) (b : BitVec 6) : Untouched g (g.pends [⟨L, .flg b⟩]) := by
  refine ⟨_, g.past, g.csr.stale, rfl, id, fun x hx => ?_⟩
  rcases (mem_foldl_addPend _ _ _).1 hx with hx | hx
  · exact .inr ⟨b, by rw [List.mem_singleton.1 hx]⟩
  · exact .inl (kept_of_mem hx)

theorem Untouched.trans {a b g : Group} (h : Untouched a b) (k : Untouched b g) : Untouched a g := by
  obtain ⟨p, l, st, rfl, hst, hp⟩ := h
  obtain ⟨p', l', st', rfl, hst', hp'⟩ := k
  exact ⟨p', l', st', rfl, hst' ∘ hst, kept_or_trans (P := fun k => ∃ f, k = .flg f) hp hp'⟩

-- what stays of the issuing group and of the others

section Quiet
variable {s t : State} {c : Iss} {i : Instr} {k : Nat} {f : Group → Group}

/-- The issuing group takes results in flight that the instruction may write. -/
theorem Quiet.upCur (h : Quiet s t c i) (hk : k = s.cur) (hr : ∀ g, SameRegs g (f g)) (hp : ∀ g, ∀ p ∈ (f g).pend, Kept g.pend p ∨ MayWrite i p.kind) :
    Quiet s (t.does (upGroup k f)) c i := by
  obtain ⟨hother, g, hg, hregs, hpend⟩ := h
  subst hk
  rw [does_upGroup_some _ _ _ _ hg]
  refine ⟨fun j hj => ?_, f g, find_setO_self .., hregs.trans' (hr g), kept_or_trans hpend (hp g)⟩
  rw [apply_groups, find_setO_some_ne _ _ hj]
  exact hother j hj

/-- A change of a group that counts as none, of the issuing group or of another. -/
theorem Quiet.upUntouched (h : Quiet s t c i) (hf : ∀ g, Untouched g (f g)) (k : Nat) : Quiet s (t.does (upGroup k f)) c i := by
  by_cases hk : k = s.cur
  · refine h.upCur hk (fun g => ?_) fun g p hp => ?_
    · obtain ⟨_, _, _, he, -⟩ := hf g
      rw [he]
      exact ⟨rfl, rfl, rfl, rfl, rfl⟩
    · obtain ⟨_, _, _, he, -, hl⟩ := hf g
      rw [he] at hp
      refine (hl p hp).imp id ?_
      rintro ⟨b, hb⟩
      rw [hb]
      exact trivial
  · cases hx : t.groups.find k with
    | none => rw [does_upGroup_none _ _ _ hx]; exact h
    | some x =>
      obtain ⟨hother, g, hg, hrest⟩ := h
      rw [does_upGroup_some _ _ _ _ hx]
      refine ⟨fun j hj => ?_, g, (find_setO_some_ne _ _ (Ne.symm hk)).trans hg, hrest⟩
      rw [apply_groups]
      by_cases hjk : j = k
      · subst hjk
        obtain ⟨hnone, hsome⟩ := hother j hj
        rw [find_setO_self]
        refine ⟨fun hn => ?_, fun a ha => ?_⟩
        · rw [hnone hn] at hx
          cases hx
        · obtain ⟨b, hb, hab⟩ := hsome a ha
          obtain rfl : x = b := Option.some.inj (hx.symm.trans hb)
          exact ⟨_, rfl, hab.trans (hf x)⟩
      · rw [find_setO_some_ne _ _ hjk]
        exact hother j hj

end Quiet

/-- What is quiet before stays quiet. -/
def StaysQuiet (s : State) (c : Iss) (i : Instr) (t u : State) : Prop := Quiet s t c i → Quiet s u c i

theorem staysQuiet_chains (s : State) (c : Iss) (i : Instr) : Chains (StaysQuiet s c i) where
  refl _ := id
  trans h k := k ∘ h

section Put
variable (s : State) (c : Iss) (i : Instr)

theorem staysQuiet_groups {t u : State} (h : u.groups = t.groups) : StaysQuiet s c i t u := fun hq => hq.of_groups h

theorem quiet_upRod (k : Nat) (f : Rod → Rod) : (upRod k f).Within (StaysQuiet s c i) := ⟨fun t => staysQuiet_groups s c i (upRod_groups t k f)⟩

/-- The returned results of a rod that take their places anew leave the groups untouched (R73). -/
theorem quiet_settleRets (key : Nat) : (settleRets key).Within (StaysQuiet s c i) :=
  have hR := staysQuiet_chains s c i
  have hmove (r : Ret) (d : Nat) : (on fun t => each t.groups fun kv => when (kv.1 = r.dest || kv.2.cont.map Prod.fst = some r.dest)
      (upGroup kv.1 fun g => g.moveRet r (r.shift d))).Within (StaysQuiet s c i) :=
    within_on fun t => (within_each hR fun kv _ => within_when hR fun _ => ⟨fun _ hq => hq.upUntouched (fun g => moveRet_untouched g r d) kv.1⟩).rel t
  within_on fun t => (within_onSome hR fun r => within_when hR fun _ => within_andThen hR (within_act fun _ => staysQuiet_groups s c i rfl) <|
    within_andThen hR (within_each hR fun p hp => within_when hR fun _ => by
      obtain ⟨d, hd⟩ := placeRets_shift _ _ p hp
      rw [hd]
      exact hmove p.1 d) (within_skip hR)).rel t

theorem quiet_flagsUp (L : Nat) (b : BitVec 6) : (c.flagsUp L b).Within (StaysQuiet s c i) :=
  within_onSome (staysQuiet_chains s c i) fun p => ⟨fun _ hq => hq.upUntouched (fun g => pends_flg_untouched g L b) p.1⟩

/-- Results that the instruction may write are taken by its own group. -/
theorem quiet_takes (hc : c.gid = s.cur) {l : Group → List Pend} (hl : ∀ g, ∀ p ∈ l g, MayWrite i p.kind) (L : Nat) :
    (upGroup c.gid fun g => g.takes (l g) L).Within (StaysQuiet s c i) :=
  ⟨fun _ hq => hq.upCur hc (fun _ => ⟨rfl, rfl, rfl, rfl, rfl⟩) fun g p hp =>
    ((mem_pends g (l g) p).1 hp).elim (fun h => .inr (hl g p h)) fun h => .inl (kept_of_mem h)⟩

end Put

-- what is sent may be written

section MayWrite
variable {c : Iss} {i : Instr} {u : DstUse} {f : Nat → LaneOut}

theorem mayWrite_holds {L : Nat} {p : Pend} (hp : p ∈ c.holds f L) : MayWrite i p.kind := by
  obtain ⟨k, hk, rfl⟩ := List.mem_map.1 hp
  obtain ⟨x, -, hx⟩ := List.mem_filterMap.1 hk
  dsimp only at hx
  split at hx
  · cases hx
  · cases hx
    exact trivial

theorem mayWrite_vecPends (hu : i.dst? = some u) (hv : i.vecResult = true) {hm : BitVec 4} {m : Mask} {L : Nat} {x : Nat → Lanes} {p : Pend}
    (hp : p ∈ vecPends i u.dst u.span hm m L x) : MayWrite i p.kind := by
  have hcls : u.dst.cls = .v := by
    simp only [Instr.vecResult, hu, Bool.and_eq_true, decide_eq_true_eq] at hv
    exact hv.2
  have hhint : (i.head.getD ⟨.al, ⟨0, false, 0, 0, false, 0, false, 0⟩⟩).hint = i.hint := by
    unfold Instr.hint
    cases i.head <;> rfl
  unfold vecPends at hp
  dsimp only at hp
  rw [hhint] at hp
  rcases List.mem_append.1 hp with hp | hp
  · rcases List.mem_append.1 hp with hp | hp
    · rw [List.mem_singleton.1 hp]
      exact hv
    · split at hp
      · rename_i ho
        rw [List.mem_singleton.1 hp]
        exact ⟨ho, rfl⟩
      · exact nomatch hp
  · split at hp
    · exact nomatch hp
    · rename_i hn
      obtain ⟨k, hk, rfl⟩ := List.mem_map.1 hp
      exact ⟨u, hu, by simpa using hn, hcls, Nat.le_add_right _ _, Nat.add_lt_add_left (List.mem_range.1 hk) _⟩

theorem mayWrite_vecResults (hu : i.dst? = some u) (hv : i.vecResult = true) {hm : BitVec 4} {L : Nat} {p : Pend} (hp : p ∈ c.vecResults i u f hm L) :
    MayWrite i p.kind := by
  simp only [Iss.vecResults, List.mem_append, List.mem_singleton] at hp
  rcases hp with ((hp | rfl) | hp) | hp
  · exact mayWrite_vecPends hu hv hp
  · exact trivial
  · exact mayWrite_holds hp
  · exact mayWrite_sbAt hp

theorem mayWrite_plainWrites (hu : i.dst? = some u) {n : Nat} {k : PendKind} (hk : k ∈ c.plainWrites u f n) : MayWrite i k := by
  unfold Iss.plainWrites at hk
  split at hk
  · exact nomatch hk
  · rename_i hnwb
    have hn : u.dst.nwb = false := by
      simp only [Bool.or_eq_true, decide_eq_true_eq, not_or, Bool.not_eq_true] at hnwb
      exact hnwb.1
    split at hk
    · rename_i hcls
      obtain ⟨j, hj, rfl⟩ := List.mem_map.1 hk
      exact ⟨u, hu, hn, hcls, Nat.le_add_right _ _, Nat.add_lt_add_left (List.mem_range.1 hj) _⟩
    · rename_i hcls
      split at hk
      · rw [List.mem_singleton.1 hk]
        exact ⟨u, hu, hn, hcls, rfl⟩
      · rw [List.mem_singleton.1 hk]
        exact ⟨u, hu, hn, hcls, by omega⟩
    · exact nomatch hk

theorem mayWrite_plainResults (hu : i.dst? = some u) {n L : Nat} {p : Pend} (hp : p ∈ c.plainResults i u f n L) : MayWrite i p.kind := by
  simp only [Iss.plainResults, List.mem_append, List.mem_singleton, List.mem_map] at hp
  rcases hp with ((⟨k, hk, rfl⟩ | rfl) | hp) | hp
  · exact mayWrite_plainWrites hu hk
  · exact trivial
  · exact mayWrite_holds hp
  · exact mayWrite_sbAt hp

end MayWrite

/-- A result of fixed latency joins its group's results in flight, and leaves the other groups untouched (R73, R107). -/
theorem quiet_putG {s : State} {c : Iss} (hc : c.gid = s.cur) (i : Instr) (useGuard : Bool) (f : Nat → LaneOut) :
    (c.putG i useGuard f).Within (StaysQuiet s c i) := by
  have hR := staysQuiet_chains s c i
  unfold Iss.putG
  cases hu : i.dst? with
  | none => exact within_skip hR
  | some u =>
    dsimp only
    split
    · rename_i hv
      exact within_andThen hR (within_when hR fun _ => within_andThen hR (quiet_upRod ..) (quiet_settleRets ..)) <|
        within_andThen hR (quiet_flagsUp ..) <| within_andThen hR (quiet_takes s c i hc (fun _ _ hp => mayWrite_vecResults hu hv hp) _) (within_skip hR)
    · exact within_freely hR (fun _ _ => staysQuiet_groups s c i rfl) fun _ => within_andThen hR (quiet_flagsUp ..) <|
        quiet_takes s c i hc (fun _ _ hp => mayWrite_plainResults hu hp) _

-- the rod

/-- A change of a group leaves the rods. -/
theorem keeps_upGroup_rod (k n : Nat) (f : Group → Group) : (upGroup n f).Keeps fun t => t.rods.find k := fun t => by
  cases h : t.groups.find n with
  | none => rw [does_upGroup_none _ _ _ h]
  | some g => rw [does_upGroup_some _ _ _ _ h]; rfl

theorem keeps_upRod_ne {k key : Nat} (hk : k ≠ key) (f : Rod → Rod) : (upRod key f).Keeps fun t => t.rods.find k := fun t => by
  cases h : t.rods.find key with
  | none => rw [does_upRod_none _ _ _ h]
  | some r => rw [does_upRod_some _ _ _ _ h]; exact find_setO_some_ne _ _ hk

/-- A result of fixed latency has its latch clock reserved in its own rod (R73). -/
theorem putG_rods {c : Iss} {k : Nat} (hk : k ≠ rodKey c.g.frame c.g.rod) (i : Instr) (useGuard : Bool) (f : Nat → LaneOut) :
    (c.putG i useGuard f).Keeps fun t => t.rods.find k := by
  have hsettle : (settleRets (rodKey c.g.frame c.g.rod)).Keeps fun t => t.rods.find k :=
    keeps_on fun _ => keeps_onSome _ fun _ => keeps_when _ fun _ => keeps_andThen (keeps_act fun _ => find_setO_some_ne _ _ hk) <|
      keeps_andThen (keeps_each _ fun _ _ => keeps_when _ fun _ => keeps_on fun _ => keeps_each _ fun _ _ => keeps_when _ fun _ => keeps_upGroup_rod _ _ _)
        (keeps_skip _)
  have hflags (L : Nat) (b : BitVec 6) : (c.flagsUp L b).Keeps fun t => t.rods.find k := keeps_onSome _ fun _ => keeps_upGroup_rod _ _ _
  unfold Iss.putG
  cases i.dst? with
  | none => exact keeps_skip _
  | some u =>
    dsimp only
    split
    · exact keeps_andThen (keeps_when _ fun _ => keeps_andThen (keeps_upRod_ne hk _) hsettle) <| keeps_andThen (hflags _ _) <|
        keeps_andThen (keeps_upGroup_rod _ _ _) (keeps_skip _)
    · exact keeps_freely (fun _ _ => rfl) fun _ => keeps_andThen (hflags _ _) (keeps_upGroup_rod _ _ _)

/-- The issue itself reads the banks of its own rod (R71). -/
theorem begun_rods {s : State} {c : Iss} {i : Instr} (hr : s.reaching i = some c) {k : Nat} (hk : k ≠ rodKey c.g.frame c.g.rod) :
    (s.begun c i).rods.find k = s.rods.find k := by
  obtain ⟨g, hI, he⟩ := begun_eq hr
  rw [← hI.frame, ← hI.rod] at hk
  have hrods := keeps_andThen (keeps_onSome c.g.cont fun p => keeps_when (staleField c i).isSome fun _ =>
      keeps_upGroup_rod k p.1 fun g => { g with csr := { g.csr with stale := true } })
    (keeps_when c.g.cont.isNone fun _ => keeps_upRod_ne hk fun r =>
      { r with reads := r.reads ++ (i.vreads.zip c.reads).map fun p => (p.1.2.2 % 6, p.2.clk) })
  rw [he, ← does_andThen]
  exact hrods _

-- the frame

/-- An effect that, behind an issue of `i` as `c`, changes no more than an instruction of fixed latency may. -/
structure Frames (s : State) (c : Iss) (i : Instr) (e : Eff) : Prop where
  same : e.Only Act.Issues
  quiet : e.Within (StaysQuiet s c i)
  rods : ∀ k, k ≠ rodKey c.g.frame c.g.rod → e.Keeps fun t => t.rods.find k

theorem frames_putG {s : State} {c : Iss} (hc : c.gid = s.cur) (i : Instr) (useGuard : Bool) (f : Nat → LaneOut) : Frames s c i (c.putG i useGuard f) :=
  ⟨issues_putG .., quiet_putG hc .., fun _ hk => putG_rods hk _ _ _⟩

theorem frames_andThen {s : State} {c : Iss} {i : Instr} {a b : Eff} (ha : Frames s c i a) (hb : Frames s c i b) : Frames s c i (andThen a b) :=
  ⟨only_andThen ha.same hb.same, within_andThen (staysQuiet_chains s c i) ha.quiet hb.quiet, fun k hk => keeps_andThen (ha.rods k hk) (hb.rods k hk)⟩

/-- A change of the issuing group that leaves its registers and adds only results in flight that the instruction may write. -/
theorem frames_upCur {s : State} {c : Iss} {i : Instr} (hc : c.gid = s.cur) {f : Group → Group} (hr : ∀ g, SameRegs g (f g))
    (hp : ∀ g, ∀ p ∈ (f g).pend, Kept g.pend p ∨ MayWrite i p.kind) : Frames s c i (upGroup c.gid f) :=
  ⟨issues_upGroup .., ⟨fun _ hq => hq.upCur hc hr hp⟩, fun k _ => keeps_upGroup_rod k _ _⟩

/-- What an instruction of fixed latency, `BRD` apart, answers: an effect that frames. -/
theorem exec_fixed_frames {s : State} {c : Iss} {i : Instr} (hs : s.issuing i = some c) (hf : i.fixed = true) (hb : ∀ h d m o, i ≠ .brd h d m o) :
    ∃ e, exec i s = .next ((s.begun c i).does e) ∧ Frames s c i e := by
  have hr := (issuing_iff.1 hs).1
  have hc := gid_of_reaching hr
  have hput {body : Iss → State → Res} {useGuard : Bool} {f : Nat → LaneOut} (hx : exec i s = issue i s body)
      (hbody : body c s.landed = .done (c.putG i useGuard f)) : ∃ e, exec i s = .next ((s.begun c i).does e) ∧ Frames s c i e :=
    ⟨_, hx.trans (issue_done hs (acts_fixed hf) hbody), frames_putG hc ..⟩
  have hshared {o : Iss → LaneOut} (hx : exec i s = issue i s fun c _ => shared c i (o c)) :
      ∃ e, exec i s = .next ((s.begun c i).does e) ∧ Frames s c i e := by
    cases hw : i.writesUniform with
    | true => exact hput hx (if_pos hw)
    | false => exact hput hx (if_neg (by rw [hw]; decide))
  cases i with
  | mov | movl | iadd | isub | imul | imad | imin | imax | iabs | lea | lop3 | shl | shr | shf | popc | clz | brev | bfx | bfi | bil | bdil | prmt | cmp
  | sel | shfl | lscan | fadd | fmul | ffma | fmin | fmax | fcmp | fclass | frnd | fscale | ffn | fdiv | fsqrt | cvt | pfma | dot4 | fdot2 | cntr
  | pclr | ptst | pset | csrr => exact hput rfl rfl
  | vote | lred => exact hshared rfl
  | unify h d a =>
    refine ⟨_, exec_unify hs, frames_upCur hc (fun _ => ⟨rfl, rfl, rfl, rfl, rfl⟩) fun g p hp => ?_⟩
    rcases (mem_pends _ _ _).1 hp with hp | hp
    · rcases List.mem_append.1 hp with hp | hp
      · obtain ⟨k, hk, rfl⟩ := List.mem_map.1 hp
        exact .inr (mayWrite_unify (unify_dst hs) hk)
      · exact .inr (mayWrite_sbAt hp)
    · exact .inl (kept_of_mem hp)
  | call h d off =>
    refine ⟨andThen _ _, (exec_call hs).trans (congrArg _ (does_andThen ..).symm), frames_andThen (frames_putG hc ..) ?_⟩
    exact frames_upCur hc (fun _ => ⟨rfl, rfl, rfl, rfl, rfl⟩) fun _ _ hp => .inl (kept_of_mem hp)
  | brd h d m o => exact absurd rfl (hb h d m o)
  | _ => exact (Bool.false_ne_true hf).elim

/-- Settles O6: the issue itself frames, and so does what the instruction then does. -/
theorem fixedLatencyFrame : Obligations.FixedLatencyFrame := by
  unfold Obligations.FixedLatencyFrame
  intro s i c t hs hf hb ht
  have hr := (issuing_iff.1 hs).1
  obtain ⟨e, he, hF⟩ := exec_fixed_frames hs hf hb
  obtain rfl : _ = t := Host.Outcome.next.inj (he.symm.trans ht)
  exact ⟨hF.same.sameButIssue (begun_sameButIssue hr), hF.quiet.rel _ (begun_sending hr).quiet, fun k hk => (hF.rods k hk _).trans (begun_rods hr hk)⟩

end Sys2Proof.Machine
end

section
/-!
SUPPORT. The codes of a floating-point format (R100, Table 5.1): the magnitude that each stands for, which codes are finite, and that
magnitudes rise with the codes.
-/
namespace Sys2Proof.Machine

/-- What the formats of Table 5.1 have in common: a mantissa, and a largest finite code that lies just below the codes kept for infinity
and NaNs. -/
structure Fmt.Sound (f : Fmt) : Prop where
  mb_pos : 0 < f.mb
  eb_pos : 0 < f.eb
  top : match f.nan with
    | .ieee => f.max + 1 = (2 ^ f.eb - 1) * 2 ^ f.mb
    | .allOnes => f.max + 2 = 2 ^ (f.eb + f.mb)
    | .none => f.max + 1 = 2 ^ (f.eb + f.mb)
  infTop : f.inf = true → f.nan = .ieee
  qnan_lt : f.qnan < 2 ^ (f.eb + f.mb)

theorem f32_sound : f32.Sound := ⟨by decide, by decide, rfl, fun _ => rfl, by decide⟩
theorem f16_sound : f16.Sound := ⟨by decide, by decide, rfl, fun _ => rfl, by decide⟩
theorem bf16_sound : bf16.Sound := ⟨by decide, by decide, rfl, fun _ => rfl, by decide⟩
theorem e5m2_sound : e5m2.Sound := ⟨by decide, by decide, rfl, fun _ => rfl, by decide⟩
theorem e4m3_sound : e4m3.Sound := ⟨by decide, by decide, rfl, fun h => Bool.noConfusion h, by decide⟩
theorem e2m1_sound : e2m1.Sound := ⟨by decide, by decide, rfl, fun h => Bool.noConfusion h, by decide⟩

/-- A code without its sign bit. -/
def Fmt.body (f : Fmt) (x : Nat) : Nat := x % 2 ^ (f.eb + f.mb)

/-- The magnitude of a finite code in units of the least subnormal. -/
def Fmt.steps (f : Fmt) (c : Nat) : Nat := if c / 2 ^ f.mb = 0 then c else (c % 2 ^ f.mb + 2 ^ f.mb) * 2 ^ (c / 2 ^ f.mb - 1)

/-- The magnitude of a finite code. -/
def Fmt.mag (f : Fmt) (c : Nat) : ℚ := f.steps c * 2 ^ f.qmin

/-- A sign as a factor. -/
def sgn (neg : Bool) : ℚ := if neg then -1 else 1

@[simp] theorem sgn_mul_self (n : Bool) : sgn n * sgn n = 1 := by cases n <;> norm_num [sgn]

@[simp] theorem abs_sgn (n : Bool) : |sgn n| = 1 := by cases n <;> norm_num [sgn]

theorem sgn_ne_zero (n : Bool) : sgn n ≠ 0 := by cases n <;> norm_num [sgn]

theorem rat_fin (n : Bool) (m : Nat) (e : Int) : (Num.fin n m e).rat = sgn n * ((m : ℚ) * 2 ^ e) := by rw [← mul_assoc]; rfl

/-- The codes of one exponent, and the one behind them, stand for consecutive multiples of one power of two. -/
theorem Fmt.steps_binade (f : Fmt) {k u : Nat} (hu : u ≤ 2 ^ (f.mb + 1)) (hk : k = 0 ∨ 2 ^ f.mb ≤ u) : f.steps (k * 2 ^ f.mb + u) = u * 2 ^ k := by
  have hp : 0 < 2 ^ f.mb := Nat.two_pow_pos _
  have hdiv : (k * 2 ^ f.mb + u) / 2 ^ f.mb = k + u / 2 ^ f.mb := by rw [Nat.add_comm, Nat.add_mul_div_right _ _ hp, Nat.add_comm]
  have hmod : (k * 2 ^ f.mb + u) % 2 ^ f.mb = u % 2 ^ f.mb := by rw [Nat.add_comm, Nat.add_mul_mod_self_right]
  rw [Nat.pow_succ] at hu
  unfold Fmt.steps
  rw [hdiv, hmod]
  rcases lt_trichotomy u (2 ^ f.mb * 2) with hlt | rfl | hgt
  · by_cases hsub : u < 2 ^ f.mb
    · obtain rfl : k = 0 := hk.resolve_right (by omega)
      simp [Nat.div_eq_of_lt hsub]
    · have h1 : u / 2 ^ f.mb = 1 := by
        rw [Nat.div_eq_of_lt_le] <;> omega
      have hm : u % 2 ^ f.mb = u - 2 ^ f.mb := by rw [Nat.mod_eq_sub_mod (by omega), Nat.mod_eq_of_lt (by omega)]
      rw [h1, hm, if_neg (by omega), Nat.sub_add_cancel (by omega), Nat.add_sub_cancel]
  · rw [Nat.mul_div_cancel_left _ hp, Nat.mul_mod_right, if_neg (by omega), Nat.zero_add, show k + 2 - 1 = k + 1 from rfl, Nat.pow_succ]
    ring
  · omega

/-- A code is in its binade: a count of at most twice the mantissa's range, of units of its exponent. -/
theorem Fmt.exists_binade (f : Fmt) (c : Nat) : ∃ k u, c = k * 2 ^ f.mb + u ∧ u < 2 ^ (f.mb + 1) ∧ (k = 0 ∨ 2 ^ f.mb ≤ u) := by
  have hp : 0 < 2 ^ f.mb := Nat.two_pow_pos _
  have hdm := Nat.div_add_mod c (2 ^ f.mb)
  have hlt := Nat.mod_lt c hp
  have h2 : 2 ^ (f.mb + 1) = 2 * 2 ^ f.mb := by rw [Nat.pow_succ, Nat.mul_comm]
  rcases Nat.eq_zero_or_pos (c / 2 ^ f.mb) with h0 | h0
  · rw [h0, Nat.mul_zero, Nat.zero_add] at hdm
    exact ⟨0, c, by omega, by omega, .inl rfl⟩
  · obtain ⟨j, hj⟩ := Nat.exists_eq_succ_of_ne_zero h0.ne'
    rw [hj, Nat.mul_succ, Nat.mul_comm] at hdm
    exact ⟨j, 2 ^ f.mb + c % 2 ^ f.mb, by omega, by omega, .inr (by omega)⟩

theorem Fmt.steps_strictMono (f : Fmt) : StrictMono f.steps := by
  refine strictMono_nat_of_lt_succ fun c => ?_
  obtain ⟨k, u, rfl, hu, hk⟩ := f.exists_binade c
  rw [Nat.add_assoc, f.steps_binade hu.le hk, f.steps_binade hu (hk.imp_right fun h => by omega)]
  exact Nat.mul_lt_mul_of_pos_right (Nat.lt_succ_self u) (Nat.two_pow_pos k)

theorem Fmt.mag_strictMono (f : Fmt) : StrictMono f.mag := fun _ _ h =>
  mul_lt_mul_of_pos_right (Nat.cast_lt.2 (f.steps_strictMono h)) (zpow_pos two_pos _)

@[simp] theorem Fmt.mag_zero (f : Fmt) : f.mag 0 = 0 := by simp [Fmt.mag, Fmt.steps]

theorem Fmt.mag_nonneg (f : Fmt) (c : Nat) : 0 ≤ f.mag c := f.mag_zero ▸ f.mag_strictMono.monotone (Nat.zero_le c)

theorem Fmt.mag_binade (f : Fmt) {k u : Nat} (hu : u ≤ 2 ^ (f.mb + 1)) (hk : k = 0 ∨ 2 ^ f.mb ≤ u) :
    f.mag (k * 2 ^ f.mb + u) = u * 2 ^ (f.qmin + k) := by
  rw [Fmt.mag, f.steps_binade hu hk, Nat.cast_mul, Nat.cast_pow, Nat.cast_ofNat, zpow_add₀ two_ne_zero, zpow_natCast]
  ring

theorem Fmt.body_lt (f : Fmt) (x : Nat) : f.body x < 2 ^ (f.eb + f.mb) := Nat.mod_lt _ (Nat.two_pow_pos _)

theorem Fmt.mantissa_eq (f : Fmt) (x : Nat) : x % 2 ^ f.mb = f.body x % 2 ^ f.mb := (Nat.mod_mod_of_dvd _ (Nat.pow_dvd_pow 2 (Nat.le_add_left ..))).symm

theorem Fmt.sign_add_lt (f : Fmt) (n : Bool) {c : Nat} (hc : c < 2 ^ (f.eb + f.mb)) : f.sign n + c < 2 ^ f.width := by
  have : 2 ^ f.width = 2 ^ (f.eb + f.mb) + 2 ^ (f.eb + f.mb) := by rw [Fmt.width, Nat.add_assoc, Nat.add_comm, Nat.pow_succ, Nat.mul_two]
  cases n <;> simp only [Fmt.sign, if_true, if_false, Bool.false_eq_true] <;> omega

theorem Fmt.body_sign_add (f : Fmt) (n : Bool) {c : Nat} (hc : c < 2 ^ (f.eb + f.mb)) : f.body (f.sign n + c) = c := by
  cases n
  · simp [Fmt.body, Fmt.sign, Nat.mod_eq_of_lt hc]
  · simp [Fmt.body, Fmt.sign, Nat.mod_eq_of_lt hc]

theorem Fmt.neg_sign_add (f : Fmt) (n : Bool) {c : Nat} (hc : c < 2 ^ (f.eb + f.mb)) : f.neg (f.sign n + c) = n := by
  have hbit := Nat.testBit_lt_two_pow hc
  cases n
  · simp [Fmt.neg, Fmt.sign, hbit]
  · simp [Fmt.neg, Fmt.sign, Nat.testBit_two_pow_add_eq, hbit]

theorem Fmt.exponent_lt (f : Fmt) (x : Nat) : f.body x / 2 ^ f.mb < 2 ^ f.eb :=
  Nat.div_lt_of_lt_mul (by rw [← Nat.pow_add, Nat.add_comm]; exact f.body_lt x)

namespace Fmt.Sound
variable {f : Fmt} (hf : f.Sound) {x : Nat}
include hf

theorem max_lt : f.max < 2 ^ (f.eb + f.mb) := by
  have h := hf.top
  have he : (2 ^ f.eb - 1) * 2 ^ f.mb ≤ 2 ^ (f.eb + f.mb) := by rw [Nat.pow_add]; exact Nat.mul_le_mul_right _ (Nat.sub_le ..)
  revert h
  cases f.nan <;> intro h <;> dsimp only at h <;> omega

/-- The exponent field and the mantissa are those of the code without its sign. -/
theorem exponent_eq (x : Nat) : bitsOf x (f.eb + f.mb - 1) f.mb = f.body x / 2 ^ f.mb := by
  have h := hf.mb_pos
  rw [bitsOf, Fmt.body, show f.eb + f.mb - 1 + 1 - f.mb = f.eb by omega, Nat.add_comm f.eb, Nat.pow_add, Nat.mod_mul_right_div_self]

/-- The value of a code up to the largest finite one. -/
theorem num_of_le (hx : f.body x ≤ f.max) : ∃ m e, f.num x = .fin (f.neg x) m e ∧ (m : ℚ) * 2 ^ e = f.mag (f.body x) := by
  have hp : 0 < 2 ^ f.mb := Nat.two_pow_pos _
  have htop := hf.top
  have hsplit : f.body x = f.body x / 2 ^ f.mb * 2 ^ f.mb + f.body x % 2 ^ f.mb := by rw [Nat.mul_comm]; exact (Nat.div_add_mod ..).symm
  have hpow : 2 ^ (f.eb + f.mb) = (2 ^ f.eb - 1) * 2 ^ f.mb + 2 ^ f.mb := by
    rw [← Nat.succ_mul, Nat.succ_eq_add_one, Nat.sub_add_cancel Nat.one_le_two_pow, Nat.pow_add]
  have h1 : ¬ (f.nan = .ieee ∧ f.body x / 2 ^ f.mb = 2 ^ f.eb - 1) := by
    rintro ⟨hn, he⟩
    rw [hn] at htop
    rw [he] at hsplit
    dsimp only at htop
    omega
  have h2 : ¬ ((f.nan = .allOnes ∧ f.body x / 2 ^ f.mb = 2 ^ f.eb - 1) ∧ f.body x % 2 ^ f.mb = 2 ^ f.mb - 1) := by
    rintro ⟨⟨hn, he⟩, hm⟩
    rw [hn] at htop
    rw [he, hm] at hsplit
    dsimp only at htop
    omega
  unfold Fmt.num
  dsimp only
  rw [hf.exponent_eq, f.mantissa_eq, if_neg (by simpa using h1), if_neg (by simpa using h2), Fmt.mag, Fmt.steps]
  split
  · rename_i h0
    refine ⟨_, _, rfl, ?_⟩
    rw [h0, Nat.zero_mul, Nat.zero_add] at hsplit
    rw [← hsplit]
  · rename_i h0
    refine ⟨_, _, rfl, ?_⟩
    have he : f.qmin + ((f.body x / 2 ^ f.mb : Nat) : Int) - 1 = f.qmin + ((f.body x / 2 ^ f.mb - 1 : Nat) : Int) := by
      rw [Nat.cast_sub (Nat.one_le_iff_ne_zero.2 h0)]
      ring
    rw [he, zpow_add₀ two_ne_zero, zpow_natCast]
    push_cast
    ring

/-- A finite value is of no more than a mantissa's bits, at an exponent of the format. -/
theorem bounds_of_num {n : Bool} {m : Nat} {e : Int} (h : f.num x = .fin n m e) :
    n = f.neg x ∧ m < 2 ^ (f.mb + 1) ∧ f.qmin ≤ e ∧ e < f.qmin + 2 ^ f.eb := by
  have hlt : ((f.body x / 2 ^ f.mb : Nat) : Int) < 2 ^ f.eb := by exact_mod_cast f.exponent_lt x
  have hmod := Nat.mod_lt x (Nat.two_pow_pos f.mb)
  unfold Fmt.num at h
  dsimp only at h
  rw [hf.exponent_eq] at h
  rw [Nat.pow_succ]
  split at h
  · split at h <;> cases h
  · split at h
    · cases h
    · split at h
      · obtain ⟨rfl, rfl, rfl⟩ := Num.fin.inj h
        exact ⟨rfl, by omega, le_rfl, by have : (0 : Int) < 2 ^ f.eb := by positivity
                                         omega⟩
      · rename_i h0
        obtain ⟨rfl, rfl, rfl⟩ := Num.fin.inj h
        have h1 : (1 : Int) ≤ (f.body x / 2 ^ f.mb : Nat) := by exact_mod_cast Nat.one_le_iff_ne_zero.2 h0
        generalize ((f.body x / 2 ^ f.mb : Nat) : Int) = k at *
        exact ⟨rfl, by omega, by omega, by omega⟩

/-- Beyond the largest finite code there are infinity, with the code that follows it, and NaNs. -/
theorem num_of_gt (hx : f.max < f.body x) : (∃ g, f.num x = .nan g) ∨ f.num x = .inf (f.neg x) ∧ f.body x = f.max + 1 := by
  have hp : 0 < 2 ^ f.mb := Nat.two_pow_pos _
  have htop := hf.top
  have hlt := f.body_lt x
  have hdiv := f.exponent_lt x
  have hmod := Nat.mod_lt (f.body x) hp
  have hsplit : f.body x = f.body x / 2 ^ f.mb * 2 ^ f.mb + f.body x % 2 ^ f.mb := by rw [Nat.mul_comm]; exact (Nat.div_add_mod ..).symm
  have hpow : 2 ^ (f.eb + f.mb) = (2 ^ f.eb - 1) * 2 ^ f.mb + 2 ^ f.mb := by
    rw [← Nat.succ_mul, Nat.succ_eq_add_one, Nat.sub_add_cancel Nat.one_le_two_pow, Nat.pow_add]
  have hexp (h : (2 ^ f.eb - 1) * 2 ^ f.mb ≤ f.body x) : f.body x / 2 ^ f.mb = 2 ^ f.eb - 1 :=
    le_antisymm (Nat.le_sub_one_of_lt hdiv) ((Nat.le_div_iff_mul_le hp).2 h)
  unfold Fmt.num
  dsimp only
  rw [hf.exponent_eq, f.mantissa_eq]
  cases hn : f.nan with
  | ieee =>
    rw [hn] at htop
    have he := hexp (by dsimp only at htop; omega)
    rw [he] at hsplit
    rw [if_pos (by simpa using he)]
    split
    · exact .inr ⟨rfl, by dsimp only at htop; omega⟩
    · exact .inl ⟨_, rfl⟩
  | allOnes =>
    rw [hn] at htop
    dsimp only at htop
    have he := hexp (by omega)
    rw [he] at hsplit
    rw [if_neg (by simp), if_pos (by simp only [decide_true, Bool.true_and, Bool.and_eq_true, decide_eq_true_eq]; omega)]
    exact .inl ⟨_, rfl⟩
  | none =>
    rw [hn] at htop
    dsimp only at htop
    omega

theorem finite_iff : f.Finite x ↔ x < 2 ^ f.width ∧ f.body x ≤ f.max := by
  refine and_congr_right fun _ => ⟨fun ⟨n, m, e, h⟩ => ?_, fun h => ?_⟩
  · by_contra hgt
    rcases hf.num_of_gt (not_le.1 hgt) with ⟨g, hg⟩ | ⟨hi, -⟩
    · rw [h] at hg; cases hg
    · rw [h] at hi; cases hi
  · obtain ⟨m, e, h, -⟩ := hf.num_of_le h
    exact ⟨_, m, e, h⟩

theorem rat_eq (hx : f.body x ≤ f.max) : f.rat x = sgn (f.neg x) * f.mag (f.body x) := by
  obtain ⟨m, e, h, hm⟩ := hf.num_of_le hx
  rw [Fmt.rat, h, rat_fin, hm]

end Fmt.Sound

end Sys2Proof.Machine
end

section
/-!
SUPPORT. Rounding (R108, R110, R111): a value lies between two neighbouring codes of a format, and `Fmt.round` takes the one that the
mode names, unless it overflows.
-/
namespace Sys2Proof.Machine

/-- Whether a mode takes the upper of the neighbours `lo` and `hi` of a magnitude (R108); `odd` tells that the lower one has an odd mantissa. -/
def RM.Up (r : RM) (neg : Bool) (odd : Prop) (lo hi A : ℚ) : Prop :=
  match r with
  | .rn => lo + hi < 2 * A ∨ lo + hi = 2 * A ∧ odd
  | .rz => False
  | .ru => lo ≠ A ∧ neg = false
  | .rd => lo ≠ A ∧ neg = true

theorem lt_two_pow_bitLen (m : Nat) : m < 2 ^ bitLen m := by
  unfold bitLen
  split
  · omega
  · exact Nat.lt_log2_self

theorem two_pow_bitLen_le {m : Nat} (h : m ≠ 0) : 2 ^ (bitLen m - 1) ≤ m := by
  rw [bitLen, if_neg h, Nat.add_sub_cancel]
  exact Nat.log2_self_le h

theorem bitLen_pos {m : Nat} (h : m ≠ 0) : 0 < bitLen m := by
  rw [bitLen, if_neg h]
  exact Nat.succ_pos _

/-- How a remainder `b` of a number, cut off below 2^`k`, rounds its quotient `a` (R108). -/
def roundsUp (r : RM) (neg : Bool) (a b k : Nat) : Bool :=
  match r with
  | .rn => decide (2 ^ k < 2 * b) || (2 * b = 2 ^ k && a % 2 = 1)
  | .rz => false
  | .ru => b ≠ 0 && !neg
  | .rd => b ≠ 0 && neg

/-- A number that has no bit as high as half of what is cut off is all cut off. -/
theorem roundsUp_beyond (r : RM) (neg : Bool) {m k : Nat} (hk : bitLen m + 2 ≤ k) : roundsUp r neg 0 m k = roundsUp r neg 0 m (bitLen m + 2) := by
  have hm := lt_two_pow_bitLen m
  have hpow : 2 ^ (bitLen m + 2) ≤ 2 ^ k := Nat.pow_le_pow_right (by decide) hk
  have h4 : 2 ^ (bitLen m + 2) = 4 * 2 ^ bitLen m := by rw [Nat.pow_add, Nat.mul_comm]
  have h1 : ¬ 2 ^ k < 2 * m := by omega
  have h2 : ¬ 2 ^ (bitLen m + 2) < 2 * m := by omega
  cases r <;> simp [roundsUp, h1, h2]

/-- Rounding to a coarser multiple, without the bound on how many bits are cut off. -/
theorem roundAt_of_lt (r : RM) (neg : Bool) (m : Nat) {e q : Int} (h : e < q) : roundAt r neg m e q
    = (if roundsUp r neg (m / 2 ^ (q - e).toNat) (m % 2 ^ (q - e).toNat) (q - e).toNat then m / 2 ^ (q - e).toNat + 1
      else m / 2 ^ (q - e).toNat, decide (m % 2 ^ (q - e).toNat ≠ 0)) := by
  have hdef : roundAt r neg m e q = (let k := min (q - e).toNat (bitLen m + 2)
      (if roundsUp r neg (m / 2 ^ k) (m % 2 ^ k) k then m / 2 ^ k + 1 else m / 2 ^ k, decide (m % 2 ^ k ≠ 0))) := by
    rw [roundAt, if_neg (not_le.2 h)]
    cases r <;> rfl
  rw [hdef]
  generalize (q - e).toNat = d
  dsimp only
  by_cases hd : d ≤ bitLen m + 2
  · rw [min_eq_left hd]
  · have hd' := (not_le.1 hd).le
    have hm (k : Nat) (hk : bitLen m + 2 ≤ k) : m < 2 ^ k :=
      (lt_two_pow_bitLen m).trans_le (Nat.pow_le_pow_right (by decide) (by omega))
    rw [min_eq_right hd', Nat.div_eq_of_lt (hm _ le_rfl), Nat.div_eq_of_lt (hm _ hd'), Nat.mod_eq_of_lt (hm _ le_rfl),
      Nat.mod_eq_of_lt (hm _ hd'), roundsUp_beyond r neg hd']

/-- What a rounded multiple `w` of 2^`q` is of a magnitude `A`: `u` or `u` + 1, as the mode names between their two multiples. -/
structure RoundedAt (r : RM) (neg : Bool) (A : ℚ) (q : Int) (w : Nat × Bool) (u : Nat) (up : Bool) : Prop where
  fst : w.1 = if up then u + 1 else u
  inexact : w.2 = true ↔ (u : ℚ) * 2 ^ q ≠ A
  lo : (u : ℚ) * 2 ^ q ≤ A
  hi : A < ((u + 1 : Nat) : ℚ) * 2 ^ q
  way : up = true ↔ r.Up neg (u % 2 = 1) (u * 2 ^ q) ((u + 1 : Nat) * 2 ^ q) A

theorem roundAt_rounds (r : RM) (neg : Bool) (m : Nat) (e q : Int) : ∃ u up, RoundedAt r neg (m * 2 ^ e) q (roundAt r neg m e q) u up := by
  by_cases h : q ≤ e
  · have hA : ((m * 2 ^ (e - q).toNat : Nat) : ℚ) * 2 ^ q = m * 2 ^ e := by
      rw [Nat.cast_mul, Nat.cast_pow, Nat.cast_ofNat, ← zpow_natCast, Int.toNat_of_nonneg (sub_nonneg.2 h), mul_assoc, ← zpow_add₀ two_ne_zero,
        sub_add_cancel]
    have hpos : (0 : ℚ) < 2 ^ q := zpow_pos two_pos _
    have hlt : (m : ℚ) * 2 ^ e < ((m * 2 ^ (e - q).toNat + 1 : Nat) : ℚ) * 2 ^ q := by
      rw [← hA]
      exact mul_lt_mul_of_pos_right (Nat.cast_lt.2 (Nat.lt_succ_self _)) hpos
    refine ⟨m * 2 ^ (e - q).toNat, false, ?_, ?_, hA.le, hlt, ?_⟩
    · simp [roundAt, h]
    · simpa [roundAt, h] using hA
    · rw [hA]
      cases r
      · simp only [Bool.false_eq_true, RM.Up, false_iff, not_or, not_lt, not_and]
        exact ⟨by linarith, fun hmid => absurd hmid (by linarith)⟩
      · simp [RM.Up]
      · simp [RM.Up]
      · simp [RM.Up]
  · have hlt := not_le.1 h
    rw [roundAt_of_lt r neg m hlt]
    have hq : (2 : ℚ) ^ q = 2 ^ (q - e).toNat * 2 ^ e := by
      rw [← zpow_natCast, Int.toNat_of_nonneg (sub_nonneg.2 hlt.le), ← zpow_add₀ two_ne_zero, sub_add_cancel]
    generalize (q - e).toNat = d at hq
    have ht : (0 : ℚ) < 2 ^ e := zpow_pos two_pos _
    generalize (2 : ℚ) ^ e = t at hq ht
    have hsplit : (m : ℚ) = 2 ^ d * (m / 2 ^ d : Nat) + (m % 2 ^ d : Nat) := by exact_mod_cast (Nat.div_add_mod m (2 ^ d)).symm
    have hb : ((m % 2 ^ d : Nat) : ℚ) < 2 ^ d := by exact_mod_cast Nat.mod_lt m (Nat.two_pow_pos d)
    have hmid1 : 2 ^ d < 2 * (m % 2 ^ d) ↔ (2 : ℚ) ^ d < 2 * (m % 2 ^ d : Nat) := by exact_mod_cast Iff.rfl
    have hmid2 : 2 * (m % 2 ^ d) = 2 ^ d ↔ (2 : ℚ) * (m % 2 ^ d : Nat) = 2 ^ d := by exact_mod_cast Iff.rfl
    have hne : m % 2 ^ d ≠ 0 ↔ ((m % 2 ^ d : Nat) : ℚ) ≠ 0 := Nat.cast_ne_zero.symm
    generalize m % 2 ^ d = b at *
    generalize m / 2 ^ d = a at *
    have hA : (m : ℚ) * t = a * 2 ^ q + b * t := by rw [hsplit, hq]; ring
    have hhi : (((a + 1 : Nat) : ℚ)) * 2 ^ q = a * 2 ^ q + 2 ^ d * t := by rw [hq]; push_cast; ring
    have hb0 : (0 : ℚ) ≤ b * t := mul_nonneg (Nat.cast_nonneg b) ht.le
    have hbt : (b : ℚ) * t < 2 ^ d * t := mul_lt_mul_of_pos_right hb ht
    have hexact : (a : ℚ) * 2 ^ q ≠ m * t ↔ b ≠ 0 := by
      rw [hA, hne, ne_comm, Ne, add_eq_left, mul_eq_zero, or_iff_left ht.ne']
    refine ⟨a, roundsUp r neg a b d, rfl, ?_, ?_, ?_, ?_⟩
    · rw [hexact, decide_eq_true_iff]
    · linarith
    · linarith
    · have h1 : (a : ℚ) * 2 ^ q + (a * 2 ^ q + 2 ^ d * t) < 2 * (a * 2 ^ q + b * t) ↔ 2 ^ d < 2 * b := by
        refine Iff.trans ?_ ((mul_lt_mul_iff_left₀ ht).trans hmid1.symm)
        constructor <;> intro h <;> linarith
      have h2 : (a : ℚ) * 2 ^ q + (a * 2 ^ q + 2 ^ d * t) = 2 * (a * 2 ^ q + b * t) ↔ 2 * b = 2 ^ d := by
        refine Iff.trans ?_ ((mul_left_inj' ht.ne').trans hmid2.symm)
        constructor <;> intro h <;> linarith
      cases r
      · simp only [roundsUp, RM.Up, hA, hhi, h1, h2]
        simp
      · simp [roundsUp, RM.Up]
      · simp only [roundsUp, RM.Up, hexact]
        simp
      · simp only [roundsUp, RM.Up, hexact]
        simp

theorem zpow_bitLen_le {m : Nat} (hm : m ≠ 0) (e : Int) : (2 : ℚ) ^ ((bitLen m : Int) - 1 + e) ≤ m * 2 ^ e := by
  have h1 : (bitLen m : Int) - 1 = ((bitLen m - 1 : Nat) : Int) := by have := bitLen_pos hm; omega
  rw [zpow_add₀ two_ne_zero, h1, zpow_natCast]
  exact mul_le_mul_of_nonneg_right (by exact_mod_cast two_pow_bitLen_le hm) (zpow_pos two_pos _).le

theorem lt_zpow_bitLen (m : Nat) (e : Int) : (m : ℚ) * 2 ^ e < 2 ^ ((bitLen m : Int) + e) := by
  rw [zpow_add₀ two_ne_zero, zpow_natCast]
  exact mul_lt_mul_of_pos_right (by exact_mod_cast lt_two_pow_bitLen m) (zpow_pos two_pos _)

/-- A magnitude cut off at the last bit of its binade, or of the subnormals, has a mantissa's bits. -/
theorem Fmt.binade_of_floor (f : Fmt) {A : ℚ} {E q : Int} {u : Nat} (hq : q = Max.max (E - f.mb) f.qmin) (hlo : 2 ^ E ≤ A) (hhi : A < 2 ^ (E + 1))
    (hu : (u : ℚ) * 2 ^ q ≤ A) (hu' : A < (u + 1 : Nat) * 2 ^ q) : u < 2 ^ (f.mb + 1) ∧ ((q - f.qmin).toNat = 0 ∨ 2 ^ f.mb ≤ u) := by
  have hpos : (0 : ℚ) < 2 ^ q := zpow_pos two_pos _
  constructor
  · have h : (u : ℚ) * 2 ^ q < 2 ^ (f.mb + 1) * 2 ^ q := by
      refine (hu.trans_lt hhi).trans_le ?_
      rw [← zpow_natCast, ← zpow_add₀ two_ne_zero]
      exact zpow_le_zpow_right₀ one_le_two (by push_cast; omega)
    exact_mod_cast lt_of_mul_lt_mul_right h hpos.le
  · refine or_iff_not_imp_left.2 fun hk => ?_
    have hqE : (f.mb : Int) + q = E := by omega
    have h : (2 : ℚ) ^ f.mb * 2 ^ q < (u + 1 : Nat) * 2 ^ q := by
      rw [← zpow_natCast, ← zpow_add₀ two_ne_zero, hqE]
      exact hlo.trans_lt hu'
    have h' : 2 ^ f.mb < u + 1 := by exact_mod_cast lt_of_mul_lt_mul_right h hpos.le
    omega

/-- Where a magnitude `A` lies among the codes of a format: between `c` and the code behind it, which stand for `u` and `u` + 1 times 2^`q`; and
whether a mode takes the upper one. -/
structure Fmt.Between (f : Fmt) (r : RM) (neg : Bool) (A : ℚ) (c u : Nat) (q : Int) (up : Bool) : Prop where
  gridLo : f.mag c = u * 2 ^ q
  gridHi : f.mag (c + 1) = (u + 1 : Nat) * 2 ^ q
  lo : f.mag c ≤ A
  hi : A < f.mag (c + 1)
  way : up = true ↔ r.Up neg (c % 2 = 1) (f.mag c) (f.mag (c + 1)) A

/-- Whether a result is tiny (R110): it would lie below the normal values even with no bound on the exponent. -/
def Fmt.tiny (f : Fmt) (r : RM) (neg : Bool) (m : Nat) (e : Int) : Bool :=
  let E : Int := (bitLen m : Int) - 1 + e
  E < f.qmin + f.mb && !(E + 1 = f.qmin + f.mb && (roundAt r neg m e (E - f.mb)).1 = 2 ^ (f.mb + 1))

/-- `Fmt.round` of a value other than 0 without `FTZ`. -/
theorem Fmt.round_of_ne_zero (f : Fmt) (r : RM) (sat neg : Bool) {m : Nat} (e : Int) (hm : m ≠ 0) {q : Int}
    (hq : Max.max ((bitLen m : Int) - 1 + e - f.mb) f.qmin = q) : f.round r sat false neg m e =
      if f.max < (q - f.qmin).toNat * 2 ^ f.mb + (roundAt r neg m e q).1 then (f.overflow r sat neg, flOF ||| flNX)
      else (f.sign neg + ((q - f.qmin).toNat * 2 ^ f.mb + (roundAt r neg m e q).1),
        if (roundAt r neg m e q).2 then (if f.tiny r neg m e then flUF ||| flNX else flNX) else 0#6) := by
  rw [← hq, Fmt.round, if_neg hm]
  simp only [Bool.and_false, Bool.false_eq_true, if_false]
  rfl

/-- ROUNDING, ONCE (R108, R110, R111): without `FTZ` it overflows, or takes one of two neighbours. -/
theorem Fmt.Sound.round_between {f : Fmt} (hf : f.Sound) (r : RM) (sat neg : Bool) {m : Nat} (e : Int) (hm : m ≠ 0) :
    ∃ c u q up, f.Between r neg (m * 2 ^ e) c u q up ∧ (bitLen m : Int) - 1 + e - f.mb ≤ q
      ∧ (f.max < (if up then c + 1 else c) → f.round r sat false neg m e = (f.overflow r sat neg, flOF ||| flNX))
      ∧ ((if up then c + 1 else c) ≤ f.max → f.round r sat false neg m e
          = (f.sign neg + (if up then c + 1 else c), if f.mag c ≠ m * 2 ^ e then (if f.tiny r neg m e then flUF ||| flNX else flNX) else 0#6)) := by
  obtain ⟨q, hq⟩ : ∃ q, Max.max ((bitLen m : Int) - 1 + e - f.mb) f.qmin = q := ⟨_, rfl⟩
  obtain ⟨u, up, h⟩ := roundAt_rounds r neg m e q
  have hround := f.round_of_ne_zero r sat neg e hm hq
  obtain ⟨hu, hk⟩ := f.binade_of_floor hq.symm (zpow_bitLen_le hm e) (by rw [show (bitLen m : Int) - 1 + e + 1 = bitLen m + e by ring]; exact lt_zpow_bitLen m e) h.lo h.hi
  have hqk : f.qmin + ((q - f.qmin).toNat : Int) = q := by omega
  generalize (q - f.qmin).toNat = k at *
  have hlo : f.mag (k * 2 ^ f.mb + u) = u * 2 ^ q := hqk ▸ f.mag_binade hu.le hk
  have hhi : f.mag (k * 2 ^ f.mb + u + 1) = (u + 1 : Nat) * 2 ^ q := hqk ▸ f.mag_binade (u := u + 1) hu (hk.imp_right fun h => by omega)
  have hodd : (k * 2 ^ f.mb + u) % 2 = u % 2 := by
    have : 2 ∣ k * 2 ^ f.mb := (dvd_pow_self 2 hf.mb_pos.ne').mul_left k
    omega
  have hcode : k * 2 ^ f.mb + (roundAt r neg m e q).1 = if up then k * 2 ^ f.mb + u + 1 else k * 2 ^ f.mb + u := by
    rw [h.fst]
    split <;> omega
  have hnx : (roundAt r neg m e q).2 = decide (f.mag (k * 2 ^ f.mb + u) ≠ m * 2 ^ e) := by
    rw [hlo, Bool.eq_iff_iff, h.inexact, decide_eq_true_iff]
  rw [hcode, hnx] at hround
  refine ⟨k * 2 ^ f.mb + u, u, q, up, ⟨hlo, hhi, hlo ▸ h.lo, hhi ▸ h.hi, by rw [hlo, hhi, hodd]; exact h.way⟩, by omega, fun hgt => ?_, fun hle => ?_⟩
  · rw [hround, if_pos hgt]
  · rw [hround, if_neg (not_lt.2 hle)]
    simp only [decide_eq_true_eq]

end Sys2Proof.Machine
end

section
/-!
SUPPORT. O15: rounding once gives the value that the mode names (R108, R110, R111).
-/
namespace Sys2Proof.Machine

theorem abs_sgn_mul (n : Bool) (x : ℚ) : |sgn n * x| = |x| := by rw [abs_mul, abs_sgn, one_mul]

theorem abs_sgn_mul_sub (n : Bool) (x y : ℚ) : |sgn n * x - sgn n * y| = |x - y| := by rw [← mul_sub, abs_sgn_mul]

theorem sgn_mul_sgn_mul (n : Bool) (x : ℚ) : sgn n * (sgn n * x) = x := by rw [← mul_assoc, sgn_mul_self, one_mul]

/-- The lower of two neighbours is nearest up to their middle. -/
theorem lower_nearest {lo hi A y : ℚ} (hlo : lo ≤ A) (hhi : A < hi) (hmid : 2 * A ≤ lo + hi) (hy : y ≤ lo ∨ hi ≤ y) :
    |A - lo| ≤ |A - y| ∧ (|A - lo| = |A - y| → y ≠ lo → lo + hi = 2 * A) := by
  rw [abs_of_nonneg (sub_nonneg.2 hlo)]
  rcases hy with hy | hy
  · rw [abs_of_nonneg (by linarith)]
    exact ⟨by linarith, fun h hne => absurd (by linarith) hne⟩
  · rw [abs_of_neg (by linarith)]
    exact ⟨by linarith, fun h _ => by linarith⟩

/-- The upper of two neighbours is nearest from their middle on. -/
theorem upper_nearest {lo hi A y : ℚ} (hhi : A < hi) (hmid : lo + hi ≤ 2 * A) (hy : y ≤ lo ∨ hi ≤ y) :
    |A - hi| ≤ |A - y| ∧ (|A - hi| = |A - y| → y ≠ hi → lo + hi = 2 * A) := by
  rw [abs_of_neg (sub_neg.2 hhi)]
  rcases hy with hy | hy
  · rw [abs_of_nonneg (by linarith)]
    exact ⟨by linarith, fun h _ => by linarith⟩
  · rw [abs_of_neg (by linarith)]
    exact ⟨by linarith, fun h hne => absurd (by linarith) hne⟩

section Between
variable {f : Fmt} {r : RM} {neg up : Bool} {A : ℚ} {c u : Nat} {q : Int}

/-- No finite magnitude lies strictly between those of a code and of the one behind it. -/
theorem Fmt.Sound.abs_le_or_ge (hf : f.Sound) {x : Nat} (hx : f.Finite x) (c : Nat) : |f.rat x| ≤ f.mag c ∨ f.mag (c + 1) ≤ |f.rat x| := by
  rw [hf.rat_eq (hf.finite_iff.1 hx).2, abs_sgn_mul, abs_of_nonneg (f.mag_nonneg _)]
  exact (Nat.lt_or_ge c (f.body x)).symm.imp (f.mag_strictMono.monotone ·) (f.mag_strictMono.monotone ·)

/-- No finite value lies strictly between those of a code and of the one behind it, on the side of a sign. -/
theorem Fmt.Sound.le_or_ge (hf : f.Sound) {x : Nat} (hx : f.Finite x) (neg : Bool) (c : Nat) :
    sgn neg * f.rat x ≤ f.mag c ∨ f.mag (c + 1) ≤ sgn neg * f.rat x := by
  have h := hf.abs_le_or_ge hx c
  rw [← abs_sgn_mul neg] at h
  rcases abs_choice (sgn neg * f.rat x) with he | he
  · rwa [he] at h
  · exact .inl ((neg_nonneg.1 (he ▸ abs_nonneg _)).trans (f.mag_nonneg c))

/-- The code taken, its magnitude and its value. -/
theorem Fmt.Sound.taken (hf : f.Sound) {c : Nat} (neg : Bool) (hc : c ≤ f.max) :
    f.Finite (f.sign neg + c) ∧ f.rat (f.sign neg + c) = sgn neg * f.mag c ∧ f.neg (f.sign neg + c) = neg := by
  have hlt := hc.trans_lt hf.max_lt
  have hbody := f.body_sign_add neg hlt
  have hneg := f.neg_sign_add neg hlt
  refine ⟨hf.finite_iff.2 ⟨f.sign_add_lt neg hlt, by rwa [hbody]⟩, ?_, hneg⟩
  rw [hf.rat_eq (by rwa [hbody]), hneg, hbody]

theorem Fmt.sign_add_even (hf : f.Sound) (neg : Bool) (c : Nat) : (f.sign neg + c) % 2 = c % 2 := by
  have hd : 2 ∣ 2 ^ (f.eb + f.mb) := dvd_pow_self 2 (by have := hf.mb_pos; omega)
  unfold Fmt.sign
  split <;> omega

/-- The side of the middle on which the value lies, from the way that rounding to nearest takes (R108). -/
theorem RM.up_rn {odd : Prop} {lo hi A : ℚ} (h : up = true ↔ RM.rn.Up neg odd lo hi A) :
    (up = false → 2 * A ≤ lo + hi ∧ (lo + hi = 2 * A → ¬ odd)) ∧ (up = true → lo + hi ≤ 2 * A ∧ (lo + hi = 2 * A → odd)) := by
  simp only [RM.Up] at h
  constructor
  · rintro rfl
    simp only [Bool.false_eq_true, false_iff, not_or, not_lt, not_and] at h
    exact h
  · rintro rfl
    rcases h.1 rfl with hlt | ⟨heq, ho⟩
    · exact ⟨hlt.le, fun h => absurd h hlt.ne⟩
    · exact ⟨heq.le, fun _ => ho⟩

/-- Directed rounding takes the neighbour on its side (R108). -/
theorem RM.up_directed {odd : Prop} {lo hi A : ℚ} (h : up = true ↔ r.Up neg odd lo hi A) :
    (r = .rz → up = false) ∧ (r = .ru → up = (decide (lo ≠ A) && !neg)) ∧ (r = .rd → up = (decide (lo ≠ A) && neg)) := by
  refine ⟨?_, ?_, ?_⟩
  · rintro rfl
    simpa [RM.Up] using h
  · rintro rfl
    rw [Bool.eq_iff_iff, h]
    simp [RM.Up]
  · rintro rfl
    rw [Bool.eq_iff_iff, h]
    simp [RM.Up]

theorem Fmt.Between.nearest (h : f.Between .rn neg A c u q up) {y : ℚ} (hy : y ≤ f.mag c ∨ f.mag (c + 1) ≤ y) :
    |A - f.mag (if up then c + 1 else c)| ≤ |A - y|
      ∧ (|A - f.mag (if up then c + 1 else c)| = |A - y| → y ≠ f.mag (if up then c + 1 else c) → (if up then c + 1 else c) % 2 = 0) := by
  obtain ⟨hdown, hup⟩ := RM.up_rn h.way
  cases up
  · obtain ⟨hmid, heven⟩ := hdown rfl
    obtain ⟨hle, heq⟩ := lower_nearest h.lo h.hi hmid hy
    exact ⟨hle, fun he hne => by have := heven (heq he hne); simpa using this⟩
  · obtain ⟨hmid, hodd⟩ := hup rfl
    obtain ⟨hle, heq⟩ := upper_nearest h.hi hmid hy
    exact ⟨hle, fun he hne => by have := hodd (heq he hne); simp only [if_true]; omega⟩

/-- What is taken upwards lies at or above the value, and no further than every finite value there. -/
theorem Fmt.Between.above (h : f.Between r neg A c u q up) (hup : up = decide (f.mag c ≠ A)) :
    A ≤ f.mag (if up then c + 1 else c) ∧ ∀ y, (y ≤ f.mag c ∨ f.mag (c + 1) ≤ y) → A ≤ y → f.mag (if up then c + 1 else c) ≤ y := by
  have hlo := h.lo
  have hhi := h.hi
  by_cases he : f.mag c = A
  · obtain rfl : up = false := by simpa [he] using hup
    exact ⟨he.ge, fun y _ hy => he.le.trans hy⟩
  · obtain rfl : up = true := by simpa [he] using hup
    exact ⟨hhi.le, fun y hside hy => hside.resolve_left fun h' => he (le_antisymm hlo (hy.trans h'))⟩

/-- What is taken downwards lies at or below the value, and no further than every finite value there. -/
theorem Fmt.Between.below (h : f.Between r neg A c u q false) :
    f.mag c ≤ A ∧ ∀ y, (y ≤ f.mag c ∨ f.mag (c + 1) ≤ y) → y ≤ A → y ≤ f.mag c :=
  ⟨h.lo, fun _ hside hy => hside.resolve_right fun h' => absurd (h.hi.trans_le (h'.trans hy)) (lt_irrefl _)⟩

/-- THE NEIGHBOUR THAT THE MODE NAMES is the value rounded (R108). -/
theorem Fmt.Between.rounds (h : f.Between r neg A c u q up) (hf : f.Sound) (hmax : (if up then c + 1 else c) ≤ f.max) :
    f.Rounds r (sgn neg * A) (f.sign neg + if up then c + 1 else c) := by
  obtain ⟨hfin, hrat, -⟩ := hf.taken neg hmax
  refine ⟨hfin, ?_⟩
  rw [hrat]
  have hA : 0 ≤ A := (f.mag_nonneg c).trans h.lo
  have hside (x : Nat) (hx : f.Finite x) := hf.le_or_ge hx neg c
  obtain ⟨hrz, hru, hrd⟩ := RM.up_directed h.way
  cases r with
  | rn =>
    intro x hx
    have hy := h.nearest (hside x hx)
    rw [← sgn_mul_sgn_mul neg (f.rat x), abs_sgn_mul_sub, abs_sgn_mul_sub, f.sign_add_even hf]
    exact ⟨hy.1, fun he hne => hy.2 he fun h' => hne (by rw [h'])⟩
  | rz =>
    obtain rfl := hrz rfl
    obtain ⟨hle, hmax⟩ := h.below
    simp only [Bool.false_eq_true, if_false, abs_sgn_mul, abs_of_nonneg hA, abs_of_nonneg (f.mag_nonneg c)]
    refine ⟨?_, hle, fun x hx _ hxA => ?_⟩
    · rw [mul_mul_mul_comm, sgn_mul_self, one_mul]
      exact mul_nonneg (f.mag_nonneg c) hA
    · exact hmax _ (hf.abs_le_or_ge hx c) hxA
  | ru =>
    have hup := hru rfl
    cases neg with
    | false =>
      obtain ⟨hle, hmin⟩ := h.above (by simpa using hup)
      simp only [sgn, Bool.false_eq_true, if_false, one_mul] at hside ⊢
      exact ⟨hle, fun x hx hxA => hmin _ (hside x hx) hxA⟩
    | true =>
      obtain rfl : up = false := by simpa using hup
      obtain ⟨hle, hmax⟩ := h.below
      simp only [sgn, if_true, Bool.false_eq_true, if_false, neg_one_mul] at hside ⊢
      exact ⟨neg_le_neg hle, fun x hx hxA => neg_le.1 (hmax _ (hside x hx) (neg_le.1 hxA))⟩
  | rd =>
    have hup := hrd rfl
    cases neg with
    | true =>
      obtain ⟨hle, hmin⟩ := h.above (by simpa using hup)
      simp only [sgn, if_true, neg_one_mul] at hside ⊢
      exact ⟨neg_le_neg hle, fun x hx hxA => le_neg.1 (hmin _ (hside x hx) (le_neg.1 hxA))⟩
    | false =>
      obtain rfl : up = false := by simpa using hup
      obtain ⟨hle, hmax⟩ := h.below
      simp only [sgn, Bool.false_eq_true, if_false, one_mul] at hside ⊢
      exact ⟨hle, fun x hx hxA => hmax _ (hside x hx) hxA⟩

/-- The neighbour taken is the value itself exactly where the lower one is. -/
theorem Fmt.Between.exact (h : f.Between r neg A c u q up) : f.mag (if up then c + 1 else c) = A ↔ f.mag c = A := by
  cases up with
  | false => rfl
  | true =>
    have hhi := h.hi
    have hway := h.way.1 rfl
    refine iff_of_false hhi.ne' fun he => ?_
    cases r with
    | rn => rcases hway with hw | ⟨hw, -⟩ <;> linarith
    | rz => exact hway
    | ru => exact hway.1 he
    | rd => exact hway.1 he

end Between

theorem sound_of_mem {f : Fmt} (h : f ∈ [f32, f16, bf16, e5m2, e4m3, e2m1]) : f.Sound := by
  simp only [List.mem_cons, List.not_mem_nil, or_false] at h
  rcases h with rfl | rfl | rfl | rfl | rfl | rfl
  exacts [f32_sound, f16_sound, bf16_sound, e5m2_sound, e4m3_sound, e2m1_sound]

theorem flags_overflow : ((flOF ||| flNX) &&& flOF : BitVec 6) ≠ 0#6 := by decide

theorem flags_inexact {p : Prop} [Decidable p] (tiny : Bool) :
    (if p then (if tiny then flUF ||| flNX else flNX) else 0#6) &&& flNX = 0#6 ↔ ¬ p := by
  by_cases h : p
  · cases tiny <;> simp [h, flUF, flNX]
  · simp [h]

/-- Settles O15: a value that does not overflow takes the neighbour that the mode names. -/
theorem roundingIsCorrect : Obligations.RoundingIsCorrect := by
  unfold Obligations.RoundingIsCorrect
  intro f r neg m e hmem hm v o hof
  have hf := sound_of_mem hmem
  obtain ⟨c, u, q, up, h, -, hover, hround⟩ := hf.round_between r false neg e hm
  have hmax : (if up then c + 1 else c) ≤ f.max := by
    by_contra hgt
    exact flags_overflow (by simpa only [o, hover (not_le.1 hgt)] using hof)
  obtain ⟨-, hrat, hneg⟩ := hf.taken neg hmax
  have hv : v = sgn neg * (m * 2 ^ e) := rat_fin neg m e
  simp only [o, hround hmax, hv]
  refine ⟨h.rounds hf hmax, hneg, ?_⟩
  rw [flags_inexact, not_not, hrat, mul_right_inj' (sgn_ne_zero neg), h.exact]

end Sys2Proof.Machine
end

section
/-!
SUPPORT. O16: quotients and roots (R108, R388, R394) are computed to more bits than a format has, with a last bit that tells whether they are
exact; so they round as the exact values do.
-/
namespace Sys2Proof.Machine

-- the integer square root

theorem isqrtFrom_spec (x n r : Nat) (hlo : r * r ≤ x) (hhi : x < (r + 2 ^ n) * (r + 2 ^ n)) :
    isqrtFrom x n r * isqrtFrom x n r ≤ x ∧ x < (isqrtFrom x n r + 1) * (isqrtFrom x n r + 1) := by
  induction n generalizing r with
  | zero => exact ⟨hlo, hhi⟩
  | succ n ih =>
    rw [isqrtFrom]
    split
    · rename_i h
      exact ih _ h (by rwa [Nat.add_assoc, ← Nat.mul_two, ← Nat.pow_succ])
    · rename_i h
      exact ih _ hlo (not_le.1 h)

theorem isqrt_eq_sqrt (x : Nat) : isqrt x = Nat.sqrt x := by
  have hx : x < (0 + 2 ^ (bitLen x / 2 + 1)) * (0 + 2 ^ (bitLen x / 2 + 1)) := by
    rw [Nat.zero_add, ← Nat.pow_add]
    exact (lt_two_pow_bitLen x).trans_le (Nat.pow_le_pow_right (by decide) (by omega))
  obtain ⟨hlo, hhi⟩ := isqrtFrom_spec x _ 0 (Nat.zero_le x) hx
  exact (Nat.eq_sqrt.2 ⟨hlo, hhi⟩)

-- a value known to a grain

/-- What `2 a + b` units of half a grain `g` tell of a value: its whole grains, and whether there is more. `le` and `eq` tell on which side
of a point the value lies. -/
structure Sticky (a b : Nat) (g : ℚ) (le eq : ℚ → Prop) : Prop where
  bit : b = 0 ∨ b = 1
  le_iff : ∀ n : Nat, le (n * g) ↔ n ≤ a
  eq_iff : ∀ n : Nat, eq (n * g) ↔ n = a ∧ b = 0

/-- The approximation lies on the same side of every whole number of grains. -/
theorem Sticky.same_side {a b : Nat} {g : ℚ} {le eq : ℚ → Prop} (h : Sticky a b g le eq) (hg : 0 < g) (n : Nat) :
    (n * g ≤ ((2 * a + b : Nat) : ℚ) * (g / 2) ↔ le (n * g)) ∧ (n * g = ((2 * a + b : Nat) : ℚ) * (g / 2) ↔ eq (n * g)) := by
  have hn : (n : ℚ) * g = ((2 * n : Nat) : ℚ) * (g / 2) := by push_cast; ring
  have hbit := h.bit
  rw [h.le_iff, h.eq_iff, hn, mul_le_mul_iff_left₀ (half_pos hg), mul_left_inj' (half_pos hg).ne', Nat.cast_le, Nat.cast_inj]
  omega

/-- Points of a value's neighbourhood in whole grains: two neighbouring codes and their middle. -/
theorem Fmt.Between.grains {f : Fmt} {r : RM} {neg up : Bool} {A : ℚ} {c u : Nat} {q E : Int} (h : f.Between r neg A c u q up) (hq : E + 1 ≤ q) :
    ∃ i j k : Nat, f.mag c = i * 2 ^ E ∧ f.mag c + f.mag (c + 1) = 2 * (j * 2 ^ E) ∧ f.mag (c + 1) = k * 2 ^ E := by
  obtain ⟨d, hd⟩ := Int.eq_ofNat_of_zero_le (sub_nonneg.2 hq)
  have hpow : (2 : ℚ) ^ q = 2 * 2 ^ d * 2 ^ E := by
    rw [show q = (d : Int) + (1 + E) by omega, zpow_add₀ two_ne_zero, zpow_add₀ two_ne_zero, zpow_natCast, zpow_one]
    ring
  refine ⟨u * (2 * 2 ^ d), (2 * u + 1) * 2 ^ d, (u + 1) * (2 * 2 ^ d), ?_, ?_, ?_⟩
  · rw [h.gridLo, hpow]; push_cast; ring
  · rw [h.gridLo, h.gridHi, hpow]; push_cast; ring
  · rw [h.gridHi, hpow]; push_cast; ring

/-- The sides on which a value that an approximation tells lies: of two neighbouring codes and of their middle. -/
structure Fmt.Sides (f : Fmt) (r : RM) (neg : Bool) (A : ℚ) (c : Nat) (up : Bool) (le eq : ℚ → Prop) : Prop where
  lo : le (f.mag c)
  hi : ¬ le (f.mag (c + 1))
  mid : f.mag c + f.mag (c + 1) ≤ 2 * A ↔ le ((f.mag c + f.mag (c + 1)) / 2)
  mid_eq : f.mag c + f.mag (c + 1) = 2 * A ↔ eq ((f.mag c + f.mag (c + 1)) / 2)
  exact : f.mag c = A ↔ eq (f.mag c)

theorem Fmt.Between.sides {f : Fmt} {r : RM} {neg up : Bool} {a b c u : Nat} {q E : Int} {le eq : ℚ → Prop}
    (h : f.Between r neg ((2 * a + b : Nat) * 2 ^ E) c u q up) (hq : E + 2 ≤ q) (hs : Sticky a b (2 ^ (E + 1)) le eq) :
    f.Sides r neg ((2 * a + b : Nat) * 2 ^ E) c up le eq := by
  obtain ⟨i, j, k, hi, hj, hk⟩ := h.grains (E := E + 1) (by omega)
  have hhalf : (2 : ℚ) ^ (E + 1) / 2 = 2 ^ E := by rw [zpow_add₀ two_ne_zero, zpow_one, mul_div_cancel_right₀ _ two_ne_zero]
  have hside (n : Nat) := hs.same_side (zpow_pos two_pos _) n
  rw [hhalf] at hside
  have hmid : (f.mag c + f.mag (c + 1)) / 2 = j * 2 ^ (E + 1) := by rw [hj, mul_div_cancel_left₀ _ two_ne_zero]
  refine ⟨?_, ?_, ?_, ?_, ?_⟩
  · rw [hi, ← (hside i).1, ← hi]; exact h.lo
  · rw [hk, ← (hside k).1, ← hk]; exact not_le.2 h.hi
  · rw [hmid, ← (hside j).1, hj]; exact mul_le_mul_iff_right₀ two_pos
  · rw [hmid, ← (hside j).2, hj]; exact mul_right_inj' two_ne_zero
  · rw [hi]; exact (hside i).2

/-- ROUNDING AN APPROXIMATION is rounding the value that it tells. -/
theorem Fmt.Sides.between {f : Fmt} {r : RM} {neg up : Bool} {A V : ℚ} {c u : Nat} {q : Int} (h : f.Between r neg A c u q up)
    (hs : f.Sides r neg A c up (· ≤ V) (· = V)) : f.Between r neg V c u q up := by
  have hmid : f.mag c + f.mag (c + 1) ≤ 2 * A ↔ f.mag c + f.mag (c + 1) ≤ 2 * V := hs.mid.trans (by rw [div_le_iff₀' two_pos])
  have hmid' : f.mag c + f.mag (c + 1) = 2 * A ↔ f.mag c + f.mag (c + 1) = 2 * V := hs.mid_eq.trans (by rw [div_eq_iff two_ne_zero, mul_comm])
  refine ⟨h.gridLo, h.gridHi, hs.lo, not_le.1 hs.hi, h.way.trans ?_⟩
  cases r with
  | rn => simp only [RM.Up, lt_iff_le_and_ne, Ne, hmid, hmid']
  | rz => rfl
  | ru => simp only [RM.Up, Ne, hs.exact]
  | rd => simp only [RM.Up, Ne, hs.exact]

/-- An approximation with more bits than the mantissa's and two is cut off above its last grain. -/
theorem cutoff_above_grain {mb n : Nat} {E q : Int} (hn : 2 ^ (mb + 2) ≤ n) (hq : (bitLen n : Int) - 1 + E - mb ≤ q) : E + 2 ≤ q := by
  have h : mb + 2 < bitLen n := (Nat.pow_lt_pow_iff_right (by decide : 1 < 2)).1 (hn.trans_lt (lt_two_pow_bitLen n))
  omega

end Sys2Proof.Machine
end

section
/-!
SUPPORT. O16: quotients, roots, reciprocals and reciprocal roots of finite operands (R108, R388, R394).
-/
namespace Sys2Proof.Machine

theorem rounded_fin (r : RM) (sat ftz : Bool) (ops : List Num) (n : Bool) (m : Nat) (e : Int) (b : BitVec 6) :
    rounded r sat ftz ops (.fin n m e, b) = ((f32.round r sat ftz n m e).1, (f32.round r sat ftz n m e).2 ||| b ||| sigNV ops) := rfl

-- quotients

/-- A quotient of integers, with a last bit that tells whether it is exact. -/
def stickyQuotient (k : Bool) (a n : Nat) (e : Int) : Num := .fin k (2 * (a / n) + if a % n = 0 then 0 else 1) e

theorem divFin_eq (s t : Bool) (m n : Nat) (e d : Int) : divFin s t m n e d = stickyQuotient (s != t) (m * 2 ^ 64) n (e - d - 65) := rfl

/-- A quotient's approximation tells the quotient. -/
theorem quotient_sticky {m n a : Nat} (ha : m * 2 ^ 64 = a) (e d : Int) (hn : n ≠ 0) :
    Sticky (a / n) (if a % n = 0 then 0 else 1) (2 ^ (e - d - 65 + 1)) (· ≤ (m : ℚ) * 2 ^ e / (n * 2 ^ d)) (· = (m : ℚ) * 2 ^ e / (n * 2 ^ d)) := by
  have hpow : (2 : ℚ) ^ (e - d - 65 + 1) = 2 ^ e / (2 ^ d * 2 ^ 64) := by
    rw [show e - d - 65 + 1 = e - (d + (64 : Nat)) by push_cast; ring, zpow_sub₀ two_ne_zero, zpow_add₀ two_ne_zero, zpow_natCast]
  have hn' : (0 : ℚ) < n := Nat.cast_pos.2 (Nat.pos_of_ne_zero hn)
  have hd : (0 : ℚ) < 2 ^ d := zpow_pos two_pos _
  have he : (0 : ℚ) < 2 ^ e := zpow_pos two_pos _
  have hV : (m : ℚ) * 2 ^ e / (n * 2 ^ d) = (a / n) * (2 ^ e / (2 ^ d * 2 ^ 64)) := by
    rw [← ha, Nat.cast_mul, Nat.cast_pow, Nat.cast_ofNat]
    field_simp
  have hg : (0 : ℚ) < 2 ^ e / (2 ^ d * 2 ^ 64) := by positivity
  rw [hpow, hV]
  refine ⟨by split <;> simp, fun k => ?_, fun k => ?_⟩
  · rw [mul_le_mul_iff_left₀ hg, le_div_iff₀ hn', Nat.le_div_iff_mul_le (Nat.pos_of_ne_zero hn)]
    exact_mod_cast Iff.rfl
  · rw [mul_left_inj' hg.ne', eq_div_iff hn'.ne']
    have hdm := Nat.div_add_mod a n
    have hcast : (k : ℚ) * n = a ↔ k * n = a := by exact_mod_cast Iff.rfl
    rw [hcast]
    constructor
    · intro h
      rw [← h, Nat.mul_div_cancel _ (Nat.pos_of_ne_zero hn), Nat.mul_mod_left]
      simp
    · rintro ⟨rfl, h⟩
      have h0 : a % n = 0 := by simpa using h
      rw [h0, Nat.add_zero, Nat.mul_comm] at hdm
      exact hdm

/-- An approximation of 40 bits has more than the mantissa of F32. -/
theorem f32_bits_of_le {a b : Nat} (h : 2 ^ 40 ≤ a) : 2 ^ (f32.mb + 2) ≤ 2 * a + b := by
  have : 2 ^ (f32.mb + 2) ≤ 2 ^ 40 := by decide
  omega

/-- A quotient with as many bits as the divisor's allow is rounded once (R108). -/
theorem quotient_rounds {r : RM} {s t : Bool} {m n a : Nat} {e d : Int} (ha : m * 2 ^ 64 = a) (hm : m ≠ 0) (hn : n ≠ 0) (hlt : n < 2 ^ 24)
    (hof : (f32.round r false false (s != t) (2 * (a / n) + (if a % n = 0 then 0 else 1)) (e - d - 65)).2 &&& flOF = 0#6) :
    f32.Rounds r ((Num.fin s m e).rat / (Num.fin t n d).rat)
      (f32.round r false false (s != t) (2 * (a / n) + (if a % n = 0 then 0 else 1)) (e - d - 65)).1 := by
  have hq : 2 ^ 40 ≤ a / n := by
    rw [Nat.le_div_iff_mul_le (Nat.pos_of_ne_zero hn)]
    have := Nat.pos_of_ne_zero hm
    omega
  have hbits : 2 ^ (f32.mb + 2) ≤ 2 * (a / n) + if a % n = 0 then 0 else 1 := f32_bits_of_le hq
  obtain ⟨c, u, q, up, h, hcut, hover, hround⟩ := f32_sound.round_between r false (s != t) (e - d - 65) (show 2 * (a / n) + (if a % n = 0 then 0 else 1) ≠ 0 by omega)
  have hmax : (if up then c + 1 else c) ≤ f32.max := by
    by_contra hgt
    exact flags_overflow (by simpa only [hover (not_le.1 hgt)] using hof)
  have hV : (Num.fin s m e).rat / (Num.fin t n d).rat = sgn (s != t) * ((m : ℚ) * 2 ^ e / (n * 2 ^ d)) := by
    rw [rat_fin, rat_fin, mul_div_mul_comm]
    cases s <;> cases t <;> norm_num [sgn]
  rw [hV, hround hmax]
  exact ((h.sides (cutoff_above_grain hbits hcut) (quotient_sticky ha e d hn)).between h).rounds f32_sound hmax

-- roots

/-- What rounding a value to a code `w` means for a value given by `F` `V` = `T` alone, `F` rising (R108). -/
structure Fmt.RootRounded (f : Fmt) (r : RM) (F : ℚ → ℚ) (T : ℚ) (w : Nat) : Prop where
  finite : f.Finite w
  nonneg : 0 ≤ f.rat w
  down : r = .rd ∨ r = .rz → F (f.rat w) ≤ T ∧ ∀ z, f.Finite z → f.rat w < f.rat z → T < F (f.rat z)
  up : r = .ru → T ≤ F (f.rat w) ∧ ∀ z, f.Finite z → 0 ≤ f.rat z → f.rat z < f.rat w → F (f.rat z) < T
  nearest : r = .rn → ∀ z, f.Finite z → 0 ≤ f.rat z → (f.rat w < f.rat z → T ≤ F ((f.rat w + f.rat z) / 2))
    ∧ (f.rat z < f.rat w → F ((f.rat w + f.rat z) / 2) ≤ T)

/-- A root's approximation is rounded as the root (R108). -/
theorem Fmt.Sound.rootRounded {f : Fmt} (hf : f.Sound) {r : RM} {F : ℚ → ℚ} {T : ℚ} {a b : Nat} {E : Int}
    (hF : StrictMonoOn F (Set.Ici 0)) (hs : Sticky a b (2 ^ (E + 1)) (F · ≤ T) (F · = T)) (ha : 2 ^ (f.mb + 2) ≤ 2 * a + b)
    (hT : T < F (f.mag f.max)) : f.RootRounded r F T (f.round r false false false (2 * a + b) E).1 := by
  obtain ⟨c, u, q, up, h, hcut, -, hround⟩ := hf.round_between r false false E (m := 2 * a + b) (by have := Nat.two_pow_pos (f.mb + 2); omega)
  have hsd := h.sides (cutoff_above_grain ha hcut) hs
  have hle {x y : ℚ} (hx : 0 ≤ x) (h : x ≤ y) : F x ≤ F y := hF.monotoneOn hx (hx.trans h) h
  have hlt {x y : ℚ} (hx : 0 ≤ x) (h : x < y) : F x < F y := hF hx (hx.trans h.le) h
  have hc0 := f.mag_nonneg c
  have hc1 := f.mag_nonneg (c + 1)
  have hT1 := not_le.1 hsd.hi
  have hcmax : c < f.max := by
    by_contra hge
    exact absurd (hsd.lo.trans_lt hT) (not_lt.2 (hle (f.mag_nonneg _) (f.mag_strictMono.monotone (not_lt.1 hge))))
  have hmax : (if up then c + 1 else c) ≤ f.max := by split <;> omega
  obtain ⟨hfin, hrat, -⟩ := hf.taken false hmax
  rw [hround hmax]
  rw [show sgn false = 1 from rfl, one_mul] at hrat
  have hside (z : Nat) (hz : f.Finite z) : f.rat z ≤ f.mag c ∨ f.mag (c + 1) ≤ f.rat z := by simpa [sgn] using hf.le_or_ge hz false c
  obtain ⟨hrz, hru, hrd⟩ := RM.up_directed h.way
  refine ⟨hfin, hrat ▸ f.mag_nonneg _, fun hr => ?down, fun hr => ?up, fun hr z hz hz0 => ?nearest⟩
  case down =>
    obtain rfl : up = false := hr.elim (fun h => by simpa using hrd h) hrz
    rw [hrat]
    exact ⟨hsd.lo, fun z hz hlz => hT1.trans_le (hle hc1 ((hside z hz).resolve_left (not_le.2 hlz)))⟩
  case up =>
    have hup := hru hr
    rw [hrat]
    by_cases he : f.mag c = (2 * a + b : Nat) * 2 ^ E
    · obtain rfl : up = false := by simpa [he] using hup
      have hTc : F (f.mag c) = T := hsd.exact.1 he
      exact ⟨hTc.ge, fun z _ hz0 hzw => hTc ▸ hlt hz0 hzw⟩
    · obtain rfl : up = true := hup.trans (by rw [decide_eq_true he]; rfl)
      have hTc : F (f.mag c) < T := lt_of_le_of_ne hsd.lo fun h' => he (hsd.exact.2 h')
      exact ⟨hT1.le, fun z hz hz0 hzw => (hle hz0 ((hside z hz).resolve_right (not_le.2 hzw))).trans_lt hTc⟩
  case nearest =>
    subst hr
    obtain ⟨hdown, hup⟩ := RM.up_rn h.way
    have hz' := hside z hz
    rw [hrat]
    cases up with
    | false =>
      have hmid : T ≤ F ((f.mag c + f.mag (c + 1)) / 2) := by
        rcases (hdown rfl).1.eq_or_lt with he | hl
        · exact (hsd.mid_eq.1 he.symm).ge
        · exact (not_le.1 fun h' => absurd (hsd.mid.2 h') (not_le.2 hl)).le
      simp only [Bool.false_eq_true, if_false]
      exact ⟨fun hzw => hmid.trans (hle (by linarith) (by linarith [hz'.resolve_left (not_le.2 hzw)])),
        fun hzw => (hle (by linarith) (by linarith)).trans hsd.lo⟩
    | true =>
      have hmid := hsd.mid.1 (hup rfl).1
      simp only [if_true]
      exact ⟨fun hzw => hT1.le.trans (hle hc1 (by linarith)),
        fun hzw => (hle (by linarith) (by linarith [hz'.resolve_right (not_le.2 hzw)])).trans hmid⟩

/-- A value with its exponent made even. -/
theorem even_exponent (m : Nat) (e : Int) : ∃ k : Int, (if e % 2 = 0 then e else e - 1) = 2 * k
    ∧ ((if e % 2 = 0 then m else 2 * m : Nat) : ℚ) * 2 ^ (2 * k) = m * 2 ^ e := by
  split
  · rename_i h
    refine ⟨e / 2, by omega, ?_⟩
    rw [show 2 * (e / 2) = e by omega]
  · refine ⟨(e - 1) / 2, by omega, ?_⟩
    rw [show e = 2 * ((e - 1) / 2) + 1 by omega, zpow_add₀ two_ne_zero, show (2 * ((e - 1) / 2) + 1 - 1) / 2 = (e - 1) / 2 by omega]
    push_cast
    ring

/-- The integer root of a number, with a last bit that tells whether it is exact. -/
def stickyRoot (x : Nat) (e : Int) : Num := .fin false (2 * isqrt x + if isqrt x * isqrt x = x then 0 else 1) e

theorem sqrtFin_eq (m : Nat) (e : Int) :
    sqrtFin m e = stickyRoot ((if e % 2 = 0 then m else 2 * m) * 2 ^ 80) ((if e % 2 = 0 then e else e - 1) / 2 - 41) := rfl

/-- A root's approximation tells the root. -/
theorem sqrt_sticky {n x : Nat} (hx : n * 2 ^ 80 = x) (k : Int) : Sticky (isqrt x) (if isqrt x * isqrt x = x then 0 else 1)
    (2 ^ (k - 41 + 1)) (· ^ 2 ≤ (n : ℚ) * 2 ^ (2 * k)) (· ^ 2 = (n : ℚ) * 2 ^ (2 * k)) := by
  have hsq (j : Nat) : ((j : ℚ) * 2 ^ (k - 41 + 1)) ^ 2 = (j * j : Nat) * (2 ^ (2 * k) / 2 ^ 80) := by
    rw [mul_pow, ← zpow_natCast ((2 : ℚ) ^ (k - 41 + 1)) 2, ← zpow_mul, show (k - 41 + 1) * ((2 : Nat) : Int) = 2 * k - (80 : Nat) by push_cast; ring,
      zpow_sub₀ two_ne_zero, zpow_natCast]
    push_cast
    ring
  have hn : (n : ℚ) * 2 ^ (2 * k) = x * (2 ^ (2 * k) / 2 ^ 80) := by
    rw [← hx]
    push_cast
    ring
  have hg : (0 : ℚ) < 2 ^ (2 * k) / 2 ^ 80 := div_pos (zpow_pos two_pos _) (by positivity)
  rw [isqrt_eq_sqrt, hn]
  refine ⟨by split <;> simp, fun j => ?_, fun j => ?_⟩
  · rw [hsq, mul_le_mul_iff_left₀ hg, Nat.cast_le, Nat.le_sqrt]
  · rw [hsq, mul_left_inj' hg.ne', Nat.cast_inj]
    constructor
    · intro h
      rw [← h, Nat.sqrt_eq]
      simp
    · rintro ⟨rfl, h⟩
      simpa using h

/-- A reciprocal root's approximation tells the reciprocal root. -/
theorem rsq_sticky {n : Nat} (k : Int) (hn : n ≠ 0) :
    Sticky (isqrt (2 ^ 240 / n)) (if isqrt (2 ^ 240 / n) * isqrt (2 ^ 240 / n) * n = 2 ^ 240 then 0 else 1)
      (2 ^ (-120 - k - 1 + 1)) (fun p => (n : ℚ) * 2 ^ (2 * k) * p ^ 2 ≤ 1) (fun p => (n : ℚ) * 2 ^ (2 * k) * p ^ 2 = 1) := by
  have hsq (j : Nat) : (n : ℚ) * 2 ^ (2 * k) * ((j : ℚ) * 2 ^ (-120 - k - 1 + 1)) ^ 2 = (j * j * n : Nat) / (2 ^ 240 : Nat) := by
    have hpow : ((2 : ℚ) ^ (-120 - k - 1 + 1)) ^ 2 = 2 ^ (-(2 * k)) / 2 ^ 240 := by
      rw [← zpow_natCast ((2 : ℚ) ^ (-120 - k - 1 + 1)) 2, ← zpow_mul,
        show (-120 - k - 1 + 1) * ((2 : Nat) : Int) = -(2 * k) - (240 : Nat) by push_cast; ring, zpow_sub₀ two_ne_zero, zpow_natCast]
    have hinv : (2 : ℚ) ^ (2 * k) * 2 ^ (-(2 * k)) = 1 := by rw [← zpow_add₀ two_ne_zero, add_neg_cancel, zpow_zero]
    rw [mul_pow, hpow]
    push_cast
    linear_combination ((n : ℚ) * j ^ 2 / 2 ^ 240) * hinv
  have hone : (0 : ℚ) < (2 ^ 240 : Nat) := by positivity
  have hpos := Nat.pos_of_ne_zero hn
  rw [isqrt_eq_sqrt]
  refine ⟨by split <;> simp, fun j => ?_, fun j => ?_⟩
  · rw [hsq, div_le_one hone, Nat.cast_le, Nat.le_sqrt, Nat.le_div_iff_mul_le hpos]
  · rw [hsq, div_eq_one_iff_eq hone.ne', Nat.cast_inj]
    constructor
    · intro h
      have hj : 2 ^ 240 / n = j * j := by rw [← h, Nat.mul_div_cancel _ hpos]
      rw [hj, Nat.sqrt_eq, if_pos h]
      exact ⟨rfl, rfl⟩
    · rintro ⟨rfl, h⟩
      simpa using h

theorem f32_mag_max : (2 : ℚ) ^ 127 ≤ f32.mag f32.max := by
  norm_num [Fmt.mag, Fmt.steps, f32, Fmt.qmin]

/-- The exact value of a positive finite code, and its bounds. -/
theorem f32_positive {y : Nat} (hy : f32.Finite y) (h0 : 0 < f32.rat y) : ∃ m e, f32.num y = .fin false m e ∧ m ≠ 0 ∧ m < 2 ^ 24
    ∧ f32.rat y = m * 2 ^ e ∧ (2 : ℚ) ^ (-149 : Int) ≤ f32.rat y ∧ f32.rat y ≤ f32.mag f32.max := by
  have hbody := (f32_sound.finite_iff.1 hy).2
  obtain ⟨m, e, hnum, hmag⟩ := f32_sound.num_of_le hbody
  obtain ⟨-, hm, hlo, -⟩ := f32_sound.bounds_of_num hnum
  have hrat := f32_sound.rat_eq hbody
  have hneg : f32.neg y = false := by
    by_contra hn
    rw [Bool.not_eq_false] at hn
    rw [hn] at hrat
    have := f32.mag_nonneg (f32.body y)
    norm_num [sgn] at hrat
    linarith
  rw [hneg, show sgn false = 1 from rfl, one_mul] at hrat
  rw [hneg] at hnum
  rw [hrat, ← hmag] at h0
  have hm0 : m ≠ 0 := by
    rintro rfl
    simp at h0
  refine ⟨m, e, hnum, hm0, hm, hrat.trans hmag.symm, ?_, hrat ▸ f32.mag_strictMono.monotone hbody⟩
  rw [hrat, ← hmag]
  calc (2 : ℚ) ^ (-149 : Int) ≤ 1 * 2 ^ e := by rw [one_mul]; exact zpow_le_zpow_right₀ one_le_two hlo
    _ ≤ m * 2 ^ e := mul_le_mul_of_nonneg_right (by exact_mod_cast Nat.one_le_iff_ne_zero.2 hm0) (zpow_pos two_pos _).le

theorem le_isqrt_root {n x : Nat} (hx : n * 2 ^ 80 = x) (hn : n ≠ 0) : 2 ^ 40 ≤ isqrt x := by
  rw [isqrt_eq_sqrt, Nat.le_sqrt, ← Nat.pow_add, ← hx]
  exact Nat.le_mul_of_pos_left _ (Nat.pos_of_ne_zero hn)

theorem le_isqrt_rsq {n : Nat} (hn : n ≠ 0) (hlt : n ≤ 2 ^ 25) : 2 ^ 40 ≤ isqrt (2 ^ 240 / n) := by
  rw [isqrt_eq_sqrt, Nat.le_sqrt, Nat.le_div_iff_mul_le (Nat.pos_of_ne_zero hn), ← Nat.pow_add]
  calc 2 ^ (40 + 40) * n ≤ 2 ^ (40 + 40) * 2 ^ 25 := Nat.mul_le_mul_left _ hlt
    _ ≤ 2 ^ 240 := by rw [← Nat.pow_add]; exact Nat.pow_le_pow_right (by decide) (by decide)

/-- Square roots are correctly rounded (R388). -/
theorem sqrt_rounded (r : RM) {y : Nat} (hy : f32.Finite y) (h0 : 0 < f32.rat y) :
    f32.RootRounded r (· ^ 2) (f32.rat y) (rounded r false false [f32.num y] (sqrtNum (f32.num y))).1 := by
  obtain ⟨m, e, hnum, hm, -, hrat, -, hmax⟩ := f32_positive hy h0
  obtain ⟨k, hk, hval⟩ := even_exponent m e
  have hroot : sqrtNum (f32.num y) = (sqrtFin m e, 0#6) := by rw [hnum, sqrtNum, if_neg hm]; rfl
  rw [hroot, sqrtFin_eq, hk, Int.mul_ediv_cancel_left _ two_ne_zero]
  have hn : (if e % 2 = 0 then m else 2 * m) ≠ 0 := by split <;> omega
  generalize (if e % 2 = 0 then m else 2 * m) = n at *
  obtain ⟨x, hx⟩ : ∃ x, n * 2 ^ 80 = x := ⟨_, rfl⟩
  rw [hx, stickyRoot, rounded_fin, hrat, ← hval]
  refine f32_sound.rootRounded (pow_left_strictMonoOn₀ two_ne_zero) (sqrt_sticky hx k) ?_ ?_
  · exact f32_bits_of_le (le_isqrt_root hx hn)
  · rw [hval, ← hrat]
    have := f32_mag_max
    nlinarith

/-- Reciprocal roots are correctly rounded (R394). -/
theorem rsq_rounded {y : Nat} (hy : f32.Finite y) (h0 : 0 < f32.rat y) :
    f32.RootRounded .rn (fun p => f32.rat y * p ^ 2) 1 (ffn32 .rsq false y).1 := by
  obtain ⟨m, e, hnum, hm, hlt, hrat, hmin, -⟩ := f32_positive hy h0
  obtain ⟨k, hk, hval⟩ := even_exponent m e
  have hroot : ffnNum .rsq (f32.num y) = (rsqFin m e, 0#6) := by rw [hnum, ffnNum, if_neg hm]; rfl
  rw [ffn32, hroot, rsqFin]
  simp only [rounded_fin]
  rw [hk, Int.mul_ediv_cancel_left _ two_ne_zero]
  have hn : (if e % 2 = 0 then m else 2 * m) ≠ 0 := by split <;> omega
  have hn25 : (if e % 2 = 0 then m else 2 * m) ≤ 2 ^ 25 := by split <;> omega
  generalize (if e % 2 = 0 then m else 2 * m) = n at *
  have hF : StrictMonoOn (fun p : ℚ => f32.rat y * p ^ 2) (Set.Ici 0) := fun a ha b hb hab =>
    mul_lt_mul_of_pos_left (pow_left_strictMonoOn₀ two_ne_zero ha hb hab) h0
  refine f32_sound.rootRounded hF (by rw [hrat, ← hval]; exact rsq_sticky k hn) ?_ ?_
  · exact f32_bits_of_le (le_isqrt_rsq hn hn25)
  · calc (1 : ℚ) < 2 ^ (-149 : Int) * (2 ^ 127) ^ 2 := by norm_num
      _ ≤ f32.rat y * f32.mag f32.max ^ 2 := mul_le_mul hmin (pow_le_pow_left₀ (by positivity) f32_mag_max 2) (by positivity) h0.le

/-- A quotient of finite operands, the divisor not 0, is correctly rounded unless it overflows (R388). -/
theorem div_rounded {r : RM} {X : Num} {s : Bool} {m : Nat} {e : Int} {ops : List Num} {y : Nat} (hX : X = .fin s m e) (hm : m ≠ 0) (hops : sigNV ops = 0#6)
    (hy : f32.Finite y) (h0 : f32.rat y ≠ 0) (hof : (rounded r false false ops (divNum X (f32.num y))).2 &&& flOF = 0#6) :
    f32.Rounds r (X.rat / f32.rat y) (rounded r false false ops (divNum X (f32.num y))).1 := by
  obtain ⟨-, t, n, d, hnum⟩ := hy
  obtain ⟨-, hlt, -, -⟩ := f32_sound.bounds_of_num hnum
  have hn : n ≠ 0 := by
    rintro rfl
    exact h0 (by simp [Fmt.rat, hnum, rat_fin])
  have hdiv : divNum X (f32.num y) = (divFin s t m n e d, 0#6) := by rw [hX, hnum, divNum, if_neg hn, if_neg hm]
  obtain ⟨a, ha⟩ : ∃ a, m * 2 ^ 64 = a := ⟨_, rfl⟩
  rw [hdiv, divFin_eq, ha, stickyQuotient, rounded_fin, hops, BitVec.or_zero, BitVec.or_zero] at hof
  rw [hdiv, divFin_eq, ha, stickyQuotient, rounded_fin, Fmt.rat, hnum, hX]
  exact quotient_rounds ha hm hn hlt hof

theorem sigNV_fin (f : Fmt) {l : List Nat} (h : ∀ x ∈ l, f.Finite x) : sigNV (l.map f.num) = 0#6 := by
  rw [sigNV, if_neg]
  simp only [List.any_map, List.any_eq_true, not_exists, not_and]
  intro x hx
  obtain ⟨-, n, m, e, hnum⟩ := h x hx
  simp [hnum, Num.isSig]

/-- Settles O16: quotients by the approximation that tells them, roots and reciprocal roots by their squares. -/
theorem quotientsAndRootsAreCorrect : Obligations.QuotientsAndRootsAreCorrect := by
  unfold Obligations.QuotientsAndRootsAreCorrect
  intro r x y hx hy h0
  refine ⟨fun hx0 hof => ?quotient, fun hof => ?rcp, fun hpos => ?roots⟩
  case quotient =>
    obtain ⟨-, s, m, e, hnum⟩ := id hx
    have hm : m ≠ 0 := by
      rintro rfl
      exact hx0 (by simp [Fmt.rat, hnum, rat_fin])
    exact div_rounded hnum hm (sigNV_fin f32 (l := [x, y]) (by simp [hx, hy])) hy h0 hof
  case rcp =>
    obtain ⟨-, s, m, e, hnum⟩ := id hy
    have hm : m ≠ 0 := by
      rintro rfl
      exact h0 (by simp [Fmt.rat, hnum, rat_fin])
    have hone : ffnNum .rcp (f32.num y) = divNum (.fin false 1 0) (f32.num y) := by rw [hnum, ffnNum, if_neg hm]
    have hrat : (Num.fin false 1 0).rat = 1 := by norm_num [Num.rat]
    rw [ffn32, hone] at hof ⊢
    exact hrat ▸ div_rounded rfl one_ne_zero (sigNV_fin f32 (l := [y]) (by simp [hy])) hy h0 hof
  case roots =>
    obtain ⟨wfin, w0, wdown, wup, wnear⟩ := sqrt_rounded r hy hpos
    obtain ⟨ufin, u0, -, -, unear⟩ := rsq_rounded hy hpos
    exact ⟨wfin, w0, ufin, u0, wdown, wup, wnear, unear rfl⟩

end Sys2Proof.Machine
end

section
/-!
SUPPORT. Exact sums and products of floating-point values, rounded once (R108 to R116): what `sumFin`, `mulNum`, `sumNum` and `fused` make of
finite values, of NaNs, of infinities and of sums that are 0.
-/
namespace Sys2Proof.Machine

/-- A finite value. -/
def Num.Fin (x : Num) : Prop := ∃ n m e, x = .fin n m e

theorem Num.fin_fin (n : Bool) (m : Nat) (e : Int) : (Num.fin n m e).Fin := ⟨n, m, e, rfl⟩

theorem Num.Fin.not_nan {x : Num} (h : x.Fin) : x.isNan = false := by obtain ⟨n, m, e, rfl⟩ := h; rfl
theorem Num.Fin.not_inf {x : Num} (h : x.Fin) : x.isInf = false := by obtain ⟨n, m, e, rfl⟩ := h; rfl
theorem Num.Fin.not_sig {x : Num} (h : x.Fin) : x.isSig = false := by obtain ⟨n, m, e, rfl⟩ := h; rfl

theorem Fmt.Finite.fin {f : Fmt} {x : Nat} (h : f.Finite x) : (f.num x).Fin := h.2

theorem Num.Fin.isZero_iff {x : Num} (h : x.Fin) : x.isZero = true ↔ x.rat = 0 := by
  obtain ⟨n, m, e, rfl⟩ := h
  rw [rat_fin, mul_eq_zero, or_iff_right (sgn_ne_zero n), mul_eq_zero, or_iff_left (zpow_ne_zero e two_ne_zero), Nat.cast_eq_zero]
  exact decide_eq_true_iff

-- sums

theorem Num.Fin.at_rat {x : Num} (h : x.Fin) {q : Int} (hq : q ≤ x.exp) : ((x.at q : Int) : ℚ) * 2 ^ q = x.rat := by
  obtain ⟨n, m, e, rfl⟩ := h
  have hpow : (2 : ℚ) ^ (e - q).toNat * 2 ^ q = 2 ^ e := by
    rw [← zpow_natCast, Int.toNat_of_nonneg (sub_nonneg.2 (show q ≤ e from hq)), ← zpow_add₀ two_ne_zero, sub_add_cancel]
  rw [rat_fin, ← hpow]
  cases n <;> simp [Num.at, sgn, mul_assoc]

/-- The exponent at which a sum is taken is no greater than that of any term but the zeros. -/
theorem sumExponent_le (l : List Num) (a : Int) :
    l.foldl (fun a x => if x.isZero then a else min a x.exp) a ≤ a
      ∧ ∀ x ∈ l, x.isZero = false → l.foldl (fun a x => if x.isZero then a else min a x.exp) a ≤ x.exp := by
  induction l generalizing a with
  | nil => exact ⟨le_rfl, nofun⟩
  | cons y l ih =>
    obtain ⟨h1, h2⟩ := ih (if y.isZero then a else min a y.exp)
    rw [List.foldl_cons]
    refine ⟨h1.trans (by split <;> simp), fun x hx hz => ?_⟩
    rcases List.mem_cons.1 hx with rfl | hx
    · rw [hz] at h1 ⊢
      exact h1.trans (min_le_right _ _)
    · exact h2 x hx hz

theorem sumUnits_rat {l : List Num} {q : Int} (hl : ∀ x ∈ l, x.Fin) (hq : ∀ x ∈ l, x.isZero = false → q ≤ x.exp) (a : Int) :
    ((l.foldl (fun a x => if x.isZero then a else a + x.at q) a : Int) : ℚ) * 2 ^ q = a * 2 ^ q + (l.map Num.rat).sum := by
  induction l generalizing a with
  | nil => simp
  | cons y l ih =>
    rw [List.foldl_cons, ih (fun x hx => hl x (List.mem_cons_of_mem _ hx)) (fun x hx => hq x (List.mem_cons_of_mem _ hx)), List.map_cons, List.sum_cons]
    have hy := hl y List.mem_cons_self
    cases hz : y.isZero with
    | true => rw [hy.isZero_iff.1 hz, zero_add, if_pos rfl]
    | false =>
      rw [← hy.at_rat (hq y List.mem_cons_self hz), if_neg Bool.false_ne_true]
      push_cast
      ring

/-- The sign of an exact zero as a sum (R109). -/
def zeroSign (r : RM) (l : List Num) : Bool :=
  if l.all Num.neg && l.all Num.isZero then true else if l.all (fun x => !x.neg) then false else r = .rd

theorem rat_signed (n : Int) (q : Int) : (Num.fin (n < 0) n.natAbs q).rat = n * 2 ^ q := by
  rw [rat_fin, ← mul_assoc]
  congr 1
  rcases lt_or_ge n 0 with h | h
  · rw [decide_eq_true h, Nat.cast_natAbs, abs_of_neg h]
    simp [sgn]
  · rw [decide_eq_false (not_lt.2 h), Nat.cast_natAbs, abs_of_nonneg h]
    simp [sgn]

/-- THE EXACT SUM of finite values (R108, R109). -/
theorem sumFin_exact (r : RM) {l : List Num} (hl : ∀ x ∈ l, x.Fin) : ∃ n m e, sumFin r l = .fin n m e ∧ (Num.fin n m e).rat = (l.map Num.rat).sum
    ∧ ((l.map Num.rat).sum = 0 → m = 0 ∧ n = zeroSign r l) := by
  obtain ⟨-, hq⟩ := sumExponent_le l 0
  obtain ⟨q, hqdef⟩ : ∃ q, l.foldl (fun a x => if x.isZero then a else min a x.exp) (0 : Int) = q := ⟨_, rfl⟩
  rw [hqdef] at hq
  have hsum := sumUnits_rat hl hq 0
  rw [Int.cast_zero, zero_mul, zero_add] at hsum
  unfold sumFin
  simp only [hqdef]
  generalize l.foldl (fun a x => if x.isZero then a else a + x.at q) (0 : Int) = n at *
  by_cases hn : n = 0
  · subst hn
    rw [if_pos rfl]
    rw [Int.cast_zero, zero_mul] at hsum
    exact ⟨_, _, _, rfl, by rw [← hsum, rat_fin]; simp, fun _ => ⟨rfl, rfl⟩⟩
  · rw [if_neg hn]
    refine ⟨_, _, _, rfl, (rat_signed n q).trans hsum, fun h0 => absurd ?_ hn⟩
    rw [← hsum, mul_eq_zero, or_iff_left (zpow_ne_zero q two_ne_zero)] at h0
    exact_mod_cast h0

theorem zeroSign_one (r : RM) {x : Num} (hx : x.Fin) (h0 : x.rat = 0) : zeroSign r [x] = x.neg := by
  have hz := hx.isZero_iff.2 h0
  cases hn : x.neg <;> simp [zeroSign, hn, hz]

/-- The sign of a sum of two that is 0 (R109). -/
theorem zeroSign_two (r : RM) {x y : Num} (hx : x.Fin) (hy : y.Fin) (h0 : x.rat + y.rat = 0) :
    zeroSign r [x, y] = if x.neg = y.neg then x.neg else decide (r = .rd) := by
  have hpos (z : Num) (hz : z.Fin) : z.neg = true → z.rat ≤ 0 := by
    obtain ⟨n, m, e, rfl⟩ := hz
    rintro (rfl : n = true)
    rw [rat_fin]
    have : (0 : ℚ) ≤ m * 2 ^ e := by positivity
    simpa [sgn] using this
  cases hnx : x.neg <;> cases hny : y.neg
  · simp [zeroSign, hnx, hny]
  · simp [zeroSign, hnx, hny]
  · simp [zeroSign, hnx, hny]
  · have h1 := hpos x hx hnx
    have h2 := hpos y hy hny
    have hzx := hx.isZero_iff.2 (by linarith)
    have hzy := hy.isZero_iff.2 (by linarith)
    simp [zeroSign, hnx, hny, hzx, hzy]

-- products

theorem mulNum_fin {x y : Num} (hx : x.Fin) (hy : y.Fin) : ∃ p, mulNum x y = some p ∧ p.Fin ∧ p.rat = x.rat * y.rat ∧ p.neg = (x.neg != y.neg) := by
  obtain ⟨s, m, e, rfl⟩ := hx
  obtain ⟨t, n, d, rfl⟩ := hy
  refine ⟨_, rfl, Num.fin_fin .., ?_, rfl⟩
  rw [rat_fin, rat_fin, rat_fin, zpow_add₀ two_ne_zero]
  have hsgn : sgn (s != t) = sgn s * sgn t := by cases s <;> cases t <;> norm_num [sgn]
  rw [hsgn]
  push_cast
  ring

theorem mulNum_nan {x y : Num} (h : (x.isNan || y.isNan) = true) : mulNum x y = some (.nan false) := by
  cases x <;> cases y <;> simp_all [Num.isNan, mulNum]

theorem mulNum_invalid {x y : Num} (h : ((x.isInf && y.isZero) || (x.isZero && y.isInf)) = true) : mulNum x y = none := by
  cases x <;> cases y <;> simp_all [Num.isInf, Num.isZero, mulNum]

-- terms

theorem sumNum_invalid (r : RM) {l : List (Option Num)} (h : none ∈ l) : sumNum r l = (.nan false, flNV) := by
  rw [sumNum, if_pos (List.any_eq_true.2 ⟨none, h, rfl⟩)]

theorem any_isNone_somes (l : List Num) : (l.map some).any Option.isNone = false := by simp

theorem filterMap_somes (l : List Num) : (l.map some).filterMap id = l := by simp

theorem sumNum_nan (r : RM) {l : List Num} (h : ∃ x ∈ l, x.isNan = true) : sumNum r (l.map some) = (.nan false, 0#6) := by
  rw [sumNum, any_isNone_somes, if_neg Bool.false_ne_true]
  dsimp only
  rw [filterMap_somes, if_pos (List.any_eq_true.2 h)]

theorem sumNum_fin (r : RM) {l : List Num} (hl : ∀ x ∈ l, x.Fin) : sumNum r (l.map some) = (sumFin r l, 0#6) := by
  have h1 : l.any Num.isNan = false := List.any_eq_false.2 fun x hx => by rw [(hl x hx).not_nan]; exact Bool.false_ne_true
  have h2 : l.filter Num.isInf = [] := List.filter_eq_nil_iff.2 fun x hx => by rw [(hl x hx).not_inf]; exact Bool.false_ne_true
  rw [sumNum, any_isNone_somes, if_neg Bool.false_ne_true]
  dsimp only
  rw [filterMap_somes, h1, h2]
  rfl

/-- Terms among which there is a NaN, or an invalid product, make a NaN (R113, R114). -/
theorem sumNum_isNan (r : RM) {l : List (Option Num)} (h : ∃ x ∈ l, ∀ y, x = some y → y.isNan = true) : (sumNum r l).1 = .nan false := by
  obtain ⟨x, hx, hn⟩ := h
  by_cases hno : none ∈ l
  · rw [sumNum_invalid r hno]
  · obtain ⟨y, rfl⟩ := Option.ne_none_iff_exists'.1 fun h' => hno (h' ▸ hx)
    have h1 : l.any Option.isNone = false := List.any_eq_false.2 fun z hz h' => hno (Option.isNone_iff_eq_none.1 h' ▸ hz)
    have h2 : (l.filterMap id).any Num.isNan = true := List.any_eq_true.2 ⟨y, List.mem_filterMap.2 ⟨some y, hx, rfl⟩, hn y rfl⟩
    rw [sumNum, h1, if_neg Bool.false_ne_true]
    dsimp only
    rw [h2, if_pos rfl]

-- one rounding

section Fused
variable (f : Fmt) (r : RM) (sat ftz : Bool) (ops : List Num)

theorem fused_eq (l : List (Option Num)) {v : Num} {b : BitVec 6} (h : sumNum r l = (v, b)) :
    fused f r sat ftz ops l = ((f.code r sat ftz v).1, (f.code r sat ftz v).2 ||| b ||| sigNV ops) := by
  rw [fused, h]

theorem fused_nan {l : List (Option Num)} (h : ∃ x ∈ l, ∀ y, x = some y → y.isNan = true) : (fused f r sat ftz ops l).1 = f.qnan := by
  rw [fused, sumNum_isNan r h]
  rfl

theorem sigNV_getLsbD : (sigNV ops).getLsbD 0 = ops.any Num.isSig := by
  rw [sigNV]
  cases ops.any Num.isSig <;> rfl

theorem sigNV_of_fin (h : ∀ x ∈ ops, x.Fin) : sigNV ops = 0#6 := by
  rw [sigNV, List.any_eq_false.2 fun x hx => by rw [(h x hx).not_sig]; exact Bool.false_ne_true]
  rfl

/-- FINITE TERMS: their exact sum is rounded once; one of 0 has the sign of R109. -/
theorem fused_fin {l : List Num} (hl : ∀ x ∈ l, x.Fin) (ho : ∀ x ∈ ops, x.Fin) :
    RoundedTo f r sat ftz (l.map Num.rat).sum (fused f r sat ftz ops (l.map some)) 0#6
      ∧ ((l.map Num.rat).sum = 0 → fused f r sat ftz ops (l.map some) = (f.sign (zeroSign r l), 0#6)) := by
  obtain ⟨n, m, e, hs, hv, h0⟩ := sumFin_exact r hl
  rw [fused_eq f r sat ftz ops _ (sumNum_fin r hl), hs, sigNV_of_fin ops ho]
  simp only [Fmt.code, BitVec.or_zero]
  refine ⟨⟨n, m, e, hv, rfl, (BitVec.or_zero).symm⟩, fun h => ?_⟩
  obtain ⟨rfl, rfl⟩ := h0 h
  rfl

end Fused

end Sys2Proof.Machine
end

section
/-!
SUPPORT. The codes that rounding makes (R108, R111 to R113): each fits its format; and those of F32 for infinities, NaNs and zeros.
-/
namespace Sys2Proof.Machine

theorem Fmt.sign_lt (f : Fmt) (n : Bool) : f.sign n < 2 ^ f.width := by simpa using f.sign_add_lt n (Nat.two_pow_pos (f.eb + f.mb))

namespace Fmt.Sound
variable {f : Fmt} (hf : f.Sound)
include hf

theorem special_lt (toInf : Bool) : (if toInf then (2 ^ f.eb - 1) * 2 ^ f.mb else f.max) < 2 ^ (f.eb + f.mb) := by
  split
  · rw [Nat.pow_add]
    exact Nat.mul_lt_mul_of_pos_right (Nat.sub_lt (Nat.two_pow_pos _) one_pos) (Nat.two_pow_pos _)
  · exact hf.max_lt

theorem round_lt (r : RM) (sat ftz neg : Bool) (m : Nat) (e : Int) : (f.round r sat ftz neg m e).1 < 2 ^ f.width := by
  unfold Fmt.round
  split
  · exact f.sign_lt neg
  · dsimp only
    split
    · exact f.sign_lt neg
    · split
      · exact f.sign_add_lt neg (hf.special_lt _)
      · rename_i hle
        exact f.sign_add_lt neg ((not_lt.1 hle).trans_lt hf.max_lt)

theorem infinite_lt (sat n : Bool) : (f.infinite sat n).1 < 2 ^ f.width := by
  unfold Fmt.infinite
  split
  · exact f.sign_add_lt n (hf.special_lt true)
  · exact f.sign_add_lt n hf.max_lt

theorem code_lt (r : RM) (sat ftz : Bool) (x : Num) : (f.code r sat ftz x).1 < 2 ^ f.width := by
  cases x with
  | nan g => exact hf.qnan_lt.trans_le (Nat.pow_le_pow_right (by decide) (by rw [Fmt.width]; omega))
  | inf n => exact hf.infinite_lt sat n
  | fin n m e => exact hf.round_lt ..

theorem fused_lt (r : RM) (sat ftz : Bool) (ops : List Num) (l : List (Option Num)) : (fused f r sat ftz ops l).1 < 2 ^ f.width := hf.code_lt ..

end Fmt.Sound

/-- The code of an infinite result of F32 (R112). -/
theorem f32_infinite (sat k : Bool) : BitVec.ofNat 32 (f32.infinite sat k).1
    = if sat then (if k then 0xFF7FFFFF#32 else 0x7F7FFFFF#32) else if k then 0xFF800000#32 else 0x7F800000#32 := by
  cases sat <;> cases k <;> rfl

theorem f32_sign (n : Bool) : BitVec.ofNat 32 (f32.sign n) = if n then 0x80000000#32 else 0#32 := by cases n <;> rfl

/-- The code of a lane's result, where it fits the lane. -/
theorem outF_fp {x : Nat × BitVec 6} (p : Option Word) (h : x.1 < 2 ^ 32) : (outF x p).fp = x := by
  simp only [outF, LaneOut.fp, List.headD_cons, BitVec.toNat_ofNat, Nat.mod_eq_of_lt h]

theorem RoundedTo.or {f : Fmt} {r : RM} {sat ftz : Bool} {v : ℚ} {x : Nat × BitVec 6} {b : BitVec 6} (h : RoundedTo f r sat ftz v x b) (a : BitVec 6) :
    RoundedTo f r sat ftz v (x.1, x.2 ||| a) (b ||| a) := by
  obtain ⟨n, m, e, hv, h1, h2⟩ := h
  exact ⟨n, m, e, hv, h1, by rw [h2, BitVec.or_assoc]⟩

end Sys2Proof.Machine
end

section
/-!
SUPPORT. O17: `FADD`, `FMUL` and `FFMA` (R108 to R116, R384, R385).
-/
namespace Sys2Proof.Machine

/-- One lane of an operation of flush class (R116): its result as a code with flags, and the flags `b` of the operands flushed. -/
def laneF (w : Nat × BitVec 6) (b : BitVec 6) (p : Option Word) : LaneOut := outF (w.1, w.2 ||| b) p

theorem laneF_fp {w : Nat × BitVec 6} (b : BitVec 6) (p : Option Word) (h : w.1 < 2 ^ 32) : (laneF w b p).fp = (w.1, w.2 ||| b) := outF_fp p h

section Fused
variable {r : RM} {sat ftz : Bool} {b : BitVec 6} {p : Option Word} {ops : List Num} {l : List Num}

/-- FINITE TERMS in a lane: their exact sum is rounded once, and one of 0 has the sign of R109. -/
theorem laneF_fin (hl : ∀ x ∈ l, x.Fin) (ho : ∀ x ∈ ops, x.Fin) :
    let o := laneF (fused f32 r sat ftz ops (l.map some)) b p
    RoundedTo f32 r sat ftz (l.map Num.rat).sum o.fp b
      ∧ ((l.map Num.rat).sum = 0 → o.vals = [if zeroSign r l then 0x80000000#32 else 0#32]) := by
  obtain ⟨hr, hz⟩ := fused_fin f32 r sat ftz ops hl ho
  refine ⟨?_, fun h0 => ?_⟩
  · rw [laneF_fp b p (f32_sound.fused_lt r sat ftz ops _)]
    simpa using hr.or b
  · rw [laneF, hz h0]
    exact congrArg ([·]) (f32_sign _)

/-- A NaN in a lane (R113, R114), and the flag `NV` when the flush of the operands raises none. -/
theorem laneF_nan {l : List (Option Num)} {g : Bool} {a : BitVec 6} (h : sumNum r l = (.nan g, a)) :
    (laneF (fused f32 r sat ftz ops l) b p).vals = [0x7FC00000#32]
      ∧ (b.getLsbD 0 = false → (laneF (fused f32 r sat ftz ops l) b p).flg.getLsbD 0 = (a.getLsbD 0 || ops.any Num.isSig)) := by
  rw [laneF, fused_eq f32 r sat ftz ops l h]
  refine ⟨rfl, fun hb => ?_⟩
  simp only [outF, Fmt.code, BitVec.getLsbD_or, hb, sigNV_getLsbD, BitVec.getLsbD_zero, Bool.false_or, Bool.or_false]

/-- An infinite sum in a lane (R112). -/
theorem laneF_inf {l : List (Option Num)} {k : Bool} {a : BitVec 6} (h : sumNum r l = (.inf k, a)) :
    (laneF (fused f32 r sat ftz ops l) b p).vals
      = [if sat then (if k then 0xFF7FFFFF#32 else 0x7F7FFFFF#32) else if k then 0xFF800000#32 else 0x7F800000#32] := by
  rw [laneF, fused_eq f32 r sat ftz ops l h]
  exact congrArg ([·]) (f32_infinite sat k)

end Fused

/-- The flush of a subnormal raises `DN` alone. -/
theorem flush_nv (f : Fmt) (ftz : Bool) (x : Nat) : (flush f ftz x).2.getLsbD 0 = false := by
  rw [flush]
  split
  · exact (by decide : flDN.getLsbD 0 = false)
  · exact BitVec.getLsbD_zero

theorem flip_eq (k : Bool) (x : Word × Option Word) : flip k x = (if k then x.1 ^^^ 0x80000000#32 else x.1, x.2) := by cases k <;> rfl

/-- AN INSTRUCTION OF LANES THAT NOTHING STOPS makes what its lanes make. -/
theorem alu_makes {s : State} {i : Instr} {c : Iss} {f : Iss → Nat → LaneOut} {u : DstUse} {P : Nat → LaneOut → Prop} (hs : s.issuing i = some c)
    (hf : i.fixed = true) (hu : i.dst? = some u) (hx : exec i s = alu i s f) (hP : ∀ n < 32, Mask.has c.on n = true → P n (f c n)) :
    ∃ t, exec i s = .next t ∧ Makes t c i P := by
  obtain ⟨t, ht, hsend⟩ := alu_sends (f := f) hs hf hu
  exact ⟨t, hx.trans ht, f c, hsend, hP⟩

theorem flushed_two (c : Iss) (u v : Word × Option Word) (f : List Nat → Nat × BitVec 6) : c.flushed [u, v] f =
    laneF (f [(flush f32 c.g.csr.ftz u.1.toNat).1, (flush f32 c.g.csr.ftz v.1.toNat).1])
      ((flush f32 c.g.csr.ftz u.1.toNat).2 ||| (flush f32 c.g.csr.ftz v.1.toNat).2) (firstPoison [u.2, v.2]) := by
  rw [laneF, ← BitVec.or_assoc]
  rfl

theorem flushed_three (c : Iss) (u v w : Word × Option Word) (f : List Nat → Nat × BitVec 6) : c.flushed [u, v, w] f =
    laneF (f [(flush f32 c.g.csr.ftz u.1.toNat).1, (flush f32 c.g.csr.ftz v.1.toNat).1, (flush f32 c.g.csr.ftz w.1.toNat).1])
      ((flush f32 c.g.csr.ftz u.1.toNat).2 ||| (flush f32 c.g.csr.ftz v.1.toNat).2 ||| (flush f32 c.g.csr.ftz w.1.toNat).2)
      (firstPoison [u.2, v.2, w.2]) := by
  rw [laneF, ← BitVec.or_assoc, ← BitVec.or_assoc]
  rfl

section Lanes
variable (m : RM) (sat ftz : Bool) {b : BitVec 6} (hb : b.getLsbD 0 = false) (p : Option Word) (X Y Z : Num)
include hb

/-- A lane of `FADD` (R109, R112 to R114). -/
theorem faddLane_spec : let o := laneF (fused f32 m sat ftz [X, Y] [some X, some Y]) b p
    (X.isNan || Y.isNan → o.vals = [0x7FC00000#32] ∧ o.flg.getLsbD 0 = (X.isSig || Y.isSig))
      ∧ (∀ k, X = .inf k → Y = .inf (!k) → o.vals = [0x7FC00000#32] ∧ o.flg.getLsbD 0 = true)
      ∧ (∀ k, (X = .inf k ∧ (Y = .inf k ∨ Y.Fin)) ∨ (Y = .inf k ∧ X.Fin) →
          o.vals = [if sat then (if k then 0xFF7FFFFF#32 else 0x7F7FFFFF#32) else if k then 0xFF800000#32 else 0x7F800000#32])
      ∧ (X.Fin → Y.Fin → X.rat + Y.rat ≠ 0 → RoundedTo f32 m sat ftz (X.rat + Y.rat) o.fp b)
      ∧ (X.Fin → Y.Fin → X.rat + Y.rat = 0 → o.vals = [if (if X.neg = Y.neg then X.neg else m = .rd) then 0x80000000#32 else 0#32]) := by
  intro o
  refine ⟨fun hn => ?nan, fun k hx hy => ?invalid, fun k hk => ?inf, fun hx hy _ => ?round, fun hx hy h0 => ?zero⟩
  case nan =>
    have hs : sumNum m [some X, some Y] = (.nan false, 0#6) := sumNum_nan m (l := [X, Y]) (by simpa using hn)
    exact ⟨(laneF_nan hs).1, ((laneF_nan hs).2 hb).trans (by simp)⟩
  case invalid =>
    have hs : sumNum m [some X, some Y] = (.nan false, flNV) := by
      subst hx hy
      cases k <;> rfl
    exact ⟨(laneF_nan hs).1, ((laneF_nan hs).2 hb).trans rfl⟩
  case inf =>
    have hs : sumNum m [some X, some Y] = (.inf k, 0#6) := by
      rcases hk with ⟨rfl, rfl | ⟨n, m, e, rfl⟩⟩ | ⟨rfl, n, m, e, rfl⟩
      · cases k <;> rfl
      · rfl
      · rfl
    exact laneF_inf hs
  case round => simpa using (laneF_fin (l := [X, Y]) (ops := [X, Y]) (by simp [hx, hy]) (by simp [hx, hy])).1
  case zero =>
    have hz := (laneF_fin (r := m) (sat := sat) (ftz := ftz) (b := b) (p := p) (l := [X, Y]) (ops := [X, Y]) (by simp [hx, hy])
      (by simp [hx, hy])).2 (by simpa using h0)
    rwa [zeroSign_two m hx hy h0] at hz

/-- A lane of `FMUL` (R109, R113, R114). -/
theorem fmulLane_spec : let o := laneF (fused f32 m sat ftz [X, Y] [mulNum X Y]) b p
    (X.isNan || Y.isNan → o.vals = [0x7FC00000#32] ∧ o.flg.getLsbD 0 = (X.isSig || Y.isSig))
      ∧ ((X.isInf && Y.isZero) || (X.isZero && Y.isInf) → o.vals = [0x7FC00000#32] ∧ o.flg.getLsbD 0 = true)
      ∧ (X.Fin → Y.Fin → X.rat * Y.rat ≠ 0 → RoundedTo f32 m sat ftz (X.rat * Y.rat) o.fp b)
      ∧ (X.Fin → Y.Fin → X.rat * Y.rat = 0 → o.vals = [if X.neg = Y.neg then 0#32 else 0x80000000#32]) := by
  intro o
  have hfin (hx : X.Fin) (hy : Y.Fin) : RoundedTo f32 m sat ftz (X.rat * Y.rat) o.fp b
      ∧ (X.rat * Y.rat = 0 → o.vals = [if X.neg = Y.neg then 0#32 else 0x80000000#32]) := by
    obtain ⟨q, hq, hqf, hqr, hqn⟩ := mulNum_fin hx hy
    have hl := laneF_fin (r := m) (sat := sat) (ftz := ftz) (b := b) (p := p) (l := [q]) (ops := [X, Y]) (by simp [hqf]) (by simp [hx, hy])
    simp only [List.map_cons, List.map_nil, List.sum_cons, List.sum_nil, add_zero, hqr] at hl
    rw [← hq] at hl
    refine ⟨hl.1, fun h0 => (hl.2 h0).trans ?_⟩
    rw [zeroSign_one m hqf (hqr.trans h0), hqn]
    cases X.neg <;> cases Y.neg <;> rfl
  refine ⟨fun hn => ?nan, fun hi => ?invalid, fun hx hy _ => (hfin hx hy).1, fun hx hy h0 => (hfin hx hy).2 h0⟩
  case nan =>
    have hs : sumNum m [mulNum X Y] = (.nan false, 0#6) := by rw [mulNum_nan hn]; rfl
    exact ⟨(laneF_nan hs).1, ((laneF_nan hs).2 hb).trans (by simp)⟩
  case invalid =>
    have hs : sumNum m [mulNum X Y] = (.nan false, flNV) := by rw [mulNum_invalid hi]; rfl
    exact ⟨(laneF_nan hs).1, ((laneF_nan hs).2 hb).trans rfl⟩

/-- A lane of `FFMA` (R109, R113, R114). -/
theorem ffmaLane_spec : let o := laneF (fused f32 m sat ftz [X, Y, Z] [mulNum X Y, some Z]) b p
    (X.isNan || Y.isNan || Z.isNan → o.vals = [0x7FC00000#32])
      ∧ ((X.isInf && Y.isZero) || (X.isZero && Y.isInf) → o.vals = [0x7FC00000#32] ∧ o.flg.getLsbD 0 = true)
      ∧ (X.Fin → Y.Fin → Z.Fin → X.rat * Y.rat + Z.rat ≠ 0 → RoundedTo f32 m sat ftz (X.rat * Y.rat + Z.rat) o.fp b)
      ∧ (X.Fin → Y.Fin → Z.Fin → X.rat * Y.rat + Z.rat = 0 →
          o.vals = [if (if (X.neg != Y.neg) = Z.neg then Z.neg else m = .rd) then 0x80000000#32 else 0#32]) := by
  intro o
  have hfin (hx : X.Fin) (hy : Y.Fin) (hz : Z.Fin) : RoundedTo f32 m sat ftz (X.rat * Y.rat + Z.rat) o.fp b
      ∧ (X.rat * Y.rat + Z.rat = 0 → o.vals = [if (if (X.neg != Y.neg) = Z.neg then Z.neg else m = .rd) then 0x80000000#32 else 0#32]) := by
    obtain ⟨q, hq, hqf, hqr, hqn⟩ := mulNum_fin hx hy
    have hl := laneF_fin (r := m) (sat := sat) (ftz := ftz) (b := b) (p := p) (l := [q, Z]) (ops := [X, Y, Z]) (by simp [hqf, hz])
      (by simp [hx, hy, hz])
    simp only [List.map_cons, List.map_nil, List.sum_cons, List.sum_nil, add_zero, hqr] at hl
    rw [← hq] at hl
    refine ⟨hl.1, fun h0 => (hl.2 h0).trans ?_⟩
    rw [zeroSign_two m hqf hz (by rw [hqr, h0]), hqn]
    by_cases hs : (X.neg != Y.neg) = Z.neg
    · rw [if_pos hs, if_pos hs, hs]
    · rw [if_neg hs, if_neg hs]
  refine ⟨fun hn => ?nan, fun hi => ?invalid, fun hx hy hz _ => (hfin hx hy hz).1, fun hx hy hz h0 => (hfin hx hy hz).2 h0⟩
  case nan =>
    have hterm : ∃ x ∈ [mulNum X Y, some Z], ∀ y, x = some y → y.isNan = true := by
      rcases Bool.or_eq_true_iff.1 hn with h | h
      · exact ⟨mulNum X Y, by simp, fun y hy => by rw [mulNum_nan h] at hy; exact Option.some.inj hy ▸ rfl⟩
      · exact ⟨some Z, by simp, fun y hy => Option.some.inj hy ▸ h⟩
    exact (laneF_nan (Prod.ext (sumNum_isNan m hterm) rfl)).1
  case invalid =>
    have hs : sumNum m [mulNum X Y, some Z] = (.nan false, flNV) := sumNum_invalid m (by simp [mulNum_invalid hi])
    exact ⟨(laneF_nan hs).1, ((laneF_nan hs).2 hb).trans rfl⟩

end Lanes

/-- Settles O17: what each lane makes, of its operands flushed. -/
theorem floatArithmeticResults : Obligations.FloatArithmeticResults := by
  unfold Obligations.FloatArithmeticResults
  intro s c h neg sat rnd d a b e ftz m src x y y' z N
  have hnv {u v : Nat × BitVec 6} (hu : u.2.getLsbD 0 = false) (hv : v.2.getLsbD 0 = false) : (u.2 ||| v.2).getLsbD 0 = false := by
    rw [BitVec.getLsbD_or, hu, hv]; rfl
  refine ⟨fun hs => ?fadd, fun hs => ?fmul, fun hs => ?ffma⟩
  case fadd =>
    refine alu_makes hs rfl rfl rfl fun n _ _ => ?_
    rw [flip_eq, flushed_two]
    obtain ⟨h1, h2, h3, h4, h5⟩ := faddLane_spec m sat ftz (hnv (flush_nv ..) (flush_nv ..)) (firstPoison [(c.at32 1 a n).2, (c.at32 2 b n).2])
      (N (x n).1) (N (y n).1)
    exact ⟨rfl, rfl, h1, h2, fun k hk => h3 k (hk.imp (And.imp_right (Or.imp_right Fmt.Finite.fin)) (And.imp_right Fmt.Finite.fin)),
      fun hx hy => h4 hx.fin hy.fin, fun hx hy => h5 hx.fin hy.fin⟩
  case fmul =>
    refine alu_makes hs rfl rfl rfl fun n _ _ => ?_
    rw [flip_eq, flushed_two]
    obtain ⟨h1, h2, h3, h4⟩ := fmulLane_spec m sat ftz (hnv (flush_nv ..) (flush_nv ..)) (firstPoison [(c.at32 1 a n).2, (c.at32 2 b n).2])
      (N (x n).1) (N (y n).1)
    exact ⟨rfl, rfl, h1, h2, fun hx hy => h3 hx.fin hy.fin, fun hx hy => h4 hx.fin hy.fin⟩
  case ffma =>
    refine alu_makes hs rfl rfl rfl fun n _ _ => ?_
    rw [flip_eq, flushed_three]
    have hb : ((x n).2 ||| (y' n).2 ||| (z n).2).getLsbD 0 = false := by
      rw [BitVec.getLsbD_or, hnv (flush_nv ..) (flush_nv ..), flush_nv]; rfl
    obtain ⟨h1, h2, h3, h4⟩ := ffmaLane_spec m sat ftz hb (firstPoison [(c.at32 1 a n).2, (c.at32 2 b n).2, (c.at32 3 e n).2])
      (N (x n).1) (N (y' n).1) (N (z n).1)
    exact ⟨rfl, rfl, h1, h2, fun hx hy hz => h3 hx.fin hy.fin hz.fin, fun hx hy hz => h4 hx.fin hy.fin hz.fin⟩

end Sys2Proof.Machine
end

section
/-!
SUPPORT. O18: the order of F32 codes (R115), `FMIN`, `FMAX`, `FCMP` and `FCLASS` (R386, R387, R395).
-/
namespace Sys2Proof.Machine

/-- The place of a code's magnitude on the line of comparisons: infinity lies behind the finite codes. -/
def reach (c : Nat) : ℚ := if c ≤ f32.max then f32.mag c else 2 ^ (2000 : ℤ)

theorem f32_mag_max_lt : f32.mag f32.max < 2 ^ (2000 : ℤ) := by
  calc f32.mag f32.max < 2 ^ (128 : ℤ) := by norm_num [Fmt.mag, Fmt.steps, f32, Fmt.qmin]
    _ ≤ 2 ^ (2000 : ℤ) := zpow_le_zpow_right₀ one_le_two (by decide)

theorem reach_lt_iff {c d : Nat} (hc : c ≤ f32.max + 1) (hd : d ≤ f32.max + 1) : reach c < reach d ↔ c < d := by
  unfold reach
  by_cases h1 : c ≤ f32.max <;> by_cases h2 : d ≤ f32.max
  · rw [if_pos h1, if_pos h2, f32.mag_strictMono.lt_iff_lt]
  · rw [if_pos h1, if_neg h2]
    exact iff_of_true ((f32.mag_strictMono.monotone h1).trans_lt f32_mag_max_lt) (by omega)
  · rw [if_neg h1, if_pos h2]
    exact iff_of_false (not_lt.2 ((f32.mag_strictMono.monotone h2).trans f32_mag_max_lt.le)) (by omega)
  · rw [if_neg h1, if_neg h2]
    exact iff_of_false (lt_irrefl _) (by omega)

theorem reach_nonneg (c : Nat) : 0 ≤ reach c := by
  unfold reach
  split
  · exact f32.mag_nonneg c
  · positivity

/-- Where a code that is no NaN lies, and its sign. -/
theorem f32_place {x : Nat} (hx : (f32.num x).isNan = false) :
    (f32.num x).place = sgn (f32.neg x) * reach (f32.body x) ∧ (f32.num x).neg = f32.neg x ∧ f32.body x ≤ f32.max + 1 := by
  rcases Nat.lt_or_ge f32.max (f32.body x) with hgt | hle
  · rcases f32_sound.num_of_gt hgt with ⟨g, hg⟩ | ⟨hi, hb⟩
    · rw [hg] at hx
      cases hx
    · rw [hi, reach, if_neg (not_le.2 hgt)]
      exact ⟨rfl, rfl, hb.le⟩
  · obtain ⟨m, e, hnum, hmag⟩ := f32_sound.num_of_le hle
    rw [hnum, reach, if_pos hle, ← hmag]
    exact ⟨rat_fin .., rfl, by omega⟩

theorem f32_key (x : Nat) : f32.key x = if f32.neg x then -(f32.body x : Int) - 1 else f32.body x := rfl

/-- THE ORDER OF CODES is that of their values, −0 below +0 (R115). -/
theorem key_lt_iff {x y : Nat} (hx : (f32.num x).isNan = false) (hy : (f32.num y).isNan = false) : f32.key x < f32.key y ↔
    (f32.num x).place < (f32.num y).place
      ∨ (f32.num x).place = (f32.num y).place ∧ (f32.num x).neg = true ∧ (f32.num y).neg = false := by
  obtain ⟨hpx, hnx, hbx⟩ := f32_place hx
  obtain ⟨hpy, hny, hby⟩ := f32_place hy
  have hlt := reach_lt_iff hbx hby
  have hgt := reach_lt_iff hby hbx
  have h0x := reach_nonneg (f32.body x)
  have h0y := reach_nonneg (f32.body y)
  rw [hpx, hpy, hnx, hny, f32_key, f32_key]
  cases f32.neg x <;> cases f32.neg y
  · simp only [sgn, Bool.false_eq_true, if_false, one_mul, false_and, and_false, or_false, hlt, Nat.cast_lt]
  · simp only [sgn, Bool.false_eq_true, if_false, if_true, one_mul, false_and, and_false, or_false]
    exact iff_of_false (by omega) (by linarith)
  · simp only [sgn, Bool.false_eq_true, if_false, if_true, one_mul, and_true]
    exact iff_of_true (by omega) (lt_or_eq_of_le (by linarith))
  · simp only [sgn, if_true, neg_one_mul, neg_lt_neg_iff, hgt, Bool.true_eq_false, and_false, or_false]
    omega

/-- A value at 0 on the line is a zero. -/
theorem isZero_of_place {X : Num} (hX : X.isNan = false) (h0 : X.place = 0) : X.isZero = true := by
  cases X with
  | nan g => cases hX
  | inf n =>
    have h1 : sgn n * (2 : ℚ) ^ (2000 : ℤ) = 0 := h0
    exact absurd h1 (mul_ne_zero (sgn_ne_zero n) (zpow_ne_zero _ two_ne_zero))
  | fin n m e => exact (Num.fin_fin n m e).isZero_iff.2 h0

theorem place_of_isZero {X : Num} (h : X.isZero = true) : X.place = 0 := by
  cases X with
  | nan g => cases h
  | inf n => cases h
  | fin n m e => exact (Num.fin_fin n m e).isZero_iff.1 h

/-- Values of opposite signs at one place are zeros. -/
theorem zeros_of_place_eq {x y : Nat} (hx : (f32.num x).isNan = false) (hy : (f32.num y).isNan = false)
    (h : (f32.num x).place = (f32.num y).place) (hn : (f32.num x).neg = true) (hp : (f32.num y).neg = false) :
    (f32.num x).isZero = true ∧ (f32.num y).isZero = true := by
  obtain ⟨hpx, hnx, -⟩ := f32_place hx
  obtain ⟨hpy, hny, -⟩ := f32_place hy
  have h0x := reach_nonneg (f32.body x)
  have h0y := reach_nonneg (f32.body y)
  have hle : (f32.num x).place ≤ 0 := by rw [hpx, ← hnx, hn]; simpa [sgn] using h0x
  have hge : 0 ≤ (f32.num y).place := by rw [hpy, ← hny, hp]; simpa [sgn] using h0y
  exact ⟨isZero_of_place hx (by linarith), isZero_of_place hy (by linarith)⟩

-- the choices

theorem pick_number {mn : Bool} {x y : Nat} (hx : (f32.num x).isNan = false) (hy : (f32.num y).isNan = false) :
    (f32.key x < f32.key y → f32.pick mn x y = if mn then x else y) ∧ (f32.key y < f32.key x → f32.pick mn x y = if mn then y else x) := by
  unfold Fmt.pick
  rw [hx, hy]
  dsimp only
  constructor
  · intro h
    cases mn <;> simp [h.le]
  · intro h
    cases mn <;> simp [not_le.2 h]

theorem pick_nan {mn : Bool} {x y : Nat} : ((f32.num x).isNan = true → (f32.num y).isNan = true → f32.pick mn x y = f32.qnan)
    ∧ ((f32.num x).isNan = true → (f32.num y).isNan = false → f32.pick mn x y = y)
    ∧ ((f32.num x).isNan = false → (f32.num y).isNan = true → f32.pick mn x y = x) := by
  unfold Fmt.pick
  exact ⟨fun hx hy => by rw [hx, hy], fun hx hy => by rw [hx, hy], fun hx hy => by rw [hx, hy]⟩

/-- A lane of `FMIN` or `FMAX` (R115, R395): `lo` is what it takes of operands in rising order. -/
theorem minMaxLane_spec (mn : Bool) (x y : Nat) {b : BitVec 6} (hb : b.getLsbD 0 = false) (p : Option Word) :
    let o := laneF (minMax mn [x, y]) b p
    let X := f32.num x
    let Y := f32.num y
    o.flg.getLsbD 0 = (X.isSig || Y.isSig)
      ∧ (X.isNan → Y.isNan → o.vals = [0x7FC00000#32]) ∧ (X.isNan → !Y.isNan → o.vals = [BitVec.ofNat 32 y])
      ∧ (!X.isNan → Y.isNan → o.vals = [BitVec.ofNat 32 x])
      ∧ (!X.isNan → !Y.isNan →
        (X.place < Y.place ∨ (X.place = Y.place ∧ X.neg = true ∧ Y.neg = false) → o.vals = [BitVec.ofNat 32 (if mn then x else y)])
        ∧ (Y.place < X.place ∨ (Y.place = X.place ∧ Y.neg = true ∧ X.neg = false) → o.vals = [BitVec.ofNat 32 (if mn then y else x)])) := by
  intro o X Y
  have hval {w : Nat} (h : f32.pick mn x y = w) : o.vals = [BitVec.ofNat 32 w] := congrArg (fun w => [BitVec.ofNat 32 w]) h
  obtain ⟨h1, h2, h3⟩ := pick_nan (mn := mn) (x := x) (y := y)
  simp only [Bool.not_eq_true']
  refine ⟨?_, fun hx hy => hval (h1 hx hy), fun hx hy => hval (h2 hx hy), fun hx hy => hval (h3 hx hy), fun hx hy => ⟨fun hl => ?_, fun hl => ?_⟩⟩
  · have hflg : o.flg = sigNV [X, Y] ||| b := rfl
    rw [hflg, BitVec.getLsbD_or, hb, Bool.or_false, sigNV_getLsbD]
    simp
  · exact hval ((pick_number hx hy).1 ((key_lt_iff hx hy).2 hl))
  · exact hval ((pick_number hx hy).2 ((key_lt_iff hy hx).2 hl))

-- the comparison

/-- The flags of a relation (Table 16.3). -/
def relation (x y : Nat) : BitVec 4 :=
  if [f32.num x, f32.num y].any Num.isNan then fcmpUnordered
  else if [f32.num x, f32.num y].all Num.isZero then fcmpEqual
  else if f32.key x < f32.key y then fcmpLess
  else if f32.key x = f32.key y then fcmpEqual else fcmpGreater

theorem relate_eq (x y : Nat) : relate [x, y] = ((relation x y).toNat, sigNV [f32.num x, f32.num y]) := rfl

theorem relation_unordered {x y : Nat} (h : ((f32.num x).isNan || (f32.num y).isNan) = true) : relation x y = 3#4 := by
  rw [relation, if_pos (by simpa using h)]
  rfl

/-- Two values that are numbers, on the line (R387). -/
theorem relation_numbers {x y : Nat} (hx : (f32.num x).isNan = false) (hy : (f32.num y).isNan = false) :
    ((f32.num x).place < (f32.num y).place → relation x y = 8#4) ∧ ((f32.num x).place = (f32.num y).place → relation x y = 6#4)
      ∧ ((f32.num y).place < (f32.num x).place → relation x y = 2#4) := by
  have hxy := key_lt_iff hx hy
  have hyx := key_lt_iff hy hx
  rw [relation, if_neg (by simp [hx, hy])]
  by_cases hz : [f32.num x, f32.num y].all Num.isZero = true
  · rw [if_pos hz]
    obtain ⟨hzx, hzy⟩ : (f32.num x).isZero = true ∧ (f32.num y).isZero = true := by simpa using hz
    rw [place_of_isZero hzx, place_of_isZero hzy]
    exact ⟨fun h => absurd h (lt_irrefl _), fun _ => rfl, fun h => absurd h (lt_irrefl _)⟩
  · rw [if_neg hz]
    have hsame {u v : Nat} (hu : (f32.num u).isNan = false) (hv : (f32.num v).isNan = false)
        (hnz : ¬ ((f32.num u).isZero = true ∧ (f32.num v).isZero = true)) (he : (f32.num u).place = (f32.num v).place) : ¬ f32.key u < f32.key v := by
      rw [key_lt_iff hu hv, he]
      rintro (h | ⟨-, hn, hp⟩)
      · exact lt_irrefl _ h
      · exact hnz (zeros_of_place_eq hu hv he hn hp)
    have hnz : ¬ ((f32.num x).isZero = true ∧ (f32.num y).isZero = true) := by simpa using hz
    refine ⟨fun h => ?_, fun h => ?_, fun h => ?_⟩
    · rw [if_pos (hxy.2 (.inl h))]
      rfl
    · have h1 := hsame hx hy hnz h
      have h2 := hsame hy hx (fun h' => hnz h'.symm) h.symm
      rw [if_neg h1, if_pos (by omega)]
      rfl
    · have h1 := hyx.2 (.inl h)
      rw [if_neg (by omega), if_neg (by omega)]
      rfl

/-- A lane of `FCMP` (R387). -/
theorem fcmpLane_spec (x y : Nat) {b : BitVec 6} (hb : b.getLsbD 0 = false) (p : Option Word) :
    let o := laneF (relate [x, y]) b p
    let X := f32.num x
    let Y := f32.num y
    o.flg.getLsbD 0 = (X.isSig || Y.isSig)
      ∧ (o.poi = none → (X.isNan || Y.isNan → o.flag.fl = 3#4)
        ∧ (!X.isNan → !Y.isNan → (X.place < Y.place → o.flag.fl = 8#4) ∧ (X.place = Y.place → o.flag.fl = 6#4) ∧ (Y.place < X.place → o.flag.fl = 2#4))) := by
  intro o X Y
  refine ⟨?_, fun hp => ?_⟩
  · have hflg : o.flg = sigNV [X, Y] ||| b := rfl
    rw [hflg, BitVec.getLsbD_or, hb, Bool.or_false, sigNV_getLsbD]
    simp
  · obtain rfl : p = none := hp
    have hfl : o.flag.fl = relation x y := by
      have h : o.flag.fl = (BitVec.ofNat 32 (relation x y).toNat).extractLsb' 0 4 := rfl
      rw [h, ← BitVec.setWidth_eq_extractLsb' (by decide), BitVec.ofNat_toNat, BitVec.setWidth_setWidth_of_le _ (by decide), BitVec.setWidth_eq]
    rw [hfl]
    simp only [Bool.not_eq_true']
    exact ⟨relation_unordered, fun hx hy => relation_numbers hx hy⟩

-- the classes

/-- A subnormal code is a finite value other than 0 (R100). -/
theorem f32_subnormal {x : Nat} (h : f32.subnormal x = true) : ∃ m e, f32.num x = .fin (f32.neg x) m e ∧ m ≠ 0 := by
  obtain ⟨he, hm⟩ : bitsOf x 30 23 = 0 ∧ x % 2 ^ 23 ≠ 0 := by
    rw [Fmt.subnormal, Bool.and_eq_true, decide_eq_true_iff, decide_eq_true_iff] at h
    exact h
  refine ⟨x % 2 ^ 23, -149, ?_, hm⟩
  simp [Fmt.num, f32, he, Fmt.qmin]

theorem f32_num_zero (n : Bool) : f32.num (if n then 0x80000000 else 0) = .fin n 0 (-149) := by cases n <;> rfl

/-- The codes of the two zeros. -/
theorem f32_zero_iff {x : Nat} (hx : x < 2 ^ 32) {n : Bool} {m : Nat} {e : Int} (h : f32.num x = .fin n m e) :
    m = 0 ↔ x = if n then 0x80000000 else 0 := by
  constructor
  · rintro rfl
    have hbody := (f32_sound.finite_iff.1 ⟨hx, n, 0, e, h⟩).2
    obtain ⟨m, d, hnum, hmag⟩ := f32_sound.num_of_le hbody
    obtain ⟨rfl, rfl, rfl⟩ := Num.fin.inj (hnum.symm.trans h)
    rw [Nat.cast_zero, zero_mul, ← f32.mag_zero] at hmag
    have h0 : x % 2 ^ 31 = 0 := (f32.mag_strictMono.injective hmag).symm
    obtain rfl | rfl : x = 0 ∨ x = 0x80000000 := by omega
    · rfl
    · rfl
  · rintro rfl
    exact (Num.fin.inj ((f32_num_zero n).symm.trans h)).2.1.symm

/-- The class of a code (R386, Table 16.2). -/
theorem classBit_spec {w : Nat} (hw : w < 2 ^ 32) : let V := f32.num w
    classBit w < 10 ∧ (classBit w = 0 ↔ V = .inf true) ∧ (classBit w = 7 ↔ V = .inf false) ∧ (classBit w = 3 ↔ w = 0x80000000)
      ∧ (classBit w = 4 ↔ w = 0) ∧ (classBit w = 2 ↔ f32.subnormal w ∧ V.neg) ∧ (classBit w = 5 ↔ f32.subnormal w ∧ V.neg = false)
      ∧ (classBit w = 8 ↔ V.isSig) ∧ (classBit w = 9 ↔ V.isNan ∧ V.isSig = false) := by
  have hneg (hn : (f32.num w).isNan = false) := (f32_place hn).2.1
  have h80 : w = 0x80000000 → f32.num w = .fin true 0 (-149) := fun h => h ▸ f32_num_zero true
  have h00 : w = 0 → f32.num w = .fin false 0 (-149) := fun h => h ▸ f32_num_zero false
  have hsub := fun h => f32_subnormal (x := w) h
  unfold classBit
  cases hV : f32.num w with
  | nan g =>
    simp only [hV] at h80 h00 hsub
    cases g <;> simp_all [Num.isSig, Num.isNan]
  | inf n =>
    simp only [hV] at h80 h00 hsub hneg
    have hn : f32.neg w = n := (hneg rfl).symm
    cases n <;> simp_all [Num.isSig, Num.isNan, Num.neg]
  | fin n m e =>
    simp only [hV] at h80 h00 hsub hneg
    have hn : f32.neg w = n := (hneg rfl).symm
    have hz := f32_zero_iff hw hV
    by_cases hm : m = 0
    · have hs : f32.subnormal w = false := by
        by_contra hs
        obtain ⟨k, d, hk, hk0⟩ := hsub (by simpa using hs)
        exact hk0 ((Num.fin.inj hk).2.1 ▸ hm)
      have hw0 := hz.1 hm
      cases n <;> simp_all [Num.isSig, Num.isNan, Num.neg]
    · have h1 : w ≠ 0x80000000 := fun h => hm (Num.fin.inj (h80 h)).2.1
      have h2 : w ≠ 0 := fun h => hm (Num.fin.inj (h00 h)).2.1
      cases n <;> cases f32.subnormal w <;> simp [hm, hn, h1, h2, Num.isSig, Num.isNan, Num.neg]

/-- Settles O18: the choices by the order of the codes, the comparison by the places of the values, `FCLASS` by the class of the code. -/
theorem floatCompareResults : Obligations.FloatCompareResults := by
  unfold Obligations.FloatCompareResults
  intro s c h d a b ftz x y X Y below above common
  have hnv (n : Nat) : ((flush f32 ftz (c.at32 1 a n).1.toNat).2 ||| (flush f32 ftz (c.at32 2 b n).1.toNat).2).getLsbD 0 = false := by
    rw [BitVec.getLsbD_or, flush_nv, flush_nv]; rfl
  refine ⟨fun hs => ?fmin, fun hs => ?fmax, fun hs => ?fcmp, fun hs => ?fclass⟩
  case fmin =>
    refine alu_makes hs rfl rfl rfl fun n _ _ => ?_
    rw [flushed_two]
    obtain ⟨h1, h2, h3, h4, h5⟩ := minMaxLane_spec true (x n) (y n) (hnv n) (firstPoison [(c.at32 1 a n).2, (c.at32 2 b n).2])
    exact ⟨⟨rfl, h1⟩, h2, h3, h4, fun hx hy => ⟨(h5 hx hy).1, fun ha => (h5 hx hy).2 (ha.imp_right fun h => ⟨h.1.symm, h.2.2, h.2.1⟩)⟩⟩
  case fmax =>
    refine alu_makes hs rfl rfl rfl fun n _ _ => ?_
    rw [flushed_two]
    obtain ⟨h1, h2, h3, h4, h5⟩ := minMaxLane_spec false (x n) (y n) (hnv n) (firstPoison [(c.at32 1 a n).2, (c.at32 2 b n).2])
    exact ⟨⟨rfl, h1⟩, h2, h3, h4, fun hx hy => ⟨(h5 hx hy).1, fun ha => (h5 hx hy).2 (ha.imp_right fun h => ⟨h.1.symm, h.2.2, h.2.1⟩)⟩⟩
  case fcmp =>
    refine alu_makes hs rfl rfl rfl fun n _ _ => ?_
    rw [flushed_two]
    obtain ⟨h1, h2⟩ := fcmpLane_spec (x n) (y n) (hnv n) (firstPoison [(c.at32 1 a n).2, (c.at32 2 b n).2])
    exact ⟨⟨rfl, h1⟩, h2⟩
  case fclass =>
    refine alu_makes hs rfl rfl rfl fun n _ _ => ?_
    obtain ⟨hlt, hclass⟩ := classBit_spec (c.at32 1 a n).1.isLt
    exact ⟨rfl, rfl, classBit _, rfl, hlt, hclass⟩

end Sys2Proof.Machine
end

section
/-!
SUPPORT. O43: what the atomic operations compute (R124, R125, R127, R128, R342, R348).
-/
namespace Sys2Proof.Machine

-- ATOM and RED

/-- An operation's value depends on its operands' bits alone. -/
theorem atomOp_ofNat (op : Aop) (n x y : Nat) : atomOp op n (BitVec.ofNat n x).toNat (BitVec.ofNat n y).toNat = atomOp op n x y := by
  unfold atomOp
  rw [BitVec.ofNat_toNat, BitVec.ofNat_toNat, BitVec.setWidth_eq, BitVec.setWidth_eq]

theorem pick_lt {mn : Bool} {a b n : Nat} (hn : 32 ≤ n) (ha : a < 2 ^ n) (hb : b < 2 ^ n) : f32.pick mn a b < 2 ^ n := by
  have hq : f32.qnan < 2 ^ n := (by decide : f32.qnan < 2 ^ 32).trans_le (Nat.pow_le_pow_right (by decide) hn)
  unfold Fmt.pick
  split
  · exact hq
  · exact hb
  · exact ha
  · split
    · exact ha
    · exact hb

/-- An operation on floating-point values makes a value of its size (R127, R128). -/
theorem atomOp_float_lt {op : Aop} (h : op = .fadd ∨ op = .fmin ∨ op = .fmax) {n : Nat} (hn : 32 ≤ n) (x y : Nat) : atomOp op n x y < 2 ^ n := by
  rcases h with rfl | rfl | rfl
  · exact (f32_sound.fused_lt .rn false false [] _).trans_le (Nat.pow_le_pow_right (by decide) hn)
  · exact pick_lt hn (BitVec.isLt _) (BitVec.isLt _)
  · exact pick_lt hn (BitVec.isLt _) (BitVec.isLt _)

theorem atomOp_is (op : Aop) {n : Nat} (hn : 32 ≤ n) (x y : Nat) : AtomIs op (BitVec.ofNat n x) (BitVec.ofNat n y) (BitVec.ofNat n (atomOp op n x y)) := by
  have hself (b : BitVec n) : BitVec.ofNat n b.toNat = b := by rw [BitVec.ofNat_toNat, BitVec.setWidth_eq]
  cases op with
  | add | and | or | xor | exch => exact hself _
  | min =>
    simp only [AtomIs, atomOp]
    split
    · rename_i h
      rw [hself, min_eq_left h]
    · rename_i h
      rw [hself, min_eq_right (not_le.1 h).le]
  | max =>
    simp only [AtomIs, atomOp]
    split
    · rename_i h
      rw [hself, max_eq_left h]
    · rename_i h
      rw [hself, max_eq_right (not_le.1 h).le]
  | umin => exact (BitVec.toNat_ofNat ..).trans (Nat.mod_eq_of_lt ((min_le_left _ _).trans_lt (BitVec.isLt _)))
  | umax => exact (BitVec.toNat_ofNat ..).trans (Nat.mod_eq_of_lt (max_lt (BitVec.isLt _) (BitVec.isLt _)))
  | fadd =>
    simp only [AtomIs]
    rw [atomOp_ofNat, BitVec.toNat_ofNat, Nat.mod_eq_of_lt (atomOp_float_lt (by simp) hn x y)]
  | fmin =>
    simp only [AtomIs]
    rw [atomOp_ofNat, BitVec.toNat_ofNat, Nat.mod_eq_of_lt (atomOp_float_lt (by simp) hn x y)]
  | fmax =>
    simp only [AtomIs]
    rw [atomOp_ofNat, BitVec.toNat_ofNat, Nat.mod_eq_of_lt (atomOp_float_lt (by simp) hn x y)]

-- ACAS

theorem leBytes_leNat (l : List Byte) : leBytes l.length (leNat l) = l := by
  induction l with
  | nil => rfl
  | cons b l ih =>
    have h1 : (b.toNat + 256 * leNat l) / 256 = leNat l := by have := b.isLt; omega
    rw [List.length_cons, leNat, leBytes, h1, ih]
    congr 1
    refine BitVec.eq_of_toNat_eq ?_
    rw [BitVec.toNat_ofNat]
    have := b.isLt
    omega

theorem length_flatMap_leBytes (l : Lanes) : (l.flatMap fun e => leBytes 4 e.val.toNat).length = 4 * l.length := by
  induction l with
  | nil => rfl
  | cons e l ih => rw [List.flatMap_cons, List.length_append, ih, leBytes_length, List.length_cons]; omega

theorem storeBytesOf_length {n : Nat} {l : Lanes} (h : n = 4 * l.length) : (storeBytesOf n l).length = n := by
  rw [storeBytesOf, List.length_take, length_flatMap_leBytes, h, min_self]

theorem storeBytesOf_append {n : Nat} {x : Lanes} (y : Lanes) (h : n = 4 * x.length) : storeBytesOf n (x ++ y) = storeBytesOf n x := by
  rw [storeBytesOf, storeBytesOf, List.flatMap_append, List.take_append_of_le_length (by rw [length_flatMap_leBytes, h])]

/-- `ACAS` on a location of clean bytes (R342). -/
theorem rmw_acas {w64 : Bool} {x y : Lanes} (old : List Byte) (hx : x.length = (if w64 then 8 else 4) / 4) (hy : y.length = (if w64 then 8 else 4) / 4) :
    rmw (.acas w64) (x ++ y) old none
      = if leNat old = leNat (storeBytesOf (if w64 then 8 else 4) x) then some (storeBytesOf (if w64 then 8 else 4) y) else none := by
  have h4 : (if w64 then 8 else 4) = 4 * ((if w64 then 8 else 4) / 4) := by cases w64 <;> rfl
  have hdrop : (x ++ y).drop ((if w64 then 8 else 4) / 4) = y := by rw [← hx, List.drop_left]
  have hlen := storeBytesOf_length (n := if w64 then 8 else 4) (l := y) (by rw [hy, ← h4])
  simp only [rmw, atomBytes, Option.isNone_none, Bool.true_and, List.drop_zero, decide_eq_true_eq]
  rw [storeBytesOf_append y (by rw [hx, ← h4]), hdrop]
  conv_lhs => enter [2, 1, 1]; rw [← hlen]
  rw [leBytes_leNat]

-- XADD

/-- A number with a bit that it lacks. -/
theorem testBit_add_two_pow {c n : Nat} (h : c.testBit n = false) (j : Nat) : (c + 2 ^ n).testBit j = (c.testBit j || j == n) := by
  have hb : c % 2 ^ (n + 1) < 2 ^ n := by
    refine Nat.lt_pow_two_of_testBit _ fun i hi => ?_
    rw [Nat.testBit_mod_two_pow]
    rcases hi.eq_or_lt with rfl | hi
    · rw [h, Bool.and_false]
    · rw [decide_eq_false (by omega), Bool.false_and]
  have hc : c = 2 ^ (n + 1) * (c / 2 ^ (n + 1)) + c % 2 ^ (n + 1) := (Nat.div_add_mod ..).symm
  have hb' : 2 ^ n + c % 2 ^ (n + 1) < 2 ^ (n + 1) := by rw [Nat.pow_succ] at *; omega
  have hsum : c + 2 ^ n = 2 ^ (n + 1) * (c / 2 ^ (n + 1)) + (2 ^ n + c % 2 ^ (n + 1)) := by omega
  rw [hsum, Nat.testBit_two_pow_mul_add _ hb']
  conv_rhs => rw [hc, Nat.testBit_two_pow_mul_add _ (hb.trans (Nat.pow_lt_pow_succ (by decide)))]
  rcases lt_trichotomy j n with hj | rfl | hj
  · rw [if_pos (by omega), if_pos (by omega), Nat.testBit_two_pow_add_gt hj]
    simp [hj.ne]
  · rw [if_pos (by omega), if_pos (by omega), Nat.testBit_two_pow_add_eq, Nat.testBit_lt_two_pow hb]
    simp
  · rw [if_neg (by omega), if_neg (by omega)]
    simp [hj.ne']

theorem testBit_cellSet (cell n j : Nat) : (cellSet cell n).testBit j = (cell.testBit j || j == n) := by
  unfold cellSet
  split
  · rename_i h
    by_cases hj : j = n
    · simp [hj, h]
    · simp [hj]
  · rename_i h
    exact testBit_add_two_pow (by simpa using h) j

/-- A number's low bits exchanged for those of an integer that fits them. -/
theorem toInt_low {W : Nat} (hW : 0 < W) (a : Nat) {z : Int} (hlo : -2 ^ (W - 1) ≤ z) (hhi : z < 2 ^ (W - 1)) :
    (BitVec.ofNat W (a / 2 ^ W * 2 ^ W + (z % 2 ^ W).toNat)).toInt = z
      ∧ (a / 2 ^ W * 2 ^ W + (z % 2 ^ W).toNat) / 2 ^ W = a / 2 ^ W := by
  have hpos : (0 : Int) < 2 ^ W := by positivity
  have hlt : (z % 2 ^ W).toNat < 2 ^ W := by
    have h1 := Int.emod_lt_of_pos z hpos
    have h2 := Int.emod_nonneg z hpos.ne'
    zify
    rw [Int.toNat_of_nonneg h2]
    exact h1
  constructor
  · have : BitVec.ofNat W (a / 2 ^ W * 2 ^ W + (z % 2 ^ W).toNat) = BitVec.ofInt W z := by
      refine BitVec.eq_of_toNat_eq ?_
      rw [BitVec.toNat_ofNat, BitVec.toNat_ofInt, Nat.mul_add_mod_self_right, Nat.mod_eq_of_lt hlt]
      push_cast
      rfl
    rw [this, BitVec.toInt_ofInt_eq_self hW hlo hhi]
  · rw [Nat.add_comm, Nat.add_mul_div_right _ _ (Nat.two_pow_pos W), Nat.div_eq_of_lt hlt, Nat.zero_add]

theorem qmin_fmtOf (ty : XTy) : -149 ≤ (fmtOf ty).qmin := by cases ty <;> decide

theorem fmtOf_sound (ty : XTy) : (fmtOf ty).Sound := by
  cases ty
  exacts [f32_sound, f16_sound, bf16_sound]

/-- A finite addend in units of 2^-149 (R124). -/
theorem addend_units {ty : XTy} {x : Nat} {n : Bool} {m : Nat} {e : Int} (h : (fmtOf ty).num x = .fin n m e) :
    (((Num.fin n m e).at (-149) : Int) : ℚ) = (fmtOf ty).rat x * 2 ^ 149 := by
  obtain ⟨-, -, hq, -⟩ := (fmtOf_sound ty).bounds_of_num h
  have hat := (Num.fin_fin n m e).at_rat (q := -149) ((qmin_fmtOf ty).trans hq)
  rw [Fmt.rat, h, ← hat, mul_assoc, zpow_neg]
  have h2 : ((2 : ℚ) ^ (149 : ℤ))⁻¹ * 2 ^ 149 = 1 := inv_mul_cancel₀ (by positivity)
  rw [h2, mul_one]

theorem cellAdd_fin {f : Fmt} {cell : Nat} {w : Word} {n : Bool} {m : Nat} {e : Int} (h : f.num (w.toNat % 2 ^ f.width) = .fin n m e) {z : Int}
    (hz : cellVal cell + (Num.fin n m e).at (-149) = z) (hlo : -(2 ^ 495) ≤ z) (hhi : z < 2 ^ 495) :
    cellAdd f cell (clean w) = cell / 2 ^ 496 * 2 ^ 496 + (z % 2 ^ 496).toNat := by
  have hsmall : (decide (z < -(2 ^ 495)) || decide (2 ^ 495 ≤ z)) = false := by
    rw [decide_eq_false (not_lt.2 hlo), decide_eq_false (not_le.2 hhi)]
    rfl
  unfold cellAdd
  rw [show (clean w).poi = false from rfl, if_neg Bool.false_ne_true, show (clean w).val = w from rfl, h]
  dsimp only
  rw [hz, hsmall, if_neg Bool.false_ne_true]
  rfl

/-- An infinite addend sets its flag (R124). -/
theorem cellAdd_inf {f : Fmt} {cell : Nat} {w : Word} {n : Bool} (h : f.num (w.toNat % 2 ^ f.width) = .inf n) :
    cellAdd f cell (clean w) = cellSet cell (if n then 498 else 497) := by
  simp only [cellAdd, clean, h, Bool.false_eq_true, if_false]

/-- A NaN sets its flag (R124). -/
theorem cellAdd_nan {f : Fmt} {cell : Nat} {w : Word} {n : Bool} (h : f.num (w.toNat % 2 ^ f.width) = .nan n) :
    cellAdd f cell (clean w) = cellSet cell 496 := by
  simp only [cellAdd, clean, h, Bool.false_eq_true, if_false]

/-- A finite addend whose sum fits (R124). -/
theorem cellAdd_exact {ty : XTy} {cell : Nat} {w : Word} (hf : (fmtOf ty).Finite (w.toNat % 2 ^ (fmtOf ty).width))
    (hlo : -(2 : ℚ) ^ 495 ≤ cellVal cell + (fmtOf ty).rat (w.toNat % 2 ^ (fmtOf ty).width) * 2 ^ 149)
    (hhi : cellVal cell + (fmtOf ty).rat (w.toNat % 2 ^ (fmtOf ty).width) * 2 ^ 149 < 2 ^ 495) :
    (cellVal (cellAdd (fmtOf ty) cell (clean w)) : ℚ) = cellVal cell + (fmtOf ty).rat (w.toNat % 2 ^ (fmtOf ty).width) * 2 ^ 149
      ∧ cellAdd (fmtOf ty) cell (clean w) / 2 ^ 496 = cell / 2 ^ 496 := by
  obtain ⟨-, n, m, e, hnum⟩ := hf
  obtain ⟨z, hz⟩ : ∃ z, cellVal cell + (Num.fin n m e).at (-149) = z := ⟨_, rfl⟩
  have hsum : (cellVal cell : ℚ) + (fmtOf ty).rat (w.toNat % 2 ^ (fmtOf ty).width) * 2 ^ 149 = z := by
    rw [← addend_units hnum, ← hz]
    push_cast
    rfl
  rw [hsum] at hlo hhi ⊢
  have hlo' : -(2 ^ 495) ≤ z := by exact_mod_cast hlo
  have hhi' : z < 2 ^ 495 := by exact_mod_cast hhi
  obtain ⟨h1, h2⟩ := toInt_low (W := 496) (by decide) cell hlo' hhi'
  rw [cellAdd_fin hnum hz hlo' hhi', cellVal, h1]
  exact ⟨rfl, h2⟩

/-- A number below 2^496 has none of the flags of a cell. -/
theorem cellF32_unflagged {cell : Nat} (h : cell < 2 ^ 496) : cellF32 cell = (f32.round .rn false false (cellVal cell < 0) (cellVal cell).natAbs (-149)).1 := by
  have hbit (j : Nat) (hj : 496 ≤ j) : cell.testBit j = false := Nat.testBit_lt_two_pow (h.trans_le (Nat.pow_le_pow_right (by decide) hj))
  unfold cellF32
  rw [hbit 496 le_rfl, hbit 497 (by decide), hbit 498 (by decide), hbit 500 (by decide)]
  rfl

/-- Settles O43: each operation by its own lemma. -/
theorem atomicArithmetic : Obligations.AtomicArithmetic := by
  unfold Obligations.AtomicArithmetic
  refine ⟨fun op n x y hn => ?atom, fun w64 x y old => ?acas, fun ty cell w => ?xadd, fun cell hc => ?xrd⟩
  case atom => exact atomOp_is op (by omega) x y
  case acas =>
    intro n _ hx hy
    exact ⟨fun he => (rmw_acas old hx hy).trans (if_pos he), fun he => (rmw_acas old hx hy).trans (if_neg he)⟩
  case xadd =>
    intro f x sum
    exact ⟨cellAdd_exact, fun n hn j => by rw [cellAdd_inf hn, testBit_cellSet], fun n hn j => by rw [cellAdd_nan hn, testBit_cellSet]⟩
  case xrd =>
    refine ⟨_, _, _, (rat_signed (cellVal cell) (-149)).trans ?_, cellF32_unflagged hc⟩
    rw [zpow_neg, div_eq_mul_inv]
    rfl

end Sys2Proof.Machine
end

section
/-!
SUPPORT. The matrix unit (R121, R122, R133, R135, R146): what one element of an `MMA` is, and what the completion of an operation leaves of
the teams and of memory.
-/
namespace Sys2Proof.Machine

-- one element

theorem foldl_add_eq_sum {M : Type} [AddCommMonoid M] (f : Nat → M) (n : Nat) (a : M) : (List.range n).foldl (fun s k => s + f k) a = a + ∑ k ∈ Finset.range n, f k := by
  induction n with
  | zero => simp
  | succ n ih => rw [List.range_succ, List.foldl_append, ih, Finset.sum_range_succ, ← add_assoc]; rfl

theorem sum_map_range (f : Nat → ℚ) (n : Nat) : ((List.range n).map f).sum = ∑ k ∈ Finset.range n, f k := by
  induction n with
  | zero => rfl
  | succ n ih => rw [List.range_succ, List.map_append, List.sum_append, ih, Finset.sum_range_succ]; simp

section Element
variable (a b : MTy) (x sx y sy : List Elem)

theorem sumOf_int (h : a.int = true) (acc : Word) :
    sumOf a b x sx y sy acc = BitVec.ofInt 32 (acc.toNat + ∑ k ∈ Finset.range 512, intAt a x k * intAt b y k) := by
  rw [sumOf, if_pos h, foldl_add_eq_sum fun k => intAt a x k * intAt b y k]

/-- An accumulator after the first chunks of a row. -/
def chunks (acc c : Nat) : Nat := (List.range c).foldl (addChunk a b x sx y sy) acc

theorem chunks_succ (acc c : Nat) : chunks a b x sx y sy acc (c + 1) = addChunk a b x sx y sy (chunks a b x sx y sy acc c) c := by
  rw [chunks, List.range_succ, List.foldl_append]
  rfl

theorem sumOf_float (h : a.int = false) (acc : Word) : sumOf a b x sx y sy acc = BitVec.ofNat 32 (chunks a b x sx y sy acc.toNat 8) := by
  rw [sumOf, h, if_neg Bool.false_ne_true, chunks]

/-- The products of pairs of finite values, as terms of a sum. -/
theorem products_fin {u v : Nat → Num} {n : Nat} (hu : ∀ k < n, (u k).Fin) (hv : ∀ k < n, (v k).Fin) : ∃ p : Nat → Num,
    (List.range n).map (fun k => mulNum (u k) (v k)) = ((List.range n).map p).map some ∧ (∀ x ∈ (List.range n).map p, x.Fin)
      ∧ (((List.range n).map p).map Num.rat).sum = ∑ k ∈ Finset.range n, (u k).rat * (v k).rat := by
  have : Nonempty Num := ⟨.nan false⟩
  choose! p hp hfin hrat _ using fun k (hk : k < n) => mulNum_fin (hu k hk) (hv k hk)
  refine ⟨p, ?_, fun x hx => ?_, ?_⟩
  · rw [List.map_map]
    exact List.map_congr_left fun k hk => hp k (List.mem_range.1 hk)
  · obtain ⟨k, hk, rfl⟩ := List.mem_map.1 hx
    exact hfin k (List.mem_range.1 hk)
  · rw [List.map_map, ← sum_map_range]
    exact congrArg List.sum (List.map_congr_left fun k hk => hrat k (List.mem_range.1 hk))

/-- The exact sum of the products of pairs of finite values. -/
theorem sumNum_products (r : RM) {u v : Nat → Num} {n : Nat} (hu : ∀ k < n, (u k).Fin) (hv : ∀ k < n, (v k).Fin) :
    ∃ w, sumNum r ((List.range n).map fun k => mulNum (u k) (v k)) = (w, 0#6) ∧ w.Fin ∧ w.rat = ∑ k ∈ Finset.range n, (u k).rat * (v k).rat := by
  obtain ⟨p, hterms, hfin, hsum⟩ := products_fin hu hv
  obtain ⟨s, m, e, hs, hv, -⟩ := sumFin_exact r hfin
  refine ⟨_, by rw [hterms, sumNum_fin r hfin], hs ▸ Num.fin_fin s m e, ?_⟩
  rw [hs, hv, hsum]

/-- One chunk of finite values is added to a finite accumulator with one rounding (R121, R122). -/
theorem addChunk_fin {acc : Nat} (hacc : f32.Finite acc) (c : Nat) (hx : ∀ k < 512 / a.bits, (floatAt a x sx (c * (512 / a.bits) + k)).Fin)
    (hy : ∀ k < 512 / a.bits, (floatAt b y sy (c * (512 / a.bits) + k)).Fin) :
    ∃ n u e, (Num.fin n u e).rat = f32.rat acc + ∑ k ∈ Finset.range (512 / a.bits),
        (floatAt a x sx (c * (512 / a.bits) + k)).rat * (floatAt b y sy (c * (512 / a.bits) + k)).rat
      ∧ addChunk a b x sx y sy acc c = (f32.round .rn false false n u e).1 := by
  obtain ⟨w, hw, hf, hr⟩ := sumNum_products .rn hx hy
  have hl : ∀ z ∈ [f32.num acc, w], z.Fin := by simpa using ⟨hacc.fin, hf⟩
  obtain ⟨n, u, e, hv, hout, -⟩ := (fused_fin f32 .rn false false [] hl nofun).1
  refine ⟨n, u, e, ?_, ?_⟩
  · rw [hv, ← hr]
    simp [Fmt.rat]
  · rw [addChunk, hw, ← hout]
    rfl

theorem mmaElem_poisoned {e acc : Elem} (h : (poisonOrder a x sx ++ poisonOrder b y sy ++ [acc]).find? Elem.poi = some e) :
    mmaElem a b x sx y sy acc = e := by rw [mmaElem, h]

theorem mmaElem_clean {acc : Elem} (h : (poisonOrder a x sx ++ poisonOrder b y sy ++ [acc]).find? Elem.poi = none) :
    mmaElem a b x sx y sy acc = clean (sumOf a b x sx y sy acc.val) := by rw [mmaElem, h]

end Element

-- the words of an accumulator

theorem find_map_range' {α : Type} (f : Nat → α) (n : Nat) {a k : Nat} (h : a ≤ k) (hk : k < a + n) :
    AMap.find ((List.range' a n).map fun k => (k, f k)) k = some (f k) := by
  induction n generalizing a with
  | zero => omega
  | succ n ih =>
    rw [List.range'_succ, List.map_cons, AMap.find]
    by_cases hka : a = k
    · rw [if_pos hka, hka]
    · rw [if_neg hka, if_neg (by omega), ih (by omega) (by omega)]

theorem cellAt_map_range (f : Nat → Elem) {n k : Nat} (hk : k < n) : cellAt ((List.range n).map fun k => (k, f k)) k = f k := by
  rw [cellAt, AMap.findD, List.range_eq_range', find_map_range' f n (Nat.zero_le k) (by omega)]
  rfl

theorem anyOf_nil {α : Type} (n : Nat) (x : α) : anyOf n [] x = x := rfl

theorem getD_map_range {α : Type} (f : Nat → α) (x : α) {n k : Nat} (hk : k < n) : ((List.range n).map f).getD k x = f k := by
  simp [hk]

/-- What an `MMA` whose operands have stood since its start makes of one word (R121, R133, R135). -/
theorem mmaWords_at (n : Nat) (t : Team) {q : MxOp} (hw : q.words = []) (ht : q.tiles = []) (m : OpMap) (a b : MTy) (tile acc : AMap Elem)
    {i j : Nat} (hi : i < 32) (hj : j < 64) :
    cellAt (mmaWords n t q m a b tile acc) (64 * i + j) =
      mmaElem a b ((List.range 128).map fun k => (t.word (m.wordOf i k)).elem) ((List.range 8).map fun k => (t.word ((m.ascl + 32 * i) / 4 + k)).elem)
        ((List.range 128).map fun k => cellAt tile (128 * j + k)) ((List.range 8).map fun k => (t.word ((m.bscl + 32 * j) / 4 + k)).elem)
        (cellAt acc (64 * i + j)) := by
  have hrow : (64 * i + j) / 64 = i := by omega
  have hcol : (64 * i + j) % 64 = j := by omega
  rw [mmaWords]
  dsimp only
  rw [cellAt_map_range _ (by omega), hrow, hcol, getD_map_range _ _ hi, getD_map_range _ _ hj, hw, ht]
  rfl

-- what the end of an operation leaves

/-- An act that ends an operation: on operations, queues of the unit, groups and steps to come. -/
def Act.Ends : Act → Prop
  | .op .. | .mx .. | .group .. | .free _ | .timers _ | .agenda _ => True
  | _ => False

theorem Eff.Only.ends_teams {e : Eff} (h : e.Only Act.Ends) : e.Keeps State.teams := h.keeps fun a ha s => by
  cases a with
  | team => exact ha.elim
  | _ => rfl

theorem Eff.Only.ends_mem {e : Eff} (h : e.Only Act.Ends) : e.Keeps State.mem := h.keeps fun a ha s => by
  cases a with
  | hgone | byte | bad => exact ha.elim
  | _ => rfl

theorem ends_upGroup (k : Nat) (f : Group → Group) : (upGroup k f).Only Act.Ends := ⟨fun s a ha => by
  unfold upGroup at ha
  split at ha
  · exact List.mem_singleton.1 ha ▸ trivial
  · exact nomatch ha⟩

theorem ends_upMx (k : Nat) (f : List MxOp → List MxOp) : (upMx k f).Only Act.Ends := ⟨fun s a ha => by
  unfold upMx at ha
  split at ha
  · exact List.mem_singleton.1 ha ▸ trivial
  · exact nomatch ha⟩

theorem ends_soon (i : Instr) : (soon i).Only Act.Ends := only_on fun _ => only_act trivial

theorem ends_lookAt (frame t : Nat) : (lookAt frame t).Only Act.Ends := only_on fun _ => only_when (only_ite (ends_soon _) (only_on fun _ => only_act trivial))

theorem ends_deliver (gid t : Nat) (l : List Pend) : (deliver gid t l).Only Act.Ends := only_on fun _ =>
  only_andThen (ends_upGroup ..) (only_ite (only_each fun _ => only_when (only_act trivial)) only_skip)

theorem ends_retireOp (gid id : Nat) : (retireOp gid id).Only Act.Ends :=
  only_seqs_cons (ends_upGroup ..) <| only_seqs_cons (only_on fun _ => by
    split
    · split
      · exact only_when (only_freely (fun _ => trivial) fun _ => only_on fun _ => only_act trivial)
      · exact only_skip
    · exact only_skip) <| only_seqs_cons (only_on fun _ => by
    split
    · exact only_when (ends_soon _)
    · exact only_skip) <| only_seqs_cons (only_on fun _ => by
    split
    · exact only_when (ends_soon _)
    · exact only_skip) only_seqs_nil

theorem ends_mxEnds (id : Nat) (o : Op) : (mxEnds id o).Only Act.Ends := only_on fun _ =>
  only_seqs_cons (ends_upMx ..) <| only_seqs_cons (only_act trivial) <| only_seqs_cons (ends_retireOp ..) <| only_seqs_cons (ends_lookAt ..) only_seqs_nil

theorem ends_upMmas (frame : Nat) (p : Op → Bool) (f : Op → MxOp → MxOp) : (upMmas frame p f).Only Act.Ends := only_on fun _ => ends_upMx ..

theorem ends_noteAccum (o : Op) (old : AMap Elem) : (noteAccum o old).Only Act.Ends := ends_upMmas ..

theorem accum_put (t : Team) (x : Nat) (w : AMap Elem) : ({ t with accs := t.accs.put (x - 32) w } : Team).accum x = w := by
  rw [Team.accum, AMap.findD, AMap_find_put_self]
  rfl

/-- The step of a started `MMA` of a running unit in its completion clock: what it writes, and its end (R139, R140). -/
theorem matrixOpComplete_mma {s : State} {id : Nat} {o : Op} {q : MxOp} {h : Head} {d : Dst} {a b : Src} (ho : s.ops.find id = some o)
    (hi : o.ins = .mma h d a b) (hq : s.mxq.find o.frame = some [q]) (hid : q.op = id) (hs : q.start.isSome = true) (hf : q.finish ≤ s.now)
    (hc : ∀ x, s.ctxs.find o.ctx = some x → x.run = .resident) :
    ∃ e : Eff, e.Only Act.Ends ∧ exec (.matrixOpComplete id) s = .next (((s.apply (.free (s.free + mxFree))).does (mxWrites o q (s.free + mxFree))).does e) := by
  have hrun : ((s.ctxs.find o.ctx).elim false fun c => (c.run = .halting || c.run = .halted) && c.stopped.contains (.matrix o.frame)) = false := by
    cases hx : s.ctxs.find o.ctx with
    | none => rfl
    | some x => simp [hc x hx]
  have hfind : (s.mxq.findD o.frame []).find? (fun q => q.op = id) = some q := by
    rw [AMap.findD, hq]
    simp [hid]
  refine ⟨andThen (clearSb o) (mxEnds id o), only_andThen (only_on fun _ => ends_deliver ..) (ends_mxEnds ..), ?_⟩
  rw [show exec (.matrixOpComplete id) s = execMatrixOpComplete id s from rfl, execMatrixOpComplete]
  generalize s.free + mxFree = n
  rw [fire_eq, ho, does_onSome_some, hfind]
  dsimp only
  rw [hrun, Bool.or_false, Option.isNone_eq_false_iff.2 hs, if_neg Bool.false_ne_true, hi]
  dsimp only
  rw [if_neg (not_lt.2 hf)]
  have hlate : ∀ t : State, t.does (when q.late (mxActs id o)) = t := fun t => by
    have hskip : t.does (mxActs id o) = t := by
      rw [mxActs, does_on, hi]
      cases t.teams.find o.team <;> rfl
    rw [does_when, hskip, ite_self]
  have hop : (s.apply (.free n)).ops.find id = some o := ho
  have hfree : (s.apply (.free n)).free = n := rfl
  rw [does_seqs_cons, does_act, does_seqs_cons, hlate, does_seqs_cons, does_on, hop, does_onSome_some, hfree, does_seqs_cons, does_seqs_cons,
    does_seqs_nil, does_andThen]

/-- What an `MMA` without poison in its map, whose operands have stood since its start, writes (R121, R142). -/
theorem does_mxWrites_mma {s : State} {o : Op} {q : MxOp} {tm : Team} {h : Head} {d : Dst} {a b : Src} {w0 w1 w2 w3 : Word} {ta tb : MTy}
    (hi : o.ins = .mma h d a b) (hv : o.vals = [clean w0, clean w1, clean w2, clean w3]) (hm : (OpMap.ofWords w0 w1 w2 w3).shape = some (ta, tb))
    (hq : q.accs = []) (ht : s.teams.find o.team = some tm) (n : Nat) :
    (s.does (mxWrites o q n)).mem = s.mem ∧ (s.does (mxWrites o q n)).teams.find o.team = some { tm with
      accs := tm.accs.put (d.idx.toNat - 32) (mmaWords n tm q (OpMap.ofWords w0 w1 w2 w3) ta tb (tm.tiles.findD b.idx.toNat []) (tm.accum d.idx.toNat)) } := by
  have hp : ([clean w0, clean w1, clean w2, clean w3]).find? Elem.poi = none := rfl
  rw [mxWrites, does_on, ht, does_onSome_some, hi]
  dsimp only
  rw [show mxReg (Instr.mma h d a b) = d.idx.toNat from rfl, hv, hq, anyOf_nil, hp]
  simp only [List.getD_cons_zero, List.getD_cons_succ]
  rw [show OpMap.ofWords (clean w0).val (clean w1).val (clean w2).val (clean w3).val = OpMap.ofWords w0 w1 w2 w3 from rfl, hm]
  rw [does_andThen, does_upTeam_some _ _ _ tm ((congrArg (AMap.find · o.team) ((ends_noteAccum ..).ends_teams s)).trans ht)]
  refine ⟨(ends_noteAccum ..).ends_mem s, ?_⟩
  change AMap.find (AMap.put _ _ _) _ = _
  rw [AMap_find_put_self]

/-- Settles O47: the completing step writes `mmaWords` and keeps the rest of the team; each word of it is one `mmaElem`. -/
theorem matrixProducts : Obligations.MatrixProducts := by
  intro s id o q tm h d a b w0 w1 w2 w3 ta tb m tile acc row rowScale col colScale _ ho hi hv hm hq hid hs hf hw htl hac hc ht
  obtain ⟨e, he, hstep⟩ := matrixOpComplete_mma ho hi hq hid hs hf hc
  generalize s.free + mxFree = n at hstep
  obtain ⟨hmem, hteam⟩ := does_mxWrites_mma (s := s.apply (.free n)) hi hv hm hac ht n
  refine ⟨_, _, hstep, (he.ends_mem _).trans hmem, (congrArg (AMap.find · o.team) (he.ends_teams _)).trans hteam, fun _ => ?_, ?_, fun k hk => ?_,
    fun i hi j hj => ?_⟩
  · rfl
  · rfl
  · exact AMap_find_put_ne _ _ hk
  intro old new all
  have hnew : new = mmaElem ta tb (row i) (rowScale i) (col j) (colScale j) old :=
    (congrArg (cellAt · (64 * i + j)) (accum_put tm d.idx.toNat _)).trans (mmaWords_at n tm hw htl m ta tb tile acc hi hj)
  refine ⟨fun e he => hnew.trans (mmaElem_poisoned _ _ _ _ _ _ he), fun hp hint => ?_, fun hp hint => ?_⟩
  · exact hnew.trans ((mmaElem_clean _ _ _ _ _ _ hp).trans (congrArg clean (sumOf_int _ _ _ _ _ _ hint _)))
  · refine ⟨chunks ta tb (row i) (rowScale i) (col j) (colScale j) old.val.toNat, rfl, ?_, fun c _ hfin hk => ?_⟩
    · exact hnew.trans ((mmaElem_clean _ _ _ _ _ _ hp).trans (congrArg clean (sumOf_float _ _ _ _ _ _ hint _)))
    · rw [chunks_succ]
      exact addChunk_fin _ _ _ _ _ _ hfin c (fun k h => (hk k h).1) fun k h => (hk k h).2

end Sys2Proof.Machine
end

section
/-!
SUPPORT. The elements of `CVT` (R102, R379): how they lie in 32-bit registers, and what one conversion makes of a value (Table 5.5, R118).
-/
namespace Sys2Proof.Machine

-- elements in registers

/-- Element `i`, of `w` bits, of the 32-bit registers `W` (R102). -/
def fieldOf (W : Nat → Nat) (w i : Nat) : Nat := (W (i * w / 32) / 2 ^ (i * w % 32) + (if w = 64 then W (i * 2 + 1) * 2 ^ 32 else 0)) % 2 ^ w

theorem field_of_word (Y k : Nat) {o w : Nat} (h : o + w ≤ 32) : Y / 2 ^ (32 * k) % 2 ^ 32 / 2 ^ o % 2 ^ w = Y / 2 ^ (32 * k + o) % 2 ^ w := by
  have hsplit : (2 : Nat) ^ 32 = 2 ^ o * 2 ^ (32 - o) := by rw [← Nat.pow_add]; congr 1; omega
  rw [hsplit, Nat.mod_mul_right_div_self, Nat.mod_mod_of_dvd _ (Nat.pow_dvd_pow 2 (by omega)), Nat.div_div_eq_div_mul, ← Nat.pow_add]

theorem field_of_pair (Y i : Nat) : (Y / 2 ^ (32 * (i * 2)) % 2 ^ 32 + Y / 2 ^ (32 * (i * 2 + 1)) % 2 ^ 32 * 2 ^ 32) % 2 ^ 64 = Y / 2 ^ (i * 64) % 2 ^ 64 := by
  have h1 : 32 * (i * 2) = i * 64 := by omega
  have h2 : 32 * (i * 2 + 1) = i * 64 + 32 := by omega
  rw [h1, h2, Nat.pow_add, ← Nat.div_div_eq_div_mul]
  omega

/-- The widths of the elements of `CVT`. -/
def cvtWidths : List Nat := [4, 8, 16, 32, 64]

/-- The registers of a number hold its elements. -/
theorem fieldOf_number {Y n w i : Nat} {W : Nat → Nat} (hW : ∀ k < n, W k = Y / 2 ^ (32 * k) % 2 ^ 32) (hw : w ∈ cvtWidths) (hi : i * w / 32 < n)
    (hi2 : w = 64 → i * 2 + 1 < n) : fieldOf W w i = Y / 2 ^ (i * w) % 2 ^ w := by
  have narrow (hle : i * w % 32 + w ≤ 32) (h64 : w ≠ 64) : fieldOf W w i = Y / 2 ^ (i * w) % 2 ^ w := by
    rw [fieldOf, if_neg h64, add_zero, hW _ hi, field_of_word Y _ hle, Nat.div_add_mod]
  simp only [cvtWidths, List.mem_cons, List.not_mem_nil, or_false] at hw
  rcases hw with rfl | rfl | rfl | rfl | rfl
  · exact narrow (by omega) (by decide)
  · exact narrow (by omega) (by decide)
  · exact narrow (by omega) (by decide)
  · exact narrow (by omega) (by decide)
  · have hk : i * 64 / 32 = i * 2 := by omega
    have ho : i * 64 % 32 = 0 := by omega
    rw [fieldOf, if_pos rfl, hW _ hi, hW _ (hi2 rfl), hk, ho, pow_zero, Nat.div_one, field_of_pair]

/-- Numbers of `w` bits side by side, the first lowest. -/
def packed (q : Nat → Nat) (w n : Nat) : Nat := ∑ k ∈ Finset.range n, q k * 2 ^ (k * w)

section Packed
variable {q : Nat → Nat} {w n : Nat} (hq : ∀ k < n, q k < 2 ^ w)
include hq

theorem packed_lt : packed q w n < 2 ^ (n * w) := by
  induction n with
  | zero => simp [packed]
  | succ n ih =>
    have h1 := ih fun k hk => hq k (by omega)
    have h2 : (q n + 1) * 2 ^ (n * w) ≤ 2 ^ w * 2 ^ (n * w) := Nat.mul_le_mul_right _ (hq n (by omega))
    rw [packed, Finset.sum_range_succ, Nat.succ_mul, Nat.add_comm (n * w), Nat.pow_add]
    rw [packed] at h1
    rw [Nat.succ_mul] at h2
    omega

theorem packed_digit {i : Nat} (hi : i < n) : packed q w n / 2 ^ (i * w) % 2 ^ w = q i := by
  induction n with
  | zero => omega
  | succ n ih =>
    have hlt := packed_lt fun k hk => hq k (Nat.lt_succ_of_lt hk)
    have hsum : packed q w (n + 1) = packed q w n + 2 ^ (n * w) * q n := by rw [packed, Finset.sum_range_succ, Nat.mul_comm]; rfl
    rcases Nat.lt_succ_iff_lt_or_eq.1 hi with h | rfl
    · have hpow : 2 ^ (n * w) * q n = 2 ^ (i * w) * (2 ^ w * (2 ^ ((n - i - 1) * w) * q n)) := by
        rw [← Nat.mul_assoc, ← Nat.mul_assoc, ← Nat.pow_add, ← Nat.pow_add]
        congr 2
        rw [← Nat.succ_mul, ← Nat.add_mul]
        congr 1
        omega
      rw [hsum, hpow, Nat.add_mul_div_left _ _ (Nat.two_pow_pos _), Nat.add_mul_mod_self_left]
      exact ih (fun k hk => hq k (by omega)) h
    · rw [hsum, Nat.add_mul_div_left _ _ (Nat.two_pow_pos _), Nat.div_eq_of_lt hlt, zero_add, Nat.mod_eq_of_lt (hq i hi)]

end Packed

-- types

theorem cvt_bits_mem (t : CvtTy) : t.bits ∈ cvtWidths := by cases t <;> decide

theorem cvtFmt_sound {t : CvtTy} {f : Fmt} (h : cvtFmt t = some f) : f.width = t.bits ∧ f ∈ [f32, f16, bf16, e5m2, e4m3, e2m1] := by
  cases t <;> cases h <;> exact ⟨rfl, by decide⟩

theorem cvt_covers : ∀ a ∈ cvtWidths, ∀ b ∈ cvtWidths, ∀ i < max 1 (32 / min a b),
    i * a / 32 < max 1 (max 1 (32 / min a b) * a / 32) ∧ (a = 64 → i * 2 + 1 < max 1 (max 1 (32 / min a b) * a / 32)) := by decide

section Covers
variable {dst src : CvtTy} (hd : dst ≠ .mx) {i : Nat} (hi : i < cvtCount dst src)
include hd hi

theorem cvtSpan_source : i * src.bits / 32 < cvtSpan dst src src ∧ (src.bits = 64 → i * 2 + 1 < cvtSpan dst src src) := by
  rw [cvtSpan, if_neg hd]
  exact cvt_covers _ (cvt_bits_mem src) _ (cvt_bits_mem dst) i hi

theorem cvtSpan_result : i * dst.bits / 32 < cvtSpan dst src dst ∧ (dst.bits = 64 → i * 2 + 1 < cvtSpan dst src dst) := by
  rw [cvtSpan, if_neg hd, cvtCount, min_comm]
  rw [cvtCount, min_comm] at hi
  exact cvt_covers _ (cvt_bits_mem dst) _ (cvt_bits_mem src) i hi

end Covers

-- a value as an integer

/-- A value cut off towards 0. -/
def trunc (v : ℚ) : Int := if 0 ≤ v then ⌊v⌋ else ⌈v⌉

theorem trunc_signed (n : Bool) {A : ℚ} (hA : 0 ≤ A) : trunc (sgn n * A) = if n then -⌊A⌋ else ⌊A⌋ := by
  cases n
  · simp [trunc, sgn, hA]
  · rcases hA.eq_or_lt with rfl | hpos
    · simp [trunc, sgn]
    · rw [trunc, if_neg (by simpa [sgn] using hpos), if_pos rfl, show sgn true * A = -A by simp [sgn], Int.ceil_neg]

/-- Rounding to an integer towards 0. -/
theorem roundInt_rz (n : Bool) (m : Nat) (e : Int) : ((roundInt .rz n m e).1 : Int) = ⌊(m : ℚ) * 2 ^ e⌋ := by
  obtain ⟨u, up, h⟩ := roundAt_rounds .rz n m e 0
  have hup : up = false := Bool.eq_false_iff.2 fun hu => h.way.1 hu
  have hlo := h.lo
  have hhi := h.hi
  rw [zpow_zero, mul_one] at hlo hhi
  have hu : (roundInt .rz n m e).1 = u := by
    rw [roundInt, h.fst, hup]
    rfl
  rw [hu]
  exact (Int.floor_eq_iff.2 ⟨by exact_mod_cast hlo, by exact_mod_cast hhi⟩).symm

/-- A conversion to an integer type in the mode RZ cuts the value off and clamps it (R118). -/
theorem toInt_rz {lo hi : Int} (hlo : -(2 ^ 64) ≤ lo) (hhi : hi ≤ 2 ^ 64) (hle : lo ≤ hi) {n : Bool} {m : Nat} {e : Int} (h0 : m = 0 → e ≤ 80) :
    (toInt .rz lo hi (.fin n m e)).1 = max lo (min hi (trunc (Num.fin n m e).rat)) := by
  have hA : (0 : ℚ) ≤ m * 2 ^ e := by positivity
  rw [rat_fin, trunc_signed n hA]
  unfold toInt
  dsimp only
  by_cases hbig : 80 < (bitLen m : Int) + e
  · have hm : m ≠ 0 := by
      rintro rfl
      have : bitLen 0 = 0 := by decide
      have := h0 rfl
      omega
    have hfl : (2 : Int) ^ 80 ≤ ⌊(m : ℚ) * 2 ^ e⌋ := by
      refine Int.le_floor.2 (le_trans ?_ (zpow_bitLen_le hm e))
      rw [show (((2 : Int) ^ 80 : Int) : ℚ) = 2 ^ (80 : Int) by norm_num]
      exact zpow_le_zpow_right₀ one_le_two (by omega)
    rw [if_pos hbig]
    generalize ⌊(m : ℚ) * 2 ^ e⌋ = a at hfl
    cases n
    · simp only [Bool.false_eq_true, if_false]
      omega
    · simp only [if_true]
      omega
  · rw [if_neg hbig, roundInt_rz]
    generalize (if n then -⌊(m : ℚ) * 2 ^ e⌋ else ⌊(m : ℚ) * 2 ^ e⌋) = a
    split
    · dsimp only; omega
    · split <;> dsimp only <;> omega

/-- A finite value without mantissa is a zero, at the least exponent. -/
theorem exp_of_zero {f : Fmt} {x : Nat} {n : Bool} {e : Int} (h : f.num x = .fin n 0 e) : e = f.qmin := by
  unfold Fmt.num at h
  dsimp only at h
  split at h
  · split at h <;> cases h
  · split at h
    · cases h
    · split at h
      · exact (Num.fin.inj h).2.2.symm
      · have hm := (Num.fin.inj h).2.1
        have := Nat.two_pow_pos f.mb
        omega

theorem qmin_le : ∀ f ∈ [f32, f16, bf16, e5m2, e4m3, e2m1], f.qmin ≤ 80 := by decide

theorem cvt_range (t : CvtTy) : -(2 ^ 64) ≤ cvtLo t ∧ cvtHi t ≤ 2 ^ 64 ∧ cvtLo t ≤ cvtHi t := by cases t <;> decide

-- one conversion

theorem wrapTo_lt (n : Nat) (i : Int) : wrapTo n i < 2 ^ n := by
  have hpos : (0 : Int) < 2 ^ n := by positivity
  have h1 := Int.emod_nonneg i hpos.ne'
  have h2 := Int.emod_lt_of_pos i hpos
  have : ((wrapTo n i : Nat) : Int) < ((2 ^ n : Nat) : Int) := by
    rw [wrapTo, Int.toNat_of_nonneg h1]
    exact_mod_cast h2
  exact_mod_cast this

theorem wrapTo_int (n : Nat) (i : Int) : (wrapTo n i : Int) = i % 2 ^ n := Int.toNat_of_nonneg (Int.emod_nonneg i (by positivity))

section Convert
variable {dst src : CvtTy} (sat : Bool) (r : RM) (x : Nat)

theorem convert_int_int (hs : cvtFmt src = none) (hd : cvtFmt dst = none) : (convert dst src sat r x).1
    = wrapTo dst.bits (if sat then max (cvtLo dst) (min (cvtHi dst) (cvtInt src x)) else cvtInt src x) := by rw [convert, hs, hd]

theorem convert_int_float {f : Fmt} (hs : cvtFmt src = none) (hd : cvtFmt dst = some f) :
    (convert dst src sat r x).1 = (f.code r sat false (ofInt (cvtInt src x))).1 := by rw [convert, hs, hd]

theorem convert_float_int {f : Fmt} (hs : cvtFmt src = some f) (hd : cvtFmt dst = none) :
    (convert dst src sat r x).1 = wrapTo dst.bits (toInt r (cvtLo dst) (cvtHi dst) (f.num x)).1 := by rw [convert, hs, hd]

theorem convert_float_float {f g : Fmt} (hs : cvtFmt src = some f) (hd : cvtFmt dst = some g) :
    (convert dst src sat r x).1 = (g.code r sat false (f.num x)).1 := by rw [convert, hs, hd]

theorem convert_lt : (convert dst src sat r x).1 < 2 ^ dst.bits := by
  cases hs : cvtFmt src with
  | none =>
    cases hd : cvtFmt dst with
    | none => rw [convert_int_int sat r x hs hd]; exact wrapTo_lt ..
    | some f => rw [convert_int_float sat r x hs hd, ← (cvtFmt_sound hd).1]; exact (sound_of_mem (cvtFmt_sound hd).2).code_lt ..
  | some f =>
    cases hd : cvtFmt dst with
    | none => rw [convert_float_int sat r x hs hd]; exact wrapTo_lt ..
    | some g => rw [convert_float_float sat r x hs hd, ← (cvtFmt_sound hd).1]; exact (sound_of_mem (cvtFmt_sound hd).2).code_lt ..

theorem code_fin (f : Fmt) {v : Num} (h : v.Fin) : ∃ fl, RoundedTo f r sat false v.rat ((f.code r sat false v).1, fl) 0#6 := by
  obtain ⟨n, m, e, rfl⟩ := h
  exact ⟨_, n, m, e, rfl, rfl, (BitVec.or_zero).symm⟩

theorem code_nan (f : Fmt) {v : Num} (h : v.isNan = true) : (f.code r sat false v).1 = f.qnan := by
  cases v with
  | nan g => rfl
  | inf n => cases h
  | fin n m e => cases h

theorem convert_trunc {f : Fmt} (hs : cvtFmt src = some f) (hd : cvtFmt dst = none) (hx : f.Finite x) :
    (convert dst src sat .rz x).1 = wrapTo dst.bits (max (cvtLo dst) (min (cvtHi dst) (trunc (f.rat x)))) := by
  obtain ⟨-, n, m, e, hnum⟩ := hx
  obtain ⟨hlo, hhi, hle⟩ := cvt_range dst
  have h0 : m = 0 → e ≤ 80 := by
    rintro rfl
    rw [exp_of_zero hnum]
    exact qmin_le f (cvtFmt_sound hs).2
  rw [convert_float_int sat .rz x hs hd, Fmt.rat, hnum, toInt_rz hlo hhi hle h0]

end Convert

end Sys2Proof.Machine
end

section
/-!
SUPPORT. O20: the lanes of `CVT`, `PFMA`, `FDOT2` and `DOT4` (R103, R379, R380, R382, R389, R437).
-/
namespace Sys2Proof.Machine

theorem legal_of_issuing {s : State} {i : Instr} {c : Iss} (h : s.issuing i = some c) : i.legal = true := by
  obtain ⟨_, _, _, _, hG, _⟩ := reaching_iff.1 (issuing_iff.1 h).1
  exact hG.legal

-- CVT

section Cvt
variable (c : Iss) {dst src : CvtTy} (sat : Bool) (r : RM) (a : Src) (n : Nat)

/-- A lane's source elements. -/
def cvtSource (src : CvtTy) (i : Nat) : Nat := fieldOf (fun k => (lane (c.srcK 1 a k) n).val.toNat) src.bits i

/-- A lane's source registers as one number. -/
def cvtNumber (dst src : CvtTy) : Nat := packed (fun k => (lane (c.srcK 1 a k) n).val.toNat) 32 (cvtSpan dst src src)

theorem cvtNumber_field (hd : dst ≠ .mx) {i : Nat} (hi : i < cvtCount dst src) :
    cvtNumber c a n dst src / 2 ^ (i * src.bits) % 2 ^ src.bits = cvtSource c a n src i := by
  obtain ⟨h1, h2⟩ := cvtSpan_source hd hi
  refine (fieldOf_number (fun k hk => ?_) (cvt_bits_mem src) h1 h2).symm
  rw [Nat.mul_comm 32 k]
  exact (packed_digit (q := fun k => (lane (c.srcK 1 a k) n).val.toNat) (fun _ _ => BitVec.isLt _) hk).symm

/-- A lane's results as one number. -/
def cvtResult (dst src : CvtTy) : Nat :=
  packed (fun i => (convert dst src sat r (cvtNumber c a n dst src / 2 ^ (i * src.bits) % 2 ^ src.bits)).1) dst.bits (cvtCount dst src)

theorem cvtLane_vals : (cvtLane c dst src sat r a n).vals = wordsOf (cvtSpan dst src dst) (cvtResult c sat r a n dst src) := by
  have hx : (List.range (cvtSpan dst src src)).foldl (fun m k => m + (((List.range (cvtSpan dst src src)).map fun k => lane (c.srcK 1 a k) n).getD k
      (clean 0#32)).val.toNat * 2 ^ (32 * k)) 0 = cvtNumber c a n dst src := by
    rw [foldl_add_eq_sum fun k => (((List.range (cvtSpan dst src src)).map fun k => lane (c.srcK 1 a k) n).getD k (clean 0#32)).val.toNat * 2 ^ (32 * k),
      zero_add, cvtNumber, packed]
    exact Finset.sum_congr rfl fun k hk => by rw [getD_map_range _ _ (Finset.mem_range.1 hk), Nat.mul_comm 32 k]
  unfold cvtLane
  dsimp only
  rw [hx, foldl_add_eq_sum fun i => (((List.range (cvtCount dst src)).map fun i => convert dst src sat r
    (cvtNumber c a n dst src / 2 ^ (i * src.bits) % 2 ^ src.bits)).getD i (0, 0#6)).1 * 2 ^ (i * dst.bits), zero_add, cvtResult, packed]
  congr 1
  exact Finset.sum_congr rfl fun k hk => by rw [getD_map_range _ _ (Finset.mem_range.1 hk)]

/-- EACH ELEMENT of a lane's result is the source element converted (R379). -/
theorem cvtLane_field (hd : dst ≠ .mx) {i : Nat} (hi : i < cvtCount dst src) :
    fieldOf (fun k => ((cvtLane c dst src sat r a n).vals.getD k 0#32).toNat) dst.bits i = (convert dst src sat r (cvtSource c a n src i)).1 := by
  obtain ⟨h1, h2⟩ := cvtSpan_result hd hi
  rw [fieldOf_number (Y := cvtResult c sat r a n dst src) (fun k hk => ?_) (cvt_bits_mem dst) h1 h2, cvtResult,
    packed_digit (fun _ _ => convert_lt ..) hi, cvtNumber_field c a n hd hi]
  rw [cvtLane_vals, wordsOf, getD_map_range _ _ hk, BitVec.toNat_ofNat]

end Cvt

/-- One lane of a `CVT`. -/
def cvtAny (c : Iss) (dst src : CvtTy) (sat : Bool) (r : RM) (a : Src) (n : Nat) : LaneOut :=
  match dst, cvtFmt src with
  | .mx, some fs => cvtMx c fs r a n
  | _, _ => cvtLane c dst src sat r a n

theorem cvtAny_mx (c : Iss) {src : CvtTy} {f : Fmt} (h : cvtFmt src = some f) (sat : Bool) (r : RM) (a : Src) (n : Nat) :
    cvtAny c .mx src sat r a n = cvtMx c f r a n := by
  unfold cvtAny
  rw [h]

theorem cvtAny_lane (c : Iss) {dst : CvtTy} (hd : dst ≠ .mx) (src : CvtTy) (sat : Bool) (r : RM) (a : Src) (n : Nat) :
    cvtAny c dst src sat r a n = cvtLane c dst src sat r a n := by
  unfold cvtAny
  split
  · exact absurd rfl hd
  · rfl

theorem firstPoison_map (x : Lanes) (l : List Nat) : firstPoison (l.map fun n => if (lane x n).poi then some (lane x n).val else none)
    = (l.find? fun n => (lane x n).poi).map fun n => (lane x n).val := by
  induction l with
  | nil => rfl
  | cons n l ih =>
    rw [List.map_cons]
    cases h : (lane x n).poi with
    | true => simp [h, firstPoison]
    | false => simp [h, firstPoison, ih]

theorem cvtMx_poi (c : Iss) (f : Fmt) (r : RM) (a : Src) (n : Nat) : (cvtMx c f r a n).poi = lowestPayload (c.src 1 a) c.on := by
  rw [lowestPayload, ← firstPoison_map]
  unfold cvtMx
  dsimp only
  split
  · rfl
  · split <;> rfl

/-- A block with a NaN or an infinity (R120). -/
theorem cvtMx_special (c : Iss) {f : Fmt} (r : RM) (a : Src) (n : Nat) {k : Nat} (hk : k < 32) (hon : Mask.has c.on k = true)
    (hf : ¬ f.Finite ((lane (c.src 1 a) k).val.toNat % 2 ^ f.width)) : (cvtMx c f r a n).vals = [0xFF00#32] := by
  have hspecial : ((f.num ((lane (c.src 1 a) k).val.toNat % 2 ^ f.width)).isNan || (f.num ((lane (c.src 1 a) k).val.toNat % 2 ^ f.width)).isInf) = true := by
    cases hnum : f.num ((lane (c.src 1 a) k).val.toNat % 2 ^ f.width) with
    | nan g => rfl
    | inf g => rfl
    | fin s m e => exact absurd ⟨Nat.mod_lt _ (Nat.two_pow_pos _), s, m, e, hnum⟩ hf
  unfold cvtMx
  dsimp only
  rw [if_pos]
  refine List.any_eq_true.2 ⟨_, List.mem_map.2 ⟨k, List.mem_range.2 hk, rfl⟩, ?_⟩
  rw [if_pos hon]
  exact hspecial

-- PFMA and FDOT2

theorem half_eq (w : Word) (i : Nat) : half w i = w.toNat / 2 ^ (16 * i) % 65536 := by
  rw [half, BitVec.extractLsb'_toNat, Nat.shiftRight_eq_div_pow]

theorem fmt16_sound (bf : Bool) : (fmt16 bf).Sound ∧ (fmt16 bf).width = 16 := by
  cases bf
  · exact ⟨f16_sound, rfl⟩
  · exact ⟨bf16_sound, rfl⟩

/-- A product and an addend, rounded once. -/
theorem fused_product (f : Fmt) (r : RM) (sat ftz : Bool) {X Y Z : Num} (hX : X.Fin) (hY : Y.Fin) (hZ : Z.Fin) :
    RoundedTo f r sat ftz (X.rat * Y.rat + Z.rat) (fused f r sat ftz [X, Y, Z] [mulNum X Y, some Z]) 0#6 := by
  obtain ⟨q, hq, hqf, hqr, -⟩ := mulNum_fin hX hY
  rw [hq, ← hqr]
  simpa using (fused_fin f r sat ftz [X, Y, Z] (l := [q, Z]) (by simp [hqf, hZ]) (by simp [hX, hY, hZ])).1

theorem mulNum_term_nan {X Y : Num} (h : (X.isNan || Y.isNan) = true) : ∀ y, mulNum X Y = some y → y.isNan = true := fun y hy => by
  rw [mulNum_nan h] at hy
  exact Option.some.inj hy ▸ rfl

theorem fused_product_nan (f : Fmt) (r : RM) (sat ftz : Bool) {X Y Z : Num} (h : (X.isNan || Y.isNan || Z.isNan) = true) :
    (fused f r sat ftz [X, Y, Z] [mulNum X Y, some Z]).1 = f.qnan := by
  refine fused_nan f r sat ftz _ ?_
  rcases Bool.or_eq_true_iff.1 h with h | h
  · exact ⟨mulNum X Y, by simp, mulNum_term_nan h⟩
  · exact ⟨some Z, by simp, fun y hy => Option.some.inj hy ▸ h⟩

/-- One half of `PFMA` (R437): its operands flushed, a NaN among them, and their exact sum rounded once. -/
theorem pfmaHalf_spec (f : Fmt) (r : RM) (neg sat ftz : Bool) (a b k : Nat) :
    let x := flush f ftz a
    let y := flush f ftz b
    let z := flush f ftz (k ^^^ (if neg then 0x8000 else 0))
    let w := pfmaHalf f r neg sat ftz a b k
    ((f.num x.1).isNan || (f.num y.1).isNan || (f.num z.1).isNan → w.1 = f.qnan)
      ∧ (f.Finite x.1 → f.Finite y.1 → f.Finite z.1 → ∃ fl u, RoundedTo f r sat ftz (f.rat x.1 * f.rat y.1 + f.rat z.1) (w.1, fl) 0#6 ∧ w.2 = fl ||| u) := by
  intro x y z w
  have hz : (if neg then k ^^^ 0x8000 else k) = k ^^^ (if neg then 0x8000 else 0) := by cases neg <;> simp
  have hw : w = (let v := fused f r sat ftz [f.num x.1, f.num y.1, f.num z.1] [mulNum (f.num x.1) (f.num y.1), some (f.num z.1)]
      (v.1, v.2 ||| (x.2 ||| y.2 ||| z.2))) := by
    simp only [w, pfmaHalf, hz, BitVec.or_assoc]
    rfl
  rw [hw]
  exact ⟨fused_product_nan f r sat ftz, fun hx hy hz => ⟨_, _, fused_product f r sat ftz hx.fin hy.fin hz.fin, rfl⟩⟩

theorem pack_halves {p q : Nat} (hp : p < 65536) (hq : q < 65536) :
    (BitVec.ofNat 32 (q * 65536 + p)).toNat / 2 ^ (16 * 0) % 65536 = p ∧ (BitVec.ofNat 32 (q * 65536 + p)).toNat / 2 ^ (16 * 1) % 65536 = q := by
  rw [BitVec.toNat_ofNat]
  omega

theorem or_absorb {n : Nat} (x y : BitVec n) : x ||| (x ||| y) = x ||| y := by rw [← BitVec.or_assoc, BitVec.or_self]

/-- Half `i` of a word of two. -/
theorem half_pack {f : Nat → Nat} (hf : ∀ i, f i < 65536) {i : Nat} (hi : i < 2) : (BitVec.ofNat 32 (f 1 * 65536 + f 0)).toNat / 2 ^ (16 * i) % 65536 = f i := by
  obtain ⟨h0, h1⟩ := pack_halves (hf 0) (hf 1)
  interval_cases i
  · exact h0
  · exact h1

/-- Half `i` of a lane's result of `PFMA`. -/
def pfmaOf (c : Iss) (bf neg sat : Bool) (m : RM) (a b k : Src) (n i : Nat) : Nat × BitVec 6 :=
  pfmaHalf (fmt16 bf) m neg sat c.g.csr.ftz (half (c.at32 1 a n).1 i) (half (c.at32 2 b n).1 i) (half (c.at32 3 k n).1 i)

theorem pfmaOf_lt (c : Iss) (bf neg sat : Bool) (m : RM) (a b k : Src) (n i : Nat) : (pfmaOf c bf neg sat m a b k n i).1 < 65536 := by
  obtain ⟨hf, hwidth⟩ := fmt16_sound bf
  unfold pfmaOf pfmaHalf
  exact (hf.code_lt ..).trans_eq (congrArg (2 ^ ·) hwidth)

/-- What `FDOT2` rounds (R389): two products and an addend. -/
theorem fused_products (r : RM) (sat ftz : Bool) {A B C D Z : Num} :
    let w := fused f32 r sat ftz [A, B, C, D, Z] [mulNum A B, mulNum C D, some Z]
    (A.isNan || C.isNan || B.isNan || D.isNan || Z.isNan → w.1 = f32.qnan)
      ∧ (A.Fin → C.Fin → B.Fin → D.Fin → Z.Fin → RoundedTo f32 r sat ftz (A.rat * B.rat + C.rat * D.rat + Z.rat) w 0#6) := by
  refine ⟨fun h => fused_nan f32 r sat ftz _ ?_, fun hA hC hB hD hZ => ?_⟩
  · simp only [Bool.or_eq_true] at h
    rcases h with (((h | h) | h) | h) | h
    · exact ⟨mulNum A B, by simp, mulNum_term_nan (by rw [h]; rfl)⟩
    · exact ⟨mulNum C D, by simp, mulNum_term_nan (by rw [h]; rfl)⟩
    · exact ⟨mulNum A B, by simp, mulNum_term_nan (by rw [h, Bool.or_true])⟩
    · exact ⟨mulNum C D, by simp, mulNum_term_nan (by rw [h, Bool.or_true])⟩
    · exact ⟨some Z, by simp, fun y hy => Option.some.inj hy ▸ h⟩
  · obtain ⟨p, hp, hpf, hpr, -⟩ := mulNum_fin hA hB
    obtain ⟨q, hq, hqf, hqr, -⟩ := mulNum_fin hC hD
    rw [hp, hq, ← hpr, ← hqr]
    simpa [add_assoc] using (fused_fin f32 r sat ftz [A, B, C, D, Z] (l := [p, q, Z]) (by simp [hpf, hqf, hZ]) (by simp [hA, hB, hC, hD, hZ])).1

/-- A lane's result of `FDOT2`, without the flags of the flush. -/
def fdotOf (c : Iss) (bf neg sat : Bool) (m : RM) (a b k : Src) (n : Nat) : Nat × BitVec 6 :=
  let f := fmt16 bf
  let x := fun i => f.num (flush f c.g.csr.ftz (half (c.at32 1 a n).1 i)).1
  let y := fun i => f.num (flush f c.g.csr.ftz (half (c.at32 2 b n).1 i)).1
  let z := f32.num (flush f32 c.g.csr.ftz (flip neg (c.at32 3 k n)).1.toNat).1
  fused f32 m sat c.g.csr.ftz [x 0, y 0, x 1, y 1, z] [mulNum (x 0) (y 0), mulNum (x 1) (y 1), some z]

theorem fdotOf_lt (c : Iss) (bf neg sat : Bool) (m : RM) (a b k : Src) (n : Nat) : (fdotOf c bf neg sat m a b k n).1 < 2 ^ 32 := f32_sound.fused_lt ..

theorem fdotOf_spec (c : Iss) (bf neg sat : Bool) (m : RM) (a b k : Src) (n : Nat) :
    let ftz := c.g.csr.ftz
    let f := fmt16 bf
    let x := fun i => (flush f ftz ((c.at32 1 a n).1.toNat / 2 ^ (16 * i) % 65536)).1
    let y := fun i => (flush f ftz ((c.at32 2 b n).1.toNat / 2 ^ (16 * i) % 65536)).1
    let z := (flush f32 ftz (if neg then (c.at32 3 k n).1 ^^^ 0x80000000#32 else (c.at32 3 k n).1).toNat).1
    let w := fdotOf c bf neg sat m a b k n
    ((f.num (x 0)).isNan || (f.num (x 1)).isNan || (f.num (y 0)).isNan || (f.num (y 1)).isNan || (f32.num z).isNan → w.1 = f32.qnan)
      ∧ (f.Finite (x 0) → f.Finite (x 1) → f.Finite (y 0) → f.Finite (y 1) → f32.Finite z →
          RoundedTo f32 m sat ftz (f.rat (x 0) * f.rat (y 0) + f.rat (x 1) * f.rat (y 1) + f32.rat z) w 0#6) := by
  intro ftz f x y z w
  have hw : w = fused f32 m sat ftz [f.num (x 0), f.num (y 0), f.num (x 1), f.num (y 1), f32.num z]
      [mulNum (f.num (x 0)) (f.num (y 0)), mulNum (f.num (x 1)) (f.num (y 1)), some (f32.num z)] := by
    simp only [w, fdotOf, half_eq, flip_eq]
    rfl
  obtain ⟨hnan, hfin⟩ := fused_products m sat ftz (A := f.num (x 0)) (B := f.num (y 0)) (C := f.num (x 1)) (D := f.num (y 1)) (Z := f32.num z)
  rw [hw]
  exact ⟨hnan, fun hA hC hB hD hZ => hfin hA.fin hC.fin hB.fin hD.fin hZ.fin⟩

-- DOT4

theorem byte_eq (w : Word) (i : Nat) : (w.extractLsb' (8 * i) 8).toNat = w.toNat / 2 ^ (8 * i) % 256 := by
  rw [BitVec.extractLsb'_toNat, Nat.shiftRight_eq_div_pow]

theorem dotInt_eq (t : DotTy) (b : Byte) : dotInt t b = if t = .s8 ∧ 128 ≤ b.toNat then (b.toNat : Int) - 256 else b.toNat := by
  unfold dotInt
  by_cases ht : t = .s8
  · rw [if_pos ht, BitVec.toInt_eq_toNat_cond]
    have : (2 : Nat) ^ 8 = 256 := by decide
    by_cases hb : 128 ≤ b.toNat
    · rw [if_neg (by omega), if_pos ⟨ht, hb⟩]
      rfl
    · rw [if_pos (by omega), if_neg fun h => hb h.2]
  · rw [if_neg ht, if_neg fun h => ht h.1]

/-- The integer form of `DOT4`: four products and an addend. -/
theorem dotSum_eq (ta tb : DotTy) (a b : Word) (z : Int) :
    let x := fun i => a.toNat / 2 ^ (8 * i) % 256
    let y := fun i => b.toNat / 2 ^ (8 * i) % 256
    let sx := fun (t : DotTy) (k : Nat) => if t = .s8 ∧ 128 ≤ k then (k : Int) - 256 else k
    (List.range 4).foldl (fun (acc : Int) n => acc + dotInt ta (a.extractLsb' (8 * n) 8) * dotInt tb (b.extractLsb' (8 * n) 8)) z
      = sx ta (x 0) * sx tb (y 0) + sx ta (x 1) * sx tb (y 1) + sx ta (x 2) * sx tb (y 2) + sx ta (x 3) * sx tb (y 3) + z := by
  intro x y sx
  have hx (i : Nat) : dotInt ta (a.extractLsb' (8 * i) 8) = sx ta (x i) := by rw [dotInt_eq, byte_eq]
  have hy (i : Nat) : dotInt tb (b.extractLsb' (8 * i) 8) = sx tb (y i) := by rw [dotInt_eq, byte_eq]
  rw [foldl_add_eq_sum fun n => dotInt ta (a.extractLsb' (8 * n) 8) * dotInt tb (b.extractLsb' (8 * n) 8)]
  simp only [Finset.sum_range_succ, Finset.sum_range_zero, hx, hy]
  ring

section Dot4F
variable (ta tb : DotTy) (r : RM) (a b k : Word)

/-- The elements of a word, as values. -/
def dotVals (t : DotTy) (w : Word) : List Num := (List.range 4).map fun i => (dotFmt t).num (w.toNat / 2 ^ (8 * i) % 256)

theorem dot4F_eq : dot4F ta tb r a b k = (if (f32.num k.toNat :: dotVals ta a ++ dotVals tb b).any Num.isNan
    then (f32.qnan, sigNV (f32.num k.toNat :: dotVals ta a ++ dotVals tb b))
    else
      let w := sumNum r (((dotVals ta a).zip (dotVals tb b)).map (fun p => mulNum p.1 p.2) ++ [some (f32.num k.toNat)])
      ((f32.code r false false w.1).1, (f32.code r false false w.1).2 ||| w.2)) := by
  unfold dot4F
  simp only [byte_eq]
  rfl

theorem dot4F_lt : (dot4F ta tb r a b k).1 < 2 ^ 32 := by
  rw [dot4F_eq]
  split
  · exact f32_sound.qnan_lt.trans (by decide)
  · exact f32_sound.code_lt ..

theorem dot4F_nan (h : (∃ i < 4, ((dotFmt ta).num (a.toNat / 2 ^ (8 * i) % 256)).isNan = true ∨ ((dotFmt tb).num (b.toNat / 2 ^ (8 * i) % 256)).isNan = true)
    ∨ (f32.num k.toNat).isNan = true) : (dot4F ta tb r a b k).1 = f32.qnan := by
  rw [dot4F_eq, if_pos]
  refine List.any_eq_true.2 ?_
  rcases h with ⟨i, hi, h | h⟩ | h
  · exact ⟨_, List.mem_append_left _ (List.mem_cons_of_mem _ (List.mem_map.2 ⟨i, List.mem_range.2 hi, rfl⟩)), h⟩
  · exact ⟨_, List.mem_append_right _ (List.mem_map.2 ⟨i, List.mem_range.2 hi, rfl⟩), h⟩
  · exact ⟨_, List.mem_append_left _ List.mem_cons_self, h⟩

/-- Finite elements and a finite addend: the exact sum of the products is rounded once. -/
theorem dot4F_fin (ha : ∀ i < 4, ((dotFmt ta).num (a.toNat / 2 ^ (8 * i) % 256)).Fin) (hb : ∀ i < 4, ((dotFmt tb).num (b.toNat / 2 ^ (8 * i) % 256)).Fin)
    (hk : (f32.num k.toNat).Fin) : ∃ fl, RoundedTo f32 r false false (∑ i ∈ Finset.range 4, ((dotFmt ta).num (a.toNat / 2 ^ (8 * i) % 256)).rat
      * ((dotFmt tb).num (b.toNat / 2 ^ (8 * i) % 256)).rat + (f32.num k.toNat).rat) ((dot4F ta tb r a b k).1, fl) 0#6 := by
  have hnan : (f32.num k.toNat :: dotVals ta a ++ dotVals tb b).any Num.isNan = false := by
    refine List.any_eq_false.2 fun x hx => ?_
    have hfin : x.Fin := by
      rcases List.mem_append.1 hx with hx | hx
      · rcases List.mem_cons.1 hx with rfl | hx
        · exact hk
        · obtain ⟨i, hi, rfl⟩ := List.mem_map.1 hx
          exact ha i (List.mem_range.1 hi)
      · obtain ⟨i, hi, rfl⟩ := List.mem_map.1 hx
        exact hb i (List.mem_range.1 hi)
    rw [hfin.not_nan]
    exact Bool.false_ne_true
  obtain ⟨p, hp, hpf, hsum⟩ := products_fin ha hb
  have hterms : ((dotVals ta a).zip (dotVals tb b)).map (fun q => mulNum q.1 q.2) ++ [some (f32.num k.toNat)]
      = ((List.range 4).map p ++ [f32.num k.toNat]).map some := by
    rw [dotVals, dotVals, List.zip_map', List.map_map, List.map_append, ← hp]
    rfl
  have hfin : ∀ x ∈ (List.range 4).map p ++ [f32.num k.toNat], x.Fin := fun x hx => by
    rcases List.mem_append.1 hx with hx | hx
    · exact hpf x hx
    · exact List.mem_singleton.1 hx ▸ hk
  obtain ⟨n, m, e, hs, hv, -⟩ := sumFin_exact r hfin
  rw [List.map_append, List.sum_append, hsum, List.map_singleton, List.sum_singleton] at hv
  rw [dot4F_eq, hnan, if_neg Bool.false_ne_true, hterms, sumNum_fin r hfin, hs, ← hv]
  exact code_fin false r f32 (Num.fin_fin n m e)

end Dot4F

/-- Settles O20: what each lane makes, element by element. -/
theorem conversionAndDotResults : Obligations.ConversionAndDotResults := by
  unfold Obligations.ConversionAndDotResults
  intro s c h bf neg sat rnd ds sr ta tb d a b e ftz m p3
  refine ⟨fun hs => ?cvt, fun hs => ?pfma, fun hs => ?fdot2, fun hs => ?dot4⟩
  case cvt =>
    have hform := legal_of_issuing hs
    refine alu_makes (f := fun c n => cvtAny c ds sr sat (c.rm rnd) a n) hs rfl rfl rfl fun n _ _ => ⟨?mx, fun hd => ?lane⟩
    case mx =>
      rintro rfl
      have hsr : sr = .f32 ∨ sr = .f16 ∨ sr = .bf16 := by
        simp only [Instr.legal, Instr.head, Instr.formOk, Bool.and_eq_true, Bool.or_eq_true, decide_eq_true_eq] at hform
        tauto
      obtain ⟨g, hg⟩ : ∃ g, cvtFmt sr = some g := by rcases hsr with rfl | rfl | rfl <;> exact ⟨_, rfl⟩
      rw [cvtAny_mx c hg]
      refine ⟨cvtMx_poi .., fun f hf ⟨k, hk, hon, hfin⟩ => ?_⟩
      obtain rfl := Option.some.inj (hg.symm.trans hf)
      exact cvtMx_special c m a n hk hon hfin
    case lane =>
      rw [cvtAny_lane c hd]
      refine ⟨by rw [cvtLane_vals, wordsOf, List.length_map, List.length_range], fun i hi => ?_⟩
      intro x r z
      have hr : r = (convert ds sr sat m x).1 := cvtLane_field c sat m a n hd hi
      refine ⟨fun h1 h2 h3 => ?wrap, fun h1 h2 h3 => ?clamp, fun f h1 h2 _ => ?toFloat, fun f h1 h2 hn => ?nan0, fun f k h1 h2 hk => ?inf,
        fun f h1 h2 hx hm => ?cut, fun f g h1 h2 hn => ?nan, fun f g h1 h2 hx _ => ?round⟩
      case wrap => rw [hr, convert_int_int _ _ _ h1 h2, h3, wrapTo_int]; rfl
      case clamp => rw [hr, convert_int_int _ _ _ h1 h2, h3, wrapTo_int]; rfl
      case toFloat =>
        obtain ⟨fl, hfl⟩ := code_fin sat m f (Num.fin_fin (z < 0) z.natAbs 0)
        rw [rat_signed, zpow_zero, mul_one] at hfl
        exact ⟨fl, by rw [hr, convert_int_float _ _ _ h1 h2]; exact hfl⟩
      case nan0 =>
        rw [hr, convert_float_int _ _ _ h1 h2]
        obtain ⟨g, hg⟩ : ∃ g, f.num x = .nan g := by
          cases hx : f.num x with
          | nan g => exact ⟨g, rfl⟩
          | inf k => rw [hx] at hn; cases hn
          | fin n m e => rw [hx] at hn; cases hn
        rw [hg, toInt, wrapTo, Int.zero_emod]
        rfl
      case inf => rw [hr, convert_float_int _ _ _ h1 h2, hk, toInt, wrapTo_int]
      case cut => rw [hr, hm, convert_trunc _ _ h1 h2 hx, wrapTo_int]; rfl
      case nan => rw [hr, convert_float_float _ _ _ h1 h2, code_nan _ _ _ hn]
      case round =>
        obtain ⟨fl, hfl⟩ := code_fin sat m g hx.fin
        exact ⟨fl, by rw [hr, convert_float_float _ _ _ h1 h2]; exact hfl⟩
  case pfma =>
    refine alu_makes hs rfl rfl rfl fun n _ _ => ⟨rfl, rfl, fun i hi => ?_⟩
    intro f x y z r v
    have hr : r = (pfmaOf c bf neg sat m a b e n i).1 := half_pack (f := fun i => (pfmaOf c bf neg sat m a b e n i).1) (fun i => pfmaOf_lt ..) hi
    obtain ⟨u, hu⟩ : ∃ u, (pfmaOf c bf neg sat m a b e n 0).2 ||| (pfmaOf c bf neg sat m a b e n 1).2 = (pfmaOf c bf neg sat m a b e n i).2 ||| u := by
      interval_cases i
      · exact ⟨_, rfl⟩
      · exact ⟨_, BitVec.or_comm ..⟩
    obtain ⟨hnan, hfin⟩ := pfmaHalf_spec f m neg sat ftz (half (c.at32 1 a n).1 i) (half (c.at32 2 b n).1 i) (half (c.at32 3 e n).1 i)
    rw [half_eq, half_eq, half_eq] at hnan hfin
    refine ⟨fun h => ?_, fun hx hy hz _ => ?_⟩
    · rw [hr, pfmaOf, half_eq, half_eq, half_eq]
      exact hnan h
    · obtain ⟨fl, w, hround, hfl⟩ := hfin hx hy hz
      refine ⟨fl, by rw [hr, pfmaOf, half_eq, half_eq, half_eq]; exact hround, ?_⟩
      have hw : (pfmaOf c bf neg sat m a b e n i).2 = fl ||| w := by rw [pfmaOf, half_eq, half_eq, half_eq]; exact hfl
      change fl ||| ((pfmaOf c bf neg sat m a b e n 0).2 ||| (pfmaOf c bf neg sat m a b e n 1).2) = _ ||| _
      rw [hu, hw, BitVec.or_assoc, or_absorb]
      exact (BitVec.or_assoc ..).symm.trans ((congrArg (· ||| u) hw).symm.trans hu.symm)
  case fdot2 =>
    refine alu_makes hs rfl rfl rfl fun n _ _ => ?_
    obtain ⟨hnan, hfin⟩ := fdotOf_spec c bf neg sat m a b e n
    refine ⟨by rw [flip_eq]; rfl, rfl, fun h => congrArg (fun x => [BitVec.ofNat 32 x]) (hnan h), fun hA hC hB hD hZ _ => ⟨(fdotOf c bf neg sat m a b e n).2, ?_⟩⟩
    change RoundedTo f32 m sat ftz _ ((BitVec.ofNat 32 (fdotOf c bf neg sat m a b e n).1).toNat, _) _
    rw [BitVec.toNat_ofNat, Nat.mod_eq_of_lt (fdotOf_lt ..)]
    exact hfin hA hC hB hD hZ
  case dot4 =>
    refine alu_makes hs rfl rfl rfl fun n _ _ => ?_
    cases hfl : ta.float with
    | false => exact ⟨rfl, fun _ => congrArg (fun v => out32 (BitVec.ofInt 32 v) (p3 n)) (dotSum_eq ..), nofun, nofun⟩
    | true =>
      refine ⟨rfl, nofun, fun _ h => congrArg (fun v => [BitVec.ofNat 32 v]) (dot4F_nan _ _ _ _ _ _ h), fun _ hel hz => ?_⟩
      intro v _
      obtain ⟨fl, hround⟩ := dot4F_fin ta tb (rmOf c.g.csr.rm) (c.at32 1 a n).1 (c.at32 2 b n).1 (c.at32 3 e n).1 (fun i hi => (hel i hi).1.fin)
        (fun i hi => (hel i hi).2.fin) hz.fin
      refine ⟨fl, ?_⟩
      change RoundedTo f32 _ false false v ((BitVec.ofNat 32 (dot4F ta tb (rmOf c.g.csr.rm) (c.at32 1 a n).1 (c.at32 2 b n).1 (c.at32 3 e n).1).1).toNat, fl) _
      rw [BitVec.toNat_ofNat, Nat.mod_eq_of_lt (dot4F_lt ..)]
      simp only [Finset.sum_range_succ, Finset.sum_range_zero, zero_add] at hround
      exact hround

end Sys2Proof.Machine
end

section
/-!
SUPPORT. An operation that enters the store buffer at its issue (R292): what it leaves, and what may follow it.
-/
namespace Sys2Proof.Machine

-- the instruction that issues

theorem tm_of_reaching {s : State} {i : Instr} {c : Iss} (h : s.reaching i = some c) {tm : Team} (ht : s.teams.find c.g.team = some tm) : c.tm = tm := by
  obtain ⟨g0, pc, _, _, _, rfl⟩ := reaching_iff.1 h
  have hg : (issOf s s.cur (g0.upTo s.now) i pc ((g0.upTo s.now).atPc pc)).g.team = (g0.upTo s.now).team := by
    unfold issOf
    dsimp only
    split <;> rfl
  rw [hg] at ht
  change (s.teams.find (g0.upTo s.now).team).getD _ = tm
  rw [ht]
  rfl

/-- A lane that acts is Active. -/
theorem act_of_on {s : State} {i : Instr} {c : Iss} (h : s.reaching i = some c) {n : Nat} (hn : Mask.has c.on n = true) : Mask.has c.act n = true := by
  obtain ⟨g0, pc, _, _, _, rfl⟩ := reaching_iff.1 h
  generalize (g0.upTo s.now).atPc pc = a at hn ⊢
  have hon : (issOf s s.cur (g0.upTo s.now) i pc a).on = a &&& (if (g0.upTo s.now).resumes a then (g0.upTo s.now).resume
      else Mask.of fun n => guardTrue (g0.upTo s.now) i.guard n) := by
    change (if _ then _ else _) = _
    split <;> rfl
  rw [Mask.has, hon, BitVec.getLsbD_and, Bool.and_eq_true] at hn
  exact hn.1

-- acts

/-- An act of an operation that enters the store buffer. -/
def Act.Buffers : Act → Prop
  | .group .. | .rod .. | .free _ | .ids _ | .op .. | .timers _ => True
  | _ => False

/-- The same, with the lookups of its addresses and the words of the local store. -/
def Act.BuffersWords : Act → Prop
  | .group .. | .rod .. | .free _ | .ids _ | .op .. | .timers _ | .team .. | .mx .. => True
  | _ => False

theorem Eff.Only.buffers_send {e : Eff} (h : e.Only Act.Buffers) {s t : State} (ht : SameButSend s t) : SameButSend s (t.does e) :=
  h.preserves (P := SameButSend s) (fun a ha u hu => by
    cases a with
    | group k x => exact sameButSend_group hu k x
    | rod | free | ids | op | timers => exact sameButSend_apply hu trivial
    | _ => exact ha.elim) ht

theorem Eff.Only.buffers_words {e : Eff} (h : e.Only Act.Buffers) : e.Only Act.BuffersWords := h.mono fun a ha => by
  cases a with
  | group | rod | free | ids | op | timers => exact trivial
  | _ => exact ha.elim

theorem Eff.Only.sameButWords {e : Eff} (h : e.Only Act.BuffersWords) {s t : State} (ht : SameButWords s t) : SameButWords s (t.does e) :=
  h.preserves (P := SameButWords s) (fun a ha u hu => by
    cases a with
    | group | rod | free | ids | op | timers | team | mx => exact (congrArg (State.apply · _) hu).trans rfl
    | _ => exact ha.elim) ht

theorem buffers_upGroup (k : Nat) (f : Group → Group) : (upGroup k f).Only Act.Buffers := (issues_upGroup k f).mono fun a ha => by
  cases a with
  | group | rod | free => exact trivial
  | _ => exact ha.elim

theorem buffers_upOp (k : Nat) (f : Op → Op) : (upOp k f).Only Act.Buffers := ⟨fun s a ha => by
  unfold upOp at ha
  split at ha
  · exact List.mem_singleton.1 ha ▸ trivial
  · exact nomatch ha⟩

theorem buffers_later (lo hi : Nat) (i : Instr) : (later lo hi i).Only Act.Buffers := only_freely (fun _ => trivial) fun _ => only_on fun _ => only_act trivial

-- what stays of a new operation

/-- Operation `id` stands as it did, but for a fence's mark (R191), and every step to come is still to come. -/
def KeepsOpen (id : Nat) (s t : State) : Prop :=
  (∀ o, s.ops.find id = some o → ∃ n, t.ops.find id = some { o with seg := n }) ∧ ∀ x ∈ s.timers, x ∈ t.timers

theorem keepsOpen_chains (id : Nat) : Chains (KeepsOpen id) where
  refl _ := ⟨fun o h => ⟨o.seg, h⟩, fun _ h => h⟩
  trans h k := ⟨fun o ho => by
    obtain ⟨n, hn⟩ := h.1 o ho
    obtain ⟨m, hm⟩ := k.1 _ hn
    exact ⟨m, hm⟩, fun x hx => k.2 x (h.2 x hx)⟩

theorem keepsOpen_of_eq {id : Nat} {s t : State} (ho : t.ops = s.ops) (ht : t.timers = s.timers) : KeepsOpen id s t :=
  ⟨fun o h => ⟨o.seg, by rw [ho]; exact h⟩, fun x hx => by rw [ht]; exact hx⟩

/-- What may follow a new operation at its issue: `c` issues `i` in `s`, and the operation has number `id`. -/
structure Eff.Follows (s : State) (c : Iss) (i : Instr) (id : Nat) (e : Eff) : Prop where
  only : e.Only Act.Buffers
  quiet : e.Within (StaysQuiet s c i)
  keeps : e.Within (KeepsOpen id)

section Follows
variable {s : State} {c : Iss} {i : Instr} {id : Nat}

theorem follows_skip : skip.Follows s c i id := ⟨only_skip, within_skip (staysQuiet_chains s c i), within_skip (keepsOpen_chains id)⟩

theorem follows_andThen {a b : Eff} (ha : a.Follows s c i id) (hb : b.Follows s c i id) : (andThen a b).Follows s c i id :=
  ⟨only_andThen ha.only hb.only, within_andThen (staysQuiet_chains s c i) ha.quiet hb.quiet, within_andThen (keepsOpen_chains id) ha.keeps hb.keeps⟩

theorem follows_when {b : Bool} {e : Eff} (h : e.Follows s c i id) : (when b e).Follows s c i id := by
  cases b
  · exact follows_skip
  · exact h

theorem follows_on {f : State → Eff} (h : ∀ t, (f t).Follows s c i id) : (on f).Follows s c i id :=
  ⟨only_on fun t => (h t).only, ⟨fun t => (h t).quiet.rel t⟩, ⟨fun t => (h t).keeps.rel t⟩⟩

/-- A change of the issuing group, its registers and its results in flight apart. -/
theorem follows_upGroup (hc : c.gid = s.cur) {f : Group → Group} (hr : ∀ g, SameRegs g (f g)) (hp : ∀ g, (f g).pend = g.pend) :
    (upGroup c.gid f).Follows s c i id where
  only := buffers_upGroup ..
  quiet := ⟨fun _ hq => hq.upCur hc hr fun g p h => .inl (kept_of_mem (hp g ▸ h))⟩
  keeps := ⟨fun t => by
    cases h : t.groups.find c.gid with
    | none => rw [does_upGroup_none _ _ _ h]; exact (keepsOpen_chains id).refl t
    | some g => rw [does_upGroup_some _ _ _ _ h]; exact keepsOpen_of_eq rfl rfl⟩

theorem follows_contWaits (hc : c.gid = s.cur) (k : Nat) : (contWaits c k).Follows s c i id :=
  follows_when (follows_upGroup hc (fun _ => ⟨rfl, rfl, rfl, rfl, rfl⟩) fun _ => rfl)

/-- The operation takes its group's fence mark (R191). -/
theorem follows_mark : (upOp id fun o => { o with seg := 1 }).Follows s c i id where
  only := buffers_upOp ..
  quiet := ⟨fun t hq => hq.of_groups (by
    cases h : t.ops.find id with
    | none => rw [does_upOp_none _ _ _ h]
    | some o => rw [does_upOp_some _ _ _ _ h]; rfl)⟩
  keeps := ⟨fun t => by
    cases h : t.ops.find id with
    | none => rw [does_upOp_none _ _ _ h]; exact (keepsOpen_chains id).refl t
    | some o =>
      rw [does_upOp_some _ _ _ _ h]
      refine ⟨fun p hp => ⟨1, ?_⟩, fun _ hx => hx⟩
      obtain rfl : o = p := Option.some.inj (h.symm.trans hp)
      exact find_setO_self ..⟩

theorem follows_takeMark (hc : c.gid = s.cur) : (takeMark c.gid id).Follows s c i id :=
  follows_on fun _ => follows_when (follows_andThen (follows_upGroup hc (fun _ => ⟨rfl, rfl, rfl, rfl, rfl⟩) fun _ => rfl) follows_mark)

theorem follows_later (lo hi : Nat) (j : Instr) : (later lo hi j).Follows s c i id where
  only := buffers_later ..
  quiet := ⟨fun _ hq => hq.of_groups rfl⟩
  keeps := ⟨fun _ => ⟨fun o h => ⟨o.seg, h⟩, fun _ hx => List.mem_append_left _ hx⟩⟩

end Follows

-- entering

section Enter
variable (c : Iss) (i : Instr) (l : List Acc) (vals : Lanes) (first : List Nat)

theorem does_enterBuffer (t : State) (f : Nat → Eff) :
    t.does (enterBuffer c i l vals first f) = (t.does (enterBuffer c i l vals first fun _ => skip)).does (f t.ids) := by
  rw [enterBuffer, enterBuffer, does_newOp, does_newOp]
  simp only [does_seqs_cons, does_seqs_nil, does_skip]

theorem buffers_newOp (st : OpState) {f : Nat → Eff} (h : ∀ n, (f n).Only Act.Buffers) : (newOp c i st l vals first f).Only Act.Buffers := ⟨fun s a ha => by
  have hop : ∀ n, (on fun s => andThen (act (.op n (some (opOf c s i st l vals first n)))) (f n)).Only Act.Buffers := fun n =>
    only_on fun _ => only_andThen (only_act trivial) (h n)
  rcases List.mem_cons.1 ha with rfl | ha
  · exact trivial
  · exact (hop _).acts _ a ha⟩

theorem buffers_enterBuffer {f : Nat → Eff} (h : ∀ n, (f n).Only Act.Buffers) : (enterBuffer c i l vals first f).Only Act.Buffers :=
  buffers_newOp _ _ _ _ _ _ fun n => only_seqs_cons ((issues_upRod ..).mono fun a ha => by
    cases a with
    | group | rod | free => exact trivial
    | _ => exact ha.elim) <| only_seqs_cons (only_on fun _ => only_act trivial) <| only_seqs_cons (h n) only_seqs_nil

theorem upRod_eq (s : State) (k : Nat) (f : Rod → Rod) : ∃ x, s.does (upRod k f) = { s with rods := x } := by
  cases h : s.rods.find k with
  | none => exact ⟨s.rods, does_upRod_none _ _ _ h⟩
  | some r => exact ⟨_, does_upRod_some _ _ _ _ h⟩

/-- An operation that enters the store buffer: its number, and the step that sends it (R292). -/
theorem enterBuffer_eq (t : State) : ∃ x, t.does (enterBuffer c i l vals first fun _ => skip) = { t with
    ids := t.ids + 1, rods := x, timers := t.timers ++ [(t.now + 48, .storeBufferSend t.ids)],
    ops := t.ops.put t.ids (opOf c (t.apply (.ids (t.ids + 1))) i (.buffered (c.t + 48)) l vals first t.ids) } := by
  rw [enterBuffer, does_newOp, does_seqs_cons]
  obtain ⟨x, hx⟩ := upRod_eq ((t.apply (.ids (t.ids + 1))).apply (.op t.ids (some (opOf c (t.apply (.ids (t.ids + 1))) i (.buffered (c.t + 48)) l vals
    first t.ids)))) (rodKey c.g.frame c.g.rod) fun r => { r with store := r.store ++ [t.ids] }
  exact ⟨x, by rw [hx]; rfl⟩

end Enter

/-- THE OPERATION stands in the store buffer for 48 clocks, and its group's registers stand (R73, R292). -/
theorem enterBuffer_begins {s t : State} {c : Iss} {i : Instr} (hr : s.reaching i = some c) (hq : Quiet s t c i) (hids : t.ids = s.ids) (hnow : t.now = s.now)
    (l : List Acc) (vals : Lanes) (first : List Nat) {f : Nat → Eff} (hf : (f s.ids).Follows s c i s.ids) :
    Quiet s (t.does (enterBuffer c i l vals first f)) c i ∧ (s.now + 48, .storeBufferSend s.ids) ∈ (t.does (enterBuffer c i l vals first f)).timers
      ∧ Opens s (t.does (enterBuffer c i l vals first f)) c i (.buffered (s.now + 48)) fun o => o.accs = l := by
  rw [does_enterBuffer, hids]
  obtain ⟨x, hx⟩ := enterBuffer_eq c i l vals first t
  rw [hids, hnow, t_of_reaching hr] at hx
  have hgroups : (t.does (enterBuffer c i l vals first fun _ => skip)).groups = t.groups := by rw [hx]
  have htimer : (s.now + 48, .storeBufferSend s.ids) ∈ (t.does (enterBuffer c i l vals first fun _ => skip)).timers := by
    rw [hx]
    exact List.mem_append_right _ (List.mem_singleton.2 rfl)
  have hop : (t.does (enterBuffer c i l vals first fun _ => skip)).ops.find s.ids
      = some (opOf c (t.apply (.ids (s.ids + 1))) i (.buffered (s.now + 48)) l vals first s.ids) := by
    rw [hx]
    exact AMap_find_put_self ..
  obtain ⟨hkeep, htimers⟩ := hf.keeps.rel (t.does (enterBuffer c i l vals first fun _ => skip))
  obtain ⟨n, hn⟩ := hkeep _ hop
  exact ⟨hf.quiet.rel _ (hq.of_groups hgroups), htimers _ htimer, _, hn, rfl, rfl, gid_of_reaching hr, rfl, rfl, rfl, rfl⟩

end Sys2Proof.Machine
end

section
/-!
SUPPORT. O34: atomic operations on global memory at their issue (R124, R125, R292, R340 to R343, R441, R442, R471, R472).
-/
namespace Sys2Proof.Machine

/-- The accesses of a write that is mapped. -/
def writeAccs (s : State) (c : Iss) (l : List (Nat × Nat)) (dat : Nat → Lanes) : List Acc :=
  l.map fun p => ⟨p.1, p.2, pageFor s.landed c p.2, dat p.1, false, []⟩

/-- A write that nothing stops goes on with its accesses (R235, R259, R260). -/
theorem globalWrite_writable {s : State} {c : Iss} {need : Need} {l : List (Nat × Nat)} {dat : Nat → Lanes} (h : Writable s c need l dat) (kind : Nat)
    (k : List Acc → Eff) : globalWrite c s.landed kind need l dat k = .done (andThen (fillFor c.g.frame (s.ctxOf c.g) l) (k (writeAccs s c l dat))) := by
  obtain ⟨⟨hfail, hpage⟩, hesc, hfull⟩ := h
  have hf : failedOf s.landed c.g.frame (s.landed.ctxOf c.g) need l = [] := by rw [landed_ctxOf]; exact hfail
  have hstays : (if c.depth = 0 || need = .read then none else (writeAccs s c l dat).find? fun a => escapes s.landed a.pageD a.adr) = none := by
    by_cases hd : (c.depth = 0 || need = .read) = true
    · rw [if_pos hd]
    · rw [if_neg hd]
      simp only [Bool.or_eq_true, decide_eq_true_eq, not_or] at hd
      refine List.find?_eq_none.2 fun a ha => ?_
      obtain ⟨p, hp, rfl⟩ := List.mem_map.1 ha
      obtain ⟨g, hg⟩ := Option.isSome_iff_exists.1 (hpage p hp)
      simp only [Acc.pageD, hg, Option.getD_some, hesc hd.1 hd.2 p hp g hg, Bool.false_eq_true, not_false_eq_true]
  have hroom : ¬ (decide (c.g.csr.vid ≠ 0) && decide (need ≠ .read) && viewFull s.landed (s.landed.lead (s.landed.ctxOf c.g)) c.g.csr.vid c.nk
      (newCopies s.landed (s.landed.lead (s.landed.ctxOf c.g)) c.g.csr.vid (writeAccs s c l dat))) = true := by
    rw [landed_ctxOf]
    simp only [Bool.and_eq_true, decide_eq_true_eq, not_and, Bool.not_eq_true]
    exact fun hv => hfull hv.1 hv.2
  unfold globalWrite
  dsimp only
  rw [hf]
  dsimp only
  rw [show (l.map fun p => (⟨p.1, p.2, pageFor s.landed c p.2, dat p.1, false, []⟩ : Acc)) = writeAccs s c l dat from rfl, hstays]
  dsimp only
  rw [if_neg hroom, landed_ctxOf]

/-- An operation on global memory enters the store buffer, and nothing else changes (R292). -/
theorem buffered_global {s : State} {c : Iss} {i : Instr} (hr : s.reaching i = some c) (l : List (Nat × Nat)) (accs : List Acc) {f : Nat → Eff}
    (hf : ∀ n, (f n).Follows s c i n) :
    let t := (s.begun c i).does (andThen (fillFor c.g.frame (s.ctxOf c.g) l) (on fun u => enterBuffer c i accs [] (orderedBefore u c i accs) f))
    SameButSend s t ∧ Quiet s t c i ∧ (s.now + 48, .storeBufferSend s.ids) ∈ t.timers ∧ Opens s t c i (.buffered (s.now + 48)) fun o => o.accs = accs := by
  have hfill := rides_fillFor c.g.frame (s.ctxOf c.g) l
  have hsend := hfill.sends.sending (begun_sending hr)
  have hids := (hfill.offOps.keeps_ids _).trans (begun_ids s c i)
  have hnow := (congrArg State.now (show _ = _ from hsend.same)).trans rfl
  dsimp only
  rw [does_andThen, does_on]
  exact ⟨(buffers_enterBuffer _ _ _ _ _ fun n => (hf n).only).buffers_send hsend.same, enterBuffer_begins hr hsend.quiet hids hnow accs [] _ (hf s.ids)⟩

/-- Each lane and address of `l` has an access that is still to be performed, at its page. -/
def Accessed (s : State) (c : Iss) (l : List (Nat × Nat)) (dat : Nat → Lanes) (accs : List Acc) : Prop :=
  ∀ p ∈ l, ∃ x ∈ accs, x.lane = p.1 ∧ x.adr = p.2 ∧ x.done = false ∧ x.page = pageFor s.landed c p.2 ∧ x.dat = dat p.1

theorem accessed_writeAccs (s : State) (c : Iss) (l : List (Nat × Nat)) (dat : Nat → Lanes) : Accessed s c l dat (writeAccs s c l dat) := fun p hp =>
  ⟨_, List.mem_map.2 ⟨p, hp, rfl⟩, rfl, rfl, rfl, rfl, rfl⟩

/-- An instruction enters the store buffer with an access for each lane and address of `l`, and nothing else changes (R292). -/
def BeginsGlobally (s : State) (c : Iss) (i : Instr) (l : List (Nat × Nat)) (dat : Nat → Lanes) : Prop :=
  ∃ t, exec i s = .next t ∧ SameButSend s t ∧ Quiet s t c i ∧ (s.now + 48, .storeBufferSend s.ids) ∈ t.timers
    ∧ Opens s t c i (.buffered (s.now + 48)) fun o => Accessed s c l dat o.accs

theorem globally_begins {s : State} {c : Iss} {i : Instr} {body : Iss → State → Res} (hi : s.issuing i = some c) (ha : acts c i = true)
    (hx : exec i s = issue i s body) {l : List (Nat × Nat)} {dat : Nat → Lanes} {accs : List Acc} {f : Nat → Eff} (hf : ∀ n, (f n).Follows s c i n)
    (hb : body c s.landed = .done (andThen (fillFor c.g.frame (s.ctxOf c.g) l) (on fun u => enterBuffer c i accs [] (orderedBefore u c i accs) f)))
    (haccs : Accessed s c l dat accs) : BeginsGlobally s c i l dat := by
  obtain ⟨hsame, hquiet, htimer, hop⟩ := buffered_global (issuing_iff.1 hi).1 l accs hf
  exact ⟨_, hx.trans (issue_done hi ha hb), hsame, hquiet, htimer, hop.imp fun o ho => by rw [ho]; exact haccs⟩

/-- `ATOM`, `ACAS` and `RED` on global memory. -/
theorem atomicIssue_global {s : State} {c : Iss} {i : Instr} {a : Src} {mc : Mc} (hi : s.issuing i = some c) (ha : acts c i = true) (hcl : Clean c i)
    {dat : Iss → Nat → Lanes} {notice : Nat} (hx : exec i s = issue i s fun c s => atomicIssue c s i false a mc (dat c) notice)
    (hal : ∀ p ∈ addrs c false a mc.ofs (accBytes i) c.on.lanes, p.2 % accBytes i = 0)
    (hw : Writable s c .write (addrs c false a mc.ofs (accBytes i) c.on.lanes) (dat c)) :
    BeginsGlobally s c i (addrs c false a mc.ofs (accBytes i) c.on.lanes) (dat c) := by
  have hc := gid_of_reaching (issuing_iff.1 hi).1
  refine globally_begins hi ha hx (f := fun id => andThen (takeMark c.gid id) (when (notice = 7) (contWaits c id)))
    (fun n => follows_andThen (follows_takeMark hc) (follows_when (follows_contWaits hc n))) ?_ (accessed_writeAccs _ _ _ _)
  rw [atomicIssue, consuming_clean hcl]
  dsimp only
  rw [aligned_passes (ls := false) hal nofun, if_neg Bool.false_ne_true, globalWrite_writable hw]

theorem pairAt_poison (c : Iss) (k : Nat) (a : Src) (n : Nat) : (c.pairAt k a n).2 = c.poisonAt (pairR k a) n := by
  change (if (lane (c.srcK k a 0) n).poi then some (lane (c.srcK k a 0) n).val
      else if (lane (c.srcK k a 1) n).poi then some (lane (c.srcK k a 1) n).val else none)
    = firstPoison [if (lane (c.srcK k a 0) n).poi then some (lane (c.srcK k a 0) n).val else none,
      if (lane (c.srcK k a 1) n).poi then some (lane (c.srcK k a 1) n).val else none]
  cases (lane (c.srcK k a 0) n).poi <;> cases (lane (c.srcK k a 1) n).poi <;> rfl

/-- With clean operands no lane's address is poisoned. -/
theorem badAddrs_clean {c : Iss} {i : Instr} (h : Clean c i) {a : Src} (hu : pairR 1 a ∈ i.uses) (ofs : BitVec 6) (w : Nat) :
    badAddrs c false a ofs w c.on.lanes = [] := List.filterMap_eq_nil_iff.2 fun n hn => by
  obtain ⟨hn, hon⟩ := mask_mem_lanes.1 hn
  change ((c.pairAt 1 a n).2).map _ = none
  rw [pairAt_poison, h.1 _ hu n hn hon]
  rfl

theorem xaddRecord_nil (c : Iss) (e : Eff) : andThen (xaddRecord c []) e = e := rfl

theorem mem_addrs_lane {c : Iss} {ls : Bool} {a : Src} {ofs : BitVec 6} {w : Nat} {l : List Nat} {p : Nat × Nat} (h : p ∈ addrs c ls a ofs w l) : p.1 ∈ l := by
  obtain ⟨n, hn, hp⟩ := List.mem_filterMap.1 h
  dsimp only at hp
  split at hp
  · cases hp
  · cases hp
    exact hn

section Cells
variable {s : State} {c : Iss} {h : Head} {ty : XTy} {clr : Bool} {d : Dst} {a b : Src} {mc : Mc}

/-- `XADD` (R124, R471). -/
theorem xadd_begins (hi : s.issuing (.xadd h ty a b mc) = some c) (ha : acts c (.xadd h ty a b mc) = true) (hcl : Clean c (.xadd h ty a b mc))
    (hal : ∀ p ∈ addrs c false a mc.ofs 64 c.on.lanes, p.2 % 64 = 0)
    (hw : Writable s c .write (addrs c false a mc.ofs 64 c.on.lanes) fun L => [lane (c.src 2 b) L]) :
    BeginsGlobally s c (.xadd h ty a b mc) (addrs c false a mc.ofs 64 c.on.lanes) fun L => [lane (c.src 2 b) L] := by
  have hc := gid_of_reaching (issuing_iff.1 hi).1
  refine globally_begins hi ha rfl (f := fun id => takeMark c.gid id) (fun n => follows_takeMark hc) ?_ (accessed_writeAccs _ _ _ _)
  dsimp only
  rw [consuming_clean hcl, aligned_passes (ls := false) hal nofun, globalWrite_writable hw, badAddrs_clean hcl (.head _)]
  simp only [xaddRecord_nil]

/-- `XRD` (R125, R472): its accesses carry no data, and no lane's address is poisoned. -/
theorem xrd_begins (hi : s.issuing (.xrd h clr d a mc) = some c) (ha : acts c (.xrd h clr d a mc) = true) (hcl : Clean c (.xrd h clr d a mc))
    (hal : ∀ p ∈ addrs c false a mc.ofs 64 c.on.lanes, p.2 % 64 = 0)
    (hw : Writable s c (if clr then .write else .read) (addrs c false a mc.ofs 64 c.on.lanes) fun _ => []) :
    BeginsGlobally s c (.xrd h clr d a mc) (addrs c false a mc.ofs 64 c.on.lanes) fun _ => [] := by
  have hr := (issuing_iff.1 hi).1
  have hc := gid_of_reaching hr
  have hdat : (writeAccs s c (addrs c false a mc.ofs 64 c.on.lanes) fun _ => []).map (fun x => { x with dat := (accOf c x.lane x.adr none).dat })
      = writeAccs s c (addrs c false a mc.ofs 64 c.on.lanes) fun _ => [] := by
    rw [writeAccs, List.map_map]
    refine List.map_congr_left fun p hp => ?_
    obtain ⟨hn, hon⟩ := mask_mem_lanes.1 (mem_addrs_lane hp)
    simp only [Function.comp_apply, accOf, hcl.2 _ hn (act_of_on hr hon)]
  refine globally_begins hi ha rfl (f := fun id => andThen (when clr (takeMark c.gid id)) (contWaits c id))
    (fun n => follows_andThen (follows_when (follows_takeMark hc)) (follows_contWaits hc n)) ?_ (accessed_writeAccs _ _ _ _)
  dsimp only
  rw [consuming_clean hcl, aligned_passes (ls := false) hal nofun, globalWrite_writable hw, badAddrs_clean hcl (.head _)]
  simp only [hdat, List.map_nil, List.append_nil]

end Cells

end Sys2Proof.Machine
end

section
/-!
SUPPORT. O34: atomic operations on the local store at their issue (R157, R342, R348): what one lane does to the words, and what all lanes do.
-/
namespace Sys2Proof.Machine

-- whole words of the local store

section Words
variable {a m : Nat}

theorem lsRead_payload (t : Team) (hm : 0 < m) (ha : a % 4 = 0) : (t.lsRead a (4 * m)).2 = none ↔ ∀ j < m, (t.word (a / 4 + j)).poi = false := by
  have h1 : (a + 4 * m - 1) / 4 + 1 - a / 4 = m := by omega
  unfold Team.lsRead
  dsimp only
  rw [h1, List.findSome?_eq_none_iff]
  constructor
  · intro h j hj
    have hw := h _ (List.mem_map.2 ⟨j, List.mem_range.2 hj, rfl⟩)
    cases hp : (t.word (a / 4 + j)).poi with
    | false => rfl
    | true => rw [hp] at hw; cases hw
  · intro h w hw
    obtain ⟨j, hj, rfl⟩ := List.mem_map.1 hw
    rw [h j (List.mem_range.1 hj), if_neg Bool.false_ne_true]

/-- What is read depends on the words read. -/
theorem lsRead_congr {t u : Team} (hm : 0 < m) (ha : a % 4 = 0) (h : ∀ j < m, t.word (a / 4 + j) = u.word (a / 4 + j)) :
    t.lsRead a (4 * m) = u.lsRead a (4 * m) := by
  have h1 : (a + 4 * m - 1) / 4 + 1 - a / 4 = m := by omega
  have hw : (List.range m).map (fun k => t.word (a / 4 + k)) = (List.range m).map fun k => u.word (a / 4 + k) :=
    List.map_congr_left fun j hj => h j (List.mem_range.1 hj)
  unfold Team.lsRead
  dsimp only
  rw [h1, hw]

theorem lsRead_length (t : Team) (hm : 0 < m) (ha : a % 4 = 0) : (t.lsRead a (4 * m)).1.length = 4 * m := by
  rw [lsRead_words t hm ha]
  simp [List.length_flatMap, leBytes_length, Function.comp_def, Nat.mul_comm]

/-- Bytes cut into words. -/
theorem flatMap_words (l : List Byte) (m : Nat) : (List.range m).flatMap (fun j => (l.drop (4 * j)).take 4) = l.take (4 * m) := by
  induction m with
  | zero => rfl
  | succ m ih => rw [List.range_succ, List.flatMap_append, ih, Nat.mul_succ, List.take_add, List.flatMap_singleton]

/-- A word of the local store written with four clean bytes. -/
def LWord.clean4 (w : LWord) (l : List Byte) : LWord := { w with val := BitVec.ofNat 32 (leNat l), poi := false }

theorem word_put (t : Team) (k j : Nat) (w : LWord) : ({ t with words := t.words.put k w } : Team).word j = if j = k then w else t.word j := by
  rw [Team.word, AMap.findD]
  split
  · rename_i h
    rw [h, AMap_find_put_self]
    rfl
  · rename_i h
    rw [AMap_find_put_ne _ _ h]
    rfl

/-- A write of whole words (R156). -/
theorem lsWrite_words {l : List Byte} (hl : l.length = 4 * m) (ha : a % 4 = 0) {n : Nat} (hn : m < n) (t : Team) (k : Nat) :
    (t.lsWrite none n a l).word k = if a / 4 ≤ k ∧ k < a / 4 + m then (t.word k).clean4 ((l.drop (4 * (k - a / 4))).take 4) else t.word k := by
  induction m generalizing n a l t with
  | zero =>
    obtain rfl := List.length_eq_zero_iff.1 hl
    obtain ⟨n, rfl⟩ := Nat.exists_eq_succ_of_ne_zero (Nat.ne_of_gt hn)
    rw [if_neg (by omega)]
    rfl
  | succ m ih =>
    obtain ⟨n, rfl⟩ := Nat.exists_eq_succ_of_ne_zero (show n ≠ 0 by omega)
    have hne : l.isEmpty = false := by
      cases l with
      | nil => simp at hl
      | cons b l => rfl
    have htake : (l.take 4).length = 4 := by rw [List.length_take]; omega
    have hwrite : (t.word (a / 4)).write (a % 4) (l.take (4 - a % 4)) none = (t.word (a / 4)).clean4 (l.take 4) := by
      rw [ha]
      exact if_pos htake
    rw [Team.lsWrite, hne, if_neg Bool.false_ne_true]
    dsimp only
    rw [hwrite, ha, ih (by rw [List.length_drop]; omega) (by omega) (by omega), word_put]
    have hdiv : (a + (4 - 0)) / 4 = a / 4 + 1 := by omega
    rw [hdiv]
    by_cases hk : k = a / 4
    · rw [if_neg (by omega), if_pos hk, if_pos (by omega), hk, Nat.sub_self, Nat.mul_zero, List.drop_zero]
    · rw [if_neg hk, List.drop_drop, show 4 - 0 + 4 * (k - (a / 4 + 1)) = 4 * (k - (a / 4 + 1)) + 4 by omega]
      by_cases hin : a / 4 + 1 ≤ k ∧ k < a / 4 + 1 + m
      · rw [if_pos hin, if_pos (by omega), show 4 * (k - (a / 4 + 1)) + 4 = 4 * (k - a / 4) by omega]
      · rw [if_neg hin, if_neg (by omega)]

theorem leBytes_word {l : List Byte} (h : l.length = 4) : leBytes 4 (BitVec.ofNat 32 (leNat l)).toNat = l := by
  have hl := leBytes_leNat l
  rw [h] at hl
  have hlt : leNat l % 2 ^ 32 = leNat l := by
    have hmod := leNat_leBytes 4 (leNat l)
    rw [hl] at hmod
    exact hmod.symm
  rw [BitVec.toNat_ofNat, hlt, hl]

/-- The words that such a write leaves are read as written. -/
theorem lsRead_lsWrite {l : List Byte} (hl : l.length = 4 * m) (hm : 0 < m) (ha : a % 4 = 0) {n : Nat} (hn : m < n) (t : Team) :
    (t.lsWrite none n a l).lsRead a (4 * m) = (l, none) := by
  have hword (j : Nat) (hj : j < m) : (t.lsWrite none n a l).word (a / 4 + j) = (t.word (a / 4 + j)).clean4 ((l.drop (4 * j)).take 4) := by
    rw [lsWrite_words hl ha hn, if_pos (by omega), Nat.add_sub_cancel_left]
  refine Prod.ext ?_ ((lsRead_payload _ hm ha).2 fun j hj => by rw [hword j hj]; rfl)
  rw [lsRead_words _ hm ha, List.flatMap_map]
  refine Eq.trans ?_ ((flatMap_words l m).trans (List.take_of_length_le hl.le))
  refine congrArg List.flatten (List.map_congr_left fun j hj => ?_)
  have hj := List.mem_range.1 hj
  have hlen : ((l.drop (4 * j)).take 4).length = 4 := by rw [List.length_take, List.length_drop]; omega
  rw [hword j hj, LWord.clean4, leBytes_word hlen]

end Words

-- one lane

theorem rmw_length {k : AtomKind} {dat : Lanes} {old b : List Byte} {poi : Option Word} (h : rmw k dat old poi = some b) : b.length = atomBytes k := by
  cases k with
  | atom op w =>
    simp only [rmw] at h
    split at h
    · cases h
    · exact Option.some.inj h ▸ leBytes_length ..
  | acas w =>
    simp only [rmw] at h
    split at h
    · exact Option.some.inj h ▸ leBytes_length ..
    · cases h
  | xadd ty => exact Option.some.inj h ▸ leBytes_length ..
  | xrd clr =>
    simp only [rmw] at h
    split at h
    · exact Option.some.inj h ▸ leBytes_length ..
    · cases h

/-- An atomic operation on whole words: their number. -/
structure AtomWords (i : Instr) (m : Nat) : Prop where
  pos : 0 < m
  acc : accBytes i = 4 * m
  atom : atomBytes (atomKind i) = 4 * m

/-- A lane's local-store atomic: its number, its address and its data. -/
abbrev LaneAtom : Type := Nat × Nat × Lanes

/-- The team's words after one lane's operation (R342, R348). -/
def atomTeam (i : Instr) (t : Team) (q : LaneAtom) : Team :=
  match rmw (atomKind i) q.2.2 (t.lsRead q.2.1 (accBytes i)).1 (t.lsRead q.2.1 (accBytes i)).2 with
  | some b => t.lsWrite none (b.length / 4 + 2) q.2.1 b
  | none => t

section Lane
variable {i : Instr} {m : Nat} (hi : AtomWords i m) {q : LaneAtom} (hq : q.2.1 % 4 = 0)
include hi hq

theorem atomTeam_outside (t : Team) {k : Nat} (hk : k < q.2.1 / 4 ∨ q.2.1 / 4 + m ≤ k) : (atomTeam i t q).word k = t.word k := by
  unfold atomTeam
  split
  · rename_i b hb
    have hl := (rmw_length hb).trans hi.atom
    rw [lsWrite_words hl hq (by omega), if_neg (by omega)]
  · rfl

/-- What one lane leaves depends on the words that it finds there. -/
theorem atomTeam_congr {t u : Team} (h : ∀ j < m, t.word (q.2.1 / 4 + j) = u.word (q.2.1 / 4 + j)) {j : Nat} (hj : j < m) :
    (atomTeam i t q).word (q.2.1 / 4 + j) = (atomTeam i u q).word (q.2.1 / 4 + j) := by
  have hread : t.lsRead q.2.1 (accBytes i) = u.lsRead q.2.1 (accBytes i) := by rw [hi.acc]; exact lsRead_congr hi.pos hq h
  unfold atomTeam
  rw [hread]
  split
  · rename_i b hb
    have hl := (rmw_length hb).trans hi.atom
    rw [lsWrite_words hl hq (by omega), lsWrite_words hl hq (by omega), h j hj]
  · exact h j hj

/-- What is read after it: what it writes, or what stood there. -/
theorem atomTeam_read (t : Team) (hp : (t.lsRead q.2.1 (4 * m)).2 = none) :
    (atomTeam i t q).lsRead q.2.1 (4 * m) = ((rmw (atomKind i) q.2.2 (t.lsRead q.2.1 (4 * m)).1 none).getD (t.lsRead q.2.1 (4 * m)).1, none) := by
  unfold atomTeam
  rw [hi.acc, hp]
  split
  · rename_i b hb
    have hl := (rmw_length hb).trans hi.atom
    rw [lsRead_lsWrite hl hi.pos hq (by omega), hb]
    rfl
  · rename_i hb
    rw [hb]
    exact Prod.ext rfl hp

end Lane

-- all lanes

/-- The accesses of lanes performed in order, with the old words (R157). -/
def localAccs (i : Instr) : List LaneAtom → Team → List Acc
  | [], _ => []
  | q :: l, t => ⟨q.1, q.2.1, none, q.2.2, true, (List.range (accBytes i / 4)).map fun j => (t.word (q.2.1 / 4 + j)).elem⟩ :: localAccs i l (atomTeam i t q)

theorem words_apart {n a b j : Nat} (ha : a % (4 * n) = 0) (hb : b % (4 * n) = 0) (hab : a ≠ b) (hj : j < n) : a / 4 + j < b / 4 ∨ b / 4 + n ≤ a / 4 + j := by
  obtain ⟨x, rfl⟩ := Nat.dvd_of_mod_eq_zero ha
  obtain ⟨y, rfl⟩ := Nat.dvd_of_mod_eq_zero hb
  rw [Nat.mul_assoc, Nat.mul_assoc, Nat.mul_div_cancel_left _ (by decide), Nat.mul_div_cancel_left _ (by decide)]
  rcases Nat.lt_or_gt_of_ne (fun h => hab (by rw [h]) : x ≠ y) with h | h
  · left
    have := Nat.mul_le_mul_left n (Nat.succ_le_of_lt h)
    rw [Nat.mul_succ] at this
    omega
  · right
    have := Nat.mul_le_mul_left n (Nat.succ_le_of_lt h)
    rw [Nat.mul_succ] at this
    omega

section Lanes
variable {i : Instr} {m : Nat} (hi : AtomWords i m)
include hi

theorem foldl_atomTeam_outside {l : List LaneAtom} (hl : ∀ q ∈ l, q.2.1 % 4 = 0) (t : Team) {k : Nat}
    (hk : ∀ q ∈ l, k < q.2.1 / 4 ∨ q.2.1 / 4 + m ≤ k) : (l.foldl (atomTeam i) t).word k = t.word k := by
  induction l generalizing t with
  | nil => rfl
  | cons q l ih =>
    rw [List.foldl_cons, ih (fun p hp => hl p (.tail _ hp)) _ fun p hp => hk p (.tail _ hp),
      atomTeam_outside hi (hl q (.head _)) t (hk q (.head _))]

/-- LANES AT DIFFERENT LOCATIONS: each finds what stood there at issue, and what it leaves stays (R157). -/
theorem foldl_atomTeam {l : List LaneAtom} (hl : ∀ q ∈ l, q.2.1 % (4 * m) = 0) (hnd : (l.map fun q => q.2.1).Nodup) (t : Team) :
    (∀ q ∈ l, ∀ j < m, (l.foldl (atomTeam i) t).word (q.2.1 / 4 + j) = (atomTeam i t q).word (q.2.1 / 4 + j))
      ∧ ∀ q ∈ l, ∃ x ∈ localAccs i l t, x.lane = q.1 ∧ x.done = true ∧ x.res = (List.range m).map fun j => (t.word (q.2.1 / 4 + j)).elem := by
  have h4 : ∀ {a : Nat}, a % (4 * m) = 0 → a % 4 = 0 := fun h => Nat.mod_eq_zero_of_dvd ((Nat.dvd_mul_right 4 m).trans (Nat.dvd_of_mod_eq_zero h))
  have hwords : accBytes i / 4 = m := by rw [hi.acc]; omega
  induction l generalizing t with
  | nil => exact ⟨nofun, nofun⟩
  | cons p l ih =>
    rw [List.map_cons, List.nodup_cons] at hnd
    obtain ⟨ih1, ih2⟩ := ih (fun q hq => hl q (.tail _ hq)) hnd.2 (atomTeam i t p)
    have hp := hl p (.head _)
    have hapart (q : LaneAtom) (hq : q ∈ l) : p.2.1 ≠ q.2.1 := fun h => hnd.1 (h ▸ List.mem_map_of_mem hq)
    have hsame (q : LaneAtom) (hq : q ∈ l) (j : Nat) (hj : j < m) : (atomTeam i t p).word (q.2.1 / 4 + j) = t.word (q.2.1 / 4 + j) :=
      atomTeam_outside hi (h4 hp) t (words_apart (hl q (.tail _ hq)) hp (hapart q hq).symm hj)
    refine ⟨fun q hq j hj => ?_, fun q hq => ?_⟩
    · rcases List.mem_cons.1 hq with rfl | hq
      · exact foldl_atomTeam_outside hi (fun r hr => h4 (hl r (.tail _ hr))) _ fun r hr =>
          words_apart hp (hl r (.tail _ hr)) (hapart r hr) hj
      · exact (ih1 q hq j hj).trans (atomTeam_congr hi (h4 (hl q (.tail _ hq))) (hsame q hq) hj)
    · rcases List.mem_cons.1 hq with rfl | hq
      · exact ⟨_, .head _, rfl, rfl, by rw [hwords]⟩
      · obtain ⟨x, hx, hlane, hdone, hres⟩ := ih2 q hq
        refine ⟨x, .tail _ hx, hlane, hdone, hres.trans (List.map_congr_left fun j hj => ?_)⟩
        rw [hsame q hq j (List.mem_range.1 hj)]

end Lanes

-- the effect

/-- An act that writes a team's local store. -/
def Act.Words : Act → Prop
  | .team .. | .mx .. => True
  | _ => False

theorem words_upWords (tk : Nat) (f : Team → Team) : (upWords tk f).Only Act.Words :=
  only_andThen (only_on fun _ => only_onSome fun _ => only_each fun _ => only_when (only_act trivial)) ⟨fun s a ha => by
    unfold upTeam at ha
    split at ha
    · exact List.mem_singleton.1 ha ▸ trivial
    · exact nomatch ha⟩

theorem noteWords_teams (tk : Nat) (s : State) : (s.does (noteWords tk)).teams = s.teams :=
  keeps_on (fun _ => keeps_onSome _ fun _ => keeps_each _ fun _ _ => keeps_when _ fun _ => keeps_act fun _ => rfl) s

theorem upWords_find {tk : Nat} {s : State} {t : Team} (h : s.teams.find tk = some t) (f : Team → Team) :
    (s.does (upWords tk f)).teams.find tk = some (f t) := by
  rw [upWords, does_andThen, does_upTeam_some _ _ _ t (by rw [noteWords_teams]; exact h)]
  exact find_setO_self ..

/-- One lane's operation on the words of a team that stands as `t`. -/
def atomPut (i : Instr) (tk : Nat) (t : Team) (q : LaneAtom) : Eff :=
  match rmw (atomKind i) q.2.2 (t.lsRead q.2.1 (accBytes i)).1 (t.lsRead q.2.1 (accBytes i)).2 with
  | some b => lsPut tk q.2.1 b none
  | none => skip

theorem words_atomPut (i : Instr) (tk : Nat) (t : Team) (q : LaneAtom) : (atomPut i tk t q).Only Act.Words := by
  unfold atomPut
  split
  · exact words_upWords ..
  · exact only_skip

theorem atomPut_find {i : Instr} {tk : Nat} {s : State} {t : Team} (h : s.teams.find tk = some t) (q : LaneAtom) :
    (s.does (atomPut i tk t q)).teams.find tk = some (atomTeam i t q) := by
  unfold atomPut atomTeam
  cases rmw (atomKind i) q.2.2 (t.lsRead q.2.1 (accBytes i)).1 (t.lsRead q.2.1 (accBytes i)).2 with
  | none => exact h
  | some b => exact upWords_find h _

/-- The lanes are performed in order, and what follows receives their accesses (R157). -/
theorem does_localAtomics (i : Instr) (tk : Nat) (l : List LaneAtom) (acc : List Acc) (k : List Acc → Eff) {s : State} {t : Team}
    (h : s.teams.find tk = some t) : ∃ e : Eff, e.Only Act.Words ∧ s.does (localAtomics i tk l acc k) = (s.does e).does (k (acc ++ localAccs i l t))
      ∧ (s.does e).teams.find tk = some (l.foldl (atomTeam i) t) := by
  induction l generalizing s t acc with
  | nil => exact ⟨skip, only_skip, by rw [localAccs, List.append_nil]; rfl, h⟩
  | cons q l ih =>
    have hdoes : s.does (localAtomics i tk (q :: l) acc k) = (s.does (atomPut i tk t q)).does (localAtomics i tk l
        (acc ++ [⟨q.1, q.2.1, none, q.2.2, true, (List.range (accBytes i / 4)).map fun j => (t.word (q.2.1 / 4 + j)).elem⟩]) k) := by
      rw [localAtomics, does_on, h]
      exact does_andThen ..
    obtain ⟨e, he, hrest, hfind⟩ := ih
      (acc ++ [⟨q.1, q.2.1, none, q.2.2, true, (List.range (accBytes i / 4)).map fun j => (t.word (q.2.1 / 4 + j)).elem⟩]) (atomPut_find h q)
    refine ⟨andThen (atomPut i tk t q) e, only_andThen (words_atomPut i tk t q) he, ?_, ?_⟩
    · rw [hdoes, hrest, does_andThen, List.append_assoc]
      rfl
    · rw [does_andThen, hfind]
      rfl

end Sys2Proof.Machine
end

section
/-!
SUPPORT. O34: `ATOM`, `ACAS` and `RED` on the local store, performed at their issue (R157, R341 to R343, R348, R442), and the statement.
-/
namespace Sys2Proof.Machine

-- what the words of the local store leave

theorem Eff.Only.words_buffers {e : Eff} (h : e.Only Act.Words) : e.Only Act.BuffersWords := h.mono fun a ha => by
  cases a with
  | team | mx => exact trivial
  | _ => exact ha.elim

theorem Eff.Only.words_groups {e : Eff} (h : e.Only Act.Words) : e.Keeps State.groups := h.keeps fun a ha s => by
  cases a with
  | team | mx => rfl
  | _ => exact ha.elim

theorem Eff.Only.words_ids {e : Eff} (h : e.Only Act.Words) : e.Keeps State.ids := h.keeps fun a ha s => by
  cases a with
  | team | mx => rfl
  | _ => exact ha.elim

theorem Eff.Only.words_now {e : Eff} (h : e.Only Act.Words) : e.Keeps State.now := h.keeps fun a ha s => by
  cases a with
  | team | mx => rfl
  | _ => exact ha.elim

theorem Eff.Only.buffers_teams {e : Eff} (h : e.Only Act.Buffers) : e.Keeps State.teams := h.keeps fun a ha s => by
  cases a with
  | group | rod | free | ids | op | timers => rfl
  | _ => exact ha.elim

theorem SameButIssue.words {s t : State} (h : SameButIssue s t) : SameButWords s t := by
  rw [SameButIssue] at h
  rw [h]
  rfl

theorem SameButIssue.teams_now {s t : State} (h : SameButIssue s t) : t.teams = s.teams ∧ t.now = s.now := by
  rw [SameButIssue] at h
  rw [h]
  exact ⟨rfl, rfl⟩

-- the values

theorem atomWords_atom (h : Head) (ls : Bool) (op : Aop) (w64 : Bool) (d : Dst) (a b : Src) (mc : Mc) :
    AtomWords (.atom h ls op w64 d a b mc) (if w64 then 2 else 1) := by
  cases w64 <;> exact ⟨by decide, rfl, rfl⟩

theorem atomWords_red (h : Head) (ls : Bool) (op : Aop) (w64 : Bool) (a b : Src) (mc : Mc) : AtomWords (.red h ls op w64 a b mc) (if w64 then 2 else 1) := by
  cases w64 <;> exact ⟨by decide, rfl, rfl⟩

theorem atomWords_acas (h : Head) (ls w64 : Bool) (d : Dst) (a b : Src) (mc : Mc) : AtomWords (.acas h ls w64 d a b mc) (if w64 then 2 else 1) := by
  cases w64 <;> exact ⟨by decide, rfl, rfl⟩

/-- What stands after `ATOM` or `RED` on a clean location (R348). -/
theorem rmw_atom_getD (op : Aop) (w64 : Bool) (x : Lanes) (old : List Byte) :
    (rmw (.atom op w64) x old none).getD old
      = leBytes (if w64 then 8 else 4) (atomOp op (8 * if w64 then 8 else 4) (leNat old) (leNat (storeBytesOf (if w64 then 8 else 4) x))) := rfl

/-- What stands after `ACAS` on a clean location (R342). -/
theorem rmw_acas_getD (w64 : Bool) (x : Lanes) {old : List Byte} (hl : old.length = if w64 then 8 else 4) :
    (rmw (.acas w64) x old none).getD old
      = leBytes (if w64 then 8 else 4) (if leNat old = leNat (storeBytesOf (if w64 then 8 else 4) x)
          then leNat (storeBytesOf (if w64 then 8 else 4) (x.drop ((if w64 then 8 else 4) / 4))) else leNat old) := by
  rw [← hl]
  simp only [rmw, atomBytes, Option.isNone_none, Bool.true_and, decide_eq_true_eq, List.drop_zero, ← hl]
  split
  · rfl
  · exact (leBytes_leNat old).symm

-- the issue

/-- The lanes of `l` are performed on the words of team `tm` at the issue of `i`, `new L old` being what lane `L` stores over `old`; the operation stands in
the store buffer with the old words (R157, R292). -/
def BeginsLocally (s : State) (c : Iss) (i : Instr) (tm : Team) (n : Nat) (l : List (Nat × Nat)) (new : Nat → Nat → Nat) : Prop :=
  ∃ t tm', exec i s = .next t ∧ SameButWords s t ∧ Quiet s t c i ∧ t.teams.find c.g.team = some tm'
    ∧ (∀ p ∈ l, (tm.lsRead p.2 n).2 = none →
        (tm'.lsRead p.2 n).1 = leBytes n (new p.1 (leNat (tm.lsRead p.2 n).1)) ∧ (tm'.lsRead p.2 n).2 = none)
    ∧ (∀ k, (∀ p ∈ l, k < p.2 / 4 ∨ p.2 + n ≤ 4 * k) → tm'.word k = tm.word k)
    ∧ Opens s t c i (.buffered (s.now + 48)) fun o => ∀ p ∈ l, ∃ x ∈ o.accs, x.lane = p.1 ∧ x.done = true
        ∧ x.res = (List.range (n / 4)).map fun j => (tm.word (p.2 / 4 + j)).elem

/-- The lanes of `l` with their data. -/
def laneAtoms (l : List (Nat × Nat)) (dat : Nat → Lanes) : List LaneAtom := l.map fun p => (p.1, p.2, dat p.1)

theorem mem_laneAtoms {l : List (Nat × Nat)} {dat : Nat → Lanes} {p : Nat × Nat} (h : p ∈ l) : (p.1, p.2, dat p.1) ∈ laneAtoms l dat :=
  List.mem_map.2 ⟨p, h, rfl⟩

section Local
variable {s : State} {c : Iss} {i : Instr} {tm : Team}

/-- The state that the issue of a local-store atomic leaves: the words after all lanes, and the operation in the store buffer. -/
theorem localAtomics_enter (hr : s.reaching i = some c) (ht : s.teams.find c.g.team = some tm) (l : List LaneAtom) {f : Nat → Eff}
    (hf : ∀ n, (f n).Follows s c i n) :
    let t := (s.begun c i).does (localAtomics i c.g.team l [] fun accs => enterBuffer c i accs [] [] f)
    SameButWords s t ∧ Quiet s t c i ∧ t.teams.find c.g.team = some (l.foldl (atomTeam i) tm)
      ∧ Opens s t c i (.buffered (s.now + 48)) fun o => o.accs = localAccs i l tm := by
  have hbegun := begun_sameButIssue hr
  obtain ⟨hteams, hnow⟩ := hbegun.teams_now
  obtain ⟨e, he, hdoes, hfind⟩ := does_localAtomics i c.g.team l [] (fun accs => enterBuffer c i accs [] [] f) (hteams ▸ ht)
  have henter := buffers_enterBuffer c i (localAccs i l tm) [] [] fun n => (hf n).only
  have hquiet := (begun_sending hr).quiet.of_groups (he.words_groups _)
  obtain ⟨hq, -, hop⟩ := enterBuffer_begins hr hquiet ((he.words_ids _).trans (begun_ids s c i)) ((he.words_now _).trans hnow)
    (localAccs i l tm) [] [] (hf s.ids)
  dsimp only
  rw [hdoes, List.nil_append]
  exact ⟨henter.buffers_words.sameButWords (he.words_buffers.sameButWords hbegun.words), hq, by rw [henter.buffers_teams]; exact hfind, hop⟩

/-- `ATOM`, `ACAS` and `RED` on the local store, with nothing to wait for. -/
theorem atomicIssue_local (hi : s.issuing i = some c) (ha : acts c i = true) (hcl : Clean c i) (ht : s.teams.find c.g.team = some tm) {m : Nat}
    (hm : AtomWords i m) {a : Src} {mc : Mc} {dat : Iss → Nat → Lanes} {notice : Nat} (hx : exec i s = issue i s fun c s => atomicIssue c s i true a mc (dat c) notice)
    (hal : ∀ p ∈ addrs c true a mc.ofs (accBytes i) c.on.lanes, p.2 % accBytes i = 0 ∧ p.2 + accBytes i ≤ tm.lsBytes)
    (hnd : ((addrs c true a mc.ofs (accBytes i) c.on.lanes).map Prod.snd).Nodup) (hb : localBefore s c i = []) {new : Nat → Nat → Nat}
    (hnew : ∀ L old, old.length = accBytes i → (rmw (atomKind i) (dat c L) old none).getD old = leBytes (accBytes i) (new L (leNat old))) :
    BeginsLocally s c i tm (accBytes i) (addrs c true a mc.ofs (accBytes i) c.on.lanes) new := by
  have hr := (issuing_iff.1 hi).1
  have hc := gid_of_reaching hr
  have hbody : atomicIssue c s.landed i true a mc (dat c) notice
      = .done (localAtomics i c.g.team (laneAtoms (addrs c true a mc.ofs (accBytes i) c.on.lanes) (dat c)) [] fun accs => enterBuffer c i accs [] [] fun id =>
          andThen (contWaits c id) (later (76 - notice) (100 - notice) (endStep (opOf c s.landed i .sent [] [] [] id) id))) := by
    rw [atomicIssue, consuming_clean hcl]
    dsimp only
    rw [aligned_passes (ls := true) (fun p hp => (hal p hp).1) fun _ p hp => tm_of_reaching hr ht ▸ (hal p hp).2, if_pos rfl, landed_localBefore, hb]
    rfl
  obtain ⟨hsame, hquiet, hteam, hop⟩ := localAtomics_enter hr ht (laneAtoms (addrs c true a mc.ofs (accBytes i) c.on.lanes) (dat c)) (f := fun id =>
    andThen (contWaits c id) (later (76 - notice) (100 - notice) (endStep (opOf c s.landed i .sent [] [] [] id) id)))
    fun n => follows_andThen (follows_contWaits hc n) (follows_later ..)
  generalize addrs c true a mc.ofs (accBytes i) c.on.lanes = l at hal hnd hbody hsame hquiet hteam hop ⊢
  have halign (q : LaneAtom) (hq : q ∈ laneAtoms l (dat c)) : q.2.1 % (4 * m) = 0 := by
    obtain ⟨p, hp, rfl⟩ := List.mem_map.1 hq
    exact hm.acc ▸ (hal p hp).1
  have halign4 (q : LaneAtom) (hq : q ∈ laneAtoms l (dat c)) : q.2.1 % 4 = 0 :=
    Nat.mod_eq_zero_of_dvd ((Nat.dvd_mul_right 4 m).trans (Nat.dvd_of_mod_eq_zero (halign q hq)))
  have hapart : ((laneAtoms l (dat c)).map fun q => q.2.1).Nodup := by
    rw [laneAtoms, List.map_map]
    exact hnd
  obtain ⟨hwords, haccs⟩ := foldl_atomTeam hm halign hapart tm
  have hpos := hm.pos
  refine ⟨_, _, hx.trans (issue_done hi ha hbody), hsame, hquiet, hteam, fun p hp hclean => ?_, fun k hk => ?_, hop.imp fun o ho p hp => ?_⟩
  · have h4 := halign4 _ (mem_laneAtoms (dat := dat c) hp)
    rw [hm.acc] at hclean hnew ⊢
    rw [lsRead_congr hpos h4 (hwords _ (mem_laneAtoms hp)), atomTeam_read hm h4 tm hclean]
    exact ⟨hnew _ _ (lsRead_length tm hpos h4), rfl⟩
  · refine foldl_atomTeam_outside hm halign4 tm fun q hq => ?_
    obtain ⟨p, hp, rfl⟩ := List.mem_map.1 hq
    have h := hk p hp
    rw [hm.acc] at h
    dsimp only
    omega
  · rw [ho, hm.acc, Nat.mul_div_cancel_left m (by decide)]
    exact haccs _ (mem_laneAtoms hp)

end Local

-- the instructions

/-- The data of a lane: `m` registers from the operand on. -/
def atomData (c : Iss) (b : Src) (m L : Nat) : Lanes := (List.range m).map fun k => lane (c.srcK 2 b k) L

theorem exec_atom (s : State) (h : Head) (ls : Bool) (op : Aop) (w64 : Bool) (d : Dst) (a b : Src) (mc : Mc) :
    exec (.atom h ls op w64 d a b mc) s = issue (.atom h ls op w64 d a b mc) s fun c s =>
      atomicIssue c s (.atom h ls op w64 d a b mc) ls a mc (atomData c b (if w64 then 2 else 1)) 7 := rfl

theorem exec_red (s : State) (h : Head) (ls : Bool) (op : Aop) (w64 : Bool) (a b : Src) (mc : Mc) :
    exec (.red h ls op w64 a b mc) s = issue (.red h ls op w64 a b mc) s fun c s =>
      atomicIssue c s (.red h ls op w64 a b mc) ls a mc (atomData c b (if w64 then 2 else 1)) 1 := rfl

theorem exec_acas (s : State) (h : Head) (ls w64 : Bool) (d : Dst) (a b : Src) (mc : Mc) :
    exec (.acas h ls w64 d a b mc) s = issue (.acas h ls w64 d a b mc) s fun c s =>
      atomicIssue c s (.acas h ls w64 d a b mc) ls a mc (atomData c b (2 * if w64 then 2 else 1)) 7 := by
  cases w64 <;> rfl

/-- Settles O34: on global memory each enters the store buffer with an access for each lane (`globally_begins`); on the local store the lanes, at
different locations, are performed in turn on the words that stood at issue (`foldl_atomTeam`). -/
theorem atomicsBegin : Obligations.AtomicsBegin := by
  intro s c h op w64 clr ty d a b mc tm n dat globally locally regs
  refine ⟨fun hi ha hcl hal hw => atomicIssue_global hi ha hcl (exec_atom ..) hal hw, fun hi ha hcl hal hw => atomicIssue_global hi ha hcl (exec_acas ..) hal hw,
    fun hi ha hcl hal hw => atomicIssue_global hi ha hcl (exec_red ..) hal hw, fun hi ha hcl hal hw => xadd_begins hi ha hcl hal hw,
    fun hi ha hcl hal hw => xrd_begins hi ha hcl hal hw,
    fun hi ha hcl ht hal hnd hb => atomicIssue_local hi ha hcl ht (atomWords_atom ..) (exec_atom ..) hal hnd hb
      (new := fun L old => atomOp op (8 * n) old (leNat (storeBytesOf n (dat regs L)))) fun L old _ => rmw_atom_getD ..,
    fun hi ha hcl ht hal hnd hb => atomicIssue_local hi ha hcl ht (atomWords_red ..) (exec_red ..) hal hnd hb
      (new := fun L old => atomOp op (8 * n) old (leNat (storeBytesOf n (dat regs L)))) fun L old _ => rmw_atom_getD ..,
    fun hi ha hcl ht hal hnd hb => atomicIssue_local hi ha hcl ht (atomWords_acas ..) (exec_acas ..) hal hnd hb
      (new := fun L old => if old = leNat (storeBytesOf n (dat (2 * regs) L)) then leNat (storeBytesOf n ((dat (2 * regs) L).drop (n / 4))) else old)
      fun L old hl => rmw_acas_getD _ _ hl⟩

end Sys2Proof.Machine
end
